-- ==== Sys2Proof/Word.lean ====
section
/-! DEFINITION. The word types of the engine (R4, R5, R36): registers are 32-bit words, memory cells are bytes,
FP32 values are kept as their 32 bits. -/

namespace Sys2Proof

/-- A register word (R371: every access moves 32 bits). -/
abbrev Word := BitVec 32

/-- A 64-bit value: time-base values, fence values, doorbells, addresses held in records. -/
abbrev DWord := BitVec 64

/-- One byte of memory (R5). -/
abbrev Byte := BitVec 8

/-- An FP32 value as its bits (R36). -/
abbrev F32 := BitVec 32

end Sys2Proof
end

