-- ==== Sys2Proof/Syntax.lean ====
section
/-! DEFINITION. The commands of the block: one constructor for each row of the table of operations and events.
A task instruction is the step in which a core's sequencer issues the instruction its program counter names, so its
operand is the core; a Retriever instruction names the core and the Retriever; a register row carries the written
word and the identity of the initiator (R371); a row whose step reads or writes host memory carries the code of the
memory port's reply (R379); a row that reports a physical event carries what was observed. -/

namespace Sys2Proof

/-- The identity the interconnect drives with a config-port request, and CFG_AID (R371). -/
structure Acc where
  priv : Bool
  sec : Bool
  ctx : BitVec 16
  id : BitVec 4 := 0
  deriving DecidableEq, Repr

/-- How the memory port answered the accesses of a step (R379); `timeout` is the engine's own cause. -/
inductive MemCode where
  | ok | tgterr | notgt | timeout
  deriving DecidableEq, Repr

/-- The registers of a time base that R235 protects. -/
inductive TbReg where
  | ctrl | nom | tol | setLo | setHi
  deriving DecidableEq, Repr

/-- The three words of a sample-port binding (R389). -/
inductive BindReg where
  | cfg | tgt | store
  deriving DecidableEq, Repr

/-- The four words of a tile-port binding (R396). -/
inductive TileReg where
  | cfg | geom | refs | dseq
  deriving DecidableEq, Repr

/-- The reply code of a tile read (R390). -/
inductive TileCode where
  | ok | notReady | error | reserved
  deriving DecidableEq, Repr

/-- The checks of R315 that report an uncorrectable fault: the sources of FLT_REC (R346), and a calendar entry. -/
inductive FaultSrc where
  | spd | acm | weightParity | weightReadback | columnTest | fabric | memoryPort | calendar
  deriving DecidableEq, Repr

/-- What a scrub step found in the row it read (R325). -/
inductive ScrubResult where
  | clean | corrected | uncorrectable
  deriving DecidableEq, Repr

/-- A power domain (R399, R400). -/
inductive Domain where
  | engine
  | pack (p : Nat)
  | core (c : Nat)
  deriving DecidableEq, Repr

/-- A received Drabin frame of the message type its row names (R351): bytes 0 to 1, byte 3, bytes 4 to 15, the
ciphertext body and the 16 tag bytes. -/
structure PeerFrame where
  ver : BitVec 16
  dst : Byte
  sid : Word
  ctr : DWord
  body : List Byte
  tag : List Byte
  deriving DecidableEq, Repr

/-- A received link frame as its bytes, with what the link and the receive buffer say of it (R398). -/
structure RawFrame where
  bytes : List Byte
  err : Bool
  framing : Bool
  full : Bool
  deriving DecidableEq, Repr

/-- A core or a ring whose job is saved or resumed, with the reply of the memory system to its save areas (R256, R295). -/
structure SaveAt where
  unit : Nat
  mem : MemCode
  deriving DecidableEq, Repr

/-- A core whose corrected words are written back; `found` is a check that has corrected a single-bit error for a reader, with its source,
location and column (R315, R316). -/
structure WriteBack where
  core : Nat
  found : Option (FaultSrc × BitVec 16 × BitVec 5)
  deriving DecidableEq, Repr

/-- The commands: one constructor per row of the opcode table, in the table's order. -/
inductive Instr where
  /-- NOP (R190). -/
  | nop (core : Nat)
  /-- END (R190). -/
  | endSlot (core : Nat)
  /-- LOADW (R168). -/
  | loadw (core : Nat)
  /-- MATMUL (R169). -/
  | matmul (core : Nat)
  /-- MATVEC (R170). -/
  | matvec (core : Nat)
  /-- RECUR (R138). -/
  | recur (core : Nat)
  /-- SCAN (R149). -/
  | scan (core : Nat)
  /-- LCONV (R152). -/
  | lconv (core : Nat)
  /-- GATE (R174). -/
  | gate (core : Nat)
  /-- FUNC (R175). -/
  | func (core : Nat)
  /-- REDUCE (R176). -/
  | reduceSeq (core : Nat)
  /-- CONVERT (R177). -/
  | convert (core : Nat)
  /-- MOVE (R182). -/
  | move (core : Nat)
  /-- QPUSH (R184). -/
  | qpush (core : Nat)
  /-- QPOP (R184). -/
  | qpop (core : Nat)
  /-- WAIT (R185). -/
  | waitCnt (core : Nat)
  /-- SIGNAL (R185). -/
  | signalCnt (core : Nat)
  /-- SYNC_TIMEOUT (R186). -/
  | syncTimeout (core : Nat)
  /-- BRANCH (R188). -/
  | branch (core : Nat)
  /-- SUMMARY (R187). -/
  | summary (core : Nat)
  /-- RTV_ARM (R215). -/
  | rtvArm (core rtv : Nat) (value : Word) (acc : Acc)
  /-- RTV_DISARM (R227). -/
  | rtvDisarm (core rtv : Nat) (value : Word) (acc : Acc)
  /-- RTV_STOP (R227). -/
  | rtvStop (core rtv : Nat) (value : Word) (acc : Acc)
  /-- RTV_RUN_START (R215). -/
  | rtvRunStart (core rtv : Nat)
  /-- RTV_END (R214). -/
  | rtvEnd (core rtv : Nat)
  /-- RD (R214). -/
  | rd (core rtv : Nat)
  /-- WR (R214). -/
  | wr (core rtv : Nat)
  /-- LIST (R216). -/
  | rtvList (core rtv : Nat)
  /-- SETA (R214). -/
  | seta (core rtv : Nat)
  /-- ADDA (R214). -/
  | adda (core rtv : Nat)
  /-- SETO (R214). -/
  | seto (core rtv : Nat)
  /-- ADDO (R214). -/
  | addo (core rtv : Nat)
  /-- SETL (R214). -/
  | setl (core rtv : Nat)
  /-- LOOP (R214). -/
  | rtvLoop (core rtv : Nat)
  /-- NEXTP (R214). -/
  | nextp (core rtv : Nat)
  /-- WAITC (R214). -/
  | waitc (core rtv : Nat)
  /-- SIG (R214). -/
  | sig (core rtv : Nat)
  /-- FENCE (R214). -/
  | rtvFence (core rtv : Nat)
  /-- JMP (R214). -/
  | jmp (core rtv : Nat)
  /-- RTV_LINE_LANDED (R217). -/
  | rtvLineLanded (core rtv : Nat)
  /-- DB_LO (R284). -/
  | dbLo (ring : Nat) (value : Word) (acc : Acc)
  /-- DB_HI (R284). -/
  | dbHi (ring : Nat) (value : Word) (acc : Acc)
  /-- CREATE (R283). -/
  | create (ring : Nat) (acc : Acc) (mem : MemCode)
  /-- DESTROY (R283). -/
  | destroy (ring : Nat) (acc : Acc)
  /-- DESCRIPTOR_FETCH (R285). -/
  | descriptorFetch
  /-- DESCRIPTOR_ACCEPT (R289). -/
  | descriptorAccept (ring : Nat) (mem : MemCode)
  /-- DESC_NOP (R288). -/
  | descNop (ring : Nat)
  /-- JOB (R291). -/
  | job (ring : Nat)
  /-- RESERVE (R245). -/
  | reserve (ring : Nat) (mem : MemCode)
  /-- ARM (R245). -/
  | arm (ring : Nat) (mem : MemCode)
  /-- ARM_AFTER_SCAN (R420). -/
  | armAfterScan (ring : Nat) (mem : MemCode)
  /-- RELEASE (R245). -/
  | release (ring : Nat)
  /-- GROUP_RELEASE_EFFECT (R245). -/
  | groupReleaseEffect (gid : Nat)
  /-- QUERY (R264). -/
  | query (ring : Nat) (mem : MemCode)
  /-- RECLAIM (R305). -/
  | reclaim (ring : Nat)
  /-- FENCE_INIT (R297). -/
  | fenceInit (ring : Nat)
  /-- STOP (R307). -/
  | stop (ring : Nat)
  /-- ABORT (R307). -/
  | abort (ring : Nat)
  /-- RESUME (R307). -/
  | resume (ring : Nat)
  /-- QUIESCE (R307). -/
  | quiesce (ring : Nat)
  /-- PARK (R247). -/
  | park (ring : Nat)
  /-- UNPARK (R247). -/
  | unpark (ring : Nat)
  /-- WAIT_TIMEOUT (R301). -/
  | waitTimeout (ring : Nat)
  /-- JOB_START (R292). -/
  | jobStart (core : Nat)
  /-- COMPLETION (R294). -/
  | completion (ring : Nat)
  /-- OBJECT_RECORD (R304). -/
  | objectRecord (obj : Nat) (mem : MemCode)
  /-- TB_TICK (R232). -/
  | tbTick (line : Nat)
  /-- TB_NET_STROBE (R233). -/
  | tbNetStrobe (value : DWord)
  /-- FREE_RUN_ADVANCE (R231). -/
  | freeRunAdvance (tb : Nat)
  /-- TB_STALL (R234). -/
  | tbStall (tb : Nat)
  /-- TBASE_CTRL_WRITE (R235). -/
  | tbaseCtrlWrite (tb : Nat) (reg : TbReg) (value : Word) (acc : Acc)
  /-- VAL_LO_READ (R237). -/
  | valLoRead (tb : Nat)
  /-- MARK_T_HI (R243). -/
  | markTHi (value : Word) (acc : Acc)
  /-- FRAME_FIRE (R249). -/
  | frameFire (pack : Nat)
  /-- PREFIRE_FIRE (R241). -/
  | prefireFire (pack : Nat)
  /-- TRACE_LOST_RECORD (R405). -/
  | traceLostRecord
  /-- PREEMPT_LST_TIMER (R257). -/
  | preemptLstTimer (core : Nat)
  /-- PREEMPTION_POINT (R256). -/
  | preemptionPoint (core : SaveAt)
  /-- JOB_RESUME (R258). -/
  | jobResume (ring : SaveAt)
  /-- FRAME_START (R249). -/
  | frameStart (pack : Nat)
  /-- END_COLLECTION (R274). -/
  | endCollection (gid : Nat)
  /-- FRAME_COMMIT (R322). -/
  | frameCommit (gid : Nat)
  /-- FRAME_DEADLINE (R260). -/
  | frameDeadline (gid : Nat)
  /-- BUDGET_RESTORE (R250). -/
  | budgetRestore (pack : Nat)
  /-- STANDBY_MOVE (R255). -/
  | standbyMove (gid : Nat)
  /-- GOVERNOR_WINDOW (R434). -/
  | governorWindow (slowed : Bool)
  /-- UNCORRECTABLE_FAULT (R315). -/
  | uncorrectableFault (core : Nat) (src : FaultSrc) (loc : BitVec 16) (col : BitVec 5)
  /-- STATE_BANK_REWRITE (R321). -/
  | stateBankRewrite (core : Nat) (index : Nat)
  /-- CORRECTED_WRITEBACK (R316). -/
  | correctedWriteback (core : WriteBack)
  /-- SPD_SCRUB (R325). -/
  | spdScrub (core : Nat) (line : Nat) (res : ScrubResult)
  /-- ACM_SCRUB (R325). -/
  | acmScrub (core : Nat) (array : Nat) (row : Nat) (res : ScrubResult)
  /-- WEIGHT_READBACK (R326). -/
  | weightReadback (core : Nat) (array : Nat) (upsets : List (Nat × BitVec 16))
  /-- KNOWN_ANSWER_TEST (R327). -/
  | knownAnswerTest (core : Nat) (fails : List (Nat × Nat))
  /-- FAULT_WINDOW_END (R328). -/
  | faultWindowEnd
  /-- CONTROL_RETRY (R315). -/
  | controlRetry (core : Nat) (failedAgain : Bool) (source : BitVec 5)
  /-- LOCKSTEP_MISMATCH (R329). -/
  | lockstepMismatch
  /-- CAL_ENTRY_REWRITE (R329). -/
  | calEntryRewrite (pack : Nat) (entry : Nat)
  /-- AGING_SAMPLE (R330). -/
  | agingSample (core : Nat) (count : BitVec 16)
  /-- KENNEL_ENABLE (R347). -/
  | kennelEnable (value : Word) (acc : Acc)
  /-- KENNEL_SCAN (R341). -/
  | kennelScan (mem : MemCode)
  /-- FORMAT (R332). -/
  | format (value : Word) (acc : Acc) (mem : MemCode)
  /-- FREE_FOREIGN (R341). -/
  | freeForeign (value : Word) (acc : Acc)
  /-- KENNEL_SNAPSHOT (R338). -/
  | kennelSnapshot (stream : Nat)
  /-- KENNEL_RECORD_WRITE (R337). -/
  | kennelRecordWrite (mem : MemCode)
  /-- KENNEL_HEADER_ACK (R337). -/
  | kennelHeaderAck (mem : MemCode) (verifyOk : Bool)
  /-- PF_NOTICE (R344). -/
  | pfNotice
  /-- PF_FINAL_RECORDS (R344). -/
  | pfFinalRecords (mem : MemCode)
  /-- PF_DONE (R344). -/
  | pfDone
  /-- PORST_N (R406). -/
  | porstN
  /-- ENG_RST_N (R406). -/
  | engRstN
  /-- TRST_N (R404). -/
  | trstN
  /-- RESET_RELEASE (R406). -/
  | resetRelease (por eng : Bool)
  /-- ENTER_EARLY (R409). -/
  | enterEarly (fails : List (Nat × Nat × Nat × Bool))
  /-- POWER_DOMAIN_ACK (R400). -/
  | powerDomainAck (dom : Domain) (level : Bool)
  /-- FW_LOAD (R415). -/
  | fwLoad (value : Word) (acc : Acc)
  /-- FW_VERIFY_COMPLETE (R416). -/
  | fwVerifyComplete (mem : MemCode)
  /-- HANDOVER (R418). -/
  | handover (fails : List (Nat × Nat × Nat × Bool))
  /-- HANDLE_WORD0 (R206). -/
  | handleWord0 (core index : Nat) (value : Word) (acc : Acc)
  /-- HANDLE_WORD1 (R206). -/
  | handleWord1 (core index : Nat) (value : Word) (acc : Acc)
  /-- COLLAR_WORD0 (R210). -/
  | collarWord0 (core index : Nat) (value : Word) (acc : Acc)
  /-- COLLAR_WORD1 (R210). -/
  | collarWord1 (core index : Nat) (value : Word) (acc : Acc)
  /-- TABLE_COMMIT (R207). -/
  | tableCommit (core : Nat)
  /-- SEG_PWR_WRITE (R203). -/
  | segPwrWrite (core : Nat) (value : Word) (acc : Acc)
  /-- SEGMENT_UP (R203). -/
  | segmentUp (core : Nat)
  /-- FX_LOAD (R113). -/
  | fxLoad (core : Nat) (value : Word) (acc : Acc)
  /-- FX_LOAD_COMPLETE (R119). -/
  | fxLoadComplete (core : Nat)
  /-- HIST_CLR (R131). -/
  | histClr (core : Nat) (value : Word) (acc : Acc)
  /-- RMC_INV_CNT (R221). -/
  | rmcInvCnt (pack : Nat) (value : Word) (acc : Acc)
  /-- RMC_INV_DONE (R221). -/
  | rmcInvDone (pack : Nat)
  /-- REMOTE_WRITE_ARRIVAL (R211). -/
  | remoteWriteArrival (source dest : Nat)
  /-- REMOTE_WRITE_ACK (R209). -/
  | remoteWriteAck (core : Nat)
  /-- REMOTE_READ (R209). -/
  | remoteRead (core : Nat)
  /-- HQ_WRITE (R433). -/
  | hqWrite (queue : Nat) (value : Word) (acc : Acc)
  /-- CH_ARM (R224). -/
  | chArm (channel : Nat) (value : Word) (acc : Acc)
  /-- DMA_TRANSFER_START (R225). -/
  | dmaTransferStart
  /-- DMA_BURST (R225). -/
  | dmaBurst (mem : MemCode)
  /-- CH_ABORT_ACTIVE (R226). -/
  | chAbortActive (channel : Nat) (value : Word) (acc : Acc)
  /-- CH_ABORT_SHADOW (R226). -/
  | chAbortShadow (channel : Nat) (value : Word) (acc : Acc)
  /-- MEM_READ_DATA (R376). -/
  | memReadData (channel tag : Nat) (code : MemCode)
  /-- MEM_WRITE_COMPLETION (R378). -/
  | memWriteCompletion (channel tag : Nat) (code : MemCode)
  /-- MEM_TIMEOUT (R379). -/
  | memTimeout (channel tag : Nat)
  /-- LAT_CLR (R380). -/
  | latClr (value : Word) (acc : Acc)
  /-- INGRESS_WORD (R384). -/
  | ingressWord (lane : Nat) (data : Word) (tag : BitVec 16)
  /-- STORED_WORD_LAND (R384). -/
  | storedWordLand (lane : Nat)
  /-- EGRESS_WORD (R387). -/
  | egressWord (lane : Nat)
  /-- IN_CFG_WRITE (R383). -/
  | inCfgWrite (lane : Nat) (reg : BindReg) (value : Word) (acc : Acc)
  /-- OUT_CFG_WRITE (R383). -/
  | outCfgWrite (lane : Nat) (reg : BindReg) (value : Word) (acc : Acc)
  /-- TILE_READY (R392). -/
  | tileReady (surf : Nat) (pass : Nat) (tile : Nat)
  /-- TILE_RESOLVE (R393). -/
  | tileResolve (surf : Nat) (pass : Nat) (tile : Nat)
  /-- TILE_ANNOUNCE_RESERVED (R390). -/
  | tileAnnounceReserved (surf : Nat) (pass : Nat) (tile : Nat)
  /-- TILE_READ_DATA (R390). -/
  | tileReadData (tag : Nat) (data : BitVec 512) (code : TileCode)
  /-- TILE_RETRY (R390). -/
  | tileRetry (tag : Nat)
  /-- TB_CFG_WRITE (R391). -/
  | tbCfgWrite (binding : Nat) (reg : TileReg) (value : Word) (acc : Acc)
  /-- HELLO (R350). -/
  | hello (frame : PeerFrame)
  /-- HEARTBEAT (R350). -/
  | heartbeat (frame : PeerFrame)
  /-- OFFER (R362). -/
  | offer (frame : PeerFrame) (mem : MemCode)
  /-- ACCEPT (R363). -/
  | accept (frame : PeerFrame)
  /-- REFUSE (R368). -/
  | refuse (frame : PeerFrame)
  /-- SNAP (R363). -/
  | snap (frame : PeerFrame)
  /-- SNAP_DONE (R363). -/
  | snapDone (frame : PeerFrame)
  /-- DIGEST (R364). -/
  | digest (frame : PeerFrame)
  /-- COMMIT (R365). -/
  | commit (frame : PeerFrame)
  /-- COMMIT_ACK (R365). -/
  | commitAck (frame : PeerFrame)
  /-- YIELD (R365). -/
  | yieldGroup (frame : PeerFrame)
  /-- DRABIN_ABORT (R366). -/
  | drabinAbort (frame : PeerFrame)
  /-- ABORT_ACK (R366). -/
  | abortAck (frame : PeerFrame)
  /-- HEARTBEAT_PERIOD (R350). -/
  | heartbeatPeriod
  /-- HB_MISS_EXPIRY (R350). -/
  | hbMissExpiry (member : Nat)
  /-- TOKEN_BUCKET_REFILL (R354). -/
  | tokenBucketRefill
  /-- KEY_WRITE (R355). -/
  | keyWrite (slot word : Nat) (value : Word) (acc : Acc)
  /-- PART_CFG_WRITE (R350). -/
  | partCfgWrite (member : Nat) (value : Word) (acc : Acc)
  /-- MIG_START (R361). -/
  | migStart (acc : Acc)
  /-- MIG_ABORT (R366). -/
  | migAbort (acc : Acc)
  /-- ACPT_EN_CLEAR (R366). -/
  | acptEnClear (value : Word) (acc : Acc)
  /-- MIG_SNAPSHOT (R359). -/
  | migSnapshot
  /-- EVT_CLR (R425). -/
  | evtClr (page : Nat) (value : Word) (acc : Acc)
  /-- EVT_SET (R425). -/
  | evtSet (page : Nat) (value : Word) (acc : Acc)
  /-- CAL_ENT0_READ (R435). -/
  | calEnt0Read (pack : Nat)
  /-- TIME_LO_READ (R436). -/
  | timeLoRead
  /-- LIMIT_WRITE (R434). -/
  | limitWrite (value : Word) (acc : Acc)
  /-- REGISTER_WRITE (R9). -/
  | registerWrite (addr : Nat) (value : Word) (acc : Acc)
  /-- EXTEST (R404). -/
  | extest
  /-- SAMPLE_PRELOAD (R404). -/
  | samplePreload
  /-- IDCODE (R404). -/
  | idcode
  /-- CFGACC (R404). -/
  | cfgacc (addr : Nat) (data : Word) (write : Bool)
  /-- TRACECTL (R404). -/
  | tracectl (value : Word)
  /-- BYPASS (R404). -/
  | bypass (code : BitVec 8)
  /-- SHEEPDOG_RESTART_COMPLETE (R329). -/
  | sheepdogRestartComplete
  /-- PLL_LOCK (R369). -/
  | pllLock
  /-- PEER_FRAME_DROPPED (R398). -/
  | peerFrameDropped (frame : RawFrame)
  deriving DecidableEq, Repr

end Sys2Proof
end

