-- ==== Sys2Proof/Config.lean ====
section
/-! DEFINITION. What an implementation fixes and what the spec leaves open. Every constant here has no body: nothing can
be proved of its value, so a claim holds whatever it is. -/

namespace Sys2Proof.Config

/-- The physical fuse values (R438, R95, R330, R415, R404). CONFIG's PACKS and HIST follow the configuration (R1). -/
structure Fuses where
  debugEn : Bool
  svn : Word
  ageWarn : BitVec 16
  keyHash : BitVec 384
  /-- SPARE[nn]: for array a, bit 6a USED and bits [6a + 5 : 6a + 1] COL. -/
  spare : List (BitVec 24)
  deriving DecidableEq, Repr, Inhabited

/-- The fuses of this chip. -/
opaque fuses : Fuses

/-- A free bit, fresh for each index: a tick edge that arrives too early advances its time base by 0 or 1 (R232). -/
opaque freeBit : Nat → Bool

/-- A free byte of host memory: the content of a byte after a write that completed as an error (R379), and of a save
area, whose layout belongs to the engine (R256). Indexed by the free-value counter and the address. -/
opaque freeByte : Nat → Nat → Byte

/-- A free word: what a boundary-scan capture returns (R404). -/
opaque freeWord : Nat → Word

/-- What PROG_ERR and the frame record report when a Retriever's code fails a frame: status and offset (R193, R217). R192 lists
no status for a Retriever. Indexed by the code. -/
opaque rtvFail : Nat → Byte × Word

/-- The ACM cell of an LCONV output: no rule places it (R80, R154). Indexed by the instruction word, the channel, the stream and
the absolute step; the value modulo 65,536 is array x 16,384 + row x 32 + column. -/
opaque lconvCell : Nat → Nat → Nat → Nat → Nat

/-- What LCONV leaves in cell `i` of array `a`'s planes (1,024 on: the shadow plane), and for a = 4 in byte `i` of the broadcast
register: no rule places the Toeplitz elements (R154). Indexed by the instruction word, the kernel's bytes, a and i. -/
opaque lconvWord : Nat → List Nat → Nat → Nat → BitVec 16

/-- The BF16 code that a pass reads from a word of a resident plane when the instruction names FP32 weights (R91, R170).
Indexed by the pass and the word. -/
opaque residentPart : Nat → BitVec 16 → BitVec 16

end Sys2Proof.Config
end

