-- ==== Sys2Proof/Machine/Float.lean ====
section
/-! DEFINITION. Numbers (02_number_formats): decoding every format, exact sums and products, the one rounding function,
the binary32 operations of VX (R35, R47), the exact group sum (R76 to R79) and the PAIR32 operations (R37, R87, R143). -/

namespace Sys2Proof.Machine

/-- The value of a code: NaN, an infinity, or an exact finite number (-1)^neg * m * 2^e, the sign kept on zero. -/
inductive FV where
  | nan
  | inf (neg : Bool)
  | fin (neg : Bool) (m : Nat) (e : Int)
  deriving DecidableEq, Repr

/-- The tensor formats of R30 that have a code. -/
inductive Fmt where
  | fp32 | bf16 | fp16 | e4m3 | e5m2 | f4 | pair32 | int32
  deriving DecidableEq, Repr

/-- R30: codes 0x8 to 0xF are reserved. -/
def Fmt.ofCode (c : Nat) : Option Fmt :=
  match c with
  | 0 => some .fp32 | 1 => some .bf16 | 2 => some .fp16 | 3 => some .e4m3
  | 4 => some .e5m2 | 5 => some .f4 | 6 => some .pair32 | 7 => some .int32
  | _ => none

/-- Element size in bits (R30). -/
def Fmt.bits : Fmt → Nat
  | .fp32 => 32 | .bf16 => 16 | .fp16 => 16 | .e4m3 => 8 | .e5m2 => 8 | .f4 => 4 | .pair32 => 64 | .int32 => 32

/-- Bytes of `n` densely packed elements of one row (R32): a row starts on a byte boundary. -/
def Fmt.rowBytes (f : Fmt) (n : Nat) : Nat := (n * f.bits + 7) / 8

/-- Short formats (R30). -/
def Fmt.short : Fmt → Bool
  | .e4m3 => true | .e5m2 => true | .f4 => true | _ => false

/-- Working formats (R30). -/
def Fmt.working : Fmt → Bool
  | .bf16 => true | .fp16 => true | _ => false

/-- Operand width in the arrays (R66): 16, 8 or 4; 0 for a format that enters only split (R90). -/
def Fmt.arrayWidth : Fmt → Nat
  | .bf16 => 16 | .fp16 => 16 | .e4m3 => 8 | .e5m2 => 8 | .f4 => 4 | _ => 0

/-- A binary layout: significand precision, exponent of the subnormal spacing, largest finite magnitude code. -/
structure Layout where
  prec : Nat
  emin : Int
  maxMag : Nat
  deriving DecidableEq, Repr

/-- R36, R38, R39, R41, R42, R43. -/
def Fmt.layout : Fmt → Layout
  | .bf16 => ⟨8, -133, 0x7F7F⟩
  | .fp16 => ⟨11, -24, 0x7BFF⟩
  | .e4m3 => ⟨4, -9, 0x7F⟩
  | .e5m2 => ⟨3, -16, 0x7B⟩
  | .f4 => ⟨2, -1, 0x7⟩
  | _ => ⟨24, -149, 0x7F7FFFFF⟩

/-- The finite magnitude that a magnitude code spells: fraction and exponent field read as binary formats read them. -/
def Layout.decode (l : Layout) (neg : Bool) (mag : Nat) : FV :=
  let frac := mag % 2 ^ (l.prec - 1)
  let ex := mag / 2 ^ (l.prec - 1)
  if ex = 0 then .fin neg frac l.emin else .fin neg (frac + 2 ^ (l.prec - 1)) (l.emin + (ex : Int) - 1)

/-- The value of an element code (R36 to R43). PAIR32 and INT32 are read elsewhere. The E5M2 code 0x80 is read as a negative zero, which
widening keeps (DESIGN CHOICE, log 82: R42 says only that it reads as zero). -/
def Fmt.decode (f : Fmt) (c : Nat) : FV :=
  let w := f.bits
  let c := c % 2 ^ w
  let neg := decide (2 ^ (w - 1) ≤ c)
  let mag := c % 2 ^ (w - 1)
  match f with
  | .e4m3 => if neg ∧ mag = 0 then .nan else f.layout.decode neg mag
  | .f4 => if neg ∧ mag = 0 then .nan else f.layout.decode neg mag
  | .e5m2 => if mag ≤ 0x7B then f.layout.decode neg mag else if mag = 0x7C then .inf neg else .nan
  | .bf16 => if mag ≤ 0x7F7F then f.layout.decode neg mag else if mag = 0x7F80 then .inf neg else .nan
  | .fp16 => if mag ≤ 0x7BFF then f.layout.decode neg mag else if mag = 0x7C00 then .inf neg else .nan
  | _ => if mag ≤ 0x7F7FFFFF then f.layout.decode neg mag else if mag = 0x7F800000 then .inf neg else .nan

/-- The value of FP32 bits. -/
def f32v (x : F32) : FV := Fmt.fp32.decode x.toNat

/-- The canonical NaN of each format (R45); PAIR32 as its high part. -/
def Fmt.nanCode : Fmt → Nat
  | .bf16 => 0x7FC0 | .fp16 => 0x7E00 | .e4m3 => 0x80 | .e5m2 => 0x7E | .f4 => 0x8 | _ => 0x7FC00000

/-! ## The one rounding function -/

/-- Exponent of the leading bit of num/den (num non-zero). -/
def ratLog2 (num den : Nat) : Int :=
  let l : Int := (Nat.log2 num : Int) - (Nat.log2 den : Int)
  let below := if 0 ≤ l then decide (num < den * 2 ^ l.toNat) else decide (num * 2 ^ (-l).toNat < den)
  if below then l - 1 else l

/-- How step 4 of R56 rounds: to nearest even, or stochastically with 16 random bits (R59). -/
inductive Rnd where
  | rne
  | stoch (r : Nat)
  deriving DecidableEq, Repr

/-- Rounds the magnitude num/den * 2^e to the layout's precision with an unbounded exponent range and the layout's
subnormal spacing (R56 step 4, R59); the result is a magnitude code that may exceed `maxMag`. -/
def Layout.roundMag (l : Layout) (rnd : Rnd) (num den : Nat) (e : Int) : Nat :=
  if num = 0 then 0
  else
    let q : Int := max (ratLog2 num den + e - ((l.prec : Int) - 1)) l.emin
    let n := num * 2 ^ (e - q).toNat
    let d := den * 2 ^ (q - e).toNat
    let quo := n / d
    let rem := n % d
    let up := match rnd with
      | .rne => decide (2 * rem > d) || (decide (2 * rem = d) && decide (quo % 2 = 1))
      | .stoch r => decide (65536 ≤ rem * 65536 / d + r)
    (q - l.emin).toNat * 2 ^ (l.prec - 1) + (if up then quo + 1 else quo)

/-- FP32 bits of a sign and a magnitude code, overflow going to infinity (R47). -/
def f32OfMag (neg : Bool) (mag : Nat) : F32 :=
  let m := if mag > 0x7F7FFFFF then 0x7F800000 else mag
  BitVec.ofNat 32 (if neg then 0x80000000 + m else m)

/-- The canonical FP32 NaN (R45). -/
def f32Nan : F32 := 0x7FC00000#32

/-- An infinity in FP32. -/
def f32Inf (neg : Bool) : F32 := if neg then 0xFF800000#32 else 0x7F800000#32

/-- RNE of an exact value to FP32, subnormals kept. -/
def f32Round : FV → F32
  | .nan => f32Nan
  | .inf neg => f32Inf neg
  | .fin neg m e => f32OfMag neg (Fmt.fp32.layout.roundMag .rne m 1 e)

/-! ## Exact operations -/

/-- Is the value NaN? -/
def FV.isNan : FV → Bool
  | .nan => true
  | _ => false

/-- Negation. -/
def FV.neg : FV → FV
  | .nan => .nan
  | .inf n => .inf (!n)
  | .fin n m e => .fin (!n) m e

/-- Magnitude. -/
def FV.abs : FV → FV
  | .nan => .nan
  | .inf _ => .inf false
  | .fin _ m e => .fin false m e

/-- The signed integer of a finite value in units of 2^q, for q at or below its exponent. -/
def signedAt (neg : Bool) (m : Nat) (e q : Int) : Int :=
  let v : Int := (m : Int) * 2 ^ (e - q).toNat
  if neg then -v else v

/-- The exact sum, with the sign of zero that round-to-nearest-even gives (R47). -/
def FV.add : FV → FV → FV
  | .nan, _ => .nan
  | _, .nan => .nan
  | .inf a, .inf b => if a = b then .inf a else .nan
  | .inf a, _ => .inf a
  | _, .inf b => .inf b
  | .fin na ma ea, .fin nb mb eb =>
    let q := min ea eb
    let s := signedAt na ma ea q + signedAt nb mb eb q
    if s = 0 then .fin (na && nb && (ma == 0 && mb == 0)) 0 0
    else .fin (decide (s < 0)) s.natAbs q

/-- The exact product. -/
def FV.mul : FV → FV → FV
  | .nan, _ => .nan
  | _, .nan => .nan
  | .inf a, .inf b => .inf (xor a b)
  | .inf a, .fin b m _ => if m = 0 then .nan else .inf (xor a b)
  | .fin a m _, .inf b => if m = 0 then .nan else .inf (xor a b)
  | .fin na ma ea, .fin nb mb eb => .fin (xor na nb) (ma * mb) (ea + eb)

/-! ## The binary32 operations of VX (R35, R47) -/

/-- a + b. -/
def f32Add (a b : F32) : F32 := f32Round ((f32v a).add (f32v b))

/-- a x b. -/
def f32Mul (a b : F32) : F32 := f32Round ((f32v a).mul (f32v b))

/-- a x b + c with one rounding. -/
def f32Fma (a b c : F32) : F32 := f32Round (((f32v a).mul (f32v b)).add (f32v c))

/-- The sign bit flipped (R106). -/
def f32Neg (a : F32) : F32 := a ^^^ 0x80000000#32

/-- The sign bit cleared (R106). -/
def f32Abs (a : F32) : F32 := a &&& 0x7FFFFFFF#32

/-- a - b: ADD with NEG on b (R106). -/
def f32Sub (a b : F32) : F32 := f32Add a (f32Neg b)

/-- Is the value a NaN? -/
def f32IsNan (a : F32) : Bool := decide ((a &&& 0x7FFFFFFF#32).toNat > 0x7F800000)

/-- Is the value finite? -/
def f32IsFin (a : F32) : Bool := decide ((a &&& 0x7FFFFFFF#32).toNat < 0x7F800000)

/-- Is the value zero of either sign? -/
def f32IsZero (a : F32) : Bool := (a &&& 0x7FFFFFFF#32) == 0#32

/-- Position in the order of VX minimum and maximum, in which -0 lies below +0 (R47). -/
def f32Order (a : F32) : Int :=
  let mag : Int := ((a &&& 0x7FFFFFFF#32).toNat : Int)
  if a.getLsbD 31 then -mag - 1 else mag

/-- Position in the IEEE order of comparison, in which -0 equals +0 (R47). -/
def f32Cmp (a : F32) : Int :=
  let mag : Int := ((a &&& 0x7FFFFFFF#32).toNat : Int)
  if a.getLsbD 31 then -mag else mag

/-- Minimum: a NaN loses to a number (R47). -/
def f32Min (a b : F32) : F32 :=
  if f32IsNan a then (if f32IsNan b then f32Nan else b)
  else if f32IsNan b then a
  else if f32Order a ≤ f32Order b then a else b

/-- Maximum (R47). -/
def f32Max (a b : F32) : F32 :=
  if f32IsNan a then (if f32IsNan b then f32Nan else b)
  else if f32IsNan b then a
  else if f32Order a ≥ f32Order b then a else b

/-- The predicates of R104. -/
inductive Pred where
  | eq | ne | lt | le | gt | ge
  deriving DecidableEq, Repr

/-- R104: 0b110 and 0b111 are refused. -/
def Pred.ofCode (c : Nat) : Option Pred :=
  match c with
  | 0 => some .eq | 1 => some .ne | 2 => some .lt | 3 => some .le | 4 => some .gt | 5 => some .ge
  | _ => none

/-- A predicate over a totally ordered pair. -/
def Pred.holds (p : Pred) (a b : Int) : Bool :=
  match p with
  | .eq => decide (a = b) | .ne => decide (a ≠ b) | .lt => decide (a < b)
  | .le => decide (a ≤ b) | .gt => decide (b < a) | .ge => decide (b ≤ a)

/-- Comparison of FP32 values: unordered operands make every predicate false except NE (R47). -/
def f32Compare (p : Pred) (a b : F32) : Bool :=
  if f32IsNan a || f32IsNan b then p == .ne else p.holds (f32Cmp a) (f32Cmp b)

/-- +1.0. -/
def f32One : F32 := 0x3F800000#32

/-- Reciprocal, correctly rounded (R35, R47). -/
def f32Recip (a : F32) : F32 :=
  match f32v a with
  | .nan => f32Nan
  | .inf n => f32OfMag n 0
  | .fin n m e => if m = 0 then f32Inf n else f32OfMag n (Fmt.fp32.layout.roundMag .rne 1 m (-e))

/-- a x 2^n with one rounding, subnormals kept (R111). -/
def f32Ldexp (a : F32) (n : Int) : F32 :=
  match f32v a with
  | .fin s m e => if m = 0 then a else f32Round (.fin s m (e + n))
  | v => f32Round v

/-- floor(log2 |a|) of a finite non-zero value (R111 ilogb). -/
def f32Ilogb (a : F32) : Int :=
  match f32v a with
  | .fin _ m e => (Nat.log2 m : Int) + e
  | _ => 0

/-- An integer as FP32 (exact where 24 bits hold it). -/
def f32OfInt (n : Int) : F32 := f32Round (.fin (decide (n < 0)) n.natAbs 0)

/-- The integer part of a magnitude m * 2^e and whether a fraction is left: floor, remainder numerator, denominator. -/
def floorParts (m : Nat) (e : Int) : Nat × Nat × Nat :=
  if 0 ≤ e then (m * 2 ^ e.toNat, 0, 1)
  else
    let d := 2 ^ (-e).toNat
    (m / d, m % d, d)

/-- Rounding to an integer with ties to even (R123 RINT), as an exact integer; infinities and NaN have none. -/
def rintInt (neg : Bool) (m : Nat) (e : Int) : Int :=
  let (q, r, d) := floorParts m e
  let n := if 2 * r > d || (2 * r == d && q % 2 == 1) then q + 1 else q
  if neg then -(n : Int) else (n : Int)

/-- RINT: the sign of a zero result is the sign of the argument. -/
def f32Rint (a : F32) : F32 :=
  match f32v a with
  | .fin n m e =>
    let v := rintInt n m e
    if v = 0 then f32OfMag n 0 else f32OfInt v
  | v => f32Round v

/-- FLOOR: the largest integer not above a (R123). -/
def f32Floor (a : F32) : F32 :=
  match f32v a with
  | .fin n m e =>
    let (q, r, _) := floorParts m e
    let v : Int := if n then -((if r = 0 then q else q + 1 : Nat) : Int) else (q : Int)
    if v = 0 then f32OfMag n 0 else f32OfInt v
  | v => f32Round v

/-- Does a finite value equal an integer, and which (R123 LDEXP)? -/
def f32ToInt? (a : F32) : Option Int :=
  match f32v a with
  | .fin n m e =>
    let (q, r, _) := floorParts m e
    if r = 0 then some (if n then -(q : Int) else (q : Int)) else none
  | _ => none

/-! ## PAIR32 -/

/-- A PAIR32 value as its two FP32 parts (R37). -/
structure Pair32 where
  hi : F32
  lo : F32
  deriving DecidableEq, Repr

/-- The value of a pair as FP32: RNE(hi + lo); a finite hi with a non-finite lo reads as NaN (R37). -/
def Pair32.toF32 (p : Pair32) : F32 :=
  if f32IsFin p.hi then (if f32IsFin p.lo then f32Add p.hi p.lo else f32Nan)
  else if f32IsNan p.hi then f32Nan else p.hi

/-- The error-free sum of R87. -/
def twoSum (a b : F32) : F32 × F32 :=
  let s := f32Add a b
  let v := f32Sub s a
  (s, f32Add (f32Sub a (f32Sub s v)) (f32Sub b v))

/-- The last step shared by pair_add and pair_fma: keep the first non-finite partial sum, otherwise the pair. -/
def pairFinish (s t : F32) : Pair32 :=
  let (h2, l2) := twoSum s t
  if !f32IsFin s then ⟨s, 0#32⟩
  else if !f32IsFin h2 then ⟨h2, 0#32⟩
  else ⟨h2, l2⟩

/-- pair_add (R87). -/
def pairAdd (p : Pair32) (a : F32) : Pair32 :=
  let (s, e) := twoSum p.hi a
  pairFinish s (f32Add p.lo e)

/-- pair_fma (R143): a times the pair plus c. -/
def pairFma (p : Pair32) (a c : F32) : Pair32 :=
  let pr := f32Mul a p.hi
  let pe := f32Fma a p.hi (f32Neg pr)
  let q := f32Fma a p.lo pe
  let (s, e) := twoSum pr c
  pairFinish s (f32Add e q)

/-- Normalisation of an accepted pair at its first operation (R37): hi = RNE(hi + lo), lo the rounded rest. -/
def Pair32.norm (p : Pair32) : Pair32 :=
  if f32IsFin p.hi then
    (if f32IsFin p.lo then
      let (s, e) := twoSum p.hi p.lo
      if f32IsFin s then ⟨s, e⟩ else ⟨s, 0#32⟩
    else ⟨f32Nan, 0#32⟩)
  else ⟨p.hi, 0#32⟩

/-! ## The exact group sum (R76 to R79) -/

/-- floor(log2 |p|) of a finite non-zero product (R76). -/
def FV.logExp : FV → Option Int
  | .fin _ m e => if m = 0 then none else some ((Nat.log2 m : Int) + e)
  | _ => none

/-- E_max of a group: the largest exponent among its non-zero products (R77). -/
def groupEmax (ps : List FV) : Option Int :=
  ps.foldl (fun acc p => match acc, p.logExp with
    | none, x => x
    | some a, none => some a
    | some a, some b => some (max a b)) none

/-- A product truncated toward zero to a multiple of 2^q, in units of 2^q, with its sign (R77). -/
def truncAt (q : Int) : FV → Int
  | .fin n m e =>
    let v : Nat := if q ≤ e then m * 2 ^ (e - q).toNat else m / 2 ^ (q - e).toNat
    if n then -(v : Int) else (v : Int)
  | _ => 0

/-- The group sum: special operands by R47, otherwise the truncated integer sum rounded once (R77, R78). -/
def groupSum (ps : List FV) : F32 :=
  if ps.any FV.isNan then f32Nan
  else
    let pos := ps.any fun p => p == .inf false
    let neg := ps.any fun p => p == .inf true
    if pos && neg then f32Nan
    else if pos then f32Inf false
    else if neg then f32Inf true
    else match groupEmax ps with
      | none => 0#32
      | some em =>
        let q := em - 40
        let s : Int := (ps.map (truncAt q)).foldl (· + ·) 0
        if s = 0 then 0#32 else f32Round (.fin (decide (s < 0)) s.natAbs q)

/-! ## Operands of the arrays -/

/-- R40: a BF16 or FP16 subnormal that enters an array acts as zero. -/
def Fmt.arrayValue (f : Fmt) (c : Nat) : FV :=
  match f.decode c with
  | .fin n m e => if f.working && decide (m < 2 ^ (f.layout.prec - 1)) then .fin n 0 e else .fin n m e
  | v => v

/-- The high part of R91: the significand truncated toward zero to BF16, a BF16 code. -/
def splitHi (x : F32) : Nat :=
  if f32IsNan x then 0x7FC0 else x.toNat / 65536

/-- The low part of R91: RNE to BF16 of the exact rest; +0 for an infinity or a NaN. -/
def splitLo (x : F32) : Nat :=
  if f32IsFin x then
    match (f32v x).add (f32v (BitVec.ofNat 32 (splitHi x * 65536))).neg with
    | .fin n m e =>
      let mag := Fmt.bf16.layout.roundMag .rne m 1 e
      if n then 0x8000 + mag else mag
    | _ => 0
  else 0

/-- Widening to FP32, exact for every working and short value (R33). -/
def Fmt.widen (f : Fmt) (c : Nat) : F32 :=
  if f = .fp32 then BitVec.ofNat 32 c else f32Round (f.decode c)

/-! ## Block scales (R48 to R54) -/

/-- The value of a scale byte: E8M0 (R50) or E4M3 (R41). -/
def scaleValue (e8m0 : Bool) (c : Nat) : FV :=
  if e8m0 then (if c % 256 = 255 then .nan else .fin false 1 ((c % 256 : Nat) - 127 : Int)) else Fmt.e4m3.decode c

/-- The output scale code for a block whose largest finite magnitude is `amax` (R52, R53). -/
def chooseScale (e8m0 : Bool) (f : Fmt) (amax : FV) : Nat :=
  match amax with
  | .fin _ m e =>
    if e8m0 then
      if m = 0 then 0x7F
      else
        let t : Int := match f with | .e4m3 => 8 | .e5m2 => 15 | _ => 2
        let x := (Nat.log2 m : Int) + e - t
        (max (-127) (min 127 x) + 127).toNat
    else if m = 0 then 0x38
    else
      match f.layout.decode false f.layout.maxMag with
      | .fin _ mm me =>
        -- the smallest positive E4M3 code c with amax <= M * value c, by exact comparison
        let fits (c : Nat) : Bool :=
          match Fmt.e4m3.decode c with
          | .fin _ ms es =>
            let q := min e (me + es)
            decide (m * 2 ^ (e - q).toNat ≤ mm * ms * 2 ^ (me + es - q).toNat)
          | _ => false
        ((List.range 127).map (· + 1)).find? fits |>.getD 0x7F
      | _ => 0x7F
  | _ => if e8m0 then 0x7F else 0x38

/-! ## Conversion (R55 to R60) -/

/-- Step 1 to 2 of R56 without the block scale: scale, bias and clip. `none` stands for a disabled part. -/
def convertY (s b : Option F32) (clip : Option (F32 × F32)) (x : F32) : F32 :=
  let y := match s, b with
    | none, none => x
    | some s, none => f32Mul x s
    | none, some b => f32Add x b
    | some s, some b => f32Fma x s b
  match clip with
  | none => y
  | some (lo, hi) => if f32IsNan y then y else f32Min (f32Max y lo) hi

/-- Steps 4 to 8 of R56 for the exact value y / S: the element code. `scale` is `none` without block scaling;
`sat` is forced by a block scale (R54). PAIR32 is handled by its caller. -/
def encodeElem (f : Fmt) (rnd : Rnd) (sat keepNz : Bool) (scale : Option FV) (y : F32) : Nat :=
  let fix (neg : Bool) (mag : Nat) : Nat :=
    let mag := if f.working && decide (mag < 2 ^ (f.layout.prec - 1)) then 0 else mag
    if mag = 0 then (if neg && keepNz then 2 ^ (f.bits - 1) else 0)
    else if neg then 2 ^ (f.bits - 1) + mag else mag
  let sat := sat || scale.isSome
  let excess (neg : Bool) : Nat :=
    if sat then fix neg f.layout.maxMag
    else match f with
      | .e4m3 => f.nanCode
      | .f4 => f.nanCode
      | .e5m2 => if neg then 0xFC else 0x7C
      | .bf16 => if neg then 0xFF80 else 0x7F80
      | .fp16 => if neg then 0xFC00 else 0x7C00
      | _ => if neg then 0xFF800000 else 0x7F800000
  match f32v y with
  | .nan => f.nanCode
  | .inf neg => excess neg
  | .fin neg m e =>
    if f = .fp32 then
      (if m = 0 then (if neg && keepNz then 0x80000000 else 0) else y.toNat)
    else
      let (den, de) : Nat × Int := match scale with
        | some (.fin _ ms es) => (ms, es)
        | _ => (1, 0)
      let mag := f.layout.roundMag rnd m den (e - de)
      if mag > f.layout.maxMag then excess neg else fix neg mag

/-! ## The random generator (R61, R62) -/

/-- One draw of a lane's xorshift generator: the new state; its bits [63:48] are the 16 random bits. -/
def xorshift (x : DWord) : DWord :=
  let x := x ^^^ (x <<< 13)
  let x := x ^^^ (x >>> 7)
  x ^^^ (x <<< 17)

/-- The random bits of a drawn state. -/
def drawBits (x : DWord) : Nat := (x >>> 48).toNat

/-- Output n (from 1) of the SplitMix64 sequence that starts at S. -/
def splitmix (s : DWord) (n : Nat) : DWord :=
  let z := s + BitVec.ofNat 64 n * 0x9E3779B97F4A7C15#64
  let t := (z ^^^ (z >>> 30)) * 0xBF58476D1CE4E5B9#64
  let t := (t ^^^ (t >>> 27)) * 0x94D049BB133111EB#64
  t ^^^ (t >>> 31)

/-- The seed of lane l of logical slot k (R62). -/
def laneSeed (s : DWord) (k l : Nat) : DWord :=
  let v := splitmix s (128 * k + l + 1)
  if v = 0#64 then 0x9E3779B97F4A7C15#64 else v

end Sys2Proof.Machine
end

