-- ==== Sys2Proof/Machine/FxTables.lean ====
section
/-! DEFINITION. The published FX tables of R121: the segment coefficients that the rule of R120 fixes.
Each entry of a list packs eight segments of 128 bits, segment 8j lowest; within a segment c0 is bits [31:0],
c1 [63:32], c2 [95:64] and c3 [127:96], the order of a segment record (R114).
The coefficients were derived from R120 alone (interpolation at the four nodes, each coefficient rounded once to
nearest even with the deciding precision checked); see assumption 10. -/

namespace Sys2Proof.Machine

/-- Coefficients of published table 0x0001 sigmoid (R120, R121): 256 segments. -/
def sigmoidCoeffs : List Nat :=
  [0xA4AAAAA9A7B80000367FFFFF3F0005C0A4AAAAA9A7B00000368000003F000580A4AAAAA9A7A80000368000003F000540A4AAAAAAA7A00000368000003F000500A4AAAAAAA7980000368000003F0004C0A4AAAAAAA7900000368000003F000480A4AAAAAAA7880000368000003F000440A4AAAAAAA7800000368000003F000400,
   0xA4AAAAA8A7F7FFFF367FFFFF3F0007C0A4AAAAA8A7EFFFFF367FFFFF3F000780A4AAAAA8A7E7FFFF367FFFFF3F000740A4AAAAA9A7DFFFFF367FFFFF3F000700A4AAAAA9A7D7FFFF367FFFFF3F0006C0A4AAAAA9A7CFFFFF367FFFFF3F000680A4AAAAA9A7C7FFFF367FFFFF3F000640A4AAAAA9A7BFFFFF367FFFFF3F000600,
   0xA62AAAA5A937FFFE36FFFFFE3F000B80A62AAAA5A92FFFFE36FFFFFE3F000B00A62AAAA6A927FFFE36FFFFFE3F000A80A62AAAA6A91FFFFF36FFFFFE3F000A00A62AAAA7A917FFFF36FFFFFF3F000980A62AAAA7A90FFFFF36FFFFFF3F000900A62AAAA7A907FFFF36FFFFFF3F000880A62AAAA8A8FFFFFF36FFFFFF3F000800,
   0xA62AAAA0A977FFFB36FFFFFC3F000F80A62AAAA1A96FFFFC36FFFFFC3F000F00A62AAAA2A967FFFC36FFFFFD3F000E80A62AAAA2A95FFFFC36FFFFFD3F000E00A62AAAA3A957FFFD36FFFFFD3F000D80A62AAAA3A94FFFFD36FFFFFD3F000D00A62AAAA4A947FFFD36FFFFFE3F000C80A62AAAA4A93FFFFE36FFFFFE3F000C00,
   0xA7AAAA94AAB7FFF8377FFFF83F001700A7AAAA96AAAFFFF9377FFFF83F001600A7AAAA97AAA7FFFA377FFFF93F001500A7AAAA99AA9FFFFB377FFFFA3F001400A7AAAA9BAA97FFFC377FFFFA3F001300A7AAAA9CAA8FFFFC377FFFFB3F001200A7AAAA9EAA87FFFD377FFFFB3F001100A7AAAA9FAA7FFFFB377FFFFC3F001000,
   0xA7AAAA81AAF7FFED377FFFF13F001F00A7AAAA84AAEFFFEE377FFFF23F001E00A7AAAA86AAE7FFF0377FFFF33F001D00A7AAAA89AADFFFF2377FFFF43F001C00A7AAAA8BAAD7FFF3377FFFF53F001B00A7AAAA8DAACFFFF5377FFFF53F001A00A7AAAA90AAC7FFF6377FFFF63F001900A7AAAA92AABFFFF7377FFFF73F001800,
   0xA92AAA4FAC37FFE037FFFFDF3F002E00A92AAA56AC2FFFE437FFFFE23F002C00A92AAA5EAC27FFE837FFFFE43F002A00A92AAA65AC1FFFEB37FFFFE73F002800A92AAA6BAC17FFEE37FFFFE93F002600A92AAA72AC0FFFF137FFFFEC3F002400A92AAA78AC07FFF337FFFFEE3F002200A92AAA7DABFFFFEB37FFFFF03F002000,
   0xA92AAA05AC77FFB237FFFFC43F003E00A92AAA10AC6FFFBA37FFFFC83F003C00A92AAA1AAC67FFC137FFFFCB3F003A00A92AAA23AC5FFFC737FFFFCF3F003800A92AAA2DAC57FFCD37FFFFD23F003600A92AAA36AC4FFFD237FFFFD63F003400A92AAA3EAC47FFD737FFFFD93F003200A92AAA47AC3FFFDC37FFFFDC3F003000]
  ++ [0xAAAAA93AADB7FF81387FFF7C3F005C00AAAAA959ADAFFF91387FFF873F005800AAAAA976ADA7FFA0387FFF923F005400AAAAA992AD9FFFAD387FFF9C3F005000AAAAA9ADAD97FFB9387FFFA63F004C00AAAAA9C6AD8FFFC3387FFFAF3F004800AAAAA9DEAD87FFCD387FFFB83F004400AAAAA9F5AD7FFFAB387FFFC03F004000,
   0xAAAAA815ADF7FECA387FFF103F007C00AAAAA83EADEFFEE7387FFF1F3F007800AAAAA866ADE7FF02387FFF2E3F007400AAAAA88DADDFFF1C387FFF3C3F007000AAAAA8B2ADD7FF33387FFF4A3F006C00AAAAA8D6ADCFFF49387FFF573F006800AAAAA8F9ADC7FF5D387FFF643F006400AAAAA91AADBFFF70387FFF703F006000,
   0xAC2AA4EAAF37FE0638FFFDEF3F00B800AC2AA565AF2FFE4538FFFE1C3F00B000AC2AA5DAAF27FE7F38FFFE473F00A800AC2AA64AAF1FFEB338FFFE703F00A000AC2AA6B5AF17FEE338FFFE973F009800AC2AA71AAF0FFF0D38FFFEBC3F009000AC2AA77AAF07FF3438FFFEDF3F008800AC2AA7D5AEFFFEAC38FFFF003F008000,
   0xAC2AA055AF77FB2838FFFC3F3F00F7FFAC2AA0FAAF6FFB9C38FFFC7C3F00EFFFAC2AA19AAF67FC0938FFFCB73F00E7FFAC2AA235AF5FFC6E38FFFCF03F00DFFFAC2AA2CAAF57FCCD38FFFD273F00D7FFAC2AA35AAF4FFD2438FFFD5C3F00CFFFAC2AA3E5AF47FD7638FFFD8F3F00C7FFAC2AA46AAF3FFDC138FFFDC03F00BFFF,
   0xADAA93A9B0B7F817397FF7BC3F016FFCADAA9593B0AFF914397FF8703F015FFDADAA9769B0A7F9FB397FF91C3F014FFDADAA9928B09FFACD397FF9C03F013FFDADAA9AD3B097FB8B397FFA5C3F012FFEADAA9C68B08FFC36397FFAF03F011FFEADAA9DE8B087FCCF397FFB7C3F010FFEADAA9F53B07FFAAE397FFC003F00FFFF,
   0xADAA8156B0F7EC9F397FF0FD3F01EFF6ADAA83EBB0EFEE70397FF1F13F01DFF7ADAA866AB0E7F023397FF2DC3F01CFF8ADAA88D5B0DFF1B9397FF3C03F01BFF9ADAA8B2AB0D7F333397FF49C3F01AFFAADAA8D6AB0CFF492397FF5703F019FFAADAA8F94B0C7F5D7397FF63C3F018FFBADAA91A9B0BFF703397FF7003F017FFC,
   0xAF2A4EB1B237E05E39FFDEF33F02DFE0AF2A5658B22FE45139FFE1C23F02BFE4AF2A5DABB227E7ED39FFE4723F029FE8AF2A64A9B21FEB3539FFE7023F027FEBAF2A6B52B217EE2D39FFE9713F025FEEAF2A71A6B20FF0D939FFEBC13F023FF1AF2A77A4B207F33D39FFEDF13F021FF3AF2A7D4EB1FFEAB939FFF0013F01FFF5,
   0xAF2A0582B277B28839FFC3F93F03DFB2AF2A0FD1B26FB9CA39FFC7C83F03BFBAAF2A19CBB267C09439FFCB773F039FC1AF2A2370B25FC6EA39FFCF063F037FC7AF2A2CC0B257CCD139FFD2753F035FCDAF2A35BBB24FD24C39FFD5C53F033FD2AF2A3E62B247D75F39FFD8F43F031FD7AF2A46B4B23FDC0E39FFDC033F02FFDC]
  ++ [0xB0A93B95B3B781A13A7F7BED3F05BF03B0A95A12B3AF91673A7F87263F057F22B0A97741B3A79FCF3A7F91E03F053F3FB0A9931EB39FACE83A7F9C1A3F04FF59B0A9ADACB397B8C33A7FA5D53F04BF71B0A9C6E8B38FC36F3A7FAF113F047F87B0A9DED2B387CCFC3A7FB7CE3F043F9AB0A9F56BB37FAAF33A7FC00B3F03FFAB,
   0xB0A818AFB3F6CAD83A7F10563F07BD94B0A84197B3EEE7C43A7F1F843F077DCEB0A86934B3E702D43A7F2E333F073E05B0A88F85B3DF1C193A7F3C643F06FE37B0A8B48AB3D733A13A7F4A163F06BE66B0A8D841B3CF497D3A7F574A3F067E92B0A8FAACB3C75DBC3A7F63FF3F063EBBB0A91BC7B3BF706D3A7F70363F05FEE0,
   0xB224FB60B53609183AFDF1D53F0B781BB2257345B52E47AD3AFE1E603F0AF917B225E62CB52680DE3AFE48F93F0A79FDB226540EB51EB4E93AFE719F3F09FACEB226BCE4B516E40A3AFE98523F097B8BB22720A7B50F0E7D3AFEBD113F08FC36B2277F51B50734813AFEDFD93F087CCFB227D8DCB4FEACA43AFF00AA3F07FD56,
   0xB2208C89B57336CE3AFC48513F0F6CB8B2212B25B56BA8C53AFC842D3F0EEE85B221C50AB56413843AFCBE253F0E7034B2225A2FB55C77453AFCF6363F0DF1C7B222EA8AB554D4423AFD2C5F3F0D733EB2237613B54D2AB53AFD609F3F0CF49BB223FCBFB5457AD83AFD92F43F0C75DEB2247E86B53DC4E53AFDC35C3F0BF708,
   0xB394B81CB6B04CCF3B77E8BA3F16C170B39677E9B6A93F223B7895803F15C930B3982794B6A21D383B793B2E3F14D048B399C6B2B69AE7D93B79D9B03F13D6BCB39B54DAB6939FCF3B7A70F33F12DC97B39CD1A7B68C45EC3B7B00E63F11E1DDB39E3CBAB684DB033B7B89763F10E697B39F95B5B67ABFDC3B7C0A933F0FEACD,
   0xB384AB93B6E58B673B718D773F1E6865B386DBD3B6DF390F3B726FD93F1D7666B388FFB9B6D8CD073B734BDB3F1C8387B38B16C6B6D247EA3B7421653F1B8FD0B38D2079B6CBAA583B74F05E3F1A9B47B38F1C55B6C4F4F73B75B8AD3F19A5F2B39109DEB6BE28743B767A3B3F18AFD8B392E89DB6B7457F3B7734F23F17B900,
   0xB4BC402AB81B87DA3BE196CD3F2C1DEEB4C6E601B816DE673BE3FB943F2A5859B4D1673EB811F5E93BE64D383F288E0DB4DBBB45B80CCF6F3BE88ABD3F26BF31B4E5D966B8076C3D3BEAB32F3F24EBF0B4EFB8EEB801CDC93BECC59E3F231473B4F9512EB7F7EB803BEEC1203F2138E9B5014CC5B7EBCC023BF0A4D23F1F597F,
   0xB44B800BB837B7BE3BCC38453F399119B460D2F6B83515523BCF11DA3F37F5CDB4765889B83232523BD1E0643F3654D9B486019EB82F0E503BD4A2E03F34AE54B490E26FB82BA9043BD758493F330256B49BC74FB82802593BD9FF9A3F3150FCB4A6A88FB8241A623BDC97CE3F2F9A62B4B17E3BB81FF1663BDF1FE03F2DDEA8]
  ++ [0x351102B1B943C57B3C1ED12B3F4EDD7E34B1ADB0B944D1243C24F36E3F4C55F833DD47D3B945253B3C2B1B2E3F49B5DCB419693FB944B33C3C3142733F46FD20B4D9DEE4B9436D6B3C3762D63F442BD2B537BA75B94147223C3D75873F41421CB5832304B93E35193C4373533F3E4042B5AC018BB93A2DB63C4954B83F3B26A8,
   0x35D06051B928AA7F3BE16A6F3F5FC38735C75A22B92D57813BEC1A743F5DF60E35BC450DB931C2143BF713323F5C12EC35AF007EB935DD193C01280C3F5A1994359F6EFFB9399AC33C06E5E03F580982358D773CB93CECA73C0CBFF13F55E24035720A1AB93FC3E73C12B2A33F53A36235441528B942114C3C18B9E53F514C90,
   0x373A2B04B9B8D2793BCF0E9C3F725429374643BBB9CB6A753BE753473F709E2937512949B9DF090A3C00FDAC3F6EB543375A3328B9F381D83C0F926B3F6C948F3760986DBA044AD63C1F73873F6A36F337637028BA0EF7BC3C30A8003F67972D3761B48DBA1990CD3C4330C43F64AFED375A49D6BA23D1E53C57070E3F617BEB,
   0x36B5D979B91C5A1E3B232C763F7ACB8036C9B3C2B92F40383B37E72D3F7A1E2836DF1010B94427103B4F1ECD3F795ADC36F5DA70B95B31133B6915943F787EFE3706F651B9747D233B8308EB3F7787AD37138483B98812323B932EB33F7671BF37206A68B9971BC03BA5225A3F7539BD372D68C3B9A75DAB3BB90AC23F73DBE6,
   0x36F025E3B8CCC3D93A4F3C623F7F3013371930E1B902FEDE3A84CF0F3F7EF54237431565B9276FC13AAA22FD3F7EA9E53777D8B3B955BD143AD9D0643F7E4961379CF628B98832583B0B4F493F7DCDDE37C6076FB9AD343C3B3202733F7D2FF637F893D3B9DBAB383B6326703F7C6654381AFE43BA0AD0A13B90AD193F7B6542,
   0x35849052B7601BA738E19B083F7FE3C835AA115EB78FCF9A3910CE683F7FDBC635DA20EFB7B88AF53939E06A3F7FD17E360BD768B7ECC508396E92FF3F7FC44B36333B14B817DAB4399916A83F7FB35B36659859B842BADA39C4706B3F7F9D9E3692F518B8799E5939FC04A13F7F81BB36BBF6EAB89FE9C33A219F3D3F7F5DF4,
   0x343105ACB5A63D2B36A9C4E13F7FFF563491EC8FB6090994370BF2F83F7FFEE834F0925CB661ED603766BB6A3F7FFE3235464BABB6BA3BA137BE331F3F7FFD0635A36FD1B7198187381CC8B23F7FFB183606B091B77D0AC038813BEB3F7FF7EA365DF439B7D088DD38D5097B3F7FF2AB36B6D17AB82BD262392F92C23F7FEA06,
   0x314F84BDB2C2DF6E33C701E33F7FFFFD31AB11E9B320A53734240DC63F7FFFFB320D05EEB3846DFB34873D4C3F7FFFF8326881E5B3DA56D934DEF8D53F7FFFF232BFAB58B433FD6B3537CF243F7FFFE9331E00F5B4946048359786563F7FFFDA33824039B4F4A12535F9D2453F7FFFC133D6BE7EB549A93C364DF1213F7FFF99]

/-- Coefficients of published table 0x0002 tanh (R120, R121): 256 segments. -/
def tanhCoeffs : List Nat :=
  [0xA6AAAAA5A9B7FFFE377FFFFE39B80000A6AAAAA5A9AFFFFE377FFFFE39B00000A6AAAAA6A9A7FFFE377FFFFE39A80000A6AAAAA6A99FFFFF377FFFFE39A00000A6AAAAA7A997FFFF377FFFFF39980000A6AAAAA7A98FFFFF377FFFFF39900000A6AAAAA7A987FFFF377FFFFF39880000A6AAAAA8A97FFFFF377FFFFF39800000,
   0xA6AAAAA0A9F7FFFB377FFFFC39F7FFFFA6AAAAA1A9EFFFFC377FFFFC39EFFFFFA6AAAAA2A9E7FFFC377FFFFD39E7FFFFA6AAAAA2A9DFFFFC377FFFFD39DFFFFFA6AAAAA3A9D7FFFD377FFFFD39D7FFFFA6AAAAA3A9CFFFFD377FFFFD39CFFFFFA6AAAAA4A9C7FFFD377FFFFE39C7FFFFA6AAAAA4A9BFFFFE377FFFFE39BFFFFF,
   0xA82AAA94AB37FFF837FFFFF83A37FFFEA82AAA96AB2FFFF937FFFFF83A2FFFFEA82AAA97AB27FFFA37FFFFF93A27FFFEA82AAA99AB1FFFFB37FFFFFA3A1FFFFFA82AAA9BAB17FFFC37FFFFFA3A17FFFFA82AAA9CAB0FFFFC37FFFFFB3A0FFFFFA82AAA9EAB07FFFD37FFFFFB3A07FFFFA82AAA9FAAFFFFFB37FFFFFC39FFFFFF,
   0xA82AAA81AB77FFED37FFFFF13A77FFFBA82AAA84AB6FFFEE37FFFFF23A6FFFFCA82AAA86AB67FFF037FFFFF33A67FFFCA82AAA89AB5FFFF237FFFFF43A5FFFFCA82AAA8BAB57FFF337FFFFF53A57FFFDA82AAA8DAB4FFFF537FFFFF53A4FFFFDA82AAA90AB47FFF637FFFFF63A47FFFDA82AAA92AB3FFFF737FFFFF73A3FFFFE,
   0xA9AAAA4FACB7FFE0387FFFDF3AB7FFF8A9AAAA56ACAFFFE4387FFFE23AAFFFF9A9AAAA5EACA7FFE8387FFFE43AA7FFFAA9AAAA65AC9FFFEB387FFFE73A9FFFFBA9AAAA6BAC97FFEE387FFFE93A97FFFCA9AAAA72AC8FFFF1387FFFEC3A8FFFFCA9AAAA78AC87FFF3387FFFEE3A87FFFDA9AAAA7DAC7FFFEB387FFFF03A7FFFFB,
   0xA9AAAA05ACF7FFB2387FFFC43AF7FFEDA9AAAA10ACEFFFBA387FFFC83AEFFFEEA9AAAA1AACE7FFC1387FFFCB3AE7FFF0A9AAAA23ACDFFFC7387FFFCF3ADFFFF2A9AAAA2DACD7FFCD387FFFD23AD7FFF3A9AAAA36ACCFFFD2387FFFD63ACFFFF5A9AAAA3EACC7FFD7387FFFD93AC7FFF6A9AAAA47ACBFFFDC387FFFDC3ABFFFF7,
   0xAB2AA93AAE37FF8138FFFF7C3B37FFE0AB2AA959AE2FFF9138FFFF873B2FFFE4AB2AA976AE27FFA038FFFF923B27FFE8AB2AA992AE1FFFAD38FFFF9C3B1FFFEBAB2AA9ADAE17FFB938FFFFA63B17FFEEAB2AA9C6AE0FFFC338FFFFAF3B0FFFF1AB2AA9DEAE07FFCD38FFFFB83B07FFF3AB2AA9F5ADFFFFAB38FFFFC03AFFFFEB,
   0xAB2AA815AE77FECA38FFFF103B77FFB2AB2AA83EAE6FFEE738FFFF1F3B6FFFBAAB2AA866AE67FF0238FFFF2E3B67FFC0AB2AA88DAE5FFF1C38FFFF3C3B5FFFC7AB2AA8B2AE57FF3338FFFF4A3B57FFCDAB2AA8D6AE4FFF4938FFFF573B4FFFD2AB2AA8F9AE47FF5D38FFFF643B47FFD7AB2AA91AAE3FFF7038FFFF703B3FFFDC]
  ++ [0xACAAA4EAAFB7FE06397FFDEF3BB7FF81ACAAA565AFAFFE45397FFE1C3BAFFF91ACAAA5DAAFA7FE7F397FFE473BA7FFA0ACAAA64AAF9FFEB3397FFE703B9FFFADACAAA6B5AF97FEE3397FFE973B97FFB9ACAAA71AAF8FFF0D397FFEBC3B8FFFC3ACAAA77AAF87FF34397FFEDF3B87FFCDACAAA7D5AF7FFEAC397FFF003B7FFFAB,
   0xACAAA055AFF7FB28397FFC3F3BF7FECAACAAA0FAAFEFFB9C397FFC7C3BEFFEE7ACAAA19AAFE7FC09397FFCB73BE7FF02ACAAA235AFDFFC6E397FFCF03BDFFF1BACAAA2CAAFD7FCCD397FFD273BD7FF33ACAAA35AAFCFFD24397FFD5C3BCFFF49ACAAA3E5AFC7FD76397FFD8F3BC7FF5DACAAA46AAFBFFDC1397FFDC03BBFFF70,
   0xAE2A93A9B137F81739FFF7BC3C37FE05AE2A9593B12FF91439FFF8703C2FFE44AE2A9769B127F9FB39FFF91C3C27FE7EAE2A9928B11FFACD39FFF9C03C1FFEB3AE2A9AD3B117FB8B39FFFA5C3C17FEE2AE2A9C68B10FFC3639FFFAF03C0FFF0DAE2A9DE8B107FCCF39FFFB7C3C07FF33AE2A9F53B0FFFAAE39FFFC003BFFFEAB,
   0xAE2A8156B177EC9F39FFF0FD3C77FB27AE2A83EBB16FEE7039FFF1F13C6FFB9BAE2A866AB167F02339FFF2DC3C67FC08AE2A88D5B15FF1B939FFF3C03C5FFC6DAE2A8B2AB157F33339FFF49C3C57FCCCAE2A8D6AB14FF49239FFF5703C4FFD24AE2A8F94B147F5D739FFF63C3C47FD75AE2A91A9B13FF70339FFF7003C3FFDC0,
   0xAFAA4EB1B2B7E05E3A7FDEF33CB7F815AFAA5658B2AFE4513A7FE1C23CAFF912AFAA5DABB2A7E7ED3A7FE4723CA7F9F9AFAA64A9B29FEB353A7FE7023C9FFACBAFAA6B52B297EE2D3A7FE9713C97FB89AFAA71A6B28FF0D93A7FEBC13C8FFC34AFAA77A4B287F33D3A7FEDF13C87FCCDAFAA7D4EB27FEAB93A7FF0013C7FFAAB,
   0xAFAA0582B2F7B2883A7FC3F93CF7EC9DAFAA0FD1B2EFB9CA3A7FC7C83CEFEE6EAFAA19CBB2E7C0943A7FCB773CE7F020AFAA2370B2DFC6EA3A7FCF063CDFF1B6AFAA2CC0B2D7CCD13A7FD2753CD7F330AFAA35BBB2CFD24C3A7FD5C53CCFF48FAFAA3E62B2C7D75F3A7FD8F43CC7F5D4AFAA46B4B2BFDC0E3A7FDC033CBFF701,
   0xB1293B95B43781A13AFF7BED3D37E057B1295A12B42F91673AFF87263D2FE44BB1297741B4279FCF3AFF91E03D27E7E6B129931EB41FACE83AFF9C1A3D1FEB2EB129ADACB417B8C33AFFA5D53D17EE26B129C6E8B40FC36F3AFFAF113D0FF0D2B129DED2B407CCFC3AFFB7CE3D07F336B129F56BB3FFAAF33AFFC00B3CFFEAAD,
   0xB12818AFB476CAD83AFF10563D77B288B1284197B46EE7C43AFF1F843D6FB9C9B1286934B46702D43AFF2E333D67C092B1288F85B45F1C193AFF3C643D5FC6E7B128B48AB45733A13AFF4A163D57CCCDB128D841B44F497D3AFF574A3D4FD247B128FAACB4475DBC3AFF63FF3D47D759B1291BC7B43F706D3AFF70363D3FDC08]
  ++ [0xB2A4FB60B5B609183B7DF1D53DB781ABB2A57345B5AE47AD3B7E1E603DAF9169B2A5E62CB5A680DE3B7E48F93DA79FCAB2A6540EB59EB4E93B7E719F3D9FACDFB2A6BCE4B596E40A3B7E98523D97B8B6B2A720A7B58F0E7D3B7EBD113D8FC35FB2A77F51B58734813B7EDFD93D87CCEAB2A7D8DCB57EACA43B7F00AA3D7FAACD,
   0xB2A08C89B5F336CE3B7C48513DF6CB7DB2A12B25B5EBA8C53B7C842D3DEEE849B2A1C50AB5E413843B7CBE253DE7033FB2A25A2FB5DC77453B7CF6363DDF1C6CB2A2EA8AB5D4D4423B7D2C5F3DD733E0B2A37613B5CD2AB53B7D609F3DCF49ABB2A3FCBFB5C57AD83B7D92F43DC75DDCB2A47E86B5BDC4E53B7DC35C3DBF7081,
   0xB414B81CB7304CCF3BF7E8BA3E360B81B41677E9B7293F223BF895803E2E4984B4182794B7221D383BF93B2E3E26823CB419C6B2B71AE7D93BF9D9B03E1EB5E4B41B54DAB7139FCF3BFA70F33E16E4B4B41CD1A7B70C45EC3BFB00E63E0F0EE8B41E3CBAB704DB033BFB89763E0734BAB41F95B5B6FABFDC3BFC0A933DFEACC9,
   0xB404AB93B7658B673BF18D773E734328B406DBD3B75F390F3BF26FD93E6BB32EB408FFB9B758CD073BF34BDB3E641C3BB40B16C6B75247EA3BF421653E5C7E82B40D2079B74BAA583BF4F05E3E54DA37B40F1C55B744F4F73BF5B8AD3E4D2F8EB41109DEB73E28743BF67A3B3E457EBEB412E89DB737457F3BF734F23E3DC7FD,
   0xB53C402AB89B87DA3C6196CD3EB077B9B546E601B896DE673C63FB943EA96163B551673EB891F5E93C664D383EA23832B55BBB45B88CCF6F3C688ABD3E9AFCC5B565D966B8876C3D3C6AB32F3E93AFBFB56FB8EEB881CDC93C6CC59E3E8C51CDB579512EB877EB803C6EC1203E84E3A2B5814CC5B86BCC023C70A4D23E7ACBF5,
   0xB4CB800BB8B7B7BE3C4C38453EE64465B4E0D2F6B8B515523C4F11DA3EDFD735B4F65889B8B232523C51E0643ED95365B506019EB8AF0E503C54A2E03ED2B94FB510E26FB8ABA9043C5758493ECC095AB51BC74FB8A802593C59FF9A3EC543F1B526A88FB8A41A623C5C97CE3EBE6989B5317E3BB89FF1663C5F1FE03EB77A9F,
   0x359102B1B9C3C57B3C9ED12B3F1DBAFC3531ADB0B9C4D1243CA4F36E3F18ABF0345D47D3B9C5253B3CAB1B2E3F136BB8B499693FB9C4B33C3CB142733F0DFA3FB559DEE4B9C36D6B3CB762D63F0857A4B5B7BA75B9C147223CBD75873F028438B6032304B9BE35193CC373533EF90109B62C018BB9BA2DB63CC954B83EEC9A9F,
   0x36506051B9A8AA7F3C616A6F3F3F870D36475A22B9AD57813C6C1A743F3BEC1C363C450DB9B1C2143C7713323F3825D9362F007EB9B5DD193C81280C3F343328361F6EFFB9B99AC33C86E5E03F301305360D773CB9BCECA73C8CBFF13F2BC48035F20A1AB9BFC3E73C92B2A33F2746C535C41528B9C2114C3C98B9E53F22991F]
  ++ [0x37BA2B04BA38D2793C4F0E9C3F64A85237C643BBBA4B6A753C6753473F613C5337D12949BA5F090A3C80FDAC3F5D6A8537DA3328BA7381D83C8F926B3F59291E37E0986DBA844AD63C9F73873F546DE637E37028BA8EF7BC3CB0A8003F4F2E5B37E1B48DBA9990CD3CC330C43F495FDA37DA49D6BAA3D1E53CD7070E3F42F7D6,
   0x3735D979B99C5A1E3BA32C763F7596FF3749B3C2B9AF40383BB7E72D3F743C4F375F1010B9C427103BCF1ECD3F72B5B83775DA70B9DB31133BE915943F70FDFD3786F651B9F47D233C0308EB3F6F0F5B37938483BA0812323C132EB33F6CE37E37A06A68BA171BC03C25225A3F6A737A37AD68C3BA275DAB3C390AC23F67B7CC,
   0x377025E3B94CC3D93ACF3C623F7E6027379930E1B982FEDE3B04CF0F3F7DEA8537C31565B9A76FC13B2A22FD3F7D53CA37F7D8B3B9D5BD143B59D0643F7C92C1381CF628BA0832583B8B4F493F7B9BBC3846076FBA2D343C3BB202733F7A5FEC387893D3BA5BAB383BE326703F78CCA7389AFE43BA8AD0A13C10AD193F76CA83,
   0x36049052B7E01BA739619B083F7FC791362A115EB80FCF9A3990CE683F7FB78C365A20EFB8388AF539B9E06A3F7FA2FB368BD768B86CC50839EE92FF3F7F889636B33B14B897DAB43A1916A83F7F66B636E59859B8C2BADA3A44706B3F7F3B3D3712F518B8F99E593A7C04A13F7F0376373BF6EAB91FE9C33AA19F3D3F7EBBE9,
   0x34B105ACB6263D2B3729C4E13F7FFEAC3511EC8FB6890994378BF2F83F7FFDD03570925CB6E1ED6037E6BB6A3F7FFC6435C64BABB73A3BA1383E331F3F7FFA0D36236FD1B7998187389CC8B23F7FF6313686B091B7FD0AC039013BEB3F7FEFD436DDF439B85088DD3955097B3F7FE5563736D17AB8ABD26239AF92C23F7FD40C,
   0x31CF84BDB342DF6E344701E33F7FFFFA322B11E9B3A0A53734A40DC63F7FFFF6328D05EEB4046DFB35073D4C3F7FFFEF32E881E5B45A56D9355EF8D53F7FFFE4333FAB58B4B3FD6B35B7CF243F7FFFD2339E00F5B5146048361786563F7FFFB434024039B574A1253679D2453F7FFF833456BE7EB5C9A93C36CDF1213F7FFF32,
   0x2DB8C975AED109AF2F600E7B3F8000002E7B26C8AF8E0E52301843213F8000002F2AACD5B04112F430CEF2213F8000002FE7F8B8B1033519318CA25F3F800000309DA419B1B25450323F244B3F8000003156419FB2725FED3301E4F13F7FFFFF32119A2EB324B5EF33B08B6E3F7FFFFF32C5E4D8B3DFDD6E346FF2F33F7FFFFC,
   0x27FDE84CA90F9D5F2999EEDA3F80000028AC8C48A9C331522A5137773F800000296A845BAA84A5AC2B0E2D6E3F8000002A1F5EEFAB3449432BC13D3C3F8000002AD89B80ABF508CA2C8351D53F8000002B933333ACA684A22D327B5E3F8000002C4810C7AD6252512DF295023F8000002D07F569AE19CD2B2EA4DA033F800000]

/-- Coefficients of published table 0x0003 softplus (R120, R121): 256 segments. -/
def softplusCoeffs : List Nat :=
  [0xA0A555552EFFFFFF378007803F318118A09AAAAA2EFFFFFF378007003F318018A08FFFFF2EFFFFFF378006803F317F18A08555552EFFFFFF378006003F317E18A07555552F000000378005803F317D18A05FFFFF2F000000378005003F317C18A04AAAAA2F000000378004803F317B18A03555552F000000378004003F317A18,
   0xA2A555522FFFFFFC38000F003F31901AA29AAAA82FFFFFFD38000E003F318E19A28FFFFE2FFFFFFD38000D003F318C19A28555542FFFFFFE38000C003F318A19A27555532FFFFFFE38000B003F318819A25FFFFE2FFFFFFE38000A003F318619A24AAAA92FFFFFFF380009003F318419A23555542FFFFFFF380008003F318218,
   0xA4A5554830FFFFF238801E003F31AE1FA49AAAA030FFFFF438801C003F31AA1EA48FFFF730FFFFF538801A003F31A61DA485554F30FFFFF7388018003F31A21CA475554B30FFFFF8388016003F319E1CA45FFFF830FFFFFA388014003F319A1BA44AAAA530FFFFFB388012003F31961AA435555130FFFFFC388010003F31921A,
   0xA6A5552231FFFFC839003C003F31EA34A69AAA8031FFFFCF390038003F31E230A68FFFDE31FFFFD6390034003F31DA2DA685553A31FFFFDC390030003F31D22AA675552B31FFFFE239002C003F31CA27A65FFFE031FFFFE7390028003F31C224A64AAA9331FFFFEC390024003F31BA22A635554431FFFFF0390020003F31B220,
   0xA8A5548632FFFF1F398078003F326288A89AAA0132FFFF3C398070003F32527AA88FFF7732FFFF57398068003F32426CA88554E932FFFF70398060003F323260A87554AC32FFFF87398058003F322254A85FFF7F32FFFF9C398050003F32124AA84AAA4B32FFFFAF398048003F320240A835551132FFFFC0398040003F31F238,
   0xAAA5521A33FFFC7D3A00EFFF3F3353DAAA9AA80533FFFCF13A00DFFF3F3333A0AA8FFDDD33FFFD5D3A00CFFF3F33136AAA8553A333FFFDC13A00BFFF3F32F338AA7552B133FFFE1D3A00B0003F32D30AAA5FFDFD33FFFE713A00A0003F32B2E0AA4AA92D33FFFEBD3A0090003F3292BAAA35544433FFFF013A0080003F327298,
   0xACA5486734FFF1F43A81DFF73F353920AC9AA01434FFF3C43A81BFF93F34F838AC8FF77434FFF5743A819FFA3F34B760AC854E8D34FFF7043A817FFC3F347698AC754AC434FFF8733A815FFD3F3435E0AC5FF7F534FFF9C33A813FFD3F33F538AC4AA4B534FFFAF33A811FFE3F33B4A0AC35511034FFFC033A80FFFF3F337418,
   0xAEA521A335FFC7D63B03BFBA3F390E37AE9A805735FFCF143B037FC73F388A97AE8FDDD635FFD5D23B033FD23F380737AE853A3535FFDC113B02FFDC3F378418AE752B1535FFE1D03B02BFE43F370138AE5FDFD535FFE70F3B027FEB3F367E98AE4A92D635FFEBCE3B023FF13F35FC38AE35444335FFF00E3B01FFF53F357A18]
  ++ [0xB0A4870836FF1FB83B877DCE3F40E288B09A01B336FF3C993B86FE373F3FD40BB08F779436FF577F3B867E923F3EC68FB084E8FF36FF706B3B85FEE03F3DBA11B074AC8B36FF875B3B857F223F3CAE93B05F7F7936FF9C4F3B84FF593F3BA415B04A4B6F36FFAF463B847F873F3A9A96B035111736FFC0403B83FFAB3F399217,
   0xB2A223C537FC84F63C0EEE853F513311B2980C4937FCF7013C0DF1C73F4EF951B28DE22937FD616B3C0CF49B3F4CC384B283A69937FDC4293C0BF7083F4A91ACB272B5A037FE1F2E3C0AF9163F4863CCB25E001637FE726F3C09FACE3F4639E4B2492F1437FEBDE13C08FC363F4413F6B234452137FF017C3C07FD563F41F203,
   0xB49904E438F272793C9D76653F7469DAB490861738F4241A3C9B8FD03F6F85BFB487C46F38F5BB763C99A5F13F6AB0E6B47D869F38F737CE3C97B8FF3F65EB68B46B0CBA38F8986E3C95C9303F61355DB45822EC38F9DCAF3C93D6BC3F5C8EDCB444D15F38FB03F43C91E1DC3F57F7F8B43120A638FC0DAF3C8FEACC3F5370C4,
   0xB674E7E039CF16243D37F5CC3FA24C74B66D8B1639D4A8013D34AE523F9C99D5B664D3EC39DA05953D3150FA3F9701C9B65AC07639DF26B53D2DDEA53F9184FDB64F52A239E4033F3D2A58563F8C2414B642906B39E893393D26BF2E3F86DFAAB634841039ECCEE33D2314703F81B850B6253C1F39F0AED63D1F597B3F795D1C,
   0xB7E0D8CB3A6BFAF03DDDF61B40012197B7ECF3143A811A1D3DDA199F3FF4823AB7F763963A8CB4883DD5E2493FE701DFB7FF944B3A98B1C93DD14C963FD9C7E9B80272B73AA4EF693DCC55FB3FCCDA52B8035A273AB1434E3DC6FD1F3FC03F36B80232303ABD7BFA3DC142173FB3FCBAB7FD6A293AC9615F3DBB269E3FA818F6,
   0xB850D8443A36F13E3E7A1E5940717CDAB882FC1A3A67E9573E787F3A4061E76EB8A33B7F3A927A2E3E76720740526F45B8C9BA7D3AB835F93E73DC3B40431C0EB8F6AAB73AE65F153E709E8B4033F747B914C8503B0F0B593E6C94FB40250C87B9306D343B301A243E67979F401669C9B94CB2833B567D423E617C5940081F96,
   0xB716C39E388DACBE3EFFDBD040F00488B77849AE38E96C733EFFC45B40E00777B7CC4C6B394035C33EFF9DB940D00C4FB827E67E399E28913EFF5E2040C01448B889B69A3A01FBFA3EFEF58A40B02169B8E12B883A553D533EFE49D540A03703B93718BD3AAE592E3EFD30AF40905A80B993935C3B0DCD6D3EFB6665408094AF,
   0xB3067B9B341821CB3F7FFFFB41700000B3B6C7E834CEC4C53F7FFFF241600001B4786C90358C83763F7FFFDA41500002B528D1EC363EF9F63F7FFF9A41400006B5E571AF3701C7943F7FFEEA41300012B69BE98337B061533F7FFD0C41200030B753DD6E386FB19B3F7FF7F841100081B80FE67B3922D4883F7FEA2E41000160]
  ++ [0xA0A555552EFFFFFFB77FF1003F316318A09AAAAA2EFFFFFFB77FF2003F316418A08FFFFF2EFFFFFFB77FF3003F316518A08555552EFFFFFFB77FF4003F316618A07555552F000000B77FF5003F316718A05FFFFF2F000000B77FF6003F316818A04AAAAA2F000000B77FF7003F316918A03555552F000000B77FF8003F316A18,
   0xA2A555522FFFFFFCB7FFE2003F31541AA29AAAA82FFFFFFDB7FFE4003F315619A28FFFFE2FFFFFFDB7FFE6003F315819A28555542FFFFFFEB7FFE8003F315A19A27555532FFFFFFEB7FFEA003F315C19A25FFFFE2FFFFFFEB7FFEC003F315E19A24AAAA92FFFFFFFB7FFEE003F316019A23555542FFFFFFFB7FFF0003F316218,
   0xA4A5554830FFFFF2B87FC4003F31361FA49AAAA030FFFFF4B87FC8003F313A1EA48FFFF730FFFFF5B87FCC003F313E1DA485554F30FFFFF7B87FD0003F31421CA475554B30FFFFF8B87FD4003F31461CA45FFFF830FFFFFAB87FD8003F314A1BA44AAAA530FFFFFBB87FDC003F314E1AA435555130FFFFFCB87FE0003F31521A,
   0xA6A5552231FFFFC8B8FF88003F30FA34A69AAA8031FFFFCFB8FF90003F310230A68FFFDE31FFFFD6B8FF98003F310A2DA685553A31FFFFDCB8FFA0003F31122AA675552B31FFFFE2B8FFA8003F311A27A65FFFE031FFFFE7B8FFB0003F312224A64AAA9331FFFFECB8FFB8003F312A22A635554431FFFFF0B8FFC0003F313220,
   0xA8A5548632FFFF1FB97F10003F308288A89AAA0132FFFF3CB97F20003F30927AA88FFF7732FFFF57B97F30003F30A26CA88554E932FFFF70B97F40003F30B260A87554AC32FFFF87B97F50003F30C254A85FFF7F32FFFF9CB97F60003F30D24AA84AAA4B32FFFFAFB97F70003F30E240A835551132FFFFC0B97F80003F30F238,
   0xAAA5521A33FFFC7DB9FE20023F2F93DAAA9AA80533FFFCF1B9FE40023F2FB3A0AA8FFDDD33FFFD5DB9FE60013F2FD36AAA8553A333FFFDC1B9FE80013F2FF338AA7552B133FFFE1DB9FEA0013F30130AAA5FFDFD33FFFE71B9FEC0013F3032E0AA4AA92D33FFFEBDB9FEE0003F3052BAAA35544433FFFF01B9FF00003F307298,
   0xACA5486734FFF1F4BA7C40123F2DB920AC9AA01434FFF3C4BA7C800E3F2DF838AC8FF77434FFF574BA7CC00B3F2E3760AC854E8D34FFF704BA7D00093F2E7698AC754AC434FFF873BA7D40073F2EB5E0AC5FF7F534FFF9C3BA7D80053F2EF538AC4AA4B534FFFAF3BA7DC0043F2F34A0AC35511034FFFC03BA7E00033F2F7418,
   0xAEA521A335FFC7D6BAF8808D3F2A0E37AE9A805735FFCF14BAF900723F2A8A97AE8FDDD635FFD5D2BAF9805C3F2B0737AE853A3535FFDC11BAFA00483F2B8418AE752B1535FFE1D0BAFA80373F2C0138AE5FDFD535FFE70FBAFB002A3F2C7E98AE4A92D635FFEBCEBAFB801E3F2CFC38AE35444335FFF00EBAFC00153F2D7A18]
  ++ [0xB0A4870836FF1FB8BB7104633F22E288B09A01B336FF3C99BB7203923F23D40BB08F779436FF577FBB7302DC3F24C68FB084E8FF36FF706BBB7402403F25BA11B074AC8B36FF875BBB7501BB3F26AE93B05F7F7936FF9C4FBB76014D3F27A415B04A4B6F36FFAF46BB7700F33F289A96B035111736FFC040BB7800AB3F299217,
   0xB2A223C537FC84F6BBE222F73F153311B2980C4937FCF701BBE41C733F16F951B28DE22937FD616BBBE616CB3F18C384B283A69937FDC429BBE811F03F1A91ACB272B5A037FE1F2EBBEA0DD33F1C63CCB25E001637FE726FBBEC0A643F1E39E4B2492F1437FEBDE1BBEE07943F2013F6B234452137FF017CBBF005533F21F203,
   0xB49904E438F27279BC4513353EF8D3B4B490861738F4241ABC48E0613EFF0B7EB487C46F38F5BB76BC4CB41E3F02B0E6B47D869F38F737CEBC508E023F05EB68B46B0CBA38F8986EBC546DA03F09355DB45822EC38F9DCAFBC5852883F0C8EDCB444D15F38FB03F4BC5C3C473F0FF7F8B43120A638FC0DAFBC602A683F1370C4,
   0xB674E7E039CF1624BC9014693EA931D1B66D8B1639D4A801BC96A35C3EB26754B664D3EC39DA0595BC9D5E0C3EBC0726B65AC07639DF26B5BCA442B63EC613F5B64F52A239E4033FBCAB4F553ED09051B642906B39E89339BCB281A43EDB7EA8B634841039ECCEE3BCB9D7213EE6E140B6253C1F39F0AED6BCC14D0B3EF2BA38,
   0xB7E0D8CB3A6BFAF0BC8827953E121969B7ECF3143A811A1DBC9799833E2411CDB7F763963A8CB488BCA876DC3E380EFAB7FF944B3A98B1C9BCBACDA73E4E3F48B80272B73AA4EF69BCCEA8133E66D293B8035A273AB1434EBCE40B843E80FCD9B80232303ABD7BFABCFAF7A53E8FF2E9B7FD6A293AC9615FBD09B2C53EA063D6,
   0xB850D8443A36F13EBBBC34EA3CBE6D39B882FC1A3A67E957BBF018BA3CF3B717B8A33B7F3A927A2EBC18DF953D1BD13CB8C9BA7D3AB835F9BC423C543D47037DB8F6AAB73AE65F15BC7617553D7DD1AEB914C8503B0F0B59BC9B582A3DA190EAB9306D343B301A24BCC343093DCD3912B94CB2833B567D42BCF41D363E01F967,
   0xB716C39E388DACBEB990C0AE3A10F1FCB77849AE38E96C73B9EE925E3A6EEE76B7CC4C6B394035C3BA448DBF3AC4E854B827E67E399E2891BAA1DFDB3B223E6CB889B69A3A01FBFABB053B013B85A3E8B8E12B883A553D53BB5B15BC3BDC0B86B93718BD3AAE592EBBB3D42B3C3500E1B993935C3B0DCD6DBC13335F3C94AE97,
   0xB3067B9B341821CBB4A30FF034A4319CB3B6C7E834CEC4C5B55D9FDD355F2995B4786C90358C8376B6169BF73617A78CB528D1EC363EF9F6B6CCB2CB36CE1E92B5E571AF3701C794B78B1B07378C126AB69BE98337B06153B83D0F0F383E5FF0B753DD6E386FB19BB900781739015E37B80FE67B3922D488B9AE926239AFCF90]

/-- Coefficients of published table 0x0004 SiLU (R120, R121): 256 segments. -/
def siluCoeffs : List Nat :=
  [0xA1A555542F7FFFFE37800F0039700E10A19AAAAA2F7FFFFE37800E0039600C40A18FFFFF2F7FFFFF37800D0039500A90A18555552F7FFFFF37800C0039400900A17555542F7FFFFF37800B0039300790A15FFFFF2F7FFFFF37800A0039200640A14AAAAA2F7FFFFF3780090039100510A13555552F8000003780080039000400,
   0xA3A55550307FFFF938001E0039F01C20A39AAAA7307FFFFA38001C0039E01880A38FFFFD307FFFFB38001A0039D01520A3855553307FFFFC3800180039C01200A3755551307FFFFC3800160039B00F20A35FFFFD307FFFFD3800140039A00C80A34AAAA8307FFFFD3800120039900A20A3355554307FFFFE3800100039800800,
   0xA5A55542317FFFE438803C003A703840A59AAA9B317FFFE8388038003A603100A58FFFF3317FFFEB388034003A502A40A585554B317FFFEE388030003A402400A5755545317FFFF138802C003A301E40A55FFFF4317FFFF4388028003A201900A54AAAA2317FFFF6388024003A101440A535554F317FFFF8388020003A001000,
   0xA7A55508327FFF90390078003AF07080A79AAA6B327FFF9E390070003AE06200A78FFFCD327FFFAC390068003AD05480A785552D327FFFB8390060003AC04800A7755516327FFFC4390058003AB03C80A75FFFD0327FFFCE390050003AA03200A74AAA87327FFFD8390048003A902880A735553C327FFFE0390040003A802000,
   0xA9A5541F337FFE3E3980EFFF3B70E100A99AA9AD337FFE783980E0003B60C400A98FFF33337FFEAE3980D0003B50A900A98554B2337FFEE03980C0003B409000A9755458337FFF0E3980B0003B307900A95FFF3F337FFF383980A0003B206400A94AAA1C337FFF5E398090003B105100A93554EF337FFF80398080003B004000,
   0xABA5507C347FF8FA3A01DFFC3BF1C1FEAB9AA6B2347FF9E23A01BFFC3BE187FEAB8FFCCC347FFABA3A019FFD3BD151FFAB8552CA347FFB823A017FFE3BC11FFFAB75515F347FFC3A3A015FFE3BB0F1FFAB5FFCFC347FFCE23A013FFF3BA0C800AB4AA86F347FFD7A3A011FFF3B90A200AB3553BB347FFE023A00FFFF3B808000,
   0xADA541F0357FE3E83A83BFDD3C7383F0AD9A9AC9357FE7883A837FE33C630FF3AD8FF32F357FEAE83A833FE93C52A3F7AD854B28357FEE073A82FFEE3C423FF9AD75457C357FF0E73A82BFF23C31E3FBAD5FF3EF357FF3873A827FF63C218FFDAD4AA1BB357FF5E73A823FF83C1143FEAD354EEE357FF8073A81FFFB3C00FFFF,
   0xAFA507CF367F8FB33B077EE73CF7077CAF9A6B30367F9E2D3B06FF1B3CE61F9CAF8FCCC3367FABA83B067F493CD547B6AF852CA7367FB8253B05FF703CC47FCAAF7515F7367FC3A23B057F913CB3C7DAAF5FCFC1367FCE1F3B04FFAD3CA31FE6AF4A86ED367FD79E3B047FC33C9287EFAF353BBA367FE01D3B03FFD53C81FFF5]
  ++ [0xB1A42033377E3FF33B8EF73B3D7E0BE3B199AD72377E79943B8DF8DE3D6C3CE1B18F3388377EAF483B8CFA4A3D5A8DAEB184B2EF377EE10B3B8BFB813D48FE50B174584A377F0EDC3B8AFC8A3D378ECFB15F3F4D377F38B83B89FD663D263F30B14A1BE0377F5E9D3B88FE1A3D150F77B134EF00377F808A3B87FEAB3D03FFAB,
   0xB3A0900B387911FE3C1DBA433E05FF9CB396C0BB3879F4223C1BC73D3DF8671CB38CD5CB387AC7663C19D2823DE50D7BB382D0F8387B8BA23C17DC303DD1F28CB3716812387C40B33C15E4643DBF167FB35D0197387CE6763C13EB3E3DAC7981B348722B387D7CCE3C11F0DB3D9A1BBDB333BD89387E039E3C0FF55B3D87FD56,
   0xB59328E2396560423CB9DF7F3E939EFFB58BAAF53968A6703CB643753E881DD6B583CD9A396BBD6B3CB29AB13E79ADA9B5772A17396EA3123CAEE5F43E63957FB5660BFA3971555B3CAB26073E4DF4A3B5544B1E3973D2603CA75BBC3E38CC6CB541F29B397618593CA387EB3E241E19B52F0E52397825A23C9FAB733E0FEACD,
   0xB7519A313A24A4993D687DFA3F2C7671B74F480C3A2E5D6A3D6331F13F1E1889B74B52A93A37E6CC3D5D98E23F1011CDB745AA3C3A412C533D57B49B3F0266FEB73E44C83A4A19203D51878D3EEA397AB7351ECB3A5298253D4B14D43ED06EFEB72A3BCD3A5A947F3D4460313EB77702B71DA6CC3A61F9D03D3D6E0B3E9F597F,
   0xB86E6CD13A1290FA3E0AA6423FD016ADB88881623A45BFA83E094DAE3FBED662B899BF453A7F6A193E07883D3FADC7D4B8AA3AF03A9FA4463E0549403F9CF96CB8B91AFC3AC260CB3E0284EB3F8C7B1AB8C5683B3AE76F703DFE62073F78BC67B8CE19743B07118D3DF68B3C3F596A5FB8D224963B1ACE403DED7BD43F3B26A8,
   0x37E7A956BA917A1F3E87D5BE406A7C45377D20FBBA97A12C3E88FEDC40596F1EB6D4CE0CBA95717C3E8A2BE340483C6BB82776CBBA8627933E8B47584036E4ECB8BB4D19BA471CD43E8C30C440256CBCB925B148B99825343E8CB9D84013DCD9B9823DBE39EBF5D63E8CA41040024509B9BCCBD33AC8015A3E8B9FD33FE17BE9,
   0x38324A4FB9C3F70A3F00759740EFDE0A388310D4BA12B8D63F00B2D440DFCBC238BD9623BA594B513F010DEF40CFB01139061EC5BA9EA44F3F0193BC40BF86773937DCD8BAE351A23F0254F740AF489E39702B20BB1EA8CB3F0365B0409EEDDD39909326BB55264D3F04DA26408E6AFA3993D8A9BB86CA8E3F06BDE6407B6541,
   0x34D1B5B8B5F9BC2B3F800024416FFFFB358316A2B69CCA093F80005A415FFFF43622A3C7B743888B3F8000E2414FFFE136C7F178B7F1E1BB3F800234413FFFB337730E17B89425AF3F800572412FFF3F3811A880B93349043F800D52411FFE2438AB66E9B9D5A5423F802030410FFB743944B599BA79733E3F804C8D40FFEA06]
  ++ [0xA1A555542F7FFFFEB77FE200B96FF1F0A19AAAAA2F7FFFFEB77FE400B95FF3C0A18FFFFF2F7FFFFFB77FE600B94FF570A18555552F7FFFFFB77FE800B93FF700A17555542F7FFFFFB77FEA00B92FF870A15FFFFF2F7FFFFFB77FEC00B91FF9C0A14AAAAA2F7FFFFFB77FEE00B90FFAF0A13555552F800000B77FF000B8FFF800,
   0xA3A55550307FFFF9B7FFC400B9EFE3E0A39AAAA7307FFFFAB7FFC800B9DFE780A38FFFFD307FFFFBB7FFCC00B9CFEAE0A3855553307FFFFCB7FFD000B9BFEE00A3755551307FFFFCB7FFD400B9AFF0E0A35FFFFD307FFFFDB7FFD800B99FF380A34AAAA8307FFFFDB7FFDC00B98FF5E0A3355554307FFFFEB7FFE000B97FF000,
   0xA5A55542317FFFE4B87F8800BA6FC7C0A59AAA9B317FFFE8B87F9000BA5FCF00A58FFFF3317FFFEBB87F9800BA4FD5C0A585554B317FFFEEB87FA000BA3FDC00A5755545317FFFF1B87FA800BA2FE1C0A55FFFF4317FFFF4B87FB000BA1FE700A54AAAA2317FFFF6B87FB800BA0FEBC0A535554F317FFFF8B87FC000B9FFE000,
   0xA7A55508327FFF90B8FF1000BAEF8F80A79AAA6B327FFF9EB8FF2000BADF9E00A78FFFCD327FFFACB8FF3000BACFAB80A785552D327FFFB8B8FF4000BABFB800A7755516327FFFC4B8FF5000BAAFC380A75FFFD0327FFFCEB8FF6000BA9FCE00A74AAA87327FFFD8B8FF7000BA8FD780A735553C327FFFE0B8FF8000BA7FC000,
   0xA9A5541F337FFE3EB97E2001BB6F1F00A99AA9AD337FFE78B97E4001BB5F3C00A98FFF33337FFEAEB97E6001BB4F5700A98554B2337FFEE0B97E8001BB3F7000A9755458337FFF0EB97EA000BB2F8700A95FFF3F337FFF38B97EC000BB1F9C00A94AAA1C337FFF5EB97EE000BB0FAF00A93554EF337FFF80B97F0000BAFF8000,
   0xABA5507C347FF8FAB9FC4009BBEE3E02AB9AA6B2347FF9E2B9FC8007BBDE7802AB8FFCCC347FFABAB9FCC006BBCEAE01AB8552CA347FFB82B9FD0005BBBEE001AB75515F347FFC3AB9FD4003BBAF0E01AB5FFCFC347FFCE2B9FD8003BB9F3800AB4AA86F347FFD7AB9FDC002BB8F5E00AB3553BB347FFE02B9FE0001BB7F0000,
   0xADA541F0357FE3E8BA788046BC6C7C10AD9A9AC9357FE788BA790039BC5CF00DAD8FF32F357FEAE8BA79802EBC4D5C09AD854B28357FEE07BA7A0024BC3DC007AD75457C357FF0E7BA7A801CBC2E1C05AD5FF3EF357FF387BA7B0015BC1E7003AD4AA1BB357FF5E7BA7B800FBC0EBC02AD354EEE357FF807BA7C000BBBFE0003,
   0xAFA507CF367F8FB3BAF10232BCE8F884AF9A6B30367F9E2DBAF201C9BCD9E064AF8FCCC3367FABA8BAF3016EBCCAB84AAF852CA7367FB825BAF40120BCBB8036AF7515F7367FC3A2BAF500DEBCAC3826AF5FCFC1367FCE1FBAF600A7BC9CE01AAF4A86ED367FD79EBAF70079BC8D7811AF353BBA367FE01DBAF80055BC7C0015]
  ++ [0xB1A42033377E3FF3BB62118BBD61F41DB199AD72377E7994BB640E44BD53C31FB18F3388377EAF48BB660B6DBD457252B184B2EF377EE10BBB6808FDBD3701B0B174584A377F0EDCBB6A06EDBD287131B15F3F4D377F38B8BB6C0534BD19C0D0B14A1BE0377F5E9DBB6E03CBBD0AF089B134EF00377F808ABB7002AABCF800AB,
   0xB3A0900B387911FEBBC48B7ABDD400C7B396C0BB3879F422BBC87185BDC798E4B38CD5CB387AC766BBCC5AFBBDBAF285B382D0F8387B8BA2BBD047A0BDAE0D74B3716812387C40B3BBD43737BDA0E981B35D0197387CE676BBD82984BD93867FB348722B387D7CCEBBDC1E4ABD85E443B333BD89387E039EBBE01549BD700553,
   0xB59328E239656042BC0C4101BE38C201B58BAAF53968A670BC137915BE2FC454B583CD9A396BBD6BBC1ACA9DBE265257B5772A17396EA312BC223418BE1C6A81B5660BFA3971555BBC29B3F2BE120B5DB5544B1E3973D260BC314888BE073394B541F29B39761859BC38F02ABDF7C3CFB52F0E52397825A2BC40A919BDE02A67,
   0xB7519A313A24A499BBBC1030BE87131FB74F480C3A2E5D6ABBE67079BE83CEEDB74B52A93A37E6CCBC099C78BE7FB8CCB745AA3C3A412C53BC212D96BE766409B73E44C83A4A1920BC39E1CBBE6B8D0CB7351ECB3A529825BC53ACAFBE5F2205B72A3BCD3A5A947FBC6E7F3BBE5111FDB71DA6CC3A61F9D0BC8523EABE414D03,
   0xB86E6CD13A1290FA3C2A641DBE7F4A96B88881623A45BFA83C14DADFBE84A67AB899BF453A7F6A193BF10793BE88E0B1B8AA3AF03A9FA4463BA927F9BE8C1A52B8B91AFC3AC260CB3B213AD8BE8E1396B8C5683B3AE76F70BA4EFC59BE8E8731B8CE19743B07118DBB974C3ABE8D2B42B8D224963B1ACE40BC142162BE89B2B1,
   0x37E7A956BA917A1F3C7AB7B2BDB0775B377D20FBBA97A12C3C8FEDC3BDD21C32B6D4CE0CBA95717C3CA2BE33BDF872A8B82776CBBA8627933CB47581BE11B13FB8BB4D19BA471CD43CC30C3BBE293442B925B148B99825343CCB9D83BE423275B9823DBE39EBF5D63CCA4107BE5BAF75B9BCCBD33AC8015A3CB9FD2FBE7420B9,
   0x38324A4FB9C3F70A3AEB2ECBBB87D98B388310D4BA12B8D63B32D44DBBD0F8C238BD9623BA594B513B86F745BC1FDE6C39061EC5BA9EA44F3BC9DDE4BC73113E3937DCD8BAE351A23C153DD1BCB7621F39702B20BB1EA8CB3C596C1EBD0911B539909326BB55264D3C9B44B1BD4A82D63993D8A9BB86CA8E3CD7BCCEBD9357DD,
   0x34D1B5B8B5F9BC2B368EDF12B699F09A358316A2B69CCA09373454A2B74347383622A3C7B743888B37E24494B7F6741436C7F178B7F1E1BB388CF85EB89A997237730E17B89425AF392E34D2B9409C7E3811A880B933490439D52035B9EDFB6B38AB66E9B9D5A5423A80C110BA918B023944B599BA79733E3B191AAABB2FCC86]

/-- Coefficients of published table 0x0005 GELU (R120, R121): 256 segments. -/
def geluCoeffs : List Nat :=
  [0xA283EAB92FCC4227378017F039701671A276CFF02FCC4227378016573960138CA265CA6D2FCC4228378014BF395010DBA254C4EA2FCC42283780132639400E5DA243BF672FCC42283780118E39300C11A232B9E42FCC422837800FF5392009F9A221B4602FCC422937800E5D39100814A210AEDD2FCC422937800CC439000662,
   0xA483EAB530CC421E38002FE039F02CE2A476CFE930CC422038002CAE39E02719A465CA6730CC42213800297D39D021B6A454C4E530CC42223800264C39C01CB9A443BF6330CC42243800231B39B01823A432B9E130CC422538001FEA39A013F2A421B45E30CC422638001CB939901028A410AEDC30CC42263800198839800CC4,
   0xA683EAA431CC41FD38805FBF3A7059C3A676CFCC31CC42033880595D3A604E31A665CA5031CC4208388052FB3A50436CA654C4D331CC420D38804C993A403973A643BF5531CC4212388046373A303046A632B9D631CC421638803FD53A2027E5A621B45631CC421A388039733A102050A610AED631CC421D388033113A001988,
   0xA883EA5E32CC41763900BF7E3AF0B386A876CF5A32CC418D3900B2BA3AE09C63A865C9F432CC41A33900A5F63AD086D8A854C48A32CC41B7390099323AC072E5A843BF1C32CC41C939008C6D3AB0608BA832B9AB32CC41DA39007FA93AA04FCAA821B43632CC41E9390072E53A9040A1A810AEBF32CC41F7390066213A803311,
   0xAA83E94733CC3F5C39817EFA3B71670BAA76CD9233CC3FB9398165723B6138C5AA65C88433CC400F39814BEA3B510DAFAA54C36633CC405F398132623B40E5CAAA43BE3833CC40A8398118DA3B30C116AA32B8FD33CC40EB3980FF523B209F94AA21B3B633CC41283980E5CA3B108142AA10AE6333CC415E3980CC423B006621,
   0xAC83E4ED34CC36F43A02FDEA3BF2CE12AC76C67134CC38663A02CADC3BE27186AC65C2C334CC39BF3A0297CE3BD21B5BAC54BED434CC3AFE3A0264BF3BC1CB92AC43BAAA34CC3C243A0231B03BB1822BAC32B64834CC3D303A01FEA13BA13F26AC21B1B434CC3E223A01CB923B910283AC10ACF334CC3EFB3A0198823B80CC42,
   0xAE83D38435CC15563A85FB803C759BFDAE76A9F035CC1B1E3A8595743C64E2EDAE65ABC135CC20803A852F653C5436A0AE54AC9035CC257C3A84C9543C439714AE43AC7035CC2A123A8463403C33044BAE32AB7435CC2E433A83FD2A3C227E44AE21A9AF35CC320C3A8397113C120501AE10A73435CC35703A8330F83C019880,
   0xB0838DF736CB8F093B0BF45F3CFB36BEB076380736CBA61E3B0B28C53CE9C4EBB0654FCE36CBBB9E3B0A5D143CD86C8EB054638D36CBCF873B09914F3CC72DA7B043739236CBE1DA3B08C5763CB6083BB032802836CBF2963B07F98C3CA4FC4AB021899C36CC01BB3B072D923C9409D8B010903836CC0F483B0661893C8330E7]
  ++ [0xB282790637C978663B97D3CA3D8331D3B274723737C9D4113B96407E3D73825FB263E14637CA29863B94AC803D60D38EB253406137CA78BE3B9317DE3D4E5746B24290AE37CAC1B53B9182A43D3C0D9CB231D35737CB04653B8FECDE3D29F6A3B221098837CB40C93B8E56993D18126AB210346B37CB76DD3B8CBFE23D066101,
   0xB47C72C238C1468F3C2F01D93E0E3C9BB46D77DB38C2AACA3C2BF9F83E0364B5B45E3B6B38C3F82A3C28ECB43DF17AF1B44EC17E38C52E533C25DA693DDC8E72B43F0E3B38C64CEF3C22C3743DC80488B42F25DF38C753AD3C1FA8353DB3DDC2B41F0CBD38C842463C1C890B3DA01AA4B40EC73C38C918753C1966583D8CBBA5,
   0xB65CDB5539A2EC703CD9117F3EA34A4AB65349AF39A7E08F3CD3E6533E95E257B648DC7139AC961A3CCE94813E88CE4EB63D9C2139B108203CC91E123E782113B631928B39B531E73CC385343E5F5685B624CABB39B90EFB3CBDCC3C3E47411AB61750E839BC9B2D3CB7F5A03E2FE4B0B609326939BFD2A33CB203F63E1944D1,
   0xB7FC93533A1379FB3D888B7F3F462E09B802100F3A2BE2413D860CAD3F354383B8044C8E3A44B66A3D832B673F24AEFAB804DC2B3A5DA5F13D7FCD403F147CD0B803A3953A765B2E3D787D2B3F04B975B800904A3A873E803D7069C83EEAE277B7F733093A92D84D3D67991E3ECD6058B7E981E03A9DCDBF3D5E14093EB103AF,
   0xB720296EBA573DF23E0C9E8B3FE8B472B808D194BA3DE8AD3E0E33423FD706D9B87F44BFBA0E54953E0F7EDC3FC52AC6B8C3BDFFB98A46483E1051793FB32C4AB906B33238FE53353E1075C53FA11DCEB92BFA373A20D3063E0FB3F13F8F1895B94ED76F3A9E16E03E0DD5A13F7A79A4B96C1D723AF6D5DE3E0AAA773F57625E,
   0x37CD487DB90507283E802846406FFA91384B21ECB98D24863E805C32405FF2A938B71FFDBA0A47273E80C4C7404FE1473914D056BA79112C3E8186EE403FBDA73956140CBACCD5233E82D152402F79BF39837457BB1833A53E84D047401F01A7397B75D5BB48955E3E87941A400E3D5B38F56579BB61A5303E8AEAA13FFA2D09,
   0x2AD8D727AB81E0853F00000040F000002D6436C0AE0BC7663F00000040E000002FB83307B0678EBD3F00000040D0000031E354FAB293489B3F00000040C0000033D59E54B48F751B3F00000440B000003597F88FB65523DC3F000039409FFFFD37225F40B7F033B93F000226408FFFE03880A85EB94BB0C73F001002407FFDEE,
   0x800000003F80000041700000000001098000020C3F8000004160000002BC2E03833A70C33F800000415000000BC36B898C423FE73F800000414000001414244E9493E8A43F800000413000001BA37BF99C24377F3F800000412000002282C7E7A30477633F800000411000002896C2EEA91A7ED73F80000041000000]
  ++ [0xA283EAB92FCC4227B77FD020B96FE98FA276CFF02FCC4227B77FD352B95FEC74A265CA6D2FCC4228B77FD683B94FEF25A254C4EA2FCC4228B77FD9B4B93FF1A3A243BF672FCC4228B77FDCE5B92FF3EFA232B9E42FCC4228B77FE016B91FF607A221B4602FCC4229B77FE347B90FF7ECA210AEDD2FCC4229B77FE678B8FFF33C,
   0xA483EAB530CC421EB7FFA041B9EFD31EA476CFE930CC4220B7FFA6A3B9DFD8E7A465CA6730CC4221B7FFAD05B9CFDE4AA454C4E530CC4222B7FFB367B9BFE347A443BF6330CC4224B7FFB9C9B9AFE7DDA432B9E130CC4225B7FFC02BB99FEC0EA421B45E30CC4226B7FFC68DB98FEFD8A410AEDC30CC4226B7FFCCEFB97FE678,
   0xA683EAA431CC41FDB87F4082BA6FA63DA676CFCC31CC4203B87F4D46BA5FB1CFA665CA5031CC4208B87F5A0ABA4FBC94A654C4D331CC420DB87F66CEBA3FC68DA643BF5531CC4212B87F7393BA2FCFBAA632B9D631CC4216B87F8057BA1FD81BA621B45631CC421AB87F8D1BBA0FDFB0A610AED631CC421DB87F99DFB9FFCCEF,
   0xA883EA5E32CC4176B8FE8104BAEF4C7AA876CF5A32CC418DB8FE9A8DBADF639DA865C9F432CC41A3B8FEB415BACF7928A854C48A32CC41B7B8FECD9DBABF8D1BA843BF1C32CC41C9B8FEE725BAAF9F75A832B9AB32CC41DAB8FF00ADBA9FB036A821B43632CC41E9B8FF1A36BA8FBF5FA810AEBF32CC41F7B8FF33BEBA7F99DF,
   0xAA83E94733CC3F5CB97D020BBB6E98F5AA76CD9233CC3FB9B97D351BBB5EC73BAA65C88433CC400FB97D682BBB4EF251AA54C36633CC405FB97D9B3BBB3F1A36AA43BE3833CC40A8B97DCE4BBB2F3EEAAA32B8FD33CC40EBB97E015CBB1F606CAA21B3B633CC4128B97E346CBB0F7EBEAA10AE6333CC415EB97E677CBAFF33BE,
   0xAC83E4ED34CC36F4B9FA042CBBED31EEAC76C67134CC3866B9FA6A48BBDD8E7AAC65C2C334CC39BFB9FAD064BBCDE4A5AC54BED434CC3AFEB9FB3681BBBE346EAC43BAAA34CC3C24B9FB9C9FBBAE7DD5AC32B64834CC3D30B9FC02BDBB9EC0DAAC21B1B434CC3E22B9FC68DCBB8EFD7DAC10ACF334CC3EFBB9FCCEFCBB7E677D,
   0xAE83D38435CC1556BA740900BC6A6403AE76A9F035CC1B1EBA74D518BC5B1D13AE65ABC135CC2080BA75A136BC4BC960AE54AC9035CC257CBA766D59BC3C68ECAE43AC7035CC2A12BA773981BC2CFBB5AE32AB7435CC2E43BA7805ADBC1D81BCAE21A9AF35CC320CBA78D1DDBC0DFAFFAE10A73435CC3570BA799E11BBFCCF00,
   0xB0838DF736CB8F09BAE81741BCE4C942B076380736CBA61EBAE9AE76BCD63B15B0654FCE36CBBB9EBAEB45D8BCC79372B054638D36CBCF87BAECDD63BCB8D259B043739236CBE1DABAEE7514BCA9F7C5B032802836CBF296BAF00CE9BC9B03B6B021899C36CC01BBBAF1A4DDBC8BF628B010903836CC0F48BAF33CEEBC799E33]
  ++ [0xB282790637C97866BB50586CBD599C5AB274723737C9D411BB537F05BD4C7DA1B263E14637CA2986BB56A6FFBD3F2C72B253406137CA78BEBB59D043BD31A8BAB24290AE37CAC1B5BB5CFAB8BD23F264B231D35737CB0465BB602643BD16095DB221098837CB40C9BB6352CDBD07ED96B210346B37CB76DDBB66803CBCF33DFE,
   0xB47C72C238C1468FBBA1FC4EBDC386CBB46D77DB38C2AACABBA80C10BDB93697B45E3B6B38C3F82ABBAE2698BDAE850FB44EC17E38C52E53BBB44B2EBDA3718EB43F0E3B38C64CEFBBBA7917BD97FB78B42F25DF38C753ADBBC0AF96BD8C223EB41F0CBD38C84246BBC6EDEABD7FCAB8B40EC73C38C91875BBCD3351BD6688B6,
   0xB65CDB5539A2EC70BB9BBA05BE196B6BB65349AF39A7E08FBBB066B5BE143B52B648DC7139AC961ABBC5ADFCBE0E6365B63D9C2139B10820BBDB87B9BE07DEEDB631928B39B531E7BBF1EB2EBE00A97BB624CABB39B90EFBBC046787BDF17DCBB61750E839BC9B2DBC1014C0BDE036A0B609326939BFD2A3BC1BF815BDCD765D,
   0xB7FC93533A1379FB3B88B7F4BE2747DBB802100F3A2BE2413B4195A5BE2AF1F3B8044C8E3A44B66A3ACAD9D3BE2D4418B804DC2B3A5DA5F1B84B0104BE2E0CC0B803A3953A765B2EBAF05AA7BE2D1A2CB800904A3A873E80BB796386BE2A3B12B7F733093A92D84DBBC33713BE253F50B7E981E03A9DCDBFBC07AFDBBE1DF8A2,
   0xB720296EBA573DF23C49E8B3BD6971B9B808D194BA3DE8AD3C633426BD8F9277B87F44BFBA0E54953C77EDBDBDAD539DB8C3BDFFB98A46483C828BCBBDCD3B5BB906B33238FE53353C83AE28BDEE2321B92BFA373A20D3063C7B3F13BE073B56B94ED76F3A9E16E03C5D5A14BE16196FB96C1D723AF6D5DE3C2AA76ABE227689,
   0x37CD487DB905072839A118FDB9ADD0ED384B21ECB98D24863A3864F6BA556BE938B71FFDBA0A47273AC4C6F7BAF5CA7C3914D056BA79112C3B4376F7BB84B2493956140CBACCD5233BB45497BC06411D39837457BB1833A53C1A08D6BC7E58E5397B75D5BB48955E3C728339BCE1529538F56579BB61A5303CAEAA0EBD3A5EEC,
   0x2AD8D727AB81E0852B58BEEFAA848D022D6436C0AE0BC7662DF1A6C1AD1B886F2FB83307B0678EBD3050693EAF8E01DF31E354FAB293489B328AE226B1C9BEA433D59E54B48F751B348ED0AEB3DEED223597F88FB65523DC36622ED8B5BF878F37225F40B7F033B93809911FB77FC1B43880A85EB94BB0C739800D5FB90497BD,
   0x800000000000000080000000000001098000020C0000013E8000003902BC2E03833A70C302E3484181A461AC0BC36B898C423FE70BEE25F08AAE29971414244E9493E8A41436B96893079E571BA37BF99C24377F1BCCFBB29A9B2C9E2282C7E7A304776322A7B6EDA18261562896C2EEA91A7ED728C77F7FA7A0C6E2]

/-- Coefficients of published table 0x0101 EXP_CORE (R120, R121): 184 segments. -/
def expCoreCoeffs : List Nat :=
  [0x18AAAAAD26000002330000023F80000218AAAAAD26000002330000023F80000218AAAAAD26000001330000013F80000118AAAAAC26000001330000013F800001172AAAAC25000001328000013F800001172AAAAC25000001328000013F800001172AAAAC25000001328000013F800001172AAAAB25000001328000013F800001,
   0x1BAAAAB528000007340000073F8000071BAAAAB328000006340000063F8000061BAAAAB228000005340000053F8000051BAAAAB128000004340000043F8000041A2AAAB027000004338000043F8000041A2AAAAF27000003338000033F8000031A2AAAAE27000003338000033F8000031A2AAAAE27000002338000023F800002,
   0x1EAAAAD32A00001C3500001C3F80001C1EAAAACD2A000018350000183F8000181EAAAAC82A000014350000143F8000141EAAAAC32A000010350000103F8000101D2AAABF2900000E3480000E3F80000E1D2AAABC2900000C3480000C3F80000C1D2AAAB92900000A3480000A3F80000A1D2AAAB729000008348000083F800008,
   0x21AAAB4B2C000070360000703F80007021AAAB352C000060360000603F80006021AAAB202C000050360000503F80005021AAAB0B2C000040360000403F800040202AAAFB2B000038358000383F800038202AAAF02B000030358000303F800030202AAAE52B000028358000283F800028202AAADB2B000020358000203F800020,
   0x24AAAD2B2E0001C0370001C03F8001C024AAACD52E000180370001803F80018024AAAC802E000140370001403F80014024AAAC2B2E000100370001003F800100232AABEB2D0000E0368000E03F8000E0232AABC02D0000C0368000C03F8000C0232AAB952D0000A0368000A03F8000A0232AAB6B2D000080368000803F800080,
   0x27AAB4AB30000700380007003F80070027AAB35630000600380006003F80060027AAB20030000500380005003F80050027AAB0AB30000400380004003F800400262AAFAB2F000380378003803F800380262AAF002F000300378003003F800300262AAE552F000280378002803F800280262AADAB2F000200378002003F800200,
   0x2AAAD2AF32001C0339001C033F801C032AAACD5932001802390018023F8018022AAAC80332001402390014023F8014022AAAC2AC32001001390010013F801001292ABEAC31000E0138800E013F800E01292ABC0131000C0138800C013F800C01292AB95631000A0038800A003F800A00292AB6AB31000800388008003F800800,
   0x2DAB4AF6340070313A0070313F8070312DAB358E340060243A0060243F8060242DAB2028340050193A0050193F8050192DAB0AC6340040103A0040103F8040102C2AFABD3300380C3980380C3F80380C2C2AF00E33003009398030093F8030092C2AE55F33002806398028063F8028062C2ADAB133002004398020043F802004]
  ++ [0x30AD2F613601C3103B01C3143F81C31430ACD8DF3601823F3B0182423F81824230AC82883601418E3B0141913F81419130AC2C5C360100FD3B0101013F8101012F2BEBD83500E0C43A80E0C43F80E0C42F2BC0E23500C08F3A80C0903F80C0902F2B95F73500A0633A80A0643F80A0642F2B6B173500803F3A8080403F808040,
   0x33B4F730380731AF3C0731E83F8731E833B38EAB3806245A3C0624923F86249233B228F43805191D3C0519543F85195433B0C60538040FF43C04102B3F84102B322FBD9C37038C4F3B838C5D3F838C5D322F0E36370309043B8309123F830912322E5F7F3702863D3B82864A3F82864A322DB177370203F83B8204053F820405,
   0x36D7BEDA3A1F483D3D1F4C733F9F4C6F36D11B943A1A61B03D1A65C43F9A65C136CAAC953A15A1BB3D15A5B03F95A5AC36C470433A1107303D110B053F910B02353FE2E3390ECA693C8ECB593F8ECB58353CE94F390C93B03C8C949C3F8C949C3539FB89390A65C03C8A66A83F8A66A835371963390840763C88415B3F88415B,
   0x972AAAA924FFFFFEB27FFFFE3F7FFFFE972AAAAA24FFFFFFB27FFFFF3F7FFFFF972AAAAA24FFFFFFB27FFFFF3F7FFFFF972AAAAA24FFFFFFB27FFFFF3F7FFFFF38885E733B462AF33DC640343FC6401238801B553B3A29513DBA3D483FBA3D293870B0B93B2EE1E83DAEF4AA3FAEF48C38621B8E3B24496F3DA45B0E3FA45AF2,
   0x9A2AAAA626FFFFF9B37FFFF93F7FFFF99A2AAAA626FFFFFAB37FFFFA3F7FFFFA9A2AAAA726FFFFFBB37FFFFB3F7FFFFB9A2AAAA826FFFFFCB37FFFFC3F7FFFFC98AAAAA825FFFFFDB2FFFFFD3F7FFFFD98AAAAA925FFFFFDB2FFFFFD3F7FFFFD98AAAAA925FFFFFEB2FFFFFE3F7FFFFE98AAAAA925FFFFFEB2FFFFFE3F7FFFFE,
   0x9D2AAA9728FFFFE4B47FFFE43F7FFFE49D2AAA9928FFFFE8B47FFFE83F7FFFE89D2AAA9C28FFFFECB47FFFEC3F7FFFEC9D2AAA9F28FFFFF0B47FFFF03F7FFFF09BAAAAA127FFFFF2B3FFFFF23F7FFFF29BAAAAA227FFFFF4B3FFFFF43F7FFFF49BAAAAA327FFFFF6B3FFFFF63F7FFFF69BAAAAA527FFFFF8B3FFFFF83F7FFFF8,
   0xA02AAA5B2AFFFF90B57FFF903F7FFF90A02AAA652AFFFFA0B57FFFA03F7FFFA0A02AAA702AFFFFB0B57FFFB03F7FFFB0A02AAA7B2AFFFFC0B57FFFC03F7FFFC09EAAAA8329FFFFC8B4FFFFC83F7FFFC89EAAAA8829FFFFD0B4FFFFD03F7FFFD09EAAAA8D29FFFFD8B4FFFFD83F7FFFD89EAAAA9329FFFFE0B4FFFFE03F7FFFE0,
   0xA32AA96B2CFFFE40B67FFE403F7FFE40A32AA9952CFFFE80B67FFE803F7FFE80A32AA9C02CFFFEC0B67FFEC03F7FFEC0A32AA9EB2CFFFF00B67FFF003F7FFF00A1AAAA0B2BFFFF20B5FFFF203F7FFF20A1AAAA202BFFFF40B5FFFF403F7FFF40A1AAAA352BFFFF60B5FFFF603F7FFF60A1AAAA4B2BFFFF80B5FFFF803F7FFF80]
  ++ [0xA62AA5AB2EFFF900B77FF9003F7FF900A62AA6552EFFFA00B77FFA003F7FFA00A62AA7002EFFFB00B77FFB003F7FFB00A62AA7AB2EFFFC00B77FFC003F7FFC00A4AAA82B2DFFFC80B6FFFC803F7FFC80A4AAA8802DFFFD00B6FFFD003F7FFD00A4AAA8D52DFFFD80B6FFFD803F7FFD80A4AAA92B2DFFFE00B6FFFE003F7FFE00,
   0xA92A96AC30FFE402B87FE4023F7FE402A92A995630FFE801B87FE8013F7FE801A92A9C0130FFEC01B87FEC013F7FEC01A92A9EAB30FFF000B87FF0003F7FF000A7AAA0AB2FFFF200B7FFF2003F7FF200A7AAA2002FFFF400B7FFF4003F7FF400A7AAA3552FFFF600B7FFF6003F7FF600A7AAA4AB2FFFF800B7FFF8003F7FF800,
   0xAC2A5ABD32FF9018B97F90183F7F9018AC2A656332FFA012B97FA0123F7FA012AC2A700A32FFB00CB97FB00C3F7FB00CAC2A7AB132FFC008B97FC0083F7FC008AAAA82AF31FFC806B8FFC8063F7FC806AAAA880431FFD004B8FFD0043F7FD004AAAA8D5831FFD803B8FFD8033F7FD803AAAA92AC31FFE002B8FFE0023F7FE002,
   0xAF296BD634FE4185BA7E41873F7E4187AF29963634FE811EBA7E811F3F7E811FAF29C0A134FEC0C6BA7EC0C83F7EC0C8AF29EB1734FF007EBA7F00803F7F0080ADAA0AF633FF2061B9FF20623F7F2062ADAA203833FF4048B9FF40483F7F4048ADAA357E33FF6032B9FF60323F7F6032ADAA4AC633FF8020B9FF80203F7F8020,
   0xB225BD3E36F9182DBB7918473F791847B226634E36FA11C2BB7A11DC3F7A11DCB2270A0536FB0C51BB7B0C6B3F7B0C6BB227B16336FC07DBBB7C07F53F7C07F5B0A82F5535FC8612BAFC86193F7C8619B0A8838235FD0475BAFD047C3F7D047CB0A8D7D935FD8317BAFD831D3F7D831DB0A92C5A35FE01F8BAFE01FF3F7E01FF,
   0xB517CB6738E5789BBC657A173F657A17B51A2F5938E915B3BC6917343F691735B51C9CEF38ECC15CBC6CC2E43F6CC2E4B51F144E38F07BD1BC707D5F3F707D60B3A0F44137F25FD8BBF2603D3F72603DB3A2376C37F4467EBBF446E33F7446E3B3A37D2137F630F5BBF6315B3F76315BB3A4C56337F81F44BBF81FAB3F781FAB,
   0xB7D59C833AA53863BD25491E3F254939B7E3635C3AAFE045BD2FF2143F2FF231B7F20DAB3ABB3816BD3B4B0B3F3B4B29B800D50E3AC74B2EBD475F5D3F475F7DB687029539CDAE5CBCCDB3A43F4DB3A8B68B4BB839D435CABCD43B3C3F543B41B68FB7AE39DAF246BCDAF7E53F5AF7E9B694479339E1E580BCE1EB4D3F61EB51]

/-- Coefficients of published table 0x0102 LOG1P_CORE (R120, R121): 184 segments. -/
def log1pCoreCoeffs : List Nat :=
  [0x192AAAA3A5FFFFF932FFFFFD345FFFFE192AAAA4A5FFFFFA32FFFFFD343FFFFF192AAAA5A5FFFFFB32FFFFFE341FFFFF192AAAA6A5FFFFFC32FFFFFE33FFFFFF17AAAAA7A4FFFFFD327FFFFE33DFFFFF17AAAAA7A4FFFFFD327FFFFF33BFFFFF17AAAAA8A4FFFFFE327FFFFF33A0000017AAAAA8A4FFFFFE327FFFFF33800000,
   0x1C2AAA8DA7FFFFE433FFFFF2355FFFFA1C2AAA91A7FFFFE833FFFFF4353FFFFC1C2AAA95A7FFFFEC33FFFFF6351FFFFD1C2AAA99A7FFFFF033FFFFF834FFFFFC1AAAAA9CA6FFFFF2337FFFF934DFFFFD1AAAAA9EA6FFFFF4337FFFFA34BFFFFE1AAAAAA0A6FFFFF6337FFFFB349FFFFE1AAAAAA2A6FFFFF8337FFFFC347FFFFE,
   0x1F2AAA33A9FFFF9034FFFFC8365FFFE81F2AAA43A9FFFFA034FFFFD0363FFFEE1F2AAA53A9FFFFB034FFFFD8361FFFF41F2AAA63A9FFFFC034FFFFE035FFFFF01DAAAA6FA8FFFFC8347FFFE435DFFFF41DAAAA77A8FFFFD0347FFFE835BFFFF71DAAAA7FA8FFFFD8347FFFEC359FFFFA1DAAAA87A8FFFFE0347FFFF0357FFFF8,
   0x222AA8CBABFFFE4035FFFF20375FFF9E222AA90BABFFFE8035FFFF40373FFFB8222AA94BABFFFEC035FFFF60371FFFCE222AA98BABFFFF0035FFFF8036FFFFC020AAA9BBAAFFFF20357FFF9036DFFFCF20AAA9DBAAFFFF40357FFFA036BFFFDC20AAA9FBAAFFFF60357FFFB0369FFFE720AAAA1BAAFFFF80357FFFC0367FFFE0,
   0x252AA32BADFFF90036FFFC80385FFE78252AA42BADFFFA0036FFFD00383FFEE0252AA52BADFFFB0036FFFD80381FFF38252AA62BADFFFC0036FFFE0037FFFF0023AAA6EBACFFFC80367FFE4037DFFF3C23AAA76BACFFFD00367FFE8037BFFF7023AAA7EBACFFFD80367FFEC0379FFF9C23AAA86BACFFFE00367FFF00377FFF80,
   0x282A8CAEAFFFE40237FFF201395FF9E0282A90ADAFFFE80237FFF401393FFB80282A94ADAFFFEC0137FFF600391FFCE0282A98ACAFFFF00137FFF80038FFFC0026AA9BACAEFFF201377FF90038DFFCF026AA9DABAEFFF400377FFA0038BFFDC026AA9FABAEFFF600377FFB00389FFE7026AAA1ABAEFFF800377FFC00387FFE00,
   0x2B2A32E3B1FF902538FFC80C3A5FE7842B2A42D5B1FFA01B38FFD0093A3FEE022B2A52C9B1FFB01338FFD8063A1FF3812B2A62BFB1FFC00C38FFE00439FFF00129AA6EB9B0FFC809387FE40339DFF3C129AA76B5B0FFD007387FE80239BFF70129AA7EB2B0FFD805387FEC02399FF9C029AA86B0B0FFE003387FF001397FF800,
   0x2E28CE2AB3FE424739FF20C33B5F9E392E290D4CB3FE81AC39FF40903B3FB8242E294C8DB3FEC12939FF60643B1FCE152E298BEEB3FF00BD39FF80403AFFC0152CA9BB8BB2FF2092397F90313ADFCF0E2CA9DB53B2FF406B397FA0243ABFDC092CA9FB23B2FF604A397FB0193A9FE7052CAA1AFCB2FF802F397FC0103A7FE005]
  ++ [0x31236199B5F923F23AFC8C163C5E7B8931245410B5FA1A6F3AFD08E53C3EE23B31254868B5FB125C3AFD86313C1F394B31263EA6B5FC0BBA3AFE03F83BFF01532FA6F891B4FC89113A7E430B3BDF3CE42FA77520B4FD06A93A7E823D3BBF708F2FA7F22BB4FD849E3A7EC18E3B9F9C532FA86FB3B4FE02F23A7F00FF3B7F8055,
   0x340FDE37B7E621E03BF2B9D63D5A16EC341319D5B7E994703BF4898D3D3BA2C834166E70B7ED1AFB3BF6603D3D1CF43E3419DCF9B7F0B61D3BF83E0F3CFC14D8329C813BB6F28D433B792FB23CDCFE01329E4CDEB6F468283B7A232D3CBDC8D832A01F8FB6F648853B7B18853C9E752232A1F972B6F82E6F3B7C0FC13C7E0546,
   0x36B58044B9AC48103CD20D133E4A92D536C403F7B9B576E93CD794263E2FF98436D41EAAB9BF66D23CDD67B73E14AA9836E609A4B9CA2D873CE38E263DF1383C3574CD10B8CFFBF83C66C2B23DD4936A357F5DE5B8D5F7E63C6A0E9E3DB7869435854652B8DC36E93C6D73013D9A0EBD358B3282B8E2BCF83C70F0EE3D785186,
   0x97AAAAAEA5000002B2800001B3E0000197AAAAAEA5000002B2800001B3C0000197AAAAADA5000001B2800001B3A0000097AAAAADA5000001B2800001B380000037D7848BBA777F773D32160B3EB9CEC037F58E3ABA873DB33D3A2E493EA30C5E380CB904BA94692C3D430BE13E8B3AE6382257ABBAA399FA3D4CCC6C3E647FBF,
   0x9AAAAABAA7000007B3800004B4E000039AAAAAB8A7000006B3800003B4C000029AAAAAB6A7000005B3800003B4A000029AAAAAB4A7000004B3800002B4800001992AAAB2A6000004B3000002B4600002992AAAB1A6000003B3000002B4400001992AAAB0A6000003B3000001B4200001992AAAAFA6000002B3000001B4000001,
   0x9DAAAAE7A900001CB480000EB5E0000C9DAAAADFA9000018B480000CB5C000099DAAAAD7A9000014B480000AB5A000069DAAAACFA9000010B4800008B58000049C2AAAC9A800000EB4000007B56000069C2AAAC5A800000CB4000006B54000059C2AAAC1A800000AB4000005B52000039C2AAABDA8000008B4000004B5000002,
   0xA0AAAB9BAB000070B5800038B6E00031A0AAAB7BAB000060B5800030B6C00024A0AAAB5BAB000050B5800028B6A00019A0AAAB3BAB000040B5800020B68000109F2AAB23AA000038B500001CB66000199F2AAB13AA000030B5000018B64000129F2AAB03AA000028B5000014B620000D9F2AAAF3AA000020B5000010B6000008,
   0xA3AAAE6BAD0001C0B68000E0B7E000C4A3AAADEBAD000180B68000C0B7C00090A3AAAD6BAD000140B68000A0B7A00064A3AAACEBAD000100B6800080B7800040A22AAC8BAC0000E0B6000070B7600062A22AAC4BAC0000C0B6000060B7400048A22AAC0BAC0000A0B6000050B7200032A22AABCBAC000080B6000040B7000020]
  ++ [0xA6AAB9ACAF000700B7800380B8E00310A6AAB7ABAF000600B7800300B8C00240A6AAB5ABAF000500B7800280B8A00190A6AAB3ABAF000400B7800200B8800100A52AB22BAE000380B70001C0B8600188A52AB12BAE000300B7000180B8400120A52AB02BAE000280B7000140B82000C8A52AAF2BAE000200B7000100B8000080,
   0xA9AAE6B9B1001C05B8800E02B9E00C41A9AADEB5B1001803B8800C01B9C00901A9AAD6B2B1001402B8800A01B9A00640A9AACEB0B1001001B8800801B9800400A82AC8AEB0000E01B8000700B9600620A82AC4ADB0000C01B8000600B9400480A82AC0ADB0000A01B8000500B9200320A82ABCACB0000800B8000400B9000200,
   0xACAB9B8CB3007049B9803819BAE0310EACAB7B54B3006036B9803012BAC02409ACAB5B24B3005025B980280DBAA01905ACAB3AFCB3004018B9802008BA801003AB2B22E3B2003812B9001C06BA601884AB2B12D5B200300DB9001805BA401202AB2B02C9B2002809B9001403BA200C81AB2AF2BFB2002006B9001002BA000801,
   0xAFAE78E9B501C49EBA80E18BBBE0C4E6AFADF559B5018362BA80C122BBC09091AFAD724EB5014257BA80A0C9BBA06454AFACEFC6B501017DBA808081BB80402BAE2C8E35B400E126BA007062BB606239AE2C4D53B400C0D8BA006048BB404824AE2C0C91B400A095BA005032BB203215AE2BCBF0B400805FBA004020BB00200B,
   0xB2BA9746B7074BECBB839930BCE31E97B2B85B37B7063765BB83126FBCC24929B2B62841B7052629BB828CC0BCA19549B2B3FE37B704182DBB820821BC8102B3B1326459B60392A2BB01C636BC618B9CB13155DBB6030DA2BB01848EBC412245B130497EB602896BBB014328BC20C950B12F3F3EB60205FBBB010204BC0080AC,
   0xB5F81060B9215652BC8FB827BDED393BB5EB584CB91BD2A7BC8D3DCEBDC99AF3B5DF7B11B9169623BC8AD8F6BDA6988BB5D4669AB9119C12BC88888BBD842CC6B44C8F83B80F3B6CBC0767ACBD665B9EB4478D17B80CE4CEBC064B8BBD44A551B442B434B80A9CBBBC053409BD233577B43E032FB80862BABC042109BD020AEC,
   0xBA0E94FBBBC86D5BBDE39437BF134B0BB9CC2C88BBA2A695BDCCD0A8BEF0A449B9972C19BB869AA1BDBA3124BEBFD7CDB966145EBB62700ABDAAAC7ABE934B0DB7BE2FA9BA517E2CBD23D738BE7CC8E3B7A8AC8FBA41B430BD1D8A00BE549F6AB79649AFBA33A25FBD17B447BE2DFA03B7867ACDBA270B13BD124941BE08BC74]

/-- Coefficients of published table 0x0103 RSQRT_CORE (R120, R121): 256 segments. -/
def rsqrtCoreCoeffs : List Nat :=
  [0xB403173A37A80FF2BB6C59693F79464EB40688AB37AB3719BB6EFFF93F7A33F9B40A181937AE739CBB71B3503F7B2452B40DC6C737B1C636BB7473C53F7C1764B411960637B52FABBB7741B33F7D0D3EB415873837B8B0C7BB7A1D753F7E05ECB4199BD337BC4A5EBB7D076E3F7F017EB41DD55E37BFFD4DBB7FFFFF3F800000,
   0xB3D67D7B379188EABB58CBB93F723399B3DBCE0437941C4ABB5B17053F730D8AB3E14A333796C01FBB5D6CBF3F73E9CBB3E6F3C2379974F0BB5FCD2A3F74C867B3ECCC80379C3B4BBB62388C3F75A969B3F2D64F379F13C2BB64AF2B3F768CDCB3F9132C37A1FEF0BB6731523F7772CBB3FF852A37A4FD73BB69BF4D3F785B42,
   0xB3B1656F377E096BBB47CC183F6BB2C5B3B58E5E37812559BB49CC6D3F6C7B90B3B9D7A0378352D9BB4BD55E3F6D4660B3BE426937858D98BB4DE7203F6E133EB3C2CFFD3787D600BB5001E93F6EE232B3C781AE378A2C7DBB5225EF3F6FB345B3CC58DA378C917FBB54536C3F708681B3D156F4378F057BBB568A9B3F715BEF,
   0xB3942883375F476BBB38E8D53F65B139B39774AE3762D41DBB3AAAF13F666B02B39AD92837667528BB3C743B3F672691B39E56CF376A2B26BB3E44DC3F67E3EDB3A1EE88376DF6B1BB401CFF3F68A31DB3A5A1423771D86CBB41FCCF3F69642AB3A96FF73775D0FFBB43E4793F6A271AB3AD5BAB3779E118BB45D42C3F6AEBF5,
   0xB379AB7A37457E1EBB2BC8733F601F87B37EF52B37487AF5BB2D566D3F60CC16B38231F9374B8818BB2EEA713F617A36B384FC88374EA5FBBB30849F3F6229EDB387DAE73751D513BB32251B3F62DB41B38ACDC5375515DCBB33CC073F638E39B38DD5D6375868D6BB3579863F6442DBB390F3D4375BCE83BB372DBE3F64F92E,
   0xB3540DFB372FB0C3BB2023A73F5AF0BFB35856A3373239C1BB2185923F5B9193B35CBBF13734CFEEBB22EC9C3F5C33CCB3613ED1373773A4BB2458E03F5CD76EB365E037373A253DBB25CA7A3F5D7C7FB36AA122373CE519BB2741853F5E2305B36F8298373FB39ABB28BE1E3F5ECB04B37485AC37429123BB2A40633F5F7483,
   0xB3356C29371D1D5ABB15C1033F5619F2B338ECFE371F481CBB16FD693F56B051B33C843637217DA4BB183E2F3F5747EEB34032823723BE36BB19836B3F57E0CFB343F89737260A1ABB1ACD343F587AF7B347D7333728619ABB1C1BA03F59166BB34BCF1A372AC502BB1D6EC73F59B330B34FE116372D349FBB1EC6C13F5A514A,
   0xB31C4098370D2D26BB0C71CD3F5191D1B31F245A370F0A8FBB0D8E053F521ED0B32219CA3710F0D8BB0EAE013F52ACEEB325216E3712E038BB0FD1D33F533C2EB3283BD03714D8E7BB10F98C3F53CC93B32B697D3716DB20BB1225413F545E22B32EAB0A3718E71CBB1355033F54F0DFB332010F371AFD1BBB1488E83F5584CD]
  ++ [0xB307664236FED36DBB040FAC3F4D505EB309CD4A3701071BBB05101D3F4DD4EDB30C426D3702ABDFBB0613D03F4E5A7FB30EC6103704582EBB071AD53F4EE116B311589B37060C35BB0825393F4F68B6B313FA7C3707C821BB09330E3F4FF162B316AC2437098C21BB0A44633F507B1DB3196E05370B5868BB0B59473F5105EC,
   0xB2EBFC0936E6EA1ABAF8F5BC3F494EB3B2F0022F36E9BA1BBAFAC6603F49CBA2B2F41F0736EC9673BAFC9CB13F4A497AB2F8532E36EF7F67BAFE78C83F4AC83FB2FC9F4736F27540BB002D5E3F4B47F4B30081FD36F57846BB0121553F4BC89BB302C0F936F888C6BB0218563F4C4A38B3050CF136FBA70EBB03126E3F4CCCCD,
   0xB2CEB82B36D207B3BAEB31CD3F4586D3B2D21CB636D47E05BAECD8533F45FCD6B2D593AC36D6FEBCBAEE83D03F4673ACB2D91D8636D98A10BAF034593F46EB5AB2DCBAC436DC203CBAF1EA043F4763E2B2E06BE736DEC17BBAF3A4E63F47DD45B2E4317636E16E0BBAF565163F485787B2E80BFC36E4262ABAF72AAB3F48D2AB,
   0xB2B5F5AF36BFB285BADEA70C3F41F383B2B8D68F36C1DD05BAE0289B3F426337B2BBC67C36C41055BAE1AE893F42D3ADB2BEC5D936C64CA3BAE338E63F4344E6B2C1D50736C8921FBAE4C7C63F43B6E6B2C4F46F36CAE0F8BAE65B393F4429AFB2C8247936CD3962BAE7F3543F449D42B2CB659236CF9B8FBAE990293F4511A3,
   0xB2A0E2CA36AF876BBAD32FD83F3E902CB2A3579636B1716FBAD490D13F3EFA1CB2A5D8C736B362F7BAD5F5A53F3F64BDB2A866AB36B55C28BAD75E653F3FD012B2AB019036B75D2ABAD8CB1E3F403C1CB2ADA9C836B96624BADA3BE23F40A8DEB2B05FA636BB7740BADBB0C03F411659B2B3238036BD90A7BADD29C83F41848F,
   0xB28ED95536A1350DBAC8AC2F3F3B58C0B290F4CF36A2E7E9BAC9F04C3F3BBD67B2931A8F36A4A136BACB37D63F3C22B1B2954AD436A66114BACC82D83F3C889FB29785DB36A827A4BACDD1613F3CEF34B299CBE736A9F505BACF237E3F3D5671B29C1D3A36ABC95ABAD0793D3F3DBE58B29E7A1936ADA4C6BAD1D2AB3F3E26EB,
   0xB27EA94E36947833BABF00B03F3849AAB28125D73695FBA2BAC02B243F38A975B282FF983697849FBAC158A53F3909D6B284E21D36991343BAC2893D3F396ACEB286CD99369AA7AABAC3BCF83F39CC60B288C23F369C41EFBAC4F3E23F3A2E8CB28AC046369DE22EBAC62E063F3A9154B28CC7E5369F8883BAC76B713F3AF4BA,
   0xB263D417368918F8BAB615CF3F355FBAB266FA23368A736EBAB7295C3F35BB09B26A2E91368BD2B2BAB83FA23F3616E4B26D71B0368D36DBBAB958AC3F36734AB270C3D3368E9FFFBABA74833F36D03DB274255036900E35BABB93323F372DBFB277967D36918195BABCB4C23F378BD0B27B17B33692FA37BABDD93E3F37EA74]
  ++ [0xB3B963EA376DAD0CBB271FC93F304387B3BE427637722288BB28FF9A3F30EB96B3C34B6B3776B639BB2AE8743F319589B3C88091377B6928BB2CDA943F32416AB3CDE3C537801E35BB2ED63B3F32EF41B3D376FE3782988FBB30DBAA3F339F19B3D93C4937852438BB32EB253F3450FCB3DF35D23787C1CEBB3504F23F3504F3,
   0xB397AADE374DD13CBB194C3B3F2B432AB39B6CE9375175BCBB1AEB833F2BDD46B39F4DD137553180BB1C922B3F2C7904B3A34ECF3759054BBB1E40633F2D166CB3A7712A375CF1E2BB1FF65B3F2DB587B3ABB6383760F818BB21B4463F2E565CB3B01F5F376518C3BB237A583F2EF8F2B3B4AE17376954C7BB2548C63F2F9D53,
   0xB37AE04C3733A192BB0D472A3F26A9F4B380612B3736A3CFBB0EB1703F2737F0B383690C3739B83BBB1021CD3F27C759B38688A2373CDF63BB1198653F285835B389C0D2374019DDBB13155F3F28EA8CB38D128B37436841BB1498E23F297E62B3907EC63746CB2DBB1623163F2A13C0B3940686374A4348BB17B4253F2AAAAB,
   0xB3518704371DE1D0BB02C0323F226ABEB35630D93720645BBB03FE793F22EE1DB35AFD103722F54ABB0541D33F2372BDB35FECE037259509BB068A5E3F23F8A2B365018F37284405BB07D8373F247FD3B36A3C6F372B02B2BB092B7F3F250855B36F9EE0372DD185BB0A84533F25922CB3752A553730B0FBBB0BE2D73F261D5F,
   0xB3308B11370BA5FDBAF2F0173F1E7AA0B3344846370DC2D0BAF522EA3F1EF4A4B3381FB3370FEB29BAF75E473F1F6FC4B33C123C37121F59BAF9A25D3F1FEC04B34020CC37145FB5BAFBEF5C3F206968B3444C573716AC94BAFE45753F20E7F5B34895DC3719064EBB00526E3F2167AFB34CFE65371B6D42BB0186E23F21E89B,
   0xB315F1FC36F876BFBAE2789C3F1AD073B318F97036FC0C8FBAE46D203F1B422CB31C152636FFB504BAE668E23F1BB4E1B31F45C53701B84FBAE86C083F1C2896B3228BF937039FEEBAEA76BA3F1C9D4EB325E876370591A2BAEC891D3F1D130EB3295BF737078DB1BAEEA35D3F1D89D9B32CE73D37099461BAF0C5A23F1E01B3,
   0xB30048FB36DE3195BAD3C8B83F17647CB302C32336E14221BAD5882D3F17CED0B3054D2036E461E8BAD74DD13F183A05B307E76D36E7914EBAD919C53F18A61FB30A928D36EAD0B5BADAEC283F191320B30D4F0436EE2087BADCC51A3F19810CB3101D5E36F1812FBADEA4BC3F19EFE6B312FE2A36F4F31CBAE08B313F1A5FB2,
   0xB2DCF96236C7A74DBAC69E5B3F143026B2E10F8E36CA4A76BAC8304D3F1493D9B2E53EBD36CCFA2DBAC9C7923F14F857B2E987A936CFB6BEBACB64443F155DA2B2EDEB1636D28079BACD067B3F15C3BCB2F269CC36D557B0BACEAE543F162AA9B2F7049E36D83CB8BAD05BE93F16926CB2FBBC6136DB2FE6BAD20F563F16FB06]
  ++ [0xB2BF7BD536B4306ABABAC3453F112DCAB2C2E19F36B6790ABABC2DEE3F118B87B2C65B5B36B8CC17BABD9D343F11E9F9B2C9E99836BB29D0BABF112A3F124925B2CD8CEA36BD9272BAC089E73F12A90BB2D145ED36C0063EBAC207803F1309AFB2D5153E36C28579BAC38A0C3F136B13B2D8FB8236C51066BAC511A33F13CD3A,
   0xB2A6DDC236A347FBBAB00A8E3F0E5889B2A9B62F36A5451ABAB1531B3F0EB0E0B2AC9EA836A74AF2BAB29FAC3F0F09DDB2AF979D36A959B5BAB3F0513F0F6381B2B2A18036AB7196BAB5451D3F0FBDCEB2B5BCC736AD92C8BAB69E213F1018C6B2B8E9EE36AFBD82BAB7FB723F10746DB2BC297236B1F1FABAB95D223F10D0C3,
   0xB2922C3636948381BAA64EC23F0BAC25B294925D36964136BAA779873F0BFF97B297058A36980643BAA8A7CF3F0C539FB29986133699D2D2BAA9D9A83F0CA83FB29C1451369BA70CBAAB0F223F0CFD79B29EB0A1369D831BBAAC484D3F0D534FB2A15B62369F672ABAAD85373F0DA9C2B2A414F636A15365BAAEC5F23F0E00D5,
   0xB280AA3A36878CEDBA9D70693F0924ECB282B34636891504BA9E810C3F0973E8B284C6F7368AA357BA9F94C43F09C36DB286E593368C3805BAA0ABA03F0A137DB2890F5E368DD331BAA1C5AB3F0A641AB28B44A1368F74FCBAA2E2F43F0AB544B28D85A836911D8ABAA403863F0B06FDB28FD2BF3692CD00BAA527713F0B5948,
   0xB26386EB36783C47BA9554E93F06BF9EB267002B367AF144BA964E803F070A87B26A8AF4367DB0E1BA974AD13F0755EDB26E27B136803DAABA9849E73F07A1D2B271D6D33681A86ABA994BCE3F07EE37B27598CC368318CDBA9A508F3F083B1EB2796E1236848EF0BA9B58373F088889B27D572136860AF0BA9C62D13F08D677,
   0xB24A04D83663FB40BA8DE59F3F04795FB24CFFC73666623CBA8ECACD3F04C08BB250093F3668D255BA8FB2683F05082AB2532195366B4BB6BA909C773F05503EB2564924366DCE8EBA9189043F0598C7B259804836705B0BBA9278193F05E1C7B25CC75E3672F15EBA9369C03F062B40B2601EC9367591B6BA945E023F067532,
   0xB23412A13651F7B6BA870F2E3F024FA6B236A48036541BA0BA87E2383F029362B239427E36564765BA88B76A3F02D788B23BECE136587B29BA898ECB3F031C1AB23EA3F1365AB712BA8A68643F036117B24167F8365CFB47BA8B443E3F03A682B2443941365F47F0BA8C225F3F03EC5CB247181C36619D35BA8D02D23F0432A5,
   0xB221195C3641E29CBA80C0F13F004030B22353523643CC94BA8183C93F0080C1B22597743645BD58BA82488E3F00C1B4B227E5F93647B507BA830F473F01030AB22A3F1C3649B3C2BA83D7FC3F0144C4B22CA31A364BB9A9BA84A2B33F0186E2B22F1230364DC6DDBA856F733F01C967B2318C9C364FDB80BA863E443F020C52]

end Sys2Proof.Machine
end

