-- ==== Sys2Proof/Machine/Fx.lean ====
section
/-! DEFINITION. The function unit FX (R110 to R124): table evaluation with end rules, symmetry and seam clamps, the
built-ins, micro-programs, and the checks of the slot loader. -/

namespace Sys2Proof.Machine

/-- The symmetry of a table (R114 SYM). -/
inductive Sym where
  | none | odd | even | compl
  deriving DecidableEq, Repr

/-- The order of a table (R114 MONO). -/
inductive Mono where
  | none | inc | dec
  deriving DecidableEq, Repr

/-- A table: the header of R114 and its segment records, eight packed into each entry of `segs`. -/
structure Tab where
  sym : Sym
  mono : Mono
  emin : Int
  nbin : Nat
  subdiv : Nat
  c : F32
  l0 : F32
  l1 : F32
  hp0 : F32
  hp1 : F32
  hn0 : F32
  hn1 : F32
  id : Nat
  segs : List Nat
  deriving DecidableEq, Repr

/-- A micro-program: its step words and constants K0 to K7 (R123). -/
structure Micro where
  steps : List Nat
  ks : List F32
  id : Nat
  deriving DecidableEq, Repr

/-- What an FX slot holds (R113). -/
inductive FxContent where
  | empty
  | table (t : Tab)
  | micro (m : Micro)
  deriving DecidableEq, Repr

/-- Coefficient k of segment i (R114). -/
def Tab.coef (t : Tab) (i k : Nat) : F32 :=
  BitVec.ofNat 32 ((t.segs.getD (i / 8) 0) >>> (128 * (i % 8) + 32 * k))

/-- Segments of one half (R115). -/
def Tab.half (t : Tab) : Nat := t.nbin * 2 ^ t.subdiv

/-- Segment count (R115). -/
def Tab.nseg (t : Tab) : Nat := (if t.sym = .none then 2 else 1) * t.half

/-- The end rule: k0 when k1 is zero, otherwise fmaf(k1, v, k0) (R116). -/
def linRule (k0 k1 v : F32) : F32 := if f32IsZero k1 then k0 else f32Fma k1 v k0

/-- The segment polynomial at tt (R116). -/
def Tab.poly (t : Tab) (i : Nat) (tt : F32) : F32 :=
  f32Fma (f32Fma (f32Fma (t.coef i 3) tt (t.coef i 2)) tt (t.coef i 1)) tt (t.coef i 0)

/-- A clamp to the closed interval between two values, whichever lies lower (R117). -/
def clampBetween (y a b : F32) : F32 := f32Max (f32Min a b) (f32Min y (f32Max a b))

/-- The order of a half over v (R117): MONO, reversed for the negative half of a SYM = NONE table. -/
def Tab.halfMono (t : Tab) (negHalf : Bool) : Mono :=
  if negHalf && t.sym == .none then
    (match t.mono with | .inc => .dec | .dec => .inc | .none => .none)
  else t.mono

/-- B of a half: its last segment at tt = 1 (R117). -/
def Tab.last (t : Tab) (negHalf : Bool) : F32 :=
  t.poly (t.half - 1 + (if negHalf then t.half else 0)) f32One

/-- The clamp of a segment result (R117). -/
def Tab.clampSeg (t : Tab) (i : Nat) (y : F32) : F32 :=
  if t.mono = .none then y
  else
    let negHalf := decide (t.half ≤ i)
    if (i + 1) % t.half = 0 then clampBetween y (t.coef i 0) (t.last negHalf)
    else clampBetween y (t.coef i 0) (t.coef (i + 1) 0)

/-- The clamp of the low region (R117). -/
def Tab.clampLow (t : Tab) (y : F32) : F32 :=
  if t.mono = .none then y
  else if t.sym = .none then clampBetween y (t.coef t.half 0) (t.coef 0 0)
  else clampBetween y t.l0 (t.coef 0 0)

/-- The clamp of the high region of a half (R117). -/
def Tab.clampHigh (t : Tab) (sep : Bool) (y : F32) : F32 :=
  match t.halfMono sep with
  | .none => y
  | .inc => f32Max y (t.last sep)
  | .dec => f32Min y (t.last sep)

/-- The magnitude code of 2^e in FP32, for the seam comparisons of R116. -/
def pow2Mag (e : Int) : Nat := (e + 127).toNat * 2 ^ 23

/-- Table evaluation (R116). -/
def Tab.eval (t : Tab) (x : F32) : F32 :=
  if f32IsNan x then f32Nan
  else
    let a := f32Abs x
    let neg := x.getLsbD 31 && !f32IsZero x
    let sep := t.sym == .none && neg
    let v := if t.sym = .none then x else a
    let y :=
      if a.toNat < pow2Mag t.emin then t.clampLow (linRule t.l0 t.l1 v)
      else if a.toNat ≥ pow2Mag (t.emin + t.nbin) then
        t.clampHigh sep (if sep then linRule t.hn0 t.hn1 v else linRule t.hp0 t.hp1 v)
      else
        let sh := 23 - t.subdiv
        let f := a.toNat % 2 ^ 23
        let i := ((f32Ilogb a - t.emin).toNat * 2 ^ t.subdiv) + f / 2 ^ sh + (if sep then t.half else 0)
        let tt := f32Round (.fin false (f % 2 ^ sh) (-(sh : Int)))
        t.clampSeg i (t.poly i tt)
    if neg && t.sym == .odd then f32Neg y
    else if neg && t.sym == .compl then f32Sub t.c y
    else y

/-! ## Published tables (R121) -/

/-- ln2 of R121. -/
def ln2Bits : F32 := 0x3F317218#32

/-- 0x0001 sigmoid. -/
def tabSigmoid : Tab := ⟨.compl, .inc, -12, 16, 4, f32One, 0x3F000000#32, 0x3E800000#32, f32One, 0, 0, 0, 1, sigmoidCoeffs⟩
/-- 0x0002 tanh. -/
def tabTanh : Tab := ⟨.odd, .inc, -12, 16, 4, 0, 0, f32One, f32One, 0, 0, 0, 2, tanhCoeffs⟩
/-- 0x0003 softplus. -/
def tabSoftplus : Tab := ⟨.none, .inc, -12, 16, 3, 0, ln2Bits, 0x3F000000#32, 0, f32One, 0, 0, 3, softplusCoeffs⟩
/-- 0x0004 SiLU. -/
def tabSilu : Tab := ⟨.none, .none, -12, 16, 3, 0, 0, 0x3F000000#32, 0, f32One, 0, 0, 4, siluCoeffs⟩
/-- 0x0005 GELU. -/
def tabGelu : Tab := ⟨.none, .none, -12, 16, 3, 0, 0, 0x3F000000#32, 0, f32One, 0, 0, 5, geluCoeffs⟩
/-- 0x0101 EXP_CORE, in the FX ROM. -/
def tabExpCore : Tab := ⟨.none, .inc, -24, 23, 2, 0, f32One, f32One, 0, 0, 0, 0, 0x101, expCoreCoeffs⟩
/-- 0x0102 LOG1P_CORE. -/
def tabLog1pCore : Tab := ⟨.none, .inc, -24, 23, 2, 0, 0, f32One, 0, 0, 0, 0, 0x102, log1pCoreCoeffs⟩
/-- 0x0103 RSQRT_CORE. -/
def tabRsqrtCore : Tab := ⟨.even, .none, 0, 2, 7, 0, 0, 0, 0, 0, 0, 0, 0x103, rsqrtCoreCoeffs⟩

/-- The published table that slot s holds at reset, if any (R113, R121). -/
def publishedSlot : Nat → FxContent
  | 0 => .table tabSigmoid
  | 1 => .table tabTanh
  | 2 => .table tabSoftplus
  | 3 => .table tabSilu
  | 4 => .table tabGelu
  | _ => .empty

/-! ## Built-ins (R111, R112) -/

/-- exp (R47, R111, R112). -/
def fxExp (x : F32) : F32 :=
  if f32IsNan x then f32Nan
  else if f32Compare .lt x 0xC2AEAE14#32 then 0#32
  else if f32Compare .gt x 0x42B17213#32 then f32Inf false
  else if f32IsZero x then f32One
  else
    let t := f32Mul x 0x3FB8AA3B#32
    let n : Int := match f32v t with
      | .fin s m e => rintInt s m e
      | _ => 0
    let nf := f32OfInt n
    let r := f32Fma (f32Neg nf) 0x3F317200#32 x
    let r := f32Fma (f32Neg nf) 0x35BFBE8E#32 r
    f32Ldexp (tabExpCore.eval r) n

/-- log (R47, R111). -/
def fxLog (x : F32) : F32 :=
  match f32v x with
  | .nan => f32Nan
  | .inf neg => if neg then f32Nan else f32Inf false
  | .fin neg m _ =>
    if m = 0 then f32Inf true
    else if neg then f32Nan
    else
      let e := f32Ilogb x
      let mm := f32Ldexp x (-e)
      let big := f32Compare .gt mm 0x3FB504F3#32
      let mm := if big then f32Mul mm 0x3F000000#32 else mm
      let e := if big then e + 1 else e
      let p := tabLog1pCore.eval (f32Sub mm f32One)
      let ef := f32OfInt e
      f32Fma ef 0x3F317200#32 (f32Fma ef 0x35BFBE8E#32 p)

/-- Reciprocal square root (R47, R111). -/
def fxRsqrt (x : F32) : F32 :=
  match f32v x with
  | .nan => f32Nan
  | .inf neg => if neg then f32Nan else 0#32
  | .fin neg m _ =>
    if m = 0 then f32Inf neg
    else if neg then f32Nan
    else
      let e := f32Ilogb x
      let mm := f32Ldexp x (-e)
      let odd := decide (e % 2 ≠ 0)
      let mm := if odd then f32Mul mm 0x40000000#32 else mm
      let e := if odd then e - 1 else e
      f32Ldexp (tabRsqrtCore.eval mm) (-(e / 2))

/-- Built-in 0 to 3 of R110. -/
def fxBuiltin (k : Nat) (x : F32) : F32 :=
  match k with
  | 0 => fxExp x
  | 1 => fxLog x
  | 2 => f32Recip x
  | _ => fxRsqrt x

/-! ## Micro-programs (R123) -/

/-- Bits [lo + n - 1 : lo] of a number. -/
def nbits (w lo n : Nat) : Nat := (w >>> lo) % 2 ^ n

/-- An operand code of a step word. -/
def microOperand (x : F32) (ms ks : List F32) (code : Nat) : F32 :=
  if code = 0 then x
  else if code ≤ 4 then ms.getD (code - 1) 0
  else if 8 ≤ code ∧ code ≤ 15 then ks.getD (code - 8) 0
  else if code = 17 then f32One
  else 0#32

/-- GETEXP (R123). -/
def microGetexp (a : F32) : F32 :=
  match f32v a with
  | .nan => f32Nan
  | .inf _ => f32Inf false
  | .fin _ m _ => if m = 0 then f32Inf true else f32OfInt (f32Ilogb a)

/-- GETMANT (R123). -/
def microGetmant (a : F32) : F32 :=
  match f32v a with
  | .nan => f32Nan
  | .inf _ => f32Inf false
  | .fin _ m _ => if m = 0 then 0#32 else f32Ldexp (f32Abs a) (-(f32Ilogb a))

/-- LDEXP (R123): a x 2^b; NaN if b is not an integer. A scale beyond 2^400 overflows or flushes every FP32 value, so b is
taken within -400 to 400. -/
def microLdexp (a b : F32) : F32 :=
  match f32ToInt? b with
  | some n => f32Ldexp a (max (-400) (min 400 n))
  | none => f32Nan

/-- The result of one step and which of its operands it reads. `tab` looks a slot's table up. -/
def microStep (tab : Nat → FxContent) (w : Nat) (a b c : F32) : F32 × List F32 :=
  let imm := nbits w 0 4
  match nbits w 28 4 with
  | 0 => (f32Fma a b c, [a, b, c])
  | 1 => (f32Add a b, [a, b])
  | 2 => (f32Mul a b, [a, b])
  | 3 => (f32Min a b, [a, b])
  | 4 => (f32Max a b, [a, b])
  | 5 => if !f32IsZero a && !f32IsNan a then (b, [b]) else (c, [c])
  | 6 => ((if f32Compare ((Pred.ofCode imm).getD .eq) a b then f32One else 0#32), [a, b])
  | 7 => (f32Rint a, [a])
  | 8 => (f32Floor a, [a])
  | 9 => (microGetexp a, [a])
  | 10 => (microGetmant a, [a])
  | 11 => (microLdexp a b, [a, b])
  | 12 => (fxBuiltin imm a, [a])
  | _ => match tab imm with
    | .table t => (t.eval a, [a])
    | _ => (f32Nan, [a])

/-- A NaN seen by a unit: `some false` produced, `some true` propagated (R127). -/
def nanKind (r : F32) (ops : List F32) : Option Bool :=
  if f32IsNan r then some (ops.any f32IsNan) else none

/-- Runs the steps from step `i` and the registers `ms`; the result is m0, with the NaNs of the steps in order, each with its step. -/
def microRun (tab : Nat → FxContent) (ks : List F32) (x : F32) :
    Nat → List Nat → List F32 → List (Nat × Bool) → F32 × List (Nat × Bool)
  | _, [], ms, ns => (ms.getD 0 0, ns)
  | i, w :: rest, ms, ns =>
    let a := microOperand x ms ks (nbits w 21 5)
    let b := microOperand x ms ks (nbits w 16 5)
    let c := microOperand x ms ks (nbits w 11 5)
    let (r, ops) := microStep tab w a b c
    microRun tab ks x (i + 1) rest (ms.set (nbits w 26 2) r) (ns ++ ((nanKind r ops).map fun p => (i, p)).toList)

/-- One element through FX (R110): the result and the NaNs produced or propagated on the way, each with the pass that meets it (R124,
R127). -/
def fxApply (slot : Nat → FxContent) (fsel : Nat) (x : F32) : F32 × List (Nat × Bool) :=
  let one (r : F32) : F32 × List (Nat × Bool) := (r, ((nanKind r [x]).map fun p => (0, p)).toList)
  if fsel < 16 then one (fxBuiltin fsel x)
  else match slot (fsel - 16) with
    | .table t => one (t.eval x)
    | .micro m => microRun slot m.ks x 0 m.steps [0, 0, 0, 0] []
    | .empty => (x, [])

/-- Is the function select usable (R110)? Reserved codes, empty slots and TAB steps without a table are not. -/
def fxUsable (slot : Nat → FxContent) (fsel : Nat) : Bool :=
  if fsel < 4 then true
  else if fsel < 16 then false
  else match slot (fsel - 16) with
    | .empty => false
    | .table _ => true
    | .micro m => m.steps.all fun w =>
        nbits w 28 4 ≠ 13 || (match slot (nbits w 0 4) with | .table _ => true | _ => false)

/-- FX passes a function select takes (R124). -/
def fxPasses (slot : Nat → FxContent) (fsel : Nat) : Nat :=
  if fsel < 16 then 1 else match slot (fsel - 16) with
    | .micro m => m.steps.length
    | _ => 1

/-! ## The loader's checks (R114, R115, R118, R123) -/

/-- CRC-32C of R336, one byte at a time from a running value. -/
def crc32cByte (crc : Nat) (b : Nat) : Nat :=
  (List.range 8).foldl (fun c _ => if c % 2 = 1 then (c / 2) ^^^ 0x82F63B78 else c / 2) (crc ^^^ b)

/-- CRC-32C (R336): reflected polynomial 0x1EDC6F41, initial value and final inversion. -/
def crc32c (bs : List Nat) : Nat := (bs.foldl crc32cByte 0xFFFFFFFF) ^^^ 0xFFFFFFFF

/-- A little-endian number from bytes (R5). -/
def leNat : List Nat → Nat
  | [] => 0
  | b :: rest => b % 256 + 256 * leNat rest

/-- The n little-endian bytes of a number (R5). -/
def leBytes (n v : Nat) : List Nat :=
  match n with
  | 0 => []
  | n + 1 => v % 256 :: leBytes n (v / 256)

/-- Bytes off to off + n - 1 of an image, as a number. -/
def field (img : List Nat) (off n : Nat) : Nat := leNat ((img.drop off).take n)

/-- Packs 16-byte segment records eight to an entry, the form of `Tab.segs`. -/
def packSegs (img : List Nat) : Nat → List Nat
  | 0 => []
  | n + 1 => leNat (img.take 128) :: packSegs (img.drop 128) n

/-- Reads the table that a KIND = 0x01 image spells (R114). -/
def tabOfImage (img : List Nat) : Tab :=
  let flags := field img 3 1
  let emin : Int := if field img 4 1 < 128 then (field img 4 1 : Int) else (field img 4 1 : Int) - 256
  let w (o : Nat) : F32 := BitVec.ofNat 32 (field img o 4)
  { sym := match nbits flags 0 2 with | 0 => .none | 1 => .odd | 2 => .even | _ => .compl
    mono := match nbits flags 2 2 with | 1 => .inc | 2 => .dec | _ => .none
    emin := emin, nbin := field img 5 1, subdiv := field img 6 1
    c := w 16, l0 := w 20, l1 := w 24, hp0 := w 28, hp1 := w 32, hn0 := w 36, hn1 := w 40
    id := field img 12 4
    segs := packSegs (img.drop 64) ((field img 8 2 + 7) / 8) }

/-- The result codes of R119. -/
inductive LoadCode where
  | ok | badTable | notMonotone | busy | badMicro | handle
  deriving DecidableEq, Repr

/-- R119 numbers. -/
def LoadCode.code : LoadCode → Nat
  | .ok => 0 | .badTable => 1 | .notMonotone => 2 | .busy => 3 | .badMicro => 4 | .handle => 5

/-- R115: the conditions that refuse a table image; `extent` is the handle's extent. -/
def tableImageOk (img : List Nat) (extent : Nat) : Bool :=
  let t := tabOfImage img
  let nseg := field img 8 2
  field img 0 2 = 0x0100 && nbits (field img 3 1) 4 4 = 0 && nbits (field img 3 1) 2 2 ≠ 3
    && field img 7 1 = 0 && field img 10 2 = 0 && field img 44 16 = 0
    && decide (-126 ≤ t.emin) && decide (t.emin + t.nbin ≤ 128)
    && decide (1 ≤ t.nbin) && decide (t.nbin ≤ 128) && decide (t.subdiv ≤ 8)
    && nseg = t.nseg && decide (nseg ≤ 256)
    && [t.c, t.l0, t.l1, t.hp0, t.hp1, t.hn0, t.hn1].all f32IsFin
    && (List.range (4 * nseg)).all (fun j => f32IsFin (t.coef (j / 4) (j % 4)))
    && field img 60 4 = crc32c (img.take 60 ++ (img.drop 64).take (16 * nseg))
    && decide (64 + 16 * nseg ≤ extent)

/-- Is a sequence in the order of a half, not necessarily strictly (R118)? -/
def monoSeq (m : Mono) : List F32 → Bool
  | a :: b :: rest =>
    (match m with | .dec => f32Compare .ge a b | _ => f32Compare .le a b) && monoSeq m (b :: rest)
  | _ => true

/-- R118: the seam checks of a monotone table. -/
def tableMonotone (t : Tab) : Bool :=
  if t.mono = .none then true
  else
    let seq (neg : Bool) : List F32 :=
      (List.range t.half).map (fun i => t.coef (i + if neg then t.half else 0) 0) ++ [t.last neg]
    monoSeq (t.halfMono false) (seq false)
      && (if t.sym = .none then monoSeq (t.halfMono true) (seq true) && monoSeq t.mono [t.coef t.half 0, t.coef 0 0]
          else monoSeq t.mono [t.l0, t.coef 0 0])
      && t.sym ≠ .even
      && (t.sym ≠ .odd || f32IsZero t.l0)
      && (t.sym ≠ .compl || f32Compare .eq (f32Mul 0x40000000#32 t.l0) t.c)

/-- Is an operand code of a step word defined (R123)? -/
def microOperandOk (c : Nat) : Bool := c ≤ 4 || (8 ≤ c && c ≤ 17)

/-- R123: the conditions of a micro-program image; `tab` looks up slots at load time. -/
def microImageOk (tab : Nat → FxContent) (img : List Nat) (extent : Nat) : Bool :=
  let n := field img 3 1
  let step (i : Nat) := field img (64 + 4 * i) 4
  field img 0 2 = 0x0100 && decide (1 ≤ n) && decide (n ≤ 16)
    && field img 4 8 = 0 && field img 48 12 = 0
    && field img 60 4 = crc32c (img.take 60 ++ (img.drop 64).take (4 * n))
    && decide (64 + 4 * n ≤ extent)
    && (List.range n).all fun i =>
      let w := step i
      let op := nbits w 28 4
      let imm := nbits w 0 4
      nbits w 4 7 = 0 && decide (op < 14)
        && microOperandOk (nbits w 21 5) && microOperandOk (nbits w 16 5) && microOperandOk (nbits w 11 5)
        && (match op with
            | 6 => decide (imm < 6)
            | 12 => decide (imm < 4)
            | 13 => (match tab imm with | .table _ => true | _ => false)
            | _ => imm = 0)

/-- The micro-program an accepted image spells (R123). -/
def microOfImage (img : List Nat) : Micro :=
  { steps := (List.range (field img 3 1)).map fun i => field img (64 + 4 * i) 4
    ks := (List.range 8).map fun i => BitVec.ofNat 32 (field img (16 + 4 * i) 4)
    id := field img 12 4 }

/-- The outcome of loading an image (R115, R118, R119, R123). DESIGN CHOICE, safe (log 82): a KIND = 0x02 image with a wrong VER, CRC,
extent or reserved byte reports BAD_MICRO, where R115's words for an image would also give BAD_TABLE. -/
def loadImage (tab : Nat → FxContent) (img : List Nat) (extent : Nat) : LoadCode × FxContent :=
  if field img 2 1 = 2 then
    (if microImageOk tab img extent then (.ok, .micro (microOfImage img)) else (.badMicro, .empty))
  else if field img 2 1 = 1 && tableImageOk img extent then
    (if tableMonotone (tabOfImage img) then (.ok, .table (tabOfImage img)) else (.notMonotone, .empty))
  else (.badTable, .empty)

end Sys2Proof.Machine
end

