-- ==== Sys2Proof/Machine/Sparse.lean ====
section
/-! DEFINITION. Sparse tables: the one way the model holds memories, register arrays and tables of many like things.
A table is a list of (key, value) pairs with strictly rising keys; a key that is not listed holds the default that
the reader names. `set` also drops an entry equal to the default, so that equal contents are equal lists. -/

namespace Sys2Proof.Machine

/-- A sparse table from numbers to values. -/
abbrev Sparse (α : Type) := List (Nat × α)

/-- The value at key `k`; `d` where nothing is listed. -/
def Sparse.get {α : Type} (d : α) : Sparse α → Nat → α
  | [], _ => d
  | (j, v) :: rest, k => if k = j then v else Sparse.get d rest k

/-- Stores `v` at `k`, keeping the keys strictly rising. -/
def Sparse.put {α : Type} : Sparse α → Nat → α → Sparse α
  | [], k, v => [(k, v)]
  | (j, w) :: rest, k, v =>
    if k < j then (k, v) :: (j, w) :: rest
    else if k = j then (k, v) :: rest
    else (j, w) :: Sparse.put rest k v

/-- Removes the entry at `k`, if there is one. -/
def Sparse.del {α : Type} : Sparse α → Nat → Sparse α
  | [], _ => []
  | (j, w) :: rest, k =>
    if k < j then (j, w) :: rest
    else if k = j then rest
    else (j, w) :: Sparse.del rest k

/-- Stores `v` at `k` in canonical form: an entry equal to the default is not listed. -/
def Sparse.set {α : Type} [DecidableEq α] (d : α) (m : Sparse α) (k : Nat) (v : α) : Sparse α :=
  if v = d then m.del k else m.put k v

/-- Rewrites the value at `k`. -/
def Sparse.upd {α : Type} (d : α) (m : Sparse α) (k : Nat) (f : α → α) : Sparse α :=
  m.put k (f (m.get d k))

/-- Every key of the table is above `k`. -/
def Sparse.above {α : Type} (k : Nat) : Sparse α → Bool
  | [] => true
  | (j, _) :: _ => k < j

/-- The keys rise strictly. -/
def Sparse.rising {α : Type} : Sparse α → Bool
  | [] => true
  | (j, _) :: rest => Sparse.above j rest && Sparse.rising rest

/-- No entry equals the default. -/
def Sparse.noDefault {α : Type} [DecidableEq α] (d : α) (m : Sparse α) : Bool :=
  m.all fun e => decide (e.2 ≠ d)

/-- The canonical form: strictly rising keys and no entry equal to the default. -/
def Sparse.wf {α : Type} [DecidableEq α] (d : α) (m : Sparse α) : Bool :=
  m.rising && m.noDefault d

end Sys2Proof.Machine
end

