-- ==== Sys2Proof/Machine/State.lean ====
section
/-! DEFINITION. The state of the block: every register, memory, queue, counter, mode and pin that the spec names, as
plain data, and the queue of waiting commands; and the state right after reset. -/

namespace Sys2Proof.Machine

/-- A byte memory in canonical form: addresses strictly rising, no byte equal to the zero an unlisted address reads. -/
abbrev Mem := List Host.Cell

/-- The four configurations (R1). -/
inductive Conf where
  | raique4 | raique8 | raique16 | raique32
  deriving DecidableEq, Repr

/-- Packs of a configuration (R1). -/
def Conf.packs : Conf → Nat
  | .raique4 => 1 | .raique8 => 2 | .raique16 => 4 | .raique32 => 8

/-- Cores of a configuration (R1). -/
def Conf.cores (c : Conf) : Nat := 4 * c.packs

/-- Exponent histograms are present on Raique-16 and Raique-32 (R1, R3). -/
def Conf.hist : Conf → Bool
  | .raique4 => false | .raique8 => false | _ => true

/-- Bring-up stages (R409). -/
inductive Stage where
  | rom | early | verify | cal | full
  deriving DecidableEq, Repr

/-- The event registers of a page header (R423 to R426). -/
structure Hdr where
  raw : Word := 0
  mask : Word := 0xFFFFFFFF#32
  first : Word := 0
  deriving DecidableEq, Repr

/-! ## Cores -/

/-- The tag of a weight plane (R168): handle index and generation, KT and NG. -/
structure PlaneTag where
  ref : Nat
  kt : Nat
  ng : Nat
  deriving DecidableEq, Repr

/-- One matrix array: planes of 1,024 words (cell row r, column c at 32 r + c), mode, width state, recorded column CRCs
of the active plane, accumulator memory (row r, column c at 32 r + c). -/
structure Mxa where
  active : Sparse (BitVec 16) := []
  shadow : Sparse (BitVec 16) := []
  tag : Option PlaneTag := none
  crc : Option (List Nat) := none
  quad : Bool := false
  byps : List Nat := []
  retired : Bool := false
  acm : Sparse F32 := []
  deriving DecidableEq, Repr

/-- A summary record (R109, R187). -/
structure Summ where
  sum : F32 := 0
  max : F32 := 0xFF800000#32
  count : Nat := 0
  anyNan : Bool := false
  deriving DecidableEq, Repr

/-- What a core sequencer runs: nothing, slot `slot` of frame `n` of group `gid`, or slot `slot` of the job at the head
of ring `ring`. -/
inductive Run where
  | idle
  | frame (gid n slot : Nat)
  | job (ring slot : Nat)
  deriving DecidableEq, Repr

/-- A word in the ingress latch: the group and frame it belongs to, the SPD line that holds it, its first broadcast byte (R386). -/
structure Latched where
  gid : Nat
  frame : Nat
  line : Nat
  off : Nat
  deriving DecidableEq, Repr

/-- The units of the NaN trap in their order (R127, R129). -/
inductive NanUnit where
  | arrays | vx | fx | conversion
  deriving DecidableEq, Repr

/-- A NaN that an instruction met: when it arose on the instruction's own schedule, unit, lane, whether it was propagated, and
its place in the walk. -/
structure NanEv where
  time : Nat
  unit : NanUnit
  lane : Nat
  prop : Bool
  row : Nat := 0
  ng : Nat := 0
  kt : Nat := 0xFFF
  mc : Nat := 0
  deriving DecidableEq, Repr

/-- The results that a CHAINED instruction hands to its successor (R175): ROWS, W, and the vectors. -/
structure Chained where
  rows : Nat
  w : Nat
  vecs : List (List F32)
  /-- CCLK between two vectors, and from a vector's entry to its result. -/
  ival : Nat := 1
  lat : Nat := 0
  /-- The NaN of the instruction that fills the trap's record, on its own schedule (R127). -/
  nan : Option NanEv := none
  deriving DecidableEq, Repr

/-- A MOVE that waits for a remote read (R182, R209): source core, handle reference there, source offset, pitch, and
where the rows go. -/
structure RemoteRead where
  core : Nat
  ref : Nat
  pc : Nat
  word : Nat
  deriving DecidableEq, Repr

/-- The core sequencer (R160, R180 to R190). -/
structure Csq where
  run : Run := .idle
  prog : Nat := 0
  ctx : BitVec 16 := 0
  steps : Nat := 0
  pc : Nat := 0
  /-- The instruction last issued, which OBS_CSQ shows. -/
  last : Nat := 0
  ended : Bool := false
  /-- FCLK count at which a waiting WAIT, QPUSH or QPOP issued. -/
  waiting : Option Nat := none
  /-- Remote writes not yet acknowledged (R185). -/
  remote : Nat := 0
  /-- CCLK waited for input that the host supplies (R259). -/
  inWait : Nat := 0
  /-- Counts the starts of the sequencer, so that a late acknowledgement names the run it belongs to. -/
  epoch : Nat := 0
  rread : Option RemoteRead := none
  branches : Sparse Nat := []
  tokens : Sparse DWord := []
  srs : Sparse Summ := []
  chain : Option Chained := none
  /-- State slots written, by handle index, with the step count each adds at commit (R134). -/
  slots : Sparse Nat := []
  /-- Byte 3 (CUR among its bits) and STEP of each slot's header as the run's first read of the slot found them, by handle index
  (R322). -/
  caps : List (Nat × Nat × Nat) := []
  /-- Conversion-lane generators of the slot (R61 to R64). -/
  gens : Sparse DWord := []
  /-- ACM and state registers as they stood at frame start, for a restart (R319). -/
  acm0 : List (Sparse F32) := []
  sregs0 : Sparse F32 := []
  deriving DecidableEq, Repr

/-- A line of a Retriever in flight (R212, R217): its tag, handle reference, SPD offset, multicast mask, direction; for a
line of a descriptor list, its index in the list. -/
structure RtvLine where
  tag : Nat
  ref : Nat
  off : Nat
  mcast : Nat
  write : Bool
  addr : Nat
  space : Bool := false
  desc : Option Nat := none
  data : Option (List Byte) := none
  deriving DecidableEq, Repr

/-- A started RD, WR or LIST (R214, R216): opcode, handle reference, lines left to issue, space, destinations, registers it
advances, and the next line's address and offset. -/
structure RtvMove where
  op : Nat
  ref : Nat
  left : Nat
  space : Bool
  mcast : Nat := 0
  ahold : Bool := false
  ohold : Bool := false
  fa : Nat := 0
  fb : Nat := 0
  addr : Nat
  off : Nat
  /-- LIST only: descriptors, how many have begun, address of the list, list lines requested, and those that arrived. -/
  total : Nat := 0
  begun : Nat := 0
  base : Nat := 0
  asked : Nat := 0
  got : Sparse (List Byte) := []
  deriving DecidableEq, Repr

/-- State of a Retriever (R227 RTV_STAT.STATE). -/
inductive RtvState where
  | idle | armed | running | parked
  deriving DecidableEq, Repr

/-- A Retriever (R212 to R217). -/
structure Rtv where
  prog : Word := 0
  /-- The RW fields of RTV_CTRL as last written (R227); the next four are those of the last write to the idle Retriever. -/
  ctl : Word := 0
  trig : Nat := 0
  be : Bool := false
  id : Nat := 0
  nsets : Nat := 0
  st : RtvState := .idle
  disarm : Bool := false
  pc : Nat := 0
  code : Nat := 0
  set : Nat := 0
  lines : Word := 0
  store : List Nat := []
  params : Nat := 0
  ctx : BitVec 16 := 0
  p : List DWord := []
  a : Sparse DWord := []
  o : Sparse Word := []
  l : Sparse Nat := []
  /-- A trigger waits to start its run; for a fire or a commit, the frame it belongs to (R215). -/
  pend : Bool := false
  pendFrame : Nat := 0
  /-- The frame that the current run serves. -/
  runFrame : Nat := 0
  cur : Option RtvMove := none
  flight : List RtvLine := []
  /-- Per fired frame, set index and parameters at the fire, restored when the frame is discarded (R215). -/
  atFire : List (Nat × Nat × List DWord) := []
  deriving DecidableEq, Repr

/-- A held handle or Collar commit (R207): kind (true for a Collar), index, the new entry, and the ring whose RECLAIM
waits for it. -/
structure HeldCommit where
  collar : Bool
  index : Nat
  value : DWord
  reclaim : Option Nat := none
  deriving DecidableEq, Repr

/-- An FX slot (R113, R131). -/
structure FxSlot where
  content : FxContent
  rom : Bool
  pin : Bool := false
  deriving DecidableEq, Repr

/-- The NaN trap (R129). -/
structure NanTrap where
  ctrl : Word := 1
  stat : Word := 0
  instr : Word := 0
  tile : Word := 0
  mc : Word := 0
  stream : Word := 0
  frame : Word := 0
  /-- The ring whose job HALTED speaks of. -/
  halt : Option Nat := none
  deriving DecidableEq, Repr

/-- One core (R17, R227, R129, R131, R193, R346, R430). -/
structure Core where
  inService : Bool := true
  pdReq : Bool := false
  pdAck : Bool := false
  /-- Sheepdog has enabled CCLK of the core (R370): from the ACK of its REQ until its clocks stop (R400). -/
  cclk : Bool := false
  spd : Mem := []
  /-- Lane words (byte address / 4) whose check bits hold an uncorrectable error (R198). -/
  bad : List Nat := []
  /-- Lines (or ACM rows, numbered from 65,536) with a corrected word still to write back (R316). -/
  toWrite : List Nat := []
  /-- SPD bytes that the instruction in progress has written; empty between steps. -/
  wlog : List Nat := []
  /-- FCLK counts of the frame restarts on the core (R263). -/
  restartsAt : List Nat := []
  segPwr : BitVec 8 := 1
  segUp : BitVec 8 := 1
  segRefused : Bool := false
  handles : Sparse DWord := []
  hstage : Sparse Word := []
  collars : Sparse DWord := []
  cstage : Sparse Word := []
  tblStat : Word := 0
  held : Option HeldCommit := none
  collarRej : Word := 0
  rtvs : Sparse Rtv := []
  mxas : Sparse Mxa := []
  freeze : Word := 0
  sregs : Sparse F32 := []
  fx : Sparse FxSlot := []
  fxStat : Word := 0
  fxJob : Option (Nat × Nat × BitVec 16) := none
  nan : NanTrap := {}
  histCtrl : BitVec 4 := 0
  hist : Sparse Word := []
  progErr : Word := 0
  progErrOff : Word := 0
  fltRec : Word := 0
  fltLoc : Word := 0
  ceCnt : Word := 0
  ueCnt : Word := 0
  winFaults : Nat := 0
  ageCount : BitVec 16 := 0
  ageWarn : BitVec 16 := 0
  lastFails : List (Nat × Nat) := []
  /-- The ingress latch: the bytes that ingress words have placed for broadcasts, and what each word placed stands for (R386). -/
  latch : Sparse Byte := []
  latched : List Latched := []
  /-- The broadcast activation register of 64 bytes (R17, R65). -/
  bcast : Sparse Byte := []
  csq : Csq := {}
  /-- A preemption request has reached the core (R257). -/
  preempt : Bool := false
  /-- State slots whose committed bank lost a line and awaits its rewrite (R321). -/
  lost : List Nat := []
  deriving DecidableEq, Repr

/-! ## Groups, frames and Leash -/

/-- Why a group is parked (R247). -/
inductive ParkCause where
  | software | program | residency | narrowed
  deriving DecidableEq, Repr

/-- Where a frame of a group stands. -/
inductive FramePhase where
  | closed | fired | running | ready | finished
  deriving DecidableEq, Repr

/-- A sample-port binding as a fired frame uses it (R383): lane and the three words. -/
structure Bind where
  lane : Nat
  cfg : Word
  tgt : Word
  store : Word
  deriving DecidableEq, Repr

/-- A frame that has closed or fired and is not yet finished (R20, R239, R249, R259). -/
structure Frame where
  n : Nat
  phase : FramePhase := .closed
  /-- E(C_n) in FCLK, once the close has passed. -/
  close : Option Nat := none
  /-- Fire edge in FCLK. -/
  fire : Option Nat := none
  /-- FCLK at which the frame started, and at which each running attempt became ready. -/
  start : Option Nat := none
  tbFast : Bool := false
  /-- The close was released without compute: BUDGET 0 or suspended, or parked. -/
  noBudget : Bool := false
  parked : Bool := false
  restarts : Nat := 0
  /-- Input wait of each slot in the attempts that have ended, and predecessor wait p, in CCLK (R259). -/
  waits : Sparse Nat := []
  predWait : Nat := 0
  /-- The deadline has passed and the fallback was released (R260). -/
  late : Bool := false
  /-- Sync counters CNT_0 to CNT_15 (R185). -/
  cnts : Sparse Nat := []
  /-- Tokens popped, with their queues, oldest first; tokens pushed and held to the commit (R184). -/
  popped : List (Nat × DWord) := []
  pushed : List (Nat × DWord) := []
  /-- Egress words written by the frame: lane * 2^20 + position index (R387). -/
  egress : Sparse Word := []
  /-- Bindings of the sample port and of the tile port that the frame uses, fixed at its fire (R383, R391). -/
  ins : List Bind := []
  outs : List Bind := []
  tiles : List Nat := []
  /-- FCLK of the last uncorrectable fault: faults at one edge count once (R318). -/
  faultAt : Option Nat := none
  /-- The frame record to write in frame order once the frame has finished: status and flags (R296). -/
  report : Option (Nat × Nat) := none
  /-- SLOT and OFFSET of the instruction that failed the frame (R193, R293). -/
  failAt : Nat × Nat := (0, 0)
  /-- The fence signal of the frame's release was ignored (R299). -/
  regress : Bool := false
  deriving DecidableEq, Repr

/-- A member of a group (R244). -/
structure Member where
  stream : Nat
  phase : DWord
  deriving DecidableEq, Repr

/-- A finished frame whose tiles may still be announced for resolve (R393, R394): its number, its deadline in CCLK,
whether it committed in time, and its tile-port bindings. -/
structure TileFrame where
  n : Nat
  due : Option Nat
  ok : Bool
  binds : List Nat
  deriving DecidableEq, Repr

/-- The stage of an admitted group (R245). -/
inductive GroupStage where
  | reserved | armed | releasing
  deriving DecidableEq, Repr

/-- A group: its record (R244), its reservation (R245), what ARM named (R290) and its frames. -/
structure Group where
  stage : GroupStage := .reserved
  block : Bool := false
  start : Bool := false
  prefire : Bool := false
  tb : Nat := 0
  n : Nat := 1
  p : Nat := 1
  dlc : Nat := 0
  nslot : Nat := 1
  lag : Nat := 0
  fallback : Nat := 0
  seed : DWord := 0
  members : List Member := []
  pages : List (Nat × Nat) := []
  progLen : Nat := 0
  progCrc : Nat := 0
  packs : Nat := 0
  pack : Nat := 0
  /-- Local core of each slot. -/
  cores : List Nat := []
  wg : Nat := 0
  eg : Nat := 0
  entry : Nat := 0
  /-- Sheepdog's copy of the program image, as 32-byte words (R245). -/
  image : List Nat := []
  progs : List Nat := []
  marks : List Nat := []
  rtvs : List Nat := []
  standby : List (Option Nat) := []
  notify : Option Nat := none
  fence : Option Nat := none
  parked : Option ParkCause := none
  shadow : Bool := false
  /-- Standby slots chosen by a recosting, moved after the next commit (R255). -/
  moves : List (Nat × Nat) := []
  /-- A frame has committed since then. -/
  movable : Bool := false
  /-- First frame number that may fire (R242) and the number of the next close. -/
  nextClose : Nat := 0
  lastClose : Option Nat := none
  frames : List Frame := []
  /-- Numbers of finished frames run up to here: the group's oldest unfinished frame (R384). -/
  oldest : Nat := 0
  gens : Sparse DWord := []
  /-- Mark requests per member: (member index, time-base value) (R243). -/
  markReqs : List (Nat × DWord) := []
  /-- Marks carried by ingress words that have landed for a frame: (frame, member index, step) (R243). -/
  ingressMarks : List (Nat × Nat × Nat) := []
  /-- Object references held until RELEASE completes (R303). -/
  refs : List (Nat × Nat) := []
  /-- The ring whose ARM took them. -/
  armer : Option Nat := none
  /-- The ring whose RELEASE waits for the group to be freed. -/
  releaser : Option Nat := none
  /-- A RELEASE has been given and a frame has committed or been discarded since (R245). -/
  freeable : Bool := false
  /-- FCLK at which the newest frame finished (R259). -/
  doneAt : Nat := 0
  /-- The newest finished frames with tiles. -/
  tileFrames : List TileFrame := []
  deriving DecidableEq, Repr

/-- The statistics record of a stream (R264). -/
structure Leash where
  frames : DWord := 0
  slackMin : Word := 0x7FFFFFFF#32
  slackLast : Word := 0
  miss : Sparse Nat := []
  skips : Nat := 0
  fallbacks : Nat := 0
  parked : Nat := 0
  markLate : Nat := 0
  deriving DecidableEq, Repr

/-- A calendar entry (R248); VALID is its presence in the table. -/
structure CalEntry where
  next : DWord
  p : Nat
  drel : Nat
  wres : Nat
  gid : Nat
  lag : Nat
  cores : Nat
  ctl : Nat
  xctl : Nat
  budget : Nat
  suspended : Bool := false
  deriving DecidableEq, Repr, Inhabited

/-- A block of the residency-map cache: aligned group of eight pages, their entries, lock count (R220). -/
structure RmcBlock where
  group : Nat
  entries : List DWord
  locks : Nat := 0
  deriving DecidableEq, Repr

/-- One pack (R229, R265, R430, R435). -/
structure Pack where
  pdReq : Bool := false
  pdAck : Bool := false
  entries : Sparse CalEntry := []
  calSel : Nat := 0
  calLatch : List Word := []
  calXstat : Word := 0
  calFires : Word := 0
  lshMiss : Word := 0
  lshSlack : Word := 0
  lshFrame : Word := 0
  lshCnt : Word := 0
  /-- Cached residency blocks, most recently used first (R220). -/
  rmc : List RmcBlock := []
  rmcPage : Nat := 0
  rmcBusy : Bool := false
  rmcFlt : Word := 0
  rmcVa : Nat := 0
  /-- FCLK of the calendar's last fire: it fires at most one entry per FCLK (R249). -/
  firedAt : Option Nat := none
  deriving DecidableEq, Repr

/-! ## Rings and jobs -/

/-- Ring states (R313 RING_INFO.STATE). -/
inductive RingState where
  | absent | active | stopped | changing
  deriving DecidableEq, Repr

/-- What a completion reports (R293, R295). -/
structure Cmpl where
  status : Nat
  pstat : Nat := 0
  xstat : Nat := 0
  slot : Nat := 0
  offset : Nat := 0
  aux32 : Nat := 0
  aux64 : Nat := 0
  signal : Bool := true
  deriving DecidableEq, Repr

/-- A slot of a job record (R291). -/
structure JobSlot where
  core : Nat
  prog : Nat
  save : Nat
  deriving DecidableEq, Repr

/-- An accepted descriptor: sequence number, its 64 bytes as a number, the references it holds (R303), its wait and its
outcome. -/
structure Desc where
  seq : Nat
  w : Nat
  refs : List (Nat × Nat) := []
  due : Option Nat := none
  /-- The wait is satisfied (R301), and whether that was at its expiry edge. -/
  met : Bool := false
  race : Bool := false
  /-- The command has begun and waits for something outside its own step. -/
  started : Bool := false
  done : Option Cmpl := none
  accepted : Nat := 0
  /-- JOB only: the seed and the slots of the job record read at acceptance (R286, R291). -/
  seed : DWord := 0
  slots : List JobSlot := []
  deriving DecidableEq, Repr

/-- One ring (R281 to R286, R294, R296). -/
structure Ring where
  st : RingState := .absent
  cls : Nat := 0
  prio : Nat := 0
  ctx : BitVec 16 := 0
  log2n : Nat := 3
  descBase : Nat := 0
  cmplBase : Nat := 0
  msgAddr : Nat := 0
  msgData : Word := 0
  irqLine : Nat := 0
  irqEn : Bool := false
  minor : Nat := 0
  tail : DWord := 0
  staged : Word := 0
  fetched : Nat := 0
  completed : Nat := 0
  produced : Nat := 0
  dropped : Nat := 0
  lost : Bool := false
  /-- A burst in flight: first descriptor, count, lines not yet returned, and the lines whose reply was an error (R285). -/
  burst : Option (Nat × Nat × Nat × List Nat) := none
  inbox : List (Nat × Nat × Bool) := []
  queue : List Desc := []
  deriving DecidableEq, Repr

/-- The context saved for one slot of a displaced job (R256): sequencer, arrays 0 to 3 and state registers. -/
structure SavedSlot where
  csq : Csq
  mxas : List Mxa
  sregs : Sparse F32
  deriving DecidableEq, Repr

/-- Where a job stands (R292, R258, R128, R222, R324). -/
inductive JobStage where
  | ready | running | displaced | parkedNan | parkedRes | faulted
  deriving DecidableEq, Repr

/-- The job at the head of a COMPUTE ring. -/
structure Job where
  stage : JobStage := .ready
  seed : DWord := 0
  slots : List JobSlot := []
  saved : Sparse SavedSlot := []
  /-- Slots that have stopped to be displaced, parked or aborted. -/
  held : List Nat := []
  cnts : Sparse Nat := []
  ended : List Nat := []
  /-- The FCLK at which ABORT asked the job to stop; NaN halt or residency fault asked for. -/
  abortAt : Option Nat := none
  parking : Option JobStage := none
  deriving DecidableEq, Repr

/-- A fence (R297). -/
structure Fence where
  value : DWord
  ctx : BitVec 16
  /-- The value that waits see, and the values that they see from later FCLK edges on (R301). -/
  seen : DWord := 0
  later : List (Nat × DWord) := []
  /-- The signals of FCLK `edge` in the order in which they take effect, and the value before them (R299). -/
  edge : Nat := 0
  base : DWord := 0
  sigs : List (Nat × DWord) := []
  deriving DecidableEq, Repr

/-- A handle queue (R183, R184, R433). -/
structure HQueue where
  ctx : BitVec 16 := 0
  en : Bool := false
  tokens : List DWord := []
  rsv : Nat := 0
  seq : Nat := 0
  deriving DecidableEq, Repr

/-- A remote write in flight over the fabric (R209, R211). -/
structure RemoteWrite where
  src : Nat
  dest : Nat
  collar : Nat
  ctx : BitVec 16
  pc : Nat
  rows : List (Nat × List Byte)
  smark : Bool := false
  epoch : Nat := 0
  run : Run := .idle
  deriving DecidableEq, Repr

/-- The acknowledgement or refusal of a remote write on its way back (R209, R272). -/
structure RemoteAck where
  core : Nat
  ok : Bool
  pc : Nat
  epoch : Nat := 0
  deriving DecidableEq, Repr

/-! ## Time bases, ports and services -/

/-- One time base (R231 to R237). -/
structure TBase where
  en : Bool := false
  src : Nat := 0
  sel : Nat := 0
  div : Nat := 0
  value : DWord := 0
  valHi : Word := 0
  nom : Word := 0
  tol : Nat := 0
  stallLim : Nat := 0
  jumpLim : Word := 0xFFFFFFFF#32
  set : DWord := 0
  refused : Bool := false
  /-- Network source: the first sample after the enable has been taken (R235). -/
  sampled : Bool := false
  /-- Network source: the value is held from the enable until that sample (R235). -/
  holds : Bool := false
  /-- FCLK from which the present unit of the free-running count runs (R231). -/
  phase : Nat := 0
  lastAdv : Nat := 0
  stalled : Bool := false
  deriving DecidableEq, Repr

/-- Who issued a memory-port request. -/
inductive ReqUnit where
  | retriever (core rtv : Nat)
  | fetch (ring idx : Nat)
  deriving DecidableEq, Repr

/-- The classes of R377. -/
inductive QCls where
  | deadline | best | control | background
  deriving DecidableEq, Repr

/-- A request outstanding or waiting on a memory channel (R375 to R380). -/
structure MReq where
  unit : ReqUnit
  tag : Nat := 0
  line : Nat
  write : Bool
  cls : QCls
  data : List Byte := []
  ben : List Bool := []
  /-- FCLK at which the unit presented the request, and at which it issued with a tag. -/
  issued : Nat
  sent : Nat := 0
  /-- The line tag of a Retriever. -/
  ltag : Nat := 0
  timedOut : Bool := false
  deriving DecidableEq, Repr

/-- One memory-port channel. -/
structure MChan where
  out : List MReq := []
  wait : List MReq := []
  deriving DecidableEq, Repr

/-- The memory port (R380). -/
structure MPort where
  chans : Sparse MChan := []
  latBound : Nat := 0x800
  latMax : Nat := 0
  lateCnt : Word := 0
  timeout : Nat := 0x100
  errInfo : Word := 0
  errAddr : Nat := 0
  deriving DecidableEq, Repr

/-- A tile read outstanding, or waiting for a tag while its tag is 64 (R390, R392). -/
structure TileRead where
  tag : Nat
  binding : Nat
  gid : Nat
  frame : Nat
  tile : Nat
  line : Nat
  retry : Bool := false
  deriving DecidableEq, Repr

/-- A tile write sent (R390, R393): surface, tile, line, data, strobes, dispatch tag. -/
structure TileWrite where
  surf : Nat
  tile : Nat
  line : Nat
  data : List Byte
  strobe : List Byte
  dseq : Nat
  deriving DecidableEq, Repr

/-- The tile port (R390 to R396). -/
structure TPort where
  retry : Nat := 0x40
  notReadyCnt : Word := 0
  strayCnt : Word := 0
  noneCnt : Word := 0
  cfg : Sparse Word := []
  geom : Sparse Word := []
  refs : Sparse Word := []
  dseq : Sparse Word := []
  reads : List TileRead := []
  /-- READY tiles of the frame after the oldest: (binding, group, frame, tile). -/
  queued : List (Nat × Nat × Nat × Nat) := []
  /-- Tiles wholly landed: (binding, group, frame, tile). -/
  landed : List (Nat × Nat × Nat × Nat) := []
  /-- Lines still to land: (binding, group, frame, tile, lines). -/
  partials : List (Nat × Nat × Nat × Nat × Nat) := []
  /-- RESOLVE events that wait for their frame: (surface, group, frame, tile). -/
  resolves : List (Nat × Nat × Nat × Nat) := []
  /-- Tiles acknowledged: (surface, group, frame, tile). -/
  acked : List (Nat × Nat × Nat × Nat) := []
  writes : List TileWrite := []
  /-- Resolve acknowledges sent: (surface, tile, WROTE). -/
  acks : List (Nat × Nat × Bool) := []
  deriving DecidableEq, Repr

/-- An ingress word that waits in the store (R384): lane, group, frame, store address, byte position, marks. -/
structure WaitWord where
  lane : Nat
  gid : Nat
  frame : Nat
  store : Nat
  pos : Nat
  data : Word
  rst : Bool
  member : Nat
  step : Nat
  deriving DecidableEq, Repr

/-- The sample-stream port (R381 to R389). -/
structure APort where
  parCnt : Word := 0
  strayCnt : Word := 0
  lateCnt : Word := 0
  earlyCnt : Word := 0
  missingCnt : Word := 0
  overrunCnt : Word := 0
  inCfg : Sparse Word := []
  inTgt : Sparse Word := []
  inStore : Sparse Word := []
  outCfg : Sparse Word := []
  outTgt : Sparse Word := []
  outStore : Sparse Word := []
  istore : Sparse Word := []
  estore : Sparse Word := []
  /-- Positions landed: (lane, frame, byte position). -/
  landed : List (Nat × Nat × Nat) := []
  waits : List WaitWord := []
  /-- The group and the region of each egress lane that hold the last computed release, if any since ARM (R387). -/
  region : Sparse (Nat × Nat) := []
  send : Sparse (List (Word × BitVec 16)) := []
  /-- The word and tag each egress lane drove last, and whether SO_VALID is 1. -/
  out : Sparse (Bool × Word × BitVec 16) := []
  deriving DecidableEq, Repr

/-- A partner state (R350). -/
inductive PartState where
  | down | joining | up
  deriving DecidableEq, Repr

/-- A partner (R349 to R354, R367). -/
structure Partner where
  en : Bool := false
  txKey : Nat := 0
  rxKey : Nat := 0
  st : PartState := .down
  minor : Nat := 0
  authf : Word := 0
  replayDrop : Nat := 0
  rateDrop : Nat := 0
  high : Nat := 0
  bitmap : Nat := 0
  txCtr : Nat := 1
  tokens : Nat := 0
  heard : Nat := 0
  exhausted : Bool := false
  deriving DecidableEq, Repr

/-- An outgoing migration (R361, R363 to R366). -/
structure MigOut where
  id : Nat
  gid : Nat
  dest : Nat
  s : Nat
  nshadow : Nat
  /-- MIG_STAT.STATE: 1 offered, 2 snapshot, 3 shadow, 4 committing, 5 aborting. -/
  state : Nat
  accepted : Option (Nat × Nat) := none
  own : List (Nat × List Byte) := []
  theirs : List (Nat × List Byte) := []
  acked : Bool := false
  /-- The code that a failure sent with ABORT, and sends again (R366). -/
  code : Nat := 0
  deriving DecidableEq, Repr

/-- An incoming migration (R362 to R366). -/
structure MigIn where
  id : Nat
  gid : Nat
  src : Nat
  s : Nat
  nshadow : Nat
  core : Nat
  collar : Nat
  /-- ACPT_STAT.STATE: 1 shadow armed, 2 loaded, 3 owner. -/
  state : Nat
  landed : List (Nat × Nat) := []
  /-- Snapshot bytes that SNAP_DONE has stated. -/
  size : Option Nat := none
  committed : Bool := false
  /-- Deadline of the handover frame, once it has committed without a COMMIT. -/
  due : Option Nat := none
  released : Bool := false
  deriving DecidableEq, Repr

/-- A frame in a transmit queue: destination member and the frame's bytes (R351, R398). -/
structure TxFrame where
  dest : Nat
  bytes : List Byte
  deriving DecidableEq, Repr

/-- The peer port and the migration registers (R367). -/
structure Peer where
  self : Word := 0
  hb : Word := 0x000400B7#32
  rate : Word := 0x00400200#32
  tskew : Word := 0x2710#32
  rxBad : Nat := 0
  rxUnknown : Nat := 0
  parts : Sparse Partner := []
  keys : Sparse (BitVec 256) := []
  migGid : Word := 0
  migCfg : Word := 0
  migLead : Word := 0
  migStat : Word := 0
  migFrame : Word := 0
  acptGid : Word := 0
  acptArmLo : Word := 0
  acptArmHi : Word := 0
  acptStat : Word := 0
  out : Option MigOut := none
  inc : Option MigIn := none
  lastMigId : Nat := 0
  urgent : List TxFrame := []
  ordered : List TxFrame := []
  deriving DecidableEq, Repr

/-- A DMA channel (R223 to R226, R230). -/
structure DmaChan where
  src : DWord := 0
  dst : DWord := 0
  len : Word := 0
  arm : Bool := false
  smode : Bool := false
  dmode : Bool := false
  ien : Bool := true
  ctx : BitVec 16 := 0
  code : Nat := 0
  residue : Word := 0
  actSrc : DWord := 0
  actDst : DWord := 0
  actLen : Word := 0
  actSmode : Bool := false
  actDmode : Bool := false
  actCtx : BitVec 16 := 0
  running : Bool := false
  aborting : Bool := false
  /-- FCLK at which the burst in flight was issued. -/
  issued : Nat := 0
  deriving DecidableEq, Repr

/-- A persist entry in force for an armed member (R333), with the state of its journaling. -/
structure Persist where
  pid : Nat
  cadence : Nat
  replay : Bool
  layout : Nat
  stage : Nat
  len : Nat
  gid : Nat
  member : Nat
  since : Nat := 0
  want : Bool := false
  /-- Frame number of the newest committed state, and whether it is newer than the newest durable record. -/
  frame : Nat := 0
  dirty : Bool := false
  half : Nat := 0
  /-- Frame of the newest record made durable since the member was armed (R338). -/
  kept : Option Nat := none
  deriving DecidableEq, Repr

/-- What the scan and the writer know of a persistent identity (R339, R341). -/
structure PidInfo where
  live : Option Nat := none
  backup : Option Nat := none
  seq : Nat := 0
  frame : Nat := 0
  layout : Nat := 0
  len : Nat := 0
  deriving DecidableEq, Repr

/-- A good snapshot in a staging area (R338). -/
structure Snap where
  frame : Nat
  payload : List Byte
  half : Nat
  deriving DecidableEq, Repr

/-- A record write whose header is issued and not yet acknowledged (R337). -/
structure RecWrite where
  stream : Nat
  pid : Nat
  slot : Nat
  seq : Nat
  frame : Nat
  layout : Nat
  header : List Byte
  payload : List Byte
  /-- The half of the staging area that the write reads (R338). -/
  half : Nat
  deriving DecidableEq, Repr

/-- Kennel (R331 to R348). -/
structure Kennel where
  win : Nat := 0
  geom : Word := 0
  fid : DWord := 0
  pt : Nat := 0
  en : Bool := false
  verify : Bool := true
  wminor : Nat := 0
  active : Bool := false
  scanning : Bool := false
  pfDone : Bool := false
  busy : Bool := false
  dirtyLim : Word := 0xFFFFFFFF#32
  wearLim : Nat := 0x186A0
  rotDelta : Nat := 0x400
  lastErr : Word := 0
  /-- Wear counts and retired slots. -/
  wear : Sparse Nat := []
  retired : List Nat := []
  /-- Counts as the wear table in the window holds them. -/
  written : Sparse Nat := []
  changed : List Nat := []
  pids : Sparse PidInfo := []
  foreign : List Nat := []
  persist : Sparse Persist := []
  snaps : Sparse Snap := []
  writing : Option RecWrite := none
  finals : Bool := false
  deriving DecidableEq, Repr

/-- A trace record (R405). -/
structure TraceRec where
  type : Nat
  stamp : Nat
  core : Nat
  id : Nat
  frame : Nat
  detail : Nat
  deriving DecidableEq, Repr

/-- The telemetry counters and their latched copy (R436). -/
structure Tele where
  frames : Word := 0
  restarts : Word := 0
  fallbacks : Word := 0
  misses : Word := 0
  ceTotal : Word := 0
  ueTotal : Word := 0
  beCclk : Nat := 0
  dlCclk : Nat := 0
  latch : List Word := []
  deriving DecidableEq, Repr

/-- Sheepdog's registers (R265, R313, R346, R430). -/
structure Sheepdog where
  rom : Bool := true
  restart : Bool := false
  markStream : Nat := 0
  markLo : Word := 0
  markStat : Word := 0
  recLo : Word := 0
  recHi : Word := 0
  ringStat : Word := 0
  ringSel : Nat := 0
  objLo : Word := 0
  objHi : Word := 0
  fenceLo : Word := 0
  fenceHi : Word := 0
  objNotify : Word := 0
  dbRej : Word := 0
  fenceLog : Word := 0
  fltLim : Nat := 4
  /-- Engine references per object: (object, generation) with their count (R303). -/
  refs : List (Nat × Nat) := []
  /-- Objects whose ENG_REF reached 0 and whose HOST_REF is to be read (R304). -/
  freed : List Nat := []
  deriving DecidableEq, Repr

/-- Boot registers and stage (R406 to R422). -/
structure Boot where
  stage : Stage := .rom
  por : Bool := false
  eng : Bool := false
  code : Nat := 0
  attempts : Nat := 0
  earlyAt : Nat := 0
  fullAt : Nat := 0
  loadHeld : Bool := false
  fwLo : Word := 0
  fwHi : Word := 0
  deriving DecidableEq, Repr

/-- The GLB page (R228, R403, R430). -/
structure Glb where
  pllLock : Bool := false
  pf : Bool := false
  rmapLo : Word := 0
  rmapHi : Word := 0
  rmapEn : Bool := false
  cfgErr : Word := 0
  cfgErrAddr : Word := 0
  ringPend : BitVec 16 := 0
  irqMap : Sparse Word := []
  msiLo : Sparse Word := []
  msiHi : Sparse Word := []
  msiData : Sparse Word := []
  deriving DecidableEq, Repr

/-- The POWER page (R434, R400). -/
structure Power where
  limit : Word := 0xEA60#32
  dlPower : Nat := 0
  grant : Nat := 0
  throttle : Word := 0
  slowed : Bool := false
  pdtReq : Bool := false
  pdtAck : Bool := false
  /-- AGE_CORE and AGE_COUNT while AGE_VALID is 1, for one FCLK after an aging sample (R330, R399). -/
  ageOut : Option (Nat × BitVec 16) := none
  deriving DecidableEq, Repr

/-- The test access port (R404): instruction register and the last captured data register. -/
structure Tap where
  ir : BitVec 8 := 2
  dr : BitVec 64 := 0
  deriving DecidableEq, Repr

/-- The state of the block. -/
structure State where
  conf : Conf
  fuse : Config.Fuses
  /-- Engine FCLK count since T0 (R436). -/
  fclk : Nat
  boot : Boot
  glb : Glb
  sd : Sheepdog
  power : Power
  mport : MPort
  tport : TPort
  aport : APort
  peer : Peer
  dma : Sparse DmaChan
  /-- Armed channels in the order in which they were armed (R224). -/
  dmaQueue : List Nat
  tbs : Sparse TBase
  /-- Last rising edge on each tick line, in FCLK (R232). -/
  tickEdge : Sparse (Nat × Bool)
  packs : Sparse Pack
  cores : Sparse Core
  tele : Tele
  kennel : Kennel
  traceEn : BitVec 16
  traceLost : Word
  /-- Records dropped since the last TYPE 0x0F record. -/
  traceGap : Nat
  trace : List TraceRec
  obsSel : Word
  tap : Tap
  hdrs : Sparse Hdr
  irq : BitVec 16
  cfgResp : Nat × Word
  /-- CFG_RID of the response (R371). -/
  cfgRid : BitVec 4
  rings : Sparse Ring
  jobs : Sparse Job
  fences : Sparse Fence
  groups : Sparse Group
  leash : Sparse Leash
  hqs : Sparse HQueue
  rwrites : List RemoteWrite
  racks : List RemoteAck
  host : Mem
  /-- Ranges of host memory whose content the spec leaves open: start, length, free-value index. -/
  hostOpen : List (Nat × Nat × Nat)
  /-- The model's own counter of free values; no statement rests on its value. -/
  fresh : Nat
  pending : List Instr
  deriving DecidableEq, Repr

/-- Faults of the machine: the block has none, since the spec answers every error with a status, an event or a record
(R16, R191, R295, R315); a closed type without a case says that no step can fault. Safe. -/
inductive Fault where
  deriving DecidableEq, Repr

/-- Refusals of the model. -/
inductive Refusal where
  /-- A command that has no meaning in the model, raised by its arm of the dispatch; safe: no claim is made of it. -/
  | notModelled (mnemonic : String)
  deriving DecidableEq, Repr

/-- The state right after reset is released and synchronised at T0 (R406): everything at its stated reset value,
host memory with nothing listed, and no command waiting. -/
def State.reset : State where
  conf := .raique32
  fuse := Config.fuses
  fclk := 0
  boot := {}
  glb := {}
  sd := {}
  power := {}
  mport := {}
  tport := {}
  aport := {}
  peer := {}
  dma := []
  dmaQueue := []
  tbs := []
  tickEdge := []
  packs := []
  cores := []
  tele := {}
  kennel := {}
  traceEn := 0
  traceLost := 0
  traceGap := 0
  trace := []
  obsSel := 0
  tap := {}
  hdrs := []
  irq := 0
  cfgResp := (0, 0)
  cfgRid := 0
  rings := []
  jobs := []
  fences := []
  groups := []
  leash := []
  hqs := []
  rwrites := []
  racks := []
  host := []
  hostOpen := []
  fresh := 0
  pending := []

end Sys2Proof.Machine
end

