-- ==== Sys2Proof/Machine/Ops.lean ====
section
/-! DEFINITION. The named operations that every meaning is made of: accessors of the parts of the state, host memory,
events and interrupt lines, trace records, the config port's access rules, and the passing of idle time. -/

namespace Sys2Proof.Machine

/-! ## Bits -/

/-- Bits [hi:lo] of a bit vector as a number (R4). -/
def wbits {n : Nat} (w : BitVec n) (hi lo : Nat) : Nat := (w.toNat >>> lo) % 2 ^ (hi + 1 - lo)

/-- A word from a number. -/
def word (n : Nat) : Word := BitVec.ofNat 32 n

/-- A doubleword from a number. -/
def dword (n : Nat) : DWord := BitVec.ofNat 64 n

/-- A flag as a number. -/
def b2n (b : Bool) : Nat := if b then 1 else 0

/-- Adds to a counter that saturates at `top`. -/
def satAdd (top a n : Nat) : Nat := min top (a + n)

/-- Adds to a saturating 32-bit counter. -/
def satWord (w : Word) (n : Nat) : Word := word (satAdd 0xFFFFFFFF w.toNat n)

/-- Rounds a quotient up. -/
def ceilDiv (a b : Nat) : Nat := (a + b - 1) / b

/-- Little-endian bytes of a number (R5). -/
def toBytes (n v : Nat) : List Byte := (leBytes n v).map (BitVec.ofNat 8 ·)

/-- The number that little-endian bytes hold (R5). -/
def ofBytes (bs : List Byte) : Nat := leNat (bs.map BitVec.toNat)

/-- The little-endian field of `n` bytes at offset `off` of a record. -/
def fieldAt (bs : List Byte) (off n : Nat) : Nat := ofBytes ((bs.drop off).take n)

/-- The `n` numbers that `f` gives on 0 to n - 1. -/
def tab {α : Type} (n : Nat) (f : Nat → α) : List α := (List.range n).map f

/-! ## Parts of the state -/

/-- A core; a core whose registers nothing has changed stands at its reset values, AGE.WARN from the fuse (R438). -/
def State.core (s : State) (c : Nat) : Core := Sparse.get { ageWarn := s.fuse.ageWarn } s.cores c

/-- Stores a core. -/
def State.setCore (s : State) (c : Nat) (k : Core) : State := { s with cores := s.cores.put c k }

/-- Rewrites a core. -/
def State.updCore (s : State) (c : Nat) (f : Core → Core) : State := s.setCore c (f (s.core c))

/-- A pack. -/
def State.pack (s : State) (p : Nat) : Pack := Sparse.get {} s.packs p

/-- Rewrites a pack. -/
def State.updPack (s : State) (p : Nat) (f : Pack → Pack) : State := { s with packs := s.packs.put p (f (s.pack p)) }

/-- A ring. -/
def State.ring (s : State) (r : Nat) : Ring := Sparse.get {} s.rings r

/-- Rewrites a ring. -/
def State.updRing (s : State) (r : Nat) (f : Ring → Ring) : State := { s with rings := s.rings.put r (f (s.ring r)) }

/-- A time base. -/
def State.tb (s : State) (t : Nat) : TBase := Sparse.get {} s.tbs t

/-- Rewrites a time base. -/
def State.updTb (s : State) (t : Nat) (f : TBase → TBase) : State := { s with tbs := s.tbs.put t (f (s.tb t)) }

/-- An admitted group, if the number names one. -/
def State.group? (s : State) (g : Nat) : Option Group := (s.groups.find? (·.1 == g)).map (·.2)

/-- Stores a group. -/
def State.setGroup (s : State) (g : Nat) (x : Group) : State := { s with groups := s.groups.put g x }

/-- Rewrites a group that exists. -/
def State.updGroup (s : State) (g : Nat) (f : Group → Group) : State :=
  match s.group? g with
  | some x => s.setGroup g (f x)
  | none => s

/-- The job at the head of a ring, if one is accepted. -/
def State.job? (s : State) (r : Nat) : Option Job := (s.jobs.find? (·.1 == r)).map (·.2)

/-- Rewrites the job of a ring. -/
def State.updJob (s : State) (r : Nat) (f : Job → Job) : State :=
  match s.job? r with
  | some j => { s with jobs := s.jobs.put r (f j) }
  | none => s

/-- A handle queue. -/
def State.hq (s : State) (q : Nat) : HQueue := Sparse.get {} s.hqs q

/-- Rewrites a handle queue. -/
def State.updHq (s : State) (q : Nat) (f : HQueue → HQueue) : State := { s with hqs := s.hqs.put q (f (s.hq q)) }

/-- A DMA channel. -/
def State.chan (s : State) (c : Nat) : DmaChan := Sparse.get {} s.dma c

/-- Rewrites a DMA channel. -/
def State.updChan (s : State) (c : Nat) (f : DmaChan → DmaChan) : State := { s with dma := s.dma.put c (f (s.chan c)) }

/-- A partner of the peer port. -/
def State.partner (s : State) (m : Nat) : Partner := Sparse.get {} s.peer.parts m

/-- Rewrites a partner. -/
def State.updPartner (s : State) (m : Nat) (f : Partner → Partner) : State :=
  { s with peer := { s.peer with parts := s.peer.parts.put m (f (s.partner m)) } }

/-- The Leash record of a stream (R264). -/
def State.leashOf (s : State) (st : Nat) : Leash := Sparse.get {} s.leash st

/-- Rewrites a Leash record. -/
def State.updLeash (s : State) (st : Nat) (f : Leash → Leash) : State :=
  { s with leash := s.leash.put st (f (s.leashOf st)) }

/-- A Retriever of a core. -/
def Core.rtv (k : Core) (r : Nat) : Rtv := Sparse.get {} k.rtvs r

/-- Rewrites a Retriever. -/
def Core.updRtv (k : Core) (r : Nat) (f : Rtv → Rtv) : Core := { k with rtvs := k.rtvs.put r (f (k.rtv r)) }

/-- An array of a core. -/
def Core.mxa (k : Core) (a : Nat) : Mxa := Sparse.get {} k.mxas a

/-- Rewrites an array. -/
def Core.updMxa (k : Core) (a : Nat) (f : Mxa → Mxa) : Core := { k with mxas := k.mxas.put a (f (k.mxa a)) }

/-- An FX slot; a slot that nothing has loaded holds its reset content (R113, R121). -/
def Core.fxSlot (k : Core) (i : Nat) : FxSlot :=
  Sparse.get { content := publishedSlot i, rom := decide (i < 5) } k.fx i

/-- Lines with a lane word in error. -/
def Core.badLines (k : Core) : List Nat := (k.bad.map (· / 16)).eraseDups

/-- Every lane word of a line holds an uncorrectable error. -/
def Core.spoil (k : Core) (line : Nat) : Core :=
  { k with bad := (tab 16 fun i => 16 * line + i) ++ k.bad.filter fun w => w / 16 != line }

/-- After the writes of a step, lane words that it has written whole hold fresh check bits (R198, R321). -/
def Core.refresh (k : Core) : Core :=
  { k with wlog := []
           bad := k.bad.filter fun w => !(k.wlog.contains (4 * w) && k.wlog.contains (4 * w + 1) && k.wlog.contains (4 * w + 2)
             && k.wlog.contains (4 * w + 3)) }

/-- The pack of a core (R18). -/
def packOf (c : Nat) : Nat := c / 4

/-- The stage is EARLY or later (R409). -/
def State.early (s : State) : Bool := s.boot.stage != .rom

/-- The stage is FULL (R409). -/
def State.full (s : State) : Bool := s.boot.stage == .full

/-- A core exists, its power domain is acknowledged on and its clock is enabled (R370, R430 ON). -/
def State.coreOn (s : State) (c : Nat) : Bool := decide (c < s.conf.cores) && (s.core c).pdAck && (s.core c).cclk

/-- A pack exists, its power domain is acknowledged on, and its clocks run: they stop before its REQ falls (R400, R430 ON). -/
def State.packOn (s : State) (p : Nat) : Bool := decide (p < s.conf.packs) && (s.pack p).pdAck && (s.pack p).pdReq

/-- Both resets are released, so the engine runs (R406, R407). -/
def State.running (s : State) : Bool := !s.boot.por && !s.boot.eng

/-! ## Byte memories -/

/-- The canonical form of a byte memory: addresses strictly rising, no byte equal to the zero an unlisted address
reads as. -/
def Memory.wf (m : Mem) : Bool := Sparse.wf (0 : Byte) m

/-- Reads one byte. -/
def Mem.byte (m : Mem) (a : Nat) : Byte := Sparse.get 0 m a

/-- Writes one byte. -/
def Mem.setByte (m : Mem) (a : Nat) (b : Byte) : Mem := Sparse.set 0 m a b

/-- Reads `n` bytes from `a` on. -/
def Mem.read (m : Mem) (a n : Nat) : List Byte := tab n fun i => m.byte (a + i)

/-- Writes bytes from `a` on. -/
def Mem.write (m : Mem) : Nat → List Byte → Mem
  | _, [] => m
  | a, b :: bs => Mem.write (m.setByte a b) (a + 1) bs

/-! ## Host memory -/

/-- Addresses of the memory port are 48 bits long (R375). -/
def hostAddr (a : Nat) : Nat := a % 2 ^ 48

/-- Bytes from `st` up to `a`, over the end of the address space. -/
def hostDist (st a : Nat) : Nat := (a + 2 ^ 48 - st % 2 ^ 48) % 2 ^ 48

/-- The free-value index of an address whose content the spec leaves open; the newest range counts. -/
def State.openAt (s : State) (a : Nat) : Option Nat :=
  (s.hostOpen.find? fun r => decide (hostDist r.1 a < r.2.1)).map (·.2.2)

/-- Reads a byte of host memory; a byte the spec leaves open reads as a free value. -/
def State.hostByte (s : State) (a : Nat) : Byte :=
  match s.openAt (hostAddr a) with
  | some i => Config.freeByte i (hostAddr a)
  | none => s.host.byte (hostAddr a)

/-- Reads `n` bytes of host memory. -/
def State.hostRead (s : State) (a n : Nat) : List Byte := tab n fun i => s.hostByte (a + i)

/-- Reads a little-endian number of host memory. -/
def State.hostNat (s : State) (a n : Nat) : Nat := ofBytes (s.hostRead a n)

/-- The open ranges less one byte. -/
def openDrop (a : Nat) : List (Nat × Nat × Nat) → List (Nat × Nat × Nat)
  | [] => []
  | (st, len, i) :: rest =>
    let d := hostDist st a
    let n := min len (2 ^ 48)
    if d < n then
      (if d = 0 then [] else [(st, d, i)]) ++ (if d + 1 = n then [] else [(hostAddr (a + 1), n - d - 1, i)])
        ++ openDrop a rest
    else (st, len, i) :: openDrop a rest

/-- Writes one byte of host memory; the byte is no longer open. -/
def State.hostSet (s : State) (a : Nat) (b : Byte) : State :=
  { s with host := s.host.setByte (hostAddr a) b,
           hostOpen := openDrop (hostAddr a) s.hostOpen }

/-- Writes bytes of host memory. -/
def State.hostWrite (s : State) : Nat → List Byte → State
  | _, [] => s
  | a, b :: bs => (s.hostSet a b).hostWrite (a + 1) bs

/-- Writes bytes of host memory where their enable is 1. -/
def State.hostWriteEn (s : State) : Nat → List (Byte × Bool) → State
  | _, [] => s
  | a, (b, en) :: bs => (if en then s.hostSet a b else s).hostWriteEn (a + 1) bs

/-- Writes a little-endian number of host memory. -/
def State.hostPut (s : State) (a n v : Nat) : State := s.hostWrite a (toBytes n v)

/-- Leaves `n` bytes of host memory open: a write that completed as an error (R379), or content whose layout belongs
to the engine (R256). -/
def State.hostOpenRange (s : State) (a n : Nat) : State :=
  { s with host := s.host.filter fun e => !decide (hostDist (hostAddr a) e.1 < n)
           hostOpen := (hostAddr a, n, s.fresh) :: s.hostOpen, fresh := s.fresh + 1 }

/-- A write whose reply code is known: it lands, or leaves its bytes open (R378, R379). -/
def State.hostWriteCode (s : State) (mem : MemCode) (a : Nat) (bs : List Byte) : State :=
  if mem = .ok then s.hostWrite a bs else s.hostOpenRange a bs.length

/-! ## Pages and events -/

/-- Page indices (R401). -/
def pgGlb : Nat := 0
/-- SHEEPDOG. -/
def pgSheepdog : Nat := 1
/-- POWER. -/
def pgPower : Nat := 2
/-- MPORT. -/
def pgMport : Nat := 3
/-- TPORT. -/
def pgTport : Nat := 4
/-- APORT. -/
def pgAport : Nat := 5
/-- PEER. -/
def pgPeer : Nat := 6
/-- DMA. -/
def pgDma : Nat := 7
/-- TBASE_t. -/
def pgTbase (t : Nat) : Nat := 8 + t
/-- PACK_p. -/
def pgPack (p : Nat) : Nat := 16 + p
/-- CORE_nn. -/
def pgCore (c : Nat) : Nat := 24 + c
/-- TELEMETRY. -/
def pgTele : Nat := 56
/-- KENNEL. -/
def pgKennel : Nat := 57
/-- DEBUG. -/
def pgDebug : Nat := 58
/-- FUSE has a header but no interrupt index; the model numbers its header 59. -/
def pgFuse : Nat := 59

/-- How many events a page has; the bits above are reserved (R237, R347, R367, R380, R389, R396, R431, R437). -/
def pageEvents (p : Nat) : Nat :=
  if p = 0 then 4 else if p = 1 then 4 else if p = 2 then 2 else if p = 3 then 2 else if p = 4 then 5
  else if p = 5 then 5 else if p = 6 then 9 else if p = 7 then 16 else if p < 16 then 5 else if p < 24 then 6
  else if p < 56 then 14 else if p = 57 then 6 else if p = 58 then 1 else 0

/-- The event bits of a page that are not reserved. -/
def pageEvMask (p : Nat) : Word := word (2 ^ pageEvents p - 1)

/-- Informational events (R431, R432), by page and bit. -/
def pageInfo (p : Nat) : List Nat :=
  if p = 0 then [1, 2] else if p = 1 then [3] else if p = 2 then [1] else if p = 6 then [0, 6]
  else if p = 7 then List.range 16 else if 16 ≤ p ∧ p < 24 then [0, 2] else if 24 ≤ p ∧ p < 56 then [6, 7, 11, 12, 13]
  else if p = 57 then [0, 5] else if p = 58 then [0] else []

/-- Is the event an error event (R426, R431, R432)? -/
def isErrEvent (p bit : Nat) : Bool := !(pageInfo p).contains bit

/-- A page's event registers. -/
def State.hdr (s : State) (p : Nat) : Hdr := Sparse.get {} s.hdrs p

/-- Rewrites a page's event registers. -/
def State.updHdr (s : State) (p : Nat) (f : Hdr → Hdr) : State := { s with hdrs := s.hdrs.put p (f (s.hdr p)) }

/-- FIRST_ERR takes an event: VALID, its bit and bits [35:10] of the FCLK count (R424, R426). -/
def Hdr.fillFirst (h : Hdr) (fclk bit : Nat) : Hdr :=
  if h.first.getLsbD 0 then h
  else { h with first := word (1 + bit * 2 + (fclk / 1024 % 2 ^ 26) * 64) }

/-- Raises event `bit` of page `p`, filling FIRST_ERR when `err` says so (R425, R426). -/
def State.raiseAs (s : State) (p bit : Nat) (err : Bool) : State :=
  s.updHdr p fun h =>
    let h := { h with raw := h.raw ||| word (2 ^ bit) }
    if err then h.fillFirst s.fclk bit else h

/-- Raises event `bit` of page `p`. -/
def State.raise (s : State) (p bit : Nat) : State := s.raiseAs p bit (isErrEvent p bit)

/-- Raises an event when a condition holds. -/
def State.raiseIf (s : State) (c : Bool) (p bit : Nat) : State := if c then s.raise p bit else s

/-! ## Interrupt lines (R401, R402) -/

/-- The line that page index `p` maps to (R403). -/
def State.irqLineOf (s : State) (p : Nat) : Nat := wbits (Sparse.get (0 : Word) s.glb.irqMap (p / 8)) (4 * (p % 8) + 3) (4 * (p % 8))

/-- The DMA events of channels whose IEN is 0 do not reach the line (R401). -/
def State.dmaIenMask (s : State) : Word :=
  word ((List.range 8).foldl (fun acc c => if (s.chan c).ien then acc + 257 * 2 ^ c else acc) 0)

/-- Does a page request its line? -/
def State.pageRequests (s : State) (p : Nat) (h : Hdr) : Bool :=
  let v := h.raw &&& ~~~h.mask
  (if p = pgDma then v &&& s.dmaIenMask else v) != 0

/-- The levels of IRQ[15:0] (R401). -/
def State.irqLevels (s : State) : BitVec 16 :=
  s.hdrs.foldl (fun acc e =>
    if decide (e.1 < 59) && s.pageRequests e.1 e.2 then acc ||| BitVec.ofNat 16 (2 ^ s.irqLineOf e.1) else acc)
    s.glb.ringPend

/-- The message write of a line that rises (R402). -/
def State.msi (s : State) (l : Nat) : State :=
  let hi := Sparse.get (0 : Word) s.glb.msiHi l
  if hi.getLsbD 31 then
    s.hostPut ((Sparse.get (0 : Word) s.glb.msiLo l).toNat + wbits hi 15 0 * 2 ^ 32) 4
      (Sparse.get (0 : Word) s.glb.msiData l).toNat
  else s

/-- Brings the lines to the levels that R401 gives and sends the messages of the lines that rise. -/
def State.settle (s : State) : State :=
  let now := s.irqLevels
  let s' := (List.range 16).foldl (fun t l => if now.getLsbD l && !s.irq.getLsbD l then t.msi l else t) s
  { s' with irq := now }

/-- The outcome of every meaning: the state with its interrupt lines settled. -/
def done (s : State) : Host.Outcome State Fault Refusal := .next s.settle

/-! ## Trace (R405) -/

/-- Queues a trace record of a type from 1 to 8 that TRACE_EN enables; a full buffer drops it. -/
def State.traceRec (s : State) (type core id frame detail : Nat) : State :=
  if s.traceEn.getLsbD type then
    if s.trace.length < 256 then
      { s with trace := s.trace ++ [⟨type, s.fclk % 2 ^ 48, core, id % 4096, frame % 2 ^ 32, detail⟩] }
    else
      ({ s with traceLost := satWord s.traceLost 1, traceGap := s.traceGap + 1 }).raise pgDebug 0
  else s

/-- The 16 bytes of a trace record (R405). -/
def TraceRec.bytes (r : TraceRec) : List Byte :=
  let b := toBytes 1 r.type ++ toBytes 6 r.stamp ++ toBytes 1 r.core ++ toBytes 2 r.id ++ toBytes 4 r.frame
    ++ toBytes 1 r.detail
  b ++ [b.foldl (· ^^^ ·) 0]

/-! ## Config port (R371 to R374) -/

/-- The pages of R427. -/
inductive PageKind where
  | glb | sheepdog | power | mport | tport | aport | peer | dma | tele | kennel | debug | fuse | absent
  | tbase (t : Nat)
  | pack (p : Nat)
  | core (c : Nat)
  | doorbell
  deriving DecidableEq, Repr

/-- The page of an address (R427). -/
def pageKind (a : Nat) : PageKind :=
  let n := a / 0x1000
  if n < 8 then
    match n with
    | 0 => .glb | 1 => .sheepdog | 2 => .power | 3 => .mport | 4 => .tport | 5 => .aport | 6 => .peer | _ => .dma
  else if n < 16 then .tbase (n - 8)
  else if n < 24 then .pack (n - 16)
  else if 32 ≤ n ∧ n < 64 then .core (n - 32)
  else if 64 ≤ n ∧ n < 72 then .doorbell
  else if n = 72 then .tele else if n = 73 then .kennel else if n = 74 then .debug else if n = 75 then .fuse
  else .absent

/-- Page index of a page with a header (R401). -/
def PageKind.index : PageKind → Nat
  | .glb => 0 | .sheepdog => 1 | .power => 2 | .mport => 3 | .tport => 4 | .aport => 5 | .peer => 6 | .dma => 7
  | .tbase t => 8 + t | .pack p => 16 + p | .core c => 24 + c | .tele => 56 | .kennel => 57 | .debug => 58
  | .fuse => 59 | .absent => 63 | .doorbell => 63

/-- Does the page act? Before EARLY only GLB and FUSE act; packs and cores only while powered (R411, R428). -/
def State.pageActs (s : State) (k : PageKind) : Bool :=
  match k with
  | .absent => false
  | .glb => true
  | .fuse => true
  | .pack p => s.early && s.packOn p
  | .core c => s.early && s.coreOn c
  | _ => s.early

/-- The registers of the common header (R423). -/
def headerReg (o : Nat) : Bool := decide (o ≤ 0x14) || (decide (0x20 ≤ o) && decide (o ≤ 0x30))

/-- Does the word at offset `o` of a page hold a register? Everything else is reserved (R11). -/
def pageReg (k : PageKind) (o : Nat) : Bool :=
  let within (a b : Nat) : Bool := decide (a ≤ o) && decide (o ≤ b)
  match k with
  | .glb => headerReg o || within 0x40 0x44 || within 0x50 0x58 || within 0x60 0x7C || within 0x80 0x94
      || within 0x100 0x11C || (within 0x180 0x27C && decide (o % 16 ≠ 12)) || within 0x300 0x3FC
  | .sheepdog => headerReg o || within 0x40 0x4C || within 0x80 0xB4
  | .power => headerReg o || within 0x40 0x5C
  | .mport => headerReg o || within 0x40 0x5C
  | .tport => headerReg o || within 0x40 0x4C || within 0x100 0x1FC
  | .aport => headerReg o || within 0x40 0x54 || (within 0x100 0x2FC && decide (o % 16 ≠ 12))
  | .peer => headerReg o || within 0x40 0x50 || within 0x100 0x3FC || within 0x400 0x424
  | .dma => headerReg o || (within 0x100 0x2FC && decide (o % 0x40 ≤ 0x34))
  | .tele => headerReg o || within 0x40 0x64
  | .kennel => headerReg o || within 0x40 0x7C
  | .debug => headerReg o || within 0x40 0x4C
  | .fuse => headerReg o || within 0x40 0x4C || within 0x80 0xAC || within 0x100 0x17C
  | .tbase _ => headerReg o || within 0x40 0x5C
  | .pack _ => headerReg o || within 0x40 0x54 || within 0x60 0x74 || within 0x80 0x84 || within 0xA0 0xBC
  | .core _ => headerReg o || within 0x40 0x50 || within 0x58 0x84 || within 0x90 0xB8 || within 0xC0 0xFC
      || within 0x100 0xE3C
  | .doorbell => true
  | .absent => false

/-- The PEER key slots (R355). -/
def isKeySlot (a : Nat) : Bool := decide (0x6200 ≤ a) && decide (a < 0x6400)

/-- Does R373 let the initiator write the address? Doorbells decide for themselves (R284). -/
def writeAllowed (a : Nat) (acc : Acc) : Bool :=
  match pageKind a with
  | .doorbell => true
  | _ => if isKeySlot a then acc.sec else acc.priv

/-- Does R373 let the initiator read the address? -/
def readAllowed (a : Nat) (acc : Acc) : Bool :=
  match pageKind a with
  | .debug => acc.priv
  | .fuse => acc.priv
  | _ => true

/-- The response of the config port (R374). -/
def State.respond (s : State) (code : Nat) (data : Word) : State := { s with cfgResp := (code, data) }

/-- The response carries the CFG_AID of its request as CFG_RID (R371). -/
def State.answers (s : State) (acc : Acc) : State := { s with cfgRid := acc.id }

/-- A refusal by R373: CFG_DENIED, and the first one fills CFG_ERR (R374, R403). -/
def State.deny (s : State) (a : Nat) (write : Bool) (acc : Acc) : State :=
  let s := s.raise pgGlb 0
  let s := if s.glb.cfgErr.getLsbD 0 then s
    else { s with glb := { s.glb with
            cfgErr := word (1 + 2 * b2n write + 4 * b2n acc.priv + 8 * b2n acc.sec + acc.ctx.toNat * 65536),
            cfgErrAddr := word (a / 4 * 4) } }
  s.respond 1 0

/-- DEBUG and FUSE are refused as pages, reserved words included (R373). -/
def guardedPage (k : PageKind) : Bool :=
  match k with
  | .debug => true
  | .fuse => true
  | _ => false

/-- A register write under R373, R374 and R411: nothing answers in reset, reserved space answers DONE and does nothing, a refused write answers
DENIED, and any other acts. -/
def State.cfgWrite (s : State) (a : Nat) (acc : Acc) (act : State → State) : State :=
  let k := pageKind a
  if !s.running then s
  else if !s.pageActs k || !(pageReg k (a % 0x1000) || guardedPage k) then (s.answers acc).respond 0 0
  else if writeAllowed a acc then act ((s.answers acc).respond 0 0)
  else (s.answers acc).deny a true acc

end Sys2Proof.Machine
end

