-- ==== Sys2Proof/Machine/Operands.lean ====
section
/-! DEFINITION. Operand forms: handle entries and references (R164, R204), byte access through the layouts of R202,
packed elements (R32), block scales (R48 to R51), the conversion control word and the extension block (R55, R171), and
the fields of the instruction words (R163, R167, R172, R173). -/

namespace Sys2Proof.Machine

/-! ## Handle entries (R204) -/

/-- VALID. -/
def hValid (e : DWord) : Bool := e.getLsbD 0
/-- SMARK. -/
def hSmark (e : DWord) : Bool := e.getLsbD 1
/-- LAYOUT. -/
def hLayout (e : DWord) : Nat := wbits e 3 2
/-- FMT. -/
def hFmt (e : DWord) : Nat := wbits e 7 4
/-- GEN. -/
def hGen (e : DWord) : Nat := wbits e 15 8
/-- CTX. -/
def hCtx (e : DWord) : Nat := wbits e 31 16
/-- BASE. -/
def hBase (e : DWord) : Nat := wbits e 47 32
/-- LEN. -/
def hLen (e : DWord) : Nat := wbits e 63 48
/-- Extent in bytes. -/
def hExt (e : DWord) : Nat := 64 * (hLen e + 1)

/-- Index of a reference (R164). -/
def refIdx (r : Nat) : Nat := r % 256
/-- Generation of a reference (R164). -/
def refGen (r : Nat) : Nat := r / 256 % 256
/-- A reference with index 0 is null (R164). -/
def refNull (r : Nat) : Bool := refIdx r == 0

/-- The committed handle entry that a reference names. -/
def Core.entry (k : Core) (r : Nat) : DWord := Sparse.get 0 k.handles (refIdx r)

/-- Statuses of R192. -/
def stOk : Nat := 0x00
/-- BAD_OPCODE. -/
def stOpcode : Nat := 0x01
/-- BAD_FIELD. -/
def stField : Nat := 0x02
/-- BAD_VERSION. -/
def stVersion : Nat := 0x03
/-- PROG_CRC. -/
def stCrc : Nat := 0x04
/-- BAD_HANDLE. -/
def stHandle : Nat := 0x05
/-- STALE_HANDLE. -/
def stStale : Nat := 0x06
/-- BAD_QUEUE. -/
def stQueue : Nat := 0x07
/-- BAD_FORMAT. -/
def stFormat : Nat := 0x08
/-- BAD_CONVERT. -/
def stConvert : Nat := 0x09
/-- BAD_MODE. -/
def stMode : Nat := 0x0A
/-- INVALID_SHAPE. -/
def stShape : Nat := 0x0B
/-- BAD_CHAIN. -/
def stChain : Nat := 0x0C
/-- BAD_FUNC. -/
def stFunc : Nat := 0x0D
/-- BAD_SLOT. -/
def stSlot : Nat := 0x0E
/-- BOUNDS. -/
def stBounds : Nat := 0x0F
/-- STOCH_STATE. -/
def stStoch : Nat := 0x10
/-- ARRAY_NARROW. -/
def stNarrow : Nat := 0x11
/-- SYNC_TIMEOUT. -/
def stTimeout : Nat := 0x12

/-- Is a non-null reference unusable: entry not valid, or of another context (R164, step 3 of R191)? -/
def Core.refBad (k : Core) (ctx r : Nat) : Bool := !hValid (k.entry r) || hCtx (k.entry r) != ctx

/-- Is a usable reference of an older generation (step 4 of R191)? -/
def Core.refStale (k : Core) (r : Nat) : Bool := hGen (k.entry r) != refGen r

/-- The checks of R164 on a required reference: OK, BAD_HANDLE or STALE_HANDLE. -/
def Core.refCheck (k : Core) (ctx r : Nat) : Nat :=
  if refNull r || k.refBad ctx r then stHandle else if k.refStale r then stStale else stOk

/-! ## Bytes through a layout (R202) -/

/-- The SPD byte that logical byte `x` of a buffer occupies: linear, or the two views of a diagonal buffer. -/
def hPhys (e : DWord) (x : Nat) : Nat :=
  if hLayout e = 1 ∨ hLayout e = 2 then
    let j := x / 2048
    let r := x % 2048 / 64
    let u := x % 64 / 2
    let (row, lane) := if hLayout e = 1 then (r, (u + r) % 32) else (u, (r + u) % 32)
    let bankRow := hBase e / 16 + 32 * (j / 16) + row
    (bankRow * 16 + j % 16) * 64 + lane * 2 + x % 2
  else 64 * hBase e + x

/-- Reads `n` bytes at offset `x` of a buffer. -/
def Core.rd (k : Core) (e : DWord) (x n : Nat) : List Byte := tab n fun i => k.spd.byte (hPhys e (x + i))

/-- Reads a little-endian number. -/
def Core.rdN (k : Core) (e : DWord) (x n : Nat) : Nat := ofBytes (k.rd e x n)

/-- Writes one byte. -/
def Core.wrByte (k : Core) (e : DWord) (x : Nat) (b : Byte) : Core :=
  { k with spd := k.spd.setByte (hPhys e x) b, wlog := hPhys e x :: k.wlog }

/-- Writes bytes at offset `x` of a buffer. -/
def Core.wr (k : Core) (e : DWord) : Nat → List Byte → Core
  | _, [] => k
  | x, b :: bs => (k.wrByte e x b).wr e (x + 1) bs

/-- Writes a little-endian number. -/
def Core.wrN (k : Core) (e : DWord) (x n v : Nat) : Core := k.wr e x (toBytes n v)

/-! ## Packed elements (R32) -/

/-- The code of element `i` of row `r` of a tensor whose rows have `cols` elements. -/
def Core.el (k : Core) (e : DWord) (f : Fmt) (cols r i : Nat) : Nat :=
  let row := r * f.rowBytes cols
  if f = .f4 then nbits (k.rdN e (row + i / 2) 1) (4 * (i % 2)) 4
  else k.rdN e (row + i * (f.bits / 8)) (f.bits / 8)

/-- Writes the code of one element; the unused half of the last byte of an odd F4 row becomes zero. -/
def Core.putEl (k : Core) (e : DWord) (f : Fmt) (cols r i code : Nat) : Core :=
  let row := r * f.rowBytes cols
  if f = .f4 then
    let old := k.rdN e (row + i / 2) 1
    let v := if i % 2 = 1 then old % 16 + 16 * (code % 16)
      else if i + 1 = cols then code % 16 else old / 16 * 16 + code % 16
    k.wrN e (row + i / 2) 1 v
  else k.wrN e (row + i * (f.bits / 8)) (f.bits / 8) code

/-- A PAIR32 element. -/
def Core.elPair (k : Core) (e : DWord) (x : Nat) : Pair32 := ⟨word (k.rdN e x 4), word (k.rdN e (x + 4) 4)⟩

/-- R46: every tensor output writes a negative zero as +0, and R45: every NaN as the canonical one. -/
def outF32 (x : F32) : F32 := if f32IsNan x then f32Nan else if f32IsZero x then 0 else x

/-- A pair as R37, R45 and R46 write it: normalised, with the canonical NaN. -/
def outPair (p : Pair32) : Pair32 :=
  let q := p.norm
  if f32IsFin q.hi then ⟨outF32 q.hi, outF32 q.lo⟩ else ⟨outF32 q.hi, 0⟩

/-- Writes a PAIR32 element. -/
def Core.putPair (k : Core) (e : DWord) (x : Nat) (p : Pair32) : Core :=
  (k.wrN e x 4 (outPair p).hi.toNat).wrN e (x + 4) 4 (outPair p).lo.toNat

/-! ## Stochastic-write mark (R205) -/

/-- Sets or clears SMARK of the entry with index `i`. -/
def Core.setSmark (k : Core) (i : Nat) (b : Bool) : Core :=
  let e := Sparse.get 0 k.handles i
  let e' : DWord := if b then e ||| 2#64 else e &&& ~~~2#64
  { k with handles := k.handles.set 0 i e' }

/-! ## Block scales (R48 to R51) -/

/-- A block-scale description: its buffer, kind, block size and direction. -/
structure Scale where
  e : DWord
  e8m0 : Bool
  size : Nat
  cols : Bool
  deriving DecidableEq, Repr

/-- BSIZE code to elements (R48). -/
def bsizeOf (c : Nat) : Nat := 8 * 2 ^ c

/-- Blocks of a matrix of R rows and C columns (R49). -/
def blockCount (size : Nat) (cols : Bool) (R C : Nat) : Nat :=
  if cols then ceilDiv R size * C else R * ceilDiv C size

/-- Index of the block that holds element (r, c) of matrix `mat` (R49). -/
def blockIdx (size : Nat) (cols : Bool) (R C mat r c : Nat) : Nat :=
  mat * blockCount size cols R C + (if cols then r / size * C + c else r * ceilDiv C size + c / size)

/-- An operand tensor: buffer, format, rows and columns of one matrix, block scales. -/
structure Oper where
  e : DWord
  f : Fmt
  R : Nat
  C : Nat
  sc : Option Scale := none
  deriving DecidableEq, Repr

/-- The scale of an element (R50). -/
def Core.scaleAt (k : Core) (o : Oper) (mat r c : Nat) : Option FV :=
  o.sc.map fun s => scaleValue s.e8m0 (k.rdN s.e (blockIdx s.size s.cols o.R o.C mat r c) 1)

/-- The exact value with which an element enters an array (R40, R51). -/
def Core.fvAt (k : Core) (o : Oper) (mat r c : Nat) : FV :=
  let v := o.f.arrayValue (k.el o.e o.f o.C (mat * o.R + r) c)
  match k.scaleAt o mat r c with
  | none => v
  | some s => if v.isNan || s.isNan then .nan else v.mul s

/-- The FP32 value with which an element enters VX, the reduce unit or CONVERT (R33, R37, R51). -/
def Core.f32At (k : Core) (o : Oper) (mat r c : Nat) : F32 :=
  if o.f = .pair32 then (k.elPair o.e (((mat * o.R + r) * o.C + c) * 8)).toF32
  else
    let code := k.el o.e o.f o.C (mat * o.R + r) c
    match k.scaleAt o mat r c with
    | none => o.f.widen code
    | some s => if (o.f.decode code).isNan || s.isNan then f32Nan else f32Round ((o.f.decode code).mul s)

/-! ## Conversion control word and extension block (R55, R171) -/

/-- Bits of a conversion control word. -/
def ccwFmt (w : Nat) : Nat := nbits w 0 4
/-- ROUND. -/
def ccwRound (w : Nat) : Nat := nbits w 4 2
/-- Does the word select stochastic rounding? -/
def ccwStoch (w : Nat) : Bool := ccwRound w == 1
/-- BSCALE. -/
def ccwBscale (w : Nat) : Nat := nbits w 11 2

/-- The fields of an extension block that instructions use. -/
structure Xb where
  flags : Nat := 0
  s : F32 := f32One
  b : F32 := 0
  lo : F32 := 0
  hi : F32 := 0
  sH : Nat := 0
  bH : Nat := 0
  asc : Nat := 0
  wsc : Nat := 0
  osc : Nat := 0
  spill : Nat := 0
  abs : Nat := 0
  wbs : Nat := 0
  deriving DecidableEq, Repr

/-- Reads an extension block. -/
def Core.readXb (k : Core) (ref : Nat) : Xb :=
  if refNull ref then {}
  else
    let b := k.rd (k.entry ref) 0 64
    let f := fieldAt b
    { flags := f 2 1, s := word (f 4 4), b := word (f 8 4), lo := word (f 12 4), hi := word (f 16 4), sH := f 20 2,
      bH := f 22 2, asc := f 24 2, wsc := f 26 2, osc := f 28 2, spill := f 30 2, abs := f 32 1, wbs := f 33 1 }

/-- The handle references inside an extension block, in ascending byte offset. -/
def Xb.refs (x : Xb) : List Nat := [x.sH, x.bH, x.asc, x.wsc, x.osc, x.spill]

/-- VER 1.0, and reserved bits and bytes zero (R171, R191). -/
def Core.xbFormOk (k : Core) (ref : Nat) : Bool :=
  let b := k.rd (k.entry ref) 0 64
  let f := fieldAt b
  f 0 2 == 0x0100 && f 2 1 / 4 == 0 && f 3 1 == 0 && f 32 1 / 32 == 0 && f 33 1 / 32 == 0
    && (b.drop 34).all (· == 0)

/-- The scales of a first or second operand from its XB byte. -/
def Core.operScale (k : Core) (byte ref : Nat) : Option Scale :=
  if nbits byte 0 2 = 0 then none
  else some ⟨k.entry ref, nbits byte 0 2 == 1, bsizeOf (nbits byte 2 2), nbits byte 4 1 == 1⟩

/-- A conversion as an instruction uses it. -/
structure Conv where
  f : Fmt
  stoch : Bool
  sat : Bool
  keepNz : Bool
  s : Option (Nat → F32)
  b : Option (Nat → F32)
  clip : Option (F32 × F32)
  /-- 0 none, 1 E8M0, 2 E4M3. -/
  bscale : Nat
  bsize : Nat
  bcols : Bool

/-- The conversion of a control word and an extension block (R56, R171). -/
def Core.conv (k : Core) (w : Nat) (x : Xb) : Conv :=
  let vec (h : Nat) (c : Nat) : F32 := word (k.rdN (k.entry h) (4 * c) 4)
  { f := (Fmt.ofCode (ccwFmt w)).getD .fp32
    stoch := ccwStoch w
    sat := nbits w 6 1 == 1
    keepNz := nbits w 7 1 == 1
    s := if nbits w 8 1 = 1 then some (if nbits x.flags 0 1 = 1 then vec x.sH else fun _ => x.s) else none
    b := if nbits w 9 1 = 1 then some (if nbits x.flags 1 1 = 1 then vec x.bH else fun _ => x.b) else none
    clip := if nbits w 10 1 = 1 then some (x.lo, x.hi) else none
    bscale := ccwBscale w
    bsize := bsizeOf (nbits w 13 2)
    bcols := nbits w 15 1 == 1 }

/-- Steps 1 and 2 of R56 for an element of output column `c`. -/
def Conv.y (cv : Conv) (c : Nat) (x : F32) : F32 := convertY (cv.s.map (· c)) (cv.b.map (· c)) cv.clip x

/-- A conversion that only rounds: RNE, SAT = 1, no scale, bias or clip (R145), or an unscaled CCW. -/
def Conv.plain (f : Fmt) (sat : Bool) : Conv := ⟨f, false, sat, false, none, none, none, 0, 8, false⟩

/-- The code of one element from y (steps 3 to 8 of R56); PAIR32 as its two words. -/
def Conv.code (cv : Conv) (rnd : Rnd) (scale : Option FV) (y : F32) : Nat :=
  if cv.f = .pair32 then (outF32 y).toNat else encodeElem cv.f rnd cv.sat cv.keepNz scale y

/-- Writes the code of an element of an output tensor with rows of `cols` elements. -/
def Core.putOut (k : Core) (e : DWord) (f : Fmt) (cols r c code : Nat) : Core :=
  if f = .pair32 then k.putPair e ((r * cols + c) * 8) ⟨word code, 0⟩ else k.putEl e f cols r c code

/-! ## The instruction word (R163) -/

/-- A 32-byte instruction as a number, byte 0 lowest. -/
abbrev IWord := Nat

/-- `n` bytes at byte offset `o`. -/
def IWord.by (w : IWord) (o n : Nat) : Nat := nbits w (8 * o) (8 * n)

/-- OP. -/
def IWord.op (w : IWord) : Nat := nbits w 0 8
/-- HSET. -/
def IWord.hset (w : IWord) : Nat := nbits w 8 2
/-- FUSE. -/
def IWord.fuse (w : IWord) : Bool := nbits w 10 1 == 1
/-- Bits [hi:lo] of word 0. -/
def IWord.w0 (w : IWord) (hi lo : Nat) : Nat := nbits w lo (hi + 1 - lo)
/-- CCW, bytes 24 to 27 wherever a layout has one. -/
def IWord.ccw (w : IWord) : Nat := IWord.by w 24 4

/-- Opcodes of R166. -/
inductive Op where
  | nop | endOp | loadw | matmul | matvec | recur | scan | lconv | gate | func | reduce | convert | move | qpush | qpop
  | wait | signal | branch | summary
  deriving DecidableEq, Repr

/-- R166: every other value is reserved. -/
def Op.ofCode (c : Nat) : Option Op :=
  match c with
  | 0x00 => some .nop | 0x01 => some .endOp | 0x10 => some .loadw | 0x11 => some .matmul | 0x12 => some .matvec
  | 0x20 => some .recur | 0x21 => some .scan | 0x22 => some .lconv | 0x30 => some .gate | 0x31 => some .func
  | 0x32 => some .reduce | 0x33 => some .convert | 0x40 => some .move | 0x41 => some .qpush | 0x42 => some .qpop
  | 0x50 => some .wait | 0x51 => some .signal | 0x52 => some .branch | 0x53 => some .summary
  | _ => none

/-- Opcode of an instruction word. -/
def IWord.opc (w : IWord) : Option Op := Op.ofCode (IWord.op w)

/-- Shape fields by name (R167, R172, R173). -/
def IWord.mRows (w : IWord) : Nat := IWord.by w 12 2
/-- N of LOADW, and of MATMUL and MATVEC. -/
def IWord.nCols (w : IWord) : Nat := IWord.by w 14 2
/-- K of MATMUL and MATVEC. -/
def IWord.kDim (w : IWord) : Nat := IWord.by w 16 2
/-- P of MATMUL and MATVEC. -/
def IWord.spillP (w : IWord) : Nat := nbits w (8 * 18) 12
/-- Low nibble of byte 20. -/
def IWord.afmt (w : IWord) : Nat := nbits w (8 * 20) 4
/-- High nibble of byte 20. -/
def IWord.wfmt (w : IWord) : Nat := nbits w (8 * 20 + 4) 4
/-- PASSES. -/
def IWord.passes (w : IWord) : Nat := IWord.w0 w 12 11
/-- TW of MATVEC. -/
def IWord.tw (w : IWord) : Bool := IWord.w0 w 13 13 == 1
/-- RES of MATVEC. -/
def IWord.res (w : IWord) : Bool := IWord.w0 w 14 14 == 1

/-- Where an instruction holds its XB_H, if its layout has one. -/
def IWord.xbRef (w : IWord) : Nat :=
  match IWord.opc w with
  | some .matmul => IWord.by w 10 2
  | some .matvec => IWord.by w 10 2
  | some .scan => IWord.by w 14 2
  | some .lconv => IWord.by w 14 2
  | some .reduce => IWord.by w 10 2
  | some .convert => IWord.by w 8 2
  | _ => 0

/-- Does the layout give the instruction an XB_H field (R171)? -/
def Op.hasXb : Op → Bool
  | .matmul => true | .matvec => true | .scan => true | .lconv => true | .reduce => true | .convert => true
  | _ => false

/-- Does the layout give the instruction a CCW? -/
def Op.hasCcw : Op → Bool
  | .matmul => true | .matvec => true | .recur => true | .scan => true | .lconv => true | .gate => true
  | .func => true | .convert => true
  | _ => false

/-- Format from a field, FP32 where the code is reserved (validation has refused it). -/
def fmtOr (c : Nat) : Fmt := (Fmt.ofCode c).getD .fp32

/-- K-tile Kt of an operand width and mode (R66). -/
def ktOf (f : Fmt) (quad : Bool) : Nat :=
  let full := match f.arrayWidth with | 16 => 32 | 8 => 64 | 4 => 128 | _ => 32
  if quad then full / 2 else full

end Sys2Proof.Machine
end

