-- ==== Sys2Proof/Machine/Complete.lean ====
section
/-! DEFINITION. What commands and frames leave in host memory (10_host_objects): fence values and their mirrors, head
lines, completion and NOTIFY records, object entries and the references that hold them. -/

namespace Sys2Proof.Machine

/-- A 48-bit address from two register words. -/
def addr48 (lo hi : Word) : Nat := lo.toNat + wbits hi 15 0 * 2 ^ 32

/-! ## Fences (R297 to R300) -/

/-- A fence, if it has been initialised. -/
def State.fence? (s : State) (f : Nat) : Option Fence := (s.fences.find? (·.1 == f)).map (·.2)

/-- Mirrors a fence's value and context to FENCE_BASE + 16f (R297). -/
def State.mirrorFence (s : State) (f : Nat) (x : Fence) : State :=
  s.hostWrite (addr48 s.sd.fenceLo s.sd.fenceHi + 16 * f)
    (toBytes 8 x.value.toNat ++ toBytes 2 x.ctx.toNat ++ toBytes 6 0)

/-- Serial-number comparison: has `v` reached the target `w` (R298)? -/
def fenceReached (v w : DWord) : Bool := decide ((v - w).toNat < 2 ^ 63)

/-- WFENCE.EN of a descriptor (R287). -/
def Desc.waits (d : Desc) : Bool := nbits d.w 47 1 == 1
/-- The fence waited on. -/
def Desc.wfence (d : Desc) : Nat := nbits d.w 32 12
/-- WVAL. -/
def Desc.wval (d : Desc) : DWord := dword (nbits d.w 64 64)
/-- The expiry edge of the wait of a descriptor that is due (R301). -/
def Desc.expiry (d : Desc) : Nat := d.due.getD 0 + 1024 * nbits d.w 192 32

/-- The value of a fence that waits see at an FCLK edge. -/
def Fence.at (x : Fence) (t : Nat) : DWord :=
  (((x.later.filter fun e => decide (e.1 ≤ t)).getLast?).map (·.2)).getD x.seen

/-- Evaluates the wait of a descriptor at the head of its ring at this edge (R301). -/
def State.evalWait (s : State) (d : Desc) : Desc :=
  if d.due.isNone || d.met || d.done.isSome then d
  else if !d.waits then { d with met := true }
  else
    match s.fence? d.wfence with
    | some f =>
      if fenceReached (f.at s.fclk) d.wval && decide (s.fclk ≤ d.expiry) then
        { d with met := true, race := s.fclk == d.expiry }
      else d
    | none => d

/-- Rewrites the head of a ring's queue. -/
def Ring.updHead (r : Ring) (f : Desc → Desc) : Ring :=
  match r.queue with
  | [] => r
  | d :: rest => { r with queue := f d :: rest }

/-- The descriptor at the head of a ring becomes due (R286, R301). -/
def State.headDue (s : State) (r : Nat) : State :=
  s.updRing r fun x => x.updHead fun d => s.evalWait { d with due := some (d.due.getD s.fclk) }

/-- Evaluates the waits of the heads of every ring. -/
def State.evalWaits (s : State) : State :=
  { s with rings := s.rings.map fun (n, x) => (n, x.updHead s.evalWait) }

/-- Sets a fence and mirrors it; waits see its value 2 FCLK later (R301). -/
def State.setFence (s : State) (f : Nat) (x : Fence) : State :=
  let old := (s.fence? f).getD x
  let x := { x with
    seen := old.at s.fclk
    later := (old.later.filter fun e => decide (s.fclk < e.1 ∧ e.1 < s.fclk + 2)) ++ [(s.fclk + 2, x.value)] }
  { s with fences := s.fences.put f x }.mirrorFence f x

/-- A signal of value `x` to a value `v` is ignored (R299). -/
def fenceIgnores (v x : DWord) : Bool := decide (2 ^ 63 ≤ (x - v).toNat)

/-- The value after signals taken in order, and the signals that were ignored. -/
def fenceReplay (v : DWord) (l : List (Nat × DWord)) : DWord × List (Nat × DWord) :=
  l.foldl (fun a e => if fenceIgnores a.1 e.2 then (a.1, a.2 ++ [e]) else (e.2, a.2)) (v, [])

/-- FENCE_REGRESS and FENCE_LOG for an ignored signal. -/
def State.fenceRegress (s : State) (f src : Nat) : State :=
  let s := s.raise pgSheepdog 1
  if s.sd.fenceLog.getLsbD 0 then s
  else { s with sd := { s.sd with fenceLog := word (1 + f * 2 + src * 2 ^ 13) } }

/-- A signal of value `x` from source `src` (a ring, or 4,096 for a frame): the state, and whether the signal was ignored as a regress
(R299). The signals of one cycle take effect in the order of their sources, whatever the order of their commands; the fence value is
written for any signal (R294). A fence that does not exist takes no signal. -/
def State.signalFence (s : State) (f : Nat) (x : DWord) (src : Nat) : State × Bool :=
  match s.fence? f with
  | none => (s, false)
  | some fc =>
    let same := fc.edge == s.fclk
    let base := if same then fc.base else fc.value
    let old := if same then fc.sigs else []
    let before := old.filter fun e => decide (e.1 ≤ src)
    let sigs := before ++ (src, x) :: old.filter fun e => decide (src < e.1)
    let r := fenceReplay base sigs
    let s := (((r.2.filter fun e => !(fenceReplay base old).2.contains e).head?).map fun e => s.fenceRegress f e.1).getD s
    let fc' := { fc with value := r.1, edge := s.fclk, base := base, sigs := sigs }
    (if r.1 = fc.value then { s with fences := s.fences.put f fc' }.mirrorFence f fc' else s.setFence f fc',
     fenceIgnores (fenceReplay base before).1 x)

/-! ## Records (R293 to R296) -/

/-- Entries of a ring. -/
def Ring.nent (r : Ring) : Nat := 2 ^ r.log2n

/-- The 64-byte head line (R294). -/
def Ring.headLine (r : Ring) : List Byte :=
  (if r.cls = 3 then toBytes 8 r.produced ++ toBytes 8 (min r.dropped (2 ^ 64 - 1))
   else toBytes 8 r.completed ++ toBytes 8 r.fetched) ++ toBytes 1 r.minor ++ toBytes 1 1 ++ toBytes 46 0

/-- Writes the head line of a ring. -/
def State.writeHead (s : State) (r : Nat) : State := s.hostWrite (s.ring r).cmplBase (s.ring r).headLine

/-- The fields of a 32-byte record (R293). -/
structure CRec where
  tag : Nat
  status : Nat
  flags : Nat := 0
  pstat : Nat := 0
  xstat : Nat := 0
  slot : Nat := 0
  kind : Nat := 0
  offset : Nat := 0
  aux32 : Nat := 0
  seq : Nat := 0
  aux64 : Nat := 0
  deriving DecidableEq, Repr

/-- The record's bytes. -/
def CRec.bytes (c : CRec) : List Byte :=
  toBytes 2 c.tag ++ toBytes 1 c.status ++ toBytes 1 c.flags ++ toBytes 1 c.pstat ++ toBytes 1 c.xstat
    ++ toBytes 1 c.slot ++ toBytes 1 c.kind ++ toBytes 4 c.offset ++ toBytes 4 c.aux32 ++ toBytes 8 c.seq
    ++ toBytes 8 c.aux64

/-- The message write and the ring event of R294, steps 4 and 5. -/
def State.ringSignal (s : State) (r : Nat) : State :=
  let x := s.ring r
  let s := if x.msgAddr = 0 then s else s.hostPut x.msgAddr 4 x.msgData.toNat
  if x.irqEn then { s with glb := { s.glb with ringPend := s.glb.ringPend ||| BitVec.ofNat 16 (2 ^ x.irqLine) } } else s

/-- Writes an engine-originated record to a NOTIFY ring, or drops it when the ring is full; the head line shows either count
(R294, R296). -/
def State.notify (s : State) (r : Nat) (c : CRec) : State :=
  let x := s.ring r
  if x.st = .absent ∨ x.cls ≠ 3 then s
  else if (dword x.produced - x.tail).toNat < x.nent then
    let c := { c with flags := c.flags ||| (if x.lost then 8 else 0) }
    let s := s.hostWrite (x.cmplBase + 64 + 32 * (x.produced % x.nent)) c.bytes
    let s := s.updRing r fun y => { y with produced := (y.produced + 1) % 2 ^ 64, lost := false }
    (s.writeHead r).ringSignal r
  else (s.updRing r fun y => { y with dropped := y.dropped + 1, lost := true }).writeHead r

/-! ## Object references (R302 to R305) -/

/-- Object index of a handle of a core. -/
def objIdx (core idx : Nat) : Nat := core * 256 + idx

/-- The current generation of an object's handle entry. -/
def State.objGen (s : State) (o : Nat) : Nat := hGen (Sparse.get 0 (s.core (o / 256)).handles (o % 256))

/-- ENG_REF of an object: the references held under the current generation. -/
def State.engRef (s : State) (o : Nat) : Nat := (s.sd.refs.filter fun x => x == (o, s.objGen o)).length

/-- Writes bytes 4 to 15 of the object entry (R302). -/
def State.writeObj (s : State) (o : Nat) : State :=
  s.hostWrite (addr48 s.sd.objLo s.sd.objHi + 16 * o + 4)
    (toBytes 4 (s.engRef o) ++ toBytes 1 (s.objGen o) ++ toBytes 7 0)

/-- ENG_REF of an object has become 0: its HOST_REF is to be read (R304). -/
def State.freedObj (s : State) (o : Nat) : State :=
  if s.sd.freed.contains o then s else { s with sd := { s.sd with freed := s.sd.freed ++ [o] } }

/-- Writes the entry of an object whose generation was `old` until this commit (R305). -/
def State.renewObj (s : State) (o old : Nat) : State :=
  let s := s.writeObj o
  if s.sd.refs.contains (o, old) && s.engRef o == 0 then s.freedObj o else s

/-- Takes one reference on each object of the list (R303). -/
def State.takeRefs (s : State) (os : List (Nat × Nat)) : State :=
  os.foldl (fun t o => ({ t with sd := { t.sd with refs := o :: t.sd.refs } }).writeObj o.1) s

/-- Drops references: an entry of the current generation is decremented and written; at 0 its HOST_REF is to be read
(R303, R304). -/
def State.dropRefs (s : State) (os : List (Nat × Nat)) : State :=
  os.foldl (fun t o =>
    let t := { t with sd := { t.sd with refs := t.sd.refs.erase o } }
    if t.objGen o.1 = o.2 then
      let t := t.writeObj o.1
      if t.engRef o.1 = 0 then t.freedObj o.1 else t
    else t) s

/-- Handle references of one instruction that its validation reads: its fields, its extension block and its slot list
(R303). -/
def instrRefs (k : Core) (w : IWord) : List Nat :=
  match IWord.opc w with
  | none => []
  | some o =>
    let own := (handleRefs w o).filter fun r => !refNull r
    let xb := if o.hasXb then (k.readXb (IWord.xbRef w)).refs.filter fun r => !refNull r else []
    own ++ xb ++ slots w o
where
  /-- The handle fields of a layout. -/
  handleRefs (w : IWord) (o : Op) : List Nat :=
    let h (b : Nat) : Nat := IWord.by w b 2
    match o with
    | .loadw => [h 4]
    | .matmul => [h 4, h 6, h 8, h 10]
    | .matvec => [h 4, h 6, h 8, h 10]
    | .recur => [h 4, h 6, h 8, h 10, h 12, h 14]
    | .scan => [h 4, h 6, h 8, h 10, h 12, h 14]
    | .lconv => [h 4, h 6, h 8, h 10, h 12, h 14]
    | .gate => [h 4, h 6, h 8, h 10, h 12, h 14]
    | .func => [h 4, h 6, h 8]
    | .reduce => [h 4, h 6, h 8, h 10]
    | .convert => [h 4, h 6, h 8]
    | .move => [if nbits w 224 1 = 1 then 0 else h 4, if nbits w 227 1 = 1 then 0 else h 6]
    | .qpush => [h 4]
    | .summary => [h 4]
    | _ => []
  /-- The references of the slot list. -/
  slots (w : IWord) (o : Op) : List Nat :=
    let lst (l : Nat) : List Nat := tab (IWord.by w 18 2) fun j => k.rdN (k.entry l) (2 * j) 2
    match o with
    | .recur => lst (IWord.by w 12 2)
    | .scan => lst (IWord.by w 10 2)
    | .lconv => lst (IWord.by w 10 2)
    | _ => []

/-- The distinct objects that a program copy names, itself included, with the generations of their entries (R303). -/
def State.programObjs (s : State) (core ref : Nat) : List (Nat × Nat) :=
  let k := s.core core
  let n := k.rdN (k.entry ref) 4 2
  let refs := ref :: (tab n fun i => instrRefs k (k.rdN (k.entry ref) (32 * (i + 1)) 32)).flatten
  (refs.map fun r => (objIdx core (refIdx r), hGen (k.entry r))).eraseDups

/-! ## Idle time -/

/-- Cores that run a slot of a best-effort job. -/
def State.jobCores (s : State) : Nat :=
  (s.cores.filter fun e => match e.2.csq.run with | .job _ _ => true | _ => false).length

/-- The peer port sends one frame, urgent ones first (R398). -/
def Peer.sendOne (p : Peer) : Peer :=
  match p.urgent with
  | _ :: rest => { p with urgent := rest }
  | [] => { p with ordered := p.ordered.drop 1 }

/-- The tile port sends one tile write, or one acknowledge once the writes before it are sent (R393). -/
def TPort.sendOne (p : TPort) : TPort :=
  match p.writes with
  | _ :: rest => { p with writes := rest }
  | [] => { p with acks := p.acks.drop 1 }

/-- An empty queue lets one FCLK, two CCLK, pass (R436), which runs while the PLL is locked (R370): the trace port sends one record in every 32 FCLK (R405), the peer
port one frame, the tile port one line or acknowledge, best-effort work is counted, and Sheepdog evaluates the waits at the new edge (R301). -/
def State.idle (s : State) : State :=
  if s.running && s.glb.pllLock then
    State.evalWaits { s with
             fclk := s.fclk + 1
             power := { s.power with ageOut := none }
             trace := if (s.fclk + 1) % 32 = 0 then s.trace.drop 1 else s.trace
             peer := s.peer.sendOne
             tport := s.tport.sendOne
             tele := { s.tele with beCclk := s.tele.beCclk + 2 * s.jobCores } }
  else s

end Sys2Proof.Machine
end

