-- ==== Sys2Proof/Machine/Crypto.lean ====
section
/-! DEFINITION. The cryptography that the spec names: AES-256-GCM of NIST SP 800-38D (R351), SHA-384 of FIPS 180-4 (R360,
R415) and ECDSA P-384 (R415). -/

namespace Sys2Proof.Machine

/-! ## AES-256 -/

/-- Product in GF(2^8) modulo x^8 + x^4 + x^3 + x + 1, over the low `n` bits of `b`. -/
def gfMul (a b : Nat) : Nat → Nat
  | 0 => 0
  | n + 1 =>
    let a2 := if a < 128 then 2 * a else (2 * a) ^^^ 0x11B
    (if b % 2 = 1 then a else 0) ^^^ gfMul a2 (b / 2) n

/-- Product of two bytes. -/
def gmul (a b : Nat) : Nat := gfMul a b 8

/-- Rotates a byte left. -/
def rotl8 (x n : Nat) : Nat := (x * 2 ^ n) % 256 + x / 2 ^ (8 - n)

/-- The inverse a^254 of a byte; 0 for 0. -/
def gfInv (a : Nat) : Nat :=
  let a2 := gmul a a
  let a4 := gmul a2 a2
  let a8 := gmul a4 a4
  let a16 := gmul a8 a8
  let a32 := gmul a16 a16
  let a64 := gmul a32 a32
  let a128 := gmul a64 a64
  gmul a128 (gmul a64 (gmul a32 (gmul a16 (gmul a8 (gmul a4 a2)))))

/-- The S-box. -/
def sbox (a : Nat) : Nat :=
  let b := gfInv a
  b ^^^ rotl8 b 1 ^^^ rotl8 b 2 ^^^ rotl8 b 3 ^^^ rotl8 b 4 ^^^ 0x63

/-- Element-wise exclusive or. -/
def xorList (a b : List Nat) : List Nat := List.zipWith (· ^^^ ·) a b

/-- Round constants. -/
def rcon (i : Nat) : Nat := 2 ^ (i - 1)

/-- Extends the key schedule by `n` four-byte words from word `i` on. -/
def keyWords (ws : List (List Nat)) (i : Nat) : Nat → List (List Nat)
  | 0 => ws
  | n + 1 =>
    let prev := ws.getD (i - 1) []
    let t := if i % 8 = 0 then
        xorList ((prev.drop 1 ++ prev.take 1).map sbox) [rcon (i / 8), 0, 0, 0]
      else if i % 8 = 4 then prev.map sbox else prev
    keyWords (ws ++ [xorList (ws.getD (i - 8) []) t]) (i + 1) n

/-- The 60 words of the AES-256 key schedule. -/
def keySchedule (key : List Nat) : List (List Nat) :=
  keyWords (tab 8 fun i => (key.drop (4 * i)).take 4) 8 52

/-- Round key `r` as 16 bytes. -/
def roundKey (ks : List (List Nat)) (r : Nat) : List Nat := ((ks.drop (4 * r)).take 4).flatten

/-- Byte i of a column-major state moves by its row. -/
def shiftRows (s : List Nat) : List Nat := tab 16 fun i => s.getD ((i + 4 * (i % 4)) % 16) 0

/-- MixColumns. -/
def mixColumns (s : List Nat) : List Nat :=
  tab 16 fun i =>
    let c := i / 4 * 4
    let at_ (k : Nat) : Nat := s.getD (c + (i + k) % 4) 0
    gmul 2 (at_ 0) ^^^ gmul 3 (at_ 1) ^^^ at_ 2 ^^^ at_ 3

/-- Rounds `r` to 13 and the last one. -/
def aesRounds (ks : List (List Nat)) (s : List Nat) (r : Nat) : Nat → List Nat
  | 0 => xorList (shiftRows (s.map sbox)) (roundKey ks r)
  | n + 1 => aesRounds ks (xorList (mixColumns (shiftRows (s.map sbox))) (roundKey ks r)) (r + 1) n

/-- AES-256 on one block. -/
def aesBlock (ks : List (List Nat)) (b : List Nat) : List Nat := aesRounds ks (xorList b (roundKey ks 0)) 1 13

/-! ## GCM -/

/-- A big-endian number. -/
def beNat (bs : List Nat) : Nat := bs.foldl (fun a b => a * 256 + b) 0

/-- `n` big-endian bytes. -/
def beBytes (n v : Nat) : List Nat := tab n fun i => v / 256 ^ (n - 1 - i) % 256

/-- Product in GCM's field, the most significant bit first; `n` bits of `x` are left. -/
def ghMul (x v z : Nat) : Nat → Nat
  | 0 => z
  | n + 1 =>
    let z := if x / 2 ^ n % 2 = 1 then z ^^^ v else z
    let v := if v % 2 = 1 then (v / 2) ^^^ (0xE1 * 2 ^ 120) else v / 2
    ghMul x v z n

/-- GHASH over whole blocks. -/
def ghash (h : Nat) (blocks : List Nat) : Nat := blocks.foldl (fun y b => ghMul (y ^^^ b) h 0 128) 0

/-- Splits bytes into 16-byte blocks, the last filled with zeros. -/
def blocks16 (bs : List Nat) : List Nat :=
  tab ((bs.length + 15) / 16) fun i =>
    let b := (bs.drop (16 * i)).take 16
    beNat (b ++ List.replicate (16 - b.length) 0)

/-- Counter-mode key stream applied to bytes. -/
def gctr (ks : List (List Nat)) (iv bs : List Nat) : List Nat :=
  (tab ((bs.length + 15) / 16) fun i =>
    xorList ((bs.drop (16 * i)).take 16) (aesBlock ks (iv ++ beBytes 4 (i + 2)))).flatten

/-- The authentication tag of a ciphertext. -/
def gcmTag (ks : List (List Nat)) (iv aad ct : List Nat) : List Nat :=
  let h := beNat (aesBlock ks (List.replicate 16 0))
  let s := ghash h (blocks16 aad ++ blocks16 ct ++ [aad.length * 8 * 2 ^ 64 + ct.length * 8])
  xorList (beBytes 16 s) (aesBlock ks (iv ++ [0, 0, 0, 1]))

/-- Key bytes of a key slot: word w holds bytes 4w to 4w + 3 (R355). -/
def keyBytes (k : BitVec 256) : List Nat := leBytes 32 k.toNat

/-- The IV of R351. -/
def gcmIv (sid ctr : Nat) : List Nat := leBytes 4 sid ++ leBytes 8 ctr

/-! ## SHA-384 -/

/-- Round constants of SHA-384. -/
def shaK1 : List Nat :=
  [
   0x428A2F98D728AE22, 0x7137449123EF65CD, 0xB5C0FBCFEC4D3B2F, 0xE9B5DBA58189DBBC,
   0x3956C25BF348B538, 0x59F111F1B605D019, 0x923F82A4AF194F9B, 0xAB1C5ED5DA6D8118,
   0xD807AA98A3030242, 0x12835B0145706FBE, 0x243185BE4EE4B28C, 0x550C7DC3D5FFB4E2,
   0x72BE5D74F27B896F, 0x80DEB1FE3B1696B1, 0x9BDC06A725C71235, 0xC19BF174CF692694,
   0xE49B69C19EF14AD2, 0xEFBE4786384F25E3, 0x0FC19DC68B8CD5B5, 0x240CA1CC77AC9C65,
   0x2DE92C6F592B0275, 0x4A7484AA6EA6E483, 0x5CB0A9DCBD41FBD4, 0x76F988DA831153B5,
   0x983E5152EE66DFAB, 0xA831C66D2DB43210, 0xB00327C898FB213F, 0xBF597FC7BEEF0EE4,
   0xC6E00BF33DA88FC2, 0xD5A79147930AA725, 0x06CA6351E003826F, 0x142929670A0E6E70,
   0x27B70A8546D22FFC, 0x2E1B21385C26C926, 0x4D2C6DFC5AC42AED, 0x53380D139D95B3DF,
   0x650A73548BAF63DE, 0x766A0ABB3C77B2A8, 0x81C2C92E47EDAEE6, 0x92722C851482353B]

/-- The rest of the round constants. -/
def shaK2 : List Nat :=
  [
   0xA2BFE8A14CF10364, 0xA81A664BBC423001, 0xC24B8B70D0F89791, 0xC76C51A30654BE30,
   0xD192E819D6EF5218, 0xD69906245565A910, 0xF40E35855771202A, 0x106AA07032BBD1B8,
   0x19A4C116B8D2D0C8, 0x1E376C085141AB53, 0x2748774CDF8EEB99, 0x34B0BCB5E19B48A8,
   0x391C0CB3C5C95A63, 0x4ED8AA4AE3418ACB, 0x5B9CCA4F7763E373, 0x682E6FF3D6B2B8A3,
   0x748F82EE5DEFB2FC, 0x78A5636F43172F60, 0x84C87814A1F0AB72, 0x8CC702081A6439EC,
   0x90BEFFFA23631E28, 0xA4506CEBDE82BDE9, 0xBEF9A3F7B2C67915, 0xC67178F2E372532B,
   0xCA273ECEEA26619C, 0xD186B8C721C0C207, 0xEADA7DD6CDE0EB1E, 0xF57D4F7FEE6ED178,
   0x06F067AA72176FBA, 0x0A637DC5A2C898A6, 0x113F9804BEF90DAE, 0x1B710B35131C471B,
   0x28DB77F523047D84, 0x32CAAB7B40C72493, 0x3C9EBE0A15C9BEBC, 0x431D67C49C100D4C,
   0x4CC5D4BECB3E42B6, 0x597F299CFC657E2A, 0x5FCB6FAB3AD6FAEC, 0x6C44198C4A475817]

/-- Initial hash value. -/
def shaH : List Nat :=
  [
   0xCBBB9D5DC1059ED8, 0x629A292A367CD507, 0x9159015A3070DD17, 0x152FECD8F70E5939,
   0x67332667FFC00B31, 0x8EB44A8768581511, 0xDB0C2E0D64F98FA7, 0x47B5481DBEFA4FA4]

/-- Rotates 64 bits right. -/
def ror64 (x n : Nat) : Nat := x / 2 ^ n + x % 2 ^ n * 2 ^ (64 - n)

/-- Extends the message schedule (newest word first) by `n` words. -/
def shaSched : List Nat → Nat → List Nat
  | ws, 0 => ws
  | ws, n + 1 =>
    let a := ws.getD 1 0
    let b := ws.getD 14 0
    let s1 := ror64 a 19 ^^^ ror64 a 61 ^^^ (a / 64)
    let s0 := ror64 b 1 ^^^ ror64 b 8 ^^^ (b / 128)
    shaSched ((s1 + ws.getD 6 0 + s0 + ws.getD 15 0) % 2 ^ 64 :: ws) n

/-- One round on the eight working variables. -/
def shaRound (v : List Nat) (kw : Nat × Nat) : List Nat :=
  match v with
  | [a, b, c, d, e, f, g, h] =>
    let t1 := h + (ror64 e 14 ^^^ ror64 e 18 ^^^ ror64 e 41) + ((e &&& f) ^^^ ((2 ^ 64 - 1 - e) &&& g)) + kw.1 + kw.2
    let t2 := (ror64 a 28 ^^^ ror64 a 34 ^^^ ror64 a 39) + ((a &&& b) ^^^ (a &&& c) ^^^ (b &&& c))
    [(t1 + t2) % 2 ^ 64, a, b, c, (d + t1) % 2 ^ 64, e, f, g]
  | _ => v

/-- Takes one 128-byte block into the hash value. -/
def shaBlock (hv block : List Nat) : List Nat :=
  let w := (shaSched ((tab 16 fun i => beNat ((block.drop (8 * i)).take 8)).reverse) 64).reverse
  List.zipWith (fun x y => (x + y) % 2 ^ 64) hv (((shaK1 ++ shaK2).zip w).foldl shaRound hv)

/-- SHA-384 of a byte string, as 48 bytes. -/
def sha384 (bs : List Nat) : List Nat :=
  let pad := (239 - bs.length % 128) % 128
  let m := bs ++ [0x80] ++ List.replicate pad 0 ++ beBytes 16 (8 * bs.length)
  (((tab (m.length / 128) fun i => (m.drop (128 * i)).take 128).foldl shaBlock shaH).take 6).flatMap (beBytes 8)

/-! ## ECDSA P-384 -/

/-- The field prime. -/
def p384 : Nat := 2 ^ 384 - 2 ^ 128 - 2 ^ 96 + 2 ^ 32 - 1
/-- The group order. -/
def n384 : Nat := 0xFFFFFFFFFFFFFFFFFFFFFFFFFFFFFFFFFFFFFFFFFFFFFFFFC7634D81F4372DDF581A0DB248B0A77AECEC196ACCC52973
/-- The curve coefficient b; a is -3. -/
def b384 : Nat := 0xB3312FA7E23EE7E4988E056BE3F82D19181D9C6EFE8141120314088F5013875AC656398D8A2ED19D2A85C8EDD3EC2AEF
/-- The base point. -/
def g384 : Nat × Nat :=
  (0xAA87CA22BE8B05378EB1C71EF320AD746E1D3B628BA79B9859F741E082542A385502F25DBF55296C3A545E3872760AB7,
   0x3617DE4A96262C6F5D9E98BF9292DC29F8F41DBD289A147CE9DA3113B5F0B8C00A60B1CE1D7E819D7A431D7C90EA0E5F)

/-- Power modulo `m` over the low `n` bits of the exponent. -/
def powMod (m b e : Nat) : Nat → Nat
  | 0 => 1 % m
  | n + 1 => (if e % 2 = 1 then b else 1) * powMod m (b * b % m) (e / 2) n % m

/-- Inverse modulo a 384-bit prime. -/
def invMod (m a : Nat) : Nat := powMod m (a % m) (m - 2) 384

/-- Sum of two points; none is the point at infinity. -/
def ecAdd (a b : Option (Nat × Nat)) : Option (Nat × Nat) :=
  match a, b with
  | none, _ => b
  | _, none => a
  | some (x1, y1), some (x2, y2) =>
    let fin (l : Nat) : Option (Nat × Nat) :=
      let x := (l * l + 2 * p384 - x1 - x2) % p384
      some (x, (l * (x1 + p384 - x) + p384 - y1) % p384)
    if x1 = x2 then
      if (y1 + y2) % p384 = 0 then none
      else fin ((3 * x1 * x1 + p384 - 3) * invMod p384 (2 * y1) % p384)
    else fin ((y2 + p384 - y1) * invMod p384 (x2 + p384 - x1) % p384)

/-- Multiple of a point over the low `n` bits of the factor. -/
def ecMul (k : Nat) (q : Option (Nat × Nat)) : Nat → Option (Nat × Nat)
  | 0 => none
  | n + 1 => ecAdd (if k % 2 = 1 then q else none) (ecMul (k / 2) (ecAdd q q) n)

/-- Does a signature (r, s) of the hash `e` verify under a public key? -/
def ecdsaOk (qx qy r s e : Nat) : Bool :=
  let onCurve : Bool := decide (qx < p384) && decide (qy < p384)
    && qy * qy % p384 == (qx * qx * qx + (p384 - 3) * qx + b384) % p384
  let range (x : Nat) : Bool := decide (0 < x) && decide (x < n384)
  if onCurve && range r && range s then
    let w := invMod n384 s
    match ecAdd (ecMul (e * w % n384) (some g384) 384) (ecMul (r * w % n384) (some (qx, qy)) 384) with
    | none => false
    | some (x, _) => x % n384 == r
  else false

end Sys2Proof.Machine
end

