-- ==== Sys2Proof/Machine/PortOps.lean ====
section
/-! DEFINITION. Shared operations of the sample port and the tile port (13_ports_and_signals): the fields of their
bindings, the checks at a fire, landing and filling of ingress positions, releases and fallbacks on egress lanes, tile
reads, tile writes and resolve acknowledges. -/

namespace Sys2Proof.Machine

/-! ## Groups, members and their closes (R239) -/

/-- The physical core of slot `k`. -/
def Group.core (g : Group) (k : Nat) : Nat := 4 * g.pack + g.cores.getD k 0

/-- The physical cores of a group's slots. -/
def Group.allCores (g : Group) : List Nat := tab g.nslot g.core

/-- Number of members. -/
def Group.nmem (g : Group) : Nat := g.members.length

/-- PHASE of member `j`. -/
def Group.phase (g : Group) (j : Nat) : Nat := ((g.members[j]?).map fun m => m.phase.toNat).getD 0

/-- The largest PHASE. -/
def Group.lead (g : Group) : Nat := (g.members.map fun m => m.phase.toNat).foldl max 0

/-- The smallest PHASE. -/
def Group.trail (g : Group) : Nat := (g.members.map fun m => m.phase.toNat).foldl min g.lead

/-- WIN. -/
def Group.win (g : Group) : Nat := g.lead - g.trail

/-- C_n of the group. -/
def Group.closeAt (g : Group) (n : Nat) : Nat := (g.lead + n * g.p) % 2 ^ 64

/-- C_(m,n) of member `j`. -/
def Group.memberClose (g : Group) (j n : Nat) : Nat := (g.phase j + n * g.p) % 2 ^ 64

/-- GID: the stream number of member 0 (R248). -/
def Group.gid (g : Group) : Nat := ((g.members[0]?).map (·.stream)).getD 0

/-- The frame and step of member `j` whose range holds time-base value `v` (R239). -/
def Group.placeOf (g : Group) (j : Nat) (v : DWord) : Nat × Nat :=
  -- frame n covers n P < v + P - PHASE ≤ (n + 1) P
  let u := (v + dword g.p - dword (g.phase j) - 1).toNat
  (u / g.p, u % g.p / (g.p / g.n))

/-- U_min in CCLK (R236). -/
def TBase.uMin (t : TBase) : Nat := t.nom.toNat * (1000000 - t.tol) / 256000000

/-- U_max in CCLK (R236). -/
def TBase.uMax (t : TBase) : Nat := ceilDiv (t.nom.toNat * (1000000 + t.tol)) 256000000

/-- DREL: the deadline in CCLK from the group's close (R239, R248). -/
def State.drel (s : State) (g : Group) : Nat := g.dlc - g.win * (s.tb g.tb).uMax

/-- A frame of a group. -/
def Group.frame? (g : Group) (n : Nat) : Option Frame := g.frames.find? (·.n == n)

/-- Rewrites a frame. -/
def Group.updFrame (g : Group) (n : Nat) (f : Frame → Frame) : Group :=
  { g with frames := g.frames.map fun x => if x.n = n then f x else x }

/-- Rewrites a frame of a group of the state. -/
def State.updFrame (s : State) (gid n : Nat) (f : Frame → Frame) : State := s.updGroup gid fun g => g.updFrame n f

/-- A frame of the state. -/
def State.frame? (s : State) (gid n : Nat) : Option Frame := (s.group? gid).bind fun g => g.frame? n

/-- The deadline d_n in CCLK, once the frame's close has passed (R239). -/
def State.deadline (s : State) (g : Group) (f : Frame) : Option Nat := f.close.map fun c => 2 * c + s.drel g

/-- The present edge in CCLK. -/
def State.cclk (s : State) : Nat := 2 * s.fclk

/-- The context of slot `k`: the CTX of the program handle that ARM named for it (R383). -/
def State.slotCtx (s : State) (g : Group) (k : Nat) : Nat := hCtx ((s.core (g.core k)).entry (g.progs.getD k 0))

/-! ## Sample-port bindings (R383, R389) -/

/-- EN. -/
def Bind.en (b : Bind) : Bool := b.cfg.getLsbD 0
/-- ADV. -/
def Bind.adv (b : Bind) : Nat := wbits b.cfg 1 1
/-- NCH: channels. -/
def Bind.nch (b : Bind) : Nat := wbits b.cfg 3 2 + 1
/-- GID. -/
def Bind.gid (b : Bind) : Nat := wbits b.cfg 15 4
/-- KSLOT. -/
def Bind.kslot (b : Bind) : Nat := wbits b.cfg 17 16
/-- BOFF. -/
def Bind.boff (b : Bind) : Nat := wbits b.cfg 21 18
/-- HREF. -/
def Bind.href (b : Bind) : Nat := wbits b.tgt 15 0
/-- MBASE. -/
def Bind.mbase (b : Bind) : Nat := wbits b.tgt 24 16
/-- SOFF. -/
def Bind.soff (b : Bind) : Nat := wbits b.store 17 0
/-- MCNT: members. -/
def Bind.mcnt (b : Bind) : Nat := wbits b.store 26 18 + 1

/-- The ingress binding of a lane as its registers stand. -/
def State.inReg (s : State) (l : Nat) : Bind :=
  ⟨l, Sparse.get 0 s.aport.inCfg l, Sparse.get 0 s.aport.inTgt l, Sparse.get 0 s.aport.inStore l⟩

/-- The egress binding of a lane as its registers stand. -/
def State.outReg (s : State) (l : Nat) : Bind :=
  ⟨l, Sparse.get 0 s.aport.outCfg l, Sparse.get 0 s.aport.outTgt l, Sparse.get 0 s.aport.outStore l⟩

/-- Does a reference pass the checks of R164 for context `ctx` and generation? -/
def Core.refGood (k : Core) (ctx r : Nat) : Bool := !refNull r && !k.refBad ctx r && !k.refStale r

/-- The checks at the fire of a frame (R383). -/
def State.bindOk (s : State) (g : Group) (b : Bind) : Bool :=
  let k := s.core (g.core b.kslot)
  decide (b.kslot < g.nslot) && decide (b.soff + 2 * g.n * b.mcnt * b.nch ≤ 262144)
    && k.refGood (s.slotCtx g b.kslot) b.href
    && decide ((((g.n - 1) * g.nmem + b.mbase + b.mcnt - 1) * b.nch + b.nch) * 4 ≤ hExt (k.entry b.href))

/-- Clears EN of a binding that failed its check, and raises SP_BIND. -/
def State.disableIn (s : State) (l : Nat) : State :=
  ({ s with aport := { s.aport with inCfg := s.aport.inCfg.set 0 l (Sparse.get 0 s.aport.inCfg l &&& ~~~1#32) } }).raise pgAport 4

/-- As `disableIn`, for an egress lane. -/
def State.disableOut (s : State) (l : Nat) : State :=
  ({ s with aport := { s.aport with outCfg := s.aport.outCfg.set 0 l (Sparse.get 0 s.aport.outCfg l &&& ~~~1#32) } }).raise pgAport 4

/-- The ingress bindings that a group's frame uses: those fixed at its fire, else the enabled registers. -/
def State.frameIns (s : State) (gid : Nat) (f : Frame) : List Bind :=
  if f.fire.isSome then f.ins else (tab 16 s.inReg).filter fun b => b.en && b.gid == gid

/-- The egress bindings that a group's frame uses. -/
def State.frameOuts (s : State) (gid : Nat) (f : Frame) : List Bind :=
  if f.fire.isSome then f.outs else (tab 16 s.outReg).filter fun b => b.en && b.gid == gid

/-! ## Ingress (R384 to R386) -/

/-- Byte position of (step, member, channel) in HREF. -/
def Bind.pos (b : Bind) (nmem t m ch : Nat) : Nat := ((t * nmem + m) * b.nch + ch) * 4

/-- Store word of (frame, step, relative member, channel). -/
def Bind.storeWord (b : Bind) (g : Group) (n t rel ch : Nat) : Nat :=
  b.soff + ((n % 2) * g.n + t) * b.mcnt * b.nch + rel * b.nch + ch

/-- Every (step, relative member, channel) of a binding, in ascending step, member and channel. -/
def Bind.places (b : Bind) (n : Nat) : List (Nat × Nat × Nat) :=
  (tab n fun t => (tab b.mcnt fun m => tab b.nch fun c => (t, m, c)).flatten).flatten

/-- Writes bytes into a core's SPD through a handle. -/
def State.writeHandle (s : State) (core ref pos : Nat) (bs : List Byte) : State :=
  s.updCore core fun k => { k.wr (k.entry ref) pos bs with wlog := [] }

/-- Sets the mark bit of (member, step) in slot `k`'s mark buffer (R137). -/
def State.setMark (s : State) (g : Group) (k j t : Nat) : State :=
  let ref := g.marks.getD k 0
  if refNull ref then s
  else
    s.updCore (g.core k) fun c =>
      let x := j * ceilDiv g.n 8 + t / 8
      { c.wrN (c.entry ref) x 1 (c.rdN (c.entry ref) x 1 ||| 2 ^ (t % 8)) with wlog := [] }

/-- A word lands at its position: SPD, the ingress latch of a tick-mode group of one slot, and its mark (R243, R384,
R386). -/
def State.landWord (s : State) (gid : Nat) (g : Group) (b : Bind) (w : WaitWord) : State :=
  let core := g.core b.kslot
  let s := s.writeHandle core b.href w.pos (toBytes 4 w.data.toNat)
  let s := if !g.block && g.nslot == 1 then
      s.updCore core fun k =>
        { k with
          latch := (List.range 4).foldl (fun m i =>
            Sparse.set 0 m (4 * b.boff + i) (BitVec.ofNat 8 (w.data.toNat / 256 ^ i % 256))) k.latch
          latched := (k.latched.filter fun x => x.off != 4 * b.boff)
            ++ [⟨gid, w.frame, hPhys (k.entry b.href) w.pos / 64, 4 * b.boff⟩] }
    else s
  let old := s.aport.landed
  let here := (w.lane, w.frame, w.pos)
  let s := { s with aport := { s.aport with landed := (if old.contains here then old else old ++ [here]) } }
  if !w.rst then s
  else
    match g.frame? w.frame with
    | some f =>
      if f.start.isSome then (List.range g.nslot).foldl (fun t k => t.setMark g k w.member w.step) s
      else s.updGroup gid fun x => { x with ingressMarks := x.ingressMarks ++ [(w.frame, w.member, w.step)] }
    | none => s.updGroup gid fun x => { x with ingressMarks := x.ingressMarks ++ [(w.frame, w.member, w.step)] }

/-- Has a position received its word? -/
def State.hasLanded (s : State) (lane n pos : Nat) : Bool := s.aport.landed.contains (lane, n, pos)

/-- Positions of a frame that no word has reached. -/
def State.missing (s : State) (g : Group) (b : Bind) (n : Nat) : List Nat :=
  ((b.places g.n).map fun (t, m, c) => b.pos g.nmem t (b.mbase + m) c).filter fun p => !s.hasLanded b.lane n p

/-- At d, every position that received no word takes +0 (R385). -/
def State.fillMissing (s : State) (g : Group) (f : Frame) : State :=
  f.ins.foldl (fun t b =>
    let ps := t.missing g b f.n
    if ps.isEmpty then t
    else
      let t := ps.foldl (fun u p => u.writeHandle (g.core b.kslot) b.href p (toBytes 4 0)) t
      let t := { t with aport := { t.aport with
        landed := t.aport.landed ++ ps.map fun p => (b.lane, f.n, p)
        missingCnt := satWord t.aport.missingCnt ps.length } }
      t.raise pgAport 2) s

/-! ## Egress (R387, R388) -/

/-- Odd parity: the bit that makes the count of ones over DATA and TAG odd (R382). -/
def parBit (data : Word) (tag : BitVec 16) : Bool :=
  ((List.range 32).filter fun i => data.getLsbD i).length % 2 == ((List.range 15).filter fun i => tag.getLsbD i).length % 2

/-- An egress word with its tag. -/
def egressTag (data : Word) (rel ch : Nat) (fb first : Bool) : Word × BitVec 16 :=
  let t := BitVec.ofNat 16 (rel % 512 + ch * 512 + b2n fb * 2048 + b2n first * 4096)
  (data, if parBit data t then t ||| 0x8000#16 else t)

/-- Key of an egress word that a frame holds: lane and position index. -/
def egressKey (lane pos : Nat) : Nat := lane * 2 ^ 24 + pos / 4

/-- Starts sending a release on a lane; the rest of an earlier release is dropped (R387). -/
def State.startRelease (s : State) (lane : Nat) (ws : List (Word × BitVec 16)) : State :=
  let old := (Sparse.get [] s.aport.send lane).length
  let s := if old = 0 then s
    else ({ s with aport := { s.aport with overrunCnt := satWord s.aport.overrunCnt old } }).raise pgAport 3
  { s with aport := { s.aport with send := s.aport.send.set [] lane ws } }

/-- The computed release of a frame on one binding: the frame's words go into the other region, which is released. -/
def State.releaseLane (s : State) (gid : Nat) (g : Group) (f : Frame) (b : Bind) : State :=
  let old := s.aport.region.find? (·.1 == b.lane)
  let r := match old with | some (_, (x, i)) => if x = gid then 1 - i else 0 | none => 0
  let words := (b.places g.n).map fun (t, m, c) =>
    (t, m, c, Sparse.get (0 : Word) f.egress (egressKey b.lane (b.pos g.nmem t (b.mbase + m) c)))
  let estore := words.foldl (fun e (t, m, c, w) => Sparse.set 0 e (b.storeWord g r t m c) w) s.aport.estore
  let s := { s with aport := { s.aport with estore := estore, region := s.aport.region.put b.lane (gid, r) } }
  s.startRelease b.lane (words.zipIdx.map fun ((_, m, c, w), i) => egressTag w m c false (i == 0))

/-- The fallback word of a position (R320, R388). DRY sends the ingress store word as it stands, also where no word of the frame
has arrived. -/
def State.fallbackWord (s : State) (gid : Nat) (g : Group) (f : Frame) (b : Bind) (t m c : Nat) : Word :=
  match g.fallback with
  | 0 =>
    match s.aport.region.find? (·.1 == b.lane) with
    | some (_, (x, r)) => if x = gid then Sparse.get 0 s.aport.estore (b.storeWord g r t m c) else 0
    | none => 0
  | 2 =>
    let mem := b.mbase + m
    match (s.frameIns gid f).find? fun i => decide (i.mbase ≤ mem) && decide (mem < i.mbase + i.mcnt) with
    | none => 0
    | some i =>
      let ch := if c < i.nch then c else 0
      Sparse.get 0 s.aport.istore (i.storeWord g f.n t (mem - i.mbase) ch)
  | _ => 0

/-- The fallback release of a frame on one binding. -/
def State.fallbackLane (s : State) (gid : Nat) (g : Group) (f : Frame) (b : Bind) : State :=
  s.startRelease b.lane ((b.places g.n).zipIdx.map fun ((t, m, c), i) =>
    egressTag (s.fallbackWord gid g f b t m c) m c true (i == 0))

/-- Forgets what the sample port holds for a finished frame. -/
def State.forgetIngress (s : State) (gid : Nat) (f : Frame) : State :=
  let lanes := (s.frameIns gid f).map (·.lane)
  { s with aport := { s.aport with landed := s.aport.landed.filter fun x => !(lanes.contains x.1 && x.2.1 == f.n),
                                   waits := s.aport.waits.filter fun w => !(w.gid == gid && w.frame == f.n) } }

/-! ## Egress positions in frame writes (R387) -/

/-- A frame's writes of SPD bytes on a core: the positions of its egress bindings that they touch take their words. -/
def State.tapEgress (s : State) (core gid n : Nat) (bytes : List Nat) : State :=
  match s.group? gid, s.frame? gid n with
  | some g, some f =>
    f.outs.foldl (fun t b =>
      if g.core b.kslot ≠ core then t
      else
        let k := t.core core
        let e := k.entry b.href
        let hit := (b.places g.n).filterMap fun (st, m, c) =>
          let p := b.pos g.nmem st (b.mbase + m) c
          if (List.range 4).any (fun i => bytes.contains (hPhys e (p + i))) then some (p, word (k.rdN e p 4)) else none
        t.updFrame gid n fun x =>
          { x with egress := hit.foldl (fun m (p, w) => Sparse.put m (egressKey b.lane p) w) x.egress }) s
  | _, _ => s

/-! ## Tile-port bindings (R391, R396) -/

/-- TB_CFG of a binding. -/
def State.tileCfg (s : State) (b : Nat) : Word := Sparse.get 0 s.tport.cfg b
/-- EN. -/
def State.tileEn (s : State) (b : Nat) : Bool := (s.tileCfg b).getLsbD 0
/-- SURF. -/
def State.tileSurf (s : State) (b : Nat) : Nat := wbits (s.tileCfg b) 4 1
/-- GID. -/
def State.tileGid (s : State) (b : Nat) : Nat := wbits (s.tileCfg b) 16 5
/-- KSLOT. -/
def State.tileSlot (s : State) (b : Nat) : Nat := wbits (s.tileCfg b) 18 17
/-- CNT. -/
def State.tileCnt (s : State) (b : Nat) : Nat := wbits (s.tileCfg b) 22 19
/-- CLINES. -/
def State.tileClines (s : State) (b : Nat) : Nat := wbits (Sparse.get (0 : Word) s.tport.geom b) 9 0 + 1
/-- DLINES. -/
def State.tileDlines (s : State) (b : Nat) : Nat := wbits (Sparse.get (0 : Word) s.tport.geom b) 19 10
/-- NTILE. -/
def State.tileCount (s : State) (b : Nat) : Nat := wbits (Sparse.get (0 : Word) s.tport.geom b) 31 20 + 1
/-- IN_REF. -/
def State.tileIn (s : State) (b : Nat) : Nat := wbits (Sparse.get (0 : Word) s.tport.refs b) 15 0
/-- OUT_REF. -/
def State.tileOut (s : State) (b : Nat) : Nat := wbits (Sparse.get (0 : Word) s.tport.refs b) 31 16
/-- DSEQ. -/
def State.tileDseq (s : State) (b : Nat) : Nat := wbits (Sparse.get (0 : Word) s.tport.dseq b) 15 0

/-- The check at a fire: IN_REF and OUT_REF in the core of slot KSLOT (R391). -/
def State.tileOk (s : State) (g : Group) (b : Nat) : Bool :=
  let k := s.core (g.core (s.tileSlot b))
  let ctx := s.slotCtx g (s.tileSlot b)
  decide (s.tileSlot b < g.nslot) && k.refGood ctx (s.tileIn b) && k.refGood ctx (s.tileOut b)
    && decide (s.tileCount b * (s.tileClines b + s.tileDlines b) * 64 ≤ hExt (k.entry (s.tileIn b)))
    && decide (s.tileCount b * (s.tileClines b + ceilDiv (s.tileClines b) 8) * 64 ≤ hExt (k.entry (s.tileOut b)))

/-- Disables a tile-port binding and raises TP_BIND. -/
def State.disableTile (s : State) (b : Nat) : State :=
  ({ s with tport := { s.tport with cfg := s.tport.cfg.set 0 b (s.tileCfg b &&& ~~~1#32) } }).raise pgTport 4

/-! ## Tile reads (R390, R392) -/

/-- Gives waiting reads the free tags 0 to 63 in their order. -/
def assignTags (all : List TileRead) : List TileRead → List Nat → List TileRead
  | [], _ => []
  | r :: rest, used =>
    if r.tag < 64 then r :: assignTags all rest used
    else
      match (List.range 64).find? fun t => !used.contains t with
      | some t => { r with tag := t } :: assignTags all rest (t :: used)
      | none => r :: assignTags all rest used

/-- Issues the waiting tile reads that a tag allows. -/
def State.issueTiles (s : State) : State :=
  let used := (s.tport.reads.filter fun r => decide (r.tag < 64)).map (·.tag)
  { s with tport := { s.tport with reads := assignTags s.tport.reads s.tport.reads used } }

/-- Asks for the lines of a tile of a frame for one binding, colour before depth (R392). -/
def State.readTile (s : State) (b gid n tile : Nat) : State :=
  let n' := s.tileClines b + s.tileDlines b
  ({ s with tport := { s.tport with
      reads := s.tport.reads ++ tab n' fun l => (⟨64, b, gid, n, tile, l, false⟩ : TileRead)
      partials := s.tport.partials ++ [(b, gid, n, tile, n')] } }).issueTiles

/-- Tiles of a frame that have landed for the bindings that name counter `c` (R185, R392). -/
def State.tilesLanded (s : State) (binds : List Nat) (gid n c : Nat) : Nat :=
  (s.tport.landed.filter fun (b, g, f, _) =>
    g == gid && f == n && binds.contains b && s.tileCnt b == c).length

/-- Counters of a frame at its start and restart: 0, or the tiles already landed (R185). -/
def State.startCounters (s : State) (gid : Nat) (f : Frame) : Sparse Nat :=
  (List.range 16).foldl (fun m c => Sparse.set 0 m c (min 0xFFFF (s.tilesLanded f.tiles gid f.n c))) []

/-- Tiles of the frame that has become the oldest are read now (R392). -/
def State.openTiles (s : State) (gid n : Nat) : State :=
  let now := s.tport.queued.filter fun (_, g, f, _) => g == gid && f == n
  let s := { s with tport := { s.tport with queued := s.tport.queued.filter fun (_, g, f, _) => !(g == gid && f == n) } }
  now.foldl (fun t (b, g, f, tile) => t.readTile b g f tile) s

/-! ## Tile writes and acknowledges (R393, R394) -/

/-- Inserts a binding by ascending TW_DSEQ. -/
def insertDseq (key : Nat → Nat) (b : Nat) : List Nat → List Nat
  | [] => [b]
  | x :: xs => if key b < key x then b :: x :: xs else x :: insertDseq key b xs

/-- TW_DSEQ of a binding. -/
def State.twDseq (s : State) (b : Nat) : Nat := s.tileDseq b * 4 + s.tileSlot b

/-- The lines that one binding writes for a tile; a line whose strobes are all zero is not sent. -/
def State.tileLines (s : State) (g : Group) (surf b tile : Nat) : List TileWrite :=
  let k := s.core (g.core (s.tileSlot b))
  let e := k.entry (s.tileOut b)
  let cl := s.tileClines b
  let base := tile * (cl + ceilDiv cl 8) * 64
  (tab cl fun l =>
    let strobe := k.rd e (base + cl * 64 + 8 * l) 8
    if strobe.all (· == 0) then []
    else [(⟨surf, tile, l, k.rd e (base + 64 * l) 64, strobe, s.twDseq b⟩ : TileWrite)]).flatten

/-- Acknowledges a tile (R393, R394); a NONE counts, and raises TP_LATE at or after the deadline. -/
def State.ackTile (s : State) (surf gid n tile : Nat) (wrote late : Bool) : State :=
  let s := { s with tport := { s.tport with acks := s.tport.acks ++ [(surf, tile, wrote)],
                                            acked := s.tport.acked ++ [(surf, gid, n, tile)],
                                            noneCnt := if wrote then s.tport.noneCnt else satWord s.tport.noneCnt 1 } }
  s.raiseIf (!wrote && late) pgTport 2

/-- Writes a tile of a committed frame and acknowledges it. -/
def State.writeTile (s : State) (gid : Nat) (g : Group) (binds : List Nat) (n surf tile : Nat) : State :=
  let mine := binds.filter fun b => s.tileSurf b == surf && decide (tile < s.tileCount b)
  let order := mine.foldl (fun l b => insertDseq s.twDseq b l) []
  let ws := (order.map fun b => s.tileLines g surf b tile).flatten
  ({ s with tport := { s.tport with writes := s.tport.writes ++ ws } }).ackTile surf gid n tile true false

/-- The resolves that wait for a frame are answered: written when it committed in time, NONE otherwise. -/
def State.answerResolves (s : State) (gid : Nat) (g : Group) (binds : List Nat) (n : Nat) (ok late : Bool) : State :=
  let mine := s.tport.resolves.filter fun (_, x, f, _) => x == gid && f == n
  let s := { s with tport := { s.tport with resolves := s.tport.resolves.filter fun (_, x, f, _) => !(x == gid && f == n) } }
  mine.foldl (fun t (surf, _, _, tile) =>
    if ok then t.writeTile gid g binds n surf tile else t.ackTile surf gid n tile false late) s

/-- Are all tiles of a finished frame acknowledged (R393)? -/
def State.tilesAcked (s : State) (gid : Nat) (t : TileFrame) : Bool :=
  t.binds.all fun b => (List.range (s.tileCount b)).all fun i => s.tport.acked.contains (s.tileSurf b, gid, t.n, i)

end Sys2Proof.Machine
end

