-- ==== Sys2Proof/Machine/Flags.lean ====
section
/-! DEFINITION. What an instruction leaves beside its results: the NaN trap (R127 to R129), exponent histograms (R130,
R131), the summary record (R109), and the identity of what a core runs. -/

namespace Sys2Proof.Machine

/-! ## What a core runs -/

/-- The stream or ring number that records carry (R193, R129). -/
def Run.id : Run → Nat
  | .idle => 0
  | .frame gid _ _ => gid
  | .job ring _ => ring

/-- Is it a best-effort job? -/
def Run.be : Run → Bool
  | .job _ _ => true
  | _ => false

/-- The logical slot. -/
def Run.slot : Run → Nat
  | .idle => 0
  | .frame _ _ k => k
  | .job _ k => k

/-- The frame number; 0 for a job (R129). -/
def Run.frameNo : Run → Nat
  | .frame _ n _ => n
  | _ => 0

/-! ## NaN trap -/

/-- UNIT code (R129). -/
def NanUnit.code : NanUnit → Nat
  | .arrays => 0 | .vx => 1 | .fx => 2 | .conversion => 3

/-- Does event `a` come before event `b`: earlier, or in one CCLK by unit order and then lane (R127)? -/
def NanEv.before (a b : NanEv) : Bool :=
  decide (a.time < b.time) || (a.time == b.time && (decide (a.unit.code < b.unit.code)
    || (a.unit == b.unit && decide (a.lane < b.lane))))

/-- The first of a list of events. -/
def firstNan : List NanEv → Option NanEv
  | [] => none
  | e :: rest =>
    match firstNan rest with
    | none => some e
    | some f => some (if f.before e then f else e)

/-- The trap after the recordable NaNs of one instruction: COUNT, and the record when it was free, or when it holds the NaN of a
chained predecessor, `prior`, that came later than one of these (R127, R129). -/
def NanTrap.fill (t : NanTrap) (off ctx id : Nat) (be : Bool) (frame : Nat) (prior : Option NanEv) (evs : List NanEv) : NanTrap :=
  let count := satAdd 0xFFFF (wbits t.stat 31 16) evs.length
  let first := firstNan evs
  let earlier := match prior, first with | some p, some e => e.before p | _, _ => false
  match (if t.stat.getLsbD 0 && !earlier then none else first) with
  | none => { t with stat := word (t.stat.toNat % 65536 + count * 65536) }
  | some e =>
    { t with
      stat := word (1 + t.stat.toNat % 4 / 2 * 2 + e.unit.code * 4 + b2n e.prop * 16 + e.lane % 128 * 32 + count * 65536)
      instr := word off
      tile := word (e.row % 512 + e.ng % 2048 * 512 + e.kt % 4096 * 1048576)
      mc := word (e.mc % 65536 + ctx * 65536)
      stream := word (id % 4096 + b2n be * 4096)
      frame := word (if be then 0 else frame) }

/-- The NaNs that the trap counts: none with EN = 0, propagated ones only with PROP_EN = 1 (R127). -/
def NanTrap.recordable (t : NanTrap) (evs : List NanEv) : List NanEv :=
  if t.ctrl.getLsbD 0 then evs.filter fun e => !e.prop || t.ctrl.getLsbD 1 else []

/-! ## Histograms -/

/-- The counter of a histogram set that counts y (R130): bins for E = -48 to 15, UNDER, OVER, ZERO, NAN. -/
def histIdx (y : F32) : Nat :=
  match f32v y with
  | .nan => 67
  | .inf _ => 65
  | .fin _ m e =>
    if m = 0 then 66
    else
      let ex := (Nat.log2 m : Int) + e
      if ex < -48 then 64 else if 15 < ex then 65 else (ex + 48).toNat

/-- Counts converted elements in a set whose enable bit is 1, on a configuration that has histograms (R3, R130). -/
def Core.histCount (k : Core) (present : Bool) (set : Nat) (ys : List F32) : Core :=
  if present && k.histCtrl.getLsbD set then
    { k with hist := ys.foldl (fun h y =>
        let i := set * 68 + histIdx y
        Sparse.set 0 h i (satWord (Sparse.get 0 h i) 1)) k.hist }
  else k

/-! ## Summaries (R109) -/

/-- The better of the running winner and a later element by reduce max: NaN loses, a tie keeps the earlier (R47). -/
def redMax (m v : F32) : F32 :=
  if f32IsNan v then m else if f32IsNan m then v else if f32Cmp m < f32Cmp v then v else m

/-- The sum of one vector's counted lanes by R77 and R78, added to the running sum; maximum; counts. -/
def Summ.add (s : Summ) (vals : List F32) : Summ :=
  if vals.isEmpty then s
  else
    { sum := f32Add s.sum (groupSum (vals.map f32v))
      max := vals.foldl redMax s.max
      count := (s.count + (vals.filter fun v => !f32IsZero v && !f32IsNan v).length) % 2 ^ 32
      anyNan := s.anyNan || vals.any f32IsNan }

/-- The empty record with MAX as a NaN, which every counted number replaces (R47, R109). -/
def Summ.start : Summ := { max := f32Nan }

/-- The summary of a chain over the counted lanes of its vectors, in issue order. -/
def summarise (vecs : List (List F32)) : Summ :=
  if vecs.all List.isEmpty then {} else vecs.foldl Summ.add Summ.start

/-! ## Conversion of an output tensor (R56, R179) -/

/-- An element on its way to conversion: lane, matrix, row, column, value, and its schedule and place for the trap. -/
structure OutEl where
  lane : Nat
  mat : Nat
  row : Nat
  col : Nat
  x : F32
  time : Nat
  trow : Nat := 0
  ng : Nat := 0
  mc : Nat := 0
  deriving DecidableEq, Repr

/-- The largest finite magnitude of each block (R52). -/
def blockAmax (cv : Conv) (R C : Nat) (els : List OutEl) : Sparse F32 :=
  els.foldl (fun m e =>
    let y := cv.y e.col e.x
    if f32IsFin y then
      let i := blockIdx cv.bsize cv.bcols R C e.mat e.row e.col
      Sparse.put m i (f32Max (Sparse.get 0 m i) (f32Abs y))
    else m) []

/-- The block's scale code (R52, R53). -/
def Conv.scaleCode (cv : Conv) (amax : Sparse F32) (i : Nat) : Nat :=
  chooseScale (cv.bscale == 1) cv.f (f32v (Sparse.get 0 amax i))

/-- The NaN that a conversion met: produced by step 1 or by the range step, or propagated (R57, R127). -/
def convNan (cv : Conv) (e : OutEl) (y : F32) (code : Nat) (scale : Option FV) : Option NanEv :=
  let ev (p : Bool) : NanEv := ⟨e.time, .conversion, e.lane, p, e.trow, e.ng, 0xFFF, e.mc⟩
  let args := e.x :: ((cv.s.map (· e.col)).toList ++ (cv.b.map (· e.col)).toList)
  if f32IsNan y then some (ev (args.any f32IsNan))
  else if cv.f != .pair32 && (cv.f.decode code).isNan then some (ev (match scale with | some s => s.isNan | none => false))
  else none

/-- What converting an output leaves: core, generators, NaN events. -/
structure ConvOut where
  k : Core
  gens : Sparse DWord
  nans : List NanEv := []

/-- Converts the elements in their order, each drawing from its lane when rounding is stochastic (R59 to R63), and
writes them to the output buffer `e` of matrices with R rows and C columns. -/
def convertEls (cv : Conv) (e : DWord) (R C : Nat) (amax : Sparse F32) : List OutEl → ConvOut → ConvOut
  | [], o => o
  | el :: rest, o =>
    let y := cv.y el.col el.x
    let scale := if cv.bscale = 0 then none
      else some (scaleValue (cv.bscale == 1) (cv.scaleCode amax (blockIdx cv.bsize cv.bcols R C el.mat el.row el.col)))
    let g := if cv.stoch then xorshift (Sparse.get 0 o.gens el.lane) else 0
    let gens := if cv.stoch then o.gens.put el.lane g else o.gens
    let code := cv.code (if cv.stoch then .stoch (drawBits g) else .rne) scale y
    let k := o.k.putOut e cv.f C (el.mat * R + el.row) el.col code
    convertEls cv e R C amax rest ⟨k, gens, o.nans ++ (convNan cv el y code scale).toList⟩

/-- Writes the scale bytes of a block-scaled output. -/
def writeScales (cv : Conv) (osc : DWord) (n : Nat) (amax : Sparse F32) (k : Core) : Core :=
  (List.range n).foldl (fun k i => k.wrN osc i 1 (cv.scaleCode amax i)) k

/-- A whole output tensor: scales, elements, histogram (R49, R56, R130). -/
def convertOut (cv : Conv) (hist : Bool) (hset : Nat) (e : DWord) (osc : DWord) (mats R C : Nat) (els : List OutEl)
    (o : ConvOut) : ConvOut :=
  let amax := if cv.bscale = 0 then [] else blockAmax cv R C els
  let k := if cv.bscale = 0 then o.k else writeScales cv osc (mats * blockCount cv.bsize cv.bcols R C) amax o.k
  let k := k.histCount hist hset (els.map fun el => cv.y el.col el.x)
  convertEls cv e R C amax els { o with k := k }

end Sys2Proof.Machine
end

