-- ==== Sys2Proof/Machine/Validate.lean ====
section
/-! DEFINITION. Validation of an instruction in the order of R191, at load (R161) and at issue, with the tables of R164 to
R189, the chain checks of R102 to R105, the step-program checks of R140 to R144 and the slot checks of R133 to R135. -/

namespace Sys2Proof.Machine

/-- Mode and tag of an array as validation sees them (R168). -/
structure ArrView where
  quad : Bool
  tag : Option PlaneTag
  deriving DecidableEq, Repr

/-- What validation of instruction `i` of a program looks at. -/
structure VCtx where
  /-- The core whose tables and SPD are read, and its number. -/
  k : Core
  core : Nat
  conf : Conf
  ctx : Nat
  /-- Program reference, instruction count, and the instruction words by index. -/
  prog : Nat
  ninst : Nat
  word : Nat → IWord
  i : Nat
  hqs : Sparse HQueue
  arr : List ArrView
  issue : Bool
  me : Run
  chain : Option Chained

/-- The word under validation. -/
def VCtx.w (v : VCtx) : IWord := v.word v.i

/-- Is the bit span [lo, lo + n) of the word zero? -/
def spanZero (w : IWord) (lo n : Nat) : Bool := nbits w lo n == 0

/-- Spans of bits that a layout leaves reserved (R163, R167, R172, R173, R182, R185, R187). -/
def reservedSpans : Op → List (Nat × Nat)
  | .nop => [(11, 245)]
  | .endOp => [(11, 245)]
  | .loadw => [(16, 16), (8 * 6, 16), (8 * 16 + 4, 256 - 132)]
  | .matmul => [(13, 19), (8 * 18 + 12, 4), (8 * 21, 24), (8 * 28, 32)]
  | .matvec => [(15, 17), (8 * 18 + 12, 4), (8 * 21, 24), (8 * 28, 32)]
  | .recur => [(11, 21), (8 * 29, 24)]
  | .scan => [(13, 19), (8 * 22 + 1, 15), (8 * 29, 24)]
  | .lconv => [(11, 21), (8 * 29, 24)]
  | .gate => [(14, 18), (8 * 22 + 4, 12), (8 * 28, 32)]
  | .func => [(22, 10), (8 * 10, 16), (8 * 17, 24), (8 * 20 + 4, 28), (8 * 28, 32)]
  | .reduce => [(13, 19), (8 * 14, 16), (8 * 19, 8), (8 * 21 + 4, 84)]
  | .convert => [(11, 21), (8 * 10, 16), (8 * 16 + 4, 60), (8 * 28, 32)]
  | .move => [(11, 21), (8 * 28 + 13, 19)]
  | .qpush => [(11, 21), (8 * 8 + 6, 10), (8 * 12, 160)]
  | .qpop => [(11, 21), (32, 32), (8 * 8 + 6, 10), (8 * 10 + 2, 8 * 18 - 2), (8 * 30, 16)]
  | .wait => [(11, 21), (36, 12), (8 * 10, 176)]
  | .signal => [(11, 21), (36, 4), (48, 208)]
  | .branch => [(19, 13), (8 * 12, 160)]
  | .summary => [(16, 16), (64, 192)]

/-- Which instructions have converted outputs, so that HSET may be non-zero (R163). -/
def Op.converts : Op → Bool
  | .matmul => true | .matvec => true | .recur => true | .scan => true | .lconv => true | .gate => true
  | .func => true | .convert => true
  | _ => false

/-- What a layout says of a handle field. -/
inductive Need where
  | must | may | mustNull
  deriving DecidableEq, Repr

/-- The handle fields of an instruction in ascending byte offset, with what its other fields make of them. -/
def handleFields (w : IWord) (o : Op) : List (Nat × Need) :=
  let h (b : Nat) : Nat := IWord.by w b 2
  let insrc := IWord.w0 w 12 11
  let inNeed : Need := if insrc = 1 then .must else if insrc = 3 then .may else .mustNull
  match o with
  | .loadw => [(h 4, .must)]
  | .matmul => [(h 4, .must), (h 6, .must), (h 8, .must), (h 10, .may)]
  | .matvec => [(h 4, .must), (h 6, .must), (h 8, .must), (h 10, .may)]
  | .recur => [(h 4, .must), (h 6, .must), (h 8, .must), (h 10, .must), (h 12, .must), (h 14, .may)]
  | .scan => [(h 4, .must), (h 6, .must), (h 8, .must), (h 10, .must), (h 12, .may), (h 14, .may)]
  | .lconv => [(h 4, .must), (h 6, .must), (h 8, .must), (h 10, .must), (h 12, .may), (h 14, .may)]
  | .gate => [(h 4, .must), (h 6, inNeed), (h 8, .may), (h 10, .may), (h 12, .may), (h 14, .may)]
  | .func =>
    let mask := IWord.w0 w 15 14
    [(h 4, inNeed), (h 6, if mask = 3 then .must else if mask = 0 then .mustNull else .may),
     (h 8, if IWord.w0 w 13 13 = 1 then .may else .must)]
  | .reduce =>
    let src := IWord.w0 w 12 11
    [(h 4, if src = 0 then .must else if src = 1 then .mustNull else .may), (h 6, .must),
     (h 8, if nbits w 160 4 = 0 then .mustNull else .may), (h 10, .may)]
  | .convert => [(h 4, .must), (h 6, .must), (h 8, .may)]
  | .move =>
    [(h 4, if nbits w 224 1 = 1 then .mustNull else .must), (h 6, if nbits w 227 1 = 1 then .mustNull else .must)]
  | .qpush => [(h 4, .must)]
  | .summary => [(h 4, if IWord.w0 w 15 15 = 1 then .must else .mustNull)]
  | _ => []

/-- Step 2: reserved bits, HSET, null rules and the field rules that draw BAD_FIELD. -/
def badField (w : IWord) (o : Op) : Bool :=
  (reservedSpans o).any (fun s => !spanZero w s.1 s.2)
  || (!o.converts && IWord.hset w != 0)
  || (handleFields w o).any (fun f => f.2 == .mustNull && !refNull f.1)
  || match o with
    | .loadw => IWord.w0 w 15 12 == 0
    | .gate => IWord.w0 w 12 11 != 0 && IWord.by w 18 2 != 0
    | .func => IWord.w0 w 12 11 != 0 && IWord.by w 14 2 != 0
    | .reduce => decide (nbits w 160 4 ≤ 2) && nbits w 164 4 != 0
    | .summary => IWord.w0 w 14 13 == 0 && IWord.w0 w 15 15 == 0
    | .branch =>
      let field := IWord.w0 w 15 13
      let pred := IWord.w0 w 18 16
      decide (4 < field) || decide (5 < pred)
        || (field == 4 && (IWord.w0 w 12 11 != 0 || pred != 0 || IWord.by w 4 4 != 0))
        || (IWord.by w 8 2 != 0 && decide (IWord.by w 8 2 < 0x8000) && IWord.by w 10 2 != 0)
    | _ => false

/-- The token register that a MOVE names (R182). -/
def VCtx.token (v : VCtx) : DWord := Sparse.get 0 v.k.csq.tokens (nbits v.w 225 2)

/-- Step 3 over the instruction's own fields. -/
def badHandle (v : VCtx) (o : Op) : Bool :=
  (handleFields v.w o).any fun f => (f.2 == .must && refNull f.1) || (!refNull f.1 && v.k.refBad v.ctx f.1)

/-- Step 4 over the instruction's own fields. -/
def staleHandle (v : VCtx) (o : Op) : Bool :=
  (handleFields v.w o).any fun f => !refNull f.1 && v.k.refStale f.1

/-- The formats that VX, FX and the reduce unit widen (R33). -/
def vxFmt (c : Nat) : Bool := decide (c ≤ 5)

/-- Is a pair of array operand formats allowed in one pass (R67)? -/
def sameWidth (a w : Nat) : Bool :=
  match Fmt.ofCode a, Fmt.ofCode w with
  | some f, some g => f.arrayWidth != 0 && f.arrayWidth == g.arrayWidth
  | _, _ => false

/-- Can a format be an array operand in some pass mode: FP32 in parts, or an array format (R33, R90)? -/
def arrayFmt (c : Nat) : Bool := c == 0 || (match Fmt.ofCode c with | some f => f.arrayWidth != 0 | none => false)

/-- R90: the formats of a PASSES code; the reserved code is refused as a mode, over formats that an array can take (R31, R33). -/
def passesFmtOk (p a w : Nat) : Bool :=
  match p with
  | 0 => sameWidth a w
  | 1 => a == 0 && w == 1
  | 2 => a == 0 && w == 0
  | _ => arrayFmt a && arrayFmt w

/-- Is a format short by code (R30)? -/
def shortFmt (c : Nat) : Bool := c == 3 || c == 4 || c == 5

/-! ## Step programs (R140) -/

/-- A step program as its descriptor spells it. -/
structure StepProg where
  ver : Nat
  form : Nat
  flags : Nat
  nsr : Nat
  fbrow : Nat
  rsv : Nat
  fxa : Nat
  fxb : Nat
  hdrA : Nat
  hdrB : Nat
  ks : List F32
  stA : List Nat
  stB : List Nat
  deriving DecidableEq, Repr

/-- NSTG of a chain header (R103). -/
def hdrN (h : Nat) : Nat := nbits h 0 4

/-- Reads a step program. -/
def Core.readStep (k : Core) (ref : Nat) : StepProg :=
  let e := k.entry ref
  let g (o n : Nat) : Nat := k.rdN e o n
  let ha := g 16 8
  let hb := g 24 8
  { ver := g 0 2, form := g 2 1, flags := g 3 1, nsr := g 4 1, fbrow := g 5 1, rsv := g 6 2 + g 12 4, fxa := g 8 3,
    fxb := g 11 1, hdrA := ha, hdrB := hb, ks := tab 8 fun i => word (g (32 + 4 * i) 4)
    stA := tab (hdrN ha) fun s => g (64 + 8 * s) 8
    stB := tab (hdrN hb) fun s => g (64 + 8 * (hdrN ha + s)) 8 }

/-- WIDE. -/
def StepProg.wide (p : StepProg) : Bool := nbits p.flags 0 1 == 1
/-- FB2. -/
def StepProg.fb2 (p : StepProg) : Bool := nbits p.flags 1 1 == 1
/-- FXB.NONE. -/
def StepProg.noFxb (p : StepProg) : Bool := nbits p.fxb 6 1 == 1
/-- The function select of quarter a. -/
def StepProg.fxaSel (p : StepProg) (a : Nat) : Nat := nbits p.fxa (6 * a) 6
/-- The step period P of R144. -/
def StepProg.period (p : StepProg) : Nat :=
  22 + b2n p.fb2 + 4 * (hdrN p.hdrA + hdrN p.hdrB) + 12 * (1 - b2n p.noFxb)

/-- K-tile of a RECUR: with FB2 the parts are BF16 (R145). -/
def recurKt (w : IWord) (p : StepProg) : Nat := if p.fb2 then 32 else ktOf (fmtOr (nbits w 224 4)) false

/-! ## Chains (R103 to R106) -/

/-- Does a stage read operand c or only a and b, or neither? Operands read by an operation (R104). -/
def stageReads (st : Nat) : List Nat :=
  let ops := [nbits st 8 16, nbits st 24 16, nbits st 40 16]
  match nbits st 0 4 with
  | 2 => ops
  | 4 => ops
  | _ => ops.take 2

/-- SRC of an operand. -/
def opSrc (o : Nat) : Nat := nbits o 0 3
/-- IDX of an operand. -/
def opIdx (o : Nat) : Nat := nbits o 3 3

/-- Is a stage word well formed as stage `s` (R104, R105)? -/
def stageOk (s st : Nat) : Bool :=
  decide (nbits st 0 4 ≤ 6) && (if nbits st 0 4 = 3 then decide (nbits st 4 3 ≤ 5) else nbits st 4 3 == 0)
  && nbits st 7 1 == 0 && nbits st 56 8 == 0
  && (stageReads st).all fun o =>
    nbits o 10 6 == 0 && decide (opSrc o ≤ 5)
      && (opSrc o != 0 || decide (opIdx o < s))
      && (!(opSrc o == 1 || opSrc o == 2 || opSrc o == 3) || opIdx o == 0)

/-- Are the stages well formed, counting from stage `s`? -/
def stagesOk : Nat → List Nat → Bool
  | _, [] => true
  | s, st :: rest => stageOk s st && stagesOk (s + 1) rest

/-- Is a chain header well formed (R103)? -/
def hdrOk (h : Nat) : Bool :=
  let n := hdrN h
  decide (1 ≤ n) && decide (n ≤ 8) && decide (nbits h 4 3 < n) && nbits h 7 1 == 0
    && (!(nbits h 8 2 == 1 || nbits h 8 2 == 2) || decide (nbits h 10 3 < n))
    && (nbits h 14 1 == 0 || decide (nbits h 15 3 < n)) && nbits h 23 41 == 0

/-- Does some stage read source `src`? -/
def chainReads (src : Nat) (sts : List Nat) : Bool := sts.any fun st => (stageReads st).any fun o => opSrc o == src

/-- Does every read of a state register stay below `n`? -/
def chainStBelow (n : Nat) (sts : List Nat) : Bool :=
  sts.all fun st => (stageReads st).all fun o => opSrc o != 4 || decide (opIdx o < n)

/-- A chain descriptor in SPD (R102). -/
structure Chain where
  hdr : Nat
  ks : List F32
  sts : List Nat
  deriving DecidableEq, Repr

/-- Reads a chain descriptor. -/
def Core.readChain (k : Core) (ref : Nat) : Chain :=
  let e := k.entry ref
  let h := k.rdN e 0 8
  { hdr := h, ks := tab 8 fun i => word (k.rdN e (8 + 4 * i) 4), sts := tab (hdrN h) fun s => k.rdN e (40 + 8 * s) 8 }

/-- MASK of a header. -/
def Chain.mask (c : Chain) : Nat := nbits c.hdr 8 2
/-- SPD_WR. -/
def Chain.spdWr (c : Chain) : Bool := nbits c.hdr 22 1 == 1
/-- STATE_WR. -/
def Chain.stateWr (c : Chain) : Bool := nbits c.hdr 21 1 == 1
/-- STATE_DST. -/
def Chain.stateDst (c : Chain) : Nat := nbits c.hdr 18 3
/-- SUM_EN. -/
def Chain.sumEn (c : Chain) : Bool := nbits c.hdr 14 1 == 1

/-- Step 10 for a GATE: the descriptor's length, form, and the four handles it decides (R102, R174). DEDUCED (log 82): an NSTG of 0 or 9 to
15 is BAD_CHAIN also when the descriptor is short of that many stages, for the header check needs none of them (R103, R191). -/
def gateChain (v : VCtx) : Nat :=
  let w := v.w
  let ref := IWord.by w 4 2
  let c := v.k.readChain ref
  let used (need : Bool) (b : Nat) : Bool := need == !refNull (IWord.by w b 2)
  if decide (hdrN c.hdr ≤ 8) && decide (hExt (v.k.entry ref) < 40 + 8 * hdrN c.hdr) then stBounds
  else if !hdrOk c.hdr || !stagesOk 0 c.sts || !used (chainReads 2 c.sts) 8 || !used (chainReads 3 c.sts) 10
      || !used (c.mask == 3) 12 || !used c.spdWr 14 then stChain
  else stOk

/-- The first status that is not OK. -/
def firstBad : List Nat → Nat
  | [] => stOk
  | x :: rest => if x = stOk then firstBad rest else x

/-- Status `st` when the check fails. -/
def failIf (b : Bool) (st : Nat) : Nat := if b then st else stOk

/-- Step 10 for a RECUR (R140 to R143). DEDUCED (log 82): NSTG
above 8 is BAD_CHAIN before the extent is asked for, for the header check needs no stage word (R140, R191). -/
def stepChain (v : VCtx) : Nat :=
  let ref := IWord.by v.w 4 2
  let p := v.k.readStep ref
  let na := hdrN p.hdrA
  let nb := hdrN p.hdrB
  let a : Chain := ⟨p.hdrA, p.ks, p.stA⟩
  let b : Chain := ⟨p.hdrB, p.ks, p.stB⟩
  let passOk (sel : Nat) : Bool := nbits sel 5 1 == 0 || nbits sel 0 5 == 0
  if hExt (v.k.entry ref) < 64 + 8 * (na + nb) ∧ na ≤ 8 ∧ nb ≤ 8 then stBounds
  else if p.ver != 0x0100 || p.flags / 4 != 0 || p.rsv != 0 || nbits p.fxb 7 1 != 0
      || !(decide (1 ≤ p.nsr) && decide (p.nsr ≤ 4)) || !decide (p.fbrow < p.nsr)
      || !hdrOk p.hdrA || !hdrOk p.hdrB || !stagesOk 0 p.stA || !stagesOk 0 p.stB
      || !(List.range 4).all (fun i => passOk (p.fxaSel i)) || !(p.noFxb || passOk (nbits p.fxb 0 6))
      || a.mask == 3 || b.mask == 3 || a.sumEn || b.sumEn || a.spdWr || chainReads 3 p.stA
      || !chainStBelow p.nsr p.stA || !chainStBelow p.nsr p.stB
      || (a.stateWr && !decide (a.stateDst < p.nsr)) || !b.stateWr || b.stateDst != p.fbrow then stChain
  else stOk

/-- FX slot contents of a core. -/
def Core.fxContent (k : Core) (i : Nat) : FxContent := (k.fxSlot i).content

/-- Step 11: function selects (R110, R141). -/
def badFunc (v : VCtx) (o : Op) : Bool :=
  let ok (sel : Nat) : Bool := nbits sel 5 1 == 1 || fxUsable v.k.fxContent (nbits sel 0 5)
  match o with
  | .func => !fxUsable v.k.fxContent (IWord.w0 v.w 20 16)
  | .recur =>
    let p := v.k.readStep (IWord.by v.w 4 2)
    !(List.range 4).all (fun a => ok (p.fxaSel a)) || !(p.noFxb || ok (nbits p.fxb 0 6))
  | _ => false

/-! ## State slots (R133 to R135) -/

/-- T of a recurrence instruction. -/
def IWord.recT (w : IWord) : Nat := IWord.by w 16 2
/-- NSTR. -/
def IWord.recN (w : IWord) : Nat := IWord.by w 18 2
/-- D of SCAN, which has a seventeenth bit. -/
def IWord.scanD (w : IWord) : Nat := IWord.by w 20 2 + 65536 * nbits w (8 * 22) 1

/-- A slot header's fields. -/
structure SlotHdr where
  ver : Nat
  mode : Nat
  flags : Nat
  efmt : Nat
  nelem : Nat
  rsv : Bool
  step : Nat
  deriving DecidableEq, Repr

/-- Reads the header of a slot. -/
def Core.slotHdr (k : Core) (e : DWord) : SlotHdr :=
  let g (o n : Nat) : Nat := k.rdN e o n
  { ver := g 0 2, mode := g 2 1, flags := g 3 1, efmt := g 4 1, nelem := g 8 4, step := g 16 8
    rsv := g 5 3 == 0 && g 12 4 == 0 && g 24 40 == 0 && nbits (g 3 1) 4 4 == 0 }

/-- BB: bytes of a bank rounded up to a multiple of 64 (R133). -/
def bankBytes (efmt nelem : Nat) : Nat := ceilDiv ((fmtOr efmt).rowBytes nelem) 64 * 64

/-- References of a slot list. -/
def Core.slotRefs (k : Core) (ref n : Nat) : List Nat := tab n fun j => k.rdN (k.entry ref) (2 * j) 2

/-- What an instruction requires of its slots: MODE, WIDE, EFMT, NELEM. -/
def slotWant (v : VCtx) (o : Op) : Nat × Bool × Nat × Nat :=
  let w := v.w
  match o with
  | .recur =>
    let p := v.k.readStep (IWord.by w 4 2)
    (1, p.wide, if p.wide then 6 else 0, p.nsr * IWord.by w 20 2)
  | .scan =>
    let wd := IWord.w0 w 12 12 == 1
    (2, wd, if wd then 6 else 0, IWord.scanD w)
  | _ => (3, false, nbits w 228 4, (IWord.by w 22 2 - 1) * IWord.by w 20 2)

/-- Does the run that presents the instruction hold the slot's OPEN mark itself (R135)? At a load nothing presents it. -/
def slotMine (v : VCtx) (ref : Nat) : Bool := v.issue && v.k.csq.slots.any fun e => e.1 == refIdx ref

/-- R135 on one slot. -/
def slotBad (v : VCtx) (o : Op) (ref : Nat) : Bool :=
  let e := v.k.entry ref
  let h := v.k.slotHdr e
  let (mode, wide, efmt, nelem) := slotWant v o
  h.ver != 0x0100 || h.mode != mode || h.efmt != efmt || h.nelem != nelem || (nbits h.flags 0 1 == 1) != wide
    || !h.rsv || (nbits h.flags 3 1 == 1 && !slotMine v ref) || hLayout e != 3

/-- Does a slot's extent fall short (R135)? -/
def slotShort (v : VCtx) (ref : Nat) : Bool :=
  let e := v.k.entry ref
  let h := v.k.slotHdr e
  decide (hExt e < 64 + (if nbits h.flags 2 1 = 1 then 3 else 2) * bankBytes h.efmt h.nelem)

/-- Step 12: the slot list (R135, R172, R191). DESIGN CHOICE (log 82): each check runs over the whole list before the next one; the spec
orders the checks of one entry and not the entries. -/
def slotStep (v : VCtx) (o : Op) : Nat :=
  let w := v.w
  match o with
  | .recur => go (IWord.by w 12 2) (IWord.recN w)
  | .scan => go (IWord.by w 10 2) (IWord.recN w)
  | .lconv => go (IWord.by w 10 2) (IWord.recN w)
  | _ => stOk
where
  /-- The checks on a list of `n` references. -/
  go (lst n : Nat) : Nat :=
    if hExt (v.k.entry lst) < 2 * n then stBounds
    else
      let refs := v.k.slotRefs lst n
      firstBad
        [ failIf (refs.any fun r => refNull r || v.k.refBad v.ctx r) stHandle
        , failIf (refs.any fun r => v.k.refStale r) stStale
        , failIf (refs.any (slotBad v o)) stSlot
        , failIf (decide ((refs.map refIdx).eraseDups.length < n)) stSlot
        , failIf (refs.any (slotShort v)) stBounds ]

/-! ## Steps 6 to 9 -/

/-- Formats of the instruction's own fields (R30, R33, R67, R90, R149, R177). -/
def badFormats (v : VCtx) (o : Op) : Bool :=
  let w := v.w
  match o with
  | .loadw => (match Fmt.ofCode (nbits w 128 4) with | some f => f.arrayWidth == 0 | none => true)
  | .matmul => decide (7 < IWord.afmt w) || decide (7 < IWord.wfmt w) || !passesFmtOk (IWord.passes w) (IWord.afmt w) (IWord.wfmt w)
  | .matvec => decide (7 < IWord.afmt w) || decide (7 < IWord.wfmt w) || !passesFmtOk (IWord.passes w) (IWord.afmt w) (IWord.wfmt w)
  | .recur =>
    let p := v.k.readStep (IWord.by w 4 2)
    !(if p.fb2 then nbits w 224 4 == 0 && nbits w 228 4 == 1 else sameWidth (nbits w 224 4) (nbits w 228 4))
  | .scan => !vxFmt (nbits w 224 4) || !vxFmt (nbits w 228 4)
  | .lconv => !sameWidth (nbits w 228 4) (nbits w 224 4)
  | .gate => !vxFmt (nbits w 168 4) || !vxFmt (nbits w 172 4) || !vxFmt (nbits w 176 4)
  | .func => !vxFmt (nbits w 160 4)
  | .reduce => !vxFmt (nbits w 168 4)
  | .convert => decide (6 < nbits w 128 4)
  | _ => false

/-- The formats that an extension block's scales apply to: first and second operand. -/
def scaledFmts (w : IWord) (o : Op) : Option Nat × Option Nat :=
  match o with
  | .matmul => (some (IWord.afmt w), some (IWord.wfmt w))
  | .matvec => (some (IWord.afmt w), if IWord.res w then none else some (IWord.wfmt w))
  | .scan => (some (nbits w 224 4), some (nbits w 228 4))
  | .lconv => (some (nbits w 228 4), some (nbits w 224 4))
  | .reduce => (some (nbits w 168 4), none)
  | .convert => (some (nbits w 128 4), none)
  | _ => (none, none)

/-- Is a block-scale byte of an operand refused (R48, R49, R171)? -/
def badScale (byte : Nat) (fmt : Option Nat) (ref : Nat) : Bool :=
  nbits byte 0 2 != 0
    && (nbits byte 0 2 == 3 || refNull ref || (match fmt with | some f => !shortFmt f | none => true))

/-- Step 6. -/
def badFormat (v : VCtx) (o : Op) : Bool :=
  let w := v.w
  let x := v.k.readXb (IWord.xbRef w)
  let c := IWord.ccw w
  let (fa, fb) := scaledFmts w o
  badFormats v o
  || (o.hasCcw && (decide (6 < ccwFmt c) || ccwBscale c == 3 || (ccwBscale c != 0 && !shortFmt (ccwFmt c))
      || (ccwBscale c != 0 && refNull x.osc)))
  || badScale x.abs fa x.asc || badScale x.wbs fb x.wsc
  || (!refNull x.sH && hFmt (v.k.entry x.sH) != 0) || (!refNull x.bH && hFmt (v.k.entry x.bH) != 0)
  || ((o == .matmul || o == .matvec) && IWord.spillP w != 0 && !refNull x.spill && hFmt (v.k.entry x.spill) != 6)

/-- Step 7 (R55, R58, R171). -/
def badConvert (v : VCtx) (o : Op) : Bool :=
  let w := v.w
  let x := v.k.readXb (IWord.xbRef w)
  let c := IWord.ccw w
  (o.hasCcw && (decide (1 < ccwRound c) || (nbits c 7 1 == 1 && ccwFmt c != 0) || nbits c 16 16 != 0
      || (ccwRound c != 0 && (ccwFmt c == 0 || ccwFmt c == 6))
      || (nbits c 8 3 != 0 && refNull (IWord.xbRef w))
      || (nbits c 10 1 == 1 && (f32IsNan x.lo || f32IsNan x.hi || decide (f32Order x.hi < f32Order x.lo)))))
  || (nbits x.flags 0 1 == 1 && refNull x.sH) || (nbits x.flags 1 1 == 1 && refNull x.bH)

/-- Handles of the buffers an instruction writes, its extension block included (R162, R181, R205). -/
def writtenRefs (k : Core) (w : IWord) : List Nat :=
  let h (b : Nat) : Nat := IWord.by w b 2
  let x := k.readXb (IWord.xbRef w)
  let osc := if ccwBscale (IWord.ccw w) = 0 then [] else [x.osc]
  let sp := if IWord.spillP w = 0 then [] else [x.spill]
  let raw := match IWord.opc w with
    | some .matmul => [h 8] ++ osc ++ sp
    | some .matvec => [h 8] ++ osc ++ sp
    | some .recur => [h 10] ++ (if (k.readStep (h 4)).form = 2 then [h 8] else []) ++ k.slotRefs (h 12) (IWord.recN w)
    | some .scan => [h 8] ++ osc ++ k.slotRefs (h 10) (IWord.recN w)
    | some .lconv => [h 8] ++ osc ++ k.slotRefs (h 10) (IWord.recN w)
    | some .gate => [h 14]
    | some .func => [h 8]
    | some .reduce => [h 6, h 8]
    | some .convert => [h 6] ++ osc
    | some .move => if nbits w 227 1 = 1 then [] else [h 6]
    | some .summary => [h 4]
    | _ => []
  raw.filter fun r => !refNull r

/-- Handles of the buffers that the possible producers of a fusion read (R181). -/
def readRefs (k : Core) (w : IWord) : List Nat :=
  let h (b : Nat) : Nat := IWord.by w b 2
  let x := k.readXb (IWord.xbRef w)
  let xb := [IWord.xbRef w, x.sH, x.bH, x.asc, x.wsc]
  let raw := match IWord.opc w with
    | some .matmul => [h 4, h 6] ++ xb
    | some .matvec => [h 4, h 6] ++ xb
    | some .gate => [h 4, h 6, h 8, h 10, h 12]
    | some .func => [h 4, h 6]
    | some .convert => [h 4] ++ xb
    | _ => []
  raw.filter fun r => !refNull r

/-- The output that a fused consumer may read (R181). -/
def fuseOut (w : IWord) : Option Nat :=
  match IWord.opc w with
  | some .matmul => some (IWord.by w 8 2)
  | some .matvec => some (IWord.by w 8 2)
  | some .gate => some (IWord.by w 14 2)
  | some .func => some (IWord.by w 8 2)
  | some .convert => some (IWord.by w 6 2)
  | _ => none

/-- The row inputs of a fused consumer (R181). -/
def fuseIn (w : IWord) : List Nat :=
  match IWord.opc w with
  | some .matmul => [IWord.by w 4 2]
  | some .matvec => [IWord.by w 4 2]
  | some .gate => [IWord.by w 6 2, IWord.by w 8 2, IWord.by w 10 2]
  | some .func => [IWord.by w 4 2]
  | some .convert => [IWord.by w 4 2]
  | some .reduce => if IWord.w0 w 12 11 = 0 then [IWord.by w 4 2] else []
  | _ => []

/-- Is FUSE = 1 allowed (R181)? -/
def fuseOk (v : VCtx) : Bool :=
  if v.i ≤ 1 then false
  else
    let p := v.word (v.i - 1)
    match fuseOut p with
    | none => false
    | some out =>
      !refNull out && (fuseIn v.w).any (fun r => refIdx r == refIdx out)
        && (writtenRefs v.k v.w).all fun r =>
          !((readRefs v.k p ++ writtenRefs v.k p).any fun q => refIdx q == refIdx r)

/-- ROWS and W of a GATE or FUNC. -/
def vecRows (w : IWord) (o : Op) : Nat := if o = .gate then IWord.by w 16 2 else IWord.by w 12 2
/-- W of a GATE or FUNC. -/
def vecW (w : IWord) (o : Op) : Nat := if o = .gate then IWord.by w 20 1 else IWord.by w 16 1

/-- ROWS and W that the instruction before hands on when it is CHAINED (R175); at issue, what it did hand on. -/
def chainedFrom (v : VCtx) (allowGate : Bool) : Option (Nat × Nat) :=
  if v.issue then v.chain.map fun c => (c.rows, c.w)
  else if v.i ≤ 1 then none
  else
    let p := v.word (v.i - 1)
    match IWord.opc p with
    | some .func => if IWord.w0 p 13 13 = 1 then some (vecRows p .func, vecW p .func) else none
    | some .gate => if allowGate && IWord.w0 p 13 13 = 1 then some (vecRows p .gate, vecW p .gate) else none
    | _ => none

/-- Is the instruction after a CHAINED one a fitting successor (R175)? -/
def successorOk (v : VCtx) (o : Op) : Bool :=
  if v.ninst ≤ v.i then false
  else
    let n := v.word (v.i + 1)
    let same : Bool := IWord.opc n == some .gate && IWord.w0 n 12 11 == 2
      && vecRows n .gate == vecRows v.w o && vecW n .gate == vecW v.w o
    (IWord.opc n == some .reduce && IWord.w0 n 12 11 == 1) || (o == .func && same)

/-- Byte ranges of the rows of a MOVE meet (R182). -/
def moveOverlap (w : IWord) : Bool :=
  let rows := IWord.by w 8 2
  let n := IWord.by w 10 2
  (List.range rows).any fun r => (List.range rows).any fun q =>
    let a := IWord.by w 12 4 + r * IWord.by w 20 4
    let b := IWord.by w 16 4 + q * IWord.by w 24 4
    decide (a < b + n) && decide (b < a + n)

/-- Does the array view hold a tag for the weight reference? -/
def tagIs (t : Option PlaneTag) (ref : Nat) (kt ng : Option Nat) : Bool :=
  match t with
  | none => false
  | some t => t.ref == ref % 65536 && (match kt with | some x => t.kt == x | none => true)
      && (match ng with | some x => t.ng == x | none => true)

/-- Step 8. -/
def badMode (v : VCtx) (o : Op) : Bool :=
  let w := v.w
  let quads := v.arr.map (·.quad)
  let sp := v.k.readStep (IWord.by w 4 2)
  (writtenRefs v.k w).any (fun r => refIdx r == refIdx v.prog)
  || (IWord.fuse w && !fuseOk v)
  || match o with
    | .matmul => IWord.passes w == 3 || (IWord.spillP w != 0 && refNull (v.k.readXb (IWord.xbRef w)).spill)
        || (quads.any id && !quads.all id)
    | .matvec =>
      IWord.passes w == 3 || (IWord.spillP w != 0 && refNull (v.k.readXb (IWord.xbRef w)).spill)
        || if IWord.res w then
             quads.any id || IWord.spillP w != 0
               || ((List.range 4).any fun a => decide (32 * a < IWord.nCols w)
                    && !tagIs ((v.arr.getD a ⟨false, none⟩).tag) (IWord.by w 6 2) (some 0) (some 0))
               || (IWord.tw w && (IWord.passes w != 0 || !(IWord.wfmt w == 1 || IWord.wfmt w == 2)))
           else IWord.tw w || (quads.any id && !quads.all id)
    | .recur => quads.any id || !(sp.form == 1 || sp.form == 2)
        || (sp.form == 1 && !(v.arr.all fun a => tagIs a.tag (IWord.by w 6 2) none none))
    | .lconv => quads.any id
    | .gate =>
      let insrc := IWord.w0 w 12 11
      insrc == 3
        || (insrc == 2 && chainedFrom v false != some (vecRows w .gate, vecW w .gate))
        || (IWord.w0 w 13 13 == 1 && !successorOk v .gate)
    | .func =>
      decide (1 < IWord.w0 w 12 11) || IWord.w0 w 15 14 == 1 || IWord.w0 w 15 14 == 2
        || (IWord.w0 w 13 13 == 1 && (!refNull (IWord.by w 8 2) || !successorOk v .func))
    | .reduce =>
      decide (1 < IWord.w0 w 12 11) || decide (4 < nbits w 160 4)
        || (decide (2 < nbits w 160 4) && decide (8 < nbits w 164 4))
        || (IWord.w0 w 12 11 == 1 && (chainedFrom v true).isNone)
    | .move =>
      (IWord.by w 24 4 == 0 && decide (1 < IWord.by w 8 2))
        || (nbits w 224 1 == 0 && nbits w 227 1 == 0 && refIdx (IWord.by w 4 2) == refIdx (IWord.by w 6 2) && moveOverlap w)
        || (nbits w 227 1 == 1 && (!decide (nbits w 228 5 < v.conf.cores) || nbits w 228 5 == v.core))
    | .branch => IWord.by w 8 2 == 0
    | _ => false

/-- Is a count outside 1 to `hi`? -/
def outOf (x hi : Nat) : Bool := x == 0 || decide (hi < x)

/-- Step 9 (R125, R144, R155, R165, R167, R174, R176, R186, R189). -/
def badShape (v : VCtx) (o : Op) : Bool :=
  let w := v.w
  let quad := (v.arr.map (·.quad)).any id
  let sp := v.k.readStep (IWord.by w 4 2)
  match o with
  | .loadw =>
    let kt := ktOf (fmtOr (nbits w 128 4)) (IWord.w0 w 11 11 == 1)
    IWord.by w 8 2 == 0 || IWord.by w 10 2 == 0 || decide (ceilDiv (IWord.by w 8 2) kt ≤ IWord.by w 12 2)
      || decide (ceilDiv (IWord.by w 10 2) 128 ≤ IWord.by w 14 2)
  | .matmul => IWord.mRows w == 0 || IWord.nCols w == 0 || IWord.kDim w == 0
  | .matvec =>
    outOf (IWord.mRows w) (if quad then 256 else 512) || IWord.nCols w == 0 || IWord.kDim w == 0
      || (IWord.res w && (decide (ktOf (if IWord.passes w = 0 then fmtOr (IWord.afmt w) else .bf16) false < IWord.kDim w)
          || decide (128 < IWord.nCols w)))
  | .recur =>
    let h := IWord.by w 20 2
    let x := IWord.by w 22 2
    outOf (IWord.recT w) 4096
      || if sp.form = 1 then
           outOf h 32 || x == 0 || decide (recurKt w sp < x + h)
             || outOf (IWord.recN w) (if sp.fb2 then sp.period / 2 else sp.period)
         else outOf h 512 || x == 0 || decide (4096 < x + h) || outOf (IWord.recN w) 512
  | .scan => outOf (IWord.recT w) 4096 || outOf (IWord.recN w) 512 || outOf (IWord.scanD w) 65536
  | .lconv => outOf (IWord.recT w) 4096 || outOf (IWord.recN w) 64 || outOf (IWord.by w 20 2) 1024
      || outOf (IWord.by w 22 2) 16384
  | .gate => vecRows w .gate == 0 || outOf (vecW w .gate) 128
      || (IWord.w0 w 12 11 == 0 && decide (512 < IWord.by w 18 2 + vecRows w .gate))
  | .func => vecRows w .func == 0 || outOf (vecW w .func) 128
      || (IWord.w0 w 12 11 == 0 && decide (512 < IWord.by w 14 2 + vecRows w .func))
  | .reduce =>
    IWord.by w 12 2 == 0 || nbits w 128 24 == 0 || (decide (2 < nbits w 160 4) && nbits w 164 4 == 0)
      || (IWord.w0 w 12 11 == 1 && (IWord.by w 12 2 != 1
          || (match chainedFrom v true with | some (r, c) => nbits w 128 24 != r * c | none => true)))
  | .convert => IWord.by w 12 2 == 0 || IWord.by w 14 2 == 0
  | .move => IWord.by w 8 2 == 0 || IWord.by w 10 2 == 0
  | .qpush => IWord.by w 10 2 == 0
  | .qpop => IWord.by w 28 2 == 0
  | .wait => IWord.by w 8 2 == 0
  | .signal => IWord.by w 5 1 == 0
  | .branch => decide (0x8000 ≤ IWord.by w 8 2) && IWord.by w 10 2 == 0
  | _ => false

/-! ## Step 13 -/

/-- Bytes of a tensor of `rows` rows of `cols` elements. -/
def tensorBytes (f rows cols : Nat) : Nat := rows * (fmtOr f).rowBytes cols

/-- Blocks of a scale byte over `mats` matrices (R49). -/
def scaleBytes (byte mats R C : Nat) : Nat :=
  if nbits byte 0 2 = 0 then 0 else mats * blockCount (bsizeOf (nbits byte 2 2)) (nbits byte 4 1 == 1) R C

/-- The extents that an instruction needs: reference and bytes (R32, R49, R88, R137, R167, R172, R173, R187). -/
def extents (v : VCtx) (o : Op) : List (Nat × Nat) :=
  let w := v.w
  let h (b : Nat) : Nat := IWord.by w b 2
  let x := v.k.readXb (IWord.xbRef w)
  let c := IWord.ccw w
  let outScale (mats R C : Nat) : Nat :=
    if ccwBscale c = 0 then 0 else mats * blockCount (bsizeOf (nbits c 13 2)) (nbits c 15 1 == 1) R C
  let vecs (n : Nat) : List (Nat × Nat) :=
    [(x.sH, if nbits x.flags 0 1 = 1 then 4 * n else 0), (x.bH, if nbits x.flags 1 1 = 1 then 4 * n else 0)]
  let q := if (v.arr.map (·.quad)).any id then 2 else 1
  let prod : List (Nat × Nat) :=
    let m := IWord.mRows w
    let k := IWord.kDim w
    let n := IWord.nCols w
    [(h 4, tensorBytes (IWord.afmt w) (q * m) k), (h 8, tensorBytes (ccwFmt c) (q * m) n)]
      ++ (if o = .matvec ∧ IWord.res w then [] else [(h 6, tensorBytes (IWord.wfmt w) (q * k) n), (x.wsc, scaleBytes x.wbs q k n)])
      ++ [(x.spill, if IWord.spillP w = 0 then 0 else 8 * q * m * n), (x.asc, scaleBytes x.abs q m k), (x.osc, outScale q m n)]
      ++ vecs n
  match o with
  | .loadw => [(h 4, (if IWord.w0 w 11 11 = 1 then 2 else 1) * tensorBytes (nbits w 128 4) (h 8) (h 10))]
  | .matmul => prod
  | .matvec => prod
  | .recur =>
    let t := IWord.recT w
    let n := IWord.recN w
    let hh := h 20
    let k := h 22 + hh
    [(h 6, tensorBytes (nbits w 228 4) k (128 * ceilDiv hh 32)), (h 8, tensorBytes (nbits w 224 4) (t * n) k),
     (h 10, tensorBytes (ccwFmt c) (t * n) hh), (h 14, n * ceilDiv t 8)]
  | .scan =>
    let t := IWord.recT w
    let n := IWord.recN w
    let d := IWord.scanD w
    let ta := if IWord.w0 w 11 11 = 1 then 1 else t
    [(h 4, tensorBytes (nbits w 224 4) (ta * n) d), (h 6, tensorBytes (nbits w 228 4) (t * n) d),
     (h 8, tensorBytes (ccwFmt c) (t * n) d), (h 12, n * ceilDiv t 8), (x.asc, scaleBytes x.abs ta n d),
     (x.wsc, scaleBytes x.wbs t n d), (x.osc, outScale t n d)] ++ vecs d
  | .lconv =>
    let t := IWord.recT w
    let n := IWord.recN w
    let d := h 20
    [(h 4, tensorBytes (nbits w 224 4) d (h 22)), (h 6, tensorBytes (nbits w 228 4) (t * n) d),
     (h 8, tensorBytes (ccwFmt c) (t * n) d), (h 12, n * ceilDiv t 8), (x.asc, scaleBytes x.abs t n d),
     (x.wsc, scaleBytes x.wbs 1 d (h 22)), (x.osc, outScale t n d)] ++ vecs d
  | .gate =>
    let r := vecRows w .gate
    let n := vecW w .gate
    [(h 6, tensorBytes (nbits w 168 4) r n), (h 8, tensorBytes (nbits w 172 4) r n), (h 10, tensorBytes (nbits w 176 4) r n),
     (h 12, 16 * r), (h 14, tensorBytes (ccwFmt c) r n)]
  | .func =>
    let r := vecRows w .func
    let n := vecW w .func
    [(h 4, tensorBytes (nbits w 160 4) r n), (h 6, 16 * r), (h 8, tensorBytes (ccwFmt c) r n)]
  | .reduce =>
    let n := h 12
    let kk := if nbits w 160 4 < 3 then 1 else nbits w 164 4
    [(h 4, tensorBytes (nbits w 168 4) n (nbits w 128 24)), (h 6, 4 * n * kk), (h 8, 4 * n * kk),
     (x.asc, scaleBytes x.abs 1 n (nbits w 128 24))]
  | .convert =>
    let r := h 12
    let n := h 14
    [(h 4, tensorBytes (nbits w 128 4) r n), (h 6, tensorBytes (ccwFmt c) r n), (x.asc, scaleBytes x.abs 1 r n),
     (x.osc, outScale 1 r n)] ++ vecs n
  | .move =>
    let last := h 8 - 1
    [(h 4, IWord.by w 12 4 + last * IWord.by w 20 4 + h 10), (h 6, IWord.by w 16 4 + last * IWord.by w 24 4 + h 10)]
  | .summary => [(h 4, 16 * (h 6 + 1))]
  | _ => []

/-- A 16-bit field read as signed. -/
def sgn16 (x : Nat) : Int := if x < 0x8000 then (x : Int) else (x : Int) - 0x10000

/-- Step 13. -/
def badBounds (v : VCtx) (o : Op) : Bool :=
  (extents v o).any (fun e => !refNull e.1 && decide (hExt (v.k.entry e.1) < e.2))
  || (o == .branch && !(decide (1 ≤ (v.i : Int) + sgn16 (IWord.by v.w 8 2))
      && decide ((v.i : Int) + sgn16 (IWord.by v.w 8 2) ≤ v.ninst)))

/-- Step 14 (R156). -/
def badStoch (v : VCtx) (o : Op) : Bool :=
  let w := v.w
  let mark (b : Nat) : Bool := hSmark (v.k.entry (IWord.by w b 2))
  let outs : List Nat := match o with
    | .matmul => [IWord.by w 8 2] | .matvec => [IWord.by w 8 2] | .recur => [IWord.by w 10 2]
    | .scan => [IWord.by w 8 2] | .lconv => [IWord.by w 8 2] | .gate => [IWord.by w 14 2]
    | .func => [IWord.by w 8 2] | .convert => [IWord.by w 6 2] | _ => []
  (o.hasCcw && ccwStoch (IWord.ccw w) && outs.any fun r => !refNull r && hLayout (v.k.entry r) == 3)
  || match o with
    | .recur => mark 8
    | .scan => mark 4 || mark 6
    | .lconv => mark 6
    | _ => false

/-- Presented width of an array (R96, R98). -/
def Mxa.width (m : Mxa) : Nat := if m.retired then 0 else 32 - m.byps.length

/-- The lowest-numbered full-width array, which takes the transposed passes of narrowed ones (R97). -/
def Core.fullArray (k : Core) : Option Nat := (List.range 4).find? fun a => (k.mxa a).width == 32

/-- The narrowed arrays that hold a column below N: a transposed pass cannot run on them (R97). -/
def Core.relocated (k : Core) (N : Nat) : List Nat :=
  (List.range 4).filter fun a => decide (32 * a < N) && (k.mxa a).width != 32

/-- Step 15 (R97, R144, R170). -/
def badNarrow (v : VCtx) (o : Op) : Bool :=
  let w := v.w
  let wid (a : Nat) : Nat := (v.k.mxa a).width
  match o with
  | .matvec =>
    IWord.res w && ((List.range 4).any (fun a => decide (32 * a < IWord.nCols w)
        && decide (wid a < min 32 (IWord.nCols w - 32 * a)))
      || (IWord.tw w && !(List.range 4).any fun a => wid a == 32))
  | .recur =>
    (v.k.readStep (IWord.by w 4 2)).form == 1 && (List.range 4).any fun a => decide (wid a < IWord.by w 20 2)
  | _ => false

/-- The extension-block checks that follow step 4 (R191). -/
def xbStep (v : VCtx) : Nat :=
  let r := IWord.xbRef v.w
  if refNull r then stOk
  else
    let refs := (v.k.readXb r).refs.filter fun q => !refNull q
    firstBad [ failIf (!v.k.xbFormOk r) stField
             , failIf (refs.any (v.k.refBad v.ctx)) stHandle
             , failIf (refs.any v.k.refStale) stStale ]

/-- Step 10. -/
def chainStep (v : VCtx) (o : Op) : Nat :=
  match o with
  | .gate => gateChain v
  | .recur => stepChain v
  | _ => stOk

/-- The whole of R191: the first failing status, or OK. -/
def validate (v : VCtx) : Nat :=
  match IWord.opc v.w with
  | none => stOpcode
  | some o =>
    let queue : Bool := match o with
      | .qpush => bad (IWord.by v.w 8 2)
      | .qpop => bad (IWord.by v.w 8 2)
      | _ => false
    firstBad
      [ failIf (badField v.w o) stField, failIf (badHandle v o) stHandle, failIf (staleHandle v o) stStale, xbStep v
      , failIf queue stQueue, failIf (badFormat v o) stFormat, failIf (badConvert v o) stConvert
      , failIf (badMode v o) stMode, failIf (badShape v o) stShape, chainStep v o, failIf (badFunc v o) stFunc
      , slotStep v o, failIf (badBounds v o) stBounds
      , failIf (v.issue && badStoch v o) stStoch, failIf (v.issue && badNarrow v o) stNarrow ]
where
  /-- R183: a queue that is unassigned or of another context. -/
  bad (q : Nat) : Bool :=
    let h := Sparse.get {} v.hqs q
    !h.en || h.ctx.toNat != v.ctx

/-! ## Whole programs (R161) -/

/-- The word of instruction `i` of the program that `ref` names. -/
def Core.progWord (k : Core) (ref i : Nat) : IWord := k.rdN (k.entry ref) (32 * i) 32

/-- Program header fields (R159). -/
def Core.progHdr (k : Core) (ref off n : Nat) : Nat := k.rdN (k.entry ref) off n

/-- NSLOT. -/
def Core.progNslot (k : Core) (ref : Nat) : Nat := k.progHdr ref 2 1
/-- NINST. -/
def Core.progNinst (k : Core) (ref : Nat) : Nat := k.progHdr ref 4 2
/-- ENTRY_k. -/
def Core.progEntry (k : Core) (ref slot : Nat) : Nat := k.progHdr ref (8 + 2 * slot) 2

/-- The header checks of R161, in their order. -/
def headerStatus (k : Core) (ref : Nat) : Nat :=
  let g := k.progHdr ref
  let nslot := k.progNslot ref
  let ninst := k.progNinst ref
  firstBad
    [ failIf (decide (hExt (k.entry ref) < 32 * (1 + ninst))) stBounds
    , failIf (g 0 2 != 0x0100) stVersion
    , failIf (outOf nslot 4 || ninst == 0 || g 3 1 != 0 || g 6 2 != 0 || g 20 8 != 0
        || (List.range 4).any fun i => if i < nslot then outOf (k.progEntry ref i) ninst else k.progEntry ref i != 0) stField
    , failIf (crc32c ((k.rd (k.entry ref) 0 28 ++ k.rd (k.entry ref) 32 (32 * ninst)).map BitVec.toNat) != g 28 4) stCrc ]

/-- Modes and tags of a core's arrays. -/
def Core.arrViews (k : Core) : List ArrView := tab 4 fun a => ⟨(k.mxa a).quad, (k.mxa a).tag⟩

/-- What an instruction leaves of modes and tags (R168). -/
def trackArr (k : Core) (w : IWord) (arr : List ArrView) : List ArrView :=
  match IWord.opc w with
  | some .loadw =>
    arr.zipIdx.map fun (v, a) =>
      if nbits w (12 + a) 1 = 1 then ⟨IWord.w0 w 11 11 == 1, some ⟨IWord.by w 4 2, IWord.by w 12 2, IWord.by w 14 2⟩⟩ else v
  | some .matmul => arr.map fun v => { v with tag := none }
  | some .matvec =>
    if !IWord.res w then arr.map fun v => { v with tag := none }
    else if IWord.tw w && !(k.relocated (IWord.nCols w)).isEmpty then
      arr.zipIdx.map fun (v, a) => if k.fullArray = some a then { v with tag := none } else v
    else arr
  | some .recur => if (k.readStep (IWord.by w 4 2)).form = 2 then arr.map fun v => { v with tag := none } else arr
  | some .lconv => arr.map fun v => { v with tag := none }
  | _ => arr

/-- Validates instructions `i` to `i + n - 1` in ascending order: the first failure and its byte offset. -/
def progCheck (k : Core) (core : Nat) (conf : Conf) (hqs : Sparse HQueue) (ctx ref ninst : Nat) :
    Nat → Nat → List ArrView → Option (Nat × Nat)
  | 0, _, _ => none
  | n + 1, i, arr =>
    let v : VCtx := ⟨k, core, conf, ctx, ref, ninst, k.progWord ref, i, hqs, arr, false, .idle, none⟩
    let st := validate v
    if st = stOk then progCheck k core conf hqs ctx ref ninst n (i + 1) (trackArr k v.w arr) else some (st, 32 * i)

/-- R161: the status and byte offset of the first failure of a whole program, if there is one. -/
def programStatus (k : Core) (core : Nat) (conf : Conf) (hqs : Sparse HQueue) (ctx ref : Nat) : Option (Nat × Nat) :=
  let h := headerStatus k ref
  if h ≠ stOk then some (h, 0)
  else progCheck k core conf hqs ctx ref (k.progNinst ref) (k.progNinst ref) 1 k.arrViews

end Sys2Proof.Machine
end

