-- ==== Sys2Proof/Machine/Matrix.lean ====
section
/-! DEFINITION. The matrix arrays (03_matrix_arrays) and the effects of LOADW, MATMUL and MATVEC (R168 to R170, R178): weight
planes, the group sums in their canonical order, spilling, accumulator memory and the conversion at its output. -/

namespace Sys2Proof.Machine

/-- What an instruction leaves of its core, and the NaNs it met. -/
structure Eff where
  k : Core
  nans : List NanEv := []
  /-- A NaN that a chained predecessor left in the trap's record, on the common schedule of the pair (R127, R175). -/
  prior : Option NanEv := none

/-! ## Weight planes (R66, R70, R74, R168) -/

/-- Where a weight tile comes from: operand, K-tile size, K-tile, the tensor column of each presented column, N, mode, and which part
of an FP32 weight is loaded (0 the element itself, 1 high, 2 low). -/
structure TileSrc where
  o : Oper
  kt : Nat
  t : Nat
  col : Nat → Nat
  N : Nat
  quad : Bool
  part : Nat

/-- A BF16 or FP16 subnormal is stored in a plane as zero (R40). -/
def flushCode (f : Fmt) (c : Nat) : Nat :=
  if f.working && decide (c % 2 ^ (f.bits - 1) < 2 ^ (f.layout.prec - 1)) then 0 else c

/-- The code of a weight of the tile: the reduction index `j` of half `h`, tensor column `n` (R40, R79, R91). -/
def Core.weightCode (k : Core) (s : TileSrc) (h j n : Nat) : Nat :=
  if s.o.R ≤ j ∨ s.N ≤ n then 0
  else
    let c := k.el s.o.e s.o.f s.o.C (h * s.o.R + j) n
    if s.part = 1 then flushCode .bf16 (splitHi (word c))
    else if s.part = 2 then flushCode .bf16 (splitLo (word c))
    else flushCode s.o.f c

/-- Operand width of the loaded codes. -/
def TileSrc.width (s : TileSrc) : Nat := if s.part = 0 then s.o.f.arrayWidth else 16

/-- The 16-bit word of cell (r, c) of array `a`. -/
def Core.cellWord (k : Core) (s : TileSrc) (r c : Nat) : BitVec 16 :=
  let w := 16 / max s.width 1
  let (h, row) := if s.quad then (r / 16, r % 16) else (0, r)
  let codes := tab w fun j =>
    let i := w * row + j
    if s.kt ≤ i then 0 else k.weightCode s h (s.t * s.kt + i) (s.col c)
  BitVec.ofNat 16 (codes.foldr (fun x acc => acc * 2 ^ s.width + x) 0)

/-- The non-bypassed physical columns in ascending order: presented column c is the c-th of them (R80). -/
def Mxa.cols (m : Mxa) : List Nat := (List.range 32).filter fun c => !m.byps.contains c

/-- A shadow plane of 1,024 words filled with the columns of the tile: the presented columns are loaded, and a bypassed column keeps
the word that the shadow plane held (R70, R80, R168). -/
def Core.planeOf (k : Core) (m : Mxa) (s : TileSrc) : Sparse (BitVec 16) :=
  let cols := m.cols
  (tab 1024 fun i => (i, match cols.idxOf? (i % 32) with
    | some c => k.cellWord s (i / 32) c
    | none => Sparse.get 0 m.shadow i)).filter fun e => e.2 != 0

/-- The CRC-32C of one cell column: its 32 words in ascending cell-row order (R326). -/
def columnCrc (p : Sparse (BitVec 16)) (c : Nat) : Nat :=
  crc32c ((tab 32 fun r => leBytes 2 (Sparse.get (0 : BitVec 16) p (32 * r + c)).toNat).flatten)

/-- The column CRCs of a plane. -/
def columnCrcs (p : Sparse (BitVec 16)) : List Nat := tab 32 (columnCrc p)

/-- A fill of the shadow plane followed by its swap (R71): the old active plane becomes the shadow. -/
def Mxa.load (m : Mxa) (p : Sparse (BitVec 16)) (tag : Option PlaneTag) (crc : Bool) : Mxa :=
  { m with active := p, shadow := m.active, tag := tag, crc := if crc then some (columnCrcs p) else none }

/-! ## LOADW (R168) -/

/-- LOADW: every array of AMASK takes its tile, mode and tag. -/
def loadwEff (k : Core) (w : IWord) : Eff :=
  let f := fmtOr (nbits w 128 4)
  let quad := IWord.w0 w 11 11 == 1
  let kDim := IWord.by w 8 2
  let n := IWord.by w 10 2
  let kt := IWord.by w 12 2
  let ng := IWord.by w 14 2
  let o : Oper := ⟨k.entry (IWord.by w 4 2), f, kDim, n, none⟩
  let tag : PlaneTag := ⟨IWord.by w 4 2, kt, ng⟩
  ⟨(List.range 4).foldl (fun k' a =>
    if nbits w (12 + a) 1 = 1 then
      k'.updMxa a fun m =>
        { m.load (k.planeOf m ⟨o, ktOf f quad, kt, (128 * ng + 32 * a + ·), n, quad, 0⟩) (some tag) true with quad := quad }
    else k') k, [], none⟩

/-! ## Group sums and the accumulator (R76 to R81, R85, R87, R92) -/

/-- The broadcast byte offsets at which the latch replaces the vector of K-tile c / kt of row `row`: those of the words of the running
frame that lie in an SPD line which the vector reads (R386). -/
def Core.latchOffs (k : Core) (o : Oper) (kt row c : Nat) : List Nat :=
  if k.latched.isEmpty then []
  else
    let lines := (List.range kt).map fun i =>
      hPhys o.e (row * o.f.rowBytes o.C + (c / kt * kt + i) * o.f.bits / 8) / 64
    (k.latched.filter fun x => k.csq.run == .frame x.gid x.frame 0 && lines.contains x.line).map (·.off)

/-- Element `c` of a row on the broadcast register: the code `code` of width `w`, or the latch's bits where they replace it (R66, R74,
R386). `half` is the broadcast half of a quadrant-mode vector. -/
def Core.castCode (k : Core) (o : Oper) (w kt half row c code : Nat) : Nat :=
  let offs := k.latchOffs o kt row c
  if offs.isEmpty then code
  else
    let at_ := 256 * half + w * (c % kt)
    ((List.range w).map fun b =>
      let y := (at_ + b) / 8
      if offs.any fun x => decide (x ≤ y) && decide (y < x + 4) then
        b2n ((Sparse.get 0 k.latch y).getLsbD ((at_ + b) % 8)) * 2 ^ b
      else nbits code b 1 * 2 ^ b).foldl (· + ·) 0

/-- The code of an activation on the broadcast register in pass `p` (R90, R91). -/
def Core.actCode (k : Core) (o : Oper) (passes p kt half mat r c : Nat) : Nat :=
  let row := mat * o.R + r
  let x := k.el o.e o.f o.C row c
  if passes = 0 then k.castCode o o.f.arrayWidth kt half row c x
  else k.castCode o 16 kt half row c (if p = 1 then splitLo (word x) else splitHi (word x))

/-- The value that pass `p` multiplies (R40, R51, R90). -/
def Core.actPart (k : Core) (o : Oper) (passes p kt half mat r c : Nat) : FV :=
  let v := (if passes = 0 then o.f else .bf16).arrayValue (k.actCode o passes p kt half mat r c)
  match (if passes = 0 then k.scaleAt o mat r c else none) with
  | none => v
  | some s => if v.isNan || s.isNan then .nan else v.mul s

/-- The 64 bytes of a broadcast: the digits of width `w` of a vector, lowest byte first (R32, R66). -/
def castBytes (w : Nat) (codes : List Nat) : Sparse Byte :=
  ((toBytes 64 (codes.foldr (fun x acc => acc * 2 ^ w + x) 0)).zipIdx.map fun (b, i) => (i, b)).filter fun e => e.2 != 0

/-- The broadcast register after row `r` of K-tile `t` in pass `q`, `halves` vectors side by side; the feed writes +0 at and beyond K
(R65, R74, R79). -/
def Core.castRow (k : Core) (o : Oper) (passes q kt kDim halves t r : Nat) : Sparse Byte :=
  let w := if passes = 0 then o.f.arrayWidth else 16
  castBytes w ((List.range halves).flatMap fun h => tab kt fun i =>
    if kDim ≤ t * kt + i then 0 else k.actCode o passes q kt h h r (t * kt + i))

/-- The part of a weight that pass `p` multiplies (R90). -/
def Core.weightPart (k : Core) (o : Oper) (passes p mat r c : Nat) : FV :=
  if passes = 2 then
    let x := word (k.el o.e o.f o.C (mat * o.R + r) c)
    Fmt.bf16.arrayValue (if p = 2 then splitLo x else splitHi x)
  else k.fvAt o mat r c

/-- An accumulator on its way: value, spilled pair, whether a spill has happened, NaN events (produced or propagated,
with time and K-tile). -/
structure Acc1 where
  acc : F32 := 0
  pair : Pair32 := ⟨0, 0⟩
  spilled : Bool := false
  nans : List (Nat × Nat × Bool) := []

/-- One accumulation of a group sum (R81), with the NaNs it makes: time, K-tile, propagated. -/
def Acc1.step (x : Acc1) (time kt : Nat) (ps : List FV) (opNan : Bool) : Acc1 :=
  let g := groupSum ps
  let acc := f32Add x.acc g
  let n1 := if f32IsNan g then [(time, kt, opNan)] else []
  let n2 := if f32IsNan acc then [(time + 1, kt, f32IsNan g || f32IsNan x.acc)] else []
  { x with acc := acc, nans := x.nans ++ n1 ++ n2 }

/-- The fold of a spill (R87). -/
def Acc1.spill (x : Acc1) (time kt : Nat) : Acc1 :=
  let p := pairAdd x.pair x.acc
  let n := if f32IsNan p.hi then [(time, kt, f32IsNan x.acc || f32IsNan x.pair.hi)] else []
  { acc := 0, pair := p, spilled := true, nans := x.nans ++ n }

/-- The value that conversion receives (R85). -/
def Acc1.value (x : Acc1) : F32 := if x.spilled then x.pair.toF32 else x.acc

/-- A product as the arrays see one output element: operands, K-tile size, passes, spill interval. -/
structure Prod where
  a : Oper
  w : Oper
  kt : Nat
  kDim : Nat
  passes : Nat
  spill : Nat
  deriving DecidableEq, Repr

/-- Passes of a PASSES code. -/
def passCount (p : Nat) : Nat := p + 1

/-- K-tiles. -/
def Prod.tiles (p : Prod) : Nat := ceilDiv p.kDim p.kt

/-- The terms of an element in their order: K-tile and pass (R85, R90). -/
def Prod.terms (p : Prod) : List (Nat × Nat) :=
  (List.range p.tiles).flatMap fun t => (List.range (passCount p.passes)).map fun q => (t, q)

/-- The accumulator of element (m, n) of half `h`; `at_ t q` is the CCLK in which the row's vector of K-tile t, pass q enters, `fold t`
the one in which the spill after K-tile t folds it. -/
def Core.reduceElem (k : Core) (p : Prod) (h m n : Nat) (at_ : Nat → Nat → Nat) (fold : Nat → Nat) : Acc1 :=
  p.terms.foldl (fun x (t, q) =>
    let js := (List.range p.kt).map (fun i => t * p.kt + i) |>.filter fun j => decide (j < p.kDim)
    let av := js.map fun j => k.actPart p.a p.passes q p.kt h h m j
    let wv := js.map fun j => k.weightPart p.w p.passes q h j n
    let x := x.step (at_ t q + 7) t ((av.zip wv).map fun (u, v) => u.mul v) (av.any FV.isNan || wv.any FV.isNan)
    if p.spill ≠ 0 ∧ q + 1 = passCount p.passes ∧ ((t + 1) % p.spill = 0 ∨ t + 1 = p.tiles) then x.spill (fold t) t else x) {}

/-! ## The walk (R178) -/

/-- A column of a physical n-group: array, ACM column, and the tensor column, absent beyond N. -/
structure GCol where
  arr : Nat
  col : Nat
  n : Option Nat
  deriving DecidableEq, Repr

/-- The columns of a physical n-group from tensor column `base` up to `lim`, over arrays of the presented widths. -/
def groupCols (widths : List Nat) (base lim : Nat) : List GCol :=
  let slots := widths.zipIdx.flatMap fun (wd, a) => (List.range wd).map fun c => (a, c)
  slots.zipIdx.map fun ((a, c), i) => ⟨a, c, if base + i < lim then some (base + i) else none⟩

/-- The n-groups of an instruction, each as its first tensor column and the column it ends before: clusters of physical n-groups that
make up one logical n-group where rounding is stochastic on a narrowed core, single groups otherwise (R178). -/
def walkBases (widths : List Nat) (N : Nat) (stoch : Bool) : List (List (Nat × Nat)) :=
  let ng := widths.foldl (· + ·) 0
  if ng = 0 then []
  else if ng = 128 ∨ !stoch then (List.range (ceilDiv N ng)).map fun g => [(g * ng, N)]
  else (List.range (ceilDiv N 128)).map fun g =>
    [(128 * g, min N (128 * g + 128)), (128 * g + ng, min N (128 * g + 128))]

/-- The columns whose accumulate write is enabled: all of them in full mode, in quadrant mode those of the quadrants that hold a column
below N (R74). -/
def wantedCols (quad : Bool) (cols : List GCol) : List GCol :=
  cols.filter fun x => !quad || cols.any fun y => y.arr == x.arr && y.col / 16 == x.col / 16 && y.n.isSome

/-- The n-groups of an instruction as clusters of columns. -/
def walkGroups (widths : List Nat) (N : Nat) (stoch quad : Bool) : List (List (List GCol)) :=
  (walkBases widths N stoch).map fun cl => cl.map fun (b, lim) => wantedCols quad (groupCols widths b lim)

/-- Shadow fill time F of a core (R72). -/
def fillTime (widths : List Nat) : Nat := if widths.all (· == 32) then 32 else 64

/-- Period of a weight tile of B vectors (R72, R92). -/
def tilePeriod (passes F B : Nat) : Nat :=
  match passes with
  | 0 => max B (F + 1)
  | 1 => max (2 * B) (F + 1)
  | _ => max (2 * B) (F + 1) + max B (F + 1)

/-- Start of pass q within a tile. -/
def passStart (passes F B q : Nat) : Nat :=
  if q = 0 then 0 else if q = 1 then B else if passes = 2 then max (2 * B) (F + 1) else B

/-- Bubbles of the spills that come before K-tile t of a group (R89). -/
def spillBubbles (p : Prod) (B t : Nat) : Nat :=
  if p.spill = 0 then 0 else (t / p.spill) * (4 * B + 14)

/-- An element that the walk has finished. -/
structure MatEl where
  gc : GCol
  h : Nat
  m : Nat
  mc : Nat
  ng : Nat
  time : Nat
  acc : Acc1

/-- ACM row of m-row r of half h in the m-chunk (R74, R80). -/
def acmRow (quad : Bool) (h r : Nat) : Nat := if quad then 256 * h + r else r

/-- One row of one physical n-group of one half; a spill starts when the last row's last accumulation is visible and folds row by row,
one row of one array per CCLK (R89); `t0` is the CCLK at which the group's first vector enters. -/
def walkRow (k : Core) (p : Prod) (F B mc g h m r t0 : Nat) (cols : List GCol) : List MatEl :=
  let per := tilePeriod p.passes F B
  let enter (t q r : Nat) : Nat := t0 + t * per + spillBubbles p B t + passStart p.passes F B q + r
  let lastPass := passCount p.passes - 1
  let fin := enter (p.tiles - 1) lastPass r + 11 + (if p.spill = 0 then 0 else 4 * B + 14)
  cols.map fun gc => ⟨gc, h, m, mc, g, fin, match gc.n with
    | some n => k.reduceElem p h m n (fun t q => enter t q r)
        (fun t => enter t lastPass (B - 1) + 9 + (4 * r + gc.arr) + 11)
    | none => {}⟩

/-- The whole walk in the order of conversion: m-chunk, logical n-group, half, row, then the columns (R178, R179). -/
def walkAll (k : Core) (p : Prod) (quad stoch resident : Bool) (widths : List Nat) (M N : Nat) : List MatEl :=
  let mcSize := if quad then 256 else 512
  let F := fillTime widths
  let groups := walkGroups widths N stoch quad
  let halves := if quad then 2 else 1
  let physPer := (groups.map List.length).foldl (· + ·) 0
  (List.range (ceilDiv M mcSize)).flatMap fun c =>
    let B := min mcSize (M - c * mcSize)
    let spills := if p.spill = 0 then 0 else ceilDiv p.tiles p.spill
    let span (B : Nat) : Nat := p.tiles * tilePeriod p.passes F B + spills * (4 * B + 14)
    let c0 := if resident then 0 else F + 1 + c * physPer * span mcSize
    groups.zipIdx.flatMap fun (cluster, gi) =>
      (List.range halves).flatMap fun h => (List.range B).flatMap fun r =>
        cluster.zipIdx.flatMap fun (cols, ci) =>
          let g := gi * cluster.length + ci
          walkRow k p F B c g h (c * mcSize + r) r (c0 + g * span B) cols

/-- Stores an element's accumulator in ACM: the spilled value, or the sum (R80, R87). -/
def Core.putAcm (k : Core) (a row col : Nat) (x : F32) : Core :=
  k.updMxa a fun m => { m with acm := Sparse.set 0 m.acm (32 * row + col) x }

/-- ACM after the walk. -/
def acmAfter (quad : Bool) (k : Core) (els : List MatEl) : Core :=
  els.foldl (fun k e =>
    k.putAcm e.gc.arr (acmRow quad e.h (e.m - e.mc * (if quad then 256 else 512))) e.gc.col e.acc.value) k

/-- The NaN events of the arrays (R127, R129). -/
def arrayNans (quad : Bool) (els : List MatEl) : List NanEv :=
  els.flatMap fun e => e.acc.nans.map fun (t, kt, pr) =>
    ⟨t, .arrays, e.gc.col + 32 * e.gc.arr, pr, acmRow quad e.h (e.m - e.mc * (if quad then 256 else 512)), e.ng, kt, e.mc⟩

/-- The elements that conversion takes, in order (R179). -/
def convEls (quad : Bool) (els : List MatEl) : List OutEl :=
  els.filterMap fun e => e.gc.n.map fun n =>
    ⟨n % 128, e.h, e.m, n, e.acc.value, e.time, e.m - e.mc * (if quad then 256 else 512), e.ng, e.mc⟩

/-- The final pairs of a spilled product, row-major over M x N (R88). -/
def spillPairs (k : Core) (e : DWord) (M N : Nat) (els : List MatEl) : Core :=
  els.foldl (fun k x => match x.gc.n with
    | some n => k.putPair e (((x.h * M + x.m) * N + n) * 8) x.acc.pair
    | none => k) k

/-- Presented widths of the four arrays. -/
def Core.widths (k : Core) : List Nat := tab 4 fun a => (k.mxa a).width

/-- The weight fills of a product on each array, in order: every m-chunk walks every physical n-group, K-tile and plane part; the last
two, and how many there are (R71, R92, R178). -/
def productFills (p : Prod) (quad stoch : Bool) (M N : Nat) (widths : List Nat) : List (Nat × Nat × Nat × Nat) × Nat :=
  let parts := if p.passes = 2 then [1, 2] else [0]
  let one := (walkBases widths N stoch).flatten.flatMap fun (b, lim) =>
    (List.range p.tiles).flatMap fun t => parts.map fun q => (b, lim, t, q)
  let chunks := ceilDiv M (if quad then 256 else 512)
  let two := if chunks < 2 then one else one ++ one
  (two.drop (two.length - 2), chunks * one.length)

/-- Array `m` before the last `j` of `n` fills, as far as its bypassed columns go: the planes have been exchanged n - j times. -/
def Mxa.before (m : Mxa) (n j : Nat) : Mxa :=
  if n % 2 = j % 2 then m else { m with active := m.shadow, shadow := m.active }

/-- The planes that a streaming instruction leaves: the last tile active, the one before it in the shadow plane, no tag (R71, R168,
R326). A bypassed column keeps the word of whichever plane it lies in. -/
def streamPlanes (k : Core) (p : Prod) (quad stoch : Bool) (M N : Nat) (widths : List Nat) : Core :=
  let (fills, n) := productFills p quad stoch M N widths
  (List.range 4).foldl (fun k' a =>
    k'.updMxa a fun m =>
      fills.foldl (fun m (b, lim, t, q) =>
        m.load (k.planeOf m ⟨p.w, p.kt, t, (b + (widths.take a).foldl (· + ·) 0 + ·), lim, quad, q⟩) none true) (m.before n fills.length)) k

/-- SMARK of a written buffer: set under stochastic rounding, cleared otherwise (R205). -/
def Core.markWrite (k : Core) (ref : Nat) (stoch : Bool) : Core :=
  if refNull ref then k else k.setSmark (refIdx ref) stoch

/-- MATMUL, and MATVEC as one m-chunk (R169, R170). -/
def productEff (k : Core) (w : IWord) (hist : Bool) : Eff :=
  let x := k.readXb (IWord.xbRef w)
  let quad := (k.mxa 0).quad
  let M := IWord.mRows w
  let K := IWord.kDim w
  let N := IWord.nCols w
  let fa := fmtOr (IWord.afmt w)
  let a : Oper := ⟨k.entry (IWord.by w 4 2), fa, M, K, k.operScale x.abs x.asc⟩
  let wt : Oper := ⟨k.entry (IWord.by w 6 2), fmtOr (IWord.wfmt w), K, N, k.operScale x.wbs x.wsc⟩
  let kt := if IWord.passes w = 0 then ktOf fa quad else ktOf .bf16 quad
  let p : Prod := ⟨a, wt, kt, K, IWord.passes w, IWord.spillP w⟩
  let cv := k.conv (IWord.ccw w) x
  let els := walkAll k p quad cv.stoch false k.widths M N
  let cast := k.castRow a p.passes (passCount p.passes - 1) kt K (if quad then 2 else 1) (p.tiles - 1) (M - 1)
  let k1 := { streamPlanes (acmAfter quad k els) p quad cv.stoch M N k.widths with bcast := cast }
  let k2 := if IWord.spillP w = 0 then k1 else (spillPairs k1 (k.entry x.spill) M N els).markWrite x.spill false
  let out := convertOut cv hist (IWord.hset w) (k.entry (IWord.by w 8 2)) (k.entry x.osc) (if quad then 2 else 1) M N
    (convEls quad els) ⟨k2, k2.csq.gens, []⟩
  let k3 := (out.k.markWrite (IWord.by w 8 2) cv.stoch).markWrite (if cv.bscale = 0 then 0 else x.osc) false
  ⟨{ k3 with csq := { k3.csq with gens := out.gens } }, arrayNans quad els ++ out.nans, none⟩

/-! ## Resident products (R73, R170) -/

/-- The word of an active plane at cell row r and presented column c (R80). -/
def Mxa.cell (m : Mxa) (r c : Nat) : BitVec 16 := Sparse.get 0 m.active (32 * r + m.cols.getD c 0)

/-- The code of a weight held in an active plane: cell row r, presented column c, element j of the word. -/
def Mxa.weight (m : Mxa) (width r c j : Nat) : Nat := nbits (m.cell r c).toNat (width * j) width

/-- The value at reduction index `i`, column `c` of a plane of operand format `f`. -/
def Mxa.weightFv (m : Mxa) (f : Fmt) (i c : Nat) : FV :=
  let per := 16 / max f.arrayWidth 1
  f.arrayValue (m.weight f.arrayWidth (i / per) c (i % per))

/-- The BF16 part that pass q of an FP32 product sees in a resident plane: R170 allows PASSES = 2 with RES = 1, and no rule says
how one plane of 16-bit words gives both parts of an FP32 weight (R91), so it is free. -/
def Mxa.wideFv (m : Mxa) (q i c : Nat) : FV :=
  Fmt.bf16.arrayValue (Config.residentPart q (m.cell i c)).toNat

/-- One element of a resident product over array `m`: the products of one vector against presented column c, or row c of the plane
when transposed. -/
def residentElem (k : Core) (m : Mxa) (a : Oper) (wf : Fmt) (passes K kt b c : Nat) (tw : Bool) (t0 : Nat) : Acc1 :=
  (List.range (passCount passes)).foldl (fun x q =>
    let js := List.range K
    let av := js.map fun j => k.actPart a passes q kt 0 0 b j
    let wv := js.map fun j => if passes = 2 then m.wideFv q j c else if tw then m.weightFv wf c j else m.weightFv wf j c
    x.step (t0 + q + 7) 0 ((av.zip wv).map fun (u, v) => u.mul v) (av.any FV.isNan || wv.any FV.isNan)) {}

/-- The full-width array with the weight tile of a narrowed array `b` in it: W_H's block for `b`, loaded and swapped, without a tag (R71,
R97, R168). R326 names LOADW and streaming fills only, so no CRC is kept. -/
def Core.relocate (k : Core) (wref : Nat) (wf : Fmt) (N b : Nat) (m : Mxa) : Mxa :=
  m.load (k.planeOf m ⟨⟨k.entry wref, wf, 32, N, none⟩, 32, 0, (32 * b + ·), N, false, 0⟩) none false

/-- What relocated transposed passes leave in the array that took them: its tag cleared and the last relocated tile active (R97,
R168). -/
def relocateLoads (k : Core) (wref : Nat) (wf : Fmt) (N : Nat) : Core :=
  match k.fullArray with
  | some a => k.updMxa a fun m => (k.relocated N).foldl (fun m b => k.relocate wref wf N b m) m
  | none => k

/-- The array against which output column n of a resident product runs: its own, or for a transposed pass of a narrowed array the
full-width array with the relocated tile (R97). -/
def Core.residentArr (k : Core) (wref : Nat) (wf : Fmt) (N : Nat) (tw : Bool) (n : Nat) : Mxa :=
  match (if tw && (k.mxa (n / 32)).width != 32 then k.fullArray else none) with
  | some a => k.relocate wref wf N (n / 32) (k.mxa a)
  | none => k.mxa (n / 32)

/-- MATVEC with RES = 1 (R170); ACM columns at or beyond N keep what they held. The sums of a relocated transposed pass go to the ACM
of the narrowed array whose columns they are (DESIGN CHOICE, log 82: R97 names no ACM). -/
def residentEff (k : Core) (w : IWord) (hist : Bool) : Eff :=
  let x := k.readXb (IWord.xbRef w)
  let M := IWord.mRows w
  let K := IWord.kDim w
  let N := IWord.nCols w
  let fa := fmtOr (IWord.afmt w)
  let wf := fmtOr (IWord.wfmt w)
  let a : Oper := ⟨k.entry (IWord.by w 4 2), fa, M, K, k.operScale x.abs x.asc⟩
  let passes := IWord.passes w
  let kt := if passes = 0 then ktOf fa false else 32
  let cv := k.conv (IWord.ccw w) x
  let arrs := tab 4 fun i => k.residentArr (IWord.by w 6 2) wf N (IWord.tw w) (32 * i)
  let els : List MatEl := (List.range M).flatMap fun b =>
    (List.range (min 128 N)).map fun c =>
      ⟨⟨c / 32, c % 32, some c⟩, 0, b, 0, 0, passCount passes * b + passCount passes - 1 + 11,
        residentElem k (arrs.getD (c / 32) (k.mxa (c / 32))) a wf passes K kt b (c % 32) (IWord.tw w) (passCount passes * b)⟩
  let k1 := { acmAfter false k els with bcast := k.castRow a passes (passCount passes - 1) kt K 1 0 (M - 1) }
  let k2 := if IWord.tw w then relocateLoads k1 (IWord.by w 6 2) wf N else k1
  let out := convertOut cv hist (IWord.hset w) (k.entry (IWord.by w 8 2)) (k.entry x.osc) 1 M N (convEls false els)
    ⟨k2, k2.csq.gens, []⟩
  let k3 := (out.k.markWrite (IWord.by w 8 2) cv.stoch).markWrite (if cv.bscale = 0 then 0 else x.osc) false
  ⟨{ k3 with csq := { k3.csq with gens := out.gens } }, arrayNans false els ++ out.nans, none⟩

/-- MATVEC. -/
def matvecEff (k : Core) (w : IWord) (hist : Bool) : Eff :=
  if IWord.res w then residentEff k w hist else productEff k w hist

end Sys2Proof.Machine
end

