-- ==== Sys2Proof/Machine/Vector.lean ====
section
/-! DEFINITION. VX, FX and the reduce unit (04_gate_pipeline_functions) and the effects of GATE, FUNC, REDUCE and CONVERT
(R174 to R177). -/

namespace Sys2Proof.Machine

/-! ## Chains (R100, R102 to R108) -/

/-- The operand sources of one vector: IN, SA, SB, state registers, constants, and which lanes hold a value (R142; every lane
outside step programs, R100). -/
structure VecSrc where
  inp : List F32
  sa : List F32
  sb : List F32
  st : Nat → List F32
  ks : List F32
  live : Nat → Bool

/-- Operand `o` in lane `l`: source, rotation, magnitude, sign (R105, R106). -/
def VecSrc.fetch (x : VecSrc) (rs : List (List F32)) (o l : Nat) : F32 :=
  let i := opIdx o
  let lane := (l + 32 * nbits o 6 2) % 128
  let at_ (v : List F32) : F32 := if x.live lane then v.getD lane 0 else 0
  let v := match opSrc o with
    | 0 => at_ (rs.getD i [])
    | 1 => at_ x.inp
    | 2 => at_ x.sa
    | 3 => at_ x.sb
    | 4 => at_ (x.st i)
    | _ => x.ks.getD i 0
  let v := if nbits o 9 1 = 1 then f32Abs v else v
  if nbits o 8 1 = 1 then f32Neg v else v

/-- The operations of R104. -/
def stageOp (st : Nat) (a b c : F32) : F32 :=
  match nbits st 0 4 with
  | 0 => f32Add a b
  | 1 => f32Mul a b
  | 2 => f32Fma a b c
  | 3 => if (match Pred.ofCode (nbits st 4 3) with | some p => f32Compare p a b | none => false) then f32One else 0
  | 4 => if !f32IsZero a && !f32IsNan a then b else c
  | 5 => f32Min a b
  | _ => f32Max a b

/-- Results of a chain on one vector: the lanes of every stage, and the NaNs each stage met by lane. -/
structure ChainRes where
  rs : List (List F32) := []
  nans : List (List (Option Bool)) := []

/-- Does the chain's output stage perform the PAIR32 update of R143: an FMA whose operand b is the destination row, plain? -/
def pairStage (c : Chain) : Bool :=
  let st := c.sts.getD (nbits c.hdr 4 3) 0
  let o := nbits st 24 16
  c.stateWr && nbits st 0 4 == 2 && opSrc o == 4 && opIdx o == c.stateDst && nbits o 6 4 == 0

/-- Runs the stages in order. `wide` gives the pairs of the destination row when rows are PAIR32 (R143). -/
def chainRun (c : Chain) (x : VecSrc) (wide : Option (Nat → Pair32)) : ChainRes :=
  c.sts.zipIdx.foldl (fun r (st, s) =>
    let ops (l : Nat) : F32 × F32 × F32 :=
      (x.fetch r.rs (nbits st 8 16) l, x.fetch r.rs (nbits st 24 16) l, x.fetch r.rs (nbits st 40 16) l)
    let res := tab 128 fun l =>
      let (a, b, cc) := ops l
      match wide with
      | some p => if s = nbits c.hdr 4 3 && pairStage c then (pairFma (p l).norm a cc).toF32 else stageOp st a b cc
      | none => stageOp st a b cc
    let nans := tab 128 fun l =>
      let (a, b, cc) := ops l
      let used := if (stageReads st).length = 3 then [a, b, cc] else [a, b]
      nanKind (res.getD l 0) used
    { rs := r.rs ++ [res], nans := r.nans ++ [nans] }) {}

/-- The chain's output (OUTSTG). -/
def ChainRes.out (r : ChainRes) (c : Chain) : List F32 := r.rs.getD (nbits c.hdr 4 3) []

/-- Does MASK select lane `l` (R103, R108)? `bits` is the SPD mask element. -/
def chainSel (c : Chain) (r : ChainRes) (bits l : Nat) : Bool :=
  let v := (r.rs.getD (nbits c.hdr 10 3) []).getD l 0
  let nz := !f32IsZero v && !f32IsNan v
  match c.mask with
  | 0 => true
  | 1 => nz
  | 2 => !nz
  | _ => nbits bits l 1 == 1

/-- MZERO of a header. -/
def Chain.mzero (c : Chain) : Bool := nbits c.hdr 13 1 == 1

/-- The NaNs of a chain in selected active lanes; stage s of a vector that enters at `t` ends at t + 4 (s + 1). -/
def chainNans (r : ChainRes) (t row mc ng : Nat) (sel : Nat → Bool) (lanes : Nat) : List NanEv :=
  r.nans.zipIdx.flatMap fun (ns, s) =>
    (List.range lanes).filterMap fun l =>
      if sel l then (ns.getD l none).map fun p => ⟨t + 4 * (s + 1), .vx, l, p, row, ng, 0xFFF, mc⟩ else none

/-! ## Rows of GATE and FUNC -/

/-- Accesses per vector of a format (R101). -/
def vecAccess (w : Nat) (f : Fmt) : Nat := ceilDiv (w * f.bits) 512

/-- Row `v` of an SPD stream in 128 lanes: W elements and +0 (R100). -/
def Core.streamRow (k : Core) (ref : Nat) (f : Fmt) (w v : Nat) : List F32 :=
  let e := k.entry ref
  (tab w fun i => f.widen (k.el e f w v i)) ++ List.replicate (128 - w) 0

/-- Drained ACM row `r` of the four arrays (R100). -/
def Core.acmRowVec (k : Core) (r : Nat) : List F32 :=
  tab 128 fun l => Sparse.get 0 (k.mxa (l / 32)).acm (32 * r + l % 32)

/-- State register `i` (R107). -/
def Core.sreg (k : Core) (i : Nat) : List F32 := tab 128 fun l => Sparse.get 0 k.sregs (128 * i + l)

/-- The input vector `v` that INSRC chooses (R174). -/
def Core.inputRow (k : Core) (insrc ref : Nat) (f : Fmt) (w row0 v : Nat) : List F32 :=
  match insrc with
  | 0 => k.acmRowVec (row0 + v)
  | 1 => k.streamRow ref f w v
  | _ => match k.csq.chain with
    | some c => c.vecs.getD v []
    | none => []

/-- The mask element of vector `v`: 16 bytes as a number (R108). -/
def Core.maskBits (k : Core) (ref v : Nat) : Nat := if refNull ref then 0 else k.rdN (k.entry ref) (16 * v) 16

/-- What a run over rows carries. -/
structure RowRun where
  k : Core
  gens : Sparse DWord
  nans : List NanEv := []
  vecs : List (List F32) := []
  sums : List (List F32) := []
  stochWrote : Bool := false
  wrote : Bool := false

/-- Converts and writes the selected active lanes of one output row; unselected lanes take +0 under MZERO (R108, R205). -/
def RowRun.writeRow (st : RowRun) (cv : Conv) (hist : Bool) (hset : Nat) (ref w v time : Nat) (sel : Nat → Bool)
    (mzero : Bool) (out : List F32) : RowRun :=
  let e := st.k.entry ref
  let lanes := List.range w
  let els : List OutEl := (lanes.filter sel).map fun l => ⟨l, 0, v, l, out.getD l 0, time, v % 512, 0, v / 512⟩
  let o := convertOut cv hist hset e 0 1 (v + 1) w els ⟨st.k, st.gens, []⟩
  let zeros := if mzero then lanes.filter fun l => !sel l else []
  let k := zeros.foldl (fun k l => k.putOut e cv.f w v l 0) o.k
  { st with k := k, gens := o.gens, nans := st.nans ++ o.nans
            stochWrote := st.stochWrote || (cv.stoch && !els.isEmpty), wrote := st.wrote || !els.isEmpty || !zeros.isEmpty }

/-- Finishes a run: generators, SMARK of the output (R205). -/
def RowRun.close (st : RowRun) (ref : Nat) : Core :=
  let k := if st.wrote && !refNull ref then st.k.setSmark (refIdx ref) st.stochWrote else st.k
  { k with csq := { k.csq with gens := st.gens } }

/-! ## GATE (R174) -/

/-- Issue interval of a chain: accesses of its streams, and the wait for its own state register (R101, R107). -/
def gateInterval (c : Chain) (w : Nat) (fs : List Fmt) : Nat :=
  let a := (fs.map (vecAccess w)).foldl max 1
  let reads := c.sts.zipIdx.filter fun (st, _) => (stageReads st).any fun o => opSrc o == 4 && opIdx o == c.stateDst
  match reads with
  | (_, s) :: _ => if c.stateWr then max a (4 * (c.sts.length - s)) else a
  | [] => a

/-- One vector of a GATE; vectors enter VX `interval` apart, the first after `lead`. DESIGN CHOICE (log 82): NAN_TILE and NAN_MC place
vector v at ROW v mod 512, MC v / 512 and NG 0; R129 names a vector row within the m-chunk and no m-chunk of a GATE. -/
def gateRow (w : IWord) (c : Chain) (cv : Conv) (hist : Bool) (lead interval : Nat) (st : RowRun) (v : Nat) : RowRun :=
  let k := st.k
  let wd := vecW w .gate
  let h (b : Nat) : Nat := IWord.by w b 2
  let stream (b f : Nat) : List F32 := if refNull (h b) then List.replicate 128 0 else k.streamRow (h b) (fmtOr f) wd v
  let x : VecSrc :=
    { inp := k.inputRow (IWord.w0 w 12 11) (h 6) (fmtOr (nbits w 168 4)) wd (h 18) v
      sa := stream 8 (nbits w 172 4), sb := stream 10 (nbits w 176 4), st := k.sreg, ks := c.ks, live := fun _ => true }
  let r := chainRun c x none
  let bits := k.maskBits (h 12) v
  let sel (l : Nat) : Bool := decide (l < wd) && chainSel c r bits l
  let out := r.out c
  let t := lead + v * interval
  let regs := if c.stateWr then
      (List.range wd).foldl (fun m l =>
        if sel l then Sparse.set 0 m (128 * c.stateDst + l) (out.getD l 0)
        else if c.mzero then Sparse.set 0 m (128 * c.stateDst + l) 0 else m) k.sregs
    else k.sregs
  let st := { st with k := { k with sregs := regs }, nans := st.nans ++ chainNans r t (v % 512) (v / 512) 0 sel wd
                      vecs := st.vecs ++ [out]
                      sums := st.sums ++ [((List.range wd).filter sel).map fun l => (r.rs.getD (nbits c.hdr 15 3) []).getD l 0] }
  if c.spdWr then st.writeRow cv hist (IWord.hset w) (h 14) wd v (t + 4 * c.sts.length) sel c.mzero out else st

/-- GATE. Fed by a CHAINED FUNC, it shares that one's schedule: both issue at the larger interval, and a vector enters VX as its FX
result becomes visible (R175). -/
def gateEff (k : Core) (w : IWord) (hist : Bool) : Eff :=
  let c := k.readChain (IWord.by w 4 2)
  let from_ := if IWord.w0 w 12 11 = 2 then k.csq.chain else none
  let ival0 := (from_.map (·.ival)).getD 0
  let lead := (from_.map (·.lat)).getD 0
  let cv := k.conv (IWord.ccw w) {}
  let rows := vecRows w .gate
  let wd := vecW w .gate
  let fs := (if IWord.w0 w 12 11 = 1 then [fmtOr (nbits w 168 4)] else [])
    ++ (if chainReads 2 c.sts then [fmtOr (nbits w 172 4)] else []) ++ (if chainReads 3 c.sts then [fmtOr (nbits w 176 4)] else [])
    ++ (if c.spdWr then [cv.f] else [])
  let ival := max ival0 (gateInterval c wd fs)
  let st := (List.range rows).foldl (gateRow w c cv hist lead ival) ⟨k, k.csq.gens, [], [], [], false, false⟩
  let k1 := st.close (IWord.by w 14 2)
  let k2 := if c.sumEn then { k1 with csq := { k1.csq with srs := k1.csq.srs.put 0 (summarise st.sums) } } else k1
  let chain : Option Chained :=
    if IWord.w0 w 13 13 = 1 then some { rows := rows, w := wd, vecs := st.vecs, ival := ival, lat := lead + 4 * c.sts.length } else none
  let prior := (from_.bind (·.nan)).map fun e => { e with time := e.time + (e.row + 512 * e.mc) * (ival - ival0) }
  { k := { k2 with csq := { k2.csq with chain := chain } }, nans := st.nans, prior := prior }

/-! ## FUNC (R175) -/

/-- One vector of a FUNC; the NaN of pass i arises as that pass ends (R124). DESIGN CHOICE (log 82): NAN_TILE and NAN_MC place the
vector as for a GATE. -/
def funcRow (w : IWord) (cv : Conv) (hist : Bool) (interval : Nat) (st : RowRun) (v : Nat) : RowRun :=
  let k := st.k
  let wd := vecW w .func
  let h (b : Nat) : Nat := IWord.by w b 2
  let fsel := IWord.w0 w 20 16
  let inp := k.inputRow (IWord.w0 w 12 11) (h 4) (fmtOr (nbits w 160 4)) wd (h 14) v
  let res := tab 128 fun l => fxApply k.fxContent fsel (inp.getD l 0)
  let bits := k.maskBits (h 6) v
  let sel (l : Nat) : Bool := decide (l < wd) && (IWord.w0 w 15 14 == 0 || nbits bits l 1 == 1)
  let t := v * interval
  let fin := t + 12 * fxPasses k.fxContent fsel
  let nans := (List.range wd).flatMap fun l =>
    if sel l then (res.getD l (0, [])).2.map fun (i, p) => ⟨t + 12 * (i + 1), .fx, l, p, v % 512, 0, 0xFFF, v / 512⟩ else []
  let out := res.map (·.1)
  let st := { st with nans := st.nans ++ nans, vecs := st.vecs ++ [out] }
  if IWord.w0 w 13 13 = 1 then st
  else st.writeRow cv hist (IWord.hset w) (h 8) wd v fin sel (IWord.w0 w 21 21 == 1) out

/-- FUNC. -/
def funcEff (k : Core) (w : IWord) (hist : Bool) : Eff :=
  let cv := k.conv (IWord.ccw w) {}
  let rows := vecRows w .func
  let wd := vecW w .func
  let chained := IWord.w0 w 13 13 == 1
  let fs := (if IWord.w0 w 12 11 = 1 then [fmtOr (nbits w 160 4)] else []) ++ (if chained then [] else [cv.f])
  let interval := max (fxPasses k.fxContent (IWord.w0 w 20 16)) ((fs.map (vecAccess wd)).foldl max 1)
  let st := (List.range rows).foldl (funcRow w cv hist interval) ⟨k, k.csq.gens, [], [], [], false, false⟩
  let k1 := st.close (if chained then 0 else IWord.by w 8 2)
  let chain : Option Chained := if chained then
      some { rows := rows, w := wd, vecs := st.vecs, ival := interval, lat := 12 * fxPasses k.fxContent (IWord.w0 w 20 16) }
    else none
  { k := { k1 with csq := { k1.csq with chain := chain } }, nans := st.nans }

/-! ## REDUCE (R125, R176) -/

/-- The sum of a sequence in chunks of 128 (R125). -/
def chunkSum (xs : List F32) : F32 :=
  (List.range (ceilDiv xs.length 128)).foldl (fun acc c => f32Add acc (groupSum (((xs.drop (128 * c)).take 128).map f32v))) 0

/-- Does element `a` win over the earlier element `b` (R47)? `low` looks for the smallest. -/
def redWins (low : Bool) (a b : F32) : Bool :=
  if f32IsNan a then false else if f32IsNan b then true
  else if low then decide (f32Cmp a < f32Cmp b) else decide (f32Cmp b < f32Cmp a)

/-- Inserts an element into a ranking after every element that is not beaten by it. -/
def rankInsert (low : Bool) (e : F32 × Nat) : List (F32 × Nat) → List (F32 × Nat)
  | [] => [e]
  | x :: rest => if redWins low e.1 x.1 then e :: x :: rest else x :: rankInsert low e rest

/-- The first `n` places of the ranking of a sequence (R125): ties to the lowest index, NaN after every number. -/
def rankTop (low : Bool) (n : Nat) (xs : List F32) : List (F32 × Nat) :=
  xs.zipIdx.foldl (fun acc e => (rankInsert low e acc).take n) []

/-- The values and indices of one sequence. -/
def reduceSeqOut (rop kk : Nat) (xs : List F32) : List (F32 × Nat) :=
  match rop with
  | 0 => [(chunkSum xs, 0)]
  | 1 => rankTop false 1 xs
  | 2 => rankTop true 1 xs
  | _ =>
    let top := rankTop (rop == 4) kk xs
    top ++ List.replicate (kk - top.length) (f32Nan, 0xFFFFFFFF)

/-- REDUCE. DESIGN CHOICE (log 82): a NaN that the reduce unit creates reaches no trap, for UNIT has no code for that unit (R127, R129);
the same holds of a summary's SUM. -/
def reduceEff (k : Core) (w : IWord) : Eff :=
  let x := k.readXb (IWord.xbRef w)
  let rop := nbits w 160 4
  let n := IWord.by w 12 2
  let len := nbits w 128 24
  let o : Oper := ⟨k.entry (IWord.by w 4 2), fmtOr (nbits w 168 4), n, len, k.operScale x.abs x.asc⟩
  let seqs : List (List F32) :=
    if IWord.w0 w 12 11 = 1 then
      match k.csq.chain with
      | some c => [c.vecs.flatMap fun v => v.take c.w]
      | none => []
    else tab n fun s => tab len fun i => k.f32At o 0 s i
  let kk := if rop < 3 then 1 else nbits w 164 4
  let outs := seqs.map (reduceSeqOut rop kk)
  let val := IWord.by w 6 2
  let idx := IWord.by w 8 2
  let k1 := outs.zipIdx.foldl (fun k (os, s) =>
    os.zipIdx.foldl (fun k (o, i) =>
      let off := 4 * (s * kk + i)
      let k := k.wrN (k.entry val) off 4 (outF32 o.1).toNat
      if refNull idx then k else k.wrN (k.entry idx) off 4 o.2) k) k
  let k2 := (k1.markWrite val false).markWrite idx false
  ⟨{ k2 with csq := { k2.csq with chain := none } }, [], none⟩

/-! ## CONVERT (R177) -/

/-- CONVERT. DESIGN CHOICE (log 82): NAN_TILE and NAN_MC place element (r, c) at ROW r mod 512, NG c / 128 and MC r / 512 (R129 names
none for CONVERT). -/
def convertEff (k : Core) (w : IWord) (hist : Bool) : Eff :=
  let x := k.readXb (IWord.xbRef w)
  let rows := IWord.by w 12 2
  let cols := IWord.by w 14 2
  let o : Oper := ⟨k.entry (IWord.by w 4 2), fmtOr (nbits w 128 4), rows, cols, k.operScale x.abs x.asc⟩
  let cv := k.conv (IWord.ccw w) x
  let els : List OutEl := (List.range rows).flatMap fun r => tab cols fun c =>
    ⟨c % 128, 0, r, c, k.f32At o 0 r c, r * ceilDiv cols 128 + c / 128, r % 512, c / 128, r / 512⟩
  let out := convertOut cv hist (IWord.hset w) (k.entry (IWord.by w 6 2)) (k.entry x.osc) 1 rows cols els ⟨k, k.csq.gens, []⟩
  let k1 := (out.k.markWrite (IWord.by w 6 2) cv.stoch).markWrite (if cv.bscale = 0 then 0 else x.osc) false
  ⟨{ k1 with csq := { k1.csq with gens := out.gens } }, out.nans, none⟩

end Sys2Proof.Machine
end

