-- ==== Sys2Proof/Machine/Recur.lean ====
section
/-! DEFINITION. Recurrent and state-space execution (05_recurrence): state slots and their banks, and the effects of RECUR
(R138 to R147), SCAN (R149, R150) and LCONV (R152 to R154). -/

namespace Sys2Proof.Machine

/-! ## Slots and banks (R133, R134) -/

/-- Byte offset of bank `b`, or of the initial state for b = 2. -/
def bankOff (h : SlotHdr) (b : Nat) : Nat := 64 + b * bankBytes h.efmt h.nelem

/-- CUR. -/
def SlotHdr.cur (h : SlotHdr) : Nat := nbits h.flags 1 1

/-- Has the running frame or job written the slot (R134)? -/
def Core.slotWritten (k : Core) (ref : Nat) : Bool := k.csq.slots.any fun e => e.1 == refIdx ref

/-- The bank that a read takes: the committed one, or the working one after the run's first write (R134). -/
def Core.readBank (k : Core) (ref : Nat) (h : SlotHdr) : Nat :=
  if k.slotWritten ref then 1 - h.cur else h.cur

/-- Element `i` of a bank as a pair; an FP32 element has lo = +0 (R37). -/
def Core.bankPair (k : Core) (e : DWord) (wide : Bool) (off i : Nat) : Pair32 :=
  if wide then k.elPair e (off + 8 * i) else ⟨word (k.rdN e (off + 4 * i) 4), 0⟩

/-- Element `i` of the initial state: the region after the banks, or +0 (R136). -/
def Core.initPair (k : Core) (e : DWord) (h : SlotHdr) (wide : Bool) (i : Nat) : Pair32 :=
  if nbits h.flags 2 1 = 1 then k.bankPair e wide (bankOff h 2) i else ⟨0, 0⟩

/-- Notes a write of the slot: OPEN is set, the steps of the instruction are added, SMARK is cleared (R134, R205). The first instruction
of the run that names the slot has CUR and STEP captured (R322). -/
def Core.slotWrote (k : Core) (ref steps : Nat) : Core :=
  let i := refIdx ref
  let e := k.entry ref
  let f := k.rdN e 3 1
  let caps := if k.csq.caps.any fun x => x.1 == i then k.csq.caps else k.csq.caps ++ [(i, f, k.rdN e 16 8)]
  let k := k.wrN e 3 1 (f ||| 8)
  { k with csq := { k.csq with slots := k.csq.slots.put i (Sparse.get 0 k.csq.slots i + steps), caps := caps } }.setSmark i false

/-- Is step `t` of stream `j` marked (R137)? -/
def Core.mark (k : Core) (ref T j t : Nat) : Bool :=
  !refNull ref && nbits (k.rdN (k.entry ref) (j * ceilDiv T 8 + t / 8) 1) (t % 8) 1 == 1

/-! ## RECUR -/

/-- State rows of one stream: rows of H pairs. -/
abbrev Rows := List (List Pair32)

/-- Element e of row r. -/
def Rows.at (x : Rows) (r e : Nat) : Pair32 := (List.getD x r []).getD e ⟨0, 0⟩

/-- Rewrites an element. -/
def Rows.put (x : Rows) (r e : Nat) (p : Pair32) : Rows := List.set x r ((List.getD x r []).set e p)

/-- A row element as a chain reads it through ST: RNE(hi + lo) (R143). -/
def Rows.val (x : Rows) (wide : Bool) (r e : Nat) : F32 := if wide then (x.at r e).norm.toF32 else (x.at r e).hi

/-- The parameters of a RECUR. -/
structure Rec where
  w : IWord
  p : StepProg
  T : Nat
  N : Nat
  H : Nat
  X : Nat
  /-- Units per n-group (R139). -/
  U : Nat
  af : Fmt
  wf : Fmt
  hist : Bool
  cv : Conv

/-- The parameters that the instruction and the core's widths give. -/
def Core.recOf (k : Core) (w : IWord) (hist : Bool) : Rec :=
  let p := k.readStep (IWord.by w 4 2)
  { w := w, p := p, T := IWord.recT w, N := IWord.recN w, H := IWord.by w 20 2, X := IWord.by w 22 2
    U := if p.form = 2 then k.widths.foldl min 32 else 32
    af := fmtOr (nbits w 224 4), wf := fmtOr (nbits w 228 4), hist := hist, cv := k.conv (IWord.ccw w) {} }

/-- K of the operand rows (R138). -/
def Rec.K (r : Rec) : Nat := r.X + r.H

/-- The operand-row buffer as a tensor. -/
def Rec.opr (r : Rec) (k : Core) : Oper := ⟨k.entry (IWord.by r.w 8 2), r.af, r.T * r.N, r.K, none⟩

/-- The weight tensor [K][128 ceil(H/32)] (R139). -/
def Rec.wts (r : Rec) (k : Core) : Oper := ⟨k.entry (IWord.by r.w 6 2), r.wf, r.K, 128 * ceilDiv r.H 32, none⟩

/-- Slot reference of stream j. -/
def Rec.slot (r : Rec) (k : Core) (j : Nat) : Nat := k.rdN (k.entry (IWord.by r.w 12 2)) (2 * j) 2

/-- h converted into the activation format: RNE, SAT = 1, nothing else (R145). DESIGN CHOICE (log 82): these conversions, like those of
LCONV history and state rows, are counted in no histogram set; R130 counts the elements that HSET's conversions write. -/
def Rec.hCode (r : Rec) (h : F32) : Nat := encodeElem r.af .rne true false none h

/-- The NaNs that converting the h of stream j, units `base` on, meets: SAT = 1 makes none, so each is propagated (R57, R127). -/
def Rec.hNans (r : Rec) (hs : List F32) (j base g time : Nat) : List NanEv :=
  hs.zipIdx.filterMap fun (h, i) =>
    if f32IsNan h then some ⟨time, .conversion, (j * r.H + base + i) % 128, true, j, g, 0xFFF, 0⟩ else none

/-- K-tiles, the leading ones that cover only x, and the n-groups (R138, R139, R270). -/
def Rec.tiles (r : Rec) : Nat := ceilDiv r.K (recurKt r.w r.p)
/-- Leading K-tiles of n-group 0 without an h element. -/
def Rec.xTiles (r : Rec) : Nat := r.X / recurKt r.w r.p
/-- n-groups. -/
def Rec.groups (r : Rec) : Nat := ceilDiv r.H r.U

/-- The CCLK at which the vector of stream j, step t, n-group g, K-tile `tile`, pass q enters the broadcast register: the fixed
schedule of the resident form (R145), or the walk of the tiled form with the gap that h needs (R147, R270). -/
def Rec.enter (r : Rec) (F t g j tile q : Nat) : Nat :=
  if r.p.form = 1 then t * r.p.period + (1 + b2n r.p.fb2) * j + q
  else
    let per := tilePeriod (b2n r.p.fb2) F r.N
    let gap := 24 + 4 * (r.p.stA.length + r.p.stB.length) + 12 * (1 - b2n r.p.noFxb) - r.xTiles * per
    let n := g * r.tiles + tile
    F + 1 + t * (r.groups * r.tiles * per + gap) + n * per - (if t ≠ 0 ∧ n < r.xTiles then gap else 0)
      + passStart (b2n r.p.fb2) F r.N q + j

/-- The rows with which stream j starts: the bank a read takes (R146). -/
def Rec.startRows (r : Rec) (k : Core) (j : Nat) : Rows :=
  let ref := r.slot k j
  let e := k.entry ref
  let h := k.slotHdr e
  tab r.p.nsr fun q => tab r.H fun i => k.bankPair e r.p.wide (bankOff h (k.readBank ref h)) (q * r.H + i)

/-- The initial state of stream j (R136). -/
def Rec.initRows (r : Rec) (k : Core) (j : Nat) : Rows :=
  let e := k.entry (r.slot k j)
  let h := k.slotHdr e
  tab r.p.nsr fun q => tab r.H fun i => k.initPair e h r.p.wide (q * r.H + i)

/-- Element `i` of the operand row of stream j at step t: the buffer's x part, the fed-back h part. -/
def Rec.operand (r : Rec) (k : Core) (hs : List Nat) (j t i : Nat) : Nat :=
  if i < r.X then k.el (r.opr k).e r.af r.K (t * r.N + j) i else hs.getD (i - r.X) 0

/-- Element i of the operand row as pass q broadcasts it: the element or its part (R90, R145); of an x element the latch may replace
bytes (R386), and the fed-back h comes from no SPD line in the resident form. -/
def Rec.castCode (r : Rec) (k : Core) (hs : List Nat) (j t kt q i : Nat) : Nat :=
  let c := r.operand k hs j t i
  let w := if r.p.fb2 then 16 else r.af.arrayWidth
  let c := if r.p.fb2 then (if q = 1 then splitLo (word c) else splitHi (word c)) else c
  if r.X ≤ i ∧ r.p.form = 1 then c else k.castCode (r.opr k) w kt 0 (t * r.N + j) i c

/-- The value of a broadcast code. -/
def Rec.part (r : Rec) (c : Nat) : FV := (if r.p.fb2 then .bf16 else r.af).arrayValue c

/-- The broadcast register after the vector of stream j, step t, K-tile `tile`, last pass (R65). -/
def Rec.cast (r : Rec) (k : Core) (hs : List Nat) (j t tile : Nat) : Sparse Byte :=
  let kt := recurKt r.w r.p
  castBytes (if r.p.fb2 then 16 else r.af.arrayWidth)
    (tab kt fun i => if r.K ≤ tile * kt + i then 0 else r.castCode k hs j t kt (b2n r.p.fb2) (tile * kt + i))

/-- The pre-activation of gate a of unit u: the reduction over K in K-tiles (R138, R85); the resident form reads the
active planes (R144). -/
def Rec.preact (r : Rec) (k : Core) (hs : List Nat) (j t a u : Nat) (enter : Nat → Nat → Nat) : Acc1 :=
  let kt := recurKt r.w r.p
  let m := k.mxa a
  let wt := r.wts k
  (List.range r.tiles).foldl (fun x tile =>
    (List.range (1 + b2n r.p.fb2)).foldl (fun x q =>
      let js := ((List.range kt).map fun i => tile * kt + i).filter fun i => decide (i < r.K)
      let av := js.map fun i => r.part (r.castCode k hs j t kt q i)
      let wv := js.map fun i =>
        if r.p.form = 1 then m.weightFv r.wf i (u % 32) else k.fvAt wt 0 i (128 * (u / 32) + 32 * a + u % 32)
      x.step (enter tile q + 7) tile ((av.zip wv).map fun (y, z) => y.mul z) (av.any FV.isNan || wv.any FV.isNan)) x) {}

/-- What a RECUR carries from step to step: core, rows and fed-back codes of each stream, generators, NaNs. -/
structure RecRun where
  k : Core
  rows : List Rows
  hs : List (List Nat)
  gens : Sparse DWord
  nans : List NanEv := []
  stochWrote : Bool := false
  wrote : Bool := false

/-- FX-A in lane 32a + i, FX-B in any lane: a function or a pass-through (R141). -/
def fxSel (k : Core) (sel : Nat) (x : F32) : F32 × List (Nat × Bool) :=
  if nbits sel 5 1 = 1 then (x, []) else fxApply k.fxContent (nbits sel 0 5) x

/-- A chain's masked write to a state row (R108, R142, R143). -/
def rowWrite (r : Rec) (c : Chain) (res : ChainRes) (rows : Rows) (base act : Nat) (ops : Nat → F32 × F32) : Rows :=
  (List.range act).foldl (fun x i =>
    let out := (res.out c).getD i 0
    if chainSel c res 0 i then
      let p : Pair32 := if r.p.wide then
          (if pairStage c then pairFma (rows.at c.stateDst (base + i)).norm (ops i).1 (ops i).2 else ⟨out, 0⟩)
        else ⟨out, 0⟩
      x.put c.stateDst (base + i) (outPair p)
    else if c.mzero then x.put c.stateDst (base + i) ⟨0, 0⟩ else x) rows

/-- One n-group of one stream's step: pre-activations, FX-A, chain A, FX-B, chain B (R142, R145, R147). -/
def Rec.group (r : Rec) (t j g : Nat) (rows0 : Rows) (hs : List Nat) (st : RecRun) : RecRun :=
  let k := st.k
  let enter := r.enter (fillTime k.widths) t g j
  let base := r.U * g
  let act := min r.U (r.H - base)
  let live (l : Nat) : Bool := decide (l % 32 < act)
  let pre := tab 128 fun l => if live l then r.preact k hs j t (l / 32) (base + l % 32) enter else {}
  let P := pre.map (·.acc)
  let aNans := pre.zipIdx.flatMap fun (x, l) => x.nans.map fun (tm, kt, pr) => ⟨tm, .arrays, l, pr, j, g, kt, 0⟩
  let ga := P.zipIdx.map fun (x, l) => if live l then fxSel k (r.p.fxaSel (l / 32)) x else (0, [])
  let G := ga.map (·.1)
  let fxNans (xs : List (F32 × List (Nat × Bool))) (tm : Nat) : List NanEv :=
    (xs.take act).zipIdx.flatMap fun (x, l) => x.2.map fun (i, pr) => ⟨tm + 12 * (i + 1), .fx, l, pr, j, g, 0xFFF, 0⟩
  let cA : Chain := ⟨r.p.hdrA, r.p.ks, r.p.stA⟩
  let cB : Chain := ⟨r.p.hdrB, r.p.ks, r.p.stB⟩
  let stVec (rows : Rows) (q : Nat) : List F32 := tab 128 fun l => if live l then rows.val r.p.wide q (base + l % 32) else 0
  let pairsOf (c : Chain) (rows : Rows) : Option (Nat → Pair32) :=
    if r.p.wide then some fun l => rows.at c.stateDst (base + l % 32) else none
  let opsOf (c : Chain) (x : VecSrc) (res : ChainRes) (l : Nat) : F32 × F32 :=
    let s := c.sts.getD (nbits c.hdr 4 3) 0
    (x.fetch res.rs (nbits s 8 16) l, x.fetch res.rs (nbits s 40 16) l)
  let xA : VecSrc := ⟨G, P, [], stVec rows0, r.p.ks, live⟩
  let rA := chainRun cA xA (pairsOf cA rows0)
  let outA := rA.out cA
  let rows1 := if cA.stateWr then rowWrite r cA rA rows0 base act (opsOf cA xA rA) else rows0
  let fb := if r.p.noFxb then [] else outA.zipIdx.map fun (x, l) => if live l then fxSel k (nbits r.p.fxb 0 6) x else (0, [])
  let inB := if r.p.noFxb then outA else fb.map (·.1)
  let xB : VecSrc := ⟨inB, G, outA, stVec rows1, r.p.ks, live⟩
  let rB := chainRun cB xB (pairsOf cB rows1)
  let rows2 := rowWrite r cB rB rows1 base act (opsOf cB xB rB)
  let tX := enter (r.tiles - 1) (b2n r.p.fb2) + 9 + (if r.p.form = 1 then 0 else 2)
  let tA := tX + 12
  let tY := tA + 4 * cA.sts.length
  let tB := tY + (if r.p.noFxb then 0 else 12)
  let hv := (List.range act).map fun i => rows2.val r.p.wide r.p.fbrow (base + i)
  let nans := aNans ++ fxNans ga tX ++ chainNans rA tA j 0 g (chainSel cA rA 0) act
    ++ fxNans fb tY ++ chainNans rB tB j 0 g (chainSel cB rB 0) act
    ++ (if t + 1 < r.T then r.hNans hv j base g (tB + 4 * cB.sts.length) else [])
  let hn := hv.map r.hCode
  let hOld := st.hs.getD j []
  let st := { st with rows := st.rows.set j rows2, nans := st.nans ++ nans
                      hs := st.hs.set j (hOld.take base ++ hn ++ hOld.drop (base + act)) }
  let st := { st with k := (List.range 4).foldl (fun k a =>
    (List.range (k.mxa a).width).foldl (fun k i => k.putAcm a j i (P.getD (32 * a + i) 0)) k) st.k }
  if cB.spdWr then
    let out := rB.out cB
    let e := k.entry (IWord.by r.w 10 2)
    let sel := chainSel cB rB 0
    let row := t * r.N + j
    let els : List OutEl := ((List.range act).filter sel).map fun i =>
      ⟨(j * r.H + base + i) % 128, 0, row, base + i, out.getD i 0, tB + 4 * cB.sts.length, j, g, 0⟩
    let o := convertOut r.cv r.hist (IWord.hset r.w) e 0 1 (row + 1) r.H els ⟨st.k, st.gens, []⟩
    let zeros := if cB.mzero then (List.range act).filter fun i => !sel i else []
    let k := zeros.foldl (fun k i => k.putOut e r.cv.f r.H row (base + i) 0) o.k
    { st with k := k, gens := o.gens, nans := st.nans ++ o.nans
              stochWrote := st.stochWrote || (r.cv.stoch && !els.isEmpty), wrote := st.wrote || !els.isEmpty || !zeros.isEmpty }
  else st

/-- Writes the h part of operand row (t, j), the tiled form's own write (R147). -/
def Rec.putH (r : Rec) (k : Core) (t j : Nat) (hs : List Nat) : Core :=
  hs.zipIdx.foldl (fun k (c, i) => k.putEl (k.entry (IWord.by r.w 8 2)) r.af r.K (t * r.N + j) (r.X + i) c) k

/-- One stream at one step: marks, the operand row, the n-groups in order (R146, R147). -/
def Rec.stream (r : Rec) (t : Nat) (init : List Rows) (st : RecRun) (j : Nat) : RecRun :=
  let marked := st.k.mark (IWord.by r.w 14 2) r.T j t
  let rows := if marked then init.getD j [] else st.rows.getD j []
  let hv := (List.range r.H).map fun i => rows.val r.p.wide r.p.fbrow i
  let hs := if marked then hv.map r.hCode else st.hs.getD j []
  let k := if r.p.form = 2 then r.putH st.k t j hs else st.k
  let k := { k with bcast := r.cast k hs j t (r.tiles - 1) }
  let nans := if marked || t == 0 then
      r.hNans hv j 0 0 (if t = 0 then 0 else r.enter (fillTime k.widths) t 0 j r.xTiles 0) else []
  let st := { st with k := k, rows := st.rows.set j rows, hs := st.hs.set j hs, nans := st.nans ++ nans }
  (List.range r.groups).foldl (fun st g => r.group t j g (st.rows.getD j []) hs st) st

/-- The final rows go to the working bank (R134, R142). -/
def Rec.save (r : Rec) (rows : List Rows) (k : Core) (j : Nat) : Core :=
  let ref := r.slot k j
  let e := k.entry ref
  let h := k.slotHdr e
  let off := bankOff h (1 - h.cur)
  let x := rows.getD j []
  let k := (List.range r.p.nsr).foldl (fun k q => (List.range r.H).foldl (fun k i =>
    let p := x.at q i
    if r.p.wide then k.putPair e (off + 8 * (q * r.H + i)) p else k.wrN e (off + 4 * (q * r.H + i)) 4 (outF32 p.hi).toNat) k) k
  k.slotWrote ref r.T

/-- The planes that a tiled RECUR leaves on array `a`: the last two tiles it streamed, the last one active, without tag; R326 gives the CRC
to the fills of LOADW, MATMUL and MATVEC only (R71, R147, R168). -/
def Rec.planes (r : Rec) (k : Core) (a : Nat) (m : Mxa) : Mxa :=
  let one := (List.range r.groups).flatMap fun g => (List.range r.tiles).map fun t => (g, t)
  let all := if r.T < 2 then one else one ++ one
  let fills := all.drop (all.length - 2)
  let wt := r.wts k
  fills.foldl (fun m (g, t) =>
    m.load (k.planeOf m ⟨wt, recurKt r.w r.p, t, fun c =>
      let u := r.U * g + c
      if c < r.U then 128 * (u / 32) + 32 * a + u % 32 else wt.C, wt.C, false, 0⟩) none false) (m.before (r.T * one.length) fills.length)

/-- RECUR, in either form (R144, R147). -/
def recurEff (k : Core) (w : IWord) (hist : Bool) : Eff :=
  let r := k.recOf w hist
  let rows := tab r.N (r.startRows k)
  let init := tab r.N (r.initRows k)
  let hs := rows.map fun x => (List.range r.H).map fun i => r.hCode (x.val r.p.wide r.p.fbrow i)
  let st : RecRun := ⟨k, rows, hs, k.csq.gens, [], false, false⟩
  let st := (List.range r.T).foldl (fun st t => (List.range r.N).foldl (r.stream t init) st) st
  let k1 := (List.range r.N).foldl (r.save st.rows) st.k
  let k2 := if st.wrote then k1.setSmark (refIdx (IWord.by w 10 2)) st.stochWrote else k1
  let k3 := if r.p.form = 2 then
      let k := k2.markWrite (IWord.by w 8 2) false
      (List.range 4).foldl (fun q a => q.updMxa a (r.planes k a)) k
    else k2
  ⟨{ k3 with csq := { k3.csq with gens := st.gens } }, st.nans, none⟩

/-! ## SCAN (R149, R150) -/

/-- One element's recurrence over the steps: the states after each step, raw. -/
def scanLane (T : Nat) (wide : Bool) (h0 init : Pair32) (marked : Nat → Bool) (a b : Nat → F32) : List Pair32 :=
  ((List.range T).foldl (fun (st : Pair32 × List Pair32) t =>
    let h := if marked t then init else st.1
    let h' : Pair32 := if wide then pairFma h.norm (a t) (b t) else ⟨f32Fma (a t) h.hi (b t), 0⟩
    (h', st.2 ++ [h'])) (h0, [])).2

/-- SCAN. -/
def scanEff (k : Core) (w : IWord) (hist : Bool) : Eff :=
  let x := k.readXb (IWord.xbRef w)
  let T := IWord.recT w
  let N := IWord.recN w
  let D := IWord.scanD w
  let wide := IWord.w0 w 12 12 == 1
  let amode := IWord.w0 w 11 11
  let oa : Oper := ⟨k.entry (IWord.by w 4 2), fmtOr (nbits w 224 4), N, D, k.operScale x.abs x.asc⟩
  let ob : Oper := ⟨k.entry (IWord.by w 6 2), fmtOr (nbits w 228 4), N, D, k.operScale x.wbs x.wsc⟩
  let cv := k.conv (IWord.ccw w) x
  let mk := IWord.by w 12 2
  let acc (f : Fmt) : Nat := vecAccess 128 f
  let A := max (max (acc oa.f) (acc ob.f)) (acc cv.f)
  let per := if wide then 4 else 8
  let V := ceilDiv (N * D) 128
  let timeOf (f t : Nat) : Nat :=
    let v := f / 128
    let pass := v / per
    let size := min per (V - pass * per)
    pass * (T * max (per * A) 4 + 4) + t * max (size * A) 4 + (v % per) * A
  let slot (j : Nat) : Nat := k.rdN (k.entry (IWord.by w 10 2)) (2 * j) 2
  let lane (f : Nat) : List Pair32 :=
    let j := f / D
    let d := f % D
    let ref := slot j
    let e := k.entry ref
    let h := k.slotHdr e
    scanLane T wide (k.bankPair e wide (bankOff h (k.readBank ref h)) d) (k.initPair e h wide d) (k.mark mk T j)
      (fun t => k.f32At oa (if amode = 1 then 0 else t) j d) (fun t => k.f32At ob t j d)
  let res := tab (N * D) lane
  let val (p : Pair32) : F32 := if wide then p.toF32 else p.hi
  let vxNans := res.zipIdx.flatMap fun (hs, f) => hs.zipIdx.filterMap fun (p, t) =>
    if f32IsNan p.hi then
      let j := f / D
      let d := f % D
      let prev := if t = 0 then false else f32IsNan (hs.getD (t - 1) ⟨0, 0⟩).hi && !k.mark mk T j t
      let ins := f32IsNan (k.f32At oa (if amode = 1 then 0 else t) j d) || f32IsNan (k.f32At ob t j d)
      let ref := slot j
      let e := k.entry ref
      let h := k.slotHdr e
      let first := if t = 0 then f32IsNan (if k.mark mk T j 0 then k.initPair e h wide d
        else k.bankPair e wide (bankOff h (k.readBank ref h)) d).hi
        else k.mark mk T j t && f32IsNan (k.initPair e h wide d).hi
      some (⟨timeOf f t + 4, .vx, f % 128, prev || ins || first, f / 128 % 512, 0, 0xFFF, 0⟩ : NanEv)
    else none
  let els : List OutEl := (List.range T).flatMap fun t => tab (N * D) fun f =>
    ⟨f % 128, t, f / D, f % D, val ((res.getD f []).getD t ⟨0, 0⟩), timeOf f t + 4, f / 128 % 512, 0, 0⟩
  let out := convertOut cv hist (IWord.hset w) (k.entry (IWord.by w 8 2)) (k.entry x.osc) T N D els ⟨k, k.csq.gens, []⟩
  let last (f : Nat) : Pair32 := (res.getD f []).getD (T - 1) ⟨0, 0⟩
  let k1 := (List.range N).foldl (fun k' j =>
    let ref := slot j
    let e := k'.entry ref
    let h := k'.slotHdr e
    let off := bankOff h (1 - h.cur)
    let k' := (List.range D).foldl (fun k' d =>
      let p := last (j * D + d)
      if wide then k'.putPair e (off + 8 * d) p else k'.wrN e (off + 4 * d) 4 (outF32 p.hi).toNat) k'
    k'.slotWrote ref T) out.k
  let v0 := (V - 1) / per * per
  let regs := (List.range (N * D)).foldl (fun m f =>
    if f / 128 < v0 then m
    else
      let i := f / 128 - v0
      if wide then
        Sparse.set 0 (Sparse.set 0 m (128 * (2 * i) + f % 128) (last f).hi) (128 * (2 * i + 1) + f % 128) (last f).lo
      else Sparse.set 0 m (128 * i + f % 128) (last f).hi) k1.sregs
  let k2 := ((k1.markWrite (IWord.by w 8 2) cv.stoch).markWrite (if cv.bscale = 0 then 0 else x.osc) false)
  ⟨{ k2 with sregs := regs, csq := { k2.csq with gens := out.gens } }, vxNans ++ out.nans, none⟩

/-! ## LCONV (R152 to R154) -/

/-- The latest marked step at or before `t`, if any. -/
def lastMark (k : Core) (ref T j : Nat) : Nat → Option Nat
  | 0 => if k.mark ref T j 0 then some 0 else none
  | t + 1 => if k.mark ref T j (t + 1) then some (t + 1) else lastMark k ref T j t

/-- The parameters of an LCONV on one stream. -/
structure Lc where
  T : Nat
  D : Nat
  L : Nat
  f : Fmt
  u : Oper
  kern : Oper
  mkH : Nat
  ref : Nat
  j : Nat

/-- The code history holds for element i of channel d: a bank, or the initial state (R133, R153). -/
def Lc.histCode (l : Lc) (k : Core) (bank d i : Nat) : Nat :=
  let e := k.entry l.ref
  let h := k.slotHdr e
  if i + 1 < l.L then
    if bank = 2 ∧ nbits h.flags 2 1 = 0 then 0
    else
      let off := bankOff h bank
      if l.f = .f4 then nbits (k.rdN e (off + (d * (l.L - 1) + i) / 2) 1) (4 * ((d * (l.L - 1) + i) % 2)) 4
      else k.rdN e (off + (d * (l.L - 1) + i) * (l.f.bits / 8)) (l.f.bits / 8)
  else 0

/-- Where the effective input at chunk step s (negative before the chunk) comes from, as seen after the latest mark m. -/
inductive LcSrc where
  | chunk (s : Nat)
  | hist (i : Nat)
  | init (i : Nat)
  deriving DecidableEq, Repr

/-- R153: the chunk, the committed history, or the initial state's history. -/
def lcSource (mark : Option Nat) (s : Int) : LcSrc :=
  match mark with
  | some m => if (m : Int) ≤ s then .chunk s.toNat else .init ((m : Int) - 1 - s).toNat
  | none => if 0 ≤ s then .chunk s.toNat else .hist (-1 - s).toNat

/-- The exact array value of an effective input. -/
def Lc.inputFv (l : Lc) (k : Core) (bank d : Nat) (mark : Option Nat) (s : Int) : FV :=
  match lcSource mark s with
  | .chunk t => k.fvAt l.u t l.j d
  | .hist i => l.f.arrayValue (l.histCode k bank d i)
  | .init i => l.f.arrayValue (l.histCode k 2 d i)

/-- The code with which an effective input enters the history: RNE into the activation format (R153, R156). DESIGN CHOICE (log 82), where
no rule states it: a block-scaled element enters as its scaled FP32 value rounded back into the format, for the history has no scales
(R51, R133), and SAT is 0, so that an infinite input stays infinite as R152 asks of every chunking (R57). -/
def Lc.inputCode (l : Lc) (k : Core) (bank d : Nat) (mark : Option Nat) (s : Int) : Nat :=
  let enc (x : F32) : Nat := encodeElem l.f .rne false false none x
  match lcSource mark s with
  | .chunk t => enc (k.f32At l.u t l.j d)
  | .hist i => enc (l.f.widen (l.histCode k bank d i))
  | .init i => enc (l.f.widen (l.histCode k 2 d i))

/-- Δ: the Toeplitz tiles of a channel are T_Δ down to T_0 (R154). -/
def Lc.delta (l : Lc) : Nat := (l.L + ktOf l.f false - 2) / ktOf l.f false

/-- One output: the group sums of the absolute input blocks in ascending order (R152). `at_ i` is the CCLK in which its row's vector of
the channel's tile i enters, tile i being T_(Δ - i) (R154). -/
def Lc.output (l : Lc) (k : Core) (bank step d t : Nat) (at_ : Nat → Nat) : Acc1 :=
  let kt := ktOf l.f false
  let n : Int := (step : Int) + t
  let mark := lastMark k l.mkH l.T l.j t
  let lo := (n - ((l.L : Int) - 1)) / (kt : Int)
  let hi := n / (kt : Int)
  (List.range (hi - lo + 1).toNat).foldl (fun x (b : Nat) =>
    let blk := lo + (b : Int)
    let ss := ((List.range kt).map fun (r : Nat) => blk * (kt : Int) + (r : Int)).filter fun s => decide (s ≤ n) && decide (n - s < (l.L : Int))
    let av := ss.map fun s => l.inputFv k bank d mark (s - step)
    let wv := ss.map fun s => k.fvAt l.kern 0 d (n - s).toNat
    let tile := l.delta - (hi - lo).toNat + b
    x.step (at_ tile + 7) tile ((av.zip wv).map fun (y, z) => y.mul z) (av.any FV.isNan || wv.any FV.isNan)) {}

/-- The output blocks of stream `j` that the chunk touches (R154). -/
def Lc.blocks (l : Lc) (step : Nat) : Nat := (step + l.T - 1) / ktOf l.f false - step / ktOf l.f false + 1

/-- What LCONV leaves in plane cells and in the broadcast register: R154 gives the Toeplitz elements and not which array, plane or
broadcast element holds them, so the words are free. `src` is the kernel's bytes. -/
def lconvPlanes (k : Core) (w : IWord) (src : List Byte) : Core :=
  let word (a i : Nat) : BitVec 16 := Config.lconvWord w (src.map (·.toNat)) a i
  let plane (a base : Nat) : Sparse (BitVec 16) := (tab 1024 fun i => (i, word a (base + i))).filter fun e => e.2 != 0
  let k := (List.range 4).foldl (fun k a => k.updMxa a fun m =>
    { m with active := plane a 0, shadow := plane a 1024, tag := none, crc := none }) k
  { k with bcast := (tab 64 fun i => (i, (word 4 i).setWidth 8)).filter fun e => e.2 != 0 }

/-- LCONV. The cell of the ACM that holds an output is the implementation's (R80, R154 name none): array, row and column from
`Config.lconvCell`. Tiles are taken channel by channel, T_Δ first, each over the output blocks stream by stream (R99, R154). -/
def lconvEff (k : Core) (w : IWord) (hist : Bool) : Eff :=
  let x := k.readXb (IWord.xbRef w)
  let T := IWord.recT w
  let N := IWord.recN w
  let D := IWord.by w 20 2
  let L := IWord.by w 22 2
  let f := fmtOr (nbits w 228 4)
  let u : Oper := ⟨k.entry (IWord.by w 6 2), f, N, D, k.operScale x.abs x.asc⟩
  let kern : Oper := ⟨k.entry (IWord.by w 4 2), fmtOr (nbits w 224 4), D, L, k.operScale x.wbs x.wsc⟩
  let cv := k.conv (IWord.ccw w) x
  let lc (j : Nat) : Lc := ⟨T, D, L, f, u, kern, IWord.by w 12 2, k.rdN (k.entry (IWord.by w 10 2)) (2 * j) 2, j⟩
  let hdr (j : Nat) : SlotHdr := k.slotHdr (k.entry (lc j).ref)
  let bank (j : Nat) : Nat := k.readBank (lc j).ref (hdr j)
  let kt := ktOf f false
  let F := fillTime k.widths
  let rowOf (j t : Nat) : Nat :=
    ((List.range j).map fun i => (lc i).blocks (hdr i).step).foldl (· + ·) 0 + (((hdr j).step + t) / kt - (hdr j).step / kt)
  let B := ((List.range N).map fun i => (lc i).blocks (hdr i).step).foldl (· + ·) 0
  let per := max B (F + 1)
  let enter (j d t tile : Nat) : Nat := F + 1 + (d * ((lc j).delta + 1) + tile) * per + rowOf j t
  let outs : List (Nat × Nat × Nat × Acc1) := (List.range T).flatMap fun t => (List.range N).flatMap fun j => tab D fun d =>
    (t, j, d, (lc j).output k (bank j) (hdr j).step d t (enter j d t))
  let cell (t j d : Nat) : Nat := Config.lconvCell w d j ((hdr j).step + t)
  let nans := outs.flatMap fun (t, j, d, a) => a.nans.map fun (tm, b, pr) =>
    let c := cell t j d
    (⟨tm, .arrays, c % 32 + 32 * (c / 16384 % 4), pr, c / 32 % 512, 0, b, 0⟩ : NanEv)
  let kA := outs.foldl (fun q (t, j, d, a) => let c := cell t j d; q.putAcm (c / 16384 % 4) (c / 32 % 512) (c % 32) a.acc) k
  let els : List OutEl := outs.map fun (t, j, d, a) =>
    ⟨(j * D + d) % 128, t, j, d, a.acc, enter j d t (lc j).delta + 11, j, 0, 0⟩
  let out := convertOut cv hist (IWord.hset w) (k.entry (IWord.by w 8 2)) (k.entry x.osc) T N D els ⟨kA, k.csq.gens, []⟩
  let k1 := (List.range N).foldl (fun k' j =>
    let l := lc j
    let e := k'.entry l.ref
    let off := bankOff (hdr j) (1 - (hdr j).cur)
    let mark := lastMark k l.mkH T j (T - 1)
    let k' := (List.range D).foldl (fun k' (d : Nat) => (List.range (L - 1)).foldl (fun k' (i : Nat) =>
      let c := l.inputCode k (bank j) d mark ((T : Int) - 1 - i)
      let g := d * (L - 1) + i
      if f = .f4 then
        let old := k'.rdN e (off + g / 2) 1
        k'.wrN e (off + g / 2) 1 (if g % 2 = 1 then old % 16 + 16 * c else if g + 1 = D * (L - 1) then c else old / 16 * 16 + c)
      else k'.wrN e (off + g * (f.bits / 8)) (f.bits / 8) c) k') k'
    k'.slotWrote l.ref T) out.k
  let k2 := ((k1.markWrite (IWord.by w 8 2) cv.stoch).markWrite (if cv.bscale = 0 then 0 else x.osc) false)
  let k3 := lconvPlanes k2 w (k.rd kern.e 0 (D * kern.f.rowBytes L))
  ⟨{ k3 with csq := { k3.csq with gens := out.gens } }, nans ++ out.nans, none⟩

end Sys2Proof.Machine
end

