-- ==== Sys2Proof/Machine/Span.lean ====
section
/-! DEFINITION. Shared operations of spans and of persistent state (12_span_and_migration, 11_faults_and_kennel): network
time, sending a protected frame, the payload of a member, and the digest of a frame. -/

namespace Sys2Proof.Machine

/-- Network time: the value of the lowest enabled time base whose source is network time (R350). -/
def State.netTime? (s : State) : Option DWord :=
  ((List.range 8).find? fun t => (s.tb t).en && (s.tb t).src == 3).map fun t => (s.tb t).value

/-- Own member number. -/
def State.selfMember (s : State) : Nat := wbits s.peer.self 3 0

/-- The sender identifier of a member of this span: SPAN × 2^16 + MEMBER (R349). -/
def State.sidOf (s : State) (m : Nat) : Nat := wbits s.peer.self 31 16 * 65536 + m

/-- Bytes as numbers. -/
def natBytes (bs : List Byte) : List Nat := bs.map BitVec.toNat

/-- Numbers as bytes. -/
def bytesOf (ns : List Nat) : List Byte := ns.map (BitVec.ofNat 8 ·)

/-- Queues a frame of message type `type` to partner `m` (R351, R352, R398). Nothing is sent without network time, with
HB_PERIOD = 0, to a partner that is not enabled, or once its counter is exhausted. -/
def State.sendPeer (s : State) (m type : Nat) (body : List Byte) (urgent : Bool) : State :=
  let p := s.partner m
  if s.netTime?.isNone || wbits s.peer.hb 15 0 == 0 || !p.en || m == s.selfMember || p.exhausted then s
  else
    let minor := if type = 1 then 0 else p.minor
    let hdr := leBytes 2 (0x100 + minor) ++ [type, m] ++ leBytes 4 (s.sidOf s.selfMember) ++ leBytes 8 p.txCtr
    let ks := keySchedule (keyBytes (Sparse.get 0 s.peer.keys p.txKey))
    let iv := gcmIv (s.sidOf s.selfMember) p.txCtr
    let ct := gctr ks iv (natBytes body)
    let fr : TxFrame := ⟨m, bytesOf (hdr ++ ct ++ gcmTag ks iv hdr ct)⟩
    let s := s.updPartner m fun q => { q with txCtr := q.txCtr + 1, exhausted := decide (p.txCtr + 1 = 2 ^ 64 - 1) }
    let s := { s with peer := if urgent then { s.peer with urgent := s.peer.urgent ++ [fr] }
                              else { s.peer with ordered := s.peer.ordered ++ [fr] } }
    s.raiseIf (decide (p.txCtr + 1 = 2 ^ 64 - 1)) pgPeer 5

/-! ## State slots of a group's members (R334) -/

/-- The slot lists that the program's RECUR, SCAN and LCONV instructions name, in the order of their instructions: list
reference and length. -/
def Core.slotLists (k : Core) (prog : Nat) : List (Nat × Nat) :=
  (tab (k.progNinst prog) fun i =>
    let w := k.progWord prog (i + 1)
    match IWord.opc w with
    | some .recur => [(IWord.by w 12 2, IWord.recN w)]
    | some .scan => [(IWord.by w 10 2, IWord.recN w)]
    | some .lconv => [(IWord.by w 10 2, IWord.recN w)]
    | _ => []).flatten

/-- The distinct state slots of member `j`: core and handle index, by instruction and then by logical slot. -/
def State.memberSlots (s : State) (g : Group) (j : Nat) : List (Nat × Nat) :=
  let lists := (tab g.nslot fun k => (s.core (g.core k)).slotLists (g.progs.getD k 0))
  let n := (lists.getD 0 []).length
  ((tab n fun i => (tab g.nslot fun k =>
    match (lists.getD k [])[i]? with
    | some (ref, len) =>
      if j < len then
        let c := g.core k
        [(c, refIdx ((s.core c).rdN ((s.core c).entry ref) (2 * j) 2))]
      else []
    | none => []).flatten).flatten).eraseDups

/-- The 64 header bytes and the committed bank of a slot. -/
def Core.slotImage (k : Core) (idx : Nat) : List Byte :=
  let e := k.entry idx
  let h := k.slotHdr e
  k.rd e 0 64 ++ k.rd e (bankOff h h.cur) (bankBytes h.efmt h.nelem)

/-- The generator states of a group, slots 0 to NSLOT - 1 and lanes 0 to 127 (R62). -/
def Group.genBytes (g : Group) : List Byte :=
  (tab (128 * g.nslot) fun i => toBytes 8 (Sparse.get (0 : DWord) g.gens i).toNat).flatten

/-- The payload of member `j` (R334). -/
def State.payload (s : State) (g : Group) (j : Nat) : List Byte :=
  ((s.memberSlots g j).map fun (c, i) => (s.core c).slotImage i).flatten ++ g.genBytes

/-- The egress words that a frame releases as computed output, by member, step and lane (R360). -/
def Group.digestWords (g : Group) (f : Frame) : List Word :=
  (tab g.nmem fun m => (tab g.n fun t => (f.outs.map fun b =>
    if b.mbase ≤ m ∧ m < b.mbase + b.mcnt then
      tab b.nch fun c => Sparse.get (0 : Word) f.egress (egressKey b.lane (b.pos g.nmem t m c))
    else []).flatten).flatten).flatten

/-- The digest of a frame of the group as its state stands after the commit (R360). -/
def State.digest (s : State) (g : Group) (f : Frame) : List Byte :=
  bytesOf (sha384 (leBytes 8 f.n ++ natBytes ((g.digestWords f).flatMap fun w => toBytes 4 w.toNat)
    ++ natBytes ((tab g.nmem fun j => s.payload g j).flatten)))

/-- Installs a slot image into bank CUR of the slot when its header fields agree (R342, R363): the core, and whether it
did. -/
def Core.installSlot (k : Core) (idx : Nat) (img : List Byte) : Core × Bool :=
  let e := k.entry idx
  let h := k.slotHdr e
  let flags := fieldAt img 3 1
  if fieldAt img 0 2 = h.ver ∧ fieldAt img 2 1 = h.mode ∧ nbits flags 0 1 = nbits h.flags 0 1
      ∧ nbits flags 2 1 = nbits h.flags 2 1 ∧ fieldAt img 4 1 = h.efmt ∧ fieldAt img 8 4 = h.nelem then
    let k := k.wr e (bankOff h h.cur) (img.drop 64)
    let k := (k.wrN e 16 8 (fieldAt img 16 8)).wrN e 3 1 (h.flags &&& 0xF7)
    ({ k with wlog := [] }, true)
  else (k, false)

/-- Bytes of the slot images of a member, each with its slot. -/
def State.imageSplit (s : State) (slots : List (Nat × Nat)) (bs : List Byte) : List ((Nat × Nat) × List Byte) :=
  match slots with
  | [] => []
  | (c, i) :: rest =>
    let k := s.core c
    let h := k.slotHdr (k.entry i)
    let n := 64 + bankBytes h.efmt h.nelem
    ((c, i), bs.take n) :: s.imageSplit rest (bs.drop n)

/-- Installs the slot images of one member's payload; true when every image agreed. -/
def State.installMember (s : State) (g : Group) (j : Nat) (payload : List Byte) : State × Bool :=
  (s.imageSplit (s.memberSlots g j) payload).foldl (fun (t, ok) ((c, i), img) =>
    let r := (t.core c).installSlot i img
    (t.setCore c r.1, ok && r.2)) (s, true)

/-- The generator states of a payload (R334). -/
def gensOfPayload (nslot : Nat) (payload : List Byte) : Sparse DWord :=
  let bs := payload.drop (payload.length - 1024 * nslot)
  (List.range (128 * nslot)).foldl (fun m i => Sparse.set 0 m i (dword (fieldAt bs (8 * i) 8))) []

end Sys2Proof.Machine
end

