-- ==== Sys2Proof/Machine/Frames.lean ====
section
/-! DEFINITION. The life of a frame (08_time_and_admission, 11_faults_and_kennel): closing, firing, starting, discarding,
restarting, fallback, commit and finish, with Leash, parking and the migration failures that a lost frame causes. -/

namespace Sys2Proof.Machine

/-! ## Pins (R113, R245) -/

/-- FX slots that the program copy of a slot names. -/
def Core.fxNamed (k : Core) (prog : Nat) : List Nat :=
  let sel (x : Nat) : List Nat := if 16 ≤ x ∧ x < 32 then [x - 16] else []
  let own := (tab (k.progNinst prog) fun i =>
    let w := k.progWord prog (i + 1)
    match IWord.opc w with
    | some .func => sel (IWord.w0 w 20 16)
    | some .recur =>
      let p := k.readStep (IWord.by w 4 2)
      let q (x : Nat) : List Nat := if nbits x 5 1 = 1 then [] else sel (nbits x 0 5)
      (tab 4 fun a => q (p.fxaSel a)).flatten ++ (if p.noFxb then [] else q (nbits p.fxb 0 6))
    | _ => []).flatten
  let tabs := own.flatMap fun f => match k.fxContent f with
    | .micro m => m.steps.filterMap fun w => if nbits w 28 4 = 13 then some (nbits w 0 4) else none
    | _ => []
  (own ++ tabs).eraseDups

/-- Is an FX slot of a core named by an armed group? -/
def State.fxNeeded (s : State) (c i : Nat) : Bool :=
  s.groups.any fun e => e.2.stage != .reserved
    && (List.range e.2.nslot).any fun k => e.2.core k == c && ((s.core c).fxNamed (e.2.progs.getD k 0)).contains i

/-- Sets or clears PIN of an FX slot. -/
def State.pin (s : State) (c i : Nat) (b : Bool) : State :=
  s.updCore c fun k => { k with fx := k.fx.put i { k.fxSlot i with pin := b } }

/-- The FX slots that a group's copies name: core and slot. -/
def State.fxOf (s : State) (g : Group) : List (Nat × Nat) :=
  (tab g.nslot fun k => ((s.core (g.core k)).fxNamed (g.progs.getD k 0)).map fun i => (g.core k, i)).flatten

/-! ## Closing (R236, R239) -/

/-- The group is armed, so that its frames close. -/
def Group.live (g : Group) : Bool := g.stage != .reserved

/-- The next close of a group passes at this edge: the frame takes its E, and an early close is marked TB_FAST. A frame that closes
while its group is parked fires no compute: its entry's NEXT moves on, and firing resumes at the next close after UNPARK (R247). A
PREFIRE frame that is already finished keeps its number and is not closed again (R241, R242). -/
def State.closeOne (s : State) (gid : Nat) : State :=
  match s.group? gid with
  | none => s
  | some g =>
    let fast := match g.lastClose with
      | some c => decide (2 * (s.fclk - c) < g.p * (s.tb g.tb).uMin)
      | none => false
    let s := s.raiseIf fast (pgTbase g.tb) 4
    let known := (g.frame? g.nextClose).isSome
    let past := decide (g.nextClose < g.oldest)
    let parks := g.parked.isSome && !known && !past
    let h := if known then g.updFrame g.nextClose fun f => { f with close := some s.fclk, tbFast := fast }
      else if past then g
      else { g with frames := g.frames ++ [{ n := g.nextClose, close := some s.fclk, tbFast := fast, parked := parks }] }
    let s := s.setGroup gid { h with nextClose := g.nextClose + 1, lastClose := some s.fclk }
    if parks then s.updPack g.pack fun p =>
      { p with entries := p.entries.map fun e => if e.1 = g.entry then (e.1, { e.2 with next := e.2.next + dword g.p }) else e }
    else s

/-- Closes passed at this edge: how many of a group's closes lie at or below value `v`. -/
def Group.closesUpTo (g : Group) (v : DWord) : Nat :=
  if g.closeAt g.nextClose ≤ v.toNat then (v.toNat - g.closeAt g.nextClose) / g.p + 1 else 0

/-- Passes `n` closes of a group. -/
def State.closeMany (s : State) (gid : Nat) : Nat → State
  | 0 => s
  | n + 1 => (s.closeOne gid).closeMany gid n

/-- After a change of a time base's value, every close that it passed is taken (R239). -/
def State.passCloses (s : State) (t : Nat) : State :=
  s.groups.foldl (fun u e =>
    if e.2.live && e.2.tb == t then u.closeMany e.1 (e.2.closesUpTo (s.tb t).value) else u) s

/-! ## Retriever runs at frame boundaries (R215) -/

/-- Reports a Retriever code; every code but RTV_OK raises RTV_ERROR (R217). -/
def State.rtvCode (s : State) (c r code : Nat) : State :=
  (s.updCore c fun k => k.updRtv r fun x => { x with code := code }).raiseIf (code != 0) (pgCore c) 10

/-- A trigger for a Retriever: it becomes pending, or is lost while one is already pending (R215). -/
def State.rtvTrigger (s : State) (c r frame : Nat) : State :=
  let x := (s.core c).rtv r
  if x.st = .idle then s
  else if x.pend then s.rtvCode c r 0x0D
  else s.updCore c fun k => k.updRtv r fun y =>
    { y with pend := true, pendFrame := frame
             atFire := if y.trig = 1 then (frame, y.set, y.p) :: y.atFire.filter fun z => z.1 != frame else y.atFire }

/-- Retrievers of slot `k` that serve the group with trigger `trig`. -/
def State.groupRtvs (s : State) (gid : Nat) (g : Group) (k trig : Nat) : List Nat :=
  (List.range 8).filter fun r =>
    let x := (s.core (g.core k)).rtv r
    nbits (g.rtvs.getD k 0) r 1 == 1 && x.trig == trig && x.id == gid && !x.be && x.st != .idle

/-- Triggers the Retrievers of every slot. -/
def State.triggerAll (s : State) (gid : Nat) (g : Group) (trig frame : Nat) : State :=
  (List.range g.nslot).foldl (fun t k =>
    (t.groupRtvs gid g k trig).foldl (fun u r => u.rtvTrigger (g.core k) r frame) t) s

/-- Ends the fire-triggered runs of a frame at its commit or its discard: what has not been reached is skipped with RTV_CUT, and a
discard returns set and parameters to their values at the frame's fire, also where the run has reached its END (R215). -/
def State.endRuns (s : State) (gid : Nat) (g : Group) (n : Nat) (discard : Bool) : State :=
  (List.range g.nslot).foldl (fun t k =>
    let c := g.core k
    (t.groupRtvs gid g k 1).foldl (fun u r =>
      let x := (u.core c).rtv r
      let active := (x.st = .running ∨ x.st = .parked) ∧ x.runFrame = n
      let back (y : Rtv) : Rtv := match y.atFire.find? fun z => z.1 == n with
        | some (_, st, p) => if discard then { y with set := st, p := p } else y
        | none => y
      let u := u.updCore c fun q => q.updRtv r fun y =>
        let y := { y with pend := y.pend && y.pendFrame != n }
        { back y with atFire := y.atFire.filter fun z => z.1 != n }
      if active then
        (u.updCore c fun q => q.updRtv r fun y =>
          { y with st := if y.disarm then .idle else .armed, cur := none, disarm := false }).rtvCode c r 0x0C
      else u) t) s

/-! ## Slots of frames and jobs (R134, R185 to R190) -/

/-- Clears OPEN of the slots that the sequencer's run has written. -/
def Core.closeSlots (k : Core) : Core :=
  let k := k.csq.slots.foldl (fun q e =>
    let h := q.entry e.1
    q.wrN h 3 1 (q.rdN h 3 1 &&& 0xF7)) k
  { k with wlog := [] }

/-- Commits the slots that the run has written: CUR inverted, STEP advanced, OPEN cleared (R134), from the CUR and STEP captured at the
run's first read of the slot (R322); a frame adds `steps` to each, a job the sum of its own T fields. -/
def Core.commitSlots (k : Core) (steps : Option Nat) : Core :=
  let k := k.csq.slots.foldl (fun q e =>
    let h := q.entry e.1
    let cap := match k.csq.caps.find? fun x => x.1 == e.1 with
      | some (_, b, st) => (b, st)
      | none => (q.rdN h 3 1, q.rdN h 16 8)
    (q.wrN h 16 8 ((cap.2 + steps.getD e.2) % 2 ^ 64)).wrN h 3 1 ((cap.1 &&& 0xF7) ^^^ 2)) k
  { k with wlog := [] }

/-- The sequencer stands idle; acknowledgements in flight stay counted. -/
def Csq.rest (q : Csq) : Csq := { epoch := q.epoch, remote := q.remote, last := q.last }

/-- Returns ACM and state registers to what they held when the run began (R319). -/
def Core.undo (k : Core) : Core :=
  let k := { k with sregs := k.csq.sregs0 }
  k.csq.acm0.zipIdx.foldl (fun q (m, a) => q.updMxa a fun x => { x with acm := m }) k

/-- Starts slot `slot` of a program on a core (R160, R184 to R189). -/
def Core.begin (k : Core) (run : Run) (prog slot steps : Nat) (gens : Sparse DWord) : Core :=
  { k with csq := { k.csq.rest with
      run := run, prog := prog, ctx := BitVec.ofNat 16 (hCtx (k.entry prog)), steps := steps
      pc := k.progEntry prog slot, epoch := k.csq.epoch + 1, gens := gens
      acm0 := tab 4 fun a => (k.mxa a).acm, sregs0 := k.sregs } }

/-- Generator states of slot `k` within those of a group or a job. -/
def slotGens (gens : Sparse DWord) (k : Nat) : Sparse DWord :=
  (List.range 128).foldl (fun m l => Sparse.set 0 m l (Sparse.get 0 gens (128 * k + l))) []

/-- The seeded generator states of slots 0 to n - 1 (R62). -/
def seedGens (seed : DWord) (n : Nat) : Sparse DWord :=
  (List.range (128 * n)).foldl (fun m i => Sparse.set 0 m i (laneSeed seed (i / 128) (i % 128))) []

/-- Starts, or starts again, every slot of a frame (R249, R269). -/
def State.beginFrame (s : State) (gid : Nat) (g : Group) (n : Nat) : State :=
  (List.range g.nslot).foldl (fun t k =>
    t.updCore (g.core k) fun c => c.begin (.frame gid n k) (g.progs.getD k 0) k g.n (slotGens g.gens k)) s

/-! ## Fences and records of a frame (R296, R300) -/

/-- The fence signal of a frame's release; true when it was ignored as a regress. -/
def State.frameFence (s : State) (g : Group) (n : Nat) : State × Bool :=
  match g.fence with
  | some f => if g.shadow then (s, false) else s.signalFence f (dword (n + 1)) 4096
  | none => (s, false)

/-- Writes the frame records of the finished frames at the head of the group's list, in frame order, and moves the
oldest unfinished frame on. -/
def State.drain (s : State) (gid : Nat) : Nat → State
  | 0 => s
  | fuel + 1 =>
    match s.group? gid with
    | none => s
    | some g =>
      match g.frames with
      | [] => s
      | f :: rest =>
        match f.phase, f.report with
        | .finished, some (st, fl) =>
          let s := s.setGroup gid { g with frames := rest, oldest := f.n + 1, doneAt := s.fclk }
          let s := match g.notify with
            | some r => if g.shadow then s
                else s.notify r { tag := gid, status := st, flags := fl, slot := f.failAt.1, kind := 1, offset := f.failAt.2, seq := f.n }
            | none => s
          (s.openTiles gid (f.n + 1)).drain gid fuel
        | _, _ => s

/-- A frame is finished: its record waits for its turn, its inputs are forgotten, and a RELEASE that waited may act. Mark requests of a
frame that never started stay for the next frame to fire (R243). -/
def State.finish (s : State) (gid n status flags : Nat) (ok : Bool) : State :=
  match s.group? gid, s.frame? gid n with
  | some g, some f =>
    let s := s.forgetIngress gid f
    let s := { s with tport := { s.tport with
      landed := s.tport.landed.filter fun (_, x, m, _) => !(x == gid && m == n)
      acked := s.tport.acked.filter fun (_, x, m, _) => !(x == gid && decide (m + 1 < n))
      partials := s.tport.partials.filter fun (_, x, m, _, _) => !(x == gid && m == n)
      queued := s.tport.queued.filter fun (_, x, m, _) => !(x == gid && m == n)
      reads := s.tport.reads.filter fun r => !(r.gid == gid && r.frame == n && decide (64 ≤ r.tag)) } }
    let tf : List TileFrame :=
      if f.tiles.isEmpty then [] else [⟨n, s.deadline g f, ok && !f.late && !g.shadow, f.tiles⟩]
    let g : Group := { g with
      tileFrames := (g.tileFrames.filter fun (t : TileFrame) => decide (n < t.n + 2) && !s.tilesAcked gid t) ++ tf
      ingressMarks := g.ingressMarks.filter fun x => x.1 != n
      freeable := g.freeable || g.stage == .releasing }
    let s := s.setGroup gid (g.updFrame n fun f => { f with phase := .finished, report := some (status, flags) })
    s.drain gid g.frames.length
  | _, _ => s

/-! ## Input waits (R259) and the discard of work (R319) -/

/-- The fire edge that Leash takes, in CCLK (R241, R259). -/
def leashFire (g : Group) (f : Frame) : Nat :=
  let fire := 2 * f.fire.getD 0
  if g.prefire then max fire (2 * (f.close.getD 0 + g.lag)) else fire

/-- Does the group's program push tokens into a queue? -/
def Group.pushes (g : Group) (q : Nat) : Bool := (g.image.drop 1).any fun w => IWord.opc w == some .qpush && nbits w 64 6 == q

/-- Is a queue fed by another group than `gid`? -/
def State.fedByOther (s : State) (gid q : Nat) : Bool := s.groups.any fun e => e.1 != gid && e.2.live && e.2.pushes q

/-- Is a counter of the running frame fed by a tile-port binding (R392)? -/
def State.tileCounter (s : State) (c i : Nat) : Bool :=
  match (s.core c).csq.run with
  | .frame gid n _ => (s.frame? gid n).any fun f => f.tiles.any fun b => s.tileCnt b == i
  | _ => false

/-- Does the wait of the instruction at a core's program counter wait for input that the host supplies: input positions or tiles, a
counter that the tile port feeds, or a queue that another group feeds? -/
def State.waitIsInput (s : State) (c : Nat) : Bool :=
  let k := s.core c
  let w := k.progWord k.csq.prog k.csq.pc
  match k.csq.run with
  | .frame gid _ _ =>
    match IWord.opc w with
    | some .wait => s.tileCounter c (nbits w 32 4)
    | some .qpush => false
    | some .qpop => s.fedByOther gid (nbits w 64 6)
    | _ => true
  | _ => false

/-- The CCLK of a core's present wait that count as input wait: of a PREFIRE frame only what lies after the fire edge that Leash takes
(R241). -/
def State.openWait (s : State) (c : Nat) : Nat :=
  match (s.core c).csq.waiting, (s.core c).csq.run with
  | some t, .frame gid n _ =>
    if s.waitIsInput c then
      match s.group? gid, s.frame? gid n with
      | some g, some f =>
        if g.prefire && f.close.isNone then 0 else s.cclk - max (2 * t) (if g.prefire then leashFire g f else 0)
      | _, _ => 0
    else 0
  | _, _ => 0

/-- The input wait of slot `k` in the present attempt of a frame. -/
def State.slotWait (s : State) (gid : Nat) (g : Group) (n k : Nat) : Nat :=
  match (s.core (g.core k)).csq.run with
  | .frame x m _ => if x = gid ∧ m = n then (s.core (g.core k)).csq.inWait + s.openWait (g.core k) else 0
  | _ => 0

/-- The input wait of a frame: the largest over its slots, earlier attempts included (R259). -/
def State.inputWaitOf (s : State) (gid : Nat) (g : Group) (f : Frame) : Nat :=
  (tab g.nslot fun k => Sparse.get 0 f.waits k + s.slotWait gid g f.n k).foldl max 0

/-- Tokens of a queue that unfinished frames have popped provisionally (R184). -/
def State.popsHeld (s : State) (q : Nat) : Nat :=
  (s.groups.map fun e => (e.2.frames.map fun f =>
    if f.phase = .finished then 0 else (f.popped.filter fun x => x.1 == q).length).foldl (· + ·) 0).foldl (· + ·) 0

/-- Discards the work of a frame on its cores (R319): working banks abandoned, registers and generators returned, tokens
given back, its Retriever runs stopped. -/
def State.discardWork (s : State) (gid n : Nat) : State :=
  match s.group? gid, s.frame? gid n with
  | some g, some f =>
    let waits := (List.range g.nslot).foldl (fun m k => Sparse.set 0 m k (Sparse.get 0 m k + s.slotWait gid g n k)) f.waits
    let s := g.allCores.foldl (fun t c => t.updCore c fun k =>
      match k.csq.run with
      | .frame x m _ => if x = gid ∧ m = n then let q := k.closeSlots.undo; { q with csq := q.csq.rest } else k
      | _ => k) s
    let s := f.popped.reverse.foldl (fun t (q, tok) => t.updHq q fun h => { h with tokens := tok :: h.tokens }) s
    let s := f.pushed.foldl (fun t (q, _) => t.updHq q fun h => { h with rsv := h.rsv - 1 }) s
    let s := s.endRuns gid g n true
    s.updFrame gid n fun f =>
      { f with popped := [], pushed := [], egress := [], cnts := s.startCounters gid f, waits := waits }
  | _, _ => s

/-- Drops the work of a group's frames and its calendar entry; the reservation stays (R365). Popped tokens and reserved entries go back,
and PIN clears where no other armed group needs it. -/
def State.dropArm (s : State) (gid : Nat) : State :=
  match s.group? gid with
  | none => s
  | some g =>
    let s := (g.frames.filter fun f => f.phase != .finished).foldl (fun t f => t.discardWork gid f.n) s
    let s := s.updPack g.pack fun p => { p with entries := p.entries.del g.entry }
    let s := s.setGroup gid { g with stage := .reserved, shadow := false, frames := [], lastClose := none, refs := []
                                     markReqs := [], ingressMarks := [], tileFrames := [] }
    let s := (s.fxOf g).foldl (fun t (c, i) => if t.fxNeeded c i then t else t.pin c i false) s
    s.dropRefs g.refs

/-! ## Migration failures (R366) -/

/-- The outgoing migration fails: event, code, and ABORT to a partner that is UP. -/
def State.migOutFail (s : State) (code : Nat) : State :=
  match s.peer.out with
  | none => s
  | some m =>
    if m.state = 5 then s
    else
      let s := s.raise pgPeer 7
      let s := { s with peer := { s.peer with migStat := word (code * 256) } }
      if (s.partner m.dest).st = .up then
        let s := { s with peer := { s.peer with out := some { m with state := 5, code := code } } }
        s.sendPeer m.dest 0x18 (toBytes 4 m.id ++ toBytes 1 code ++ toBytes 3 0) true
      else { s with peer := { s.peer with out := none } }

/-- The incoming migration fails: event, code, ABORT, and the shadow arm is released. -/
def State.migInFail (s : State) (code : Nat) : State :=
  match s.peer.inc with
  | none => s
  | some m =>
    let s := s.raise pgPeer 7
    let s := { s with peer := { s.peer with acptStat := word (code * 256), inc := none } }
    let s := if (s.partner m.src).st = .up then
        s.sendPeer m.src 0x18 (toBytes 4 m.id ++ toBytes 1 code ++ toBytes 3 0) true
      else s
    s.dropArm m.gid

/-- Does the source hand its group over at the end of frame `n`: it is H + 1, and COMMIT_ACK has been accepted (R365)? -/
def MigOut.hands (o : MigOut) (gid n : Nat) : Bool := o.gid == gid && o.state == 4 && o.acked && n == o.s + o.nshadow

/-- The source has handed over at frame `n`: YIELD, and MIG_DONE. -/
def State.yieldTo (s : State) (o : MigOut) (n : Nat) : State :=
  let s := s.sendPeer o.dest 0x1A (toBytes 4 o.id ++ toBytes 4 0 ++ toBytes 8 n) false
  { s with peer := { s.peer with out := none, migStat := 0 } }.raise pgPeer 6

/-- A fallback, skip or miss of a frame from S to H fails the group's migration with MIG_SHADOW (R364). One of a later frame before which
the source holds no COMMIT_ACK fails it with MIG_TIMEOUT, and a destination without COMMIT fails at the deadline of frame H + 1 (R365); a
destination that is owner has released a frame. -/
def State.migLost (s : State) (gid n : Nat) : State :=
  let due := match s.group? gid, s.frame? gid n with | some g, some f => s.deadline g f | _, _ => none
  let s := match s.peer.out with
    | some m =>
      if m.gid ≠ gid ∨ n < m.s ∨ m.hands gid n = true then s
      else s.migOutFail (if n < m.s + m.nshadow then 0x0A else 0x0B)
    | none => s
  match s.peer.inc with
  | some m =>
    if m.gid ≠ gid then s
    else if m.state = 3 then { s with peer := { s.peer with inc := some { m with released := true } } }
    else if m.s ≤ n ∧ n < m.s + m.nshadow then s.migInFail 0x0A
    else if n = m.s + m.nshadow ∧ m.committed = false then { s with peer := { s.peer with inc := some { m with due := due } } }
    else s
  | none => s

/-- Frame H + 1 ends by its fallback: a source that holds COMMIT_ACK hands over, with the frame's outputs dropped and its group released
(R245), and a destination that has accepted COMMIT is owner from this release on (R365). -/
def State.migFallback (s : State) (gid n : Nat) : State :=
  let s := match s.peer.out with
    | some o =>
      if o.hands gid n then
        (s.updGroup gid fun g => { g with shadow := true, stage := .releasing, freeable := true, releaser := none }).yieldTo o n
      else s
    | none => s
  match s.peer.inc with
  | some i =>
    if i.gid = gid ∧ i.state = 2 ∧ i.committed = true ∧ n = i.s + i.nshadow then
      let s := s.updGroup gid fun g => { g with shadow := false }
      { s with peer := { s.peer with inc := some { i with state := 3, released := true } } }
    else s
  | none => s

/-! ## Leash (R259 to R264) -/

/-- Adds to a saturating 16-bit counter of every member's record. -/
def State.leashAll (s : State) (g : Group) (f : Leash → Leash) : State :=
  g.members.foldl (fun t m => t.updLeash m.stream f) s

/-- Counts a miss of a cause, with its event and its record (R263, R265). -/
def State.missOf (s : State) (gid : Nat) (g : Group) (n cause : Nat) (slack : Int) : State :=
  let s := s.leashAll g fun l => { l with miss := Sparse.set 0 l.miss cause (satAdd 0xFFFF (Sparse.get 0 l.miss cause) 1) }
  let s := { s with tele := { s.tele with misses := satWord s.tele.misses 1 } }
  let s := s.updPack g.pack fun p =>
    let p := { p with lshCnt := satWord p.lshCnt 1 }
    if p.lshMiss.getLsbD 0 then p
    else { p with lshMiss := word (1 + cause * 2 + g.gid * 16), lshSlack := BitVec.ofInt 32 slack, lshFrame := word n }
  let s := (s.raise (pgPack g.pack) 0).raiseIf (cause == 4) (pgPack g.pack) 1
  (s.traceRec 5 (g.core 0) g.gid n cause).migLost gid n

/-- Did a core of the group restart more frames within T_min than the reserve of R251 allows? -/
def State.faultLoad (s : State) (g : Group) : Bool :=
  g.allCores.any fun c =>
    let ts := (s.groups.filter fun e => e.2.allCores.contains c).map fun e => e.2.p * (s.tb e.2.tb).uMin
    let tmin := ts.foldl min (ts.headD 0)
    decide (1 < ((s.core c).restartsAt.filter fun r => decide (s.cclk < 2 * r + tmin)).length)

/-- The cause of a miss of a frame that ran, by the first row that holds (R263). -/
def State.cause (s : State) (g : Group) (f : Frame) (iwait : Nat) : Nat :=
  let c : Int := s.cclk
  let fi : Int := leashFire g f
  let d : Int := ((s.deadline g f).getD 0 : Nat)
  if f.noBudget then 5
  else if f.tbFast || decide (2 * (f.close.getD 0 + g.lag) + 1024 < 2 * f.fire.getD 0) then 2
  else if (c - fi) - iwait - f.predWait > d - fi then if s.faultLoad g then 3 else 4
  else if iwait ≤ f.predWait then 1 else 0

/-! ## Fallback and discard (R319, R320) -/

/-- Releases the fallback output of every member, unless that has been done (R260, R320); true when the fence signal was
a regress. -/
def State.releaseFallback (s : State) (gid n : Nat) : State × Bool :=
  let s := if (s.frame? gid n).any fun f => !f.late then s.migFallback gid n else s
  match s.group? gid, s.frame? gid n with
  | some g, some f =>
    if f.late then (s, false)
    else
      let late := match s.deadline g f with | some d => decide (d ≤ s.cclk) | none => false
      let s := if g.shadow then s
        else
          let s := (s.frameOuts gid f).foldl (fun t b => t.fallbackLane gid g f b) s
          let s := { s with tele := { s.tele with fallbacks := satWord s.tele.fallbacks 1 } }
          s.traceRec 4 (g.core 0) g.gid n 0
      let s := s.answerResolves gid g f.tiles n false late
      let r := s.frameFence g n
      (r.1.migLost gid n, r.2)
  | _, _ => (s, false)

/-- Restarts a frame from committed state (R319). -/
def State.restartFrame (s : State) (gid n : Nat) : State :=
  let s := s.discardWork gid n
  match s.group? gid with
  | none => s
  | some g =>
    let began := (s.frame? gid n).any fun f => f.start.isSome
    let s := s.updFrame gid n fun f => { f with restarts := f.restarts + 1 }
    let s := g.allCores.foldl (fun t c => t.updCore c fun k => { k with restartsAt := s.fclk :: k.restartsAt }) s
    let s := { s with tele := { s.tele with restarts := satWord s.tele.restarts 1 } }
    let s := if began then (s.updFrame gid n fun f => { f with phase := .running }).beginFrame gid g n else s
    let s := s.traceRec 3 (g.core 0) g.gid n 0
    if (s.frame? gid n).any fun f => f.fire.isSome then s.triggerAll gid g 1 n else s

/-- A frame that had passed its deadline and will not commit is a miss of the cause that its times give (R263). -/
def State.missIfLate (s : State) (gid n : Nat) : State :=
  match s.group? gid, s.frame? gid n with
  | some g, some f =>
    if f.late then s.missOf gid g n (s.cause g f (s.inputWaitOf gid g f)) (((s.deadline g f).getD 0 : Nat) - (s.cclk : Int))
    else s
  | _, _ => s

/-- Ends a frame by its fallback: discarded, fallback released, number used up (R320). -/
def State.dropFrame (s : State) (gid n status : Nat) : State :=
  let s := s.discardWork gid n
  let lost := (s.frame? gid n).any (·.regress)
  let r := s.releaseFallback gid n
  r.1.finish gid n status (4 + 16 * b2n (r.2 || lost)) false

/-- Ends a frame that will not commit by its fallback; past its deadline it is a miss (R193, R263). -/
def State.failFrame (s : State) (gid n status : Nat) : State := (s.missIfLate gid n).dropFrame gid n status

/-- Counts a fallback after a second fault (R261, R320). -/
def State.countFallback (s : State) (gid : Nat) : State :=
  match s.group? gid with
  | some g => (s.leashAll g fun l => { l with fallbacks := satAdd 0xFFFF l.fallbacks 1 }).raise (pgCore (g.core 0)) 1
  | none => s

/-- Parks a group (R247). -/
def State.parkGroup (s : State) (gid : Nat) (cause : ParkCause) : State :=
  s.updGroup gid fun g => { g with parked := some (g.parked.getD cause) }

/-! ## Firing (R249) -/

/-- Requests preemption of the best-effort work on a core (R257). -/
def State.requestPreempt (s : State) (c : Nat) : State :=
  match (s.core c).csq.run with
  | .job _ _ => s.updCore c fun k => { k with preempt := true }
  | _ => s

/-- The first close of an entry that has not yet fired: the frame. -/
def Group.unfired (g : Group) : Option Frame :=
  g.frames.find? fun f => f.phase == .closed && !f.parked && !f.noBudget

/-- Fires frame `n` of a group: NEXT advances; a parked, starved or suspended entry fires no compute; otherwise BUDGET
falls, the bindings are checked and fixed, and the Retrievers and preemption requests go out. -/
def State.fireFrame (s : State) (gid n : Nat) : State :=
  match s.group? gid with
  | none => s
  | some g =>
    let e := Sparse.get default (s.pack g.pack).entries g.entry
    let s := s.updPack g.pack fun p => { p with entries := p.entries.put g.entry { e with next := e.next + dword g.p } }
    if g.parked.isSome then s.updFrame gid n fun f => { f with parked := true }
    else if e.budget = 0 ∨ e.suspended = true then s.updFrame gid n fun f => { f with noBudget := true }
    else
      let s := s.updPack g.pack fun p =>
        { p with entries := p.entries.put g.entry { e with next := e.next + dword g.p, budget := e.budget - 1 }
                 calFires := p.calFires + word g.nmem }
      let s := s.raiseIf (e.budget == 1) (pgPack g.pack) 4
      let ins := (tab 16 s.inReg).filter fun b => b.en && b.gid == gid
      let outs := (tab 16 s.outReg).filter fun b => b.en && b.gid == gid
      let tiles := (List.range 16).filter fun b => s.tileEn b && s.tileGid b == gid
      let good := s
      let s := (ins.filter fun b => !good.bindOk g b).foldl (fun t b => t.disableIn b.lane) s
      let s := (outs.filter fun b => !good.bindOk g b).foldl (fun t b => t.disableOut b.lane) s
      let s := (tiles.filter fun b => !good.tileOk g b).foldl (fun t b => t.disableTile b) s
      let s := s.updFrame gid n fun f =>
        { f with phase := .fired, fire := some s.fclk, ins := ins.filter (good.bindOk g)
                 outs := outs.filter (good.bindOk g), tiles := tiles.filter (good.tileOk g) }
      let s := s.triggerAll gid g 1 n
      let s := if g.start then s else g.allCores.foldl (fun t c => t.requestPreempt c) s
      s.traceRec 1 (g.core 0) g.gid n 0

/-! ## Starting (R243, R249, R269) -/

/-- The mark bits of a frame: (member, step). -/
def Group.marksOf (g : Group) (n : Nat) : List (Nat × Nat) :=
  (g.ingressMarks.filter fun x => x.1 == n).map (fun x => (x.2.1, x.2.2))
    ++ (g.markReqs.filterMap fun (j, m) =>
      let p := g.placeOf j m
      if p.1 = n then some (j, p.2) else if p.1 < n then some (j, 0) else none)

/-- The pack writes the frame's mark buffer in slot `k`: bits of NMEM × ceil(N/8) bytes (R137, R243). -/
def State.writeMarks (s : State) (g : Group) (ms : List (Nat × Nat)) (k : Nat) : State :=
  let ref := g.marks.getD k 0
  if refNull ref then s
  else
    let s := s.writeHandle (g.core k) ref 0 (List.replicate (g.nmem * ceilDiv g.n 8) 0)
    ms.foldl (fun t (j, st) => t.setMark g k j st) s

/-- Starts a fired frame: marks, counters, and every slot at its entry. -/
def State.startFrame (s : State) (gid n : Nat) : State :=
  match s.group? gid, s.frame? gid n with
  | some g, some f =>
    let s := (List.range g.nslot).foldl (fun t k => t.writeMarks g (g.marksOf n) k) s
    let s := s.updGroup gid fun x =>
      { x with ingressMarks := x.ingressMarks.filter fun y => y.1 != n
               markReqs := x.markReqs.filter fun (j, m) => decide (n < (x.placeOf j m).1) }
    let fire := f.fire.getD s.fclk
    let s := s.updFrame gid n fun f =>
      { f with phase := .running, start := some s.fclk, predWait := 2 * (g.doneAt - fire)
               cnts := (s.startCounters gid f).foldl (fun m e =>
                 Sparse.set 0 m e.1 (satAdd 0xFFFF (Sparse.get 0 m e.1) e.2)) f.cnts }
    s.beginFrame gid g n
  | _, _ => s

/-- Is a core free of deadline and of best-effort work? -/
def State.coreIdle (s : State) (c : Nat) : Bool := (s.core c).csq.run == .idle

/-- Can a fired frame start: predecessor finished, cores free, no committed bank awaiting its rewrite (R22, R249, R321)? -/
def State.canStart (s : State) (g : Group) (f : Frame) : Bool :=
  f.phase == .fired && f.n == g.oldest && g.allCores.all fun c => s.coreIdle c && (s.core c).lost.isEmpty

/-! ## Commit (R274, R322) -/

/-- The tokens that a frame pushed become visible in its commit, in ascending order of the pushing core (R183, R184). -/
def State.showTokens (s : State) (pushed : List (Nat × DWord)) : State :=
  ((List.range 32).flatMap fun c => pushed.filter fun x => wbits x.2 20 16 == c).foldl (fun t (q, tok) => t.updHq q fun h =>
    { h with tokens := h.tokens ++ [tok ||| dword (h.seq * 2 ^ 40)], seq := (h.seq + 1) % 2 ^ 24, rsv := h.rsv - 1 }) s

/-- The frame's state commits: slot headers, generators, tokens; its cores stand idle. -/
def State.commitState (s : State) (gid n : Nat) : State :=
  match s.group? gid, s.frame? gid n with
  | some g, some f =>
    let gens := (List.range g.nslot).foldl (fun m k =>
      let q := (s.core (g.core k)).csq.gens
      (List.range 128).foldl (fun m l => Sparse.set 0 m (128 * k + l) (Sparse.get 0 q l)) m) g.gens
    let s := g.allCores.foldl (fun t c => t.updCore c fun k =>
      let q := k.commitSlots (some g.n)
      { q with csq := q.csq.rest }) s
    (s.updGroup gid fun g => { g with gens := gens }).showTokens f.pushed
  | _, _ => s

/-- Commits frame `n` and releases its outputs (R260, R274, R322). -/
def State.commitFrame (s : State) (gid n : Nat) : State :=
  match s.group? gid, s.frame? gid n with
  | some g, some f =>
    let iw := s.inputWaitOf gid g f
    let slack : Int := ((s.deadline g f).getD 0 : Nat) - (s.cclk : Int)
    let s := (s.commitState gid n).endRuns gid g n false
    let s := { s with tele := { s.tele with frames := s.tele.frames + 1
                                            dlCclk := s.tele.dlCclk + 2 * (s.fclk - f.fire.getD 0) * g.nslot } }
    let s := s.leashAll g fun l =>
      { l with frames := l.frames + 1, slackLast := BitVec.ofInt 32 slack
               slackMin := if slack < l.slackMin.toInt then BitVec.ofInt 32 slack else l.slackMin }
    let s := s.traceRec 2 (g.core 0) g.gid n 0
    let s := if f.late then s.missOf gid g n (s.cause g f iw) slack else s
    let r := if f.late then (s, false)
      else
        let s := if g.shadow then s else f.outs.foldl (fun t b => t.releaseLane gid g f b) s
        let s := s.answerResolves gid g f.tiles n (!g.shadow) false
        s.frameFence g n
    let s := r.1.finish gid n 0 (6 * b2n f.late + 16 * b2n (r.2 || f.regress)) true
    if g.shadow then s else s.triggerAll gid g 2 n
  | _, _ => s

/-! ## Deadline (R247, R250, R260, R262) -/

/-- The deadline of an uncommitted frame passes. -/
def State.passDeadline (s : State) (gid n : Nat) : State :=
  match s.group? gid, s.frame? gid n with
  | some g, some f =>
    if f.parked then
      let s := s.leashAll g fun l => { l with parked := satAdd 0xFFFF l.parked 1 }
      let r := s.releaseFallback gid n
      r.1.finish gid n 0 (4 + 16 * b2n r.2) false
    else if f.noBudget then
      let r := (s.missOf gid g n 5 0).releaseFallback gid n
      r.1.finish gid n 0 (4 + 16 * b2n r.2) false
    else if f.phase = .closed ∨ f.phase = .fired then
      let s := s.leashAll g fun l => { l with skips := satAdd 0xFFFF l.skips 1 }
      let s := (s.missOf gid g n 1 0).discardWork gid n
      let r := s.releaseFallback gid n
      r.1.finish gid n 0 (4 + 16 * b2n r.2) false
    else
      let s := s.fillMissing g f
      let r := s.releaseFallback gid n
      r.1.updFrame gid n fun f => { f with late := true, regress := r.2 }
  | _, _ => s

end Sys2Proof.Machine
end

