-- ==== Sys2Proof/Machine/Cost.lean ====
section
/-! DEFINITION. What admission charges (09_cycle_tables): the cycles and the energy of each instruction at the presented
widths of a core, the worst path through a program, the bound on a Retriever's lines, and W_g and E_g of a group. -/

namespace Sys2Proof.Machine

/-! ## The worst path through a program with bounded loops -/

/-- A node of a program graph: its own cost, the forward edges with the cost of taking each, and a backward branch:
target, how often it is taken at most, and the cost of taking it. -/
structure PNode where
  cost : Nat
  next : List (Nat × Nat)
  back : Option (Nat × Nat × Nat) := none
  deriving DecidableEq, Repr, Inhabited

/-- The larger of two path costs, where a path may not exist. -/
def maxOpt : Option Nat → Option Nat → Option Nat
  | none, b => b
  | a, none => a
  | some a, some b => some (max a b)

/-- Costs of the worst paths that begin at indices lo, lo + 1, … and end where `fin` says; `n` indices are still to do,
and the head of the answer belongs to the lowest. -/
def pathsFrom (node : Nat → PNode) (ex : Sparse Nat) (fin : Nat → Option Nat) (lo : Nat) : Nat → List (Option Nat)
  | 0 => []
  | n + 1 =>
    let rest := pathsFrom node ex fin (lo + 1) n
    let x := node lo
    let own := x.cost + Sparse.get 0 ex lo
    let best := x.next.foldl (fun m (j, c) => maxOpt m (((rest.getD (j - lo - 1) none)).map (· + c))) none
    maxOpt (fin lo) (best.map (· + own)) :: rest

/-- The worst path from index `a` up to and including index `b`; `none` where `b` is not reached. -/
def pathTo (node : Nat → PNode) (ex : Sparse Nat) (a b : Nat) : Option Nat :=
  (pathsFrom node ex (fun i => if i = b then some (node b).cost else none) a (b + 1 - a)).headD none

/-- What every backward branch adds to one passage of its index: its passes over its body, nested loops first (R189,
R251). -/
def loopExtras (node : Nat → PNode) (n : Nat) : Sparse Nat :=
  (List.range n).foldl (fun ex i =>
    let b := i + 1
    match (node b).back with
    | none => ex
    | some (t, times, c) =>
      match pathTo node ex t b with
      | some p => Sparse.set 0 ex b (times * (p + c))
      | none => ex) []

/-- The worst path from index `a` to the end of a program of `n` instructions. -/
def pathEnd (node : Nat → PNode) (ex : Sparse Nat) (n a : Nat) : Nat :=
  ((pathsFrom node ex (fun i => if (node i).next.all (fun e => decide (n < e.1)) then some ((node i).cost + Sparse.get 0 ex i) else none)
    a (n + 1 - a)).headD none).getD 0

/-! ## What one instruction costs -/

/-- What an instruction takes: CCLK from the end of its start time to its last vector, from there to its completion, the lead of its first
fill before its first vector, its start time S (R268), and its energy in units of 0.01 pJ beyond what every busy CCLK of the core
costs. -/
structure ICost where
  cyc : Nat := 0
  tail : Nat := 0
  lead : Nat := 0
  start : Nat := 23
  dyn : Nat := 0
  deriving DecidableEq, Repr

/-- What a cost is computed from: the core at its presented widths, its number, and whether the descriptors in its SPD are known;
at RESERVE they are not, and the largest legal descriptor is charged. -/
structure CostCtx where
  k : Core
  core : Nat
  known : Bool

/-- Cells of the four arrays at their presented widths. -/
def CostCtx.cells (x : CostCtx) : Nat := 32 * (x.k.widths.foldl (· + ·) 0)

/-- F of the core (R72, R276). -/
def CostCtx.fill (x : CostCtx) : Nat := fillTime x.k.widths

/-- S of R268. -/
def startTime (ld ns : Nat) : Nat := 16 + max (7 + ld) (7 + ns)

/-- Lines of a run of `b` bytes at offset `off` of rows with a pitch (R279). -/
def runLines (b pitch off : Nat) : Nat := ceilDiv b 64 + (if pitch % 64 = 0 ∧ off % 64 = 0 then 0 else 1)

/-- Lines that the bytes [a, a + n) touch. -/
def linesTouched (a n : Nat) : Nat := if n = 0 then 0 else (a + n - 1) / 64 - a / 64 + 1

/-- Energy of a cell with a vector, less that of one without (R278): BF16 and FP16, 8-bit, F4. -/
def cellRate (f : Fmt) (passes : Nat) : Nat :=
  if passes ≠ 0 then 28 else match f.arrayWidth with | 8 => 32 | 4 => 38 | _ => 28

/-- Weight lines, other lines, VX vectors, FX vectors and line hops in energy (R278). -/
def lineEnergy (wl sl vx fx fab : Nat) : Nat := 3000 * wl + 2000 * sl + 4000 * vx + 9000 * fx + 6000 * fab

/-- Sizes of the m-chunks of M rows. -/
def mChunks (M mc : Nat) : List Nat := tab (ceilDiv M mc) fun c => min mc (M - c * mc)

/-! ## Conflict allowances (R275) -/

/-- The banks of the lines that bytes [x, x + n) of a buffer touch (R196, R202). -/
def spanBanks (e : DWord) (x n : Nat) : List Nat :=
  if n = 0 then [] else (List.range ((x % 64 + n + 63) / 64)).map fun i => hPhys e (x / 64 * 64 + 64 * i) / 64 % 16

/-- One weight tile of the walk as the array feed sees it: its period, the banks that the read of its vector i uses, and the banks that
the load-port reads of fill CCLK c use. -/
structure Feed where
  per : Nat
  cast : Nat → List Nat
  load : Nat → List Nat

/-- The banks that the array feed uses `c` CCLK after the first vector of the first of `fs`: a broadcast read is issued 8 CCLK before its
vector enters, and the next tile's fill runs from the swap on (R72, R201, R267). -/
def feedBanks (F : Nat) : List Feed → Nat → List Nat
  | [], _ => []
  | u :: rest, c =>
    if u.per ≤ c then feedBanks F rest (c - u.per)
    else
      let next (f : Feed → List Nat) : List Nat := match rest with | v :: _ => f v | [] => []
      (if c + 8 < u.per then u.cast (c + 8) else next fun v => v.cast (c + 8 - u.per)) ++ (if c < F then next fun v => v.load c else [])

/-- Can a load-port read of some fill meet a broadcast read (R275)? -/
def loadMeets (F : Nat) : List Feed → Bool
  | u :: v :: rest =>
    ((List.range F).any fun c =>
      let here := if c + 8 < u.per then u.cast (c + 8) else v.cast (c + 8 - u.per)
      (v.load c).any here.contains) || loadMeets F (v :: rest)
  | _ => false

/-- An access of a lower rank: the tile it follows, its CCLK after that tile's first vector, its banks. -/
structure LowAccess where
  after : Nat
  cclk : Nat
  banks : List Nat

/-- How many accesses can meet a request of the array feed (R275). -/
def meetCount (F : Nat) (fs : List Feed) (xs : List LowAccess) : Nat :=
  (xs.filter fun x => let up := feedBanks F (fs.drop x.after) x.cclk; x.banks.any up.contains).length

/-- The tiles of one m-chunk of a product in the order of the walk (R178). -/
def productFeeds (x : CostCtx) (w : IWord) (m0 B kt : Nat) (F : Nat) : List Feed :=
  let k := x.k
  let quad := (k.mxa 0).quad
  let q := IWord.passes w
  let ea := k.entry (IWord.by w 4 2)
  let ew := k.entry (IWord.by w 6 2)
  let fa := fmtOr (IWord.afmt w)
  let fw := fmtOr (IWord.wfmt w)
  let K := IWord.kDim w
  let N := IWord.nCols w
  let per1 := if q = 0 then max B (F + 1) else max (2 * B) (F + 1)
  let parts : List (Nat × Nat) := if q = 2 then [(per1, 2 * B), (max B (F + 1), B)] else [(per1, if q = 0 then B else 2 * B)]
  let lines := if fw.arrayWidth = 0 then 1 else 16 / fw.arrayWidth
  (walkBases k.widths N (ccwStoch (IWord.ccw w))).flatten.flatMap fun (b, _) =>
    (List.range (ceilDiv K kt)).flatMap fun t => parts.map fun (per, nv) =>
      { per := per
        cast := fun i => if i < nv then
            (if quad then [0, 1] else [0]).flatMap fun h =>
              spanBanks ea ((h * IWord.mRows w + m0 + i % B) * fa.rowBytes K + t * kt * fa.bits / 8) (min kt (K - t * kt) * fa.bits / 8)
          else []
        load := fun c => (List.range 4).flatMap fun a =>
          let r := (c + 4 * a) % F
          spanBanks ew ((t * kt + lines * r) * fw.rowBytes N + (b + 32 * a) * fw.bits / 8) (32 * fw.bits / 8) }

/-- The fill time of a product with its allowance: it doubles where a load-port read can meet the broadcast (R275). Before ARM the
placement is not known and no allowance is charged. -/
def productFill (x : CostCtx) (w : IWord) (kt : Nat) (chunks : List Nat) : Nat :=
  let mc := if (x.k.mxa 0).quad then 256 else 512
  if x.known && chunks.zipIdx.any fun (B, c) => loadMeets x.fill (productFeeds x w (c * mc) B kt x.fill) then 2 * x.fill else x.fill

/-- The CCLK that the outputs of a product lose to the array feed: row r of a group is written 12 CCLK after its last vector entered,
while the next group's tiles run (R82, R267, R275); spill accesses lose where their banks are also those of the weights. -/
def productLoss (x : CostCtx) (w : IWord) (kt : Nat) (chunks : List Nat) (F spills : Nat) : Nat :=
  if !x.known then 0
  else
    let quad := (x.k.mxa 0).quad
    let mc := if quad then 256 else 512
    let N := IWord.nCols w
    let of' := fmtOr (ccwFmt (IWord.ccw w))
    let eo := x.k.entry (IWord.by w 8 2)
    let groups := (walkBases x.k.widths N (ccwStoch (IWord.ccw w))).flatten
    let ng := x.k.widths.foldl (· + ·) 0
    let outs := (chunks.zipIdx.map fun (B, c) =>
      let fs := productFeeds x w (c * mc) B kt F
      let per := fs.length / max 1 groups.length
      let last := if IWord.passes w = 1 then B else 0
      meetCount F fs (groups.zipIdx.flatMap fun ((b, lim), g) => (List.range B).map fun r =>
        ⟨(g + 1) * per - 1, last + r + 12,
          spanBanks eo ((c * mc + r) * of'.rowBytes N + b * of'.bits / 8) (min ng (lim - b) * of'.bits / 8)⟩)).foldl (· + ·) 0
    let sp := x.k.entry (x.k.readXb (IWord.xbRef w)).spill
    let wb := spanBanks (x.k.entry (IWord.by w 6 2)) 0 1024
    let spl := if spills = 0 ∨ !(spanBanks sp 0 (min 1024 (hExt sp))).any wb.contains then 0
      else 2 * spills * IWord.mRows w * ceilDiv (8 * min ng N) 64
    2 * outs + 6 * spl

/-- MATMUL and MATVEC that stream their weights (R72, R89, R92, R99, R178, R275). -/
def productCost (x : CostCtx) (w : IWord) (M : Nat) : ICost :=
  let quad := (x.k.mxa 0).quad
  let N := IWord.nCols w
  let af := fmtOr (IWord.afmt w)
  let kt := ktOf (if IWord.passes w = 0 then af else .bf16) quad
  let kts := ceilDiv (IWord.kDim w) kt
  let sum := x.k.widths.foldl (· + ·) 0
  let bases := (walkBases x.k.widths N (ccwStoch (IWord.ccw w))).flatten
  let groups := bases.length
  let chunks := mChunks M (if quad then 256 else 512)
  let F := productFill x w kt chunks
  let f1 := F + 1
  let periods (b : Nat) : List Nat := match IWord.passes w with
    | 0 => [max b f1] | 1 => [max (2 * b) f1] | _ => [max (2 * b) f1, max b f1]
  let lastB := chunks.getLastD 0
  let lastV := if IWord.passes w = 1 then 2 * lastB else lastB
  let total := groups * kts * (chunks.flatMap periods).foldl (· + ·) 0
  let spills := if IWord.spillP w = 0 then 0 else groups * ceilDiv kts (IWord.spillP w)
  let bubbles := spills * (chunks.map fun b => 4 * b + 14).foldl (· + ·) 0
  let lastSpill := if spills = 0 then 0 else 4 * lastB + 14
  let vecs := groups * kts * passCount (IWord.passes w) * M
  let of' := fmtOr (ccwFmt (IWord.ccw w))
  let halves := if quad then 2 else 1
  let perRow (f : Nat → Nat → Nat) : Nat := (bases.map fun (b, lim) => f b (min sum (lim - b))).foldl (· + ·) 0
  let outs := halves * M * perRow fun b n => if n = 0 then 0 else runLines (of'.rowBytes n) (of'.rowBytes N) (of'.rowBytes b)
  let spillRuns := if spills = 0 then 0
    else 2 * ceilDiv kts (IWord.spillP w) * halves * M * perRow fun b n => if n = 0 then 0 else runLines (8 * n) (8 * N) (8 * b)
  { cyc := f1 + total - max lastV f1 + lastV + (bubbles - lastSpill) + productLoss x w kt chunks F spills
    tail := 8 + 6 + lastSpill
    lead := f1 - 8
    start := startTime (if refNull (IWord.xbRef w) then 0 else 1) 0
    dyn := vecs * x.cells * cellRate af (IWord.passes w)
      + lineEnergy (groups * kts * chunks.length * (periods lastB).length * 128 * (x.fill / 32)) (vecs + outs + spillRuns) 0 0 0 }

/-- MATVEC against resident weights (R170, R276). -/
def residentCost (x : CostCtx) (w : IWord) : ICost :=
  let M := IWord.mRows w
  let of' := fmtOr (ccwFmt (IWord.ccw w))
  let moved := if IWord.tw w then
      ((List.range 4).filter fun a => decide (x.k.widths.getD a 0 < 32) && decide (32 * a < IWord.nCols w)).length
    else 0
  let vecs := M * passCount (IWord.passes w)
  { cyc := 8 + vecs + moved * (x.fill + 1)
    tail := 14
    start := startTime (if refNull (IWord.xbRef w) then 0 else 1) 0
    dyn := vecs * x.cells * cellRate (fmtOr (IWord.afmt w)) (IWord.passes w)
      + lineEnergy (32 * moved) (vecs + M * runLines (of'.rowBytes (IWord.nCols w)) (of'.rowBytes (IWord.nCols w)) 0) 0 0 0 }

/-- What RECUR's cost needs of its step program. -/
structure StepShape where
  form : Nat
  fb2 : Bool
  wide : Bool
  na : Nat
  nb : Nat
  noFxb : Bool
  fbrow : Nat
  /-- State rows that chains read and write. -/
  rd : Nat
  wr : Nat
  deriving DecidableEq, Repr

/-- The shape of a step program in SPD (R140, R279). -/
def stepShape (p : StepProg) : StepShape :=
  let rows := (List.range 8).filter fun r =>
    (p.stA ++ p.stB).any fun st => (stageReads st).any fun o => opSrc o == 4 && opIdx o == r
  let dst (h : Nat) : List Nat := if nbits h 21 1 = 1 then [nbits h 18 3] else []
  ⟨p.form, p.fb2, p.wide, hdrN p.hdrA, hdrN p.hdrB, p.noFxb, p.fbrow, rows.length,
    (dst p.hdrA ++ dst p.hdrB).eraseDups.length⟩

/-- The largest step program of a form. -/
def largestStep (form : Nat) (fb2 : Bool) : StepShape := ⟨form, fb2, true, 8, 8, false, 0, 4, 2⟩

/-- The tiles of a RECUR in the order of its steps, `gap` CCLK being left before the first tile of a later step that covers h (R147,
R270); in the resident form a step is one entry without fills (R145). -/
def recurFeeds (x : CostCtx) (w : IWord) (p : StepShape) (F : Nat) : List Feed :=
  let k := x.k
  let T := IWord.recT w
  let N := IWord.recN w
  let H := IWord.by w 20 2
  let X := IWord.by w 22 2
  let af := fmtOr (nbits w 224 4)
  let wf := fmtOr (nbits w 228 4)
  let d := if p.fb2 then 2 else 1
  let eo := k.entry (IWord.by w 8 2)
  let ew := k.entry (IWord.by w 6 2)
  let pitch := af.rowBytes (X + H)
  let chains := 4 * (p.na + p.nb) + (if p.noFxb then 0 else 12)
  if p.form = 1 then
    (List.range T).map fun t =>
      { per := 22 + (d - 1) + chains
        cast := fun i => if i < d * N then spanBanks eo ((t * N + i / d) * pitch) (af.rowBytes X) else []
        load := fun _ => [] }
  else
    let kt := if p.fb2 then 32 else ktOf af false
    let kts := ceilDiv (X + H) kt
    let u := if x.fill = 32 then 32 else max 1 (k.widths.foldl min 32)
    let groups := ceilDiv H u
    let per := max (d * N) (F + 1)
    let gap := 24 + chains - X / kt * per
    let lines := if wf.arrayWidth = 0 then 1 else 16 / wf.arrayWidth
    let wrow := wf.rowBytes (128 * ceilDiv H 32)
    (List.range T).flatMap fun t => (List.range groups).flatMap fun g => (List.range kts).map fun i =>
      let lastX := if X / kt = 0 then g + 1 = groups ∧ i + 1 = kts else t ≠ 0 ∧ g = 0 ∧ i + 1 = X / kt
      { per := per + (if lastX then gap else 0)
        cast := fun v => if v < d * N then
            spanBanks eo ((t * N + v % N) * pitch + i * kt * af.bits / 8) (min kt (X + H - i * kt) * af.bits / 8)
          else []
        load := fun c => (List.range 4).flatMap fun a =>
          let r := (c + 4 * a) % F
          spanBanks ew ((i * kt + lines * r) * wrow + (128 * (u * g / 32) + 32 * a) * wf.bits / 8) (32 * wf.bits / 8) }

/-- The accesses of a RECUR that rank below the array feed: state rows (rank 3), and the OUT_H and h writes (rank 2), each at the edge at
which the schedule of R145 or R147 has it. CUR is not known beforehand, so a row counts in both banks. -/
def recurAccesses (x : CostCtx) (w : IWord) (p : StepShape) : List LowAccess × List LowAccess :=
  let k := x.k
  let prog := k.readStep (IWord.by w 4 2)
  let T := IWord.recT w
  let N := IWord.recN w
  let H := IWord.by w 20 2
  let X := IWord.by w 22 2
  let af := fmtOr (nbits w 224 4)
  let of' := fmtOr (ccwFmt (IWord.ccw w))
  let d := if p.fb2 then 2 else 1
  let es := if p.wide then 8 else 4
  let u := if p.form = 1 ∨ x.fill = 32 then 32 else max 1 (k.widths.foldl min 32)
  let groups := if p.form = 1 then 1 else ceilDiv H u
  let kts := if p.form = 1 then 1 else ceilDiv (X + H) (if p.fb2 then 32 else ktOf af false)
  let tA := if p.form = 1 then 21 + (d - 1) else 23
  let tB := tA + 4 * p.na + (if p.noFxb then 0 else 12) + 4 * p.nb
  let rdRows := (List.range 8).filter fun r =>
    (prog.stA ++ prog.stB).any fun st => (stageReads st).any fun o => opSrc o == 4 && opIdx o == r
  let wrRows := [prog.hdrA, prog.hdrB].filterMap fun h => if nbits h 21 1 = 1 then some (nbits h 18 3) else none
  let row (j r g : Nat) : List Nat :=
    let e := k.entry (k.rdN (k.entry (IWord.by w 12 2)) (2 * j) 2)
    let h := k.slotHdr e
    [0, 1].flatMap fun b =>
      spanBanks e (64 + b * bankBytes h.efmt h.nelem + (r * H + u * g) * es) (min u (H - u * g) * es)
  let each (f : Nat → Nat → Nat → Nat → Nat → List LowAccess) : List LowAccess :=
    (List.range T).flatMap fun t => (List.range groups).flatMap fun g => (List.range N).flatMap fun j =>
      let after := (t * groups + g + 1) * kts - 1
      f after t g j (if p.form = 1 then d * j else (d - 1) * N + j)
  let state := each fun after _ g j c =>
    rdRows.map (fun r => ⟨after, c + tA - 7, row j r g⟩) ++ wrRows.map fun r => ⟨after, c + tB, row j r g⟩
  let outs := each fun after t g j c =>
    (if nbits prog.hdrB 22 1 = 1 then
      [⟨after, c + tB + 1, spanBanks (k.entry (IWord.by w 10 2)) ((t * N + j) * of'.rowBytes H + u * g * of'.bits / 8)
        (min u (H - u * g) * of'.bits / 8)⟩] else [])
    ++ (if p.form = 2 ∧ t + 1 < T then
      [⟨after, c + tB + 1, spanBanks (k.entry (IWord.by w 8 2)) (((t + 1) * N + j) * af.rowBytes (X + H) + (X + u * g) * af.bits / 8)
        (min u (H - u * g) * af.bits / 8)⟩] else [])
  (state, outs)

/-- The fill time of a RECUR with its allowance, and the CCLK that its other accesses lose (R275). -/
def recurLoss (x : CostCtx) (w : IWord) (p : StepShape) : Nat × Nat :=
  if !x.known then (x.fill, 0)
  else
    let F := if p.form = 2 && loadMeets x.fill (recurFeeds x w p x.fill) then 2 * x.fill else x.fill
    let fs := recurFeeds x w p F
    let (state, outs) := recurAccesses x w p
    (F, 6 * meetCount F fs state + 2 * meetCount F fs outs)

/-- RECUR (R139, R144, R145, R267, R269, R270, R279). -/
def recurCost (x : CostCtx) (w : IWord) (p : StepShape) : ICost :=
  let T := IWord.recT w
  let N := IWord.recN w
  let H := IWord.by w 20 2
  let X := IWord.by w 22 2
  let af := fmtOr (nbits w 224 4)
  let of' := fmtOr (ccwFmt (IWord.ccw w))
  let d := if p.fb2 then 2 else 1
  let es := if p.wide then 8 else 4
  let ld := ceilDiv (2 * N) 64 + ceilDiv (64 + 8 * (p.na + p.nb)) 64
  let fx := if p.noFxb then 1 else 2
  let share (u g : Nat) : Nat :=
    let n := min u (H - u * g)
    (p.rd + p.wr) * runLines (n * es) (H * es) (u * g * es)
      + runLines (of'.rowBytes n) (of'.rowBytes H) (of'.rowBytes (u * g))
  let (F, loss) := recurLoss x w p
  if p.form = 1 then
    let period := 22 + (d - 1) + 4 * (p.na + p.nb) + (if p.noFxb then 0 else 12)
    { cyc := 8 + period * (T - 1) + d * (N - 1) + (d - 1) + loss
      tail := period - d + 3
      start := startTime ld N
      dyn := T * N * d * x.cells * cellRate af (b2n p.fb2)
        + lineEnergy 0 (T * N * d + T * N * share 32 0) (T * N * (p.na + p.nb)) (T * N * fx) 0 }
  else
    let f1 := F + 1
    let u := if x.fill = 32 then 32 else max 1 (x.k.widths.foldl min 32)
    let groups := ceilDiv H u
    let kt := if p.fb2 then 32 else ktOf af false
    let kts := ceilDiv (X + H) kt
    let period := max (d * N) f1
    let gap := 24 + 4 * (p.na + p.nb) + (if p.noFxb then 0 else 12)
    let wait := gap - X / kt * period
    let step := groups * kts * period + wait
    let pitch := af.rowBytes (X + H)
    let li := N * linesTouched (p.fbrow * H * es) (H * es)
      + (tab N fun j => linesTouched (j * pitch + af.rowBytes X) (af.rowBytes H)).foldl (· + ·) 0
    let vecs := T * groups * kts * d * N
    let lines := (tab groups (share u)).foldl (· + ·) 0
    let hs := (tab groups fun g =>
      runLines (af.rowBytes (min u (H - u * g))) pitch (af.rowBytes (X + u * g))).foldl (· + ·) 0
    { cyc := (ceilDiv li 16 + 10 - f1) + T * step - wait - (period - d * N) + loss
      tail := wait + (period - d * N)
      start := startTime ld N
      dyn := vecs * x.cells * cellRate af (b2n p.fb2)
        + lineEnergy (T * groups * kts * 128 * (x.fill / 32)) (vecs + T * N * lines + (T - 1) * N * hs)
            (T * N * groups * (p.na + p.nb)) (T * N * groups * fx) 0 }

/-- SCAN (R150, R271, R439). The next pass's load starts as the save's last write issues where the two use no common bank, whichever
bank of each slot is the committed one; otherwise once the save is visible. -/
def scanCost (x : CostCtx) (w : IWord) : ICost :=
  let T := IWord.recT w
  let N := IWord.recN w
  let D := IWord.scanD w
  let wide := IWord.w0 w 12 12 == 1
  let pairs := N * D
  let fs := [fmtOr (nbits w 224 4), fmtOr (nbits w 228 4), fmtOr (ccwFmt (IWord.ccw w))]
  let acc := fs.map fun f => vecAccess (min 128 pairs) f
  let a := acc.foldl max 1
  let cap := if wide then 4 else 8
  let V := ceilDiv pairs 128
  let passes := tab (ceilDiv V cap) fun p =>
    let v := min cap (V - p * cap)
    let lo := p * cap * 128
    let hi := min pairs (lo + v * 128)
    let lp := (tab N fun j =>
      let s := max lo (j * D)
      let e := min hi ((j + 1) * D)
      if s < e then linesTouched (4 * (s - j * D)) (4 * (e - s)) else 0).foldl (· + ·) 0
    (v, if wide then 2 * lp else lp)
  let es := if wide then 8 else 4
  let banks (p : Nat) : List Nat :=
    let lo := p * cap * 128
    let hi := min pairs (lo + cap * 128)
    (List.range N).flatMap fun j =>
      let s := max lo (j * D)
      let e := min hi ((j + 1) * D)
      let en := x.k.entry (x.k.rdN (x.k.entry (IWord.by w 10 2)) (2 * j) 2)
      let h := x.k.slotHdr en
      [0, 1].flatMap fun b => spanBanks en (64 + b * bankBytes h.efmt h.nelem + es * (s - j * D)) (es * (e - s))
  let apart (p : Nat) : Bool := x.known && !(banks (p + 1)).any (banks p).contains
  let stateRuns := ((List.range passes.length).map fun p =>
    let lo := p * cap * 128
    let hi := min pairs (lo + cap * 128)
    ((List.range N).map fun j =>
      let s := max lo (j * D)
      let e := min hi ((j + 1) * D)
      if s < e then runLines (es * (e - s)) 64 (es * (s - j * D)) else 0).foldl (· + ·) 0).foldl (· + ·) 0
  let streamRuns := (fs.map fun f => (tab V fun v =>
    runLines (f.rowBytes (min 128 (pairs - 128 * v))) (f.rowBytes pairs) (f.rowBytes (128 * v))).foldl (· + ·) 0).foldl (· + ·) 0
  let total := (passes.zipIdx.map fun ((v, lp), p) =>
    7 + lp + (T * max (v * a) 4 + 4) + lp + (if p + 1 < passes.length ∧ apart p = true then 0 else 3)).foldl (· + ·) 0
  let tail := 4 + 3 + (passes.getLastD (0, 0)).2
  { cyc := total - tail
    tail := tail
    start := startTime (ceilDiv (2 * N) 64 + (if refNull (IWord.xbRef w) then 0 else 1)) N
    dyn := lineEnergy 0 (T * streamRuns + 2 * stateRuns) (T * V) 0 0 }

/-- LCONV (R99, R154, R271). -/
def lconvCost (x : CostCtx) (w : IWord) : ICost :=
  let T := IWord.recT w
  let N := IWord.recN w
  let D := IWord.by w 20 2
  let L := IWord.by w 22 2
  let inF := fmtOr (nbits w 228 4)
  let kt := ktOf inF false
  let meet (r q : Nat) : Bool :=
    let banks (e : DWord) : List Nat := spanBanks e 0 (min 1024 (hExt e))
    x.known && (banks (x.k.entry (IWord.by w r 2))).any (banks (x.k.entry (IWord.by w q 2))).contains
  let f1 := (if meet 4 6 then 2 * x.fill else x.fill) + 1
  let loss := if meet 8 6 then 2 * T * N * ceilDiv ((fmtOr (ccwFmt (IWord.ccw w))).rowBytes D) 64 else 0
  let rows := N * (if T % kt = 0 then T / kt else (T + kt - 2) / kt + 1)
  let tiles := D * ((L + kt - 2) / kt + 1)
  let lh := N * (bankBytes (nbits w 228 4) ((L - 1) * D) / 64)
  let of' := fmtOr (ccwFmt (IWord.ccw w))
  { cyc := 7 + lh + (f1 + tiles * max rows f1 - max rows f1 + rows) + loss
    tail := 8 + max 6 (3 + lh)
    start := startTime (ceilDiv (2 * N) 64 + (if refNull (IWord.xbRef w) then 0 else 1)) N
    dyn := tiles * rows * x.cells * cellRate inF 0
      + lineEnergy (tiles * 32 * (x.fill / 32))
          (tiles * rows + 2 * lh + T * N * runLines (of'.rowBytes D) (of'.rowBytes D) 0) 0 0 0 }

/-- GATE (R101, R102, R107, R267). A CHAINED FUNC's vectors enter as its FX results become visible; what is charged beyond its interval
`ival0` is a longer one of this GATE. -/
def gateCost (x : CostCtx) (w : IWord) (ival0 : Nat) : ICost :=
  let c := x.k.readChain (IWord.by w 4 2)
  let S := if x.known then hdrN c.hdr else 8
  let rows := vecRows w .gate
  let W := vecW w .gate
  let src := IWord.w0 w 12 11
  let acc (r f : Nat) : Nat := if refNull (IWord.by w r 2) then 0 else vecAccess W (fmtOr f)
  let spd := !x.known || c.spdWr
  let accs := [ if src = 1 then vecAccess W (fmtOr (nbits w 168 4)) else 0, acc 8 (nbits w 172 4), acc 10 (nbits w 176 4)
              , if refNull (IWord.by w 12 2) then 0 else 1
              , if spd then vecAccess W (fmtOr (ccwFmt (IWord.ccw w))) else 0 ]
  let readers := (List.range S).filter fun s =>
    (stageReads (c.sts.getD s 0)).any fun o => opSrc o == 4 && opIdx o == c.stateDst
  let dep := if !x.known then 4 * S else if c.stateWr && !readers.isEmpty then 4 * (S - readers.headD 0) else 0
  let a := max (accs.foldl max 1) dep
  let reads := src == 1 || !refNull (IWord.by w 8 2) || !refNull (IWord.by w 10 2) || !refNull (IWord.by w 12 2)
  let lead := if src = 2 then 0 else if reads then 7 else if src = 0 then 2 else 0
  let run (on : Bool) (f : Nat) : Nat := let rb := (fmtOr f).rowBytes W; if on then runLines rb rb 0 else 0
  let lines := run (src == 1) (nbits w 168 4) + run (!refNull (IWord.by w 8 2)) (nbits w 172 4)
    + run (!refNull (IWord.by w 10 2)) (nbits w 176 4) + (if refNull (IWord.by w 12 2) then 0 else runLines 16 16 0)
    + run spd (ccwFmt (IWord.ccw w))
  { cyc := if src = 2 then (rows - 1) * (a - ival0) else lead + (rows - 1) * a
    tail := 4 * S + (if spd then 3 else 0) + (if !x.known || c.sumEn then 3 else 0)
    start := startTime (ceilDiv (40 + 8 * S) 64) 0
    dyn := lineEnergy 0 (rows * lines) (rows * S) 0 0 }

/-- The issue interval of a FUNC (R101, R124). -/
def funcInterval (x : CostCtx) (w : IWord) : Nat :=
  let W := vecW w .func
  let accs := [ if IWord.w0 w 12 11 = 1 then vecAccess W (fmtOr (nbits w 160 4)) else 0, if IWord.w0 w 15 14 = 3 then 1 else 0
              , if IWord.w0 w 13 13 = 1 then 0 else vecAccess W (fmtOr (ccwFmt (IWord.ccw w))) ]
  max (fxPasses x.k.fxContent (IWord.w0 w 20 16)) (accs.foldl max 1)

/-- FUNC (R101, R110, R124, R267). -/
def funcCost (x : CostCtx) (w : IWord) : ICost :=
  let rows := vecRows w .func
  let W := vecW w .func
  let src := IWord.w0 w 12 11
  let chained := IWord.w0 w 13 13 == 1
  let steps := fxPasses x.k.fxContent (IWord.w0 w 20 16)
  let masked := IWord.w0 w 15 14 == 3
  let run (on : Bool) (f : Nat) : Nat := let rb := (fmtOr f).rowBytes W; if on then runLines rb rb 0 else 0
  let lines := run (src == 1) (nbits w 160 4) + (if masked then runLines 16 16 0 else 0) + run (!chained) (ccwFmt (IWord.ccw w))
  { cyc := (if src = 1 || masked then 7 else if src = 0 then 2 else 0) + (rows - 1) * funcInterval x w
    tail := 12 * steps + (if chained then 0 else 3)
    dyn := lineEnergy 0 (rows * lines) 0 (rows * steps) 0 }

/-- REDUCE (R126, R267). -/
def reduceCost (w : IWord) : ICost :=
  let n := IWord.by w 12 2
  let rop := nbits w 160 4
  let rb := (fmtOr (nbits w 168 4)).rowBytes (nbits w 128 24)
  let spd := IWord.w0 w 12 11 = 0
  let ins := if spd then n * ceilDiv rb 64 else 0
  let kk := if rop < 3 then 1 else nbits w 164 4
  { cyc := if spd then 7 + ins else 0
    tail := (if rop = 0 then 8 else if rop < 3 then 6 else 10) + 3
    start := startTime (if refNull (IWord.xbRef w) then 0 else 1) 0
    dyn := lineEnergy 0 ((if spd then n * runLines rb rb 0 else 0)
      + (if refNull (IWord.by w 8 2) then 1 else 2) * n * runLines (4 * kk) (4 * kk) 0) 0 0 0 }

/-- CONVERT (R267). -/
def convertCost (w : IWord) : ICost :=
  let n := IWord.by w 12 2
  let c := IWord.by w 14 2
  let ri := (fmtOr (nbits w 128 4)).rowBytes c
  let ro := (fmtOr (ccwFmt (IWord.ccw w))).rowBytes c
  { cyc := 7 + max (ceilDiv (n * ri) 64) (ceilDiv (n * ro) 64)
    tail := 4
    start := startTime (if refNull (IWord.xbRef w) then 0 else 1) 0
    dyn := lineEnergy 0 (n * runLines ri ri 0 + n * runLines ro ro 0) 0 0 0 }

/-- MOVE: inside the core, from a token's core, or into a Collar (R182, R197, R267, R272). A remote read lands in SPD line by line. -/
def moveCost (x : CostCtx) (w : IWord) : ICost :=
  let rows := IWord.by w 8 2
  let n := IWord.by w 10 2
  let sum (off pitch : Nat) : Nat := (tab rows fun r => linesTouched (off + r * pitch) n).foldl (· + ·) 0
  let rl := sum (IWord.by w 12 4) (IWord.by w 20 4)
  let wl := sum (IWord.by w 16 4) (IWord.by w 24 4)
  let tok := nbits w 224 1 = 1
  let rdst := nbits w 227 1 = 1
  let hop := if packOf (nbits w 228 5) = packOf x.core then 6 else 10
  let es (off pitch : Nat) : Nat := rows * runLines n (if rows = 1 then 0 else pitch) off
  { cyc := (if tok then 2 * (24 + (rl - 1)) else 7) + (if rdst then 2 * (wl - 1) else if tok then 0 else max rl wl)
    tail := if rdst then 2 * (2 * hop + 2) else if tok then 0 else 3
    dyn := lineEnergy 0 (es (IWord.by w 12 4) (IWord.by w 20 4) + es (IWord.by w 16 4) (IWord.by w 24 4)) 0 0
      ((if tok then rl else 0) + (if rdst then wl else 0)) }

/-- Does an instruction take its rows from the CHAINED instruction before it (R175)? -/
def chainFed (w : IWord) : Bool :=
  match IWord.opc w with
  | some .gate => IWord.w0 w 12 11 == 2
  | some .func => IWord.w0 w 12 11 == 2
  | some .reduce => IWord.w0 w 12 11 == 1
  | _ => false

/-- The cost of one instruction of an admitted program, waits on SIGNALs aside; `prev` is the word before it (R251, R266 to R271,
R276). -/
def instrCost (x : CostCtx) (prev w : IWord) : ICost :=
  let ival0 := if chainFed w && IWord.opc prev == some .func then funcInterval x prev else 0
  match IWord.opc w with
  | none => {}
  | some .loadw =>
    { cyc := x.fill + 1
      dyn := lineEnergy (32 * ((List.range 4).filter fun a => nbits w (12 + a) 1 == 1).length * (x.fill / 32)) 0 0 0 0 }
  | some .matmul => productCost x w (IWord.mRows w)
  | some .matvec => if IWord.res w then residentCost x w else productCost x w (IWord.mRows w)
  | some .recur =>
    if x.known then recurCost x w (stepShape (x.k.readStep (IWord.by w 4 2)))
    else
      let fb2 := nbits w 224 4 == 0
      let a := recurCost x w (largestStep 1 fb2)
      let b := recurCost x w (largestStep 2 fb2)
      ⟨max a.cyc b.cyc, max a.tail b.tail, min a.lead b.lead, max a.start b.start, max a.dyn b.dyn⟩
  | some .scan => scanCost x w
  | some .lconv => lconvCost x w
  | some .gate => gateCost x w ival0
  | some .func => funcCost x w
  | some .reduce => reduceCost w
  | some .convert => convertCost w
  | some .move => moveCost x w
  | some .qpush => { cyc := 64 * IWord.by w 10 2 }
  | some .qpop => { cyc := 16 }
  | some .nop => { cyc := 1 }
  | some .branch => { cyc := 1 }
  | some .summary => if IWord.w0 w 15 15 = 1 then { cyc := 4, dyn := lineEnergy 0 1 0 0 0 } else { cyc := 1 }
  | some .endOp => {}
  | some .wait => {}
  | some .signal => {}

/-- Is an instruction a data instruction (R180)? -/
def Op.isData : Op → Bool
  | .nop => false | .endOp => false | .wait => false | .signal => false | .branch => false | .summary => false
  | .qpush => false | .qpop => false | _ => true

/-- Must an instruction wait for its predecessor's outputs (R180)? A FUSE consumer follows the watermark instead (R181), and INSRC =
0b00 reads the ACM that an array instruction writes. -/
def hazard (k : Core) (prev w : IWord) : Bool :=
  let acm (v : IWord) : Bool := match IWord.opc v with
    | some .matmul => true | some .matvec => true | some .recur => true | some .lconv => true | _ => false
  let drains (v : IWord) : Bool := match IWord.opc v with
    | some .gate => IWord.w0 v 12 11 == 0 | some .func => IWord.w0 v 12 11 == 0 | _ => false
  !IWord.fuse w && (((writtenRefs k prev).any fun r => (readRefs k w).any fun q => !refNull r && refIdx r == refIdx q)
    || (acm prev && drains w))

/-- What passes between the last vector of an instruction and the end of the start time of the next (R175, R180, R267, R268): the start
begins at that vector, a hazard holds the first vector, and nothing completes before its predecessor; a control instruction begins at
the completion. -/
def stepBetween (k : Core) (prev w : IWord) (a b : ICost) : Nat :=
  match IWord.opc w with
  | none => a.tail
  | some o =>
    if chainFed w then a.tail
    else if o.isData then
      max (max b.start (if hazard k prev w then a.tail - b.lead else 0)) (a.tail - (b.cyc + b.tail))
    else a.tail + b.start

/-- The graph node of instruction `i` of a program: `own` is its cost up to its last vector, `between` what passes until the end of the
start time of the instruction that follows (R268). What follows a NOP, or a BRANCH that is not taken, issues on the edge that R267
names. -/
def progNode (word : Nat → IWord) (own : Nat → Nat) (between : Nat → Nat → Nat) (i : Nat) : PNode :=
  let w := word i
  match IWord.opc w with
  | some .endOp => ⟨own i, [], none⟩
  | some .nop => ⟨own i, [(i + 1, 0)], none⟩
  | some .branch =>
    let off := sgn16 (IWord.by w 8 2)
    let t := ((i : Int) + off).toNat
    if off < 0 then ⟨own i, [(i + 1, 0)], some (t, IWord.by w 10 2, between i t)⟩
    else if IWord.w0 w 15 13 = 4 then ⟨own i, [(t, between i t)], none⟩
    else ⟨own i, [(i + 1, 0), (t, between i t)], none⟩
  | _ => ⟨own i, [(i + 1, between i (i + 1))], none⟩

/-! ## Retriever lines (R212 to R214) -/

/-- The node of instruction `i` (numbered from 1) of a Retriever program: the lines it moves, with every loop at the
largest count that any SETL gives its register. -/
def rtvNode (prog : List Nat) (lines : Nat → Nat) (i : Nat) : PNode :=
  let w := prog.getD (i - 1) 0
  let n := nbits w 16 16
  let count (l : Nat) : Nat := ((prog.filter fun v => nbits v 0 4 == 8 && nbits v 4 4 == l).map fun v => nbits v 16 16).foldl max 0
  match nbits w 0 4 with
  | 0 => ⟨0, [], none⟩
  | 9 => ⟨0, [(i + 1, 0)], some (n + 1, count (nbits w 4 4) - 1, 0)⟩
  | 14 => ⟨0, [(n + 1, 0)], none⟩
  | _ => ⟨lines w, [(i + 1, 0)], none⟩

/-- Lines that an instruction moves at most: a descriptor of LIST names up to 65,535 lines, and the list itself is read
four descriptors to a line. -/
def rtvLines (w : Nat) : Nat :=
  let n := nbits w 16 16
  match nbits w 0 4 with
  | 1 => n
  | 2 => n
  | 3 => n * 65535 + ceilDiv n 4
  | _ => 0

/-- The bound on the lines of one run. -/
def rtvBound (prog : List Nat) : Nat :=
  let node := rtvNode prog rtvLines
  pathEnd node (loopExtras node prog.length) prog.length 1

/-! ## W_g and E_g (R251, R279) -/

/-- What a group's cost is computed from: core and knowledge for each slot, the program, the entries, mark lines beyond
eight, and each slot's Retriever cycles and energy. -/
structure GroupCost where
  ctxs : List CostCtx
  ninst : Nat
  word : Nat → IWord
  entries : List Nat
  markLines : List Nat
  rtv : List (Nat × Nat)
  /-- Its frames commit locally, and otherwise how many state slots they name (R274). -/
  localCommit : Bool
  nslots : Nat

/-- Entry of slot `k` (R269). -/
def GroupCost.entryCost (g : GroupCost) (k : Nat) : Nat :=
  let e := g.entries.getD k 0
  let s1 := match g.ctxs[k]? with | some x => (instrCost x (g.word (e - 1)) (g.word e)).start | none => 0
  32 + max (80 + (g.markLines.getD k 0 - 8)) s1

/-- The waits found so far: (slot, index) with the CCLK that the WAIT waits. -/
abbrev Waits := List ((Nat × Nat) × Nat)

/-- The node function of slot `k` in cycles. -/
def GroupCost.node (g : GroupCost) (x : CostCtx) (k : Nat) (ws : Waits) (i : Nat) : PNode :=
  let cost (i : Nat) : ICost := instrCost x (g.word (i - 1)) (g.word i)
  progNode g.word (fun i => (cost i).cyc + ((ws.find? (·.1 == (k, i))).map (·.2)).getD 0)
    (fun i j => stepBetween x.k (g.word i) (g.word j) (cost i) (cost j)) i

/-- The latest edge, from the fire, at which instruction `i` of slot `k` is done: the worst path to it and every pass of
the loops around it. -/
def GroupCost.arrival (g : GroupCost) (x : CostCtx) (k : Nat) (ws : Waits) (i : Nat) : Option Nat :=
  let node := g.node x k ws
  let ex := loopExtras node g.ninst
  let around := ((List.range g.ninst).map fun j =>
    match (node (j + 1)).back with
    | some (t, _, _) => if t ≤ i ∧ i < j + 1 then Sparse.get 0 ex (j + 1) else 0
    | none => 0).foldl (· + ·) 0
  (pathTo node ex (g.entries.getD k 0) i).map (· + g.entryCost k + around + (instrCost x (g.word (i - 1)) (g.word i)).tail)

/-- One round: every WAIT at the SIGNAL latency of its producers, 2 CCLK on the same core and 16 on another (R267, R272),
and no longer than its timeout; a WAIT whose counter no SIGNAL of the program feeds is charged its timeout. -/
def GroupCost.round (g : GroupCost) (ws : Waits) : Waits :=
  let idx := (List.range g.ninst).map (· + 1)
  let sigs := (g.ctxs.zipIdx).flatMap fun (x, k) => (idx.filter fun i => IWord.opc (g.word i) == some .signal).filterMap fun i =>
    (g.arrival x k ws i).map fun t => (nbits (g.word i) 32 4, k, t)
  (g.ctxs.zipIdx).flatMap fun (x, k) => (idx.filter fun i => IWord.opc (g.word i) == some .wait).filterMap fun i =>
    let w := g.word i
    let own := ((ws.find? (·.1 == (k, i))).map (·.2)).getD 0
    (g.arrival x k ws i).map fun t =>
      let ts := (sigs.filter fun s => s.1 == nbits w 32 4).map fun s => s.2.2 + (if s.2.1 = k then 2 else 16)
      ((k, i), if IWord.by w 6 2 = 0 then 0 else if ts.isEmpty then 64 * IWord.by w 8 2
        else min (64 * IWord.by w 8 2) (ts.foldl max 0 - (t - own)))

/-- The waits after `n` rounds. -/
def GroupCost.settleWaits (g : GroupCost) : Nat → Waits → Waits
  | 0, ws => ws
  | n + 1, ws => g.settleWaits n (g.round ws)

/-- W_g in CCLK and E_g in pJ. -/
def GroupCost.total (g : GroupCost) : Nat × Nat :=
  let waits := ((List.range g.ninst).filter fun i => IWord.opc (g.word (i + 1)) == some .wait).length
  let ws := g.settleWaits (waits * g.ctxs.length) []
  let slot (x : CostCtx) (k : Nat) : Nat :=
    let node := g.node x k ws
    g.entryCost k + pathEnd node (loopExtras node g.ninst) g.ninst (g.entries.getD k 0) + (g.rtv.getD k (0, 0)).1
  let wg := ((g.ctxs.zipIdx).map fun (x, k) => slot x k).foldl max 0
    + (if g.localCommit then 4 else 48 + ceilDiv (g.nslots - 64) 16)
  let energy (x : CostCtx) (k : Nat) : Nat :=
    let node (i : Nat) : PNode := { progNode g.word (fun i => (instrCost x (g.word (i - 1)) (g.word i)).dyn) (fun _ _ => 0) i with }
    pathEnd node (loopExtras node g.ninst) g.ninst (g.entries.getD k 0) + (g.rtv.getD k (0, 0)).2
      + wg * (2 * x.cells + 2000)
  (wg, ceilDiv (((g.ctxs.zipIdx).map fun (x, k) => energy x k).foldl (· + ·) 0) 100)

end Sys2Proof.Machine
end

