-- ==== Sys2Proof/Machine/Admission.lean ====
section
/-! DEFINITION. Admission (08_time_and_admission): the residency map and its locks, the checks on a program image, the tests
of R251 to R253, the placement of R254, recosting, and the freeing of a group. -/

namespace Sys2Proof.Machine

/-! ## Residency map (R219 to R221) -/

/-- The host address of the map line of an aligned group of eight pages. -/
def State.rmapAddr (s : State) (group : Nat) : Nat :=
  (wbits s.glb.rmapLo 31 16 * 65536 + wbits s.glb.rmapHi 15 0 * 2 ^ 32) + 64 * group

/-- The eight entries of a map line; without translation no page is resident. -/
def State.rmapLine (s : State) (group : Nat) : List DWord :=
  tab 8 fun i => if s.glb.rmapEn then dword (s.hostNat (s.rmapAddr group + 8 * i) 8) else 0

/-- Drops the least recently used unlocked block. -/
def dropLru : List RmcBlock → List RmcBlock
  | [] => []
  | b :: rest => if rest.all (fun (x : RmcBlock) => decide (0 < x.locks)) ∧ b.locks = 0 then rest else b :: dropLru rest

/-- Brings the block of a group of pages into a pack's cache, most recently used first. -/
def State.rmcTouch (s : State) (p group : Nat) : State :=
  s.updPack p fun x =>
    match x.rmc.find? (·.group == group) with
    | some b => { x with rmc := b :: x.rmc.filter (fun c => c.group != group) }
    | none =>
      let old := if x.rmc.length < 512 then x.rmc else dropLru x.rmc
      { x with rmc := ⟨group, s.rmapLine group, 0⟩ :: old }

/-- The cached entry of a page. -/
def State.rmcEntry (s : State) (p page : Nat) : DWord :=
  match (s.pack p).rmc.find? (·.group == page / 8) with
  | some b => b.entries.getD (page % 8) 0
  | none => 0

/-- The distinct map groups that cover a list of page ranges. -/
def pageGroups (pages : List (Nat × Nat)) : List Nat :=
  (pages.flatMap fun (a, n) => (List.range (n / 8 + 2)).filterMap fun i =>
    if a / 8 + i ≤ (a + n - 1) / 8 then some (a / 8 + i) else none).eraseDups

/-- Locked blocks of a pack. -/
def Pack.locked (p : Pack) : Nat := (p.rmc.filter fun b => decide (0 < b.locks)).length

/-- Locks the blocks of a page list. -/
def State.rmcLock (s : State) (p : Nat) (pages : List (Nat × Nat)) : State :=
  (pageGroups pages).foldl (fun t g =>
    (t.rmcTouch p g).updPack p fun x =>
      { x with rmc := x.rmc.map fun b => if b.group = g then { b with locks := b.locks + 1 } else b }) s

/-- Unlocks them. -/
def State.rmcUnlock (s : State) (p : Nat) (pages : List (Nat × Nat)) : State :=
  (pageGroups pages).foldl (fun t g =>
    t.updPack p fun x =>
      { x with rmc := x.rmc.map fun b => if b.group = g then { b with locks := b.locks - 1 } else b }) s

/-- Would locking a page list keep a pack within 384 locked blocks? -/
def Pack.lockFits (p : Pack) (pages : List (Nat × Nat)) : Bool :=
  let new := (pageGroups pages).filter fun g => !(p.rmc.any fun b => b.group == g && decide (0 < b.locks))
  decide (p.locked + new.length ≤ 384)

/-! ## The program image (R161, R245) -/

/-- The checks of R191 on an instruction of an image, as far as its words decide them: handle tables, descriptors and array tags
belong to the copies that ARM names. -/
def imageInstr (conf : Conf) (word : Nat → IWord) (ninst i : Nat) : Nat :=
  let w := word i
  match IWord.opc w with
  | none => stOpcode
  | some o =>
    let v : VCtx := ⟨{}, 0, conf, 0, 0, ninst, word, i, [], tab 4 fun _ => ⟨false, none⟩, false, .idle, none⟩
    let c := IWord.ccw w
    let xb := refNull (IWord.xbRef w)
    let fmts := match o with
      | .recur => !(sameWidth (nbits w 224 4) (nbits w 228 4) || (nbits w 224 4 == 0 && nbits w 228 4 == 1))
      | _ => badFormats v o
    let mode := match o with
      | .matmul => IWord.passes w == 3 || (IWord.spillP w != 0 && xb)
      | .matvec => IWord.passes w == 3 || (IWord.spillP w != 0 && xb) || (!IWord.res w && IWord.tw w)
          || (IWord.res w && (IWord.spillP w != 0
            || (IWord.tw w && (IWord.passes w != 0 || !(IWord.wfmt w == 1 || IWord.wfmt w == 2)))))
      | .recur => false
      | .move => badMode { v with core := 32 } o
      | _ => badMode v o
    let shape := match o with
      | .recur => outOf (IWord.recT w) 4096 || IWord.by w 22 2 == 0 || outOf (IWord.by w 20 2) 512
          || decide (4096 < IWord.by w 20 2 + IWord.by w 22 2) || outOf (IWord.recN w) 512
      | _ => badShape v o
    firstBad
      [ failIf (badField w o) stField
      , failIf (fmts || (o.hasCcw && (decide (6 < ccwFmt c) || ccwBscale c == 3 || (ccwBscale c != 0 && (!shortFmt (ccwFmt c) || xb))))) stFormat
      , failIf (o.hasCcw && (decide (1 < ccwRound c) || (nbits c 7 1 == 1 && ccwFmt c != 0) || nbits c 16 16 != 0
          || (ccwRound c != 0 && (ccwFmt c == 0 || ccwFmt c == 6)) || (nbits c 8 3 != 0 && xb))) stConvert
      , failIf mode stMode, failIf shape stShape
      , failIf (o == .func && decide (4 ≤ IWord.w0 w 20 16) && decide (IWord.w0 w 20 16 < 16)) stFunc
      , failIf (o == .branch && !(decide (1 ≤ (i : Int) + sgn16 (IWord.by w 8 2))
          && decide ((i : Int) + sgn16 (IWord.by w 8 2) ≤ ninst))) stBounds ]

/-- The limits of early service on an instruction (R412). -/
def earlyInstr (w : IWord) : Nat :=
  let bf (x : Nat) : Bool := x == 1
  let vx (x : Nat) : Bool := x == 0 || x == 1
  match IWord.opc w with
  | none => stOk
  | some o =>
    let fmts := match o with
      | .loadw => bf (nbits w 128 4)
      | .matmul => bf (IWord.afmt w) && bf (IWord.wfmt w)
      | .matvec => bf (IWord.afmt w) && bf (IWord.wfmt w)
      | .recur => bf (nbits w 224 4) && bf (nbits w 228 4)
      | .scan => vx (nbits w 224 4) && vx (nbits w 228 4) && IWord.w0 w 12 12 == 0
      | .lconv => bf (nbits w 224 4) && bf (nbits w 228 4)
      | .gate => vx (nbits w 168 4) && vx (nbits w 172 4) && vx (nbits w 176 4)
      | .func => vx (nbits w 160 4)
      | .reduce => vx (nbits w 168 4)
      | .convert => vx (nbits w 128 4)
      | _ => true
    firstBad
      [ failIf (!fmts || (o.hasCcw && !vx (ccwFmt (IWord.ccw w)))) stFormat
      , failIf ((o == .matmul || o == .matvec) && IWord.passes w != 0) stMode
      , failIf (o == .func && decide (20 < IWord.w0 w 20 16)) stFunc ]

/-- The first instruction, counting from `i`, that a check refuses, with its byte offset. -/
def firstInstr (check : Nat → Nat) (i : Nat) : Nat → Option (Nat × Nat)
  | 0 => none
  | n + 1 => if check i = stOk then firstInstr check (i + 1) n else some (check i, 32 * i)

/-- A program image as 32-byte words: status and offset of its first failure. -/
def imageStatus (conf : Conf) (full : Bool) (bytes : List Byte) (words : List Nat) (nslot : Nat) : Option (Nat × Nat) :=
  let g := fieldAt bytes
  let ninst := g 4 2
  let word (i : Nat) : IWord := words.getD i 0
  let h := firstBad
    [ failIf (decide (bytes.length < 32 * (1 + ninst))) stBounds
    , failIf (g 0 2 != 0x0100) stVersion
    , failIf (outOf (g 2 1) 4 || ninst == 0 || g 3 1 != 0 || g 6 2 != 0 || g 20 8 != 0 || g 2 1 != nslot
        || (List.range 4).any fun k => if k < g 2 1 then outOf (g (8 + 2 * k) 2) ninst else g (8 + 2 * k) 2 != 0) stField
    , failIf (crc32c ((bytes.take 28 ++ (bytes.drop 32).take (32 * ninst)).map BitVec.toNat) != g 28 4) stCrc ]
  if h ≠ stOk then some (h, 0)
  else
    match firstInstr (imageInstr conf word ninst) 1 ninst with
    | some x => some x
    | none => if full then none else firstInstr (fun i => earlyInstr (word i)) 1 ninst

/-! ## The tests of R251 to R253 -/

/-- D'_g, T_g and W_g of a group on a core. -/
structure TestRow where
  d : Int
  t : Nat
  w : Nat
  deriving DecidableEq, Repr

/-- What a test answers. -/
inductive Verdict where
  | pass | fail | complex
  deriving DecidableEq, Repr

/-- T_g = P × U_min in CCLK. -/
def State.periodOf (s : State) (g : Group) : Nat := max 1 (g.p * (s.tb g.tb).uMin)

/-- The row of a group in a pack that holds `n` groups. -/
def State.testRow (s : State) (n : Nat) (g : Group) : TestRow :=
  { d := (g.dlc : Int) - g.win * (s.tb g.tb).uMax - 2 * g.lag - 2 * (n - 1 : Nat), t := s.periodOf g, w := g.wg }

/-- dbf(L). -/
def dbf (rows : List TestRow) (l : Int) : Int :=
  (rows.map fun r => max 0 ((l - r.d) / r.t + 1) * r.w).foldl (· + ·) 0

/-- X(L). -/
def reserveOf (rows : List TestRow) (l : Int) : Int :=
  let tmin := (rows.map (·.t)).foldl min ((rows.map (·.t)).headD 1)
  let wmax := (rows.map (·.w)).foldl max 0
  max 0 (-((-l) / (tmin : Int))) * wmax

/-- B(L); 2,304 is charged where the core may run best-effort work. -/
def blockOf (rows : List TestRow) (be : Bool) (l : Int) : Int :=
  ((rows.filter fun r => decide (l < r.d)).map (·.w)).foldl max (if be then 2304 else 0)

/-- The busy period: the fixed point of R251, if it stays within 2^32 CCLK. -/
def busyPeriod (rows : List TestRow) (be : Bool) (l : Nat) : Nat → Option Nat
  | 0 => none
  | fuel + 1 =>
    let next := (((rows.map fun r => ceilDiv l r.t * r.w).foldl (· + ·) 0 : Nat) + reserveOf rows l + blockOf rows be 0).toNat
    if 2 ^ 32 < next then none else if next = l then some l else busyPeriod rows be next fuel

/-- The first check point after `l`. -/
def nextPoint (rows : List TestRow) (l : Int) : Int :=
  let pts := rows.map fun r => if l < r.d then r.d else r.d + ((l - r.d) / r.t + 1) * r.t
  pts.foldl min (pts.headD 0)

/-- Walks the check points up to `top`. -/
def walkPoints (rows : List TestRow) (be : Bool) (top : Int) (l : Int) (bad : Bool) : Nat → Verdict
  | 0 => .complex
  | fuel + 1 =>
    if top < l then (if bad then .fail else .pass)
    else
      let here := decide (dbf rows l + reserveOf rows l + blockOf rows be l > l * 63 / 64)
      walkPoints rows be top (nextPoint rows l) (bad || here) fuel

/-- The test of R251 on the rows of one core; a busy period grows by at least one entry and commit in every round. -/
def coreVerdict (rows : List TestRow) (be : Bool) : Verdict :=
  if rows.isEmpty then .pass
  else
    match busyPeriod rows be ((rows.map (·.w)).foldl (· + ·) 0) (2 ^ 25) with
    | none => .complex
    | some b =>
      let dmin := (rows.map (·.d)).foldl min ((rows.map (·.d)).headD 0)
      let dmax := (rows.map (·.d)).foldl max ((rows.map (·.d)).headD 0)
      walkPoints rows be (max dmax b) dmin false 65537

/-- The groups of a pack. -/
def packGroups (gs : List Group) (p : Nat) : List Group := gs.filter fun g => g.pack == p

/-- R251 on every core of a pack that holds a slot of a deadline group. -/
def State.packVerdict (s : State) (gs : List Group) (p : Nat) : Verdict :=
  let mine := packGroups gs p
  let vs := (List.range 4).map fun q =>
    let here := mine.filter fun g => (g.cores.take g.nslot).contains q
    coreVerdict (here.map (s.testRow mine.length)) (!here.any (·.prefire))
  if vs.contains .complex then .complex else if vs.contains .fail then .fail else .pass

/-- The left side of R252 times 2 G, in mW. -/
def State.powerSum (s : State) (gs : List Group) : Nat :=
  2 * 131072 * (1600 + 800 * s.conf.packs)
    + (gs.map fun g => 3 * g.eg * (ceilDiv 131072 (s.periodOf g) + 1)).foldl (· + ·) 0

/-- R252. -/
def State.powerOk (s : State) (gs : List Group) : Bool := decide (s.powerSum gs ≤ 2 * 131072 * 60000)

/-- DL_POWER after an admission, a release or a recosting (R434). -/
def State.setDlPower (s : State) : State :=
  { s with power := { s.power with dlPower := min 65535 (ceilDiv (s.powerSum (s.groups.map (·.2))) (2 * 131072)) } }

/-- R25 in a pack: at most 1,536,000 fires a second at 1.5 GHz CCLK, one per member. -/
def State.rateOk (s : State) (gs : List Group) (p : Nat) : Bool :=
  let r := (packGroups gs p).foldl (fun (a : Nat × Nat) g => (a.1 * s.periodOf g + g.nmem * a.2, a.2 * s.periodOf g)) (0, 1)
  decide (r.1 * 15625 ≤ 16 * r.2)

/-- A free entry, and room for the members (R238, R253). -/
def roomOk (gs : List Group) (p : Nat) : Bool :=
  let mine := packGroups gs p
  decide (mine.length ≤ 512) && decide ((mine.map (·.nmem)).foldl (· + ·) 0 ≤ 512)

/-! ## Cost of a group in a state (R251, R255) -/

/-- ENTRY_k of a group's image. -/
def Group.entryOf (g : Group) (k : Nat) : Nat := nbits (g.image.getD 0 0) (8 * (8 + 2 * k)) 16

/-- The first 16 banks that an entry's lines use. -/
def entryBanks (e : DWord) : List Nat := spanBanks e 0 (min 1024 (hExt e))

/-- Retriever cycles and energy of slot `k`: every line of a run started by a fire at the read-latency bound, 16 tags at a time, and 6
FCLK from the last line's data to SPD; a landing line loses 22 CCLK unless no buffer of the program shares a bank with the buffers of
the run (R212, R272, R275, R278). -/
def State.rtvCharge (s : State) (g : Group) (k : Nat) : Nat × Nat :=
  let c := s.core (g.core k)
  let used := (((List.range (nbits (g.image.getD 0 0) 32 16)).flatMap fun i =>
    let w := g.image.getD (i + 1) 0
    readRefs c w ++ writtenRefs c w).filter fun q => !refNull q).flatMap fun q => entryBanks (c.entry q)
  let apart (store : List Nat) : Bool := store.all fun w =>
    !(nbits w 0 4 == 1 || nbits w 0 4 == 3) || !(entryBanks (c.entry (nbits w 32 16))).any used.contains
  ((List.range 8).filter fun r => nbits (g.rtvs.getD k 0) r 1 == 1 && (c.rtv r).trig == 1).foldl (fun a r =>
    let n := rtvBound (c.rtv r).store
    let lost := if apart (c.rtv r).store then 0 else 22 * n
    (a.1 + 2 * (ceilDiv n 16 * s.mport.latBound + n + (if n = 0 then 0 else 6)) + lost, a.2 + n * (15000 + 2000))) (0, 0)

/-- State slots that the program of slot `k` names: distinct handles where the slot lists are known, else the sum of NSTR (R274). -/
def State.slotCount (s : State) (g : Group) (k : Nat) (known : Bool) : Nat :=
  let c := s.core (g.core k)
  let ws := (List.range (nbits (g.image.getD 0 0) 32 16)).map fun i => g.image.getD (i + 1) 0
  let of (w : IWord) : Option Nat := match IWord.opc w with
    | some .recur => some (IWord.by w 12 2) | some .scan => some (IWord.by w 10 2) | some .lconv => some (IWord.by w 10 2) | _ => none
  if known then ((ws.flatMap fun w => match of w with
    | some l => (c.slotRefs l (IWord.recN w)).map refIdx
    | none => []).eraseDups).length
  else (ws.map fun w => if (of w).isSome then IWord.recN w else 0).foldl (· + ·) 0

/-- Do the frames of a group commit locally: one slot, tick mode, egress outputs only (R27, R274, R323)? -/
def State.localCommit (s : State) (g : Group) : Bool :=
  !g.block && g.nslot == 1 && g.fence.isNone && g.notify.isNone
    && !((List.range 16).any fun l => s.tileEn l && s.tileGid l == g.gid)
    && !((List.range 8).any fun r => nbits (g.rtvs.getD 0 0) r 1 == 1 && ((s.core (g.core 0)).rtv r).trig == 2)

/-- W_g and E_g at the present widths of the group's cores; before ARM the descriptors and mark buffers are not known. -/
def State.costOf (s : State) (g : Group) : Nat × Nat :=
  let known := !g.progs.isEmpty
  let lines := ceilDiv (g.nmem * ceilDiv g.n 8) 64
  let gc : GroupCost :=
    { ctxs := tab g.nslot fun k => ⟨s.core (g.core k), g.core k, known⟩
      ninst := nbits (g.image.getD 0 0) 32 16
      word := fun i => g.image.getD i 0
      entries := tab g.nslot g.entryOf
      markLines := tab g.nslot fun k => if known && refNull (g.marks.getD k 0) then 0 else lines
      rtv := tab g.nslot fun k => if known then s.rtvCharge g k else (0, 0)
      localCommit := known && s.localCommit g
      nslots := ((List.range g.nslot).map fun k => s.slotCount g k known).foldl (· + ·) 0 }
  gc.total

/-- A group with the cost it has in this state. -/
def State.priced (s : State) (g : Group) : Group := { g with wg := (s.costOf g).1, eg := (s.costOf g).2 }

/-- The tests of R251 and R252 with a candidate in place. -/
def State.tryGroup (s : State) (gid : Nat) (g : Group) : Verdict × Bool :=
  let gs := ((s.groups.filter fun e => e.1 != gid).map (·.2)) ++ [g]
  (s.packVerdict gs g.pack, s.powerOk gs)

/-! ## Placement (R241, R254) -/

/-- Slot-to-core assignments of `n` distinct cores in lexicographic order. -/
def assignments : Nat → List Nat → List (List Nat)
  | 0, _ => [[]]
  | n + 1, used => ((List.range 4).filter fun c => !used.contains c).flatMap fun c =>
      (assignments n (c :: used)).map (c :: ·)

/-- Is an assignment open to a group: cores in service and powered, a PREFIRE group alone on its core (R241, R328)? -/
def State.placeOpen (s : State) (gid : Nat) (g : Group) : Bool :=
  g.allCores.all fun c =>
    (s.core c).inService && s.coreOn c
      && !(s.groups.any fun e => e.1 != gid && e.2.allCores.contains c && (g.prefire || e.2.prefire))

/-- Tries placements in order: the first that passes, else whether some was too complex, and whether some passed R251. -/
def State.place (s : State) (gid : Nat) (g : Group) : List (Nat × List Nat) → Bool → Bool → Option Group × Bool × Bool
  | [], cx, pw => (none, cx, pw)
  | (p, cs) :: rest, cx, pw =>
    let h := { g with pack := p, cores := cs }
    if s.placeOpen gid h then
      let h := s.priced h
      match s.tryGroup gid h with
      | (.pass, true) => (some h, cx, pw)
      | (.pass, false) => s.place gid g rest cx true
      | (.fail, _) => s.place gid g rest cx pw
      | (.complex, _) => s.place gid g rest true pw
    else s.place gid g rest cx pw

/-- ADMIT code when no assignment passes (R246). -/
def noPlace (cx pw : Bool) : Nat := if cx then 0x0C else if pw then 0x0B else 0x0A

/-! ## Freeing and recosting -/

/-- Rewrites a group's calendar entry, if it has one. -/
def State.updEntry (s : State) (g : Group) (f : CalEntry → CalEntry) : State :=
  match (s.pack g.pack).entries.find? (·.1 == g.entry) with
  | some (_, e) => s.updPack g.pack fun p => { p with entries := p.entries.put g.entry (f e) }
  | none => s

/-- CORES of a calendar entry. -/
def Group.coresField (g : Group) : Nat := ((g.cores.take g.nslot).zipIdx.map fun (c, k) => c * 4 ^ k).foldl (· + ·) 0

/-- The calendar entry of a group whose next close is `next` (R248). -/
def State.calEntry (s : State) (g : Group) (next : DWord) : CalEntry :=
  { next := next, p := g.p, drel := s.drel g, wres := 2 * g.wg % 2 ^ 32, gid := g.gid, lag := g.lag, cores := g.coresField
    ctl := (g.nslot - 1) + 4 * b2n g.start + 16 * g.tb, xctl := b2n g.prefire, budget := 256 }

/-- Frees a released group: entry, reservation, locks, pins and references (R245, R303). -/
def State.freeGroup (s : State) (gid : Nat) : State :=
  match s.group? gid with
  | none => s
  | some g =>
    let s := if g.stage = .reserved then s
      else s.updPack g.pack fun p => { p with entries := p.entries.del g.entry }
    let s := s.rmcUnlock g.pack g.pages
    let names := if g.stage = .reserved then [] else s.fxOf g
    let s := { s with groups := s.groups.del gid }
    let s := (names.foldl (fun t (c, i) => if t.fxNeeded c i then t else t.pin c i false) s).setDlPower
    s.dropRefs g.refs

/-- Sheepdog applies the tests to a group that it has priced again; on failure its standby cores are tried, and without one it is
parked (R255). -/
def State.recostGroup (s : State) (gid c : Nat) : State :=
  match s.group? gid with
  | none => s
  | some h =>
    let g := h
    let ok (v : Verdict × Bool) : Bool := v.1 == .pass && v.2
    if ok (s.tryGroup gid h) then
      (s.setGroup gid h).updEntry h fun e => { e with wres := 2 * h.wg % 2 ^ 32 }
    else
      let moved := tab g.nslot fun k =>
        if g.core k = c then match g.standby.getD k none with | some b => b % 4 | none => g.cores.getD k 0 else g.cores.getD k 0
      let h2 := s.priced { g with cores := moved }
      if moved ≠ g.cores.take g.nslot ∧ moved.eraseDups.length = g.nslot ∧ s.placeOpen gid h2 = true
          ∧ ok (s.tryGroup gid h2) = true then
        s.setGroup gid { g with moves := (moved.zipIdx.filter fun (m, k) => m != g.cores.getD k 0).map fun (m, k) => (k, m), movable := false }
      else
        let s := s.setGroup gid h
        s.parkGroup gid .narrowed

/-- Recosts every group with a slot on a core: all of them are priced before any is tested (R255). -/
def State.recost (s : State) (c : Nat) : State :=
  let mine := s.groups.filter fun e => e.2.allCores.contains c
  let s := mine.foldl (fun t e => t.setGroup e.1 (t.priced e.2)) s
  (mine.foldl (fun t e => t.recostGroup e.1 c) s).setDlPower

end Sys2Proof.Machine
end

