-- ==== Sys2Proof/Machine/Jobs.lean ====
section
/-! DEFINITION. Shared operations on best-effort jobs, and what an uncorrectable fault or a failed instruction does to the
frame or job it touches (06_task_programs, 10_host_objects, 11_faults_and_kennel). -/

namespace Sys2Proof.Machine

/-! ## Jobs (R291, R292, R134, R295) -/

/-- The cores of a job. -/
def Job.cores (j : Job) : List Nat := j.slots.map (·.core)

/-- Rewrites every core that runs a slot of a ring's job. -/
def State.onJobCores (s : State) (ring : Nat) (f : Core → Core) : State :=
  match s.job? ring with
  | none => s
  | some j => j.cores.foldl (fun t c => t.updCore c fun k =>
      match k.csq.run with
      | .job r _ => if r = ring then f k else k
      | _ => k) s

/-- Completes the command at the head of a ring with an outcome; COMPLETION then reports it. -/
def State.finishHead (s : State) (ring : Nat) (c : Cmpl) : State :=
  s.updRing ring fun x => x.updHead fun d => { d with done := some c }

/-- NaN trap HALTED clears on the cores of a job that the driver resumes or aborts (R129). -/
def State.unhalt (s : State) (ring : Nat) : State :=
  match s.job? ring with
  | none => s
  | some j => j.cores.foldl (fun t c => t.updCore c fun k =>
      if k.nan.halt = some ring then { k with nan := { k.nan with stat := k.nan.stat &&& ~~~2#32, halt := none } } else k) s

/-- Ends the job of a ring: its slots commit with OK and are closed otherwise, its cores stand idle, and the ring's head
takes the outcome (R134, R193). -/
def State.endJob (s : State) (ring : Nat) (c : Cmpl) : State :=
  let s := s.onJobCores ring fun k =>
    let q := if c.status = 0 then k.commitSlots none else k.closeSlots
    { q with csq := q.csq.rest, preempt := false }
  let s := s.unhalt ring
  ({ s with jobs := s.jobs.del ring }).finishHead ring c

/-! ## Fault records (R316, R346) -/

/-- SRC of FLT_REC; a calendar entry leaves no record in a core. -/
def srcCode : FaultSrc → Nat
  | .spd => 0 | .acm => 1 | .weightParity => 2 | .weightReadback => 3 | .columnTest => 4 | .fabric => 5 | .memoryPort => 6
  | .calendar => 5

/-- Fills FLT_REC and FLT_LOC: an uncorrectable fault replaces a corrected error. -/
def Core.fltFill (k : Core) (src : FaultSrc) (corr : Bool) (outcome : Nat) (be : Bool) (id : Nat) (loc : Nat) (col : Nat) : Core :=
  if k.fltRec.getLsbD 0 && (corr || !k.fltRec.getLsbD 5) then k
  else { k with
    fltRec := word (1 + srcCode src * 2 + 32 * b2n corr + 64 * outcome + 256 * b2n be + 512 * (id % 4096))
    fltLoc := word (loc % 65536 + 65536 * (col % 32)) }

/-- A corrected error (R315, R316): counted, recorded while nothing is, and in an SPD lane word or an ACM element queued for its
write-back. A calendar entry has no SRC code and leaves no record. -/
def State.corrected (s : State) (c : Nat) (src : FaultSrc) (loc col : Nat) : State :=
  let run := (s.core c).csq.run
  let cells : List Nat := match src with | .spd => [loc] | .acm => [65536 + loc] | _ => []
  let s := { s with tele := { s.tele with ceTotal := satWord s.tele.ceTotal 1 } }
  (s.updCore c fun k =>
    let k := { k with ceCnt := satWord k.ceCnt 1, toWrite := k.toWrite ++ cells }
    if src = .calendar then k
    else k.fltFill src true 0 run.be (if run = .idle then 0 else run.id) loc col).raise (pgCore c) 13

/-! ## Committed banks (R321) -/

/-- The lines of the committed bank of a slot. -/
def Core.bankLines (k : Core) (idx : Nat) : Nat × Nat :=
  let e := k.entry idx
  let h := k.slotHdr e
  (hBase e + bankOff h h.cur / 64, bankBytes h.efmt h.nelem / 64)

/-- The distinct state slots of a group on a core. -/
def State.groupSlots (s : State) (g : Group) (c : Nat) : List Nat :=
  (((tab g.nmem fun j => s.memberSlots g j).flatten).filterMap fun x => if x.1 = c then some x.2 else none).eraseDups

/-- The state slot of an armed group whose committed bank holds a line of a core. -/
def State.bankOwner (s : State) (c line : Nat) : Option (Nat × Nat) :=
  (s.groups.filter fun e => e.2.live && e.2.allCores.contains c).findSome? fun e =>
    (s.groupSlots e.2 c).findSome? fun i =>
      let b := (s.core c).bankLines i
      if b.1 ≤ line ∧ line < b.1 + b.2 then some (e.1, i) else none

/-! ## Taking a core out of service (R328) -/

/-- Takes a core out of service: WIDTH 0 on all four of its arrays, and its groups recosted (R328). The same where one array's third column
fails (DESIGN CHOICE, log 82: R96 names the WIDTH of that array only). -/
def State.retireCore (s : State) (c : Nat) : State :=
  if (s.core c).inService then
    ((s.updCore c fun k => (List.range 4).foldl (fun q a => q.updMxa a fun m => { m with retired := true })
      { k with inService := false }).raise (pgCore c) 5).recost c
  else s

/-- Counts an uncorrectable fault of a core within its window. -/
def State.countFault (s : State) (c : Nat) : State :=
  let s := s.updCore c fun k => { k with winFaults := k.winFaults + 1 }
  if s.sd.fltLim ≠ 0 ∧ s.sd.fltLim ≤ (s.core c).winFaults then s.retireCore c else s

/-! ## Uncorrectable faults (R315 to R321, R324) -/

/-- Parks a job that took a fault, without saving it (R324): its sequencers stop where they stand, which tells ABORT which state slots it
holds OPEN (R134). -/
def State.faultJob (s : State) (ring : Nat) : State :=
  let stopped (j : Job) : Sparse SavedSlot := j.slots.zipIdx.map fun (sl, k) => (k, ⟨(s.core sl.core).csq, [], []⟩)
  let s := s.onJobCores ring fun k => { k with csq := k.csq.rest, preempt := false }
  s.updJob ring fun j => { j with stage := .faulted, held := [], parking := none, saved := stopped j }

/-- A fault of frame `n`: restart after the first, fallback after the second, which counts in FALLBACKS and not as a miss (R261);
faults at one edge count once. A fault in a committed bank is met by no restart: the first one falls back without counting in FALLBACKS
(R320, R321). The outcome code of FLT_REC comes with it. -/
def State.faultFrame (s : State) (gid n : Nat) (bank : Bool) : State × Nat :=
  match s.frame? gid n with
  | none => (s, 0)
  | some f =>
    if f.phase = .finished then (s, 0)
    else if bank && f.restarts == 0 then (s.failFrame gid n 0, 2)
    else if bank then ((s.countFallback gid).dropFrame gid n 0, 2)
    else if f.faultAt = some s.fclk then (s, 1)
    else
      let s := s.updFrame gid n fun x => { x with faultAt := some s.fclk }
      if f.restarts = 0 then (s.restartFrame gid n, 1) else ((s.countFallback gid).dropFrame gid n 0, 2)

/-- An uncorrectable fault on a core (R315), charged to a frame or job. -/
def State.faultFor (s : State) (run : Run) (c : Nat) (src : FaultSrc) (loc col : Nat) : State :=
  let s := { s with tele := { s.tele with ueTotal := satWord s.tele.ueTotal 1 } }
  let s := (s.updCore c fun k => { k with ueCnt := satWord k.ueCnt 1
                                          bad := if src = .spd then (k.spoil loc).bad else k.bad }).raise (pgCore c) 0
  let owner := if src = .spd then s.bankOwner c loc else none
  let s := match owner with
    | some (_, i) => s.updCore c fun k => { k with lost := if k.lost.contains i then k.lost else k.lost ++ [i] }
    | none => s
  let s := s.traceRec 7 c run.id run.frameNo (srcCode src)
  let r : State × Nat := match run with
    | .frame gid n _ => s.faultFrame gid n (owner.any fun o => o.1 == gid)
    | .job ring _ => ((s.faultJob ring).raise (pgCore c) 3, 3)
    | .idle => (s, if owner.isSome then 2 else 0)
  let s := r.1.updCore c fun k => k.fltFill src false r.2 run.be (if run = .idle then 0 else run.id) loc col
  s.countFault c

/-- An uncorrectable fault charged to the frame or job that the core runs. -/
def State.fault (s : State) (c : Nat) (src : FaultSrc) (loc col : Nat) : State :=
  s.faultFor (s.core c).csq.run c src loc col

/-! ## Failed instructions (R193) -/

/-- Fills PROG_ERR. -/
def Core.progFail (k : Core) (status slot id off : Nat) (be : Bool) : Core :=
  if k.progErr.getLsbD 31 then k
  else { k with progErr := word (status % 256 + 256 * (slot % 4) + 1024 * b2n be + 4096 * (id % 4096) + 2 ^ 31)
                progErrOff := word off }

/-- An issued instruction of the core fails with a status at a byte offset: the job completes with it, or the frame is
discarded with its fallback and the group is parked. -/
def State.failRun (s : State) (c status off : Nat) (cause : ParkCause) : State :=
  let run := (s.core c).csq.run
  match run with
  | .idle => s
  | .job ring slot =>
    let s := (s.updCore c fun k => k.progFail status slot ring off true).raise (pgCore c) 8
    s.endJob ring { status := status, slot := slot, offset := off }
  | .frame gid n slot =>
    let s := (s.updCore c fun k => k.progFail status slot gid off false).raise (pgCore c) 8
    ((s.updFrame gid n fun f => { f with failAt := (slot, off) }).failFrame gid n status).parkGroup gid cause

end Sys2Proof.Machine
end

