-- ==== Sys2Proof/Machine/Csq.lean ====
section
/-! DEFINITION. The core sequencer (06_task_programs): issue of the instruction that a core's program counter names, with its
waits, faults and failures, and the meanings of the twenty rows of task instructions. -/

namespace Sys2Proof.Machine

/-! ## What a core issues next (R160, R190) -/

/-- Is a job asked to stop: by ABORT, to park, or by a preemption request to one of its cores (R257, R307)? -/
def State.jobStops (s : State) (j : Job) : Bool :=
  j.abortAt.isSome || j.parking.isSome || j.cores.any fun c => (s.core c).preempt

/-- Is a core at the last END of a job, in the FCLK of the job's ABORT? Completion wins there (R307). -/
def State.lastEnd (s : State) (j : Job) (c : Nat) : Bool :=
  let q := (s.core c).csq
  j.abortAt == some s.fclk && j.ended.length + 1 == j.slots.length && IWord.opc ((s.core c).progWord q.prog q.pc) == some .endOp

/-- The job of a ring runs and nothing asks its slots to stop. -/
def State.jobIssues (s : State) (ring : Nat) : Bool :=
  match s.job? ring with
  | some j => j.stage == .running && !s.jobStops j
  | none => false

/-- Can the core's sequencer issue an instruction? -/
def State.canIssue (s : State) (c : Nat) : Bool :=
  let k := s.core c
  s.running && s.coreOn c && !k.csq.ended && k.csq.rread.isNone
    && match k.csq.run with
      | .idle => false
      | .frame gid n _ => (s.frame? gid n).any fun f => f.phase == .running
      | .job ring _ => s.jobIssues ring || (s.job? ring).any fun j => j.stage == .running && s.lastEnd j c

/-- What validation at issue looks at (R161, R191). -/
def State.vctx (s : State) (c : Nat) : VCtx :=
  let k := s.core c
  { k := k, core := c, conf := s.conf, ctx := k.csq.ctx.toNat, prog := k.csq.prog, ninst := k.progNinst k.csq.prog
    word := k.progWord k.csq.prog, i := k.csq.pc, hqs := s.hqs, arr := k.arrViews, issue := true, me := k.csq.run
    chain := k.csq.chain }

/-- Is the program counter at an instruction of the program (R190)? -/
def VCtx.inside (v : VCtx) : Bool := decide (1 ≤ v.i) && decide (v.i ≤ v.ninst)

/-! ## Buffers that an instruction reads -/

/-- Handle references of the buffers that an instruction reads, descriptors and state slots aside. -/
def inputRefs (k : Core) (w : IWord) (o : Op) : List Nat :=
  let h (b : Nat) : Nat := IWord.by w b 2
  let x := k.readXb (IWord.xbRef w)
  let own := match o with
    | .loadw => [h 4]
    | .matmul => [h 4, h 6]
    | .matvec => [h 4, h 6]
    | .recur => [h 6, h 8, h 14]
    | .scan => [h 4, h 6, h 12]
    | .lconv => [h 4, h 6, h 12]
    | .gate => [h 6, h 8, h 10, h 12]
    | .func => [h 4, h 6]
    | .reduce => [h 4]
    | .convert => [h 4]
    | .move => if nbits w 224 1 = 1 then [] else [h 4]
    | _ => []
  (own ++ (if o.hasXb then [x.sH, x.bH, x.asc, x.wsc] else [])).filter fun r => !refNull r

/-- Descriptors that an instruction reads, with their lengths (R268). -/
def descRefs (k : Core) (w : IWord) (o : Op) : List (Nat × Nat) :=
  let h (b : Nat) : Nat := IWord.by w b 2
  let own := match o with
    | .gate => [(h 4, 40 + 8 * hdrN (k.readChain (h 4)).hdr)]
    | .recur => let p := k.readStep (h 4); [(h 4, 64 + 8 * (hdrN p.hdrA + hdrN p.hdrB)), (h 12, 2 * IWord.recN w)]
    | .scan => [(h 10, 2 * IWord.recN w)]
    | .lconv => [(h 10, 2 * IWord.recN w)]
    | _ => []
  (own ++ (if o.hasXb then [(IWord.xbRef w, 64)] else [])).filter fun r => !refNull r.1

/-- The state slots that an instruction names. -/
def slotListOf (k : Core) (w : IWord) (o : Op) : List Nat :=
  match o with
  | .recur => k.slotRefs (IWord.by w 12 2) (IWord.recN w)
  | .scan => k.slotRefs (IWord.by w 10 2) (IWord.recN w)
  | .lconv => k.slotRefs (IWord.by w 10 2) (IWord.recN w)
  | _ => []

/-- Does a line lie in the first `n` bytes of a buffer? A diagonal view spreads them over the whole extent. -/
def lineIn (e : DWord) (n line : Nat) : Bool :=
  if hLayout e = 1 ∨ hLayout e = 2 then decide (hBase e ≤ line) && decide (line ≤ hBase e + hLen e) && decide (0 < n)
  else decide (hBase e ≤ line) && decide (line < hBase e + ceilDiv n 64)

/-- A line with an uncorrectable error that the instruction would read (R315, R321). -/
def badRead (v : VCtx) (o : Op) : Option Nat :=
  if v.k.bad.isEmpty then none
  else
    let ins := inputRefs v.k v.w o
    let ext := (extents v o).filter fun e => ins.contains e.1
    let slots := (slotListOf v.k v.w o).flatMap fun r =>
      let e := v.k.entry r
      let h := v.k.slotHdr e
      let b := hBase e + bankOff h (v.k.readBank r h) / 64
      [(hBase e, 1), (b, bankBytes h.efmt h.nelem / 64)]
    v.k.badLines.find? fun l =>
      (ext ++ descRefs v.k v.w o).any (fun e => lineIn (v.k.entry e.1) e.2 l)
        || slots.any fun b => decide (b.1 ≤ l) && decide (l < b.1 + b.2)

/-- A line with an uncorrectable error under the instruction word itself. -/
def badFetch (v : VCtx) : Option Nat :=
  v.k.badLines.find? fun l => l == hBase (v.k.entry v.prog) + 32 * v.i / 64

/-- Handle references of the buffers that an instruction writes. -/
def outputRefs (v : VCtx) (o : Op) : List Nat :=
  (inputRefs v.k v.w o).foldl List.erase (((extents v o).map (·.1)).filter fun r => !refNull r)

/-- Does the instruction write OUT_REF of a tile binding while a tile of the group's previous frame is not yet acknowledged
(R393)? -/
def State.tilesPending (s : State) (v : VCtx) (o : Op) (gid n slot : Nat) (g : Group) (f : Frame) : Bool :=
  (f.tiles.any fun b => s.tileSlot b == slot && ((outputRefs v o).map refIdx).contains (refIdx (s.tileOut b)))
    && g.tileFrames.any fun t => decide (t.n < n) && !s.tilesAcked gid t

/-- Does the instruction wait for input positions, for the marks that they may carry (R243, R385), or for tiles of the previous
frame (R393)? -/
def State.inputMissing (s : State) (v : VCtx) (o : Op) : Bool :=
  match v.me with
  | .frame gid n slot =>
    match s.group? gid, s.frame? gid n with
    | some g, some f =>
      let ins := (inputRefs v.k v.w o).map refIdx
      let marks := refIdx (g.marks.getD slot 0)
      let late (b : Bind) : Bool := !(s.missing g b n).isEmpty
      f.ins.any (fun b => b.kslot == slot && ins.contains (refIdx b.href) && late b)
        || (marks != 0 && ins.contains marks && f.ins.any late)
        || s.tilesPending v o gid n slot g f
    | _, _ => false
  | _ => false

/-! ## Issue (R180, R186, R191, R193) -/

/-- What happens to an instruction at its issue, before its effect. -/
inductive Pre where
  | go
  | wait
  | fail (status : Nat)
  | fault (line : Nat)
  deriving DecidableEq, Repr

/-- The checks at issue of an instruction of the program. -/
def State.preIssue (s : State) (v : VCtx) (o : Op) : Pre :=
  match badFetch v with
  | some l => .fault l
  | none =>
    let st := validate v
    if st ≠ stOk then .fail st
    else if s.inputMissing v o then .wait
    else
      match badRead v o with
      | some l => .fault l
      | none => .go

/-- The sequencer begins to wait. -/
def State.noteWait (s : State) (c : Nat) : State :=
  s.updCore c fun k => { k with csq := { k.csq with waiting := some (k.csq.waiting.getD s.fclk) } }

/-- A wait ends, and counts as input wait as far as R259 counts it. -/
def State.endWait (s : State) (c : Nat) : State :=
  let n := s.openWait c
  s.updCore c fun k => { k with csq := { k.csq with waiting := none, inWait := k.csq.inWait + n } }

/-- A data instruction that waited goes on: its vector was late at the feed, or its result at the drain, so the arrays stood frozen for
the wait (R93, R94, R98, R180). -/
def State.endFeed (s : State) (c : Nat) : State :=
  let d := match (s.core c).csq.waiting with | some t => 2 * (s.fclk - t) | none => 0
  (s.endWait c).updCore c fun k => { k with freeze := k.freeze + word d }

/-- Has what must complete before an instruction issues completed (R180, R185, R190)? A control or synchronisation instruction waits
for the instruction before it, SIGNAL and END for every remote write of the slot. -/
def State.earlierDone (s : State) (c : Nat) (o : Op) : Bool :=
  let q := (s.core c).csq
  let lastDone := !(s.rwrites.any fun w => w.src == c && w.epoch == q.epoch && w.pc == q.last)
    && !(s.racks.any fun a => a.core == c && a.epoch == q.epoch && a.pc == q.last)
  match o with
  | .endOp => q.remote == 0
  | .signal => q.remote == 0
  | .nop => lastDone
  | .wait => lastDone
  | .branch => lastDone
  | .summary => lastDone
  | .qpush => lastDone
  | .qpop => lastDone
  | _ => true

/-- Issues the instruction at the program counter of a core when it is the row's: nothing changes while the core cannot issue
it or must wait; a failure or a fault has its consequence; otherwise `act` is its effect. -/
def State.issue (s : State) (c : Nat) (o : Op) (act : State → IWord → State) : State :=
  let v := s.vctx c
  if s.canIssue c && v.inside && IWord.opc v.w == some o && s.earlierDone c o then
    match s.preIssue v o with
    | .go =>
      let s := s.updCore c fun k => { k with csq := { k.csq with last := v.i } }
      act (if o = .wait ∨ o = .qpush ∨ o = .qpop then s else s.endFeed c) v.w
    | .wait => s.noteWait c
    | .fail st => s.failRun c st (32 * v.i) .program
    | .fault l => s.fault c .spd l 0
  else s

/-- Moves the program counter on. -/
def State.nextInstr (s : State) (c : Nat) : State :=
  s.updCore c fun k => { k with csq := { k.csq with pc := k.csq.pc + 1 } }

/-- The NaNs of an instruction reach the trap: record, count, event, and the halt of a best-effort job (R127 to R129). A CHAINED
instruction leaves its recorded NaN with its vectors, for the successor shares its schedule (R175). -/
def State.trapNans (s : State) (c : Nat) (prior : Option NanEv) (nans : List NanEv) : State :=
  let k := s.core c
  let evs := k.nan.recordable nans
  if evs.isEmpty then s
  else
    let run := k.csq.run
    let fills := !k.nan.stat.getLsbD 0
    let t := k.nan.fill (32 * k.csq.pc) k.csq.ctx.toNat run.id run.be run.frameNo prior evs
    let halt := fills && run.be && k.nan.ctrl.getLsbD 2
    let t := if halt then { t with stat := t.stat ||| 2#32, halt := some run.id } else t
    let chain := k.csq.chain.map fun x => { x with nan := if fills then firstNan evs else none }
    let s := (s.setCore c { k with nan := t, csq := { k.csq with chain := chain } }).raiseIf fills (pgCore c) 6
    match run with
    | .job ring _ => if halt then s.updJob ring fun j => { j with parking := some (j.parking.getD .parkedNan) } else s
    | _ => s

/-- The SPD bytes that an instruction wrote: lane words written are whole again, and egress positions take their words (R198,
R321, R387). -/
def State.landWrites (s : State) (c : Nat) : State :=
  let k := s.core c
  let bytes := k.wlog
  let s := s.setCore c k.refresh
  match k.csq.run with
  | .frame gid n _ => s.tapEgress c gid n bytes
  | _ => s

/-- Completes a data instruction with its effect on the core; only a CHAINED GATE or FUNC leaves vectors behind (R175). -/
def State.finishData (s : State) (c : Nat) (w : IWord) (e : Eff) : State :=
  let chained := (IWord.opc w == some .gate || IWord.opc w == some .func) && IWord.w0 w 13 13 == 1
  let k := if chained then e.k else { e.k with csq := { e.k.csq with chain := none } }
  (((s.setCore c k).trapNans c e.prior e.nans).landWrites c).nextInstr c

/-- The meaning of a data row over its effect. -/
def State.dataRow (s : State) (c : Nat) (o : Op) (eff : Core → IWord → Eff) : State :=
  s.issue c o fun t w => t.finishData c w (eff (t.core c) w)

/-- A control instruction hands no vectors on. -/
def State.unchain (s : State) (c : Nat) : State :=
  s.updCore c fun k => { k with csq := { k.csq with chain := none } }

/-! ## Sync counters and queues (R183 to R186) -/

/-- A sync counter of what the core runs. -/
def State.counter (s : State) (c i : Nat) : Nat :=
  match (s.core c).csq.run with
  | .idle => 0
  | .frame gid n _ => match s.frame? gid n with | some f => Sparse.get 0 f.cnts i | none => 0
  | .job ring _ => match s.job? ring with | some j => Sparse.get 0 j.cnts i | none => 0

/-- Adds to a sync counter, saturating at 0xFFFF. -/
def State.addCounter (s : State) (c i n : Nat) : State :=
  let add (m : Sparse Nat) : Sparse Nat := Sparse.set 0 m i (satAdd 0xFFFF (Sparse.get 0 m i) n)
  match (s.core c).csq.run with
  | .idle => s
  | .frame gid fr _ => s.updFrame gid fr fun f => { f with cnts := add f.cnts }
  | .job ring _ => s.updJob ring fun j => { j with cnts := add j.cnts }

/-- Has a queue a free entry? A token popped provisionally keeps its entry until its frame commits (R183, R184). -/
def State.hqRoom (s : State) (q : Nat) : Bool :=
  decide ((s.hq q).tokens.length + (s.hq q).rsv + s.popsHeld q < 16)

/-- Is the condition that a waiting instruction awaits true? -/
def State.arrived (s : State) (c : Nat) (w : IWord) : Bool :=
  match IWord.opc w with
  | some .wait => decide (IWord.by w 6 2 ≤ s.counter c (nbits w 32 4))
  | some .qpush => s.hqRoom (nbits w 64 6)
  | some .qpop => !(s.hq (nbits w 64 6)).tokens.isEmpty
  | _ => false

/-- TIMEOUT of a waiting instruction, in FCLK. -/
def timeoutOf (w : IWord) : Nat :=
  32 * match IWord.opc w with
    | some .wait => IWord.by w 8 2
    | some .qpush => IWord.by w 10 2
    | some .qpop => IWord.by w 28 2
    | _ => 0

/-- The token that a QPUSH makes, its sequence number aside (R183). -/
def tokenOf (k : Core) (c : Nat) (w : IWord) : DWord :=
  let r := IWord.by w 4 2
  dword (refIdx r + 256 * (hGen (k.entry r) % 256) + 65536 * (c % 32) + 2 ^ 24 * IWord.by w 6 2)

/-- A waiting row: it completes with `act` once its condition holds, and waits until then. -/
def State.waitRow (s : State) (c : Nat) (o : Op) (act : State → IWord → State) : State :=
  s.issue c o fun t w =>
    if t.arrived c w then ((act (t.endWait c) w).unchain c).nextInstr c else t.noteWait c

/-! ## MOVE (R182, R205, R209) -/

/-- Rows of a MOVE: source and destination offsets. -/
def moveRows (w : IWord) : List (Nat × Nat) :=
  tab (IWord.by w 8 2) fun r => (IWord.by w 12 4 + r * IWord.by w 20 4, IWord.by w 16 4 + r * IWord.by w 24 4)

/-- Writes the rows of a MOVE: into the destination buffer of the core, or as one remote write into a Collar. `mark` is the
source's SMARK. -/
def State.moveOut (s : State) (c : Nat) (w : IWord) (rows : List (Nat × List Byte)) (mark : Bool) : State :=
  if nbits w 227 1 = 1 then
    let k := s.core c
    let rw : RemoteWrite :=
      { src := c, dest := nbits w 228 5, collar := nbits w 233 4, ctx := k.csq.ctx, pc := k.csq.pc, rows := rows, smark := mark
        epoch := k.csq.epoch, run := k.csq.run }
    ({ s with rwrites := s.rwrites ++ [rw] }).updCore c fun k => { k with csq := { k.csq with remote := k.csq.remote + 1 } }
  else
    s.updCore c fun k =>
      let r := IWord.by w 6 2
      let k := rows.foldl (fun q x => q.wr (q.entry r) x.1 x.2) k
      if mark then k.setSmark (refIdx r) true else k

/-- The checks on the token of a MOVE: status, or OK (R182). -/
def State.tokenStatus (s : State) (v : VCtx) : Nat :=
  let t := v.token
  let q := s.core (wbits t 20 16)
  let e := Sparse.get 0 q.handles (wbits t 7 0)
  let last := IWord.by v.w 8 2 - 1
  if wbits t 7 0 = 0 ∨ hValid e = false ∨ hCtx e ≠ v.ctx then stHandle
  else if hGen e ≠ wbits t 15 8 then stStale
  else if wbits t 20 16 = v.core ∧ nbits v.w 227 1 = 0 ∧ wbits t 7 0 = refIdx (IWord.by v.w 6 2) ∧ moveOverlap v.w = true then stMode
  else if hExt e < IWord.by v.w 12 4 + last * IWord.by v.w 20 4 + IWord.by v.w 10 2 then stBounds
  else stOk

/-- MOVE. -/
def State.moveRow (s : State) (c : Nat) : State :=
  s.issue c .move fun t w =>
    let v := t.vctx c
    let k := t.core c
    if nbits w 224 1 = 1 then
      let st := t.tokenStatus v
      if st ≠ stOk then t.failRun c st (32 * v.i) .program
      else
        let tok := v.token
        (t.updCore c fun k => { k with csq := { k.csq with
          rread := some ⟨wbits tok 20 16, wbits tok 15 0, k.csq.pc, w⟩ } }).unchain c
    else
      let e := k.entry (IWord.by w 4 2)
      let rows := (moveRows w).map fun (a, b) => (b, k.rd e a (IWord.by w 10 2))
      (((t.moveOut c w rows (hSmark e)).unchain c).landWrites c).nextInstr c

/-! ## Control (R185 to R190) -/

/-- Marks a slot as ended; a job whose slots have all ended completes with OK. -/
def State.endRun (s : State) (c : Nat) : State :=
  let run := (s.core c).csq.run
  let s := s.updCore c fun k => { k with csq := { k.csq with ended := true, chain := none } }
  match run with
  | .job ring slot =>
    let s := s.updJob ring fun j => { j with ended := j.ended ++ [slot] }
    match s.job? ring with
    | some j => if j.ended.length = j.slots.length then s.endJob ring { status := 0 } else s
    | none => s
  | _ => s

/-- The record that SUMMARY and BRANCH name. -/
def Core.sr (k : Core) (i : Nat) : Summ := Sparse.get {} k.csq.srs i

/-- Does the comparison of a BRANCH hold (R188)? -/
def branchHolds (k : Core) (w : IWord) : Bool :=
  let r := k.sr (IWord.w0 w 12 11)
  let imm := IWord.by w 4 4
  let pred := (Pred.ofCode (IWord.w0 w 18 16)).getD .eq
  let ints (a : Nat) : Bool := match pred with
    | .eq => a == imm | .ne => a != imm | .lt => decide (a < imm) | .le => decide (a ≤ imm) | .gt => decide (imm < a)
    | .ge => decide (imm ≤ a)
  match IWord.w0 w 15 13 with
  | 0 => f32Compare pred r.sum (word imm)
  | 1 => f32Compare pred r.max (word imm)
  | 2 => ints r.count
  | 3 => ints (b2n r.anyNan)
  | _ => true

/-- BRANCH moves the program counter and its counter (R188, R189). -/
def Core.branch (k : Core) (w : IWord) : Core :=
  let i := k.csq.pc
  let off := sgn16 (IWord.by w 8 2)
  let n := Sparse.get 0 k.csq.branches i
  let hold := branchHolds k w
  if off < 0 then
    if hold && decide (n < IWord.by w 10 2) then
      { k with csq := { k.csq with pc := ((i : Int) + off).toNat, branches := Sparse.set 0 k.csq.branches i (n + 1) } }
    else { k with csq := { k.csq with pc := i + 1, branches := Sparse.set 0 k.csq.branches i 0 } }
  else if hold then { k with csq := { k.csq with pc := ((i : Int) + off).toNat } }
  else { k with csq := { k.csq with pc := i + 1 } }

/-- The 16 bytes of a summary record (R187). -/
def Summ.bytes (r : Summ) : List Byte :=
  toBytes 4 (outF32 r.sum).toNat ++ toBytes 4 (outF32 r.max).toNat ++ toBytes 4 r.count ++ toBytes 4 (b2n r.anyNan)

/-- SUMMARY: copies a record, and stores it (R187, R205). -/
def Core.summary (k : Core) (w : IWord) : Core :=
  let r := k.sr (IWord.w0 w 12 11)
  let dst := IWord.w0 w 14 13
  let ref := IWord.by w 4 2
  let k := if dst = 0 then k else { k with csq := { k.csq with srs := k.csq.srs.put dst r } }
  if IWord.w0 w 15 15 = 1 then (k.wr (k.entry ref) (16 * IWord.by w 6 2) r.bytes).setSmark (refIdx ref) false else k

/-! ## Meanings -/

/-- NOP (R190). A fetch outside the program, or of a reserved opcode, also comes to its end here: it fails with BOUNDS or
BAD_OPCODE. -/
def execNop (core : Nat) (s : State) : Host.Outcome State Fault Refusal :=
  let v := s.vctx core
  done (if s.canIssue core && !v.inside then s.failRun core stBounds (32 * v.i) .program
    else if s.canIssue core && (IWord.opc v.w).isNone then s.failRun core stOpcode (32 * v.i) .program
    else s.issue core .nop fun t _ => (t.unchain core).nextInstr core)

/-- END (R190): it completes once every earlier instruction of the slot has. -/
def execEndSlot (core : Nat) (s : State) : Host.Outcome State Fault Refusal :=
  done (s.issue core .endOp fun t _ => t.endRun core)

/-- LOADW (R168). -/
def execLoadw (core : Nat) (s : State) : Host.Outcome State Fault Refusal := done (s.dataRow core .loadw loadwEff)

/-- MATMUL (R169). -/
def execMatmul (core : Nat) (s : State) : Host.Outcome State Fault Refusal :=
  done (s.dataRow core .matmul fun k w => productEff k w s.conf.hist)

/-- MATVEC (R170). -/
def execMatvec (core : Nat) (s : State) : Host.Outcome State Fault Refusal :=
  done (s.dataRow core .matvec fun k w => matvecEff k w s.conf.hist)

/-- RECUR (R138). -/
def execRecur (core : Nat) (s : State) : Host.Outcome State Fault Refusal :=
  done (s.dataRow core .recur fun k w => recurEff k w s.conf.hist)

/-- SCAN (R149). -/
def execScan (core : Nat) (s : State) : Host.Outcome State Fault Refusal :=
  done (s.dataRow core .scan fun k w => scanEff k w s.conf.hist)

/-- LCONV (R152). -/
def execLconv (core : Nat) (s : State) : Host.Outcome State Fault Refusal :=
  done (s.dataRow core .lconv fun k w => lconvEff k w s.conf.hist)

/-- GATE (R174). -/
def execGate (core : Nat) (s : State) : Host.Outcome State Fault Refusal :=
  done (s.dataRow core .gate fun k w => gateEff k w s.conf.hist)

/-- FUNC (R175). -/
def execFunc (core : Nat) (s : State) : Host.Outcome State Fault Refusal :=
  done (s.dataRow core .func fun k w => funcEff k w s.conf.hist)

/-- REDUCE (R176). -/
def execReduceSeq (core : Nat) (s : State) : Host.Outcome State Fault Refusal := done (s.dataRow core .reduce reduceEff)

/-- CONVERT (R177). -/
def execConvert (core : Nat) (s : State) : Host.Outcome State Fault Refusal :=
  done (s.dataRow core .convert fun k w => convertEff k w s.conf.hist)

/-- MOVE (R182). -/
def execMove (core : Nat) (s : State) : Host.Outcome State Fault Refusal := done (s.moveRow core)

/-- QPUSH (R184): a deadline frame's token becomes visible at its commit, a job's at once. -/
def execQpush (core : Nat) (s : State) : Host.Outcome State Fault Refusal :=
  done (s.waitRow core .qpush fun t w =>
    let q := nbits w 64 6
    let tok := tokenOf (t.core core) core w
    match (t.core core).csq.run with
    | .frame gid n _ =>
      (t.updHq q fun h => { h with rsv := h.rsv + 1 }).updFrame gid n fun f => { f with pushed := f.pushed ++ [(q, tok)] }
    | _ => t.updHq q fun h => { h with tokens := h.tokens ++ [tok ||| dword (h.seq * 2 ^ 40)], seq := (h.seq + 1) % 2 ^ 24 })

/-- QPOP (R184): the head of the queue goes to a token register, provisionally in a deadline frame. -/
def execQpop (core : Nat) (s : State) : Host.Outcome State Fault Refusal :=
  done (s.waitRow core .qpop fun t w =>
    let q := nbits w 64 6
    match (t.hq q).tokens with
    | [] => t
    | tok :: rest =>
      let t := t.updHq q fun h => { h with tokens := rest }
      let t := t.updCore core fun k => { k with csq := { k.csq with tokens := k.csq.tokens.put (nbits w 80 2) tok } }
      match (t.core core).csq.run with
      | .frame gid n _ => t.updFrame gid n fun f => { f with popped := f.popped ++ [(q, tok)] }
      | _ => t)

/-- WAIT (R185). -/
def execWaitCnt (core : Nat) (s : State) : Host.Outcome State Fault Refusal :=
  done (s.waitRow core .wait fun t _ => t)

/-- SIGNAL (R185): it takes effect only after every earlier remote write is acknowledged. -/
def execSignalCnt (core : Nat) (s : State) : Host.Outcome State Fault Refusal :=
  done (s.issue core .signal fun t w => ((t.addCounter core (nbits w 32 4) (IWord.by w 5 1)).unchain core).nextInstr core)

/-- SYNC_TIMEOUT (R186): the TIMEOUT of the waiting instruction has expired and its condition has not arrived. -/
def execSyncTimeout (core : Nat) (s : State) : Host.Outcome State Fault Refusal :=
  let v := s.vctx core
  done (match (s.core core).csq.waiting with
    | some t =>
      if s.canIssue core && v.inside && decide (0 < timeoutOf v.w) && decide (t + timeoutOf v.w ≤ s.fclk) && !s.arrived core v.w then
        s.failRun core stTimeout (32 * v.i) .program
      else s
    | none => s)

/-- BRANCH (R188). -/
def execBranch (core : Nat) (s : State) : Host.Outcome State Fault Refusal :=
  done (s.issue core .branch fun t w => (t.updCore core fun k => k.branch w).unchain core)

/-- SUMMARY (R187). -/
def execSummary (core : Nat) (s : State) : Host.Outcome State Fault Refusal :=
  done (s.issue core .summary fun t w => (((t.updCore core fun k => k.summary w).unchain core).landWrites core).nextInstr core)

end Sys2Proof.Machine
end

