-- ==== Sys2Proof/Machine/MemPort.lean ====
section
/-! DEFINITION. The memory port (13_ports_and_signals): its errors, and the requests on its eight channels. -/

namespace Sys2Proof.Machine

/-- Class code (R377). -/
def clsCode : QCls → Nat
  | .deadline => 0 | .best => 1 | .control => 2 | .background => 3

/-- Order in which waiting requests issue by class (R377). -/
def clsOrder : List QCls := [.control, .deadline, .background, .best]

/-- CAUSE of a reply code that is not MR_OK (R380). -/
def causeOf : MemCode → Nat
  | .ok => 0 | .tgterr => 1 | .notgt => 2 | .timeout => 3

/-- MEM_ERR and ERR_INFO of a request that completed as an error (R379, R380). -/
def State.memErr (s : State) (code : MemCode) (write : Bool) (addr : Nat) (cls : QCls) : State :=
  let s := s.raise pgMport 0
  if s.mport.errInfo.getLsbD 0 then s
  else { s with mport := { s.mport with
    errInfo := word (1 + 2 * causeOf code + 8 * b2n write + 16 * (addr / 64 % 8) + 128 * clsCode cls)
    errAddr := addr / 64 * 64 % 2 ^ 48 } }

/-- As `memErr`, when the code is an error. -/
def State.memCheck (s : State) (code : MemCode) (write : Bool) (addr : Nat) (cls : QCls) : State :=
  if code = .ok then s else s.memErr code write addr cls

/-- A channel of the port. -/
def State.mchan (s : State) (ch : Nat) : MChan := Sparse.get {} s.mport.chans ch

/-- Stores a channel; an idle one is not listed. -/
def State.setMchan (s : State) (ch : Nat) (c : MChan) : State :=
  { s with mport := { s.mport with chans := s.mport.chans.set {} ch c } }

/-- May a request use tag 511: a descriptor fetch of a CONTROL or SERVICE ring (R377)? -/
def State.reserveTag (s : State) (q : MReq) : Bool :=
  match q.unit with
  | .fetch ring _ => (s.ring ring).cls != 0
  | _ => false

/-- A tag that a request may use on a channel. -/
def State.freeTag (s : State) (c : MChan) (q : MReq) : Option Nat :=
  let used := c.out.map (·.tag)
  if s.reserveTag q && !used.contains 511 then some 511 else (List.range 511).find? fun t => !used.contains t

/-- Can a waiting request issue now: no write of its own line outstanding (R378), and the oldest of its unit on the channel
(R212)? -/
def mayIssue (c : MChan) (before : List MReq) (q : MReq) : Bool :=
  !(c.out.any fun x => x.write && x.line == q.line && !x.timedOut) && !(before.any fun x => x.unit == q.unit)

/-- The next request that a channel issues: by class, oldest first. -/
def State.nextReq (s : State) (c : MChan) : Option (MReq × Nat) :=
  let cand := c.wait.zipIdx.filter fun (q, i) => mayIssue c (c.wait.take i) q
  clsOrder.findSome? fun cl => cand.findSome? fun (q, _) =>
    if q.cls = cl then (s.freeTag c q).map fun t => (q, t) else none

/-- Issues the waiting requests that tags allow. -/
def State.pumpChan (s : State) (ch : Nat) : Nat → State
  | 0 => s
  | fuel + 1 =>
    let c := s.mchan ch
    match s.nextReq c with
    | none => s
    | some (q, t) =>
      (s.setMchan ch { out := c.out ++ [{ q with tag := t, sent := s.fclk }], wait := c.wait.erase q }).pumpChan ch fuel

/-- Presents a request to the channel that its line selects (R376). -/
def State.request (s : State) (q : MReq) : State :=
  let ch := q.line % 8
  let c := s.mchan ch
  let s := s.setMchan ch { c with wait := c.wait ++ [q] }
  s.pumpChan ch (c.wait.length + 1)

/-- A reply to tag `tag` frees it: the request, if it was outstanding, and the state. -/
def State.takeReply (s : State) (ch tag : Nat) (write : Bool) : State × Option MReq :=
  let c := s.mchan ch
  match c.out.find? fun q => q.tag == tag && q.write == write with
  | none => (s, none)
  | some q => ((s.setMchan ch { c with out := c.out.erase q }).pumpChan ch c.wait.length, some q)

/-- The latency of `n` reads that return now (R380): LAT_MAX, and MEM_LATE beyond LAT_BOUND. -/
def State.noteLat (s : State) (l n : Nat) : State :=
  let s := { s with mport := { s.mport with latMax := max s.mport.latMax (min 65535 l) } }
  if s.mport.latBound < l then
    ({ s with mport := { s.mport with lateCnt := satWord s.mport.lateCnt n } }).raise pgMport 1
  else s

/-- Latency of a read that returns now. -/
def State.noteLatency (s : State) (q : MReq) : State := s.noteLat (s.fclk - q.issued) 1

end Sys2Proof.Machine
end

