-- ==== Sys2Proof/Machine/Retriever.lean ====
section
/-! DEFINITION. Retrievers (07_scratchpad_and_movement): arming, runs, the fifteen instructions, line requests through the
residency map, and landing. -/

namespace Sys2Proof.Machine

/-! ## Instruction fields (R214) -/

/-- OP. -/
def rOp (w : Nat) : Nat := nbits w 0 4
/-- FA. -/
def rFa (w : Nat) : Nat := nbits w 4 4
/-- FB. -/
def rFb (w : Nat) : Nat := nbits w 8 4
/-- FL. -/
def rFl (w : Nat) : Nat := nbits w 12 4
/-- N. -/
def rN (w : Nat) : Nat := nbits w 16 16
/-- IMM. -/
def rImm (w : Nat) : Nat := nbits w 32 32

/-- IMM as a signed value within 64 bits. -/
def rSigned (w : Nat) : DWord := (BitVec.ofNat 32 (rImm w)).signExtend 64

/-- The checks of R214 and R215 on instruction `i` of `n`: fields, register indices, targets, and what the trigger allows. -/
def rtvInstrOk (trig n i w : Nat) : Bool :=
  let a := rFa w
  let b := rFb w
  let l := rFl w
  let m := rN w
  let x := rImm w
  match rOp w with
  | 0 => w == 0
  | 1 => decide (a < 4 ∧ b < 4 ∧ l < 8 ∧ 1 ≤ m ∧ x < 2 ^ 20)
  | 2 => decide (a < 4 ∧ b < 4 ∧ l < 8 ∧ 1 ≤ m ∧ x < 2 ^ 16 ∧ trig ≠ 1)
  | 3 => decide (a < 4 ∧ b = 0 ∧ l < 2 ∧ 1 ≤ m ∧ x < 2 ^ 16)
  | 4 => decide (a < 4 ∧ b ≤ 8 ∧ l = 0 ∧ m = 0)
  | 5 => decide (a < 4 ∧ b = 0 ∧ l = 0 ∧ m = 0)
  | 6 => decide (a < 4 ∧ b ≤ 8 ∧ l = 0 ∧ m = 0)
  | 7 => decide (a < 4 ∧ b = 0 ∧ l = 0 ∧ m = 0)
  | 8 => decide (a < 4 ∧ b = 0 ∧ l = 0 ∧ 1 ≤ m ∧ x = 0)
  | 9 => decide (a < 4 ∧ b = 0 ∧ l = 0 ∧ m ≤ i ∧ x = 0)
  | 10 => decide (a = 0 ∧ b = 0 ∧ l = 0 ∧ m = 0 ∧ x = 0)
  | 11 => decide (b = 0 ∧ l = 0 ∧ x = 0 ∧ trig ≠ 2)
  | 12 => decide (b = 0 ∧ l = 0 ∧ 1 ≤ m ∧ m ≤ 255 ∧ x = 0 ∧ trig ≠ 2)
  | 13 => decide (a = 0 ∧ b = 0 ∧ l = 0 ∧ m = 0 ∧ x = 0)
  | 14 => decide (a = 0 ∧ b = 0 ∧ l = 0 ∧ i < m ∧ m < n ∧ x = 0)
  | _ => false

/-! ## What a Retriever serves -/

/-- The frame, job or nothing that a Retriever's run is charged to: a run started by a fire to its frame, one started at arming to
the ring's job, one started by a commit to no frame (R215). -/
def State.rtvRun (s : State) (c r : Nat) : Run :=
  let x := (s.core c).rtv r
  match x.trig with
  | 0 =>
    match s.job? x.id with
    | some j => .job x.id ((j.slots.findIdx? fun t => t.core == c).getD 0)
    | none => .idle
  | 1 =>
    match s.group? x.id with
    | some g => .frame x.id x.runFrame ((g.allCores.findIdx? (· == c)).getD 0)
    | none => .idle
  | _ => .idle

/-- The context that references are checked against: that of the served job's ring or group's program; before either exists, the
context tag of the ARM write (R217, R371). -/
def State.rtvCtx (s : State) (c r : Nat) : Nat :=
  let x := (s.core c).rtv r
  if x.be then
    if (s.ring x.id).st = .absent then x.ctx.toNat else (s.ring x.id).ctx.toNat
  else
    match s.group? x.id with
    | some g =>
      if g.stage = .reserved then x.ctx.toNat
      else match g.allCores.findIdx? (· == c) with
        | some k => s.slotCtx g k
        | none => x.ctx.toNat
    | none => x.ctx.toNat

/-- Class of its requests (R377). -/
def Rtv.cls (x : Rtv) : QCls := if x.be then .best else .deadline

/-- Does the run go on: the job it serves is not preempted or parked (R215)? -/
def State.rtvGoes (s : State) (c r : Nat) : Bool :=
  let x := (s.core c).rtv r
  s.running && (!x.be || (s.job? x.id).isNone || s.jobIssues x.id)

/-- Rewrites a Retriever. -/
def State.updRtv (s : State) (c r : Nat) (f : Rtv → Rtv) : State := s.updCore c fun k => k.updRtv r f

/-! ## Ending a run (R217) -/

/-- A run ends: the Retriever waits for its next trigger, or is idle after a run of arming or a disarm. -/
def Rtv.stop (x : Rtv) : Rtv :=
  { x with st := if x.trig = 0 ∨ x.disarm = true then .idle else .armed, cur := none, disarm := false
           pend := if x.disarm then false else x.pend }

/-- A Retriever's code fails the frame it serves at issue (R193, R217). -/
def State.rtvFailFrame (s : State) (c gid n slot code : Nat) (cause : ParkCause) : State :=
  let v := Config.rtvFail code
  let s := (s.updCore c fun k => k.progFail v.1.toNat slot gid v.2.toNat false).raise (pgCore c) 8
  (s.failFrame gid n v.1.toNat).parkGroup gid cause

/-- A run stops with an error code: codes 0x02 to 0x07 fail the frame, 0x09 is a breach, 0x0A a detected fault; a job completes
with RTV_FAIL (R193, R217, R295). -/
def State.rtvFail (s : State) (c r code loc : Nat) : State :=
  let run := s.rtvRun c r
  let s := (s.updRtv c r Rtv.stop).rtvCode c r code
  match run with
  | .job ring slot => s.endJob ring { status := 0x47, pstat := code, slot := slot }
  | .frame gid n slot =>
    if code = 0x0A then s.faultFor run c .memoryPort loc 0
    else if code = 0x09 then s.rtvFailFrame c gid n slot code .residency
    else s.rtvFailFrame c gid n slot code .program
  | .idle => s

/-! ## Issuing lines (R212, R214, R217 to R222) -/

/-- The highest address of each space (R214). -/
def spaceTop (space : Bool) : Nat := if space then 2 ^ 37 else 2 ^ 48

/-- The check of R217 on a reference and the range O to O + 64 N - 1, in one core. -/
def Core.rangeCode (k : Core) (ctx ref o n : Nat) : Nat :=
  let e := k.entry ref
  if refNull ref || k.refBad ctx ref || hLayout e == 3 then 0x02
  else if k.refStale ref then 0x03
  else if o % 64 ≠ 0 ∨ hExt e < o + 64 * n then 0x04
  else 0

/-- Is an external range aligned and within its space? -/
def addrOk (space : Bool) (a n : Nat) : Bool := a % 64 == 0 && decide (a + 64 * n ≤ spaceTop space)

/-- The cores that a line lands in (R218). -/
def landCores (c mcast : Nat) : List Nat :=
  if mcast = 0 then [c] else (List.range 4).filterMap fun q => if nbits mcast q 1 = 1 then some (4 * packOf c + q) else none

/-- Checks of RD, WR or one descriptor: the first code that fails, or 0. -/
def State.moveCode (s : State) (c r ref o n a na mcast : Nat) (space : Bool) : Nat :=
  let ctx := s.rtvCtx c r
  if mcast = 0 then
    let h := (s.core c).rangeCode ctx ref o n
    if h ≠ 0 then h else if addrOk space a na then 0 else 0x05
  else if (landCores c mcast).all fun q => s.coreOn q && (s.core q).rangeCode ctx ref o n == 0 then
    if addrOk space a na then 0 else 0x05
  else 0x07

/-- A residency fault at a line (R222): a job parks, a frame is a breach. -/
def State.resFault (s : State) (c r va : Nat) (write : Bool) : State :=
  let x := (s.core c).rtv r
  let p := packOf c
  if x.be then
    let s := s.updPack p fun q =>
      if q.rmcFlt.getLsbD 0 then q
      else { q with rmcFlt := word (1 + 2 * b2n write + 4 * c + 128 * r + 1024 + 2048 * x.id), rmcVa := va }
    let s := ((s.raise (pgPack p) 2).updRtv c r fun y => { y with st := .parked }).rtvCode c r 0x08
    s.updJob x.id fun j => { j with parking := some (j.parking.getD .parkedRes) }
  else
    let s := s.updPack p fun q =>
      if q.rmcFlt.getLsbD 0 then q
      else { q with rmcFlt := word (1 + 2 * b2n write + 4 * c + 128 * r + 2048 * x.id), rmcVa := va }
    (s.raise (pgPack p) 3).rtvFail c r 0x09 0

/-- Translates an external line address: the address, or none at a residency fault (R219, R220). -/
def State.translate (s : State) (c a : Nat) (space write : Bool) : State × Option Nat :=
  if !space then (s, some a)
  else
    let s := s.rmcTouch (packOf c) (a / 65536 / 8)
    let e := s.rmcEntry (packOf c) (a / 65536)
    if e.getLsbD 0 && (!write || e.getLsbD 1) then (s, some (wbits e 47 16 * 65536 + a % 65536)) else (s, none)

/-- A free line tag. -/
def Rtv.freeTag (x : Rtv) : Option Nat := (List.range 16).find? fun t => !x.flight.any fun l => l.tag == t

/-- Sends one line request for a Retriever. -/
def State.sendLine (s : State) (c r : Nat) (l : RtvLine) (data : List Byte) : State :=
  let x := (s.core c).rtv r
  let s := s.updRtv c r fun y => { y with flight := y.flight ++ [l] }
  s.request { unit := .retriever c r, line := l.addr / 64, write := l.write, cls := x.cls, data := data
              ben := List.replicate 64 true, issued := s.fclk, ltag := l.tag }

/-- The list line that LIST may fetch next: one burst ahead of the descriptor it is executing (R216). -/
def RtvMove.nextList (m : RtvMove) : Option Nat :=
  if m.op = 3 ∧ m.asked < ceilDiv m.total 4 ∧ m.asked < 2 * ((m.begun - 1) / 8 + 2) then some m.asked else none

/-- The next descriptor of LIST, once its line has arrived. -/
def RtvMove.nextDesc (m : RtvMove) : Option (List Byte) :=
  match m.got.find? (·.1 == m.begun / 4) with
  | some (_, bs) => some ((bs.drop (16 * (m.begun % 4))).take 16)
  | none => none

/-- One action of a started RD, WR or LIST; none when it must wait or is done. -/
def State.rtvAct (s : State) (c r : Nat) : Option State :=
  let x := (s.core c).rtv r
  match x.cur, x.freeTag with
  | some m, tag =>
    if x.st ≠ .running then none
    else
      match m.nextList, tag with
      | some i, some t =>
        let a := m.base + 64 * i
        match s.translate c a m.space false with
        | (s, none) => some (s.resFault c r a false)
        | (s, some p) =>
          let s := s.updRtv c r fun y => { y with cur := y.cur.map fun n => { n with asked := i + 1 } }
          some (s.sendLine c r ⟨t, m.ref, 0, 0, false, p, m.space, some i, none⟩ [])
      | _, _ =>
        if 0 < m.left then
          match tag with
          | none => none
          | some t =>
            let k := s.core c
            let write := m.op == 2
            let e := k.entry m.ref
            match (if write then k.badLines.find? fun l => (List.range 64).any fun i => hPhys e (m.off + i) / 64 == l else none) with
            | some l => some ((s.updRtv c r Rtv.stop).faultFor (if x.be then s.rtvRun c r else .idle) c .spd l 0)
            | none =>
              match s.translate c m.addr m.space write with
              | (s, none) => some (s.resFault c r m.addr write)
              | (s, some p) =>
                let data := if write then k.rd e m.off 64 else []
                let na := if m.ahold then m.addr else m.addr + 64
                let no := if m.ohold then m.off else m.off + 64
                let s := s.updRtv c r fun y =>
                  { y with cur := some { m with left := m.left - 1, addr := na, off := no }
                           a := if m.op = 3 then y.a else Sparse.set 0 y.a m.fa (dword na)
                           o := if m.op = 3 then y.o else Sparse.set 0 y.o m.fb (word no) }
                some (s.sendLine c r ⟨t, m.ref, m.off, m.mcast, write, p, m.space, none, none⟩ data)
        else if m.op = 3 ∧ m.begun < m.total then
          match m.nextDesc with
          | none => none
          | some bs =>
            let a := fieldAt bs 0 8
            let o := fieldAt bs 8 4
            let n := fieldAt bs 12 2
            if fieldAt bs 14 2 ≠ 0 ∨ n = 0 ∨ s.moveCode c r m.ref o n a n 0 m.space ≠ 0 then some (s.rtvFail c r 0x06 0)
            else some (s.updRtv c r fun y =>
              { y with cur := some { m with begun := m.begun + 1, left := n, addr := a, off := o } })
        else
          some (s.updRtv c r fun y =>
            { y with cur := none, pc := y.pc + 1
                     a := if m.op = 3 then Sparse.set 0 y.a m.fa (dword (m.base + 16 * m.total)) else y.a })
  | none, _ => none

/-- Acts until the Retriever must wait; each line takes one of sixteen tags. -/
def State.rtvPump (s : State) (c r : Nat) : Nat → State
  | 0 => s
  | fuel + 1 =>
    match s.rtvAct c r with
    | some t => t.rtvPump c r fuel
    | none => s

/-- Acts as far as the sixteen tags allow. -/
def State.rtvGo (s : State) (c r : Nat) : State := s.rtvPump c r 64

/-! ## Landing (R212, R217, R218) -/

/-- Writes a line that landed into one core, when the generation still agrees: the state, and whether it landed. -/
def State.landIn (s : State) (q : Nat) (l : RtvLine) (bs : List Byte) : State × Bool :=
  let k := s.core q
  if k.refStale l.ref then (s, false)
  else
    let k := (k.wr (k.entry l.ref) l.off bs).setSmark (refIdx l.ref) false
    ((s.setCore q k).landWrites q, true)

/-- As `landIn`, with the bytes also taken as the served frame's own write (R387). -/
def State.landFor (s : State) (run : Run) (q : Nat) (l : RtvLine) (bs : List Byte) : State × Bool :=
  let e := (s.core q).entry l.ref
  let t := s.landIn q l bs
  match run with
  | .frame gid n _ => if t.2 then (t.1.tapEgress q gid n (tab 64 fun i => hPhys e (l.off + i)), true) else t
  | _ => t

/-- A line of a Retriever whose data have arrived lands; its tag is free. -/
def State.landLine (s : State) (c r : Nat) (l : RtvLine) (bs : List Byte) : State :=
  let run := s.rtvRun c r
  let s := s.updRtv c r fun y => { y with flight := y.flight.erase l }
  match l.desc with
  | some i =>
    (s.updRtv c r fun y => { y with cur := y.cur.map fun m => if m.op = 3 then { m with got := m.got.put i bs } else m }).rtvGo c r
  | none =>
    let t := (landCores c l.mcast).foldl (fun (a : State × Bool) q =>
      let u := a.1.landFor run q l bs
      (u.1, a.2 && u.2)) (s, true)
    if t.2 then (t.1.updRtv c r fun y => { y with lines := y.lines + 1 }).rtvGo c r
    else if ((t.1.core c).rtv r).st = .running then t.1.rtvFail c r 0x03 0
    else t.1.rtvCode c r 0x03

/-- The reply to a Retriever's request: read data wait to land, a completed write frees its tag, an error stops the run. -/
def State.rtvReply (s : State) (c r ltag : Nat) (code : MemCode) : State :=
  let x := (s.core c).rtv r
  match x.flight.find? fun l => l.tag == ltag && l.data.isNone with
  | none => s
  | some l =>
    if code = .ok then
      if l.write then
        (s.updRtv c r fun y => { y with flight := y.flight.erase l, lines := y.lines + 1 }).rtvGo c r
      else
        s.updRtv c r fun y => { y with flight := y.flight.map fun z =>
          if z = l then { z with data := some (s.hostRead l.addr 64) } else z }
    else
      let s := s.updRtv c r fun y => { y with flight := y.flight.erase l }
      if x.st = .running ∨ x.st = .parked then s.rtvFail c r 0x0A (hBase ((s.core c).entry l.ref) + l.off / 64)
      else s.rtvCode c r 0x0A

/-! ## Parameters, arming and runs (R213, R215) -/

/-- Loads parameter set `n`: its eight values, or the code that its reference fails with. -/
def Core.loadSet (k : Core) (x : Rtv) (n : Nat) : Nat × List DWord :=
  if refNull x.params || k.refBad x.ctx.toNat x.params then (0x02, [])
  else if k.refStale x.params then (0x03, [])
  else (0, tab 8 fun i => dword (k.rdN (k.entry x.params) (64 * n + 8 * i) 8))

/-- Validation at arming (R215). -/
def Core.armOk (k : Core) (ctx : Nat) (prog params trig be nsets : Nat) : Bool :=
  let e := k.entry prog
  let n := k.rdN e 2 1
  let ws := tab n fun i => k.rdN e (8 + 8 * i) 8
  decide (trig < 3) && (trig != 0 || be == 1)
    && k.refGood ctx prog && k.refGood ctx params
    && k.rdN e 0 2 == 0x0100 && decide (1 ≤ n) && decide (n ≤ 64) && k.rdN e 3 1 == 0
    && decide (8 + 8 * n ≤ hExt e)
    && crc32c (natB (k.rd e 0 4 ++ k.rd e 8 (8 * n))) == k.rdN e 4 4
    && ws.zipIdx.all (fun (w, i) => rtvInstrOk trig n i w)
    && decide (64 * (nsets + 1) ≤ hExt (k.entry params))
where
  /-- Bytes as numbers. -/
  natB (bs : List Byte) : List Nat := bs.map BitVec.toNat

/-- Arms an idle Retriever (R215): on failure it stays idle with RTV_BADPROG. A run at arming becomes pending. -/
def State.rtvArmNow (s : State) (c r : Nat) (acc : Acc) : State :=
  let k := s.core c
  let x := k.rtv r
  let prog := wbits x.prog 15 0
  let params := wbits x.prog 31 16
  if k.armOk acc.ctx.toNat prog params x.trig (b2n x.be) x.nsets then
    let e := k.entry prog
    let y : Rtv := { x with params := params, ctx := acc.ctx, set := 0, store := tab (k.rdN e 2 1) fun i => k.rdN e (8 + 8 * i) 8
                            st := .armed, disarm := false, pend := x.trig == 0, pendFrame := 0, pc := 0, cur := none
                            atFire := [] }
    s.updRtv c r fun _ => { y with p := (k.loadSet y 0).2 }
  else s.rtvCode c r 0x01

/-- The RW fields of a write of RTV_CTRL: TRIG, BE, ID and NSETS. -/
def rtvCtl (value : Word) : Word := value &&& 0x00FFFFD3#32

/-- A privileged write of RTV_CTRL (R215, R227): STOP stops a run; an idle Retriever takes the fields and arms with ARM = 1; one
that is not idle ignores an ARM write, and with ARM = 0 it takes the fields for its next arming and is idle after its run. -/
def State.rtvCtrlWrite (s : State) (c r : Nat) (value : Word) (acc : Acc) : State :=
  let x := (s.core c).rtv r
  let s := if value.getLsbD 3 && (x.st == .running || x.st == .parked) then
      (s.updRtv c r Rtv.stop).rtvCode c r 0x0B
    else s
  if x.st = .idle then
    let s := s.updRtv c r fun y =>
      { y with trig := wbits value 1 0, be := value.getLsbD 4, id := wbits value 17 6, nsets := wbits value 23 18
               ctl := rtvCtl value }
    if value.getLsbD 2 then s.rtvArmNow c r acc else s
  else if value.getLsbD 2 then s
  else
    s.updRtv c r fun z =>
      let y := { z with ctl := rtvCtl value }
      match y.st with
      | .armed => { y with st := .idle, pend := false, disarm := false }
      | .idle => y
      | _ => { y with disarm := true }

/-- Address of RTV_CTRL of a Retriever. -/
def rtvCtrlAddr (core rtv : Nat) : Nat :=
  if core < 32 ∧ rtv < 8 then 0x20000 + 0x1000 * core + 0x984 + 16 * rtv else 0x20054

/-- A pending trigger starts its run (R213, R215). -/
def State.rtvStart (s : State) (c r : Nat) : State :=
  let x := (s.core c).rtv r
  if x.st = .armed ∧ x.pend = true ∧ s.running = true then
    s.updRtv c r fun y =>
      { y with st := .running, pend := false, runFrame := y.pendFrame, pc := 0, a := [], o := [], l := [], cur := none }
  else s

/-- Runs the Retriever's next instruction when it is the row's: between two instructions, with the run not held back. Past its
last instruction a program ends as at END. -/
def State.rtvRow (s : State) (c r op : Nat) (act : State → Nat → State) : State :=
  let x := (s.core c).rtv r
  let w := x.store.getD x.pc 0
  if x.st = .running ∧ x.cur.isNone = true ∧ s.rtvGoes c r = true ∧ rOp w = op then act s w else s

/-- Goes to the next instruction with a change of registers. -/
def State.rtvNext (s : State) (c r : Nat) (f : Rtv → Rtv) : State := s.updRtv c r fun x => { f x with pc := x.pc + 1 }

/-- Is every earlier line complete? -/
def State.rtvClear (s : State) (c r : Nat) : Bool := ((s.core c).rtv r).flight.isEmpty

/-- The counter that WAITC reads. -/
def State.rtvCount (s : State) (c r i : Nat) : Nat :=
  match s.rtvRun c r with
  | .frame gid n _ => match s.frame? gid n with | some f => Sparse.get 0 f.cnts i | none => 0
  | .job ring _ => match s.job? ring with | some j => Sparse.get 0 j.cnts i | none => 0
  | .idle => 0

/-- SIG adds to the counter that the run serves. -/
def State.rtvSignal (s : State) (c r i n : Nat) : State :=
  let add (m : Sparse Nat) : Sparse Nat := Sparse.set 0 m i (satAdd 0xFFFF (Sparse.get 0 m i) n)
  match s.rtvRun c r with
  | .frame gid fr _ => s.updFrame gid fr fun f => { f with cnts := add f.cnts }
  | .job ring _ => s.updJob ring fun j => { j with cnts := add j.cnts }
  | .idle => s

/-- RD and WR: the checks of R217 and R218, then the lines. -/
def State.rtvMoveRow (s : State) (c r w : Nat) : State :=
  let x := (s.core c).rtv r
  let a := (Sparse.get (0 : DWord) x.a (rFa w)).toNat
  let o := (Sparse.get (0 : Word) x.o (rFb w)).toNat
  let ref := nbits (rImm w) 0 16
  let mc := if rOp w = 1 then nbits (rImm w) 16 4 else 0
  let space := nbits (rFl w) 0 1 == 1
  let ahold := nbits (rFl w) 1 1 == 1
  let code := s.moveCode c r ref o (rN w) a (if ahold then 1 else rN w) mc space
  if code ≠ 0 then s.rtvFail c r code 0
  else
    let m : RtvMove :=
      { op := rOp w, ref := ref, left := rN w, space := space, mcast := mc, ahold := ahold
        ohold := nbits (rFl w) 2 1 == 1, fa := rFa w, fb := rFb w, addr := a, off := o }
    (s.updRtv c r fun y => { y with cur := some m }).rtvGo c r

/-- LIST: the checks at its start, then the list and its descriptors. -/
def State.rtvListRow (s : State) (c r w : Nat) : State :=
  let x := (s.core c).rtv r
  let a := (Sparse.get (0 : DWord) x.a (rFa w)).toNat
  let ref := nbits (rImm w) 0 16
  let space := nbits (rFl w) 0 1 == 1
  let code := s.moveCode c r ref 0 0 a (ceilDiv (rN w) 4) 0 space
  if code ≠ 0 then s.rtvFail c r code 0
  else
    let m : RtvMove :=
      { op := 3, ref := ref, left := 0, space := space, fa := rFa w, addr := 0, off := 0, total := rN w, base := a }
    (s.updRtv c r fun y => { y with cur := some m }).rtvGo c r

/-! ## Meanings -/

/-- RTV_ARM (R215). -/
def execRtvArm (core rtv : Nat) (value : Word) (acc : Acc) (s : State) : Host.Outcome State Fault Refusal :=
  done (s.cfgWrite (rtvCtrlAddr core rtv) acc fun t => t.rtvCtrlWrite core rtv value acc)

/-- RTV_DISARM (R227). -/
def execRtvDisarm (core rtv : Nat) (value : Word) (acc : Acc) (s : State) : Host.Outcome State Fault Refusal :=
  done (s.cfgWrite (rtvCtrlAddr core rtv) acc fun t => t.rtvCtrlWrite core rtv value acc)

/-- RTV_STOP (R227). -/
def execRtvStop (core rtv : Nat) (value : Word) (acc : Acc) (s : State) : Host.Outcome State Fault Refusal :=
  done (s.cfgWrite (rtvCtrlAddr core rtv) acc fun t => t.rtvCtrlWrite core rtv value acc)

/-- RTV_RUN_START (R215). -/
def execRtvRunStart (core rtv : Nat) (s : State) : Host.Outcome State Fault Refusal := done (s.rtvStart core rtv)

/-- END (R214): it waits as FENCE does, then ends the run with RTV_OK. -/
def execRtvEnd (core rtv : Nat) (s : State) : Host.Outcome State Fault Refusal :=
  done (s.rtvRow core rtv 0 fun t _ =>
    if t.rtvClear core rtv then (t.updRtv core rtv Rtv.stop).rtvCode core rtv 0 else t)

/-- RD (R214). -/
def execRd (core rtv : Nat) (s : State) : Host.Outcome State Fault Refusal :=
  done (s.rtvRow core rtv 1 fun t w => t.rtvMoveRow core rtv w)

/-- WR (R214). -/
def execWr (core rtv : Nat) (s : State) : Host.Outcome State Fault Refusal :=
  done (s.rtvRow core rtv 2 fun t w => t.rtvMoveRow core rtv w)

/-- LIST (R216). -/
def execRtvList (core rtv : Nat) (s : State) : Host.Outcome State Fault Refusal :=
  done (s.rtvRow core rtv 3 fun t w => t.rtvListRow core rtv w)

/-- The value that FB names: P_p, or zero. -/
def Rtv.par (x : Rtv) (w : Nat) : DWord := if rFb w = 8 then 0 else x.p.getD (rFb w) 0

/-- SETA (R214). -/
def execSeta (core rtv : Nat) (s : State) : Host.Outcome State Fault Refusal :=
  done (s.rtvRow core rtv 4 fun t w => t.rtvNext core rtv fun x =>
    { x with a := Sparse.set 0 x.a (rFa w) (x.par w + rSigned w) })

/-- ADDA (R214). -/
def execAdda (core rtv : Nat) (s : State) : Host.Outcome State Fault Refusal :=
  done (s.rtvRow core rtv 5 fun t w => t.rtvNext core rtv fun x =>
    { x with a := Sparse.set 0 x.a (rFa w) (Sparse.get 0 x.a (rFa w) + rSigned w) })

/-- SETO (R214). -/
def execSeto (core rtv : Nat) (s : State) : Host.Outcome State Fault Refusal :=
  done (s.rtvRow core rtv 6 fun t w => t.rtvNext core rtv fun x =>
    { x with o := Sparse.set 0 x.o (rFa w) ((x.par w).truncate 32 + word (rImm w)) })

/-- ADDO (R214). -/
def execAddo (core rtv : Nat) (s : State) : Host.Outcome State Fault Refusal :=
  done (s.rtvRow core rtv 7 fun t w => t.rtvNext core rtv fun x =>
    { x with o := Sparse.set 0 x.o (rFa w) (Sparse.get 0 x.o (rFa w) + word (rImm w)) })

/-- SETL (R214). -/
def execSetl (core rtv : Nat) (s : State) : Host.Outcome State Fault Refusal :=
  done (s.rtvRow core rtv 8 fun t w => t.rtvNext core rtv fun x => { x with l := Sparse.set 0 x.l (rFa w) (rN w) })

/-- LOOP (R214). -/
def execRtvLoop (core rtv : Nat) (s : State) : Host.Outcome State Fault Refusal :=
  done (s.rtvRow core rtv 9 fun t w => t.updRtv core rtv fun x =>
    let n := Sparse.get 0 x.l (rFa w)
    if n = 0 then { x with pc := x.pc + 1 }
    else { x with l := Sparse.set 0 x.l (rFa w) (n - 1), pc := if n = 1 then x.pc + 1 else rN w })

/-- NEXTP (R214): the next parameter set, or set 0 after the last. -/
def execNextp (core rtv : Nat) (s : State) : Host.Outcome State Fault Refusal :=
  done (s.rtvRow core rtv 10 fun t _ =>
    let x := (t.core core).rtv rtv
    let n := if x.nsets ≤ x.set then 0 else x.set + 1
    let q := (t.core core).loadSet x n
    if q.1 ≠ 0 then t.rtvFail core rtv q.1 0 else t.rtvNext core rtv fun y => { y with set := n, p := q.2 })

/-- WAITC (R214). -/
def execWaitc (core rtv : Nat) (s : State) : Host.Outcome State Fault Refusal :=
  done (s.rtvRow core rtv 11 fun t w => if rN w ≤ t.rtvCount core rtv (rFa w) then t.rtvNext core rtv id else t)

/-- SIG (R214). -/
def execSig (core rtv : Nat) (s : State) : Host.Outcome State Fault Refusal :=
  done (s.rtvRow core rtv 12 fun t w =>
    if t.rtvClear core rtv then (t.rtvSignal core rtv (rFa w) (rN w)).rtvNext core rtv id else t)

/-- FENCE (R214). -/
def execRtvFence (core rtv : Nat) (s : State) : Host.Outcome State Fault Refusal :=
  done (s.rtvRow core rtv 13 fun t _ => if t.rtvClear core rtv then t.rtvNext core rtv id else t)

/-- JMP (R214). -/
def execJmp (core rtv : Nat) (s : State) : Host.Outcome State Fault Refusal :=
  done (s.rtvRow core rtv 14 fun t w => t.updRtv core rtv fun x => { x with pc := rN w })

/-- RTV_LINE_LANDED (R217): the oldest line whose data have arrived. -/
def execRtvLineLanded (core rtv : Nat) (s : State) : Host.Outcome State Fault Refusal :=
  done (match ((s.core core).rtv rtv).flight.find? fun l => l.data.isSome with
    | some l => s.landLine core rtv l (l.data.getD [])
    | none => s)

end Sys2Proof.Machine
end

