-- ==== Sys2Proof/Machine/Rings.lean ====
section
/-! DEFINITION. Rings and descriptors (10_host_objects): doorbells, creation, fetch, acceptance, waits, completion, and the
commands that need no admission. -/

namespace Sys2Proof.Machine

/-- An address of no page, for commands that name no register that exists. -/
def noAddr : Nat := 0x4C000

/-! ## Doorbells (R284, R312) -/

/-- Address of a doorbell word. -/
def dbAddr (ring off : Nat) : Nat := if ring < 4096 then 0x40000 + 8 * ring + off else noAddr

/-- Why a presented doorbell is refused (DB_REJ.WHY), or none. -/
def Ring.refuses (x : Ring) (tail : DWord) (acc : Acc) : Option Nat :=
  if x.st = .absent then some 0
  else if acc.ctx ≠ x.ctx ∧ acc.priv = false then some 1
  else if 2 ^ 63 ≤ (tail - x.tail).toNat then some 2
  else if x.cls = 3 then (if 2 ^ 63 ≤ (dword x.produced - tail).toNat then some 3 else none)
  else if x.nent < (tail - dword x.completed).toNat then some 3
  else none

/-- The high word presents a doorbell. -/
def State.presentDoorbell (s : State) (r : Nat) (value : Word) (acc : Acc) : State :=
  let x := s.ring r
  let tail : DWord := value ++ x.staged
  match x.refuses tail acc with
  | none => s.updRing r fun y => { y with tail := tail }
  | some why =>
    let s := (s.updRing r fun y => { y with staged := y.tail.truncate 32 }).raise pgSheepdog 0
    let s := if s.sd.dbRej.getLsbD 0 then s
      else { s with sd := { s.sd with dbRej := word (1 + why * 2 + r % 4096 * 16 + acc.ctx.toNat * 65536) } }
    s.respond 1 0

/-! ## RING_CMD (R282, R283, R309, R314) -/

/-- RING_STAT and RING_DONE of a finished command. -/
def State.ringResult (s : State) (r code : Nat) : State :=
  ({ s with sd := { s.sd with ringStat := word (code * 16 + r % 4096 * 256) } }).raise pgSheepdog 3

/-- Do the fields of a ring record and of the base registers keep R281, R282 and R313? -/
def State.ringFieldsOk (s : State) (b : List Byte) : Bool :=
  let f := fieldAt b
  let cls := f 4 1 % 4
  decide (s.sd.recLo.toNat % 64 = 0 ∧ s.sd.objLo.toNat % 2 ^ 17 = 0 ∧ s.sd.fenceLo.toNat % 2 ^ 16 = 0)
    && decide (f 1 1 = f 3 1 ∧ f 4 1 < 4 ∧ f 5 1 < 4 ∧ (cls = 0 ∨ f 5 1 = 0))
    && (!(cls == 1 || cls == 3) || f 6 2 == 0)
    && decide (3 ≤ f 8 1 ∧ f 8 1 ≤ 12) && f 9 7 == 0
    && decide (f 16 8 % 512 = 0 ∧ f 16 8 < 2 ^ 48 ∧ (cls ≠ 3 ∨ f 16 8 = 0))
    && decide (f 24 8 % 64 = 0 ∧ f 24 8 < 2 ^ 48) && decide (f 32 8 % 4 = 0 ∧ f 32 8 < 2 ^ 48)
    && decide (f 44 1 < 32) && f 45 19 == 0

/-- The ring that a record describes, at minor version 0. -/
def ringOf (b : List Byte) : Ring :=
  let f := fieldAt b
  { st := .active, cls := f 4 1 % 4, prio := f 5 1 % 4, ctx := BitVec.ofNat 16 (f 6 2), log2n := f 8 1, descBase := f 16 8
    cmplBase := f 24 8, msgAddr := f 32 8, msgData := word (f 40 4), irqLine := f 44 1 % 16, irqEn := nbits (f 44 1) 4 1 == 1
    minor := 0 }

/-- CREATE. -/
def State.ringCreate (s : State) (r : Nat) (mem : MemCode) : State :=
  let a := addr48 s.sd.recLo s.sd.recHi
  let b := s.hostRead (a / 64 * 64) 64
  if (s.ring r).st ≠ .absent then s.ringResult r 1
  else if mem ≠ .ok then (s.memErr mem false a .control).ringResult r 3
  else if s.ringFieldsOk b = false then s.ringResult r 4
  else if fieldAt b 1 1 ≠ 1 ∨ fieldAt b 0 1 ≠ 0 then s.ringResult r 5
  else ((s.updRing r fun _ => ringOf b).writeHead r).ringResult r 0

/-- Does a ring hold references: those of a descriptor, or of a group that it armed (R283, R304)? -/
def State.ringHolds (s : State) (r : Nat) : Bool :=
  ((s.ring r).queue.any fun d => !d.refs.isEmpty) || s.groups.any fun e => e.2.armer == some r && !e.2.refs.isEmpty

/-- DESTROY. -/
def State.ringDestroy (s : State) (r : Nat) : State :=
  let x := s.ring r
  if x.st = .absent then s.ringResult r 2
  else if x.st ≠ .stopped ∨ x.burst.isSome ∨ !x.inbox.isEmpty ∨ !x.queue.isEmpty ∨ x.completed ≠ x.fetched
      ∨ s.ringHolds r = true then s.ringResult r 6
  else ({ s with rings := s.rings.del r }).ringResult r 0

/-- A write of RING_CMD. -/
def State.ringCmd (s : State) (value : Word) (mem : MemCode) : State :=
  let r := wbits value 11 0
  match wbits value 13 12 with
  | 1 => s.ringCreate r mem
  | 2 => s.ringDestroy r
  | _ => s.ringResult r 4

/-! ## Fetch (R285, R306) -/

/-- Descriptors that a ring has not fetched. -/
def Ring.unfetched (x : Ring) : Nat := (x.tail - dword x.fetched).toNat

/-- May a ring fetch a burst? -/
def Ring.canFetch (x : Ring) : Bool := x.st == .active && x.cls != 3 && x.burst.isNone && decide (0 < x.unfetched)

/-- Service order: CONTROL, SERVICE, COMPUTE by descending PRIO; lower is sooner. -/
def Ring.rank (x : Ring) : Nat := match x.cls with | 2 => 0 | 1 => 1 | _ => 5 - x.prio

/-- The ring that Sheepdog serves next. -/
def State.nextRing (s : State) : Option Nat :=
  let cand := s.rings.filter fun e => e.2.canFetch
  let best := cand.foldl (fun (m : Option (Nat × Nat)) e =>
    match m with
    | none => some (e.2.rank, e.1)
    | some (k, _) => if e.2.rank < k then some (e.2.rank, e.1) else m) none
  best.map (·.2)

/-- Starts one burst. -/
def State.fetchBurst (s : State) : State :=
  match s.nextRing with
  | none => s
  | some r =>
    let x := s.ring r
    let first := x.fetched
    let n := min 8 (min x.unfetched (x.nent - first % x.nent))
    let s := s.updRing r fun y => { y with burst := some (first, n, n, []) }
    (List.range n).foldl (fun t i =>
      t.request { unit := .fetch r i, line := (hostAddr (x.descBase + 64 * ((first + i) % x.nent))) / 64, write := false
                  cls := .control, issued := t.fclk }) s

/-- Line `i` of a burst returns; the last one makes the descriptors Sheepdog's own and writes FETCHED. A descriptor whose line failed is
not read (R295). A ring that was stopping has stopped. -/
def State.fetchReply (s : State) (r i : Nat) (code : MemCode) : State :=
  let x := s.ring r
  match x.burst with
  | none => s
  | some (first, n, left, bad) =>
    let bad := if code = .ok then bad else i :: bad
    if 1 < left then s.updRing r fun y => { y with burst := some (first, n, left - 1, bad) }
    else
      let got := tab n fun i =>
        ((first + i) % 2 ^ 64, if bad.contains i then 0 else s.hostNat (x.descBase + 64 * ((first + i) % x.nent)) 64, bad.contains i)
      let s := s.updRing r fun y =>
        { y with burst := none, inbox := y.inbox ++ got, fetched := (first + n) % 2 ^ 64
                 st := if y.st = .changing then .stopped else y.st }
      s.writeHead r

/-! ## Descriptor fields (R287, R288) -/

/-- OPC. -/
def Desc.opc (d : Desc) : Nat := nbits d.w 0 8
/-- `n` bytes of the descriptor at offset `o`. -/
def Desc.by (d : Desc) (o n : Nat) : Nat := nbits d.w (8 * o) (8 * n)
/-- The 12-bit number at bytes 32 and 33. -/
def Desc.target (d : Desc) : Nat := nbits d.w 256 12
/-- SFENCE.EN. -/
def Desc.signals (d : Desc) : Bool := nbits d.w 63 1 == 1
/-- The fence signalled. -/
def Desc.sfence (d : Desc) : Nat := nbits d.w 48 12

/-- Step 1 of R289: OPC and the header. -/
def headerBad (d : Desc) : Bool :=
  !([0x00, 0x01, 0x10, 0x11, 0x12, 0x13, 0x14, 0x15, 0x20, 0x21, 0x22, 0x23, 0x24, 0x25].contains d.opc)
    || d.by 1 1 / 4 != 0 || nbits d.w 44 3 != 0 || nbits d.w 60 3 != 0 || d.by 28 4 != 0
    || (!d.waits && (d.by 4 2 != 0 || d.by 8 8 != 0 || d.by 24 4 != 0))
    || (!d.signals && (d.by 6 2 != 0 || d.by 16 8 != 0))

/-- Step 2: the class of the ring, and the driver's context for PARK and UNPARK. -/
def classBad (x : Ring) (d : Desc) : Bool :=
  let o := d.opc
  if o = 0 then x.cls == 3
  else if o = 1 then x.cls != 0
  else if o < 0x20 then x.cls != 1
  else x.cls != 2 || (decide (0x24 ≤ o) && x.ctx != 0)

/-- Step 3: the fences exist and belong to the ring's context, the fence that an ARM body names among them. -/
def State.fenceBad (s : State) (x : Ring) (d : Desc) : Bool :=
  let bad (f : Nat) : Bool := match s.fence? f with
    | none => true
    | some fc => x.ctx != 0 && fc.ctx != x.ctx
  (d.waits && bad d.wfence) || (d.signals && bad d.sfence) || (d.opc == 0x11 && nbits d.w 511 1 == 1 && bad (nbits d.w 496 12))

/-! ## The ARM body (R290, R303) -/

/-- PROG_k. -/
def Desc.prog (d : Desc) (k : Nat) : Nat := d.by (36 + 4 * k) 2
/-- MARK_k. -/
def Desc.mark (d : Desc) (k : Nat) : Nat := d.by (38 + 4 * k) 2
/-- RTV_k. -/
def Desc.rtvBits (d : Desc) (k : Nat) : Nat := d.by (52 + k) 1
/-- STBY_k. -/
def Desc.stby (d : Desc) (k : Nat) : Option Nat := if nbits (d.by (56 + k) 1) 7 1 = 1 then some (d.by (56 + k) 1 % 32) else none

/-- The group with what an ARM body names. -/
def Group.named (g : Group) (d : Desc) : Group :=
  { g with progs := tab g.nslot d.prog, marks := tab g.nslot d.mark, rtvs := tab g.nslot d.rtvBits
           standby := tab g.nslot d.stby
           notify := if nbits d.w 495 1 = 1 then some (nbits d.w 480 12) else none
           fence := if nbits d.w 511 1 = 1 then some (nbits d.w 496 12) else none }

/-- Are entries for slots at or above the group's NSLOT set? -/
def Desc.beyond (d : Desc) (nslot : Nat) : Bool :=
  (List.range 4).any fun k => decide (nslot ≤ k) && (d.by (36 + 4 * k) 4 != 0 || d.rtvBits k != 0 || d.by (56 + k) 1 != 0)

/-- The objects that ARM's validation reads (R303). -/
def State.armRefs (s : State) (g : Group) : List (Nat × Nat) :=
  ((tab g.nslot fun k =>
    let c := g.core k
    let m := g.marks.getD k 0
    s.programObjs c (g.progs.getD k 0)
      ++ (if refNull m then [] else [(objIdx c (refIdx m), hGen ((s.core c).entry m))])).flatten).eraseDups

/-! ## Acceptance checks (R289) -/

/-- Step 4: reserved body bytes and alignments; the rest of ARM's body is read with its group. -/
def bodyBad (d : Desc) : Bool :=
  let z (o n : Nat) : Bool := d.by o n == 0
  !(match d.opc with
    | 0x00 => z 32 32
    | 0x01 => z 40 24 && d.by 32 8 % 64 == 0
    | 0x10 => z 40 24
    | 0x11 => nbits d.w 268 4 == 0 && z 34 2 && (List.range 4).all (fun k => nbits (d.by (56 + k) 1) 5 2 == 0)
        && nbits d.w 492 3 == 0 && nbits d.w 508 3 == 0
    | 0x13 => nbits d.w 268 4 == 0 && z 34 6 && z 48 16 && d.by 40 8 % 64 == 0
    | 0x14 => nbits d.w 261 3 == 0 && z 34 30
    | 0x15 => nbits d.w 268 4 == 0 && z 36 4 && z 48 16
    | 0x23 => z 34 30
    | _ => nbits d.w 268 4 == 0 && z 34 30)

/-- Step 5: the targets (R289, R290, R307); an ARM that names no group draws ADMIT_ARM when it runs (R246). -/
def State.targetBad (s : State) (x : Ring) (d : Desc) : Bool :=
  match d.opc with
  | 0x11 => match (Group.named {} d).notify with
    | some n => (s.ring n).st == .absent || (s.ring n).cls != 3
    | none => false
  | 0x12 => (s.group? d.target).isNone
  | 0x13 => !(s.groups.any fun e => e.2.members.any fun m => m.stream == d.target)
  | 0x14 => decide (s.conf.cores ≤ d.by 32 1 % 32) || d.by 33 1 == 0
  | 0x20 => other | 0x21 => other | 0x22 => other
  | 0x23 => x.ctx != 0 && d.by 32 2 != x.ctx.toNat
  | 0x24 => (s.group? d.target).isNone
  | 0x25 => (s.group? d.target).isNone
  | _ => false
where
  /-- The ring named is absent or of another context. -/
  other : Bool :=
    let t := s.ring d.target
    t.st == .absent || (x.ctx != 0 && t.ctx != x.ctx)

/-- Steps 1 to 5 of R289 for a fetched descriptor: the first failure. A descriptor that could not be read draws MEMERR. -/
def State.acceptCheck (s : State) (x : Ring) (d : Desc) (err : Bool) : Option Cmpl :=
  if err then some { status := 0x48, signal := false }
  else if headerBad d then some { status := 0x43, signal := false }
  else if classBad x d then some { status := 0x44, signal := false }
  else if s.fenceBad x d then some { status := 0x45, signal := false }
  else if bodyBad d || (d.opc == 0x11 && (s.group? d.target).any fun g => d.beyond g.nslot) then some { status := 0x43 }
  else if s.targetBad x d then some { status := 0x46 }
  else none

/-! ## Acceptance (R286, R289, R291, R303) -/

/-- The outcome of a JOB's acceptance: a failure, or its seed, slots and references. -/
def State.acceptJob (s : State) (x : Ring) (d : Desc) (mem : MemCode) :
    Cmpl ⊕ (DWord × List JobSlot × List (Nat × Nat)) :=
  let a := d.by 32 8
  let b := s.hostRead a 80
  let f := fieldAt b
  let n := f 2 1
  let slots := tab n fun k => (⟨f (16 + 16 * k) 1 % 32, f (18 + 16 * k) 2, f (24 + 16 * k) 8⟩ : JobSlot)
  if mem ≠ .ok then .inl { status := 0x48 }
  else if f 0 2 ≠ 0x0100 ∨ n = 0 ∨ 4 < n ∨ f 3 5 ≠ 0
      ∨ (List.range n).any (fun k => decide (32 ≤ f (16 + 16 * k) 1) || f (17 + 16 * k) 1 != 0 || f (20 + 16 * k) 4 != 0
          || f (24 + 16 * k) 8 % 4096 != 0 || decide (2 ^ 48 ≤ f (24 + 16 * k) 8)) = true then
    .inl { status := 0x43 }
  else if slots.any (fun j => decide (s.conf.cores ≤ j.core)) = true ∨ (slots.map (·.core)).eraseDups.length ≠ n
      ∨ s.full = false then .inl { status := 0x46 }
  else
    match slots.zipIdx.findSome? (fun (j, k) => (check j n).map fun e => (e, k)) with
    | some ((st, off), k) => .inl { status := st, slot := k, offset := off }
    | none => .inr (dword (f 8 8), slots, (slots.flatMap fun j => s.programObjs j.core j.prog).eraseDups)
where
  /-- Status and offset of the first failure of one copy (R161, R164). -/
  check (j : JobSlot) (n : Nat) : Option (Nat × Nat) :=
    let k := s.core j.core
    let st := k.refCheck x.ctx.toNat j.prog
    if st ≠ stOk then some (st, 0)
    else
      match programStatus k j.core s.conf s.hqs x.ctx.toNat j.prog with
      | some e => some e
      | none => if k.progNslot j.prog = n then none else some (0x43, 0)

/-- Sheepdog accepts the next fetched descriptor of a ring. -/
def State.acceptNext (s : State) (r : Nat) (mem : MemCode) : State :=
  let x := s.ring r
  match x.inbox with
  | [] => s
  | (seq, w, err) :: rest =>
    let d : Desc := { seq := seq, w := w, accepted := s.fclk }
    let s := s.updRing r fun y => { y with inbox := rest }
    let r' : State × Desc :=
      match s.acceptCheck x d err with
      | some c => (s, { d with done := some c })
      | none =>
        if d.opc = 1 then
          let s := s.memCheck mem false (d.by 32 8) .control
          match s.acceptJob x d mem with
          | .inl c => (s, { d with done := some c })
          | .inr (seed, slots, os) => (s.takeRefs os, { d with refs := os, seed := seed, slots := slots })
        else if d.opc = 0x11 then
          match s.group? d.target with
          | some g => let os := s.armRefs (g.named d); (s.takeRefs os, { d with refs := os })
          | none => (s, d)
        else (s, d)
    let s := r'.1.updRing r fun y => { y with queue := y.queue ++ [r'.2] }
    if x.queue.isEmpty then s.headDue r else s

/-! ## The head of a ring (R286, R301) -/

/-- The descriptor at the head of a ring, when it may start the command with opcode `opc`. -/
def State.headFor (s : State) (r opc : Nat) : Option Desc :=
  match (s.ring r).queue with
  | d :: _ => if s.running = true ∧ s.sd.restart = false ∧ d.opc = opc ∧ d.met = true ∧ d.done.isNone = true then some d else none
  | [] => none

/-- Runs the command at the head of a ring when it is the row's. -/
def State.headRow (s : State) (r opc : Nat) (act : State → Desc → State) : State :=
  match s.headFor r opc with
  | some d => act s d
  | none => s

/-- The head's command has begun and waits. -/
def State.startHead (s : State) (r : Nat) : State := s.updRing r fun x => x.updHead fun d => { d with started := true }

/-- Completes the head with OK. -/
def State.headOk (s : State) (r : Nat) : State := s.finishHead r { status := 0 }

/-! ## Completion (R294, R303) -/

/-- The record of a completed descriptor. -/
def Desc.record (d : Desc) (c : Cmpl) (regress : Bool) : CRec :=
  { tag := d.by 2 2, status := c.status, flags := b2n d.race + 16 * b2n regress, pstat := c.pstat, xstat := c.xstat
    slot := c.slot, kind := 0, offset := c.offset, aux32 := c.aux32, seq := d.seq, aux64 := c.aux64 }

/-- Completes the head of a ring, in the order of R294, and makes the next descriptor due. -/
def State.complete (s : State) (r : Nat) : State :=
  match (s.ring r).queue with
  | [] => s
  | d :: rest =>
    match d.done with
    | none => s
    | some c =>
      let x := s.ring r
      let s := s.dropRefs d.refs
      let f := if c.signal && d.signals then s.signalFence d.sfence (dword (d.by 16 8)) r else (s, false)
      let s := if nbits d.w 8 1 = 1 then
          f.1.hostWrite (x.cmplBase + 64 + 32 * (d.seq % x.nent)) (d.record c f.2).bytes
        else f.1
      let s := s.updRing r fun y => { y with queue := rest, completed := (d.seq + 1) % 2 ^ 64 }
      let s := s.writeHead r
      let s := if nbits d.w 9 1 = 1 then s.ringSignal r else s
      s.headDue r

/-! ## Commands on rings (R307) -/

/-- A ring fetches no further bursts; it is STOPPED once none is in flight. -/
def State.stopRing (s : State) (r : Nat) : State :=
  s.updRing r fun x => { x with st := if x.st = .absent then .absent else if x.burst.isSome then .changing else .stopped }

/-- Clears OPEN of the slots that a saved job had written (R134). -/
def State.closeSaved (s : State) (j : Job) : State :=
  j.saved.foldl (fun t (k, v) =>
    match j.slots[k]? with
    | some sl => t.updCore sl.core fun q =>
        let z := ({ q with csq := { q.csq with slots := v.csq.slots } } : Core).closeSlots
        { z with csq := q.csq }
    | none => t) s

/-- Discards a job that is on no core. -/
def State.dropJob (s : State) (r : Nat) (j : Job) : State :=
  let s := (s.unhalt r).closeSaved j
  { s with jobs := s.jobs.del r }

/-- Ends a job that is parked or displaced, or has not started, with ABORTED; asks a running one to stop. -/
def State.abortJob (s : State) (r : Nat) : State :=
  match s.job? r with
  | none => s
  | some j =>
    if j.stage = .running then s.updJob r fun y => { y with abortAt := some (y.abortAt.getD s.fclk) }
    else
      let pc := match j.saved.find? (·.1 == 0) with | some (_, v) => v.csq.pc | none => 0
      (s.dropJob r j).finishHead r { status := 0x42, offset := 32 * pc }

/-- ABORT of a ring: as STOP, and every descriptor that has not started completes with ABORTED, but a fetched one that fails acceptance
completes with its failing status (R286). -/
def State.abortRing (s : State) (r : Nat) : State :=
  let s := s.stopRing r
  let s := s.updRing r fun x =>
    { x with inbox := []
             queue := (x.queue ++ x.inbox.map fun (q, w, err) =>
                 let d : Desc := { seq := q, w := w, accepted := s.fclk }
                 { d with done := s.acceptCheck x d err }).map fun (d : Desc) =>
               if d.started ∨ d.done.isSome then d else { d with done := some { status := 0x42 } } }
  s.abortJob r

/-- Has an ABORT of a ring written the last of its completions? -/
def State.abortDone (s : State) (r : Nat) : Bool :=
  let x := s.ring r
  x.burst.isNone && (s.job? r).all (fun j => j.abortAt.isNone)
    && !(x.queue.any fun d => match d.done with | some c => c.status == 0x42 | none => false)

/-- RESUME of a ring: ACTIVE, and a job at its head parked by a NaN halt or a residency fault waits to resume (R258). -/
def State.resumeRing (s : State) (r : Nat) : State :=
  let s := s.updRing r fun x => { x with st := if x.st = .absent then .absent else .active }
  match s.job? r with
  | some j =>
    if j.stage = .parkedNan ∨ j.stage = .parkedRes then
      (s.unhalt r).updJob r fun y => { y with stage := .displaced }
    else s
  | none => s

/-- The rings of a context. -/
def State.ringsOf (s : State) (ctx : Nat) : List Nat :=
  (s.rings.filter fun e => e.2.st != .absent && e.2.ctx.toNat == ctx).map (·.1)

/-- Has every job of a context completed, parked or been displaced, with no burst in flight? -/
def State.quiet (s : State) (ctx : Nat) : Bool :=
  (s.ringsOf ctx).all fun r => (s.ring r).burst.isNone
    && match s.job? r with
      | some j => j.stage != .running && j.stage != .ready
      | none => !((s.ring r).queue.any fun d => d.opc == 1 && d.done.isNone) && (s.ring r).inbox.isEmpty

/-- RECLAIM (R305): advances the generation through the table commit, or refuses it with GEN_INUSE. -/
def State.reclaimObj (s : State) (r : Nat) (d : Desc) (commit : State → Nat → Nat → DWord → Option Nat → State) : State :=
  let c := d.by 32 1 % 32
  let i := d.by 33 1
  let k := s.core c
  let gen := (s.objGen (objIdx c i) + 1) % 256
  if s.sd.refs.contains (objIdx c i, gen) then s.finishHead r { status := 0x49 }
  else if k.held.isSome then s
  else
    let e := Sparse.get (0 : DWord) k.handles i
    let e' : DWord := (e &&& ~~~0xFF00#64) ||| dword (gen * 256)
    commit (s.startHead r) c i e' (some r)

end Sys2Proof.Machine
end

