-- ==== Sys2Proof/Machine/Kennel.lean ====
section
/-! DEFINITION. Kennel (11_faults_and_kennel): the window, the wear table, the scan, records, replay and power failure. -/

namespace Sys2Proof.Machine

/-! ## The window (R331, R332, R336, R340) -/

/-- CRC-32C of bytes. -/
def crcB (bs : List Byte) : Nat := crc32c (natBytes bs)

/-- NSLOTS. -/
def Kennel.nslots (k : Kennel) : Nat := wbits k.geom 16 0
/-- SLOT_LOG2. -/
def Kennel.slotLog (k : Kennel) : Nat := wbits k.geom 28 24
/-- SLOT_SIZE. -/
def Kennel.slotSize (k : Kennel) : Nat := 2 ^ k.slotLog
/-- S0. -/
def Kennel.s0 (k : Kennel) : Nat := k.slotSize * ceilDiv 283776 k.slotSize
/-- Host address of a slot. -/
def Kennel.slotAddr (k : Kennel) (i : Nat) : Nat := k.win + k.s0 + i * k.slotSize
/-- GEOM, window and persist table are usable. -/
def Kennel.geomOk (k : Kennel) : Bool :=
  decide (2 ≤ k.nslots ∧ k.nslots ≤ 65536 ∧ 12 ≤ k.slotLog ∧ k.slotLog ≤ 20 ∧ k.win ≠ 0 ∧ k.pt ≠ 0)

/-- Count of a slot. -/
def Kennel.count (k : Kennel) (i : Nat) : Nat := Sparse.get 0 k.wear i

/-- The wear-table entry of a slot as Kennel holds it. -/
def Kennel.entry (k : Kennel) (i : Nat) : Nat := k.count i % 2 ^ 24 + (if k.retired.contains i then 2 ^ 24 else 0)

/-- A line of the wear table. -/
def Kennel.wearLine (k : Kennel) (l : Nat) : List Byte :=
  let b := (tab 15 fun j => toBytes 4 (if 15 * l + j < k.nslots then k.entry (15 * l + j) else 0)).flatten
  b ++ toBytes 4 (crcB b)

/-- Host address of a wear-table line. -/
def Kennel.lineAddr (k : Kennel) (l : Nat) : Nat := k.win + 4096 + 64 * l

/-- The superblock that the registers describe. -/
def Kennel.superblock (k : Kennel) : List Byte :=
  let b := toBytes 2 0x0100 ++ toBytes 2 0 ++ toBytes 4 k.nslots ++ toBytes 1 k.slotLog ++ toBytes 7 0
    ++ toBytes 8 k.fid.toNat ++ toBytes 36 0
  b ++ toBytes 4 (crcB b)

/-- Reports a condition (R347, R348): KN_ERROR for every code but KN_OK. -/
def State.kn (s : State) (code stream : Nat) : State :=
  ({ s with kennel := { s.kennel with lastErr := word (code + stream % 4096 * 256) } }).raiseIf (code != 0) pgKennel 1

/-- Rewrites Kennel's state. -/
def State.updKennel (s : State) (f : Kennel → Kennel) : State := { s with kennel := f s.kennel }

/-- Writes one line of the wear table. -/
def State.writeWear (s : State) (l : Nat) (mem : MemCode) : State :=
  let k := s.kennel
  let s := (s.hostWriteCode mem (k.lineAddr l) (k.wearLine l)).memCheck mem true (k.lineAddr l) .background
  if mem = .ok then
    s.updKennel fun k => { k with
      changed := k.changed.erase l
      written := (List.range 15).foldl (fun m j => Sparse.set 0 m (15 * l + j) (k.count (15 * l + j))) k.written }
  else s.kn 0x07 0

/-- Notes that a line of the table differs from the window. -/
def Kennel.touchLine (k : Kennel) (i : Nat) : Kennel :=
  { k with changed := if k.changed.contains (i / 15) then k.changed else k.changed ++ [i / 15] }

/-- A write of a slot is counted; a line whose count has grown by 64 since it was written goes to the window (R340). -/
def State.wearSlot (s : State) (i : Nat) (mem : MemCode) : State :=
  let s := s.updKennel fun k => ({ k with wear := Sparse.set 0 k.wear i ((k.count i + 1) % 2 ^ 24) }).touchLine i
  if Sparse.get 0 s.kennel.written i + 64 ≤ s.kennel.count i then s.writeWear (i / 15) mem else s

/-- Retires a slot (R339, R340). -/
def State.retireSlot (s : State) (i : Nat) (mem : MemCode) : State :=
  let s := s.updKennel fun k =>
    let off (x : PidInfo) : PidInfo := { x with backup := if x.backup = some i then none else x.backup }
    ({ k with retired := if k.retired.contains i then k.retired else k.retired ++ [i]
              pids := k.pids.map fun (p, x) => (p, off x) }).touchLine i
  (s.raise pgKennel 2).writeWear (i / 15) mem

/-! ## Slots and targets (R339) -/

/-- Is a slot free: in service, not foreign, and no identity's live slot or backup? -/
def Kennel.isFree (k : Kennel) (i : Nat) : Bool :=
  decide (i < k.nslots) && !k.retired.contains i && !k.foreign.contains i
    && !(k.pids.any fun e => e.2.live == some i || e.2.backup == some i)

/-- The free slots. -/
def Kennel.freeSlots (k : Kennel) : List Nat := (List.range k.nslots).filter k.isFree

/-- The free slot of lowest count, lowest index on ties. -/
def Kennel.bestFree (k : Kennel) : Option Nat :=
  k.freeSlots.foldl (fun b i => match b with
    | none => some i
    | some j => if k.count i < k.count j then some i else b) none

/-- What an identity holds: a retired live slot is still read by a replay, and takes no further record. -/
def Kennel.info (k : Kennel) (pid : Nat) : PidInfo := Sparse.get {} k.pids pid

/-- The target of an identity's next record, and whether it goes without a spare copy. -/
def Kennel.target (k : Kennel) (pid : Nat) : Option (Nat × Bool) :=
  let p := k.info pid
  let live := p.live.filter fun l => !k.retired.contains l
  match k.bestFree with
  | some f =>
    match p.live, p.backup with
    | some _, some b => if k.count f + k.rotDelta ≤ k.count b then some (f, false) else some (b, false)
    | _, _ => some (f, false)
  | none =>
    match p.backup with
    | some b => some (b, false)
    | none => live.map fun l => (l, true)

/-- Chooses a target, retiring those whose count has reached WEAR_LIM. -/
def State.chooseTarget (s : State) (pid : Nat) (mem : MemCode) : Nat → State × Option (Nat × Bool)
  | 0 => (s, none)
  | fuel + 1 =>
    match s.kennel.target pid with
    | none => (s, none)
    | some (i, full) =>
      if s.kennel.wearLim ≤ s.kennel.count i then (s.retireSlot i mem).chooseTarget pid mem fuel
      else (s, some (i, full))

/-! ## Records (R335, R337, R343) -/

/-- A record header. -/
def Kennel.header (k : Kennel) (pid seq frame layout wcnt : Nat) (payload : List Byte) : List Byte :=
  let b := toBytes 2 (0x100 + k.wminor) ++ toBytes 1 1 ++ toBytes 1 0 ++ toBytes 4 payload.length ++ toBytes 8 pid
    ++ toBytes 8 seq ++ toBytes 8 frame ++ toBytes 4 layout ++ toBytes 4 (wcnt % 2 ^ 24) ++ toBytes 8 k.fid.toNat
    ++ toBytes 4 (crcB payload) ++ toBytes 8 0
  b ++ toBytes 4 (crcB b)

/-- Is a version readable (R343)? -/
def krecReadable (v : Nat) : Bool := v == 0x0100

/-- Bytes that power must be held for (R345). -/
def State.bDirty (s : State) : Nat :=
  ((s.kennel.persist.filter fun e => e.2.dirty).map fun e => 64 + e.2.len).foldl (· + ·) 0 + 64 * s.kennel.changed.length

/-- KN_DIRTY while B_dirty exceeds DIRTY_LIM (R345). -/
def State.checkDirty (s : State) : State := s.raiseIf (decide (s.kennel.dirtyLim.toNat < s.bDirty)) pgKennel 4

/-- The record of a member has become durable (R339). -/
def State.durable (s : State) (w : RecWrite) : State :=
  let s := s.updKennel fun k =>
    let p := k.info w.pid
    let prev := p.live.filter fun l => !k.retired.contains l
    let backup := if p.live = some w.slot then p.backup else match prev with | some l => some l | none => p.backup
    let backup := if backup = some w.slot then none else backup
    { k with pids := k.pids.put w.pid { live := some w.slot, backup := backup, seq := w.seq, frame := w.frame
                                        layout := w.layout, len := w.payload.length }
             persist := k.persist.map fun e =>
               if e.2.pid = w.pid then
                 (e.1, { e.2 with dirty := e.2.dirty && decide (w.frame < e.2.frame), kept := some w.frame })
               else e }
  s.kn 0 w.stream

/-- Writes the payload of a member's record to the slot that R339 chooses, and issues its header: the state and the write, unless it
was abandoned. -/
def State.beginRecord (s : State) (stream frame : Nat) (payload : List Byte) (mem : MemCode) : State × Option RecWrite :=
  match s.kennel.persist.find? (·.1 == stream) with
  | none => (s, none)
  | some (_, e) =>
    match s.chooseTarget e.pid mem (s.kennel.nslots + 2) with
    | (s, none) => (s.kn 0x06 stream, none)
    | (s, some (slot, full)) =>
      let s := if full then s.kn 0x06 stream else s
      let s := s.wearSlot slot mem
      let k := s.kennel
      let seq := (k.info e.pid).seq + 1
      let s := s.hostWriteCode mem (k.slotAddr slot + 64) payload
      if mem ≠ .ok then ((s.memErr mem true (k.slotAddr slot + 64) .background).kn 0x07 stream, none)
      else
        let h := k.header e.pid seq frame e.layout (k.count slot) payload
        (s, some ⟨stream, e.pid, slot, seq, frame, e.layout, h, payload, 0⟩)

/-- The header of a record is acknowledged (R337, R339). `check` is whether a read-back is compared; a slot that fails it holds no record
any more. -/
def State.headerAck (s : State) (w : RecWrite) (mem : MemCode) (check verifyOk : Bool) : State × Bool :=
  let a := s.kennel.slotAddr w.slot
  let s := s.hostWriteCode mem a w.header
  if mem ≠ .ok then ((s.memErr mem true a .background).kn 0x07 w.stream, false)
  else if check && !verifyOk then
    ((s.updKennel fun k =>
      let p := k.info w.pid
      { k with pids := k.pids.put w.pid { p with live := if p.live = some w.slot then none else p.live } }).retireSlot w.slot mem, true)
  else (s.durable w, false)

/-! ## Scan (R340, R341) -/

/-- What the scan reads of a slot's header: nothing, a foreign record, or a candidate. -/
structure SlotScan where
  slot : Nat
  foreign : Bool
  pid : Nat
  seq : Nat
  frame : Nat
  layout : Nat
  len : Nat
  wcnt : Nat
  good : Bool
  deriving DecidableEq, Repr

/-- Reads one slot's header, and checks the payload of a candidate. -/
def State.scanSlot (s : State) (i : Nat) : Option SlotScan :=
  let k := s.kennel
  let b := s.hostRead (k.slotAddr i) 64
  let f := fieldAt b
  if crcB (b.take 60) = f 60 4 ∧ f 2 1 = 1 ∧ f 40 8 = k.fid.toNat then
    let foreign := !krecReadable (f 0 2)
    if foreign then some ⟨i, true, 0, 0, 0, 0, 0, f 36 3, false⟩
    else if f 4 4 ≤ k.slotSize - 64 then
      some ⟨i, false, f 8 8, f 16 8, f 24 8, f 32 4, f 4 4, f 36 3, crcB (s.hostRead (k.slotAddr i + 64) (f 4 4)) == f 48 4⟩
    else none
  else none

/-- Inserts by descending SEQ, lower slot first. -/
def insertSeq (x : SlotScan) : List SlotScan → List SlotScan
  | [] => [x]
  | y :: ys => if y.seq < x.seq ∨ (y.seq = x.seq ∧ x.slot < y.slot) then x :: y :: ys else y :: insertSeq x ys

/-- The newest record and the backup of one identity, and whether the search for the two met a torn record. -/
def pidOf (cs : List SlotScan) : PidInfo × Bool :=
  let good := cs.filter (·.good)
  let seq := (cs.map (·.seq)).foldl max 0
  match good with
  | [] => ({ backup := cs.head?.map (·.slot), seq := seq }, !cs.isEmpty)
  | n :: rest =>
    let met := match rest with
      | [] => cs
      | m :: _ => cs.takeWhile fun c => c.slot != m.slot
    let torn' := match rest with
      | [] => (cs.find? fun c => !c.good).map (·.slot)
      | m :: _ => some m.slot
    ({ live := some n.slot, backup := torn', seq := seq, frame := n.frame, layout := n.layout, len := n.len }, met.any fun c => !c.good)

/-- Does a superblock copy pass its own checks? -/
def superValid (b : List Byte) : Bool :=
  crcB (b.take 60) == fieldAt b 60 4 && krecReadable (fieldAt b 0 2) && fieldAt b 2 2 == 0 && fieldAt b 9 7 == 0
    && (((b.drop 24).take 36).all (· == 0))

/-- Does the superblock match the registers (R332)? -/
def State.superMatches (s : State) : Bool :=
  let k := s.kennel
  let c0 := s.hostRead k.win 64
  let c1 := s.hostRead (k.win + 64) 64
  let m (b : List Byte) : Bool :=
    fieldAt b 4 4 == k.nslots && fieldAt b 8 1 == k.slotLog && fieldAt b 16 8 == k.fid.toNat
  if superValid c0 then m c0 else superValid c1 && m c1

/-- Reads the window of a matching superblock: wear table, headers, identities. -/
def State.scanWindow (s : State) : State :=
  let k := s.kennel
  let n := k.nslots
  let lines := tab (ceilDiv n 15) fun l => s.hostRead (k.lineAddr l) 64
  let lineOk (l : Nat) : Bool := match lines[l]? with
    | some b => crcB (b.take 60) == fieldAt b 60 4
    | none => false
  let ent (i : Nat) : Nat := if lineOk (i / 15) then fieldAt (lines.getD (i / 15) []) (4 * (i % 15)) 4 else 0
  let scans := (List.range n).filterMap s.scanSlot
  let wc (i : Nat) : Nat := match scans.find? (·.slot == i) with | some x => x.wcnt | none => 0
  let known (i : Nat) : Nat := max (nbits (ent i) 0 24) (wc i)
  let top := ((List.range n).map known).foldl max 0
  let counts := (List.range n).map fun i => if lineOk (i / 15) then known i else top
  let cand := scans.filter fun x => !x.foreign
  let ids := (cand.map (·.pid)).eraseDups
  let infos := ids.map fun p => (p, pidOf ((cand.filter fun x => x.pid == p).foldl (fun l x => insertSeq x l) []))
  let wear := counts.zipIdx.foldl (fun m (c, i) => Sparse.set 0 m i c) ([] : Sparse Nat)
  let written := (List.range n).foldl (fun m i => Sparse.set 0 m i (nbits (ent i) 0 24)) ([] : Sparse Nat)
  let s := s.updKennel fun k => { k with
    wear := wear
    retired := (List.range n).filter fun i => lineOk (i / 15) && nbits (ent i) 24 2 != 0
    written := written
    changed := (List.range (ceilDiv n 15)).filter fun l => !lineOk l
      || (List.range 15).any fun j => Sparse.get 0 wear (15 * l + j) != Sparse.get 0 written (15 * l + j)
    foreign := (scans.filter (·.foreign)).map (·.slot)
    pids := infos.foldl (fun m (p, x) => m.put p x.1) []
    active := true, scanning := false }
  (((s.raiseIf (infos.any fun x => x.2.2) pgKennel 3).kn 0 0).raise pgKennel 0).checkDirty

/-! ## Persist entries and replay (R333, R334, R342) -/

/-- The persist entry of a stream. -/
def State.persistEntry (s : State) (stream : Nat) : List Byte := s.hostRead (s.kennel.pt + 32 * stream) 32

/-- Does ARM of a group wait for the scan (R420)? -/
def State.armWaits (s : State) (g : Group) : Bool :=
  s.kennel.scanning && g.members.any fun m => nbits (fieldAt (s.persistEntry m.stream) 10 1) 0 2 == 3

/-- Reads the entry of member `j` at ARM, and takes it into force or declines it. -/
def State.persistArm (s : State) (gid : Nat) (g : Group) (j stream : Nat) (mem : MemCode) : State :=
  let b := s.persistEntry stream
  let f := fieldAt b
  let len := (s.payload g j).length
  if mem ≠ .ok then (s.memErr mem false (s.kennel.pt + 32 * stream) .background).kn 0x07 stream
  else if nbits (f 10 1) 0 1 = 0 then s
  else if f 0 8 = 0 ∨ f 8 2 = 0 ∨ 4 ≤ f 10 1 ∨ f 11 1 ≠ 0 ∨ f 24 8 ≠ 0 ∨ f 16 8 % 64 ≠ 0 ∨ 2 ^ 48 ≤ f 16 8
      ∨ s.kennel.persist.any (fun e => e.1 != stream && e.2.pid == f 0 8) = true then s.kn 0x03 stream
  else if s.kennel.slotSize < 64 + len then s.kn 0x04 stream
  else
    let e : Persist :=
      { pid := f 0 8, cadence := f 8 2, replay := nbits (f 10 1) 1 1 == 1, layout := f 12 4, stage := f 16 8, len := len
        gid := gid, member := j }
    s.updKennel fun k => { k with persist := k.persist.put stream e }

/-- Replays the newest record of one member: the state, and the record's frame and payload when it was restored. -/
def State.replayMember (s : State) (g : Group) (j : Nat) (e : Persist) (stream : Nat) : State × Option (Nat × List Byte) :=
  let p := s.kennel.info e.pid
  match p.live with
  | none => (s.kn 0x05 stream, none)
  | some slot =>
    let a := s.kennel.slotAddr slot
    let payload := s.hostRead (a + 64) p.len
    if p.layout ≠ e.layout ∨ p.len ≠ e.len then (s.kn 0x05 stream, none)
    else
      let r := s.installMember g j payload
      if r.2 then
        let seq := s.hostNat (a + 16) 8
        ((r.1.updKennel fun k => { k with pids := k.pids.put e.pid { p with seq := seq } }).kn 0 stream, some (p.frame, payload))
      else (s.kn 0x05 stream, none)

/-- What Kennel does when ARM of a group completes. -/
def State.kennelArm (s : State) (gid : Nat) (mem : MemCode) : State :=
  match s.kennel.active, s.group? gid with
  | true, some g =>
    let s := g.members.zipIdx.foldl (fun t (m, j) => t.persistArm gid g j m.stream mem) s
    let r := g.members.zipIdx.foldl (fun (a : State × Option (Nat × List Byte)) (m, j) =>
      match a.1.kennel.persist.find? (·.1 == m.stream) with
      | some (_, e) =>
        if e.replay then
          let q := a.1.replayMember g j e m.stream
          match q.2, a.2 with
          | some (n, pl), some (n0, _) => (q.1, if n0 < n then some (n, pl) else a.2)
          | some x, none => (q.1, some x)
          | none, _ => (q.1, a.2)
        else a
      | none => a) (s, none)
    match r.2 with
    | some (_, pl) => r.1.updGroup gid fun x => { x with gens := gensOfPayload x.nslot pl }
    | none => r.1
  | _, _ => s

/-- The members of a group no longer persist: it is released, or armed anew. -/
def State.kennelForget (s : State) (gid : Nat) : State :=
  let mine := (s.kennel.persist.filter fun e => e.2.gid == gid).map (·.1)
  s.updKennel fun k => { k with persist := k.persist.filter fun e => e.2.gid != gid
                                snaps := k.snaps.filter fun e => !mine.contains e.1 }

/-- A frame of a group has committed: its persistent members are dirty, and those whose cadence is reached want a snapshot (R338,
R344). -/
def State.kennelCommit (s : State) (gid n : Nat) : State :=
  (s.updKennel fun k => { k with persist := k.persist.map fun e =>
    if e.2.gid = gid then
      (e.1, { e.2 with frame := n, dirty := true, since := e.2.since + 1
                       want := e.2.want || decide (e.2.cadence ≤ e.2.since + 1) })
    else e }).checkDirty

/-! ## Snapshots (R338) -/

/-- The first line with an uncorrectable error under a member's slots, with its core. -/
def State.badSlotLine (s : State) (g : Group) (j : Nat) : Option (Nat × Nat) :=
  (s.memberSlots g j).findSome? fun (c, i) =>
    let k := s.core c
    let b := k.bankLines i
    (k.badLines.find? fun l => l == hBase (k.entry i) || (decide (b.1 ≤ l) && decide (l < b.1 + b.2))).map fun l => (c, l)

/-- The half of a member's staging area that its next snapshot takes: the one that no window write is reading, and of two such the one that
does not hold the newest snapshot. One window write runs at a time, so both are never busy. -/
def State.freeHalf (s : State) (stream : Nat) (e : Persist) : Nat :=
  match s.kennel.writing with
  | some w => if w.stream = stream then 1 - w.half else 1 - e.half
  | none => 1 - e.half

/-- Takes the snapshot that a member wants. -/
def State.snapshot (s : State) (stream : Nat) : State :=
  match s.kennel.persist.find? (·.1 == stream) with
  | none => s
  | some (_, e) =>
    match s.group? e.gid with
    | none => s
    | some g =>
      if !s.kennel.active || !e.want || s.glb.pf || !s.running then s
      else
        match s.badSlotLine g e.member with
        | some (c, l) => s.fault c .spd l 0
        | none =>
          let pl := s.payload g e.member
          let half := s.freeHalf stream e
          let s := s.hostWrite (e.stage + half * s.kennel.slotSize) pl
          s.updKennel fun k => { k with
            snaps := k.snaps.put stream ⟨e.frame, pl, half⟩
            persist := k.persist.put stream { e with want := false, since := 0, half := half } }

/-- The snapshot that the window writer takes: of the lowest stream, and no older than the newest record that the
member has made durable since it was armed. -/
def State.nextSnap (s : State) : Option (Nat × Snap) :=
  s.kennel.snaps.find? fun e =>
    match s.kennel.persist.find? (·.1 == e.1) with
    | some (_, p) => p.kept.all fun n => decide (n ≤ e.2.frame)
    | none => false

/-! ## Control register (R343, R347, R412) -/

/-- Formats the window (R332). -/
def State.formatWindow (s : State) (mem : MemCode) : State :=
  let s := s.updKennel fun k => { k with wear := [], retired := [], written := [], changed := [], pids := [], foreign := [] }
  let k := s.kennel
  let s := s.hostWriteCode mem k.win k.superblock
  if mem ≠ .ok then (s.memErr mem true k.win .background).kn 0x07 0
  else
    let s := s.hostWrite (k.win + 64) k.superblock
    ((List.range 4370).foldl (fun t l => t.hostWrite (k.lineAddr l) (k.wearLine l)) s).kn 0 0

/-- A privileged write of CTRL. A member that persists does so until its group is released, also while EN = 0 (R347). -/
def State.kennelCtrl (s : State) (value : Word) (mem : MemCode) : State :=
  let k := s.kennel
  let en := value.getLsbD 0
  let set (t : State) : State := t.updKennel fun q => { q with verify := value.getLsbD 1, wminor := wbits value 15 8 }
  if en && !s.full then s
  else if wbits value 15 8 ≠ 0 then s.kn 0x08 0
  else if value.getLsbD 2 && (k.en || !k.persist.isEmpty) then s.kn 0x08 0
  else if value.getLsbD 3 && !k.active then s.kn 0x08 0
  else
    let s := set s
    let s := if value.getLsbD 2 then s.formatWindow mem else s
    let s := if value.getLsbD 3 then (s.updKennel fun q => { q with foreign := [] }).kn 0 0 else s
    if en && !k.en then
      if k.geomOk then s.updKennel fun q => { q with en := true, active := false, scanning := true }
      else s.kn 0x01 0
    else if !en && k.en then
      s.updKennel fun q => { q with en := false, active := false, scanning := false, snaps := [], writing := none }
    else s

/-! ## Power failure (R344) -/

/-- Does a frame that has fired still run? -/
def State.framesLeft (s : State) : Bool :=
  s.groups.any fun e => e.2.frames.any fun f => f.phase == .fired || f.phase == .running || f.phase == .ready

/-- Writes the record of a dirty member directly from SPD. -/
def State.finalRecord (s : State) (stream : Nat) (e : Persist) (mem : MemCode) : State :=
  match s.group? e.gid with
  | none => s
  | some g =>
    if (s.badSlotLine g e.member).isSome then s.kn 0x07 stream
    else
      let r := s.beginRecord stream e.frame (s.payload g e.member) mem
      match r.2 with
      | some w => (r.1.headerAck w mem false true).1
      | none => r.1

/-- The final records and the changed lines of the wear table. -/
def State.finalRecords (s : State) (mem : MemCode) : State :=
  let s := if s.kennel.active then
      let s := (s.kennel.persist.filter fun e => e.2.dirty).foldl (fun t e => t.finalRecord e.1 e.2 mem) s
      s.kennel.changed.foldl (fun t l => t.writeWear l mem) s
    else s
  s.updKennel fun k => { k with finals := true }

/-- The engine enters the power-fail state: jobs that do not run are discarded, running ones are to stop, the Retrievers of jobs stop,
and no staging write remains but one whose header is issued. -/
def State.powerFail (s : State) : State :=
  let s := { s with glb := { s.glb with pf := true } }
  let s := s.updKennel fun k => { k with snaps := [], persist := k.persist.map fun e => (e.1, { e.2 with want := false }) }
  let s := s.jobs.foldl (fun t e =>
    if e.2.stage = .running then t.updJob e.1 fun j => { j with abortAt := some (j.abortAt.getD t.fclk) }
    else t.dropJob e.1 e.2) s
  { s with cores := s.cores.map fun e =>
      (e.1, { e.2 with rtvs := e.2.rtvs.map fun x => (x.1, if x.2.be ∧ x.2.st ≠ .idle then x.2.stop else x.2) }) }

/-! ## Meanings -/

/-- Address of KENNEL.CTRL. -/
def knCtrlAddr : Nat := 0x4905C

/-- KENNEL_ENABLE (R347): a write of CTRL. -/
def execKennelEnable (value : Word) (acc : Acc) (s : State) : Host.Outcome State Fault Refusal :=
  done (s.cfgWrite knCtrlAddr acc fun t => t.kennelCtrl value .ok)

/-- FORMAT (R332): a write of CTRL. -/
def execFormat (value : Word) (acc : Acc) (mem : MemCode) (s : State) : Host.Outcome State Fault Refusal :=
  done (s.cfgWrite knCtrlAddr acc fun t => t.kennelCtrl value mem)

/-- FREE_FOREIGN (R341): a write of CTRL. -/
def execFreeForeign (value : Word) (acc : Acc) (s : State) : Host.Outcome State Fault Refusal :=
  done (s.cfgWrite knCtrlAddr acc fun t => t.kennelCtrl value .ok)

/-- KENNEL_SCAN (R341). -/
def execKennelScan (mem : MemCode) (s : State) : Host.Outcome State Fault Refusal :=
  done (if s.kennel.scanning && s.running then
      if mem ≠ .ok then
        ((s.updKennel fun k => { k with scanning := false }).memErr mem false s.kennel.win .background).kn 0x07 0
      else if s.superMatches then s.scanWindow
      else (s.updKennel fun k => { k with scanning := false }).kn 0x02 0
    else s)

/-- KENNEL_SNAPSHOT (R338). -/
def execKennelSnapshot (stream : Nat) (s : State) : Host.Outcome State Fault Refusal := done (s.snapshot stream)

/-- KENNEL_RECORD_WRITE (R337): the payload of the next record, then its header is issued. -/
def execKennelRecordWrite (mem : MemCode) (s : State) : Host.Outcome State Fault Refusal :=
  done (if s.kennel.active && s.kennel.writing.isNone && !s.glb.pf && s.running then
      match s.nextSnap with
      | some (stream, n) =>
        let r := s.beginRecord stream n.frame n.payload mem
        match r.2 with
        | some w => (r.1.updKennel fun k => { k with writing := some { w with half := n.half } }).checkDirty
        | none => (r.1.updKennel fun k => { k with snaps := k.snaps.del stream }).checkDirty
      | none => s
    else s)

/-- KENNEL_HEADER_ACK (R337): the header is acknowledged; a read-back that differs retires the slot, and the record is written again. -/
def execKennelHeaderAck (mem : MemCode) (verifyOk : Bool) (s : State) : Host.Outcome State Fault Refusal :=
  done (match s.kennel.writing with
    | some w =>
      let r := (s.updKennel fun k => { k with writing := none }).headerAck w mem (s.kennel.verify && !s.glb.pf) verifyOk
      let newer := match r.1.kennel.snaps.find? (·.1 == w.stream) with | some (_, n) => decide (w.frame < n.frame) | none => true
      (if r.2 || newer then r.1 else r.1.updKennel fun k => { k with snaps := k.snaps.del w.stream }).checkDirty
    | none => s)

/-- PF_NOTICE (R344). -/
def execPfNotice (s : State) : Host.Outcome State Fault Refusal :=
  done (if s.running && !s.glb.pf then s.powerFail else s)

/-- PF_FINAL_RECORDS (R344): after the last frame has committed or been discarded. -/
def execPfFinalRecords (mem : MemCode) (s : State) : Host.Outcome State Fault Refusal :=
  done (if s.glb.pf && !s.kennel.finals && !s.framesLeft && s.kennel.writing.isNone then s.finalRecords mem else s)

/-- PF_DONE (R344). -/
def execPfDone (s : State) : Host.Outcome State Fault Refusal :=
  done (if s.glb.pf && s.kennel.finals && !s.kennel.pfDone then
      (s.updKennel fun k => { k with pfDone := true }).raise pgKennel 5
    else s)

end Sys2Proof.Machine
end

