-- ==== Sys2Proof/Machine/Tables.lean ====
section
/-! DEFINITION. The tables and small engines of a core and a pack (07_scratchpad_and_movement, 04_gate_pipeline_functions,
15_register_map): handle and Collar entries, segments, FX loads, histograms, residency-map invalidation, remote reads and
writes, and handle queues. -/

namespace Sys2Proof.Machine

/-- Address of a word of a core's page. -/
def coreAddr (core off : Nat) : Nat := if core < 32 then 0x20000 + 0x1000 * core + off else noAddr

/-! ## Handle and Collar entries (R203 to R207, R210) -/

/-- Segments that the lines `base` to `base + len` touch. -/
def segsOf (base len : Nat) : List Nat := (List.range 8).filter fun s => decide (base < 8192 * (s + 1)) && decide (8192 * s ≤ base + len)

/-- Fields of a Collar. -/
def colEn (e : DWord) : Bool := e.getLsbD 0
/-- SRC. -/
def colSrc (e : DWord) : Nat := wbits e 2 1

/-- The checks of R206 on a committed word pair, in their order. -/
def tblCode (k : Core) (collar : Bool) (i : Nat) (e : DWord) : Nat :=
  let b := hBase e
  let l := hLen e
  let diag := !collar && (hLayout e == 1 || hLayout e == 2)
  if !collar && i == 0 then 1
  else if k.held.isSome then 2
  else if hValid e = false then 0
  else if !collar && decide (8 ≤ hFmt e) then 3
  else if 65535 < b + l then 4
  else if (diag && (b % 512 != 0 || (l + 1) % 512 != 0 || !(hFmt e == 1 || hFmt e == 2))) || (collar && colSrc e == 3) then 5
  else if (segsOf b l).any (fun s => !k.segUp.getLsbD s) then 6
  else 0

/-- Does a commit hold while accesses through the old content are outstanding (R207)? -/
def mustHold (old new : DWord) : Bool :=
  hValid old && decide ((old ||| 0xF2#64) ≠ (new ||| 0xF2#64))

/-- Bit 63: an SPD endpoint. -/
def epSpd (e : DWord) : Bool := e.getLsbD 63
/-- Core of an SPD endpoint. -/
def epCore (e : DWord) : Nat := wbits e 52 48
/-- Handle reference of an SPD endpoint. -/
def epRef (e : DWord) : Nat := wbits e 47 32
/-- Byte offset of an SPD endpoint. -/
def epOff (e : DWord) : Nat := wbits e 22 0

/-- Is an access through a handle outstanding: a started Retriever instruction, or a MOVE that waits for its remote read, which
holds its source and its local destination? -/
def State.accessOut (s : State) (c i : Nat) : Bool :=
  s.cores.any fun e =>
    (e.2.rtvs.any fun r => match r.2.cur with
      | some m => refIdx m.ref == i && (landCores e.1 m.mcast).contains c
      | none => false)
    || (match e.2.csq.rread with
      | some q => q.core == c && refIdx q.ref == i
          || (e.1 == c && nbits q.word 227 1 == 0 && refIdx (IWord.by q.word 6 2) == i)
      | none => false)

/-- Is an access through a handle outstanding, a DMA burst in flight among them (R207)? -/
def State.handleInUse (s : State) (c i : Nat) : Bool :=
  let at_ (e : DWord) : Bool := epSpd e && epCore e == c && refIdx (epRef e) == i
  s.accessOut c i || s.dma.any fun e => e.2.running && (at_ e.2.actSrc || at_ e.2.actDst)

/-- A commit takes effect: the entry, the object entry of a changed generation, and the RECLAIM that waited. -/
def State.applyCommit (s : State) (c : Nat) (h : HeldCommit) : State :=
  let old := Sparse.get (0 : DWord) (s.core c).handles h.index
  let s := s.updCore c fun k =>
    if h.collar then { k with collars := k.collars.set 0 h.index h.value, held := none }
    else { k with handles := k.handles.set 0 h.index h.value, held := none }
  let s := if !h.collar && hGen old != hGen h.value then s.renewObj (objIdx c h.index) (hGen old) else s
  match h.reclaim with
  | some r => s.headOk r
  | none => s

/-- Commits an entry at once, or holds it (R207). -/
def State.commitEntry (s : State) (c : Nat) (h : HeldCommit) : State :=
  let old := Sparse.get (0 : DWord) (s.core c).handles h.index
  if !h.collar && mustHold old h.value && s.handleInUse c h.index then s.updCore c fun k => { k with held := some h }
  else s.applyCommit c h

/-- A privileged write of word 1: validates it with the staged word 0 and commits both (R206). -/
def State.tableWrite (s : State) (c : Nat) (collar : Bool) (i : Nat) (value : Word) : State :=
  let k := s.core c
  let w0 := Sparse.get (0 : Word) (if collar then k.cstage else k.hstage) i
  let e : DWord := value ++ (if collar then w0 &&& 0xFFFF0007#32 else w0)
  let code := tblCode k collar i e
  let s := s.updCore c fun k => { k with tblStat := word (code * 16 + i * 256 + 65536 * b2n collar) }
  if code = 0 then s.commitEntry c ⟨collar, i, e, none⟩ else s

/-- TBL_STAT as it reads: BUSY while a commit holds. -/
def Core.tblStatRead (k : Core) : Word := k.tblStat ||| word (b2n k.held.isSome)

/-- A privileged write of SEG_PWR (R203). -/
def State.segWrite (s : State) (c : Nat) (value : Word) : State :=
  s.updCore c fun k =>
    let new : BitVec 8 := value.truncate 8
    let off := (List.range 8).filter fun i => k.segPwr.getLsbD i && !new.getLsbD i
    let uses (e : DWord) : Bool := hValid e && (segsOf (hBase e) (hLen e)).any off.contains
    if k.handles.any (fun e => uses e.2) || k.collars.any (fun e => uses e.2) then { k with segRefused := true }
    else { k with segPwr := new, segUp := k.segUp &&& new, segRefused := false }

/-- Power-up of the segments that SEG_PWR powers ends: each is zeroed with valid check bits. -/
def Core.segmentsUp (k : Core) : Core :=
  let rise := (List.range 8).filter fun i => k.segPwr.getLsbD i && !k.segUp.getLsbD i
  { k with segUp := k.segUp ||| k.segPwr
           spd := k.spd.filter fun e => !rise.contains (e.1 / 524288)
           bad := k.bad.filter fun l => !rise.contains (l / 131072)
           toWrite := k.toWrite.filter fun l => !rise.contains (l / 8192) }

/-! ## FX loads (R113, R119, R131) -/

/-- Ends an FX load with a result. -/
def State.fxEnd (s : State) (c slot code : Nat) : State :=
  (s.updCore c fun k => { k with fxStat := word (slot * 16 + code * 256) }).raise (pgCore c) 12

/-- A privileged write of FX_LOAD: a load starts, or is refused with TABLE_BUSY. -/
def State.fxStart (s : State) (c : Nat) (value : Word) (acc : Acc) : State :=
  let slot := wbits value 19 16
  let k := s.core c
  if (k.fxSlot slot).pin || k.fxJob.isSome || !s.full then s.fxEnd c slot 3
  else s.updCore c fun k => { k with fxJob := some (slot, wbits value 15 0, acc.ctx)
                                     fxStat := word (slot * 16 + wbits k.fxStat 15 8 * 256) }

/-- The running load completes. -/
def State.fxFinish (s : State) (c : Nat) : State :=
  let k := s.core c
  match k.fxJob with
  | none => s
  | some (slot, ref, ctx) =>
    let s := s.updCore c fun k => { k with fxJob := none }
    if k.refGood ctx.toNat ref then
      let e := k.entry ref
      let n := min (hExt e) 4160
      let r := loadImage k.fxContent ((k.rd e 0 n).map BitVec.toNat) (hExt e)
      let s := if r.1 = .ok then
          s.updCore c fun q => { q with fx := q.fx.put slot { q.fxSlot slot with content := r.2, rom := false } }
        else s
      s.fxEnd c slot r.1.code
    else s.fxEnd c slot LoadCode.handle.code

/-- Writing 1 to bit s of HIST_CLR zeroes every counter of set s (R131). -/
def Core.histClear (k : Core) (value : Word) : Core :=
  { k with hist := k.hist.filter fun e => !(decide (e.1 / 68 < 4) && value.getLsbD (e.1 / 68)) }

/-! ## Residency-map invalidation (R221) -/

/-- A privileged write of RMC_INV_CNT. -/
def State.rmcInvalidate (s : State) (p : Nat) (value : Word) : State :=
  let x := s.pack p
  let n := wbits value 21 0
  if x.rmcBusy ∨ n = 0 then s
  else
    let hit (b : RmcBlock) : Bool := decide (x.rmcPage < 8 * (b.group + 1)) && decide (8 * b.group < x.rmcPage + n)
    s.updPack p fun y =>
      { y with rmcBusy := true
               rmc := (y.rmc.filter fun b => !hit b || decide (0 < b.locks)).map fun b =>
                 if hit b then { b with entries := s.rmapLine b.group } else b }

/-- Has every line request of a pack that was translated completed? -/
def State.rmcQuiet (s : State) (p : Nat) : Bool :=
  !(s.cores.any fun e => packOf e.1 == p && e.2.rtvs.any fun r => r.2.flight.any fun l => l.space && l.data.isNone)

/-! ## Remote access (R205, R209 to R211) -/

/-- Why a Collar refuses a write from a core (COLLAR_REJ.WHY), or none. -/
def collarWhy (e : DWord) (ctx : BitVec 16) (rows : List (Nat × List Byte)) : Option Nat :=
  if colEn e = false then some 0
  else if colSrc e = 1 then some 2
  else if hCtx e ≠ ctx.toNat then some 1
  else if rows.any (fun r => decide (hExt e < r.1 + r.2.length)) then some 3
  else none

/-- A refused remote write (R211). -/
def State.collarRefuse (s : State) (dest collar src why : Nat) (ctx : BitVec 16) (peer : Bool) : State :=
  (s.updCore dest fun k =>
    let entry := word (1 + 2 * collar + 32 * src + 1024 * b2n peer + 2048 * why + 65536 * ctx.toNat)
    if k.collarRej.getLsbD 0 then k else { k with collarRej := entry }).raise (pgCore dest) 9

/-- An accepted remote write lands in full; a copied stochastic mark marks the entries that the bytes lie in. -/
def State.collarLand (s : State) (w : RemoteWrite) : State :=
  let k := s.core w.dest
  let e := Sparse.get (0 : DWord) k.collars w.collar
  let base := 64 * hBase e
  let k := w.rows.foldl (fun q (off, bs) =>
    bs.zipIdx.foldl (fun q (b, i) =>
      ({ q with spd := q.spd.setByte (base + off + i) b, wlog := (base + off + i) :: q.wlog } : Core)) q) k
  let lines := (k.wlog.map (· / 64)).eraseDups
  let k := if w.smark then
      (k.handles.filter fun h => hValid h.2 && lines.any fun l => decide (hBase h.2 ≤ l) && decide (l ≤ hBase h.2 + hLen h.2)).foldl
        (fun q h => q.setSmark h.1 true) k
    else k
  let bytes := k.wlog
  let s := (s.setCore w.dest k).landWrites w.dest
  match w.run with
  | .frame gid n _ => s.tapEgress w.dest gid n bytes
  | _ => s

/-- A remote write arrives at its destination. -/
def State.remoteArrive (s : State) (w : RemoteWrite) : State :=
  let s := { s with rwrites := s.rwrites.erase w }
  let ack (ok : Bool) : RemoteAck := ⟨w.src, ok, w.pc, w.epoch⟩
  match collarWhy (Sparse.get (0 : DWord) (s.core w.dest).collars w.collar) w.ctx w.rows with
  | none => let t := s.collarLand w; { t with racks := t.racks ++ [ack true] }
  | some why =>
    let t := s.collarRefuse w.dest w.collar w.src why w.ctx false
    { t with racks := t.racks ++ [ack false] }

/-- An acknowledgement or refusal reaches the source core; a refusal fails the MOVE of the run that sent it (R182, R193). -/
def State.remoteAck (s : State) (a : RemoteAck) : State :=
  let s := { s with racks := s.racks.erase a }
  let s := s.updCore a.core fun k => { k with csq := { k.csq with remote := k.csq.remote - 1 } }
  if !a.ok && a.epoch == (s.core a.core).csq.epoch && (s.core a.core).csq.run != .idle then
    s.failRun a.core stBounds (32 * a.pc) .program
  else s

/-- The remote read that a MOVE waits for returns its rows (R182, R209). -/
def State.remoteFetch (s : State) (c : Nat) (q : RemoteRead) : State :=
  let k := s.core q.core
  let e := k.entry q.ref
  let w := q.word
  let n := IWord.by w 10 2
  match k.badLines.find? fun l => (moveRows w).any fun r => (List.range (n / 64 + 2)).any fun i =>
      hPhys e (r.1 + min (64 * i) (n - 1)) / 64 == l with
  | some l => s.faultFor (s.core c).csq.run q.core .spd l 0
  | none =>
    let rows := (moveRows w).map fun (a, b) => (b, k.rd e a n)
    let s := s.updCore c fun x => { x with csq := { x.csq with rread := none } }
    ((s.moveOut c w rows (hSmark e)).landWrites c).nextInstr c

/-! ## Handle queues (R433) -/

/-- Does a QPOP of a queue wait? -/
def State.qpopWaits (s : State) (q : Nat) : Bool :=
  s.cores.any fun e =>
    e.2.csq.waiting.isSome &&
      (let w := e.2.progWord e.2.csq.prog e.2.csq.pc
       IWord.opc w == some .qpop && nbits w 64 6 == q)

/-- A privileged write of HQ[q]. -/
def State.hqAssign (s : State) (q : Nat) (value : Word) : State :=
  let h := s.hq q
  if !h.tokens.isEmpty ∨ h.rsv ≠ 0 ∨ s.qpopWaits q = true then s
  else s.updHq q fun x => { x with ctx := value.truncate 16, en := value.getLsbD 16 }

/-! ## Meanings -/

/-- HANDLE_WORD0 (R206): stages word 0. -/
def execHandleWord0 (core index : Nat) (value : Word) (acc : Acc) (s : State) : Host.Outcome State Fault Refusal :=
  done (s.cfgWrite (if index < 256 then coreAddr core (0x100 + 8 * index) else noAddr) acc fun t =>
    t.updCore core fun k => { k with hstage := k.hstage.set 0 index value })

/-- HANDLE_WORD1 (R206). -/
def execHandleWord1 (core index : Nat) (value : Word) (acc : Acc) (s : State) : Host.Outcome State Fault Refusal :=
  done (s.cfgWrite (if index < 256 then coreAddr core (0x104 + 8 * index) else noAddr) acc fun t =>
    t.tableWrite core false index value)

/-- COLLAR_WORD0 (R210): stages word 0. -/
def execCollarWord0 (core index : Nat) (value : Word) (acc : Acc) (s : State) : Host.Outcome State Fault Refusal :=
  done (s.cfgWrite (if index < 16 then coreAddr core (0x900 + 8 * index) else noAddr) acc fun t =>
    t.updCore core fun k => { k with cstage := k.cstage.set 0 index value })

/-- COLLAR_WORD1 (R210). -/
def execCollarWord1 (core index : Nat) (value : Word) (acc : Acc) (s : State) : Host.Outcome State Fault Refusal :=
  done (s.cfgWrite (if index < 16 then coreAddr core (0x904 + 8 * index) else noAddr) acc fun t =>
    t.tableWrite core true index value)

/-- TABLE_COMMIT (R207): a held commit takes effect once no access through the old content is outstanding. -/
def execTableCommit (core : Nat) (s : State) : Host.Outcome State Fault Refusal :=
  done (match (s.core core).held with
    | some h => if s.handleInUse core h.index then s else s.applyCommit core h
    | none => s)

/-- SEG_PWR_WRITE (R203). -/
def execSegPwrWrite (core : Nat) (value : Word) (acc : Acc) (s : State) : Host.Outcome State Fault Refusal :=
  done (s.cfgWrite (coreAddr core 0x9C) acc fun t => t.segWrite core value)

/-- SEGMENT_UP (R203). -/
def execSegmentUp (core : Nat) (s : State) : Host.Outcome State Fault Refusal :=
  done (if s.coreOn core then s.updCore core Core.segmentsUp else s)

/-- FX_LOAD (R113). -/
def execFxLoad (core : Nat) (value : Word) (acc : Acc) (s : State) : Host.Outcome State Fault Refusal :=
  done (s.cfgWrite (coreAddr core 0x58) acc fun t => t.fxStart core value acc)

/-- FX_LOAD_COMPLETE (R119). -/
def execFxLoadComplete (core : Nat) (s : State) : Host.Outcome State Fault Refusal := done (s.fxFinish core)

/-- HIST_CLR (R131). -/
def execHistClr (core : Nat) (value : Word) (acc : Acc) (s : State) : Host.Outcome State Fault Refusal :=
  done (s.cfgWrite (coreAddr core 0x84) acc fun t => t.updCore core fun k => k.histClear value)

/-- Address of a word of a pack's page. -/
def packAddr (p off : Nat) : Nat := if p < 8 then 0x10000 + 0x1000 * p + off else noAddr

/-- RMC_INV_CNT (R221). -/
def execRmcInvCnt (pack : Nat) (value : Word) (acc : Acc) (s : State) : Host.Outcome State Fault Refusal :=
  done (s.cfgWrite (packAddr pack 0x44) acc fun t => t.rmcInvalidate pack value)

/-- RMC_INV_DONE (R221): BUSY clears once every request translated through an old entry has completed. -/
def execRmcInvDone (pack : Nat) (s : State) : Host.Outcome State Fault Refusal :=
  done (if (s.pack pack).rmcBusy && s.rmcQuiet pack then s.updPack pack fun x => { x with rmcBusy := false } else s)

/-- REMOTE_WRITE_ARRIVAL (R211): the oldest request from one core to another. -/
def execRemoteWriteArrival (source dest : Nat) (s : State) : Host.Outcome State Fault Refusal :=
  done (match s.rwrites.find? fun w => w.src == source && w.dest == dest with
    | some w => s.remoteArrive w
    | none => s)

/-- REMOTE_WRITE_ACK (R209). -/
def execRemoteWriteAck (core : Nat) (s : State) : Host.Outcome State Fault Refusal :=
  done (match s.racks.find? fun a => a.core == core with
    | some a => s.remoteAck a
    | none => s)

/-- REMOTE_READ (R209): it takes effect after every earlier remote write of the core to the same destination. -/
def execRemoteRead (core : Nat) (s : State) : Host.Outcome State Fault Refusal :=
  done (match (s.core core).csq.rread with
    | some q => if s.rwrites.any (fun w => w.src == core && w.dest == q.core) then s else s.remoteFetch core q
    | none => s)

/-- HQ_WRITE (R433). -/
def execHqWrite (queue : Nat) (value : Word) (acc : Acc) (s : State) : Host.Outcome State Fault Refusal :=
  done (s.cfgWrite (if queue < 64 then 0x300 + 4 * queue else noAddr) acc fun t => t.hqAssign queue value)

end Sys2Proof.Machine
end

