-- ==== Sys2Proof/Machine/Dma.lean ====
section
/-! DEFINITION. Bulk DMA (07_scratchpad_and_movement): arming, starting, bursts, aborts. -/

namespace Sys2Proof.Machine

/-! ## Endpoints (R223) -/

/-- Are the reserved bits zero, and does the core exist? -/
def State.epOk (s : State) (e : DWord) : Bool :=
  if epSpd e then wbits e 31 23 == 0 && wbits e 62 53 == 0 && decide (epCore e < s.conf.cores) else wbits e 62 48 == 0

/-- The reference of an SPD endpoint fails: its code, or 0. A core whose domain is off holds no valid handle. -/
def State.epCode (s : State) (ctx : Nat) (e : DWord) : Nat :=
  if epSpd e then
    let k := s.core (epCore e)
    if !s.coreOn (epCore e) || refNull (epRef e) || k.refBad ctx (epRef e) then 5 else if k.refStale (epRef e) then 6 else 0
  else 0

/-- Bytes that a side touches from its endpoint on: one burst when it is fixed. -/
def epSpan (fixed : Bool) (len : Nat) : Nat := if fixed then min 512 len else len

/-- Does the range of an SPD endpoint exceed its extent? -/
def State.epOver (s : State) (e : DWord) (fixed : Bool) (len : Nat) : Bool :=
  epSpd e && decide (hExt ((s.core (epCore e)).entry (epRef e)) < epOff e + epSpan fixed len)

/-- Does a write of `n` bytes at an endpoint touch a state slot of an admitted stream, which R223 forbids? -/
def State.epSlot (s : State) (e : DWord) (n : Nat) : Bool :=
  let c := epCore e
  let h := (s.core c).entry (epRef e)
  let r := if hLayout h = 1 ∨ hLayout h = 2 then (hBase h, hBase h + hLen h)
    else (hBase h + epOff e / 64, hBase h + (epOff e + n - 1) / 64)
  epSpd e && s.groups.any fun g => g.2.live && g.2.allCores.contains c && (s.groupSlots g.2 c).any fun i =>
    let q := (s.core c).entry i
    decide (hBase q ≤ r.2) && decide (r.1 ≤ hBase q + hLen q)

/-- The code of a destination: its reference, and the default rejection of a write to a state slot in use (R16; DEDUCED, log 83). -/
def State.epDstCode (s : State) (ctx : Nat) (e : DWord) (n : Nat) : Nat :=
  let b := s.epCode ctx e
  if b = 0 ∧ s.epSlot e n = true then 5 else b

/-- Reads bytes at an endpoint. -/
def State.epRead (s : State) (e : DWord) (n : Nat) : List Byte :=
  if epSpd e then let k := s.core (epCore e); k.rd (k.entry (epRef e)) (epOff e) n
  else s.hostRead (wbits e 47 0) n

/-- Writes bytes at an endpoint; a write into SPD clears SMARK (R205). -/
def State.epWrite (s : State) (e : DWord) (bs : List Byte) (mem : MemCode) : State :=
  if epSpd e then
    let c := epCore e
    (s.updCore c fun k => (k.wr (k.entry (epRef e)) (epOff e) bs).setSmark (refIdx (epRef e)) false).landWrites c
  else s.hostWriteCode mem (wbits e 47 0) bs

/-- A line with an uncorrectable error under the source of a burst. -/
def State.epBad (s : State) (e : DWord) (n : Nat) : Option (Nat × Nat) :=
  if epSpd e then
    let k := s.core (epCore e)
    (k.badLines.find? fun l => (List.range (n / 64)).any fun i => hPhys (k.entry (epRef e)) (epOff e + 64 * i) / 64 == l).map
      fun l => (epCore e, l)
  else none

/-! ## Transfers (R224 to R226) -/

/-- The channel whose transfer runs. -/
def State.dmaRunning (s : State) : Option Nat := (s.dma.find? fun e => e.2.running).map (·.1)

/-- Ends a transfer: code, RESIDUE, and its event; a code other than OK and ABORTED fills FIRST_ERR (R431). -/
def State.dmaEnd (s : State) (c code residue : Nat) : State :=
  let s := s.updChan c fun x => { x with running := false, aborting := false, code := code, residue := word residue }
  if code = 1 then s.raise pgDma (8 + c) else s.raiseAs pgDma c (code != 0)

/-- A privileged write of CH_CTRL: the shadow fields, and ARM queues the shadow set. -/
def State.chCtrlWrite (s : State) (c : Nat) (value : Word) : State :=
  let q := value.getLsbD 0 && !(s.chan c).arm
  let s := s.updChan c fun x => { x with smode := value.getLsbD 1, dmode := value.getLsbD 2, ien := value.getLsbD 3
                                         ctx := BitVec.ofNat 16 (wbits value 31 16), arm := x.arm || q }
  if q then { s with dmaQueue := s.dmaQueue ++ [c] } else s

/-- The first check that a shadow set fails at its start. -/
def State.dmaCheck (s : State) (x : DmaChan) : Nat :=
  let n := x.len.toNat
  if !s.epOk x.src || !s.epOk x.dst then 2
  else if n = 0 ∨ n % 64 ≠ 0 then 3
  else if wbits x.src 5 0 ≠ 0 ∨ wbits x.dst 5 0 ≠ 0 then 4
  else
    let a := s.epCode x.ctx.toNat x.src
    let b := s.epDstCode x.ctx.toNat x.dst (epSpan x.dmode n)
    if a = 5 ∨ b = 5 then 5 else if a = 6 ∨ b = 6 then 6
    else if s.epOver x.src x.smode n || s.epOver x.dst x.dmode n then 7 else 0

/-- The oldest queued transfer starts, once no other runs. -/
def State.dmaStart (s : State) : State :=
  match s.dmaRunning, s.dmaQueue with
  | none, c :: rest =>
    let x := s.chan c
    let s := { s with dmaQueue := rest }
    let s := s.updChan c fun y =>
      { y with arm := false, actSrc := y.src, actDst := y.dst, actLen := y.len, actSmode := y.smode, actDmode := y.dmode
               actCtx := y.ctx }
    let code := s.dmaCheck x
    if code ≠ 0 then s.dmaEnd c code x.len.toNat
    else s.updChan c fun y => { y with running := true, aborting := false, issued := s.fclk }
  | _, _ => s

/-- A held commit that waited for a burst takes effect before the next one (R207). -/
def State.betweenBursts (s : State) (e : DWord) : State :=
  match (s.core (epCore e)).held with
  | some h => if epSpd e && !s.accessOut (epCore e) h.index then s.applyCommit (epCore e) h else s
  | none => s

/-- The reads of a burst from memory return (R380): one line for each 64 bytes. -/
def State.burstLatency (s : State) (x : DmaChan) (n : Nat) (mem : MemCode) : State :=
  if epSpd x.actSrc ∨ mem = .timeout then s else s.noteLat (s.fclk - x.issued) (n / 64)

/-- One burst of the running transfer. -/
def State.dmaBurst (s : State) (c : Nat) (mem : MemCode) : State :=
  let x := s.chan c
  let n := min 512 x.actLen.toNat
  let a := s.epCode x.actCtx.toNat x.actSrc
  let b := s.epDstCode x.actCtx.toNat x.actDst n
  if a ≠ 0 ∨ b ≠ 0 then s.dmaEnd c (if a = 5 ∨ b = 5 then 5 else 6) x.actLen.toNat
  else
    match s.epBad x.actSrc n with
    | some (k, l) => (s.faultFor .idle k .spd l 0).dmaEnd c 8 x.actLen.toNat
    | none =>
      let s := s.burstLatency x n mem
      let hostSide := !epSpd x.actSrc || !epSpd x.actDst
      let err := mem ≠ .ok ∧ hostSide = true
      let bs := s.epRead x.actSrc n
      let s := if err ∧ epSpd x.actDst = true then s else s.epWrite x.actDst bs mem
      if err then
        let side := if epSpd x.actDst then x.actSrc else x.actDst
        (s.memErr mem (!epSpd x.actDst) (wbits side 47 0) .best).dmaEnd c 8 x.actLen.toNat
      else
        let left := x.actLen.toNat - n
        let s := s.updChan c fun y =>
          { y with actSrc := if y.actSmode then y.actSrc else y.actSrc + dword n
                   actDst := if y.actDmode then y.actDst else y.actDst + dword n
                   actLen := word left, issued := s.fclk }
        let s := (s.betweenBursts x.actSrc).betweenBursts x.actDst
        if left = 0 then s.dmaEnd c 0 0 else if x.aborting then s.dmaEnd c 1 left else s

/-- A privileged write of CH_ABORT (R226). -/
def State.chAbortWrite (s : State) (c : Nat) (value : Word) : State :=
  let x := s.chan c
  let drop (t : State) : State :=
    ({ t with dmaQueue := t.dmaQueue.erase c }).updChan c fun y => { y with arm := false }
  let s := if value.getLsbD 0 then
      if x.running then s.updChan c fun y => { y with aborting := true }
      else if x.arm then (drop s).dmaEnd c 1 x.len.toNat
      else s
    else s
  if value.getLsbD 1 && (s.chan c).arm then drop s else s

/-- Address of a word of a channel's block. -/
def chAddr (c off : Nat) : Nat := if c < 8 then 0x7100 + 0x40 * c + off else noAddr

/-! ## Meanings -/

/-- CH_ARM (R224): a write of CH_CTRL. -/
def execChArm (channel : Nat) (value : Word) (acc : Acc) (s : State) : Host.Outcome State Fault Refusal :=
  done (s.cfgWrite (chAddr channel 0x14) acc fun t => t.chCtrlWrite channel value)

/-- DMA_TRANSFER_START (R225). -/
def execDmaTransferStart (s : State) : Host.Outcome State Fault Refusal := done (if s.running then s.dmaStart else s)

/-- DMA_BURST (R225). -/
def execDmaBurst (mem : MemCode) (s : State) : Host.Outcome State Fault Refusal :=
  done (match s.dmaRunning with
    | some c => s.dmaBurst c mem
    | none => s)

/-- CH_ABORT_ACTIVE (R226): a write of CH_ABORT. -/
def execChAbortActive (channel : Nat) (value : Word) (acc : Acc) (s : State) : Host.Outcome State Fault Refusal :=
  done (s.cfgWrite (chAddr channel 0x34) acc fun t => t.chAbortWrite channel value)

/-- CH_ABORT_SHADOW (R226): a write of CH_ABORT. -/
def execChAbortShadow (channel : Nat) (value : Word) (acc : Acc) (s : State) : Host.Outcome State Fault Refusal :=
  done (s.cfgWrite (chAddr channel 0x34) acc fun t => t.chAbortWrite channel value)

end Sys2Proof.Machine
end

