-- ==== Sys2Proof/Machine/Groups.lean ====
section
/-! DEFINITION. The rows of rings and descriptors (10_host_objects, 08_time_and_admission): doorbells, RING_CMD, fetch, acceptance
and completion, admission, queries, reclaim, fences, control commands and object records. -/

namespace Sys2Proof.Machine

/-! ## RESERVE (R244 to R246, R254) -/

/-- The page ranges of a list: first page and count. -/
def State.pageList (s : State) (a n : Nat) : List (Nat × Nat) :=
  tab n fun i => let w := s.hostNat (a + 8 * i) 8; (nbits w 0 21, nbits w 21 21 + 1)

/-- Are the reserved bits of a page list zero, and do its ranges lie in the weight space? -/
def State.pageListOk (s : State) (a n : Nat) : Bool :=
  (List.range n).all fun i =>
    let w := s.hostNat (a + 8 * i) 8
    nbits w 42 22 == 0 && decide (nbits w 0 21 + nbits w 21 21 + 1 ≤ 2 ^ 21)

/-- Packs that a PACKS byte allows. -/
def Conf.allowed (c : Conf) (packs : Nat) : List Nat :=
  (List.range c.packs).filter fun p => packs == 0 || nbits packs p 1 == 1

/-- Does a group record keep R239, R241, R244 and R412? `b` is the record with its member entries. -/
def State.recordOk (s : State) (b : List Byte) : Bool :=
  let f := fieldAt b
  let flags := f 2 1
  let block := nbits flags 0 1 == 1
  let nmem := f 4 2
  decide (f 0 2 = 0x0100 ∧ flags < 8 ∧ f 3 1 < 8 ∧ 1 ≤ nmem ∧ nmem ≤ 512 ∧ 1 ≤ f 8 4 ∧ 1 ≤ f 16 1 ∧ f 16 1 ≤ 4 ∧ f 19 1 < 3)
    && (if block then decide (8 ≤ f 6 2 ∧ f 6 2 ≤ 4096 ∧ f 8 4 % f 6 2 = 0) && s.full else f 6 2 == 1)
    && !(nbits flags 2 1 == 1 && (block || f 16 1 != 1))
    && !(s.conf.allowed (f 18 1)).isEmpty
    && decide (f 24 8 < 2 ^ 48 ∧ f 40 8 < 2 ^ 48 ∧ f 48 2 ≤ 1024) && f 50 14 == 0
    && ((List.range nmem).all fun j => decide (f (64 + 16 * j) 2 < 4096) && f (66 + 16 * j) 6 == 0)
    && s.pageListOk (f 40 8) (f 48 2)
    && (decide (f 20 4 < 32) || s.hostNat (f 24 8 + 2) 1 == f 16 1)

/-- The group that a record and its image describe. -/
def State.groupOf (s : State) (b : List Byte) : Group :=
  let f := fieldAt b
  let flags := f 2 1
  let img := s.hostRead (f 24 8) (min (f 20 4) 2097152)
  { block := nbits flags 0 1 == 1, start := nbits flags 1 1 == 1, prefire := nbits flags 2 1 == 1, tb := f 3 1, n := f 6 2
    p := f 8 4, dlc := f 12 4, nslot := f 16 1, lag := f 17 1, fallback := f 19 1, seed := dword (f 32 8)
    members := tab (f 4 2) fun j => ⟨f (64 + 16 * j) 2, dword (f (72 + 16 * j) 8)⟩
    pages := s.pageList (f 40 8) (f 48 2), progLen := f 20 4, progCrc := fieldAt img 28 4, packs := f 18 1
    image := tab (1 + fieldAt img 4 2) fun i => ofBytes ((img.drop (32 * i)).take 32) }

/-- ADMIT_TBASE (R246). -/
def State.tbaseBad (s : State) (g : Group) : Bool :=
  let t := s.tb g.tb
  !t.en || (t.src == 3 && !t.sampled) || decide (g.p ≤ g.win)

/-- ADMIT_DEADLINE (R240). -/
def State.deadlineBad (s : State) (g : Group) : Bool :=
  let t := s.tb g.tb
  decide (g.dlc < 2 * g.lag + 1)
    || (if g.block then
          decide (g.p / g.n * t.uMin + 3000 < g.dlc)
        else decide (g.p * t.uMin < g.dlc))

/-- ADMIT_STREAM. -/
def State.streamBad (s : State) (g : Group) : Bool :=
  let ids := g.members.map (·.stream)
  ids.eraseDups.length != ids.length || ids.any (fun i => decide (512 * s.conf.packs ≤ i))
    || s.groups.any fun e => e.2.members.any fun m => ids.contains m.stream

/-- ADMIT_PAGES. -/
def State.pagesBad (s : State) (g : Group) : Bool :=
  (pageGroups g.pages).any fun gr =>
    let line := s.rmapLine gr
    (List.range 8).any fun i =>
      g.pages.any (fun (a, n) => decide (a ≤ 8 * gr + i) && decide (8 * gr + i < a + n))
        && !((line.getD i 0).getLsbD 0 && (line.getD i 0).getLsbD 2)

/-- RESERVE's checks in the order of R246: an outcome that fails, or the placed group. -/
def State.admission (s : State) (b : List Byte) : Cmpl ⊕ Group :=
  let fail (c : Nat) : Cmpl ⊕ Group := .inl { status := 0x40, pstat := c }
  if s.recordOk b = false then fail 0x01
  else
    let g := s.groupOf b
    let img := s.hostRead (fieldAt b 24 8) (min g.progLen 2097152)
    match imageStatus s.conf s.full img g.image g.nslot with
    | some (st, off) => .inl { status := 0x40, pstat := 0x02, xstat := st, offset := off }
    | none =>
      if s.tbaseBad g then fail 0x03
      else if s.deadlineBad g then fail 0x04
      else if s.streamBad g then fail 0x05
      else if s.pagesBad g then fail 0x06
      else
        let gs := s.groups.map (·.2)
        let c1 := (s.conf.allowed g.packs).filter fun p => (s.pack p).lockFits g.pages
        let c2 := c1.filter fun p => s.rateOk (gs ++ [{ g with pack := p }]) p
        let c3 := c2.filter fun p => roomOk (gs ++ [{ g with pack := p }]) p && (s.full || p == 0)
        if c1.isEmpty then fail 0x07
        else if c2.isEmpty then fail 0x08
        else if c3.isEmpty then fail 0x09
        else
          match s.place g.gid g (c3.flatMap fun p => (assignments g.nslot []).map fun cs => (p, cs)) false false with
          | (some h, _, _) => .inr h
          | (none, cx, pw) => fail (noPlace cx pw)

/-- The trace record of an admission result: its code, for the checks of R246 (R405). -/
def State.admitTrace (s : State) (gid : Nat) (c : Cmpl) : State :=
  if c.status = 0 ∨ c.status = 0x40 then s.traceRec 8 0xFF gid 0 c.pstat else s

/-- RESERVE. -/
def State.reserve (s : State) (r : Nat) (d : Desc) (mem : MemCode) : State :=
  let a := d.by 32 8
  if mem ≠ .ok then (s.memErr mem false a .control).finishHead r { status := 0x48 }
  else
    let nmem := s.hostNat (a + 4) 2
    match s.admission (s.hostRead a (64 + 16 * min nmem 512)) with
    | .inl c => (s.admitTrace (s.hostNat (a + 64) 2) c).finishHead r c
    | .inr g =>
      let s := s.admitTrace g.gid { status := 0 }
      let s := ((s.setGroup g.gid g).rmcLock g.pack g.pages).setDlPower
      s.finishHead r { status := 0, aux32 := min g.eg 0xFFFFFFFF
                       aux64 := g.wg % 2 ^ 32 + g.pack * 2 ^ 32 + g.coresField * 2 ^ 40 }

/-! ## ARM (R245, R246, R290, R242) -/

/-- Status, offset and slot of the first copy that fails R161, or in early service R412. -/
def State.copyStatus (s : State) (g : Group) : Option (Nat × Nat × Nat) :=
  (List.range g.nslot).findSome? fun k => (one k).map fun e => (e.1, e.2, k)
where
  /-- The copy of slot `k`. -/
  one (k : Nat) : Option (Nat × Nat) :=
    let c := s.core (g.core k)
    let ref := g.progs.getD k 0
    let ctx := hCtx (c.entry ref)
    let st := c.refCheck ctx ref
    if st ≠ stOk then some (st, 0)
    else
      match programStatus c (g.core k) s.conf s.hqs ctx ref with
      | some e => some e
      | none =>
        if c.progNslot ref ≠ g.nslot then some (stField, 0)
        else if s.full then none
        else
          match firstInstr (fun i => earlyInstr (c.progWord ref i)) 1 (c.progNinst ref) with
          | some e => some e
          | none =>
            ((c.slotLists ref).findSome? fun (l, n) => (c.slotRefs l n).findSome? fun r =>
              let h := c.slotHdr (c.entry r)
              if h.efmt = 0 ∧ nbits h.flags 0 1 = 0 then none else some (stFormat, 0))

/-- Are the marks and standby cores that ARM names usable? -/
def State.armTargetsOk (s : State) (g : Group) : Bool :=
  (List.range g.nslot).all fun k =>
    let c := s.core (g.core k)
    let m := g.marks.getD k 0
    (refNull m || (c.refGood (s.slotCtx g k) m && decide (g.nmem * ceilDiv g.n 8 ≤ hExt (c.entry m))))
      && (match g.standby.getD k none with
          | some b => decide (b < s.conf.cores) && packOf b == g.pack
          | none => true)
      && (match g.notify with
          | some r => (s.ring r).st != .absent && (s.ring r).cls == 3
          | none => true)

/-- Can an FX slot be pinned: no load of it runs? -/
def State.pinOk (s : State) (g : Group) : Bool :=
  (s.fxOf g).all fun (c, i) => match (s.core c).fxJob with | some (j, _, _) => j != i | none => true

/-- The first frame that the group fires (R242). -/
def State.firstFrame (s : State) (g : Group) : Nat :=
  let v := (s.tb g.tb).value.toNat
  if v < g.trail then 0 else (v - g.trail) / g.p + 1

/-- ARM's checks: an outcome that fails, or the group with what ARM named and its cost as placed. -/
def State.armCheck (s : State) (d : Desc) : Cmpl ⊕ Group :=
  let fail (c : Nat) : Cmpl ⊕ Group := .inl { status := 0x40, pstat := c }
  match s.group? d.target with
  | none => fail 0x0D
  | some g0 =>
    let g := g0.named d
    if d.beyond g0.nslot = true then .inl { status := 0x43 }
    else if s.armTargetsOk g = false then .inl { status := 0x46 }
    else if g0.stage ≠ .reserved then fail 0x0D
    else
      match s.copyStatus g with
      | some (st, off, k) => .inl { status := 0x40, pstat := 0x02, xstat := st, offset := off, slot := k }
      | none =>
        let h := s.priced g
        if s.tbaseBad g then fail 0x03
        else if s.rateOk (((s.groups.filter fun e => e.1 != d.target).map (·.2)) ++ [h]) h.pack = false then fail 0x08
        else
          match s.tryGroup d.target h with
          | (.complex, _) => fail 0x0C
          | (.fail, _) => fail 0x0A
          | (.pass, false) => fail 0x0B
          | (.pass, true) =>
            if (List.range g.nslot).any (fun k =>
                (s.core (g.core k)).progHdr (g.progs.getD k 0) 28 4 != g.progCrc) = true ∨ s.pinOk g = false then fail 0x0D
            else .inr h

/-- What the ports hold of an earlier arming of a group number is forgotten: there has been no release since ARM (R388), and a tile
reply still outstanding belongs to no frame. -/
def State.clearPorts (s : State) (gid : Nat) : State :=
  { s with
    aport := { s.aport with region := s.aport.region.filter fun e => e.2.1 != gid
                            waits := s.aport.waits.filter fun w => w.gid != gid
                            landed := s.aport.landed.filter fun x => (s.inReg x.1).gid != gid }
    tport := { s.tport with
      reads := (s.tport.reads.filter fun r => !(r.gid == gid && decide (64 ≤ r.tag))).map fun r =>
        if r.gid = gid then { r with gid := 4096 } else r
      queued := s.tport.queued.filter fun (_, x, _, _) => x != gid
      landed := s.tport.landed.filter fun (_, x, _, _) => x != gid
      partials := s.tport.partials.filter fun (_, x, _, _, _) => x != gid
      resolves := s.tport.resolves.filter fun (_, x, _, _) => x != gid
      acked := s.tport.acked.filter fun (_, x, _, _) => x != gid } }

/-- The group is armed: references (beside those `held` since acceptance), pins, replay, and its calendar entry. Mark requests that its
reservation has collected stay pending (R243). -/
def State.armGroup (s : State) (gid : Nat) (g : Group) (held : List (Nat × Nat)) (mem : MemCode) : State :=
  let more := (s.armRefs g).filter fun o => !held.contains o
  let s := s.takeRefs more
  let n := s.firstFrame g
  let used := (s.pack g.pack).entries.map (·.1)
  let entry := ((List.range 512).find? fun i => !used.contains i).getD 0
  let g : Group := { g with
    stage := .armed, entry := entry, refs := held ++ more, gens := seedGens g.seed g.nslot, nextClose := n, oldest := n
    lastClose := none, frames := [], parked := none, shadow := false, moves := []
    tileFrames := [], doneAt := 0, freeable := false, releaser := none }
  let s := (s.setGroup gid g).clearPorts gid
  let s := (s.fxOf g).foldl (fun t (c, i) => t.pin c i true) s
  let s := s.kennelArm gid mem
  let s := s.updPack g.pack fun p => { p with entries := p.entries.put entry (s.calEntry g (dword (g.closeAt n))) }
  s.setDlPower

/-- An ARM command arms its group, which keeps the references taken at acceptance, and completes. -/
def State.armNow (s : State) (r : Nat) (d : Desc) (g : Group) (mem : MemCode) : State :=
  let s := s.updRing r fun x => x.updHead fun e => { e with refs := [] }
  ((s.armGroup d.target { g with armer := some r } d.refs mem).admitTrace d.target { status := 0 }).finishHead r { status := 0 }

/-- ARM; it waits for Kennel's scan where a member is to be replayed (R420). -/
def State.armCmd (s : State) (r : Nat) (d : Desc) (mem : MemCode) : State :=
  match s.armCheck d with
  | .inl c => (s.admitTrace d.target c).finishHead r c
  | .inr g => if s.armWaits g then s.startHead r else s.armNow r d g mem

/-! ## RELEASE and QUERY -/

/-- Does a released group hold no frame that has fired? -/
def Group.drained (g : Group) : Bool := g.frames.all fun f => f.phase == .closed || f.phase == .finished

/-- RELEASE (R245): a reservation is freed at once; an armed group after its next commit or discard. -/
def State.releaseCmd (s : State) (r : Nat) (d : Desc) : State :=
  match s.group? d.target with
  | none => s.finishHead r { status := 0x46 }
  | some g =>
    match g.stage with
    | .reserved => (s.freeGroup d.target).headOk r
    | .armed => (s.setGroup d.target { g with stage := .releasing, releaser := some r, freeable := false }).startHead r
    | .releasing => if d.started then s else s.finishHead r { status := 0x46 }

/-- A released group is freed once it has stopped firing, or fires nothing because it is parked, and no fired frame of it is left. -/
def State.releaseEffect (s : State) (gid : Nat) : State :=
  match s.group? gid with
  | none => s
  | some g =>
    if g.stage = .releasing ∧ (g.freeable = true ∨ g.parked.isSome = true) ∧ g.drained = true then
      let s := (s.kennelForget gid).freeGroup gid
      match g.releaser with
      | some r => s.headOk r
      | none => s
    else s

/-- The 64 bytes of a statistics record (R264). -/
def Leash.bytes (l : Leash) : List Byte :=
  toBytes 8 l.frames.toNat ++ toBytes 4 l.slackMin.toNat ++ toBytes 4 l.slackLast.toNat
    ++ (tab 6 fun i => toBytes 2 (Sparse.get 0 l.miss i)).flatten ++ toBytes 2 l.skips ++ toBytes 2 l.fallbacks
    ++ toBytes 2 l.parked ++ toBytes 2 l.markLate ++ toBytes 28 0

/-- QUERY (R264). -/
def State.queryCmd (s : State) (r : Nat) (d : Desc) (mem : MemCode) : State :=
  if s.groups.any fun e => e.2.members.any fun m => m.stream == d.target then
    let a := d.by 40 8
    let s := s.hostWriteCode mem a (s.leashOf d.target).bytes
    let s := s.updLeash d.target fun l => { l with slackMin := 0x7FFFFFFF#32 }
    if mem = .ok then s.headOk r else (s.memErr mem true a .control).finishHead r { status := 0x48 }
  else s.finishHead r { status := 0x46 }

/-! ## Object records (R304) -/

/-- The engine reads HOST_REF of an object whose ENG_REF has become 0. -/
def State.objectRecord (s : State) (o : Nat) (mem : MemCode) : State :=
  if s.sd.freed.contains o then
    let s := { s with sd := { s.sd with freed := s.sd.freed.erase o } }
    let a := addr48 s.sd.objLo s.sd.objHi + 16 * o
    if mem ≠ .ok then s.memErr mem false a .control
    else if s.hostNat a 4 = 0 ∧ s.sd.objNotify.getLsbD 15 = true then
      s.notify (wbits s.sd.objNotify 11 0) { tag := o, status := 0, kind := 2, aux32 := s.objGen o }
    else s
  else s

/-! ## Meanings -/

/-- DB_LO (R284): stages the low word. -/
def execDbLo (ring : Nat) (value : Word) (acc : Acc) (s : State) : Host.Outcome State Fault Refusal :=
  done (s.cfgWrite (dbAddr ring 0) acc fun t => t.updRing ring fun x => { x with staged := value })

/-- DB_HI (R284): presents the doorbell. -/
def execDbHi (ring : Nat) (value : Word) (acc : Acc) (s : State) : Host.Outcome State Fault Refusal :=
  done (s.cfgWrite (dbAddr ring 4) acc fun t => t.presentDoorbell ring value acc)

/-- CREATE (R283): a write of RING_CMD. -/
def execCreate (ring : Nat) (acc : Acc) (mem : MemCode) (s : State) : Host.Outcome State Fault Refusal :=
  done (s.cfgWrite 0x1088 acc fun t => t.ringCmd (word (ring % 4096 + 4096)) mem)

/-- DESTROY (R283): a write of RING_CMD. -/
def execDestroy (ring : Nat) (acc : Acc) (s : State) : Host.Outcome State Fault Refusal :=
  done (s.cfgWrite 0x1088 acc fun t => t.ringCmd (word (ring % 4096 + 8192)) .ok)

/-- DESCRIPTOR_FETCH (R285). -/
def execDescriptorFetch (s : State) : Host.Outcome State Fault Refusal :=
  done (if s.running && s.early && !s.glb.pf && !s.sd.restart then s.fetchBurst else s)

/-- DESCRIPTOR_ACCEPT (R289). -/
def execDescriptorAccept (ring : Nat) (mem : MemCode) (s : State) : Host.Outcome State Fault Refusal :=
  done (if s.running && !s.sd.restart then s.acceptNext ring mem else s)

/-- DESC_NOP (R288). -/
def execDescNop (ring : Nat) (s : State) : Host.Outcome State Fault Refusal := done (s.headRow ring 0x00 fun t _ => t.headOk ring)

/-- JOB (R291): the job at the head of its ring becomes ready. -/
def execJob (ring : Nat) (s : State) : Host.Outcome State Fault Refusal :=
  done (s.headRow ring 0x01 fun t d =>
    if d.started then t
    else ({ t with jobs := t.jobs.put ring { seed := d.seed, slots := d.slots } }).startHead ring)

/-- RESERVE (R245). -/
def execReserve (ring : Nat) (mem : MemCode) (s : State) : Host.Outcome State Fault Refusal :=
  done (s.headRow ring 0x10 fun t d => t.reserve ring d mem)

/-- ARM (R245). -/
def execArm (ring : Nat) (mem : MemCode) (s : State) : Host.Outcome State Fault Refusal :=
  done (s.headRow ring 0x11 fun t d => if d.started then t else t.armCmd ring d mem)

/-- ARM_AFTER_SCAN (R420): an ARM that waited for the scan goes on. -/
def execArmAfterScan (ring : Nat) (mem : MemCode) (s : State) : Host.Outcome State Fault Refusal :=
  done (s.headRow ring 0x11 fun t d => if d.started && !t.kennel.scanning then t.armCmd ring d mem else t)

/-- RELEASE (R245). -/
def execRelease (ring : Nat) (s : State) : Host.Outcome State Fault Refusal :=
  done (s.headRow ring 0x12 fun t d => t.releaseCmd ring d)

/-- GROUP_RELEASE_EFFECT (R245). -/
def execGroupReleaseEffect (gid : Nat) (s : State) : Host.Outcome State Fault Refusal := done (s.releaseEffect gid)

/-- QUERY (R264). -/
def execQuery (ring : Nat) (mem : MemCode) (s : State) : Host.Outcome State Fault Refusal :=
  done (s.headRow ring 0x13 fun t d => t.queryCmd ring d mem)

/-- RECLAIM (R305). -/
def execReclaim (ring : Nat) (s : State) : Host.Outcome State Fault Refusal :=
  done (s.headRow ring 0x14 fun t d =>
    if d.started then t else t.reclaimObj ring d fun u c i e ro => u.commitEntry c ⟨false, i, e, ro⟩)

/-- FENCE_INIT (R297). -/
def execFenceInit (ring : Nat) (s : State) : Host.Outcome State Fault Refusal :=
  done (s.headRow ring 0x15 fun t d =>
    let v := dword (d.by 40 8)
    (t.setFence d.target { value := v, ctx := BitVec.ofNat 16 (d.by 34 2), seen := v, edge := t.fclk, base := v }).headOk ring)

/-- STOP (R307): it completes once no burst of the ring is in flight. -/
def execStop (ring : Nat) (s : State) : Host.Outcome State Fault Refusal :=
  done (s.headRow ring 0x20 fun t d =>
    let t := if d.started then t else t.stopRing d.target
    if (t.ring d.target).burst.isNone then t.headOk ring else t.startHead ring)

/-- ABORT (R307): it completes once the last of the ring's completions is written. -/
def execAbort (ring : Nat) (s : State) : Host.Outcome State Fault Refusal :=
  done (s.headRow ring 0x21 fun t d =>
    let t := if d.started then t else (t.startHead ring).abortRing d.target
    if d.target = ring ∨ t.abortDone d.target = true then t.headOk ring else t)

/-- RESUME (R307). -/
def execResume (ring : Nat) (s : State) : Host.Outcome State Fault Refusal :=
  done (s.headRow ring 0x22 fun t d => (t.resumeRing d.target).headOk ring)

/-- QUIESCE (R307): STOP on every ring of the context, complete once its jobs have completed, parked or been displaced. -/
def execQuiesce (ring : Nat) (s : State) : Host.Outcome State Fault Refusal :=
  done (s.headRow ring 0x23 fun t d =>
    let t := if d.started then t else ((t.ringsOf (d.by 32 2)).foldl State.stopRing t).startHead ring
    if t.quiet (d.by 32 2) then t.headOk ring else t)

/-- PARK (R247). -/
def execPark (ring : Nat) (s : State) : Host.Outcome State Fault Refusal :=
  done (s.headRow ring 0x24 fun t d => (t.parkGroup d.target .software).headOk ring)

/-- UNPARK (R247): firing resumes at the next close. -/
def execUnpark (ring : Nat) (s : State) : Host.Outcome State Fault Refusal :=
  done (s.headRow ring 0x25 fun t d => (t.updGroup d.target fun g => { g with parked := none }).headOk ring)

/-- WAIT_TIMEOUT (R301): the wait at the head of a ring has expired. -/
def execWaitTimeout (ring : Nat) (s : State) : Host.Outcome State Fault Refusal :=
  done (match (s.ring ring).queue with
    | d :: _ =>
      if s.running && d.due.isSome && d.waits && !d.met && d.done.isNone && decide (d.expiry ≤ s.fclk) then
        s.finishHead ring { status := 0x41 }
      else s
    | [] => s)

/-- COMPLETION (R294). -/
def execCompletion (ring : Nat) (s : State) : Host.Outcome State Fault Refusal :=
  done (if s.running then s.complete ring else s)

/-- OBJECT_RECORD (R304). -/
def execObjectRecord (obj : Nat) (mem : MemCode) (s : State) : Host.Outcome State Fault Refusal := done (s.objectRecord obj mem)

end Sys2Proof.Machine
end

