-- ==== Sys2Proof/Machine/TimeBase.lean ====
section
/-! DEFINITION. The time bases and the mark requests (08_time_and_admission, R231 to R237, R243, R265). -/

namespace Sys2Proof.Machine

/-! ## Advancing (R231 to R234) -/

/-- A time base takes a new value, and the closes that it passes are taken. -/
def State.tbAdvance (s : State) (t : Nat) (v : DWord) : State :=
  (s.updTb t fun x => { x with value := v, lastAdv := s.fclk, stalled := false }).passCloses t

/-- The enabled time bases that a tick line drives (R231). -/
def State.tickedBy (s : State) (line : Nat) : List Nat :=
  (List.range 8).filter fun t =>
    let x := s.tb t
    x.en && (x.src == 1 || x.src == 2) && x.sel == line

/-- An edge of a tick line is noted with whether it counted; what it drives advances by 1 when it does. -/
def State.tickCount (s : State) (line : Nat) (counts : Bool) : State :=
  let hits := s.tickedBy line
  let s := { s with tickEdge := s.tickEdge.put line (s.fclk, counts) }
  if counts then hits.foldl (fun u i => u.tbAdvance i ((u.tb i).value + 1)) s else s

/-- A rising edge on a tick line: edges at least 4 FCLK apart count 1, closer edges 0 or 1 as the spec leaves open, two
edges at one FCLK edge together once (R232). -/
def State.tick (s : State) (line : Nat) : State :=
  match s.tickEdge.find? (·.1 == line) with
  | some (_, e, counted) =>
    if s.fclk = e then (if counted then s else s.tickCount line true)
    else if s.fclk < e + 4 then { s with fresh := s.fresh + 1 }.tickCount line (Config.freeBit s.fresh)
    else s.tickCount line true
  | none => s.tickCount line true

/-- A synchronised strobe of network time reaches one time base: the first one after the enable is taken whatever it is, and later ones
only upward (R231, R233, R235). -/
def State.netSample (s : State) (t : Nat) (w : DWord) : State :=
  let x := s.tb t
  let s := s.updTb t fun y => { y with sampled := true, holds := false }
  if x.holds then s.tbAdvance t w
  else if x.value < w then
    (s.raiseIf (decide (x.jumpLim.toNat < (w - x.value).toNat)) (pgTbase t) 2).tbAdvance t w
  else s.raiseIf (decide (w < x.value)) (pgTbase t) 1

/-- A strobe of TB_NET. -/
def State.netStrobe (s : State) (w : DWord) : State :=
  (List.range 8).foldl (fun u t => if (u.tb t).en && (u.tb t).src == 3 then u.netSample t w else u) s

/-! ## Registers (R235, R237) -/

/-- STATUS.BOUND: admitted streams bound to a time base. -/
def State.tbBound (s : State) (t : Nat) : Nat :=
  ((s.groups.filter fun e => e.2.tb == t).map fun e => e.2.nmem).foldl (· + ·) 0

/-- STATUS.RUN: enabled, a network source sampled, and advanced within the stall limit. -/
def State.tbRun (s : State) (t : Nat) : Bool :=
  let x := s.tb t
  x.en && (x.src != 3 || x.sampled) && (x.stallLim == 0 || decide (s.fclk - x.lastAdv < x.stallLim * 1024))

/-- CTRL of a time base as it reads. -/
def TBase.ctrl (x : TBase) : Word := word (b2n x.en + 2 * x.src + 16 * x.sel + 256 * x.div)

/-- Does a write of one of the five protected registers name what R235 and R237 refuse? -/
def TBase.refuses (x : TBase) (reg : TbReg) (v : Word) : Bool :=
  match reg with
  | .ctrl => v.getLsbD 0 && x.nom == 0
  | .tol => decide (10000 < wbits v 13 0)
  | _ => false

/-- An accepted write of a protected register. -/
def TBase.written (x : TBase) (fclk : Nat) (reg : TbReg) (v : Word) : TBase :=
  let x := { x with refused := false }
  match reg with
  | .ctrl =>
    let y := { x with en := v.getLsbD 0, src := wbits v 3 1, sel := wbits v 6 4, div := wbits v 15 8 }
    if !x.en && y.en then
      { y with value := x.set, sampled := false, holds := y.src == 3, phase := fclk, lastAdv := fclk
               stalled := false }
    else if y.src ≠ x.src then { y with sampled := false, holds := false, phase := fclk }
    else if y.div ≠ x.div then { y with phase := fclk }
    else y
  | .nom => { x with nom := v }
  | .tol => { x with tol := wbits v 13 0 }
  | .setLo => { x with set := dword (v.toNat + x.set.toNat / 2 ^ 32 * 2 ^ 32) }
  | .setHi => { x with set := dword (x.set.toNat % 2 ^ 32 + v.toNat * 2 ^ 32) }

/-- A write of a protected register of a time base: refused while streams are bound, ignored as a whole for a reserved
source (R231, R235). -/
def State.tbWrite (s : State) (t : Nat) (reg : TbReg) (v : Word) : State :=
  let x := s.tb t
  let badSrc := match reg with
    | .ctrl => decide (4 < wbits v 3 1)
    | _ => false
  let s := s.raiseIf badSrc (pgTbase t) 3
  if s.tbBound t ≠ 0 then s.updTb t fun y => { y with refused := true }
  else if badSrc then s
  else if x.refuses reg v then s.updTb t fun y => { y with refused := true }
  else s.updTb t fun y => y.written s.fclk reg v

/-- Address of a register of a time base. -/
def tbAddr (t : Nat) (reg : TbReg) : Nat :=
  let off := match reg with
    | .ctrl => 0x10 | .nom => 0x48 | .tol => 0x4C | .setLo => 0x58 | .setHi => 0x5C
  if t < 8 then 0x8000 + 0x1000 * t + off else noAddr

/-- A read of VAL_LO latches the high half into VAL_HI (R237). -/
def State.valLo (s : State) (t : Nat) : State :=
  let v := (s.tb t).value.toNat
  (s.updTb t fun x => { x with valHi := word (v / 2 ^ 32) }).respond 0 (word v)

/-! ## Mark requests (R243, R265) -/

/-- The newest frame of a group that has fired or finished. -/
def Group.newestFired (g : Group) : Option Nat :=
  match (g.frames.filter fun f => f.fire.isSome || f.phase == .finished).getLast? with
  | some f => some f.n
  | none => if g.doneAt = 0 then none else some (g.oldest - 1)

/-- Submits a mark request for a stream at a time-base value. -/
def State.markRequest (s : State) (stream : Nat) (m : DWord) : State :=
  let stat (v : Word) : State := { s with sd := { s.sd with markStat := v } }
  match s.groups.findSome? fun e => (e.2.members.findIdx? fun x => x.stream == stream).map fun j => (e.1, e.2, j) with
  | none => stat 4
  | some (gid, g, j) =>
    if 4 ≤ (g.markReqs.filter fun x => x.1 == j).length then stat 2
    else
      let s := stat 0
      let late := match g.newestFired with
        | some n => if m.toNat ≤ g.memberClose j n then some (dword (g.memberClose j n + 1)) else none
        | none => none
      let s := if late.isSome then s.updLeash stream fun l => { l with markLate := satAdd 0xFFFF l.markLate 1 } else s
      s.setGroup gid { g with markReqs := g.markReqs ++ [(j, late.getD m)] }

/-! ## Meanings -/

/-- TB_TICK (R232). -/
def execTbTick (line : Nat) (s : State) : Host.Outcome State Fault Refusal :=
  done (if s.running && decide (line < 8) then s.tick line else s)

/-- TB_NET_STROBE (R233). -/
def execTbNetStrobe (value : DWord) (s : State) : Host.Outcome State Fault Refusal :=
  done (if s.running then s.netStrobe value else s)

/-- FREE_RUN_ADVANCE (R231): the count advances once DIV + 1 FCLK have passed, and the next unit runs from there. -/
def execFreeRunAdvance (tb : Nat) (s : State) : Host.Outcome State Fault Refusal :=
  let x := s.tb tb
  done (if s.running && decide (tb < 8) && x.en && x.src == 4 && decide (x.phase + x.div + 1 ≤ s.fclk) then
      (s.updTb tb fun y => { y with phase := x.phase + x.div + 1 }).tbAdvance tb (x.value + 1)
    else s)

/-- TB_STALL (R234): raised once until the time base advances again. -/
def execTbStall (tb : Nat) (s : State) : Host.Outcome State Fault Refusal :=
  let x := s.tb tb
  done (if s.running && decide (tb < 8) && x.en && x.stallLim != 0 && !x.stalled
      && decide (x.stallLim * 1024 ≤ s.fclk - x.lastAdv) then
      (s.updTb tb fun y => { y with stalled := true }).raise (pgTbase tb) 0
    else s)

/-- TBASE_CTRL_WRITE (R235). -/
def execTbaseCtrlWrite (tb : Nat) (reg : TbReg) (value : Word) (acc : Acc) (s : State) : Host.Outcome State Fault Refusal :=
  done (s.cfgWrite (tbAddr tb reg) acc fun t => t.tbWrite tb reg value)

/-- VAL_LO_READ (R237). -/
def execValLoRead (tb : Nat) (s : State) : Host.Outcome State Fault Refusal :=
  done (if !s.running then s
    else let t := s.answers ⟨false, false, 0, 0⟩; if s.early && decide (tb < 8) then t.valLo tb else t.respond 0 0)

/-- MARK_T_HI (R243, R265): the write submits the request. -/
def execMarkTHi (value : Word) (acc : Acc) (s : State) : Host.Outcome State Fault Refusal :=
  done (s.cfgWrite 0x1048 acc fun t =>
    t.markRequest t.sd.markStream (dword (t.sd.markLo.toNat + value.toNat * 2 ^ 32)))

end Sys2Proof.Machine
end

