-- ==== Sys2Proof/Machine/Peer.lean ====
section
/-! DEFINITION. Spans and stream migration (12_span_and_migration): received Drabin frames, partner states, keys, and both
sides of a migration. -/

namespace Sys2Proof.Machine

/-- Rewrites the migration registers and partners. -/
def State.updPeer (s : State) (f : Peer → Peer) : State := { s with peer := f s.peer }

/-! ## Partner states (R350, R352, R355) -/

/-- HB_PERIOD in FCLK. -/
def State.hbPeriod (s : State) : Nat := wbits s.peer.hb 15 0 * 1024

/-- HB_MISS, where 0 acts as 1. -/
def State.hbMiss (s : State) : Nat := max 1 (wbits s.peer.hb 23 16)

/-- A partner that was UP leaves it: its migrations fail with MIG_TIMEOUT, an abort in progress ends, and a destination that is
already owner keeps the group (R366). -/
def State.leftUp (s : State) (m : Nat) : State :=
  let s := match s.peer.out with
    | some o => if o.dest ≠ m then s else if o.state = 5 then s.updPeer fun p => { p with out := none } else s.migOutFail 0x0B
    | none => s
  match s.peer.inc with
  | some i => if i.src = m ∧ i.state ≠ 3 then s.migInFail 0x0B else s
  | none => s

/-- A partner takes another state. -/
def State.partnerTo (s : State) (m : Nat) (st : PartState) : State :=
  let was := (s.partner m).st
  let s := s.updPartner m fun p => { p with st := st }
  if was = .up ∧ st ≠ .up then s.leftUp m else s

/-- A partner joins afresh, with its receive window and transmit counter reset; `tx` says that its TXKEY slot was written. -/
def State.rejoin (s : State) (m : Nat) (tx : Bool) : State :=
  (s.updPartner m fun p => { p with high := 0, bitmap := 0, txCtr := 1, exhausted := p.exhausted && !tx }).partnerTo m .joining

/-- The body of a HELLO (R357). -/
def State.helloBody (s : State) : List Byte :=
  toBytes 2 0x0100 ++ toBytes 2 0x0100 ++ toBytes 2 (wbits s.peer.self 31 16) ++ toBytes 1 s.selfMember
    ++ toBytes 1 s.conf.packs ++ toBytes 8 (s.netTime?.getD 0).toNat

/-- The body of a HEARTBEAT (R357). -/
def State.heartbeatBody (s : State) : List Byte :=
  toBytes 8 (s.netTime?.getD 0).toNat ++ toBytes 4 ((s.peer.out.map (·.id)).getD 0) ++ toBytes 4 0

/-- What a heartbeat period sends to one partner. -/
def State.periodSend (s : State) (m : Nat) : State :=
  match (s.partner m).st with
  | .down => s
  | .joining => s.sendPeer m 0x01 s.helloBody true
  | .up =>
    let s := s.sendPeer m 0x02 s.heartbeatBody true
    match s.peer.out with
    | some o =>
      if o.dest = m ∧ o.state = 5 then
        s.sendPeer m 0x18 (toBytes 4 o.id ++ toBytes 1 o.code ++ toBytes 3 0) true
      else s
    | none => s

/-- A write of PART_CFG[m] (R350, R367); in early service a write that sets EN is ignored (R412). -/
def State.partCfgWrite (s : State) (m : Nat) (v : Word) : State :=
  if v.getLsbD 0 && !s.full then s
  else
    let was := (s.partner m).en
    let s := s.updPartner m fun p => { p with en := v.getLsbD 0, txKey := wbits v 7 4, rxKey := wbits v 11 8 }
    if m = s.selfMember then s
    else if v.getLsbD 0 && !was then
      (s.updPartner m fun p => { p with tokens := wbits s.peer.rate 31 16 }).rejoin m false
    else if was && !v.getLsbD 0 then s.partnerTo m .down
    else s

/-- A write of a word of a key slot (R355); the last word lets an exhausted partner of that TXKEY send again (R352). -/
def State.keyWrite (s : State) (k w : Nat) (v : Word) : State :=
  let old := (Sparse.get (0 : BitVec 256) s.peer.keys k).toNat
  let new := BitVec.ofNat 256 (old - old / 2 ^ (32 * w) % 2 ^ 32 * 2 ^ (32 * w) + v.toNat * 2 ^ (32 * w))
  let s := s.updPeer fun p => { p with keys := p.keys.set 0 k new }
  if w ≠ 7 then s
  else (List.range 16).foldl (fun t m =>
    let p := t.partner m
    let t := if p.txKey = k ∧ p.exhausted = true then t.updPartner m fun q => { q with exhausted := false } else t
    if p.en && m != t.selfMember && (p.txKey == k || p.rxKey == k) then t.rejoin m (p.txKey == k) else t) s

/-! ## Receiving a frame (R353, R354) -/

/-- Is the body of a message type well formed (R357, R361)? -/
def bodyOk (type : Nat) (b : List Byte) : Bool :=
  let n := b.length
  let zero (o k : Nat) : Bool := fieldAt b o k == 0
  match type with
  | 0x01 => n == 16
  | 0x02 => n == 16 && zero 12 4
  | 0x10 => decide (48 ≤ n) && n == 48 + 8 * fieldAt b 4 2 && zero 14 2
  | 0x11 => n == 8 && decide (fieldAt b 4 1 < 32) && decide (fieldAt b 5 1 < 16) && zero 6 2
  | 0x12 => n == 8 && zero 6 2
  | 0x13 => decide (72 ≤ n) && decide (n ≤ 9160) && (n - 8) % 64 == 0 && fieldAt b 4 4 % 64 == 0
  | 0x14 => n == 8
  | 0x15 => n == 64 && zero 4 4
  | 0x16 => n == 16 && zero 4 4
  | 0x17 => n == 16 && zero 4 4
  | 0x18 => n == 8 && zero 5 3
  | 0x19 => n == 4
  | 0x1A => n == 16 && zero 4 4
  | _ => false

/-- Counts a frame that fails step 1 or 6. -/
def State.rxBad (s : State) : State := s.updPeer fun p => { p with rxBad := satAdd 0xFFFF p.rxBad 1 }

/-- The replay window takes a counter, or none when the counter fails (R354). -/
def Partner.window (p : Partner) (ctr : Nat) : Option Partner :=
  if p.high < ctr then some { p with high := ctr, bitmap := (p.bitmap * 2 ^ min 64 (ctr - p.high) + 1) % 2 ^ 64 }
  else if p.high < ctr + 64 ∧ p.bitmap / 2 ^ (p.high - ctr) % 2 = 0 then
    some { p with bitmap := p.bitmap + 2 ^ (p.high - ctr) }
  else none

/-- The clear header of a frame: its additional authenticated data. -/
def peerHeader (f : PeerFrame) (type : Nat) : List Nat :=
  leBytes 2 f.ver.toNat ++ [type, f.dst.toNat] ++ leBytes 4 f.sid.toNat ++ leBytes 8 f.ctr.toNat

/-- Steps 1 to 6 of R353: the state after them, and the sender with the message body when all pass. -/
def State.peerReceive (s : State) (type : Nat) (f : PeerFrame) : State × Option (Nat × List Byte) :=
  let m := f.sid.toNat % 65536
  let p := s.partner m
  let ks := keySchedule (keyBytes (Sparse.get 0 s.peer.keys p.rxKey))
  let iv := gcmIv f.sid.toNat f.ctr.toNat
  let ct := natBytes f.body
  if 9216 < 32 + f.body.length ∨ f.tag.length ≠ 16 ∨ f.dst.toNat ≠ s.selfMember then (s.rxBad, none)
  else if f.sid.toNat / 65536 ≠ wbits s.peer.self 31 16 ∨ 16 ≤ m ∨ m = s.selfMember ∨ p.en = false then
    (s.updPeer fun q => { q with rxUnknown := satAdd 0xFFFF q.rxUnknown 1 }, none)
  else if p.tokens = 0 then (s.updPartner m fun q => { q with rateDrop := satAdd 0xFFFF q.rateDrop 1 }, none)
  else
    let s := s.updPartner m fun q => { q with tokens := q.tokens - 1 }
    if bytesOf (gcmTag ks iv (peerHeader f type) ct) ≠ f.tag then
      ((s.updPartner m fun q => { q with authf := satWord q.authf 1 }).raise pgPeer 2, none)
    else
      match (s.partner m).window f.ctr.toNat with
      | none => (s.updPartner m fun q => { q with replayDrop := satAdd 0xFFFF q.replayDrop 1 }, none)
      | some q =>
        let s := s.updPartner m fun _ => q
        let body := bytesOf (gctr ks iv ct)
        let verOk := if type = 1 then wbits f.ver 15 8 == 1 else f.ver.toNat == 0x100 + p.minor
        if verOk = false ∨ bodyOk type body = false then (s.rxBad, none) else (s, some (m, body))

/-- A received message: steps 1 to 7, then what the message does. A HELLO is allowed unless the partner is DOWN, other messages
only while it is UP. -/
def State.onMessage (s : State) (type : Nat) (f : PeerFrame) (act : State → Nat → List Byte → State) : State :=
  if !s.running then s
  else
    match s.peerReceive type f with
    | (s, none) => s
    | (s, some (m, body)) =>
      let st := (s.partner m).st
      if st = .up ∨ (type = 1 ∧ st = .joining) then
        act (s.updPartner m fun p => { p with heard := s.fclk }) m body
      else s

/-- Do two network times differ by more than TSKEW? -/
def State.skewed (s : State) (t : Nat) : Bool :=
  match s.netTime? with
  | some v => decide (s.peer.tskew.toNat < max v.toNat t - min v.toNat t)
  | none => false

/-- An accepted HELLO (R350, R356, R309). -/
def State.onHello (s : State) (m : Nat) (b : List Byte) : State :=
  if (s.partner m).st = .up then s.sendPeer m 0x01 s.helloBody true
  else if s.netTime?.isNone then s
  else if fieldAt b 1 1 ≠ 1 ∨ fieldAt b 3 1 ≠ 1 ∨ fieldAt b 0 1 ≠ 0 then s.raise pgPeer 3
  else if s.skewed (fieldAt b 8 8) then s.raise pgPeer 4
  else ((s.updPartner m fun p => { p with minor := 0 }).partnerTo m .up).raise pgPeer 0

/-- MIG_DONE at the destination (R365). -/
def State.migInDone (s : State) : State :=
  (s.updPeer fun p => { p with inc := none, acptStat := 0 }).raise pgPeer 6

/-- An accepted HEARTBEAT (R350, R365). -/
def State.onHeartbeat (s : State) (m : Nat) (b : List Byte) : State :=
  if s.skewed (fieldAt b 0 8) then (s.partnerTo m .joining).raise pgPeer 4
  else
    match s.peer.inc with
    | some i => if i.src = m ∧ i.state = 3 ∧ fieldAt b 8 4 = 0 then s.migInDone else s
    | none => s

/-! ## The source of a migration (R361, R363 to R366) -/

/-- A refused START: the code is recorded and nothing is sent. -/
def State.migRefused (s : State) (code : Nat) : State := s.updPeer fun p => { p with migStat := word (code * 256) }

/-- The body of an OFFER. -/
def State.offerBody (s : State) (id : Nat) (g : Group) (n nshadow : Nat) : List Byte :=
  toBytes 4 id ++ toBytes 2 g.nmem ++ toBytes 2 g.n ++ toBytes 4 g.p ++ toBytes 1 g.fallback ++ toBytes 1 nshadow
    ++ toBytes 2 0 ++ toBytes 8 n ++ toBytes 8 (g.closeAt n) ++ toBytes 8 g.seed.toNat
    ++ toBytes 4 (s.payload g 0).length ++ toBytes 4 g.progCrc ++ (tab g.nmem fun j => toBytes 8 (g.phase j)).flatten

/-- MIG_CMD.START. -/
def State.migStart (s : State) : State :=
  let dest := wbits s.peer.migCfg 3 0
  let gid := wbits s.peer.migGid 11 0
  if s.full = false then s.migRefused 0x02
  else if s.peer.out.isSome then s.migRefused 0x01
  else if (s.partner dest).st ≠ .up then s.migRefused 0x02
  else
    match s.group? gid with
    | none => s.migRefused 0x03
    | some g =>
      if g.stage ≠ .armed ∨ g.parked.isSome = true ∨ (s.tb g.tb).src ≠ 3 then s.migRefused 0x03
      else
        let id := if s.peer.lastMigId + 1 < 2 ^ 32 then s.peer.lastMigId + 1 else 1
        let n := ceilDiv ((s.tb g.tb).value.toNat + s.peer.migLead.toNat - g.lead) g.p
        let nshadow := wbits s.peer.migCfg 7 4 + 1
        let s := s.updPeer fun p =>
          { p with lastMigId := id, migStat := 0, migFrame := word (n + nshadow)
                   out := some { id := id, gid := gid, dest := dest, s := n, nshadow := nshadow, state := 1 } }
        s.sendPeer dest 0x10 (s.offerBody id g n nshadow) false

/-- Acts on the outgoing migration that a message of partner `m` names; a message that names none is dropped (R357). -/
def State.withOut (s : State) (m : Nat) (b : List Byte) (act : State → MigOut → State) : State :=
  match s.peer.out with
  | some o => if o.dest = m ∧ o.id = fieldAt b 0 4 ∧ o.state ≠ 5 then act s o else s
  | none => s

/-- Rewrites the outgoing migration. -/
def State.setOut (s : State) (o : MigOut) : State := s.updPeer fun p => { p with out := some o }

/-- ACCEPT (R363): it must come before the commit point of frame S - 1, where the group has a frame before S. -/
def State.onAccept (s : State) (m : Nat) (b : List Byte) : State :=
  s.withOut m b fun t o =>
    if o.state ≠ 1 then t
    else
      match t.group? o.gid with
      | some g =>
        if o.s < g.oldest ∨ (o.s = g.oldest ∧ g.doneAt ≠ 0) then t.migOutFail 0x0B
        else t.setOut { o with state := 2, accepted := some (fieldAt b 4 1, fieldAt b 5 1) }
      | none => t.migOutFail 0x0B

/-- REFUSE (R368): the migration ends with MIG_REFUSED. -/
def State.onRefuse (s : State) (m : Nat) (b : List Byte) : State :=
  s.withOut m b fun t _ =>
    (t.updPeer fun p => { p with out := none, migStat := word (0x0400 + 65536 * fieldAt b 4 1) }).raise pgPeer 7

/-- The snapshot of a group (R358). -/
def State.snapshotBytes (s : State) (g : Group) (n : Nat) : List Byte :=
  let h := toBytes 2 0x0100 ++ toBytes 2 g.nmem ++ toBytes 4 (s.payload g 0).length ++ toBytes 8 n ++ toBytes 4 g.progCrc
    ++ toBytes 40 0
  h ++ toBytes 4 (crcB h) ++ (tab g.nmem fun j => s.payload g j).flatten

/-- Sends a snapshot in SNAP messages of at most 9,152 bytes. -/
def State.sendSnaps (s : State) (o : MigOut) (off : Nat) (bytes : List Byte) : Nat → State
  | 0 => s
  | fuel + 1 =>
    if bytes.isEmpty then s
    else
      let part := bytes.take 9152
      (s.sendPeer o.dest 0x13 (toBytes 4 o.id ++ toBytes 4 off ++ part) false).sendSnaps o (off + 9152) (bytes.drop 9152) fuel

/-- Takes and sends the snapshot after the commit of frame S - 1; once frame S has finished, CUR has changed (R359). An uncorrectable error
under a slot is a fault, and nothing is sent, as for Kennel's own snapshots (R338). -/
def State.takeSnapshot (s : State) : State :=
  match s.peer.out with
  | none => s
  | some o =>
    if o.state ≠ 2 then s
    else
      match s.group? o.gid with
      | none => s
      | some g =>
        if o.s < g.oldest then s.migOutFail 0x07
        else if g.oldest < o.s then s
        else
          match (List.range g.nmem).findSome? (s.badSlotLine g) with
          | some (c, l) => s.fault c .spd l 0
          | none =>
            let bytes := s.snapshotBytes g o.s
            let s := s.setOut { o with state := 3 }
            (s.sendSnaps o 0 bytes (bytes.length / 9152 + 1)).sendPeer o.dest 0x14 (toBytes 4 o.id ++ toBytes 4 bytes.length) false

/-- Compares the digests of both sides; the last match sends COMMIT (R364). -/
def State.compareDigests (s : State) : State :=
  match s.peer.out with
  | none => s
  | some o =>
    if o.state ≠ 3 then s
    else
      let pairs := o.own.filterMap fun (n, d) => (o.theirs.find? (·.1 == n)).map fun e => decide (e.2 = d)
      if pairs.contains false then s.migOutFail 0x09
      else if pairs.length = o.nshadow then
        (s.setOut { o with state := 4 }).sendPeer o.dest 0x16
          (toBytes 4 o.id ++ toBytes 4 0 ++ toBytes 8 (o.s + o.nshadow)) false
      else s

/-- DIGEST. -/
def State.onDigest (s : State) (m : Nat) (b : List Byte) : State :=
  s.withOut m b fun t o =>
    let n := fieldAt b 8 8
    if o.s ≤ n ∧ n < o.s + o.nshadow ∧ o.theirs.all (fun e => e.1 != n) = true then
      (t.setOut { o with theirs := o.theirs ++ [(n, b.drop 16)] }).compareDigests
    else t

/-- COMMIT_ACK. -/
def State.onCommitAck (s : State) (m : Nat) (b : List Byte) : State :=
  s.withOut m b fun t o =>
    if o.state = 4 ∧ fieldAt b 8 8 = o.s + o.nshadow then t.setOut { o with acked := true } else t

/-! ## The destination of a migration (R362, R363, R365) -/

/-- Refuses an OFFER. -/
def State.refuseOffer (s : State) (m id code pcode : Nat) : State :=
  (s.updPeer fun p => { p with acptStat := word (code * 256 + pcode * 65536) }).sendPeer m 0x12
    (toBytes 4 id ++ toBytes 1 code ++ toBytes 1 pcode ++ toBytes 2 0) false

/-- Do the terms of an OFFER agree with the reserved group? -/
def State.offerMatches (s : State) (g : Group) (b : List Byte) : Bool :=
  let f := fieldAt b
  f 4 2 == g.nmem && f 6 2 == g.n && f 8 4 == g.p && f 12 1 == g.fallback && f 32 8 == g.seed.toNat
    && f 40 4 == (s.payload g 0).length && f 44 4 == g.progCrc && (s.tb g.tb).src == 3
    && (List.range g.nmem).all fun j => f (48 + 8 * j) 8 == g.phase j

/-- OFFER (R362); the ARM body passes the checks of acceptance (R289) and those of ARM. -/
def State.onOffer (s : State) (m : Nat) (b : List Byte) (mem : MemCode) : State :=
  let a := s.peer.acptGid
  let gid := wbits a 11 0
  let arm := addr48 s.peer.acptArmLo s.peer.acptArmHi
  let id := fieldAt b 0 4
  if wbits a 31 31 = 0 ∨ wbits a 15 12 ≠ m ∨ s.peer.inc.isSome = true then s
  else if mem ≠ .ok then (s.memErr mem false arm .control).refuseOffer m id 0x06 0
  else
    let d : Desc := { seq := 0, w := 0x11 + s.hostNat arm 32 * 2 ^ 256 }
    match s.group? gid with
    | none => s.refuseOffer m id 0x05 0
    | some g =>
      if arm % 64 ≠ 0 ∨ d.target ≠ gid ∨ g.stage ≠ .reserved ∨ s.offerMatches (g.named d) b = false then
        s.refuseOffer m id 0x05 0
      else
        let bad : Cmpl ⊕ Group := match s.acceptCheck { cls := 1 } d false with
          | some c => .inl c
          | none => s.armCheck d
        match bad with
        | .inl c => s.refuseOffer m id 0x06 c.pstat
        | .inr h =>
          let n := fieldAt b 16 8
          let s := s.armGroup gid h [] mem
          let s := s.updGroup gid fun x => { x with shadow := true, nextClose := n, oldest := n }
          let s := s.updEntry ((s.group? gid).getD h) fun e => { e with next := dword (fieldAt b 24 8) }
          let i : MigIn := { id := id, gid := gid, src := m, s := n, nshadow := fieldAt b 13 1
                             core := wbits a 20 16, collar := wbits a 24 21, state := 1 }
          let s := s.updPeer fun p => { p with inc := some i, acptStat := 0 }
          s.sendPeer m 0x11 (toBytes 4 id ++ toBytes 1 i.core ++ toBytes 1 i.collar ++ toBytes 2 0) false

/-- Acts on the incoming migration that a message of partner `m` names. -/
def State.withIn (s : State) (m : Nat) (b : List Byte) (act : State → MigIn → State) : State :=
  match s.peer.inc with
  | some i => if i.src = m ∧ i.id = fieldAt b 0 4 then act s i else s
  | none => s

/-- Rewrites the incoming migration. -/
def State.setIn (s : State) (i : MigIn) : State := s.updPeer fun p => { p with inc := some i }

/-- Installs every member of a snapshot that has landed in the Collar's window; true when all agreed. -/
def State.installAll (s : State) (g : Group) (payload : List Byte) (len j : Nat) : Nat → State × Bool
  | 0 => (s, true)
  | fuel + 1 =>
    let r := s.installMember g j (payload.take len)
    let q := r.1.installAll g (payload.drop len) len (j + 1) fuel
    (q.1, r.2 && q.2)

/-- Once every stated line has landed, the snapshot is checked and installed (R363). -/
def State.tryInstall (s : State) : State :=
  match s.peer.inc with
  | none => s
  | some i =>
    match i.size, s.group? i.gid with
    | some size, some g =>
      let have_ := (List.range (ceilDiv size 64)).all fun l => i.landed.any fun (o, n) => decide (o ≤ 64 * l) && decide (64 * l < o + n)
      if i.state ≠ 1 ∨ have_ = false then s
      else
        let k := s.core i.core
        let base := 64 * hBase (Sparse.get (0 : DWord) k.collars i.collar)
        let b := k.spd.read base size
        let f := fieldAt b
        let len := (s.payload g 0).length
        if f 0 2 ≠ 0x0100 ∨ f 2 2 ≠ g.nmem ∨ f 4 4 ≠ len ∨ f 8 8 ≠ i.s ∨ f 16 4 ≠ g.progCrc ∨ crcB (b.take 60) ≠ f 60 4
            ∨ size ≠ 64 + g.nmem * len then
          s.migInFail 0x05
        else
          let r := s.installAll g (b.drop 64) len 0 g.nmem
          if r.2 then
            let s := r.1.updGroup i.gid fun x => { x with gens := gensOfPayload x.nslot ((b.drop 64).take len) }
            s.setIn { i with state := 2 }
          else r.1.migInFail 0x05
    | _, _ => s

/-- Why a Collar refuses a write of the peer port (R211), or none. -/
def peerWhy (e : DWord) (off len : Nat) : Option Nat :=
  if colEn e = false then some 0
  else if colSrc e = 0 then some 2
  else if hExt e < off + len then some 3
  else none

/-- SNAP (R363): it lands whole or not at all. -/
def State.onSnap (s : State) (m : Nat) (b : List Byte) : State :=
  s.withIn m b fun t i =>
    if i.state ≠ 1 then t
    else
      let off := fieldAt b 4 4
      let data := b.drop 8
      match peerWhy (Sparse.get (0 : DWord) (t.core i.core).collars i.collar) off data.length with
      | some why => (t.collarRefuse i.core i.collar m why 0 true).migInFail 0x08
      | none =>
        let t := t.collarLand { src := m, dest := i.core, collar := i.collar, ctx := 0, pc := 0, rows := [(off, data)] }
        (t.setIn { i with landed := i.landed ++ [(off, data.length)] }).tryInstall

/-- SNAP_DONE. -/
def State.onSnapDone (s : State) (m : Nat) (b : List Byte) : State :=
  s.withIn m b fun t i => if i.state ≠ 1 then t else (t.setIn { i with size := some (fieldAt b 4 4) }).tryInstall

/-- COMMIT: accepted at or before the destination's commit point of frame H + 1 (R365). -/
def State.onCommit (s : State) (m : Nat) (b : List Byte) : State :=
  s.withIn m b fun t i =>
    match t.group? i.gid with
    | some g =>
      if i.state = 2 ∧ fieldAt b 8 8 = i.s + i.nshadow ∧ g.oldest ≤ i.s + i.nshadow then
        (t.setIn { i with committed := true }).sendPeer m 0x17
          (toBytes 4 i.id ++ toBytes 4 0 ++ toBytes 8 (i.s + i.nshadow)) false
      else t
    | none => t

/-- YIELD: the incoming migration of an owner ends. -/
def State.onYield (s : State) (m : Nat) (b : List Byte) : State :=
  s.withIn m b fun t i => if i.state = 3 then t.migInDone else t

/-! ## Aborts (R365, R366) -/

/-- ABORT_ACK. -/
def State.sendAbortAck (s : State) (m id : Nat) : State := s.sendPeer m 0x19 (toBytes 4 id) true

/-- Egress lanes of a group stop sending at once. -/
def State.stopLanes (s : State) (gid : Nat) : State :=
  (tab 16 s.outReg).foldl (fun t b =>
    if b.gid = gid then { t with aport := { t.aport with send := t.aport.send.set [] b.lane [] } } else t) s

/-- ABORT: the side it names fails its migration and acknowledges. -/
def State.onAbort (s : State) (m : Nat) (b : List Byte) : State :=
  let id := fieldAt b 0 4
  let code := fieldAt b 4 1
  let isOut := match s.peer.out with | some o => o.dest == m && o.id == id | none => false
  if isOut then
    let s := (s.updPeer fun p => { p with out := none, migStat := word (code * 256) }).raise pgPeer 7
    s.sendAbortAck m id
  else s.withIn m b fun t i =>
    let dual := i.state = 3 ∧ i.released = true
    let t := t.updPeer fun p => { p with inc := none, acptStat := word ((if dual then 0x0D else code) * 256) }
    let t := t.raise pgPeer (if dual then 8 else 7)
    let t := if i.state = 3 then t.stopLanes i.gid else t
    (t.dropArm i.gid).sendAbortAck m id

/-- ABORT_ACK ends an aborted migration. -/
def State.onAbortAck (s : State) (m : Nat) (b : List Byte) : State :=
  match s.peer.out with
  | some o => if o.dest = m ∧ o.id = fieldAt b 0 4 ∧ o.state = 5 then s.updPeer fun p => { p with out := none } else s
  | none => s

/-- A write of ACPT_GID (R362, R366, R367). -/
def State.acptWrite (s : State) (v : Word) : State :=
  let s := s.updPeer fun p => { p with acptGid := v &&& 0x81FFFFFF#32 }
  match s.peer.inc with
  | some i => if v.getLsbD 31 = false ∧ i.state ≠ 3 then s.migInFail 0x0C else s
  | none => s

/-- A write of MIG_CMD (R361, R366). -/
def State.migCmd (s : State) (v : Word) : State :=
  let s := if v.getLsbD 0 then s.migStart else s
  if v.getLsbD 1 then s.migOutFail 0x0C else s

/-! ## Migration at the commit points of the group (R363 to R365) -/

/-- Does the source hand over at this commit point? -/
def State.handsOver (s : State) (gid n : Nat) : Bool := s.peer.out.any fun o => o.hands gid n

/-- The source hands over: frame H + 1 is dropped as a discarded frame, the group is released, and YIELD is sent. -/
def State.handOver (s : State) (gid n : Nat) : State :=
  match s.peer.out with
  | none => s
  | some o =>
    let s := (s.updGroup gid fun g => { g with shadow := true }).discardWork gid n
    (((s.finish gid n 0 0 false).kennelForget gid).freeGroup gid).yieldTo o n

/-- Before a commit: the source's time limits, and the destination's shadow flag at frame H + 1. -/
def State.migBefore (s : State) (gid n : Nat) : State :=
  let s := match s.peer.out with
    | some o =>
      if o.gid ≠ gid ∨ o.state = 5 then s
      else if o.state = 1 ∧ o.s ≤ n + 1 then s.migOutFail 0x0B
      else if o.state = 2 ∧ o.s ≤ n then s.migOutFail 0x07
      else if (o.state = 3 ∨ o.state = 4) ∧ o.s + o.nshadow ≤ n then s.migOutFail 0x0B
      else s
    | none => s
  match s.peer.inc with
  | some i =>
    if i.gid = gid ∧ i.state = 2 ∧ i.committed = true ∧ n = i.s + i.nshadow then
      (s.updGroup gid fun g => { g with shadow := false }).setIn { i with state := 3, released := true }
    else s
  | none => s

/-- After a commit of frame `f` (as it stood before it): digests, and the destination's wait for a COMMIT. -/
def State.migAfter (s : State) (gid : Nat) (f : Frame) (due : Option Nat) : State :=
  match s.group? gid with
  | none => s
  | some g =>
    let s := match s.peer.out with
      | some o =>
        if o.gid = gid ∧ o.state = 3 ∧ o.s ≤ f.n ∧ f.n < o.s + o.nshadow then
          (s.setOut { o with own := o.own ++ [(f.n, s.digest g f)] }).compareDigests
        else s
      | none => s
    match s.peer.inc with
    | some i =>
      if i.gid ≠ gid then s
      else if i.state = 2 ∧ i.s ≤ f.n ∧ f.n < i.s + i.nshadow then
        s.sendPeer i.src 0x15 (toBytes 4 i.id ++ toBytes 4 0 ++ toBytes 8 f.n ++ s.digest g f) false
      else if i.state = 2 ∧ i.committed = false ∧ f.n = i.s + i.nshadow then s.setIn { i with due := due }
      else s
    | none => s

/-- The fire of frame S finds the snapshot not installed (R363). -/
def State.migAtFire (s : State) (gid n : Nat) : State :=
  match s.peer.inc with
  | some i => if i.gid = gid ∧ i.state = 1 ∧ i.s ≤ n then s.migInFail 0x07 else s
  | none => s

/-- At a deadline the destination fails a migration whose COMMIT has not come by its deadline of frame H + 1 (R365). -/
def State.migAtDeadline (s : State) (gid : Nat) : State :=
  match s.peer.inc, s.group? gid with
  | some i, some g =>
    let past := match i.due with
      | some d => decide (d ≤ s.cclk)
      | none => match g.frame? (i.s + i.nshadow) with
        | some f => match s.deadline g f with | some d => decide (d ≤ s.cclk) | none => false
        | none => false
    if i.gid = gid ∧ i.state ≠ 3 ∧ i.committed = false ∧ past = true then s.migInFail 0x0B else s
  | _, _ => s

/-! ## Dropped link frames (R398) -/

/-- A link frame as a Drabin frame with its message type. -/
def rawParse (f : RawFrame) : Nat × PeerFrame :=
  let b := f.bytes
  (fieldAt b 2 1,
   { ver := BitVec.ofNat 16 (fieldAt b 0 2), dst := BitVec.ofNat 8 (fieldAt b 3 1), sid := word (fieldAt b 4 4)
     ctr := dword (fieldAt b 8 8), body := (b.drop 16).take (b.length - 32), tag := b.drop (b.length - 16) })

/-- A received link frame that is dropped: by the link, by its length, or at a step of R353. A frame that passes every step is
none of these, and the row of its message takes it. -/
def State.frameDropped (s : State) (f : RawFrame) : State :=
  if f.err ∨ f.framing ∨ f.full ∨ f.bytes.length < 32 ∨ 9216 < f.bytes.length then s.rxBad
  else
    match s.peerReceive (rawParse f).1 (rawParse f).2 with
    | (t, none) => t
    | (_, some _) => s

/-! ## Meanings -/

/-- HELLO (R350). -/
def execHello (frame : PeerFrame) (s : State) : Host.Outcome State Fault Refusal := done (s.onMessage 0x01 frame State.onHello)

/-- HEARTBEAT (R350). -/
def execHeartbeat (frame : PeerFrame) (s : State) : Host.Outcome State Fault Refusal :=
  done (s.onMessage 0x02 frame State.onHeartbeat)

/-- OFFER (R362). -/
def execOffer (frame : PeerFrame) (mem : MemCode) (s : State) : Host.Outcome State Fault Refusal :=
  done (s.onMessage 0x10 frame fun t m b => t.onOffer m b mem)

/-- ACCEPT (R363). -/
def execAccept (frame : PeerFrame) (s : State) : Host.Outcome State Fault Refusal := done (s.onMessage 0x11 frame State.onAccept)

/-- REFUSE (R368). -/
def execRefuse (frame : PeerFrame) (s : State) : Host.Outcome State Fault Refusal := done (s.onMessage 0x12 frame State.onRefuse)

/-- SNAP (R363). -/
def execSnap (frame : PeerFrame) (s : State) : Host.Outcome State Fault Refusal := done (s.onMessage 0x13 frame State.onSnap)

/-- SNAP_DONE (R363). -/
def execSnapDone (frame : PeerFrame) (s : State) : Host.Outcome State Fault Refusal :=
  done (s.onMessage 0x14 frame State.onSnapDone)

/-- DIGEST (R364). -/
def execDigest (frame : PeerFrame) (s : State) : Host.Outcome State Fault Refusal := done (s.onMessage 0x15 frame State.onDigest)

/-- COMMIT (R365). -/
def execCommit (frame : PeerFrame) (s : State) : Host.Outcome State Fault Refusal := done (s.onMessage 0x16 frame State.onCommit)

/-- COMMIT_ACK (R365). -/
def execCommitAck (frame : PeerFrame) (s : State) : Host.Outcome State Fault Refusal :=
  done (s.onMessage 0x17 frame State.onCommitAck)

/-- YIELD (R365). -/
def execYieldGroup (frame : PeerFrame) (s : State) : Host.Outcome State Fault Refusal :=
  done (s.onMessage 0x1A frame State.onYield)

/-- ABORT (R366). -/
def execDrabinAbort (frame : PeerFrame) (s : State) : Host.Outcome State Fault Refusal :=
  done (s.onMessage 0x18 frame State.onAbort)

/-- ABORT_ACK (R366). -/
def execAbortAck (frame : PeerFrame) (s : State) : Host.Outcome State Fault Refusal :=
  done (s.onMessage 0x19 frame State.onAbortAck)

/-- HEARTBEAT_PERIOD (R350). -/
def execHeartbeatPeriod (s : State) : Host.Outcome State Fault Refusal :=
  done (if s.running && s.early && s.hbPeriod != 0 then (List.range 16).foldl State.periodSend s else s)

/-- HB_MISS_EXPIRY (R350). -/
def execHbMissExpiry (member : Nat) (s : State) : Host.Outcome State Fault Refusal :=
  let p := s.partner member
  done (if s.running && decide (member < 16) && p.st == .up && s.hbPeriod != 0
      && decide (s.hbMiss * s.hbPeriod ≤ s.fclk - p.heard) then
      (s.partnerTo member .joining).raise pgPeer 1
    else s)

/-- TOKEN_BUCKET_REFILL (R354): 2^16 FCLK have passed. -/
def execTokenBucketRefill (s : State) : Host.Outcome State Fault Refusal :=
  done (if s.running then
      s.updPeer fun p => { p with parts := p.parts.map fun e =>
        (e.1, { e.2 with tokens := min (wbits p.rate 31 16) (e.2.tokens + wbits p.rate 15 0) }) }
    else s)

/-- KEY_WRITE (R355). -/
def execKeyWrite (slot word : Nat) (value : Word) (acc : Acc) (s : State) : Host.Outcome State Fault Refusal :=
  done (s.cfgWrite (if slot < 16 ∧ word < 8 then 0x6200 + 32 * slot + 4 * word else noAddr) acc fun t => t.keyWrite slot word value)

/-- PART_CFG_WRITE (R350). -/
def execPartCfgWrite (member : Nat) (value : Word) (acc : Acc) (s : State) : Host.Outcome State Fault Refusal :=
  done (s.cfgWrite (if member < 16 then 0x6100 + 16 * member else noAddr) acc fun t => t.partCfgWrite member value)

/-- MIG_START (R361): a write of MIG_CMD.START. -/
def execMigStart (acc : Acc) (s : State) : Host.Outcome State Fault Refusal := done (s.cfgWrite 0x640C acc fun t => t.migCmd 1)

/-- MIG_ABORT (R366): a write of MIG_CMD.ABORT. -/
def execMigAbort (acc : Acc) (s : State) : Host.Outcome State Fault Refusal := done (s.cfgWrite 0x640C acc fun t => t.migCmd 2)

/-- ACPT_EN_CLEAR (R366): a write of ACPT_GID. -/
def execAcptEnClear (value : Word) (acc : Acc) (s : State) : Host.Outcome State Fault Refusal :=
  done (s.cfgWrite 0x6418 acc fun t => t.acptWrite value)

/-- MIG_SNAPSHOT (R359). -/
def execMigSnapshot (s : State) : Host.Outcome State Fault Refusal := done (if s.running then s.takeSnapshot else s)

/-- PEER_FRAME_DROPPED (R398). -/
def execPeerFrameDropped (frame : RawFrame) (s : State) : Host.Outcome State Fault Refusal :=
  done (if s.running then s.frameDropped frame else s)

end Sys2Proof.Machine
end

