-- ==== Sys2Proof/Machine/FrameRows.lean ====
section
/-! DEFINITION. What the calendar, the packs and Leash do with frames (08_time_and_admission, R239 to R264, R274, R322): firing,
starting, collecting the ends, committing, deadlines, budgets, standby moves, the governor's window and lost trace records. -/

namespace Sys2Proof.Machine

/-! ## Choosing a frame (R249) -/

/-- A frame that waits for the calendar: its group, itself, its deadline, and the entry of its group. -/
structure Waiter where
  gid : Nat
  n : Nat
  due : Option Nat
  entry : Nat
  deriving DecidableEq, Repr

/-- Does the first of two waiters go first: the earlier deadline, then the lower entry; no deadline ranks last? -/
def Waiter.before (a b : Waiter) : Bool :=
  match a.due, b.due with
  | some x, some y => decide (x < y) || (x == y && decide (a.entry < b.entry))
  | some _, none => true
  | none, some _ => false
  | none, none => decide (a.entry < b.entry)

/-- The waiter that goes first. -/
def firstWaiter (ws : List Waiter) : Option Waiter :=
  ws.foldl (fun a w => match a with
    | none => some w
    | some b => if w.before b then some w else some b) none

/-- A frame as a waiter. -/
def State.waiter (s : State) (gid : Nat) (g : Group) (f : Frame) : Waiter := ⟨gid, f.n, s.deadline g f, g.entry⟩

/-- Groups of a pack whose frames may fire: armed, and not waiting only to be freed. -/
def State.firingGroups (s : State) (p : Nat) : List (Nat × Group) :=
  s.groups.filter fun e => e.2.live && e.2.pack == p && !(e.2.stage == .releasing && e.2.freeable)

/-- The frames of a pack that are due to fire: the close has passed by LAG, or, of a PREFIRE group, the close has passed and the
predecessor is finished (R239, R241). -/
def State.dueToFire (s : State) (p : Nat) : List Waiter :=
  (s.firingGroups p).filterMap fun (gid, g) =>
    match g.unfired with
    | some f =>
      match f.close with
      | some c =>
        if decide (c + g.lag ≤ s.fclk) || (g.prefire && f.n == g.oldest) then some (s.waiter gid g f) else none
      | none => none
    | none => none

/-- Has the calendar of a pack fired no entry in this FCLK? It fires at most one (R249). -/
def State.calFree (s : State) (p : Nat) : Bool := (s.pack p).firedAt != some s.fclk

/-- Fires a frame, unless the group's migration fails at this fire (R363). -/
def State.fireOne (s : State) (w : Waiter) : State :=
  let s := match s.group? w.gid with
    | some g => s.updPack g.pack fun p => { p with firedAt := some s.fclk }
    | none => s
  let s := s.migAtFire w.gid w.n
  match s.group? w.gid with
  | some g => if g.live then s.fireFrame w.gid w.n else s
  | none => s

/-- PREFIRE groups of a pack whose next frame may fire ahead of its close: its predecessor has been committed or discarded, and
the close has not passed. -/
def State.prefireDue (s : State) (p : Nat) : List Waiter :=
  (s.firingGroups p).filterMap fun (gid, g) =>
    if g.prefire && (g.frames.all fun f => f.phase == .finished) then some ⟨gid, g.oldest, none, g.entry⟩ else none

/-- Fires a PREFIRE frame ahead of its close. -/
def State.firePrefire (s : State) (w : Waiter) : State :=
  (s.updGroup w.gid fun g => { g with frames := g.frames ++ [{ n := w.n }] }).fireOne w

/-- The fired frames of a pack that can start. -/
def State.startable (s : State) (p : Nat) : List Waiter :=
  (s.groups.filter fun e => e.2.live && e.2.pack == p).filterMap fun (gid, g) =>
    (g.frames.find? fun f => s.canStart g f).map (s.waiter gid g)

/-! ## Ends and commits (R160, R274, R322, R323) -/

/-- Has every slot of a running frame completed its END? -/
def State.allEnded (s : State) (gid : Nat) (g : Group) (n : Nat) : Bool :=
  (List.range g.nslot).all fun k =>
    let q := (s.core (g.core k)).csq
    q.run == .frame gid n k && q.ended

/-- The frame of a group whose slots run. -/
def Group.runningFrame (g : Group) : Option Frame := g.frames.find? fun f => f.phase == .running

/-- END collection: every slot of the running frame has ended. -/
def State.collectEnds (s : State) (gid : Nat) : State :=
  match s.group? gid with
  | none => s
  | some g =>
    match g.runningFrame with
    | some f => if s.allEnded gid g f.n then s.updFrame gid f.n fun x => { x with phase := .ready } else s
    | none => s

/-- Does a frame of the group commit locally: tick mode, one slot, egress outputs only (R27, R323)? A commit-triggered Retriever carries
memory outputs, and every tile binding carries tile outputs (R391). -/
def State.groupLocal (s : State) (gid : Nat) (g : Group) (f : Frame) : Bool :=
  !g.block && g.nslot == 1 && g.fence.isNone && g.notify.isNone && f.tiles.isEmpty && (s.groupRtvs gid g 0 2).isEmpty

/-- The frame of a group that may commit. -/
def State.committable (s : State) (gid : Nat) (g : Group) : Option Frame :=
  g.frames.find? fun f => f.phase == .ready || (f.phase == .running && s.groupLocal gid g f && s.allEnded gid g f.n)

/-- The commit of a frame, with what Kennel and a migration do at it. -/
def State.commitOne (s : State) (gid n : Nat) : State :=
  if s.handsOver gid n then s.handOver gid n
  else
    let s := s.migBefore gid n
    match s.group? gid, s.frame? gid n with
    | some g, some f =>
      let s := s.updGroup gid fun x => { x with movable := x.movable || !x.moves.isEmpty }
      let s := s.commitFrame gid n
      let s := if g.shadow then s else s.kennelCommit gid n
      s.migAfter gid f (s.deadline g f)
    | _, _ => s

/-! ## Deadlines (R247, R250, R260, R262, R344) -/

/-- The first unfinished frame of a group whose deadline has passed, and whose fallback is still to be released or, in the power-fail
state, whose work is still to be discarded. -/
def State.overdue (s : State) (g : Group) : Option Frame :=
  g.frames.find? fun f => f.phase != .finished && (!f.late || s.glb.pf)
    && (match s.deadline g f with | some d => decide (d ≤ s.cclk) | none => false)

/-- A deadline passes. A close that has not fired is used up: its frame is released without compute, as parked or starved when
its group is. -/
def State.deadlineOne (s : State) (gid n : Nat) : State :=
  match s.group? gid, s.frame? gid n with
  | some g, some f =>
    let e := Sparse.get default (s.pack g.pack).entries g.entry
    let s :=
      if f.phase = .closed ∧ f.parked = false ∧ f.noBudget = false then
        if g.parked.isSome || e.budget == 0 || e.suspended then s.fireFrame gid n
        else s.updEntry g fun x => { x with next := x.next + dword g.p }
      else s
    let s := if f.late then s else s.passDeadline gid n
    if s.glb.pf && (s.frame? gid n).any (fun x => x.phase != .finished) then s.failFrame gid n 0 else s
  | _, _ => s

/-! ## Standby cores (R255) -/

/-- Moves one slot of a group to its standby core: the committed banks of the state slots that its slot lists name are copied. -/
def State.moveSlot (s : State) (gid k m : Nat) : State :=
  match s.group? gid with
  | none => s
  | some g =>
    let old := g.core k
    let new := 4 * g.pack + m
    let s := (s.groupSlots g old).foldl (fun t i => t.setCore new ((t.core new).installSlot i ((t.core old).slotImage i)).1) s
    s.setGroup gid { g with cores := g.cores.set k m }

/-- Moves the slots that a recosting chose, once a frame has committed since and none is fired. -/
def State.standbyMove (s : State) (gid : Nat) : State :=
  match s.group? gid with
  | none => s
  | some g =>
    if g.moves.isEmpty || !g.movable || !(g.frames.all fun f => f.phase == .closed || f.phase == .finished) then s
    else
      let before := s.fxOf g
      let s := g.moves.foldl (fun t (k, m) => t.moveSlot gid k m) s
      match s.group? gid with
      | none => s
      | some h =>
        let h := { s.priced h with moves := [], movable := false }
        let s := s.setGroup gid h
        let s := (s.fxOf h).foldl (fun t (c, i) => t.pin c i true) s
        let s := before.foldl (fun t (c, i) => if t.fxNeeded c i then t else t.pin c i false) s
        (s.updEntry h fun e => { e with cores := h.coresField, wres := 2 * h.wg % 2 ^ 32 }).setDlPower

/-! ## The governor and the trace (R434, R405) -/

/-- A governor window begins; `slowed` says that it slowed best-effort work. -/
def State.governor (s : State) (slowed : Bool) : State :=
  let was := s.power.slowed
  let s := { s with power := { s.power with
      grant := s.power.limit.toNat % 65536 - s.power.dlPower
      throttle := if slowed then satWord s.power.throttle 1 else s.power.throttle, slowed := slowed } }
  s.raiseIf (slowed && !was) pgPower 1

/-- A TYPE 0x0F record reports the dropped records once room returns. -/
def State.traceLostRec (s : State) : State :=
  if s.traceGap ≠ 0 ∧ s.trace.length < 256 then
    { s with trace := s.trace ++ [⟨0x0F, s.fclk % 2 ^ 48, 0xFF, min 0xFFFF s.traceGap, 0, 0⟩], traceGap := 0 }
  else s

/-! ## Meanings -/

/-- FRAME_FIRE (R249): the calendar of a pack fires one entry. -/
def execFrameFire (pack : Nat) (s : State) : Host.Outcome State Fault Refusal :=
  done (if s.running && !s.glb.pf && s.calFree pack then
      match firstWaiter (s.dueToFire pack) with
      | some w => s.fireOne w
      | none => s
    else s)

/-- PREFIRE_FIRE (R241): behind every entry whose close has passed, a PREFIRE entry fires ahead of its close. -/
def execPrefireFire (pack : Nat) (s : State) : Host.Outcome State Fault Refusal :=
  done (if s.running && !s.glb.pf && s.calFree pack && (s.dueToFire pack).isEmpty then
      match firstWaiter (s.prefireDue pack) with
      | some w => s.firePrefire w
      | none => s
    else s)

/-- TRACE_LOST_RECORD (R405). -/
def execTraceLostRecord (s : State) : Host.Outcome State Fault Refusal := done (if s.running then s.traceLostRec else s)

/-- FRAME_START (R249): the frame of earliest deadline among those that can start. -/
def execFrameStart (pack : Nat) (s : State) : Host.Outcome State Fault Refusal :=
  done (if s.running then
      match firstWaiter (s.startable pack) with
      | some w => s.startFrame w.gid w.n
      | none => s
    else s)

/-- END_COLLECTION (R274). -/
def execEndCollection (gid : Nat) (s : State) : Host.Outcome State Fault Refusal :=
  done (if s.running then s.collectEnds gid else s)

/-- FRAME_COMMIT (R322). -/
def execFrameCommit (gid : Nat) (s : State) : Host.Outcome State Fault Refusal :=
  done (if s.running then
      match s.group? gid with
      | some g =>
        match s.committable gid g with
        | some f => s.commitOne gid f.n
        | none => s
      | none => s
    else s)

/-- FRAME_DEADLINE (R260). -/
def execFrameDeadline (gid : Nat) (s : State) : Host.Outcome State Fault Refusal :=
  done (if s.running then
      let t := match s.group? gid with
        | some g =>
          match s.overdue g with
          | some f => s.deadlineOne gid f.n
          | none => s
        | none => s
      t.migAtDeadline gid
    else s)

/-- BUDGET_RESTORE (R250): Sheepdog, while it runs, restores every entry of a pack. -/
def execBudgetRestore (pack : Nat) (s : State) : Host.Outcome State Fault Refusal :=
  done (if s.running && s.early && !s.sd.restart && decide (pack < s.conf.packs) then
      s.updPack pack fun p => { p with entries := p.entries.map fun e => (e.1, { e.2 with budget := 256 }) }
    else s)

/-- STANDBY_MOVE (R255). -/
def execStandbyMove (gid : Nat) (s : State) : Host.Outcome State Fault Refusal :=
  done (if s.running then s.standbyMove gid else s)

/-- GOVERNOR_WINDOW (R434). -/
def execGovernorWindow (slowed : Bool) (s : State) : Host.Outcome State Fault Refusal :=
  done (if s.running && s.early then s.governor slowed else s)

end Sys2Proof.Machine
end

