-- ==== Sys2Proof/Machine/JobRows.lean ====
section
/-! DEFINITION. Best-effort jobs on the cores (08_time_and_admission, R256 to R258; 10_host_objects, R292): start, preemption,
parking and resume. -/

namespace Sys2Proof.Machine

/-! ## Starting (R292) -/

/-- Is a frame fired and not yet finished on a core? -/
def State.framePending (s : State) (c : Nat) : Bool :=
  s.groups.any fun e => e.2.allCores.contains c
    && e.2.frames.any fun f => f.phase == .fired || f.phase == .running || f.phase == .ready

/-- May best-effort work take a core: in service, powered, idle, without a pending frame and not held by a PREFIRE group (R241,
R258, R292, R328)? -/
def State.coreFree (s : State) (c : Nat) : Bool :=
  s.coreOn c && (s.core c).inService && s.coreIdle c && !s.framePending c
    && !(s.groups.any fun e => e.2.prefire && e.2.allCores.contains c)

/-- Jobs are started in full service, outside the power-fail state (R344, R412). -/
def State.jobsRun (s : State) : Bool := s.running && s.full && !s.glb.pf

/-- Rank of a ready job: ring PRIO, acceptance, ring. -/
def State.jobRank (s : State) (r : Nat) : Nat × Nat × Nat :=
  ((s.ring r).prio, ((s.ring r).queue.head?.map (·.accepted)).getD 0, r)

/-- Does a rank go before another: higher PRIO, then earlier acceptance, then lower ring? -/
def rankBefore (a b : Nat × Nat × Nat) : Bool :=
  decide (b.1 < a.1) || (a.1 == b.1 && (decide (a.2.1 < b.2.1) || (a.2.1 == b.2.1 && decide (a.2.2 < b.2.2))))

/-- The ready job that a core starts, by its ring: all of its slot cores are free. -/
def State.jobToStart (s : State) (c : Nat) : Option Nat :=
  let ready := (s.jobs.filter fun e => e.2.stage == .ready && e.2.cores.contains c && e.2.cores.all s.coreFree).map (·.1)
  ready.foldl (fun a r => match a with
    | none => some r
    | some b => if rankBefore (s.jobRank r) (s.jobRank b) then some r else some b) none

/-- All slots of a job start together, with the generators seeded from its record (R62, R292). -/
def State.startJob (s : State) (r : Nat) : State :=
  match s.job? r with
  | none => s
  | some j =>
    let gens := seedGens j.seed j.slots.length
    let s := s.updJob r fun x => { x with stage := .running, held := [], ended := [], saved := [], cnts := [] }
    j.slots.zipIdx.foldl (fun t (sl, k) =>
      t.updCore sl.core fun q => q.begin (.job r k) sl.prog k 0 (slotGens gens k)) s

/-! ## Giving way (R256, R257, R128, R222, R307, R344) -/

/-- Bytes of a save area. -/
def saveBytes : Nat := 272 * 1024

/-- What is saved of a slot: the elapsed part of a wait is kept in place of its start. -/
def State.savedSlot (s : State) (c : Nat) : SavedSlot :=
  let k := s.core c
  { csq := { k.csq with waiting := k.csq.waiting.map fun t => s.fclk - t }
    mxas := tab 4 fun a => k.mxa a, sregs := k.sregs }

/-- Frees the cores of a job. -/
def State.freeCores (s : State) (r : Nat) : State :=
  s.onJobCores r fun k => { k with csq := k.csq.rest, preempt := false }

/-- Saves every slot of a job into its save area, whose layout belongs to the engine, and frees its cores. -/
def State.saveJob (s : State) (r : Nat) (j : Job) (stage : JobStage) : State :=
  let saved := j.slots.zipIdx.map fun (sl, k) => (k, s.savedSlot sl.core)
  let s := j.slots.foldl (fun t sl => t.hostOpenRange sl.save saveBytes) s
  (s.freeCores r).updJob r fun x => { x with stage := stage, saved := saved, held := [], parking := none }

/-- Every slot of a job has stopped: it is discarded in the power-fail state, aborted, parked, or displaced; a memory error on a save
area ends it (R295). -/
def State.jobStopped (s : State) (r : Nat) (j : Job) (mem : MemCode) : State :=
  if s.glb.pf then
    let s := s.onJobCores r fun k => let q := k.closeSlots; { q with csq := q.csq.rest, preempt := false }
    { s with jobs := s.jobs.del r }
  else if j.abortAt.isSome then
    let pc := match j.slots.head? with | some sl => (s.core sl.core).csq.pc | none => 0
    s.endJob r { status := 0x42, offset := 32 * pc }
  else if mem ≠ .ok then
    (s.memErr mem true ((j.slots.head?.map (·.save)).getD 0) .best).endJob r { status := 0x48 }
  else
    match j.parking with
    | some st =>
      let s := s.saveJob r j st
      if st = .parkedNan then
        j.cores.foldl (fun t c =>
          t.raiseIf ((t.core c).nan.stat.getLsbD 1 && (t.core c).nan.halt == some r) (pgCore c) 7) s
      else s
    | none =>
      let s := j.slots.zipIdx.foldl (fun t (sl, _) => t.traceRec 6 sl.core r 0 0) s
      s.saveJob r j .displaced

/-- A slot of a job that is asked to stop reaches a preemption point: it is between instructions or waits, with nothing of its
own still in flight. -/
def State.giveWay (s : State) (c : Nat) (mem : MemCode) : State :=
  let k := s.core c
  match k.csq.run with
  | .job r slot =>
    match s.job? r with
    | some j =>
      if s.jobStops j && !s.lastEnd j c && !j.held.contains slot && k.csq.rread.isNone && k.csq.remote == 0 then
        let j := { j with held := j.held ++ [slot] }
        let s := s.updJob r fun _ => j
        if j.held.length = j.slots.length then s.jobStopped r j mem else s
      else s
    | none => s
  | _ => s

/-! ## The latest start (R257) -/

/-- Deadline frames pending on a core: deadline and WRES. -/
def State.pendingOn (s : State) (c : Nat) : List (Nat × Nat) :=
  (s.groups.filter fun e => e.2.allCores.contains c).flatMap fun e =>
    e.2.frames.filterMap fun f =>
      if f.phase == .fired || f.phase == .running || f.phase == .ready then (s.deadline e.2 f).map fun d => (d, 2 * e.2.wg) else none

/-- Has the edge 2,304 CCLK before the smallest latest start of a core come? -/
def State.lstPassed (s : State) (c : Nat) : Bool :=
  let ps := s.pendingOn c
  ps.any fun x =>
    let need := ((ps.filter fun y => decide (y.1 ≤ x.1)).map (·.2)).foldl (· + ·) 0
    decide (x.1 ≤ s.cclk + need + 2304)

/-- Does a group with START = 1 have a frame pending on a core? -/
def State.startPending (s : State) (c : Nat) : Bool :=
  s.groups.any fun e => e.2.start && e.2.allCores.contains c
    && e.2.frames.any fun f => f.phase == .fired || f.phase == .running || f.phase == .ready

/-! ## Resuming (R258, R222, R273) -/

/-- An array with its saved content: weights whose array has been narrowed since lose their tag. -/
def Mxa.restore (now old : Mxa) : Mxa :=
  { old with byps := now.byps, retired := now.retired, tag := if old.byps = now.byps then old.tag else none
             crc := if old.byps = now.byps then old.crc else none }

/-- A core takes a saved slot back. -/
def Core.restore (k : Core) (fclk : Nat) (v : SavedSlot) : Core :=
  let k := { k with sregs := v.sregs
                    csq := { v.csq with epoch := k.csq.epoch + 1, remote := k.csq.remote
                                        waiting := v.csq.waiting.map fun t => fclk - t } }
  v.mxas.zipIdx.foldl (fun q (m, a) => q.updMxa a fun x => x.restore m) k

/-- The Retrievers of a job go on: a parked one reissues the line that faulted. -/
def State.resumeRtvs (s : State) (r : Nat) : State :=
  s.cores.foldl (fun t (c, k) =>
    (List.range 8).foldl (fun u i =>
      let x := k.rtv i
      if x.be && x.id == r && (x.st == .parked || x.st == .running) then
        (u.updRtv c i fun y => { y with st := .running, code := if x.st = .parked then 0 else y.code }).rtvGo c i
      else u) t) s

/-- A displaced job resumes from its save area once its cores are free; a memory error on a save area ends it (R295). -/
def State.resumeJob (s : State) (r : Nat) (mem : MemCode) : State :=
  match s.job? r with
  | none => s
  | some j =>
    if j.stage ≠ .displaced ∨ j.cores.all s.coreFree = false then s
    else if mem ≠ .ok then
      ((s.memErr mem false ((j.slots.head?.map (·.save)).getD 0) .best).dropJob r j).finishHead r { status := 0x48 }
    else
      let s := s.updJob r fun x => { x with stage := .running, saved := [] }
      let s := j.slots.zipIdx.foldl (fun t (sl, k) =>
        match j.saved.find? (·.1 == k) with
        | some (_, v) => t.updCore sl.core fun q => q.restore t.fclk v
        | none => t) s
      s.resumeRtvs r

/-! ## Meanings -/

/-- JOB_START (R292). -/
def execJobStart (core : Nat) (s : State) : Host.Outcome State Fault Refusal :=
  done (if s.jobsRun then
      match s.jobToStart core with
      | some r => s.startJob r
      | none => s
    else s)

/-- PREEMPT_LST_TIMER (R257). -/
def execPreemptLstTimer (core : Nat) (s : State) : Host.Outcome State Fault Refusal :=
  done (if s.running && s.startPending core && s.lstPassed core then s.requestPreempt core else s)

/-- PREEMPTION_POINT (R256). -/
def execPreemptionPoint (core : SaveAt) (s : State) : Host.Outcome State Fault Refusal :=
  done (if s.running then s.giveWay core.unit core.mem else s)

/-- JOB_RESUME (R258). -/
def execJobResume (ring : SaveAt) (s : State) : Host.Outcome State Fault Refusal :=
  done (if s.jobsRun then s.resumeJob ring.unit ring.mem else s)

end Sys2Proof.Machine
end

