-- ==== Sys2Proof/Machine/Faults.lean ====
section
/-! DEFINITION. Faults and background checks (11_faults_and_kennel, R315 to R330). -/

namespace Sys2Proof.Machine

/-! ## Scrubbing (R317, R321, R325) -/

/-- Does the frame or job that a core runs use an SPD line: its program names a handle that covers it? -/
def State.usesLine (s : State) (c line : Nat) : Bool :=
  let k := s.core c
  k.csq.run != .idle && (s.programObjs c k.csq.prog).any fun o =>
    let e := Sparse.get (0 : DWord) k.handles (o.1 % 256)
    hValid e && decide (hBase e ≤ line) && decide (line ≤ hBase e + hLen e)

/-- The scrubber finds an uncorrectable error in an SPD line: a fault of the run that uses the line. -/
def State.scrubFault (s : State) (c line : Nat) : State :=
  s.faultFor (if s.usesLine c line then (s.core c).csq.run else .idle) c .spd line 0

/-- A scrub step of an SPD line. -/
def State.spdScrub (s : State) (c line : Nat) (res : ScrubResult) : State :=
  match res with
  | .clean => s
  | .corrected => s.corrected c .spd line 0
  | .uncorrectable => s.scrubFault c line

/-- Does an instruction of a program use an array: its planes, or with `acm` its ACM only? A product uses the arrays that hold its output
columns; RECUR and LCONV use all four (R66, R138, R154). -/
def Core.arrUsed (k : Core) (w : IWord) (a : Nat) (acm : Bool) : Bool :=
  match IWord.opc w with
  | some .loadw => !acm && nbits w (12 + a) 1 == 1
  | some .matmul => decide (((k.widths.take a).foldl (· + ·) 0) < IWord.nCols w)
  | some .matvec => decide (((k.widths.take a).foldl (· + ·) 0) < IWord.nCols w)
  | some .recur => true
  | some .lconv => true
  | _ => false

/-- The frame or job that a core runs, when its program uses an array (R317); a fault of an array that it does not use touches none. -/
def Core.arrRun (k : Core) (a : Nat) (acm : Bool) : Run :=
  if (List.range (k.progNinst k.csq.prog)).any fun i => k.arrUsed (k.progWord k.csq.prog (i + 1)) a acm then k.csq.run else .idle

/-- A scrub step of an ACM row. -/
def State.acmScrub (s : State) (c a row : Nat) (res : ScrubResult) : State :=
  match res with
  | .clean => s
  | .corrected => s.corrected c .acm (row + 512 * a) 0
  | .uncorrectable => s.faultFor ((s.core c).arrRun a true) c .acm (row + 512 * a) 0

/-- Writes back the next corrected word (R316); it stores the data that its readers already received. -/
def State.writeBack (s : State) (c : Nat) : State := s.updCore c fun k => { k with toWrite := k.toWrite.drop 1 }

/-! ## Committed banks (R321, R136) -/

/-- The initial state of a slot, as the bytes of a bank. -/
def Core.initBank (k : Core) (idx : Nat) : List Byte :=
  let e := k.entry idx
  let h := k.slotHdr e
  let n := bankBytes h.efmt h.nelem
  if nbits h.flags 2 1 = 1 then k.rd e (64 + 2 * n) n else List.replicate n 0

/-- The committed bank of a slot that lost a line is rewritten from the initial state; STEP is unchanged. -/
def State.bankRewrite (s : State) (c idx : Nat) : State :=
  if (s.core c).lost.contains idx then
    (s.updCore c fun k =>
      let e := k.entry idx
      let h := k.slotHdr e
      let q := k.wr e (bankOff h h.cur) (k.initBank idx)
      let b := k.bankLines idx
      { q with wlog := [], lost := q.lost.erase idx
               bad := q.bad.filter fun l => !(decide (b.1 ≤ l / 16) && decide (l / 16 < b.1 + b.2)) }).raise (pgCore c) 2
  else s

/-! ## Arrays (R96, R168, R326, R327) -/

/-- The columns of an array whose recomputed CRC differs from the recorded one; bypassed columns are skipped. -/
def Mxa.crcFails (m : Mxa) : List Nat :=
  match m.crc with
  | none => []
  | some cs => (List.range 32).filter fun c => !m.byps.contains c && columnCrc m.active c != cs.getD c 0

/-- The read-back of an active plane, in which `upsets` have flipped bits of the cells they name. -/
def State.readback (s : State) (c a : Nat) (upsets : List (Nat × BitVec 16)) : State :=
  let s := s.updCore c fun k => k.updMxa a fun m =>
    { m with active := upsets.foldl (fun p (i, x) => Sparse.set 0 p i (Sparse.get 0 p i ^^^ x)) m.active }
  match ((s.core c).mxa a).crcFails with
  | [] => s
  | col :: _ =>
    let s := s.updCore c fun k => k.updMxa a fun m => { m with tag := none, crc := none }
    s.faultFor ((s.core c).arrRun a false) c .weightReadback (32 * a) col

/-- A column that fails two tests in a row is bypassed; the third in one array takes the core out of service. -/
def State.bypass (s : State) (c a col : Nat) : State :=
  let m := (s.core c).mxa a
  if m.byps.length < 2 then
    ((s.updCore c fun k => k.updMxa a fun x => { x with byps := x.byps ++ [col], tag := none, crc := none }).raise
      (pgCore c) 4).recost c
  else s.retireCore c

/-- The known-answer test of the arrays of a core, with the columns whose results differ: the first failure of a column counts, the
second in a row bypasses it and is a fault of the running frame, which restarts at the new width. -/
def State.answerTest (s : State) (c : Nat) (fails : List (Nat × Nat)) : State :=
  let live := fails.eraseDups.filter fun (a, col) => decide (a < 4) && decide (col < 32) && !((s.core c).mxa a).byps.contains col
  let again := live.filter fun x => (s.core c).lastFails.contains x
  let once := live.filter fun x => !(s.core c).lastFails.contains x
  let s := s.updCore c fun k => { k with ceCnt := satWord k.ceCnt once.length, lastFails := once }
  let s := again.foldl (fun t (a, col) => t.bypass c a col) s
  again.foldl (fun t (a, col) => t.fault c .columnTest (32 * a) col) s

/-! ## Control messages (R315, R328) -/

/-- The frame that a control message of a core concerns: one fired there, else the one that runs. -/
def State.messageFrame (s : State) (c : Nat) : Option Run :=
  let here := s.groups.filter fun e => e.2.allCores.contains c
  let find (p : FramePhase) : Option Run :=
    here.findSome? fun e => (e.2.frames.find? fun f => f.phase == p).map fun f => .frame e.1 f.n (e.2.allCores.idxOf c)
  match find .fired with
  | some r => some r
  | none => find .running

/-- A control message is sent again: delivered, it is a fault of its frame; failing twice, it takes the core out of service,
unless LIMIT is 0 (R346). -/
def State.controlRetry (s : State) (c : Nat) (failedAgain : Bool) (source : Nat) : State :=
  if failedAgain then
    let s := s.faultFor .idle c .fabric 0 source
    if s.sd.fltLim = 0 then s else s.retireCore c
  else
    match s.messageFrame c with
    | some r => s.faultFor r c .fabric 0 source
    | none => s

/-! ## Calendar entries and Sheepdog (R329) -/

/-- A calendar entry with an uncorrectable error is suspended. -/
def State.suspendEntry (s : State) (p i : Nat) : State :=
  match (s.pack p).entries.find? (·.1 == i) with
  | some (_, e) => (s.updPack p fun q => { q with entries := q.entries.put i { e with suspended := true } }).raise (pgPack p) 5
  | none => s

/-- Sheepdog rewrites a suspended entry from its own copy. -/
def State.rewriteEntry (s : State) (p i : Nat) : State :=
  match (s.pack p).entries.find? (·.1 == i) with
  | some (_, e) =>
    if e.suspended then s.updPack p fun q => { q with entries := q.entries.put i { e with suspended := false } } else s
  | none => s

/-- The frame or job that owns a line of a data link that lands at core `c` from core `src`: that of a remote write, of a remote read of
`c`, or of a Retriever whose line it is (R315); a DMA line has none. -/
def State.lineOwner (s : State) (c src : Nat) : Run :=
  match s.rwrites.find? fun w => w.src == src && w.dest == c with
  | some w => w.run
  | none =>
    if (s.core c).csq.rread.any fun q => q.core == src then (s.core c).csq.run
    else
      match (s.core src).rtvs.find? fun r => r.2.cur.any fun m => (landCores src m.mcast).contains c with
      | some (_, x) => if x.be then .job x.id 0 else .frame x.id x.runFrame 0
      | none => .idle

/-- A check reports an uncorrectable fault. -/
def State.uncorrectable (s : State) (c : Nat) (src : FaultSrc) (loc col : Nat) : State :=
  match src with
  | .calendar => s.suspendEntry (packOf c) (loc % 512)
  | .fabric => s.faultFor (s.lineOwner c col) c .fabric loc col
  | _ => s.fault c src loc col

/-! ## Meanings -/

/-- The checks of R315 that correct a single-bit error. -/
def singleBit (src : FaultSrc) : Bool := src == .spd || src == .acm || src == .fabric || src == .calendar

/-- May a check of a core report? -/
def State.checks (s : State) (c : Nat) : Bool := s.running && s.coreOn c

/-- UNCORRECTABLE_FAULT (R315). -/
def execUncorrectableFault (core : Nat) (src : FaultSrc) (loc : BitVec 16) (col : BitVec 5) (s : State) :
    Host.Outcome State Fault Refusal :=
  done (if s.checks core then s.uncorrectable core src loc.toNat col.toNat else s)

/-- STATE_BANK_REWRITE (R321). -/
def execStateBankRewrite (core : Nat) (index : Nat) (s : State) : Host.Outcome State Fault Refusal :=
  done (if s.checks core then s.bankRewrite core index else s)

/-- CORRECTED_WRITEBACK (R316): a check has corrected a single-bit error for a reader, which is counted, recorded and queued; or the next
queued word is written back. -/
def execCorrectedWriteback (core : WriteBack) (s : State) : Host.Outcome State Fault Refusal :=
  done (if s.checks core.core then
      match core.found with
      | some (src, loc, col) => if singleBit src then s.corrected core.core src loc.toNat col.toNat else s
      | none => s.writeBack core.core
    else s)

/-- SPD_SCRUB (R325). -/
def execSpdScrub (core : Nat) (line : Nat) (res : ScrubResult) (s : State) : Host.Outcome State Fault Refusal :=
  done (if s.checks core && decide (line < 65536) then s.spdScrub core line res else s)

/-- ACM_SCRUB (R325). -/
def execAcmScrub (core : Nat) (array : Nat) (row : Nat) (res : ScrubResult) (s : State) : Host.Outcome State Fault Refusal :=
  done (if s.checks core && decide (array < 4) && decide (row < 512) then s.acmScrub core array row res else s)

/-- WEIGHT_READBACK (R326). -/
def execWeightReadback (core : Nat) (array : Nat) (upsets : List (Nat × BitVec 16)) (s : State) :
    Host.Outcome State Fault Refusal :=
  done (if s.checks core && decide (array < 4) then
      s.readback core array (upsets.filter fun u => decide (u.1 < 1024))
    else s)

/-- KNOWN_ANSWER_TEST (R327). -/
def execKnownAnswerTest (core : Nat) (fails : List (Nat × Nat)) (s : State) : Host.Outcome State Fault Refusal :=
  done (if s.checks core && (s.core core).inService then s.answerTest core fails else s)

/-- FAULT_WINDOW_END (R328): 2^24 FCLK have passed. -/
def execFaultWindowEnd (s : State) : Host.Outcome State Fault Refusal :=
  done (if s.running then { s with cores := s.cores.map fun e => (e.1, { e.2 with winFaults := 0 }) } else s)

/-- CONTROL_RETRY (R315). -/
def execControlRetry (core : Nat) (failedAgain : Bool) (source : BitVec 5) (s : State) : Host.Outcome State Fault Refusal :=
  done (if s.checks core then s.controlRetry core failedAgain source.toNat else s)

/-- LOCKSTEP_MISMATCH (R329): Sheepdog restarts; every ring command is one step, so no partial effect is left to discard. -/
def execLockstepMismatch (s : State) : Host.Outcome State Fault Refusal :=
  done (if s.running && s.early then ({ s with sd := { s.sd with restart := true } }).raise pgSheepdog 2 else s)

/-- CAL_ENTRY_REWRITE (R329). -/
def execCalEntryRewrite (pack : Nat) (entry : Nat) (s : State) : Host.Outcome State Fault Refusal :=
  done (if s.running && !s.sd.restart && decide (pack < s.conf.packs) then s.rewriteEntry pack entry else s)

/-- AGING_SAMPLE (R330): the sample goes to AGE and, for one FCLK, to the power unit (R399). -/
def execAgingSample (core : Nat) (count : BitVec 16) (s : State) : Host.Outcome State Fault Refusal :=
  done (if s.checks core then
      let s := s.updCore core fun k => { k with ageCount := count }
      { s with power := { s.power with ageOut := some (core, count) } }.raiseIf
        (decide (count.toNat < (s.core core).ageWarn.toNat)) (pgCore core) 11
    else s)

/-- SHEEPDOG_RESTART_COMPLETE (R329): commands run again; the interrupted one still stands at the head of its ring. -/
def execSheepdogRestartComplete (s : State) : Host.Outcome State Fault Refusal :=
  done (if s.running then { s with sd := { s.sd with restart := false } } else s)

end Sys2Proof.Machine
end

