-- ==== Sys2Proof/Machine/Boot.lean ====
section
/-! DEFINITION. Reset, power domains and bring-up (13_ports_and_signals, R369, R370, R400; 14_bring_up). -/

namespace Sys2Proof.Machine

/-! ## Reset (R406, R407) -/

/-- Asserting a reset input: everything returns to its reset value and every power-domain REQ falls; host memory, the levels of the
ACKs, the fuses and the configuration stay, as do the PLL and the test access port under ENG_RST_N. -/
def State.assertReset (s : State) (por : Bool) : State :=
  let z := State.reset
  { z with
    conf := s.conf, fuse := s.fuse, host := s.host, hostOpen := s.hostOpen, fresh := s.fresh, pending := s.pending
    boot := { z.boot with por := s.boot.por || por, eng := s.boot.eng || !por }
    glb := { z.glb with pllLock := s.glb.pllLock && !por }
    tap := if por then {} else s.tap
    power := { z.power with pdtAck := s.power.pdtAck }
    packs := (s.packs.filter fun e => e.2.pdAck).map fun e => (e.1, { pdAck := true })
    cores := (s.cores.filter fun e => e.2.pdAck).map fun e => (e.1, { pdAck := true, ageWarn := s.fuse.ageWarn }) }

/-! ## Power domains (R400, R409) -/

/-- REQ of a domain. -/
def State.pdReq (s : State) : Domain → Bool
  | .engine => s.power.pdtReq
  | .pack p => (s.pack p).pdReq
  | .core c => (s.core c).pdReq

/-- ACK of a domain. -/
def State.pdAck (s : State) : Domain → Bool
  | .engine => s.power.pdtAck
  | .pack p => (s.pack p).pdAck
  | .core c => (s.core c).pdAck

/-- Sets REQ of a domain. -/
def State.setReq (s : State) (d : Domain) (b : Bool) : State :=
  match d with
  | .engine => { s with power := { s.power with pdtReq := b } }
  | .pack p => s.updPack p fun x => { x with pdReq := b }
  | .core c => s.updCore c fun x => { x with pdReq := b }

/-- Sets the level of ACK of a domain. -/
def State.setAck (s : State) (d : Domain) (b : Bool) : State :=
  match d with
  | .engine => { s with power := { s.power with pdtAck := b } }
  | .pack p => s.updPack p fun x => { x with pdAck := b }
  | .core c => s.updCore c fun x => { x with pdAck := b }

/-- A pack and its four cores, in the order in which they are powered. -/
def packDomains (p : Nat) : List Domain := .pack p :: tab 4 fun i => .core (4 * p + i)

/-- The domains of the ROM stage. -/
def romDomains : List Domain := .engine :: packDomains 0

/-- Every domain of the configuration, in order. -/
def State.allDomains (s : State) : List Domain := .engine :: (tab s.conf.packs packDomains).flatten

/-- The domains that the present stage powers. -/
def State.wanted (s : State) : List Domain :=
  match s.boot.stage with
  | .rom => romDomains
  | .cal => s.allDomains
  | _ => []

/-- The first domain in order without an ACK, if its REQ is still 0. -/
def State.nextDomain (s : State) : List Domain → Option Domain
  | [] => none
  | d :: rest => if s.pdAck d then s.nextDomain rest else if s.pdReq d then none else some d

/-- The boot ROM raises the next REQ once the previous ACK has come; before the first, every ACK must read 0. -/
def State.powerUp (s : State) : State :=
  if s.allDomains.all (fun d => !s.pdReq d) && s.allDomains.any s.pdAck then s
  else
    match s.nextDomain s.wanted with
    | some d => s.setReq d true
    | none => s

/-- Does the domain exist in the configuration? -/
def State.hasDomain (s : State) (d : Domain) : Bool := s.allDomains.contains d

/-- An ACK changes its level: the next REQ may rise; an ACK that falls while its REQ is 1 is a lost domain, which takes a core out
of service. -/
def State.ackTo (s : State) (d : Domain) (level : Bool) : State :=
  if !s.hasDomain d then s
  else
    let lost := s.running && s.pdAck d && !level && s.pdReq d
    let s := s.setAck d level
    let s := match d with
      | .core c => s.updCore c fun k => { k with cclk := level && k.pdReq && s.running }
      | _ => s
    let s := s.raiseIf lost pgPower 0
    let s := match d with
      | .core c => if lost then s.retireCore c else s
      | _ => s
    if s.running && !lost then s.powerUp else s

/-! ## Array tests at bring-up (R410) -/

/-- The result of both runs of the test on a core: a column that fails both is bypassed, one that fails once is counted. -/
def State.bringUpTest (s : State) (c : Nat) (fails : List (Nat × Nat × Nat × Bool)) : State :=
  let mine := fails.eraseDups.filter fun (q, a, col, _) => q == c && decide (a < 4) && decide (col < 32)
  let both := (mine.filter fun x => x.2.2.2).map fun x => (x.2.1, x.2.2.1)
  let once := (mine.filter fun x => !x.2.2.2).length
  let s := s.updCore c fun k => { k with ceCnt := satWord k.ceCnt once }
  both.foldl (fun t (a, col) => t.bypass c a col) s

/-- FCLK since T0 in units of 1,024, saturating. -/
def State.stamp (s : State) : Nat := min 0xFFFFFFFF (s.fclk / 1024)

/-- The engine enters EARLY; a LOAD that was held starts (R409, R410, R415). -/
def State.enterEarly (s : State) (fails : List (Nat × Nat × Nat × Bool)) : State :=
  let s := (List.range 4).foldl (fun t c => t.bringUpTest c fails) s
  let none_ := (List.range 4).all fun c => !(s.core c).inService
  let s := { s with boot := { s.boot with
    stage := if s.boot.loadHeld then .verify else .early, loadHeld := false, earlyAt := s.stamp
    code := if none_ then 8 else s.boot.code } }
  s.raise pgGlb 1

/-! ## The firmware image (R414 to R417) -/

/-- A write of FW_CMD. -/
def State.fwCmd (s : State) (v : Word) : State :=
  if v.getLsbD 0 then
    match s.boot.stage with
    | .rom => { s with boot := { s.boot with loadHeld := true } }
    | .early => { s with boot := { s.boot with stage := .verify } }
    | _ => { s with boot := { s.boot with code := 7 } }
  else s

/-- Do the header fields obey R414? -/
def fwHeaderOk (h : List Byte) : Bool :=
  let f := fieldAt h
  f 0 2 == 0x0100 && f 2 2 == 0 && f 4 4 % 64 == 0 && decide (64 ≤ f 4 4) && decide (f 4 4 ≤ 458752)
    && f 8 4 % 4 == 0 && decide (f 8 4 < f 4 4) && f 24 40 == 0

/-- A 48-byte integer, most significant byte first. -/
def beField (h : List Byte) (off : Nat) : Nat := beNat (natBytes ((h.drop off).take 48))

/-- The verdict on the image at FW_ADDR: the code of the first check that fails, or FW_OK. -/
def State.fwVerdict (s : State) (mem : MemCode) : Nat :=
  let a := addr48 s.boot.fwLo s.boot.fwHi
  let h := s.hostRead a 256
  if mem ≠ .ok then 2
  else if fwHeaderOk h = false then 3
  else
    let key := leNat (sha384 (natBytes ((h.drop 64).take 96)))
    if s.fuse.keyHash = 0 ∨ key ≠ s.fuse.keyHash.toNat then 4
    else
      let body := s.hostRead (a + 256) (fieldAt h 4 4)
      let e := beNat (sha384 (natBytes (h.take 160 ++ body)))
      if ecdsaOk (beField h 64) (beField h 112) (beField h 160) (beField h 208) e = false then 5
      else if fieldAt h 12 4 < s.fuse.svn.toNat then 6
      else 1

/-- Verification ends. -/
def State.fwDone (s : State) (mem : MemCode) : State :=
  let s := s.memCheck mem false (addr48 s.boot.fwLo s.boot.fwHi) .control
  let code := s.fwVerdict mem
  if code = 1 then ({ s with boot := { s.boot with stage := .cal, code := 1 } }).powerUp
  else
    ({ s with boot := { s.boot with stage := .early, code := code, attempts := min 255 (s.boot.attempts + 1) } }).raise pgGlb 3

/-! ## Handover (R418) -/

/-- Handover at the end of CAL. -/
def State.handover (s : State) (fails : List (Nat × Nat × Nat × Bool)) : State :=
  let s := (List.range (s.conf.cores - 4)).foldl (fun t i => t.bringUpTest (4 + i) fails) s
  let s := (List.range s.conf.packs).foldl (fun t p => t.updPack p fun x =>
    { x with entries := x.entries.map fun e => (e.1, { e.2 with budget := 256 }) }) s
  let s := { s with sd := { s.sd with rom := false }
                    boot := { s.boot with stage := .full, fullAt := s.stamp
                                          code := if s.boot.code = 7 then 1 else s.boot.code } }
  s.raise pgGlb 2

/-! ## Meanings -/

/-- PORST_N (R406): asserted. -/
def execPorstN (s : State) : Host.Outcome State Fault Refusal := done (s.assertReset true)

/-- ENG_RST_N (R406): asserted. -/
def execEngRstN (s : State) : Host.Outcome State Fault Refusal := done (s.assertReset false)

/-- TRST_N (R404, R406): resets the test access port only. -/
def execTrstN (s : State) : Host.Outcome State Fault Refusal := done { s with tap := {} }

/-- RESET_RELEASE (R406): the releases named are synchronised; once neither input is asserted this is T0, and the boot ROM starts. -/
def execResetRelease (por eng : Bool) (s : State) : Host.Outcome State Fault Refusal :=
  let held := !s.running
  let t := { s with boot := { s.boot with por := s.boot.por && !por, eng := s.boot.eng && !eng } }
  done (if t.running then
      let t := if held then { t with fclk := 0 } else t
      if t.boot.stage = .rom then t.powerUp else t
    else t)

/-- ENTER_EARLY (R409). -/
def execEnterEarly (fails : List (Nat × Nat × Nat × Bool)) (s : State) : Host.Outcome State Fault Refusal :=
  done (if s.running && s.boot.stage == .rom && romDomains.all s.pdAck then s.enterEarly fails else s)

/-- POWER_DOMAIN_ACK (R400). -/
def execPowerDomainAck (dom : Domain) (level : Bool) (s : State) : Host.Outcome State Fault Refusal := done (s.ackTo dom level)

/-- FW_LOAD (R415): a write of FW_CMD. -/
def execFwLoad (value : Word) (acc : Acc) (s : State) : Host.Outcome State Fault Refusal :=
  done (s.cfgWrite 0x8C acc fun t => t.fwCmd value)

/-- FW_VERIFY_COMPLETE (R416); a power-fail notice stops the stage (R408). -/
def execFwVerifyComplete (mem : MemCode) (s : State) : Host.Outcome State Fault Refusal :=
  done (if s.running && s.boot.stage == .verify && !s.glb.pf then s.fwDone mem else s)

/-- HANDOVER (R418). -/
def execHandover (fails : List (Nat × Nat × Nat × Bool)) (s : State) : Host.Outcome State Fault Refusal :=
  done (if s.running && s.boot.stage == .cal && !s.glb.pf && s.allDomains.all s.pdAck then s.handover fails else s)

/-- PLL_LOCK (R369). -/
def execPllLock (s : State) : Host.Outcome State Fault Refusal := done { s with glb := { s.glb with pllLock := true } }

end Sys2Proof.Machine
end

