-- ==== Sys2Proof/Machine/Ports.lean ====
section
/-! DEFINITION. The rows of the memory port, the sample-stream port and the tile port (13_ports_and_signals, R375 to R396): replies
and timeouts, words, releases and tile events, and the writes of their bindings. -/

namespace Sys2Proof.Machine

/-! ## Memory port (R375 to R380) -/

/-- Delivers the outcome of a request to the unit that issued it. -/
def State.deliver (s : State) (q : MReq) (code : MemCode) : State :=
  match q.unit with
  | .retriever c r => s.rtvReply c r q.ltag code
  | .fetch ring line => s.fetchReply ring line code

/-- The latency beyond LAT_BOUND of a line of a deadline frame counts as its input wait (R380). -/
def State.chargeLate (s : State) (q : MReq) : State :=
  let late := (s.fclk - q.issued) - s.mport.latBound
  match q.unit with
  | .retriever c r =>
    match s.rtvRun c r with
    | .frame gid n k => s.updFrame gid n fun f => { f with waits := Sparse.set 0 f.waits k (Sparse.get 0 f.waits k + 2 * late) }
    | _ => s
  | .fetch _ _ => s

/-- A reply code as the port takes it: the reserved code is handled as MR_TGTERR (R379). -/
def portCode : MemCode → MemCode
  | .timeout => .tgterr
  | c => c

/-- The bytes of a write that completed as an error are left open where their enable was 1 (R379). -/
def State.openWrite (s : State) (q : MReq) : State :=
  if q.ben.all id then s.hostOpenRange (64 * q.line) 64
  else q.ben.zipIdx.foldl (fun t (en, i) => if en then t.hostOpenRange (64 * q.line + i) 1 else t) s

/-- Read data return for a tag: a request that timed out has its reply discarded. -/
def State.readData (s : State) (ch tag : Nat) (code : MemCode) : State :=
  match s.takeReply ch tag false with
  | (s, none) => s
  | (s, some q) =>
    if q.timedOut then s
    else
      let s := (s.chargeLate q).noteLatency q
      let code := portCode code
      (s.memCheck code false (64 * q.line) q.cls).deliver q code

/-- A write completion for a tag: the enabled bytes land, or are left open. -/
def State.writeDone (s : State) (ch tag : Nat) (code : MemCode) : State :=
  match s.takeReply ch tag true with
  | (s, none) => s
  | (s, some q) =>
    if q.timedOut then s
    else
      let code := portCode code
      let s := if code = .ok then s.hostWriteEn (64 * q.line) (q.data.zip q.ben) else s.openWrite q
      (s.memCheck code true (64 * q.line) q.cls).deliver q code

/-- A request without a reply TIMEOUT × 1,024 FCLK after issue completes as an error; its tag stays reserved. -/
def State.timeOut (s : State) (ch tag : Nat) : State :=
  let c := s.mchan ch
  match c.out.find? fun q => q.tag == tag && !q.timedOut with
  | none => s
  | some q =>
    if s.mport.timeout ≠ 0 ∧ s.mport.timeout * 1024 ≤ s.fclk - q.sent then
      let s := s.setMchan ch { c with out := c.out.map fun x => if x = q then { x with timedOut := true } else x }
      let s := if q.write then s.openWrite q else s
      (s.memErr .timeout q.write (64 * q.line) q.cls).deliver q .timeout
    else s

/-! ## Ingress (R382 to R386) -/

/-- The frames that a lane's words may belong to, with their binding: those that the enabled register names, and the binding that an
unfinished fired frame keeps (R383). -/
def State.laneGroup (s : State) (lane : Nat) : Option (Nat × Group × Bind) :=
  let live (gid : Nat) (b : Bind) : Option (Nat × Group × Bind) :=
    match s.group? gid with
    | some g => if g.live then some (gid, g, b) else none
    | none => none
  let b := s.inReg lane
  if b.en then live b.gid b
  else
    s.groups.findSome? fun e =>
      e.2.frames.findSome? fun f =>
        if f.phase = .finished then none else (f.ins.find? fun x => x.lane == lane).bind fun x => live e.1 x

/-- The binding that frame `n` uses on a lane: the one fixed at its fire, else the register, which must pass the checks of R383. -/
def State.bindFor (s : State) (g : Group) (n : Nat) (b : Bind) : Option Bind :=
  match (g.frame? n).filter fun f => f.fire.isSome with
  | some f => f.ins.find? fun x => x.lane == b.lane
  | none => if s.bindOk g b && (s.inReg b.lane).en then some b else none

/-- A dropped word: a counter of its kind, and SP_STRAY. -/
def State.strayWord (s : State) : State :=
  ({ s with aport := { s.aport with strayCnt := satWord s.aport.strayCnt 1 } }).raise pgAport 1

/-- A word for a frame that has finished. -/
def State.lateWord (s : State) : State :=
  ({ s with aport := { s.aport with lateCnt := satWord s.aport.lateCnt 1 } }).raise pgAport 1

/-- A word for a frame two or more beyond the oldest unfinished one. -/
def State.earlyWord (s : State) : State :=
  ({ s with aport := { s.aport with earlyCnt := satWord s.aport.earlyCnt 1 } }).raise pgAport 1

/-- Stores a word in the ingress store; it lands in SPD at once for the oldest unfinished frame, and otherwise waits (R384). -/
def State.storeIngress (s : State) (gid : Nat) (g : Group) (b : Bind) (n t rel ch : Nat) (data : Word) (mark : Bool) : State :=
  let at_ := b.storeWord g n t rel ch
  let w : WaitWord :=
    { lane := b.lane, gid := gid, frame := n, store := at_, pos := b.pos g.nmem t (b.mbase + rel) ch, data := data, rst := mark
      member := b.mbase + rel, step := t }
  let s := { s with aport := { s.aport with istore := s.aport.istore.set 0 at_ data } }
  if n = g.oldest then s.landWord gid g b w
  else { s with aport := { s.aport with waits := s.aport.waits ++ [w] } }

/-- A word captured on an ingress lane (R382, R384). -/
def State.ingress (s : State) (lane : Nat) (data : Word) (tag : BitVec 16) : State :=
  let bad := tag.getLsbD 15 != parBit data tag
  let s := if bad then ({ s with aport := { s.aport with parCnt := satWord s.aport.parCnt 1 } }).raise pgAport 0 else s
  let data := if bad then 0 else data
  let mark := !bad && tag.getLsbD 11
  let rel := wbits tag 8 0
  let ch := wbits tag 10 9
  match s.laneGroup lane with
  | none => s.strayWord
  | some (gid, g, b) =>
    if wbits tag 14 12 ≠ 0 ∨ b.mcnt ≤ rel ∨ b.nch ≤ ch ∨ g.nmem ≤ b.mbase + rel then s.strayWord
    else
      let p := g.placeOf (b.mbase + rel) ((s.tb g.tb).value + dword b.adv)
      if p.1 < g.oldest then s.lateWord
      else if g.oldest + 2 ≤ p.1 then s.earlyWord
      else
        match s.bindFor g p.1 b with
        | some x =>
          if x.mcnt ≤ rel ∨ x.nch ≤ ch then s.strayWord else s.storeIngress gid g x p.1 p.2 rel ch data mark
        | none => s.strayWord

/-- The first waiting word of a lane whose frame has become the oldest lands; one of a group that is gone is dropped (R384). -/
def State.landStored (s : State) (lane : Nat) : State :=
  let ready (w : WaitWord) : Bool :=
    match s.group? w.gid with
    | some g => decide (w.frame ≤ g.oldest) && decide (g.doneAt + 16 ≤ s.fclk)
    | none => true
  match s.aport.waits.find? fun w => w.lane == lane && ready w with
  | none => s
  | some w =>
    let s := { s with aport := { s.aport with waits := s.aport.waits.erase w } }
    match s.group? w.gid with
    | some g =>
      if w.frame = g.oldest then
        match s.bindFor g w.frame (s.inReg lane) with
        | some b => s.landWord w.gid g b w
        | none => s
      else s
    | none => s

/-- An egress lane drives its next word, or none (R387). -/
def State.egress (s : State) (lane : Nat) : State :=
  match Sparse.get [] s.aport.send lane with
  | (d, t) :: rest =>
    { s with aport := { s.aport with send := s.aport.send.set [] lane rest, out := s.aport.out.put lane (true, d, t) } }
  | [] => { s with aport := { s.aport with out := s.aport.out.put lane (false, (Sparse.get (false, 0, 0) s.aport.out lane).2) } }

/-! ## Writes of bindings (R383, R389, R391, R396) -/


/-- Address of a word of a sample-port binding. -/
def bindAddr (base lane : Nat) (reg : BindReg) : Nat :=
  if lane < 16 then base + 16 * lane + bindOff reg else noAddr
where
  /-- Offset within the binding. -/
  bindOff (r : BindReg) : Nat := match r with
    | .cfg => 0 | .tgt => 4 | .store => 8

/-- A write of an ingress binding: while enabled, only a CFG write with EN = 0 acts, and it clears EN only. -/
def State.inWrite (s : State) (l : Nat) (reg : BindReg) (v : Word) : State :=
  let a := s.aport
  if (s.inReg l).en then
    if reg = .cfg ∧ v.getLsbD 0 = false then
      { s with aport := { a with inCfg := a.inCfg.set 0 l (Sparse.get 0 a.inCfg l &&& ~~~1#32) } }
    else s
  else
    match reg with
    | .cfg => { s with aport := { a with inCfg := a.inCfg.set 0 l (v &&& 0x003FFFFF#32) } }
    | .tgt => { s with aport := { a with inTgt := a.inTgt.set 0 l (v &&& 0x01FFFFFF#32) } }
    | .store => { s with aport := { a with inStore := a.inStore.set 0 l (v &&& 0x07FFFFFF#32) } }

/-- As `inWrite`, for an egress binding, whose ADV and BOFF are reserved. -/
def State.outWrite (s : State) (l : Nat) (reg : BindReg) (v : Word) : State :=
  let a := s.aport
  if (s.outReg l).en then
    if reg = .cfg ∧ v.getLsbD 0 = false then
      { s with aport := { a with outCfg := a.outCfg.set 0 l (Sparse.get 0 a.outCfg l &&& ~~~1#32) } }
    else s
  else
    match reg with
    | .cfg => { s with aport := { a with outCfg := a.outCfg.set 0 l (v &&& 0x0003FFFD#32) } }
    | .tgt => { s with aport := { a with outTgt := a.outTgt.set 0 l (v &&& 0x01FFFFFF#32) } }
    | .store => { s with aport := { a with outStore := a.outStore.set 0 l (v &&& 0x07FFFFFF#32) } }

/-- Address of a word of a tile-port binding. -/
def tileAddr (b : Nat) (reg : TileReg) : Nat :=
  if b < 16 then 0x4100 + 16 * b + off reg else noAddr
where
  /-- Offset within the binding. -/
  off (r : TileReg) : Nat := match r with
    | .cfg => 0 | .geom => 4 | .refs => 8 | .dseq => 12

/-- Would enabling binding `b` on surface `surf` give two enabled bindings of it the same DSEQ? -/
def State.dseqClash (s : State) (b surf : Nat) : Bool :=
  (List.range 16).any fun x => x != b && s.tileEn x && s.tileSurf x == surf && s.tileDseq x == s.tileDseq b

/-- A write of a tile-port binding. -/
def State.tileWrite (s : State) (b : Nat) (reg : TileReg) (v : Word) : State :=
  let p := s.tport
  if s.tileEn b then
    if reg = .cfg ∧ v.getLsbD 0 = false then { s with tport := { p with cfg := p.cfg.set 0 b (s.tileCfg b &&& ~~~1#32) } } else s
  else
    match reg with
    | .cfg =>
      let w := v &&& 0x007FFFFF#32
      if w.getLsbD 0 && s.dseqClash b (wbits w 4 1) then
        ({ s with tport := { p with cfg := p.cfg.set 0 b (w &&& ~~~1#32) } }).raise pgTport 4
      else { s with tport := { p with cfg := p.cfg.set 0 b w } }
    | .geom => { s with tport := { p with geom := p.geom.set 0 b v } }
    | .refs => { s with tport := { p with refs := p.refs.set 0 b v } }
    | .dseq => { s with tport := { p with dseq := p.dseq.set 0 b (v &&& 0x0000FFFF#32) } }

/-! ## Tile events (R390 to R394) -/

/-- The tile bindings of a surface that a frame of a group uses: those fixed at its fire, else the enabled ones. -/
def State.tileBinds (s : State) (gid : Nat) (g : Group) (n surf : Nat) : List Nat :=
  let own := match (g.frame? n).filter fun f => f.fire.isSome with
    | some f => f.tiles
    | none => (List.range 16).filter fun b => s.tileEn b && s.tileGid b == gid
  own.filter fun b => s.tileSurf b == surf

/-- The unfinished frames that pass `pass` of a surface belongs to: group, frame and bindings (R391). -/
def State.passFrames (s : State) (surf pass : Nat) : List (Nat × Nat × List Nat) :=
  s.groups.flatMap fun e =>
    if !e.2.live then []
    else
      [e.2.oldest, e.2.oldest + 1].filterMap fun n =>
        let bs := s.tileBinds e.1 e.2 n surf
        if n % 65536 = pass ∧ bs ≠ [] then some (e.1, n, bs) else none

/-- The finished frames of which tiles may still be announced. -/
def State.passDone (s : State) (surf pass : Nat) : List (Nat × Group × TileFrame) :=
  s.groups.flatMap fun e =>
    (e.2.tileFrames.filter fun t => t.n % 65536 == pass && t.binds.any fun b => s.tileSurf b == surf).map fun t => (e.1, e.2, t)

/-- An event for a pass that matches no frame. -/
def State.strayTile (s : State) : State :=
  ({ s with tport := { s.tport with strayCnt := satWord s.tport.strayCnt 1 } }).raise pgTport 1

/-- READY of one tile for one binding: read at once for the oldest unfinished frame, and later for the one after it. A tile that has
landed or is already asked for is ignored. -/
def State.readyTile (s : State) (b gid n oldest tile : Nat) : State :=
  if s.tileCount b ≤ tile ∨ s.tport.landed.contains (b, gid, n, tile) = true ∨ s.tport.queued.contains (b, gid, n, tile) = true
      ∨ (s.tport.partials.any fun (x, y, m, t, _) => (x, y, m, t) == (b, gid, n, tile)) = true then s
  else if n = oldest then s.readTile b gid n tile
  else { s with tport := { s.tport with queued := s.tport.queued ++ [(b, gid, n, tile)] } }

/-- READY (R392). -/
def State.tileReady (s : State) (surf pass tile : Nat) : State :=
  let fs := s.passFrames surf pass
  if fs.isEmpty then s.strayTile
  else
    fs.foldl (fun t (gid, n, bs) =>
      let oldest := ((t.group? gid).map (·.oldest)).getD n
      bs.foldl (fun u b => u.readyTile b gid n oldest tile) t) s

/-- RESOLVE for an unfinished frame: NONE once its deadline has passed or its fire was parked, else it waits for the commit. -/
def State.resolvePending (s : State) (surf tile gid n : Nat) : State :=
  let f := s.frame? gid n
  let late := f.any (·.late)
  if late || f.any (·.parked) then s.ackTile surf gid n tile false late
  else { s with tport := { s.tport with resolves := s.tport.resolves ++ [(surf, gid, n, tile)] } }

/-- RESOLVE for a finished frame: written when it committed in time and its deadline has not passed. -/
def State.resolveDone (s : State) (surf tile gid : Nat) (g : Group) (t : TileFrame) : State :=
  let after := t.due.any fun d => decide (d < s.cclk)
  let late := t.due.any fun d => decide (d ≤ s.cclk)
  if t.ok && !after then s.writeTile gid g t.binds t.n surf tile else s.ackTile surf gid t.n tile false late

/-- RESOLVE (R393, R394). -/
def State.tileResolve (s : State) (surf pass tile : Nat) : State :=
  let fs := s.passFrames surf pass
  let ds := s.passDone surf pass
  if fs.isEmpty && ds.isEmpty then
    let s := s.strayTile
    { s with tport := { s.tport with acks := s.tport.acks ++ [(surf, tile, false)], noneCnt := satWord s.tport.noneCnt 1 } }
  else if fs.isEmpty then ds.foldl (fun t (gid, g, f) => t.resolveDone surf tile gid g f) s
  else fs.foldl (fun t (gid, n, _) => t.resolvePending surf tile gid n) s

/-- Writes a tile line into IN_REF; its lines are whole again. -/
def State.putTileLine (s : State) (g : Group) (r : TileRead) (data : BitVec 512) : State :=
  let x := (r.tile * (s.tileClines r.binding + s.tileDlines r.binding) + r.line) * 64
  s.updCore (g.core (s.tileSlot r.binding)) fun k =>
    let k := k.wr (k.entry (s.tileIn r.binding)) x (toBytes 64 data.toNat)
    k.refresh

/-- A tile of a frame has wholly landed: sync counter CNT of the frame counts it (R392). -/
def State.tileLanded (s : State) (r : TileRead) : State :=
  let c := s.tileCnt r.binding
  let s := { s with tport := { s.tport with landed := s.tport.landed ++ [(r.binding, r.gid, r.frame, r.tile)] } }
  s.updFrame r.gid r.frame fun f =>
    if f.start.isSome then { f with cnts := Sparse.set 0 f.cnts c (satAdd 0xFFFF (Sparse.get 0 f.cnts c) 1) } else f

/-- A line of a tile that is still wanted lands; the last one completes the tile. -/
def State.landTile (s : State) (r : TileRead) (data : BitVec 512) : State :=
  let here (p : Nat × Nat × Nat × Nat × Nat) : Bool := (p.1, p.2.1, p.2.2.1, p.2.2.2.1) == (r.binding, r.gid, r.frame, r.tile)
  match s.group? r.gid, s.tport.partials.find? here with
  | some g, some (_, _, _, _, left) =>
    let s := if s.tileOk g r.binding then s.putTileLine g r data else s
    if left ≤ 1 then
      ({ s with tport := { s.tport with partials := s.tport.partials.filter fun p => !here p } }).tileLanded r
    else
      { s with tport := { s.tport with
        partials := s.tport.partials.map fun p => if here p then (r.binding, r.gid, r.frame, r.tile, left - 1) else p } }
  | _, _ => s

/-- A reply to a tile read (R390): the line lands and its tag is free, or the engine will ask again. -/
def State.tileData (s : State) (tag : Nat) (data : BitVec 512) (code : TileCode) : State :=
  match s.tport.reads.find? fun r => r.tag == tag && decide (tag < 64) && !r.retry with
  | none => s
  | some r =>
    let again : State := { s with tport := { s.tport with
      reads := s.tport.reads.map fun x => if x = r then { x with retry := true } else x } }
    match code with
    | .ok => (({ s with tport := { s.tport with reads := s.tport.reads.erase r } }).landTile r data).issueTiles
    | .notReady => { again with tport := { again.tport with notReadyCnt := satWord s.tport.notReadyCnt 1 } }
    | _ => ((again.raise pgTport 3).faultFrame r.gid r.frame false).1

/-- RETRY TCLK have passed: the read is sent again (R390). -/
def State.tileRetry (s : State) (tag : Nat) : State :=
  { s with tport := { s.tport with reads := s.tport.reads.map fun r =>
      if r.tag = tag ∧ tag < 64 then { r with retry := false } else r } }

/-! ## Meanings -/

/-- MEM_READ_DATA (R376). -/
def execMemReadData (channel tag : Nat) (code : MemCode) (s : State) : Host.Outcome State Fault Refusal :=
  done (if s.running then s.readData channel tag code else s)

/-- MEM_WRITE_COMPLETION (R378). -/
def execMemWriteCompletion (channel tag : Nat) (code : MemCode) (s : State) : Host.Outcome State Fault Refusal :=
  done (if s.running then s.writeDone channel tag code else s)

/-- MEM_TIMEOUT (R379). -/
def execMemTimeout (channel tag : Nat) (s : State) : Host.Outcome State Fault Refusal :=
  done (if s.running then s.timeOut channel tag else s)

/-- LAT_CLR (R380). -/
def execLatClr (value : Word) (acc : Acc) (s : State) : Host.Outcome State Fault Refusal :=
  done (s.cfgWrite 0x3048 acc fun t =>
    if value.getLsbD 0 then { t with mport := { t.mport with latMax := 0 } } else t)

/-- INGRESS_WORD (R384). -/
def execIngressWord (lane : Nat) (data : Word) (tag : BitVec 16) (s : State) : Host.Outcome State Fault Refusal :=
  done (if s.running && decide (lane < 16) then s.ingress lane data tag else s)

/-- STORED_WORD_LAND (R384). -/
def execStoredWordLand (lane : Nat) (s : State) : Host.Outcome State Fault Refusal :=
  done (if s.running then s.landStored lane else s)

/-- EGRESS_WORD (R387). -/
def execEgressWord (lane : Nat) (s : State) : Host.Outcome State Fault Refusal :=
  done (if s.running && decide (lane < 16) then s.egress lane else s)

/-- IN_CFG_WRITE (R383). -/
def execInCfgWrite (lane : Nat) (reg : BindReg) (value : Word) (acc : Acc) (s : State) : Host.Outcome State Fault Refusal :=
  done (s.cfgWrite (bindAddr 0x5100 lane reg) acc fun t => t.inWrite lane reg value)

/-- OUT_CFG_WRITE (R383). -/
def execOutCfgWrite (lane : Nat) (reg : BindReg) (value : Word) (acc : Acc) (s : State) : Host.Outcome State Fault Refusal :=
  done (s.cfgWrite (bindAddr 0x5200 lane reg) acc fun t => t.outWrite lane reg value)

/-- TILE_READY (R392). -/
def execTileReady (surf pass tile : Nat) (s : State) : Host.Outcome State Fault Refusal :=
  done (if s.running then s.tileReady surf pass tile else s)

/-- TILE_RESOLVE (R393). -/
def execTileResolve (surf pass tile : Nat) (s : State) : Host.Outcome State Fault Refusal :=
  done (if s.running then s.tileResolve surf pass tile else s)

/-- TILE_ANNOUNCE_RESERVED (R390): the event is dropped. -/
def execTileAnnounceReserved (_surf _pass _tile : Nat) (s : State) : Host.Outcome State Fault Refusal :=
  done (if s.running then s.raise pgTport 0 else s)

/-- TILE_READ_DATA (R390). -/
def execTileReadData (tag : Nat) (data : BitVec 512) (code : TileCode) (s : State) : Host.Outcome State Fault Refusal :=
  done (if s.running then s.tileData tag data code else s)

/-- TILE_RETRY (R390). -/
def execTileRetry (tag : Nat) (s : State) : Host.Outcome State Fault Refusal :=
  done (if s.running then s.tileRetry tag else s)

/-- TB_CFG_WRITE (R391). -/
def execTbCfgWrite (binding : Nat) (reg : TileReg) (value : Word) (acc : Acc) (s : State) : Host.Outcome State Fault Refusal :=
  done (s.cfgWrite (tileAddr binding reg) acc fun t => t.tileWrite binding reg value)

end Sys2Proof.Machine
end

