-- ==== Sys2Proof/Machine/Regs.lean ====
section
/-! DEFINITION. The register pages (15_register_map): what every register reads, what a write of it does, the event registers, the
latching reads, and the instructions of the test access port (R404). -/

namespace Sys2Proof.Machine

/-! ## What registers read -/

/-- Low and high word of a number. -/
def loWord (n : Nat) : Word := word n
/-- Bits [63:32]. -/
def hiWord (n : Nat) : Word := word (n / 2 ^ 32)

/-- IDCODE of a configuration (R438). -/
def Conf.idcode : Conf → Word
  | .raique4 => 0x17A0473B#32 | .raique8 => 0x17A0873B#32 | .raique16 => 0x17A1073B#32 | .raique32 => 0x17A2073B#32

/-- TYPE of a page (R427). -/
def PageKind.type : PageKind → Nat
  | .glb => 1 | .sheepdog => 2 | .power => 3 | .mport => 4 | .tport => 5 | .aport => 6 | .peer => 7 | .dma => 8 | .tbase _ => 9
  | .pack _ => 10 | .core _ => 11 | .tele => 12 | .kennel => 13 | .debug => 14 | .fuse => 15 | .absent => 0 | .doorbell => 0

/-- INST of a page. -/
def PageKind.inst : PageKind → Nat
  | .tbase t => t | .pack p => p | .core c => c | _ => 0

/-- CAP_0 (R429). -/
def State.cap0 (s : State) : PageKind → Word
  | .glb => word (s.conf.packs + s.conf.cores * 16 + b2n s.conf.hist * 1024)
  | .sheepdog => 0x02001000#32 | .mport => 0x2008#32 | .tport => 0x4010#32 | .aport => 0x1010#32 | .peer => 0x24001010#32
  | .dma => 0x2008#32 | .tbase _ => 0x1F#32 | .pack _ => 0x02000200#32 | .core _ => 0x01001084#32 | .kennel => 0x10000#32
  | _ => 0

/-- CAP_1 (R429). -/
def State.cap1 (s : State) : PageKind → Word
  | .glb => 0x10001000#32 | .aport => 0x40000#32 | .pack _ => 0x180#32
  | .core _ => if s.conf.hist then 0x410#32 else 0x10#32
  | _ => 0

/-- STATUS (R237, R430). -/
def State.status (s : State) : PageKind → Word
  | .glb => word (b2n s.glb.pllLock + 2 * b2n s.glb.pf)
  | .sheepdog => word (b2n s.sd.rom + 2 * b2n s.sd.restart)
  | .power => word (b2n s.power.pdtReq + 2 * b2n s.power.pdtAck)
  | .tbase t => word (b2n (s.tbRun t) + 2 * b2n (s.tb t).refused + 16 * min 4096 (s.tbBound t))
  | .pack p => word (b2n (s.packOn p))
  | .core c =>
    let k := s.core c
    let dl := match k.csq.run with | .frame _ _ _ => true | _ => false
    let be := match k.csq.run with | .job _ _ => true | _ => false
    word (b2n (s.coreOn c) + 2 * b2n k.inService + 4 * b2n dl + 8 * b2n be)
  | _ => 0

/-- The header registers (R423). -/
def State.readHeader (s : State) (k : PageKind) (o : Nat) : Word :=
  let h := s.hdr k.index
  match o with
  | 0x00 => word (k.type + 256 * k.inst)
  | 0x04 => 0x100#32
  | 0x08 => s.cap0 k
  | 0x0C => s.cap1 k
  | 0x10 => match k with | .tbase t => (s.tb t).ctrl | _ => 0
  | 0x14 => s.status k
  | 0x20 => h.raw
  | 0x24 => h.mask
  | 0x28 => h.raw
  | 0x2C => h.raw
  | 0x30 => h.first
  | _ => 0

/-- Number of a stage (R409). -/
def Stage.code : Stage → Nat
  | .rom => 0 | .early => 1 | .verify => 2 | .cal => 3 | .full => 4

/-- GLB. -/
def State.readGlb (s : State) (o : Nat) : Word :=
  let g := s.glb
  if 0x300 ≤ o ∧ o < 0x400 then
    let q := s.hq ((o - 0x300) / 4)
    word (q.ctx.toNat + b2n q.en * 2 ^ 16 + q.tokens.length * 2 ^ 17 + q.rsv * 2 ^ 22)
  else if 0x180 ≤ o ∧ o < 0x280 then
    let l := (o - 0x180) / 16
    match o % 16 with
    | 0 => Sparse.get 0 g.msiLo l
    | 4 => Sparse.get 0 g.msiHi l
    | 8 => Sparse.get 0 g.msiData l
    | _ => 0
  else if 0x100 ≤ o ∧ o < 0x120 then Sparse.get 0 g.irqMap ((o - 0x100) / 4)
  else
    match o with
    | 0x40 => 0x01000100#32
    | 0x44 => if s.conf.hist then 0x40FF#32 else 0x40FE#32
    | 0x50 => g.rmapLo
    | 0x54 => g.rmapHi
    | 0x58 => word (b2n g.rmapEn)
    | 0x60 => 0x01000100#32
    | 0x64 => 0x01000100#32
    | 0x68 => 0x01000100#32
    | 0x6C => 0x01000100#32
    | 0x70 => g.cfgErr
    | 0x74 => g.cfgErrAddr
    | 0x78 => word g.ringPend.toNat
    | 0x7C => word s.irq.toNat
    | 0x80 => word (s.boot.stage.code + 16 * s.boot.code + 256 * s.boot.attempts)
    | 0x84 => s.boot.fwLo
    | 0x88 => s.boot.fwHi
    | 0x90 => word s.boot.earlyAt
    | 0x94 => word s.boot.fullAt
    | _ => 0

/-- Number of a ring state (R313). -/
def RingState.code : RingState → Nat
  | .absent => 0 | .active => 1 | .stopped => 2 | .changing => 3

/-- SHEEPDOG (R265, R313, R346). -/
def State.readSheepdog (s : State) (o : Nat) : Word :=
  let d := s.sd
  match o with
  | 0x4C => d.markStat
  | 0x80 => d.recLo
  | 0x84 => d.recHi
  | 0x8C => d.ringStat
  | 0x90 => word d.ringSel
  | 0x94 =>
    let r := s.ring d.ringSel
    word (r.st.code + r.cls * 4 + r.prio * 16 + r.minor * 256 + r.ctx.toNat * 65536)
  | 0x98 => d.objLo
  | 0x9C => d.objHi
  | 0xA0 => d.fenceLo
  | 0xA4 => d.fenceHi
  | 0xA8 => d.objNotify
  | 0xAC => d.dbRej
  | 0xB0 => d.fenceLog
  | 0xB4 => word d.fltLim
  | _ => 0

/-- One bit for each of the first `n` things. -/
def bitsOf (n : Nat) (f : Nat → Bool) : Nat := (List.range n).foldl (fun acc i => acc + b2n (f i) * 2 ^ i) 0

/-- POWER (R434). -/
def State.readPower (s : State) (o : Nat) : Word :=
  match o with
  | 0x40 => 0xEA60#32
  | 0x44 => s.power.limit
  | 0x48 => word s.power.dlPower
  | 0x4C => word (min 65535 s.power.grant)
  | 0x50 => s.power.throttle
  | 0x54 => word (bitsOf 8 (fun p => (s.pack p).pdReq) + 256 * bitsOf 8 fun p => (s.pack p).pdAck)
  | 0x58 => word (bitsOf 32 fun c => (s.core c).pdReq)
  | 0x5C => word (bitsOf 32 fun c => (s.core c).pdAck)
  | _ => 0

/-- MPORT (R380). -/
def State.readMport (s : State) (o : Nat) : Word :=
  match o with
  | 0x40 => word s.mport.latBound
  | 0x44 => word s.mport.latMax
  | 0x4C => s.mport.lateCnt
  | 0x50 => word s.mport.timeout
  | 0x54 => s.mport.errInfo
  | 0x58 => loWord s.mport.errAddr
  | 0x5C => hiWord s.mport.errAddr
  | _ => 0

/-- TPORT (R396). -/
def State.readTport (s : State) (o : Nat) : Word :=
  let p := s.tport
  if 0x100 ≤ o ∧ o < 0x200 then
    let b := (o - 0x100) / 16
    match o % 16 with
    | 0 => Sparse.get 0 p.cfg b
    | 4 => Sparse.get 0 p.geom b
    | 8 => Sparse.get 0 p.refs b
    | _ => Sparse.get 0 p.dseq b
  else
    match o with
    | 0x40 => word p.retry
    | 0x44 => p.notReadyCnt
    | 0x48 => p.strayCnt
    | 0x4C => p.noneCnt
    | _ => 0

/-- APORT (R389). -/
def State.readAport (s : State) (o : Nat) : Word :=
  let p := s.aport
  let l := o / 16 % 16
  if 0x100 ≤ o ∧ o < 0x200 then
    match o % 16 with
    | 0 => Sparse.get 0 p.inCfg l
    | 4 => Sparse.get 0 p.inTgt l
    | 8 => Sparse.get 0 p.inStore l
    | _ => 0
  else if 0x200 ≤ o ∧ o < 0x300 then
    match o % 16 with
    | 0 => Sparse.get 0 p.outCfg l
    | 4 => Sparse.get 0 p.outTgt l
    | 8 => Sparse.get 0 p.outStore l
    | _ => 0
  else
    match o with
    | 0x40 => p.parCnt
    | 0x44 => p.strayCnt
    | 0x48 => p.lateCnt
    | 0x4C => p.earlyCnt
    | 0x50 => p.missingCnt
    | 0x54 => p.overrunCnt
    | _ => 0

/-- Number of a partner state (R367). -/
def PartState.code : PartState → Nat
  | .down => 0 | .joining => 1 | .up => 2

/-- PEER (R367): key slots read as zero. -/
def State.readPeer (s : State) (o : Nat) : Word :=
  let p := s.peer
  if 0x100 ≤ o ∧ o < 0x200 then
    let x := s.partner ((o - 0x100) / 16)
    match o % 16 with
    | 0 => word (b2n x.en + 16 * x.txKey + 256 * x.rxKey)
    | 4 => word (x.st.code + 256 * x.minor)
    | 8 => x.authf
    | _ => word (x.replayDrop + 65536 * x.rateDrop)
  else
    match o with
    | 0x40 => p.self
    | 0x44 => p.hb
    | 0x48 => p.rate
    | 0x4C => p.tskew
    | 0x50 => word (p.rxBad + 65536 * p.rxUnknown)
    | 0x400 => p.migGid
    | 0x404 => p.migCfg
    | 0x408 => p.migLead
    | 0x410 => p.migStat ||| word (match p.out with | some m => m.state | none => 0)
    | 0x414 => p.migFrame
    | 0x418 => p.acptGid
    | 0x41C => p.acptArmLo
    | 0x420 => p.acptArmHi
    | 0x424 => p.acptStat ||| word (match p.inc with | some m => m.state | none => 0)
    | _ => 0

/-- DMA (R230). -/
def State.readDma (s : State) (o : Nat) : Word :=
  if 0x100 ≤ o ∧ o < 0x300 then
    let x := s.chan ((o - 0x100) / 0x40)
    match o % 0x40 with
    | 0x00 => loWord x.src.toNat
    | 0x04 => hiWord x.src.toNat
    | 0x08 => loWord x.dst.toNat
    | 0x0C => hiWord x.dst.toNat
    | 0x10 => x.len
    | 0x14 => word (b2n x.arm + 2 * b2n x.smode + 4 * b2n x.dmode + 8 * b2n x.ien + 65536 * x.ctx.toNat)
    | 0x18 => word (b2n x.running + 2 * b2n x.arm + 16 * x.code)
    | 0x1C => x.residue
    | 0x20 => loWord x.actSrc.toNat
    | 0x24 => hiWord x.actSrc.toNat
    | 0x28 => loWord x.actDst.toNat
    | 0x2C => hiWord x.actDst.toNat
    | 0x30 => x.actLen
    | _ => 0
  else 0

/-- TBASE (R237). -/
def State.readTbase (s : State) (t o : Nat) : Word :=
  let x := s.tb t
  match o with
  | 0x40 => loWord x.value.toNat
  | 0x44 => x.valHi
  | 0x48 => x.nom
  | 0x4C => word x.tol
  | 0x50 => word x.stallLim
  | 0x54 => x.jumpLim
  | 0x58 => loWord x.set.toNat
  | 0x5C => hiWord x.set.toNat
  | _ => 0

/-- PACK (R229, R265, R435). -/
def State.readPack (s : State) (p o : Nat) : Word :=
  let x := s.pack p
  if 0xA0 ≤ o ∧ o < 0xC0 then x.calLatch.getD ((o - 0xA0) / 4) 0
  else
    match o with
    | 0x40 => word x.rmcPage
    | 0x48 => word (b2n x.rmcBusy + 16 * x.locked)
    | 0x4C => x.rmcFlt
    | 0x50 => loWord x.rmcVa
    | 0x54 => hiWord x.rmcVa
    | 0x60 => word (x.entries.length + 65536 * b2n (x.entries.any fun e => e.2.budget == 0))
    | 0x64 => x.calFires
    | 0x68 => x.lshMiss
    | 0x6C => x.lshSlack
    | 0x70 => x.lshFrame
    | 0x74 => x.lshCnt
    | 0x80 => word x.calSel
    | 0x84 => x.calXstat
    | _ => 0

/-- SPARE of a core (R438); cores beyond the configuration read zero. -/
def State.spareFuse (s : State) (c : Nat) : Nat := if c < s.conf.cores then (s.fuse.spare.getD c 0).toNat else 0

/-- MXA_CFG (R98). -/
def State.mxaCfg (s : State) (c a : Nat) : Word :=
  let m := (s.core c).mxa a
  word (b2n m.quad + 2 * b2n (m.width == 32) + 256 * m.width + 2 ^ 16 * m.byps.getD 0 0 + 2 ^ 21 * m.byps.getD 1 0
    + 2 ^ 26 * (s.spareFuse c / 64 ^ a % 64))

/-- FX_SLOT (R131). -/
def FxSlot.reg (x : FxSlot) : Word :=
  let mono (m : Mono) : Nat := match m with | .none => 0 | .inc => 1 | .dec => 2
  let k : Nat × Nat × Nat := match x.content with
    | .empty => (0, 0, 0)
    | .table t => (1, mono t.mono, t.id)
    | .micro m => (2, 0, m.id)
  word (k.1 + 4 * k.2.1 + 16 * b2n x.rom + 32 * b2n x.pin + 65536 * (k.2.2 % 65536))

/-- RTV_CTRL, RTV_STAT (R227). -/
def Rtv.ctrlReg (x : Rtv) : Word :=
  x.ctl ||| word (4 * b2n (x.st != .idle && !x.disarm))

/-- Number of a Retriever state. -/
def RtvState.num : RtvState → Nat
  | .idle => 0 | .armed => 1 | .running => 2 | .parked => 3

/-- RTV_STAT. -/
def Rtv.statReg (x : Rtv) : Word :=
  word (x.st.num + 4 * (x.pc % 64) + 256 * x.code + 2 ^ 16 * x.flight.length + 2 ^ 21 * x.set)

/-- The low registers of a core page. -/
def State.readCoreLow (s : State) (c o : Nat) : Word :=
  let k := s.core c
  match o with
  | 0x40 => s.mxaCfg c 0
  | 0x44 => s.mxaCfg c 1
  | 0x48 => s.mxaCfg c 2
  | 0x4C => s.mxaCfg c 3
  | 0x50 => k.freeze
  | 0x5C => k.fxStat ||| word (b2n k.fxJob.isSome)
  | 0x60 => k.nan.ctrl
  | 0x64 => k.nan.stat
  | 0x68 => k.nan.instr
  | 0x6C => k.nan.tile
  | 0x70 => k.nan.mc
  | 0x74 => k.nan.stream
  | 0x78 => k.nan.frame
  | 0x80 => if s.conf.hist then word k.histCtrl.toNat else 0
  | 0x90 => k.progErr
  | 0x94 => k.progErrOff
  | 0x98 => k.tblStatRead
  | 0x9C => word k.segPwr.toNat
  | 0xA0 => word (k.segUp.toNat + 256 * b2n k.segRefused)
  | 0xA4 => k.collarRej
  | 0xA8 => k.fltRec
  | 0xAC => k.fltLoc
  | 0xB0 => k.ceCnt
  | 0xB4 => k.ueCnt
  | 0xB8 => word (k.ageCount.toNat + 65536 * k.ageWarn.toNat)
  | _ => 0

/-- CORE (R98, R129, R131, R193, R227, R346). -/
def State.readCore (s : State) (c o : Nat) : Word :=
  let k := s.core c
  let half (e : DWord) : Word := if o % 8 = 0 then loWord e.toNat else hiWord e.toNat
  if o < 0xC0 then s.readCoreLow c o
  else if o < 0x100 then (k.fxSlot ((o - 0xC0) / 4)).reg
  else if o < 0x900 then half (Sparse.get 0 k.handles ((o - 0x100) / 8))
  else if o < 0x980 then half (Sparse.get 0 k.collars ((o - 0x900) / 8))
  else if o < 0xA00 then
    let x := k.rtv ((o - 0x980) / 16)
    match o % 16 with
    | 0 => x.prog
    | 4 => x.ctrlReg
    | 8 => x.statReg
    | _ => x.lines
  else if s.conf.hist then
    let st := (o - 0xA00) / 0x110
    let i := (o - 0xA00) % 0x110 / 4
    if st < 4 then Sparse.get 0 k.hist (68 * st + i) else 0
  else 0

/-- The telemetry counters as they stand, TIME_HI first (R436). -/
def State.teleNow (s : State) : List Word :=
  let t := s.tele
  let sat (n : Nat) : Word := word (min 0xFFFFFFFF (n / 1024))
  [hiWord s.fclk, t.frames, t.restarts, t.fallbacks, t.misses, t.ceTotal, t.ueTotal, sat t.beCclk, sat t.dlCclk]

/-- TELEMETRY: the latched copy. -/
def State.readTele (s : State) (o : Nat) : Word :=
  if o = 0x40 then loWord s.fclk else if 0x44 ≤ o then s.tele.latch.getD ((o - 0x44) / 4) 0 else 0

/-- KENNEL (R347). -/
def State.readKennel (s : State) (o : Nat) : Word :=
  let k := s.kennel
  match o with
  | 0x40 => loWord k.win
  | 0x44 => hiWord k.win
  | 0x48 => k.geom
  | 0x4C => loWord k.fid.toNat
  | 0x50 => hiWord k.fid.toNat
  | 0x54 => loWord k.pt
  | 0x58 => hiWord k.pt
  | 0x5C => word (b2n k.en + 2 * b2n k.verify + 256 * k.wminor)
  | 0x60 => word (b2n k.active + 2 * b2n k.scanning + 4 * b2n s.glb.pf + 8 * b2n k.pfDone + 16 * b2n k.busy)
  | 0x64 => word (min 0xFFFFFFFF s.bDirty)
  | 0x68 => k.dirtyLim
  | 0x6C => word k.wearLim
  | 0x70 => word k.rotDelta
  | 0x74 => word (if k.active then k.freeSlots.length else 0)
  | 0x78 => word k.retired.length
  | 0x7C => k.lastErr
  | _ => 0

/-- OBS_CSQ (R437): the instruction last issued, and what the observed slot does. -/
def State.obsCsq (s : State) : Word :=
  let c := wbits s.obsSel 4 0
  let slot := wbits s.obsSel 6 5
  if !s.coreOn c then 0
  else
    let k := s.core c
    let parked := s.jobs.findSome? fun e =>
      let j := e.2
      if (j.stage == .parkedNan || j.stage == .parkedRes || j.stage == .faulted) && (j.slots[slot]?).any (fun x => x.core == c) then
        some ((j.saved.find? fun v => v.1 == slot).map fun v => v.2.csq.last)
      else none
    match k.csq.run with
    | .frame _ _ n => word (k.csq.last % 65536 + (if n = slot then 65536 else 0))
    | .job _ n => word (k.csq.last % 65536 + (if n = slot then 2 * 65536 else 0))
    | .idle =>
      match parked with
      | some l => word (l.getD k.csq.last % 65536 + 3 * 65536)
      | none => word (k.csq.last % 65536)

/-- DEBUG (R437). -/
def State.readDebug (s : State) (o : Nat) : Word :=
  match o with
  | 0x40 => word s.traceEn.toNat
  | 0x44 => s.traceLost
  | 0x48 => s.obsSel
  | 0x4C => s.obsCsq
  | _ => 0

/-- FUSE (R438). -/
def State.readFuse (s : State) (o : Nat) : Word :=
  let f := s.fuse
  if 0x100 ≤ o ∧ o < 0x180 then word (s.spareFuse ((o - 0x100) / 4))
  else if 0x80 ≤ o ∧ o < 0xB0 then
    -- keyHash holds the 48 bytes in output order, byte 0 most significant
    let w := (o - 0x80) / 4
    word (tab 4 (fun i => nbits f.keyHash.toNat (8 * (47 - (4 * w + i))) 8 * 256 ^ i)).sum
  else
    match o with
    | 0x40 => s.conf.idcode
    | 0x44 => word (s.conf.packs + 16 * b2n s.conf.hist + 32 * b2n f.debugEn)
    | 0x48 => f.svn
    | 0x4C => word f.ageWarn.toNat
    | _ => 0

/-- The value that a register reads, latching reads aside. -/
def State.readReg (s : State) (a : Nat) : Word :=
  let o := a % 0x1000
  let k := pageKind a
  if o < 0x40 ∧ k ≠ .doorbell then s.readHeader k o
  else
    match k with
    | .glb => s.readGlb o
    | .sheepdog => s.readSheepdog o
    | .power => s.readPower o
    | .mport => s.readMport o
    | .tport => s.readTport o
    | .aport => s.readAport o
    | .peer => s.readPeer o
    | .dma => s.readDma o
    | .tbase t => s.readTbase t o
    | .pack p => s.readPack p o
    | .core c => s.readCore c o
    | .tele => s.readTele o
    | .kennel => s.readKennel o
    | .debug => s.readDebug o
    | .fuse => s.readFuse o
    | .doorbell =>
      let r := (a - 0x40000) / 8
      if a % 8 = 0 then loWord (s.ring r).tail.toNat else hiWord (s.ring r).tail.toNat
    | .absent => 0

/-! ## Latching reads (R237, R435, R436) -/

/-- The 32 bytes of a calendar entry as a number (R248). -/
def State.calBytes (s : State) (e : CalEntry) : List Byte :=
  let parked := (s.group? e.gid).any fun g => g.parked.isSome
  toBytes 8 e.next.toNat ++ toBytes 4 e.p ++ toBytes 4 e.drel ++ toBytes 4 e.wres ++ toBytes 2 e.gid ++ toBytes 1 e.lag
    ++ toBytes 1 e.cores ++ toBytes 1 (e.ctl + 8 * b2n parked + 128) ++ toBytes 1 e.xctl ++ toBytes 2 e.budget ++ toBytes 4 0

/-- A read of CAL_ENT[0] latches the selected entry and CAL_XSTAT; an invalid entry reads as zero. -/
def State.calRead (s : State) (p : Nat) : State :=
  let x := s.pack p
  let l : List Word × Word := match x.entries.find? fun e => e.1 == x.calSel with
    | some (_, e) =>
      (tab 8 fun w => word (fieldAt (s.calBytes e) (4 * w) 4),
       word (b2n ((s.group? e.gid).any (·.shadow)) + 2 * b2n e.suspended))
    | none => (List.replicate 8 0, 0)
  (s.updPack p fun y => { y with calLatch := l.1, calXstat := l.2 }).respond 0 (l.1.getD 0 0)

/-- A read of TIME_LO latches the page. -/
def State.timeRead (s : State) : State :=
  ({ s with tele := { s.tele with latch := s.teleNow } }).respond 0 (loWord s.fclk)

/-- A register read under R373, R374 and R411. -/
def State.cfgRead (s : State) (a : Nat) (acc : Acc) : State :=
  let k := pageKind a
  let o := a % 0x1000
  if !s.running then s
  else
    let s := s.answers acc
    if !s.pageActs k || !(pageReg k o || guardedPage k) then s.respond 0 0
    else if readAllowed a acc then
    match k with
    | .tbase t => if o = 0x40 then s.valLo t else s.respond 0 (s.readReg a)
    | .pack p => if o = 0xA0 then s.calRead p else s.respond 0 (s.readReg a)
    | .tele => if o = 0x40 then s.timeRead else s.respond 0 (s.readReg a)
    | _ => s.respond 0 (s.readReg a)
    else s.deny a false acc

/-! ## What writes of registers do -/

/-- Clears VALID of a record, bit `b`, where 1 is written. -/
def clearValid (old v : Word) (b : Nat) : Word := if v.getLsbD b then old &&& ~~~(word (2 ^ b)) else old

/-- The events of a page that a write of EVT_CLR clears; KN_DIRTY stays raised while B_dirty exceeds DIRTY_LIM (R345, R425). -/
def State.evtClear (s : State) (p : Nat) (v : Word) : State :=
  let s := s.updHdr p fun h => { h with raw := h.raw &&& ~~~(v &&& pageEvMask p) }
  if p = pgKennel then s.checkDirty else s

/-- A write of EVT_SET: it fills no record. -/
def State.evtSet (s : State) (p : Nat) (v : Word) : State :=
  s.updHdr p fun h => { h with raw := h.raw ||| (v &&& pageEvMask p) }

/-- Writes of the header. -/
def State.writeHeader (s : State) (k : PageKind) (o : Nat) (v : Word) : State :=
  if k = .fuse then s
  else
    match o with
    | 0x10 => match k with | .tbase t => s.tbWrite t .ctrl v | _ => s
    | 0x24 => s.updHdr k.index fun h => { h with mask := v }
    | 0x28 => s.evtClear k.index v
    | 0x2C => s.evtSet k.index v
    | 0x30 => s.updHdr k.index fun h => { h with first := clearValid h.first v 0 }
    | _ => s

/-- Rewrites the GLB page. -/
def State.updGlb (s : State) (f : Glb → Glb) : State := { s with glb := f s.glb }

/-- GLB. -/
def State.writeGlb (s : State) (o : Nat) (v : Word) : State :=
  if 0x300 ≤ o ∧ o < 0x400 then s.hqAssign ((o - 0x300) / 4) v
  else if 0x180 ≤ o ∧ o < 0x280 then
    let l := (o - 0x180) / 16
    s.updGlb fun g =>
      match o % 16 with
      | 0 => { g with msiLo := g.msiLo.set 0 l (v &&& ~~~3#32) }
      | 4 => { g with msiHi := g.msiHi.set 0 l (v &&& 0x8000FFFF#32) }
      | 8 => { g with msiData := g.msiData.set 0 l v }
      | _ => g
  else if 0x100 ≤ o ∧ o < 0x120 then s.updGlb fun g => { g with irqMap := g.irqMap.set 0 ((o - 0x100) / 4) (if o = 0x11C then v &&& 0xFFF#32 else v) }
  else
    match o with
    | 0x50 => if s.glb.rmapEn then s else s.updGlb fun g => { g with rmapLo := v &&& 0xFFFF0000#32 }
    | 0x54 => if s.glb.rmapEn then s else s.updGlb fun g => { g with rmapHi := v &&& 0x0000FFFF#32 }
    | 0x58 => s.updGlb fun g => { g with rmapEn := v.getLsbD 0 }
    | 0x70 => s.updGlb fun g => { g with cfgErr := clearValid g.cfgErr v 0 }
    | 0x78 => s.updGlb fun g => { g with ringPend := g.ringPend &&& ~~~(v.truncate 16) }
    | 0x84 => { s with boot := { s.boot with fwLo := v &&& 0xFFFFFFC0#32 } }
    | 0x88 => { s with boot := { s.boot with fwHi := v &&& 0x0000FFFF#32 } }
    | 0x8C => s.fwCmd v
    | _ => s

/-- Rewrites Sheepdog's registers. -/
def State.updSd (s : State) (f : Sheepdog → Sheepdog) : State := { s with sd := f s.sd }

/-- Is every ring ABSENT? -/
def State.ringsAbsent (s : State) : Bool := s.rings.all fun e => e.2.st == .absent

/-- SHEEPDOG (R265, R313, R346). -/
def State.writeSheepdog (s : State) (o : Nat) (v : Word) : State :=
  let base (f : Sheepdog → Sheepdog) : State := if s.ringsAbsent then s.updSd f else s
  match o with
  | 0x40 => s.updSd fun d => { d with markStream := wbits v 11 0 }
  | 0x44 => s.updSd fun d => { d with markLo := v }
  | 0x48 => s.markRequest s.sd.markStream (dword (s.sd.markLo.toNat + v.toNat * 2 ^ 32))
  | 0x80 => s.updSd fun d => { d with recLo := v }
  | 0x84 => s.updSd fun d => { d with recHi := v &&& 0x0000FFFF#32 }
  | 0x88 => s.ringCmd v .ok
  | 0x90 => s.updSd fun d => { d with ringSel := wbits v 11 0 }
  | 0x98 => base fun d => { d with objLo := v }
  | 0x9C => base fun d => { d with objHi := v &&& 0x0000FFFF#32 }
  | 0xA0 => base fun d => { d with fenceLo := v }
  | 0xA4 => base fun d => { d with fenceHi := v &&& 0x0000FFFF#32 }
  | 0xA8 => s.updSd fun d => { d with objNotify := v &&& 0x00008FFF#32 }
  | 0xAC => s.updSd fun d => { d with dbRej := clearValid d.dbRej v 0 }
  | 0xB0 => s.updSd fun d => { d with fenceLog := clearValid d.fenceLog v 0 }
  | 0xB4 => s.updSd fun d => { d with fltLim := wbits v 7 0 }
  | _ => s

/-- A write of LIMIT: above 60,000 it is ignored (R434). -/
def State.limitWrite (s : State) (v : Word) : State :=
  if 60000 < wbits v 15 0 then s else { s with power := { s.power with limit := v &&& 0x0000FFFF#32 } }

/-- MPORT (R380). -/
def State.writeMport (s : State) (o : Nat) (v : Word) : State :=
  let upd (f : MPort → MPort) : State := { s with mport := f s.mport }
  match o with
  | 0x40 => if s.groups.isEmpty then upd fun p => { p with latBound := wbits v 15 0 } else s
  | 0x48 => if v.getLsbD 0 then upd fun p => { p with latMax := 0 } else s
  | 0x50 => upd fun p => { p with timeout := wbits v 15 0 }
  | 0x54 => upd fun p => { p with errInfo := clearValid p.errInfo v 0 }
  | _ => s

/-- TPORT (R396). -/
def State.writeTport (s : State) (o : Nat) (v : Word) : State :=
  if 0x100 ≤ o ∧ o < 0x200 then
    let reg : TileReg := match o % 16 with | 0 => .cfg | 4 => .geom | 8 => .refs | _ => .dseq
    s.tileWrite ((o - 0x100) / 16) reg v
  else if o = 0x40 then { s with tport := { s.tport with retry := wbits v 15 0 } }
  else s

/-- APORT (R389). -/
def State.writeAport (s : State) (o : Nat) (v : Word) : State :=
  let reg : BindReg := match o % 16 with | 0 => .cfg | 4 => .tgt | _ => .store
  if 0x100 ≤ o ∧ o < 0x200 then s.inWrite ((o - 0x100) / 16) reg v
  else if 0x200 ≤ o ∧ o < 0x300 then s.outWrite ((o - 0x200) / 16) reg v
  else s

/-- PEER (R355, R367); a bucket holds at most BURST tokens (R354). -/
def State.writePeer (s : State) (o : Nat) (v : Word) : State :=
  if 0x200 ≤ o ∧ o < 0x400 then s.keyWrite ((o - 0x200) / 32) ((o - 0x200) % 32 / 4) v
  else if 0x100 ≤ o ∧ o < 0x200 then if o % 16 = 0 then s.partCfgWrite ((o - 0x100) / 16) v else s
  else
    match o with
    | 0x40 =>
      if (List.range 16).any fun m => (s.partner m).st != .down then s
      else s.updPeer fun p => { p with self := v &&& 0xFFFF000F#32 }
    | 0x44 => s.updPeer fun p => { p with hb := v &&& 0x00FFFFFF#32 }
    | 0x48 => s.updPeer fun p => { p with rate := v, parts := p.parts.map fun e =>
        (e.1, { e.2 with tokens := min (wbits v 31 16) e.2.tokens }) }
    | 0x4C => s.updPeer fun p => { p with tskew := v }
    | 0x400 => s.updPeer fun p => { p with migGid := v &&& 0x00000FFF#32 }
    | 0x404 => s.updPeer fun p => { p with migCfg := v &&& 0x000000FF#32 }
    | 0x408 => s.updPeer fun p => { p with migLead := v }
    | 0x40C => s.migCmd v
    | 0x418 => s.acptWrite v
    | 0x41C => s.updPeer fun p => { p with acptArmLo := v }
    | 0x420 => s.updPeer fun p => { p with acptArmHi := v &&& 0x0000FFFF#32 }
    | _ => s

/-- Replaces the low or the high word of a doubleword. -/
def setHalf (d : DWord) (hi : Bool) (v : Word) : DWord :=
  if hi then dword (d.toNat % 2 ^ 32 + v.toNat * 2 ^ 32) else dword (v.toNat + d.toNat / 2 ^ 32 * 2 ^ 32)

/-- DMA (R230). -/
def State.writeDma (s : State) (o : Nat) (v : Word) : State :=
  if 0x100 ≤ o ∧ o < 0x300 then
    let c := (o - 0x100) / 0x40
    match o % 0x40 with
    | 0x00 => s.updChan c fun x => { x with src := setHalf x.src false v }
    | 0x04 => s.updChan c fun x => { x with src := setHalf x.src true v }
    | 0x08 => s.updChan c fun x => { x with dst := setHalf x.dst false v }
    | 0x0C => s.updChan c fun x => { x with dst := setHalf x.dst true v }
    | 0x10 => s.updChan c fun x => { x with len := v }
    | 0x14 => s.chCtrlWrite c v
    | 0x34 => s.chAbortWrite c v
    | _ => s
  else s

/-- TBASE (R235, R237). -/
def State.writeTbase (s : State) (t o : Nat) (v : Word) : State :=
  match o with
  | 0x48 => s.tbWrite t .nom v
  | 0x4C => s.tbWrite t .tol v
  | 0x50 => s.updTb t fun x => { x with stallLim := wbits v 23 0 }
  | 0x54 => s.updTb t fun x => { x with jumpLim := v }
  | 0x58 => s.tbWrite t .setLo v
  | 0x5C => s.tbWrite t .setHi v
  | _ => s

/-- PACK (R229, R265, R435). -/
def State.writePack (s : State) (p o : Nat) (v : Word) : State :=
  match o with
  | 0x40 => if (s.pack p).rmcBusy then s else s.updPack p fun x => { x with rmcPage := wbits v 20 0 }
  | 0x44 => s.rmcInvalidate p v
  | 0x4C => s.updPack p fun x => { x with rmcFlt := clearValid x.rmcFlt v 0 }
  | 0x68 => s.updPack p fun x => { x with lshMiss := clearValid x.lshMiss v 0 }
  | 0x80 => s.updPack p fun x => { x with calSel := wbits v 8 0 }
  | _ => s

/-- The low registers of a core page. -/
def State.writeCoreLow (s : State) (c o : Nat) (v : Word) (acc : Acc) : State :=
  let upd (f : Core → Core) : State := s.updCore c f
  match o with
  | 0x58 => s.fxStart c v acc
  | 0x60 => upd fun k => { k with nan := { k.nan with ctrl := v &&& 7#32 } }
  | 0x64 => if v.getLsbD 0 then upd fun k => { k with nan := { k.nan with stat := k.nan.stat &&& 0x0000FFFE#32 } } else s
  | 0x80 => if s.conf.hist then upd fun k => { k with histCtrl := v.truncate 4 } else s
  | 0x84 => upd fun k => k.histClear v
  | 0x90 => upd fun k => { k with progErr := clearValid k.progErr v 31 }
  | 0x9C => s.segWrite c v
  | 0xA4 => upd fun k => { k with collarRej := clearValid k.collarRej v 0 }
  | 0xA8 => upd fun k => { k with fltRec := clearValid k.fltRec v 0 }
  | 0xB8 => upd fun k => { k with ageWarn := BitVec.ofNat 16 (wbits v 31 16) }
  | _ => s

/-- CORE. -/
def State.writeCore (s : State) (c o : Nat) (v : Word) (acc : Acc) : State :=
  if o < 0xC0 then s.writeCoreLow c o v acc
  else if o < 0x100 then s.pin c ((o - 0xC0) / 4) (v.getLsbD 5)
  else if o < 0x900 then
    let i := (o - 0x100) / 8
    if o % 8 = 0 then s.updCore c fun k => { k with hstage := k.hstage.set 0 i v } else s.tableWrite c false i v
  else if o < 0x980 then
    let i := (o - 0x900) / 8
    if o % 8 = 0 then s.updCore c fun k => { k with cstage := k.cstage.set 0 i v } else s.tableWrite c true i v
  else if o < 0xA00 then
    let r := (o - 0x980) / 16
    match o % 16 with
    | 0 => s.updRtv c r fun x => { x with prog := v }
    | 4 => s.rtvCtrlWrite c r v acc
    | _ => s
  else s

/-- Replaces a field of a number held as low and high word. -/
def natHalf (n : Nat) (hi : Bool) (v : Nat) : Nat := if hi then n % 2 ^ 32 + v * 2 ^ 32 else v + n / 2 ^ 32 * 2 ^ 32

/-- KENNEL (R347): WIN, GEOM, FID and PT stay while EN = 1. -/
def State.writeKennel (s : State) (o : Nat) (v : Word) : State :=
  let held (f : Kennel → Kennel) : State := if s.kennel.en then s else s.updKennel f
  match o with
  | 0x40 => held fun k => { k with win := natHalf k.win false (v.toNat / 4096 * 4096) }
  | 0x44 => held fun k => { k with win := natHalf k.win true (wbits v 15 0) }
  | 0x48 => held fun k => { k with geom := v &&& 0x1F01FFFF#32 }
  | 0x4C => held fun k => { k with fid := setHalf k.fid false v }
  | 0x50 => held fun k => { k with fid := setHalf k.fid true v }
  | 0x54 => held fun k => { k with pt := natHalf k.pt false (v.toNat / 4096 * 4096) }
  | 0x58 => held fun k => { k with pt := natHalf k.pt true (wbits v 15 0) }
  | 0x5C => s.kennelCtrl v .ok
  | 0x68 => (s.updKennel fun k => { k with dirtyLim := v }).checkDirty
  | 0x6C => s.updKennel fun k => { k with wearLim := wbits v 23 0 }
  | 0x70 => s.updKennel fun k => { k with rotDelta := wbits v 23 0 }
  | _ => s

/-- TRACE_EN, which is also the data register of TRACECTL (R437). -/
def State.traceCtl (s : State) (v : Word) : State := { s with traceEn := v.truncate 16 &&& 0x01FE#16 }

/-- DEBUG (R437). -/
def State.writeDebug (s : State) (o : Nat) (v : Word) : State :=
  match o with
  | 0x40 => s.traceCtl v
  | 0x48 => { s with obsSel := v &&& 0x7F#32 }
  | _ => s

/-- What an allowed write of a register does; a write of a read-only register or of a reserved offset does nothing (R9, R11). -/
def State.writeReg (s : State) (a : Nat) (v : Word) (acc : Acc) : State :=
  let o := a % 0x1000
  let k := pageKind a
  if o < 0x40 ∧ k ≠ .doorbell then s.writeHeader k o v
  else
    match k with
    | .glb => s.writeGlb o v
    | .sheepdog => s.writeSheepdog o v
    | .power => if o = 0x44 then s.limitWrite v else s
    | .mport => s.writeMport o v
    | .tport => s.writeTport o v
    | .aport => s.writeAport o v
    | .peer => s.writePeer o v
    | .dma => s.writeDma o v
    | .tbase t => s.writeTbase t o v
    | .pack p => s.writePack p o v
    | .core c => s.writeCore c o v acc
    | .kennel => s.writeKennel o v
    | .debug => s.writeDebug o v
    | .doorbell =>
      let r := (a - 0x40000) / 8
      if a % 8 = 0 then s.updRing r fun x => { x with staged := v } else s.presentDoorbell r v acc
    | .tele => s
    | .fuse => s
    | .absent => s

/-- The register that a byte address names: CFG_AADDR[19:2] (R371). -/
def regAddr (a : Nat) : Nat := a % 2 ^ 20 / 4 * 4

/-- A write through the config path. -/
def State.cfgPut (s : State) (a : Nat) (v : Word) (acc : Acc) : State :=
  s.cfgWrite (regAddr a) acc fun t => t.writeReg (regAddr a) v acc

/-- The address of the page with an index (R401, R427). -/
def pageBase (p : Nat) : Nat :=
  if p < 8 then 0x1000 * p
  else if p < 16 then 0x8000 + 0x1000 * (p - 8)
  else if p < 24 then 0x10000 + 0x1000 * (p - 16)
  else if p < 56 then 0x20000 + 0x1000 * (p - 24)
  else if p = 56 then 0x48000
  else if p = 57 then 0x49000
  else if p = 58 then 0x4A000
  else if p = 59 then 0x4B000
  else noAddr

/-! ## The test access port (R404) -/

/-- The initiator of a CFGACC access: privileged when the debug-enable fuse is blown. -/
def State.tapAcc (s : State) : Acc := ⟨s.fuse.debugEn, false, 0, 0⟩

/-- The codes of the instructions that the port has; every other code acts as BYPASS. -/
def tapCodes : List (BitVec 8) := [0x00, 0x01, 0x02, 0x10, 0x11]

/-- Selects an instruction, with the data register as captured. -/
def State.tapSelect (s : State) (ir : BitVec 8) (dr : BitVec 64) : State := { s with tap := { ir := ir, dr := dr } }

/-- A boundary-scan capture: the content of the boundary register is open. -/
def State.boundary (s : State) (ir : BitVec 8) : State :=
  ({ s with fresh := s.fresh + 1 }).tapSelect ir ((Config.freeWord s.fresh).zeroExtend 64)

/-- A CFGACC access and its capture: data, response code and DONE; in reset the config path answers nothing. -/
def State.tapAccess (s : State) (a : Nat) (v : Word) (write : Bool) : State :=
  if s.running then
    let t := if write then s.cfgPut a v s.tapAcc else s.cfgRead (regAddr a) s.tapAcc
    t.tapSelect 0x10 (dword ((if write then 0 else t.cfgResp.2.toNat) + t.cfgResp.1 * 2 ^ 32 + 2 ^ 34))
  else s.tapSelect 0x10 0

/-! ## Meanings -/

/-- EVT_CLR (R425). -/
def execEvtClr (page : Nat) (value : Word) (acc : Acc) (s : State) : Host.Outcome State Fault Refusal :=
  done (s.cfgPut (pageBase page + 0x28) value acc)

/-- EVT_SET (R425). -/
def execEvtSet (page : Nat) (value : Word) (acc : Acc) (s : State) : Host.Outcome State Fault Refusal :=
  done (s.cfgPut (pageBase page + 0x2C) value acc)

/-- CAL_ENT0_READ (R435). -/
def execCalEnt0Read (pack : Nat) (s : State) : Host.Outcome State Fault Refusal :=
  done (s.cfgRead (packAddr pack 0xA0) ⟨false, false, 0, 0⟩)

/-- TIME_LO_READ (R436). -/
def execTimeLoRead (s : State) : Host.Outcome State Fault Refusal := done (s.cfgRead 0x48040 ⟨false, false, 0, 0⟩)

/-- LIMIT_WRITE (R434). -/
def execLimitWrite (value : Word) (acc : Acc) (s : State) : Host.Outcome State Fault Refusal :=
  done (s.cfgWrite 0x2044 acc fun t => t.limitWrite value)

/-- REGISTER_WRITE (R9, R371 to R374): a write of any register. -/
def execRegisterWrite (addr : Nat) (value : Word) (acc : Acc) (s : State) : Host.Outcome State Fault Refusal :=
  done (s.cfgPut addr value acc)

/-- EXTEST (R404). -/
def execExtest (s : State) : Host.Outcome State Fault Refusal := done (s.boundary 0x00)

/-- SAMPLE_PRELOAD (R404). -/
def execSamplePreload (s : State) : Host.Outcome State Fault Refusal := done (s.boundary 0x01)

/-- IDCODE (R404, R438). -/
def execIdcode (s : State) : Host.Outcome State Fault Refusal := done (s.tapSelect 0x02 (s.conf.idcode.zeroExtend 64))

/-- CFGACC (R404). -/
def execCfgacc (addr : Nat) (data : Word) (write : Bool) (s : State) : Host.Outcome State Fault Refusal :=
  done (s.tapAccess addr data write)

/-- TRACECTL (R404, R437). -/
def execTracectl (value : Word) (s : State) : Host.Outcome State Fault Refusal :=
  done (if s.running then let t := s.traceCtl value; t.tapSelect 0x11 (t.traceEn.zeroExtend 64) else s.tapSelect 0x11 0)

/-- BYPASS, and every code that names no instruction (R404). -/
def execBypass (code : BitVec 8) (s : State) : Host.Outcome State Fault Refusal :=
  done (if tapCodes.contains code then s else s.tapSelect code 0)

end Sys2Proof.Machine
end

