-- ==== Sys2Proof/Machine/Dispatch.lean ====
section
/-! DEFINITION. The dispatch: one arm per command, each a direct call of its meaning. -/

namespace Sys2Proof.Machine

/-- The effect of command `i` on everything but the queue. -/
def exec (i : Instr) (s : State) : Host.Outcome State Fault Refusal :=
  match i with
  | .nop core => Sys2Proof.Machine.execNop core s
  | .endSlot core => Sys2Proof.Machine.execEndSlot core s
  | .loadw core => Sys2Proof.Machine.execLoadw core s
  | .matmul core => Sys2Proof.Machine.execMatmul core s
  | .matvec core => Sys2Proof.Machine.execMatvec core s
  | .recur core => Sys2Proof.Machine.execRecur core s
  | .scan core => Sys2Proof.Machine.execScan core s
  | .lconv core => Sys2Proof.Machine.execLconv core s
  | .gate core => Sys2Proof.Machine.execGate core s
  | .func core => Sys2Proof.Machine.execFunc core s
  | .reduceSeq core => Sys2Proof.Machine.execReduceSeq core s
  | .convert core => Sys2Proof.Machine.execConvert core s
  | .move core => Sys2Proof.Machine.execMove core s
  | .qpush core => Sys2Proof.Machine.execQpush core s
  | .qpop core => Sys2Proof.Machine.execQpop core s
  | .waitCnt core => Sys2Proof.Machine.execWaitCnt core s
  | .signalCnt core => Sys2Proof.Machine.execSignalCnt core s
  | .syncTimeout core => Sys2Proof.Machine.execSyncTimeout core s
  | .branch core => Sys2Proof.Machine.execBranch core s
  | .summary core => Sys2Proof.Machine.execSummary core s
  | .rtvArm core rtv value acc => Sys2Proof.Machine.execRtvArm core rtv value acc s
  | .rtvDisarm core rtv value acc => Sys2Proof.Machine.execRtvDisarm core rtv value acc s
  | .rtvStop core rtv value acc => Sys2Proof.Machine.execRtvStop core rtv value acc s
  | .rtvRunStart core rtv => Sys2Proof.Machine.execRtvRunStart core rtv s
  | .rtvEnd core rtv => Sys2Proof.Machine.execRtvEnd core rtv s
  | .rd core rtv => Sys2Proof.Machine.execRd core rtv s
  | .wr core rtv => Sys2Proof.Machine.execWr core rtv s
  | .rtvList core rtv => Sys2Proof.Machine.execRtvList core rtv s
  | .seta core rtv => Sys2Proof.Machine.execSeta core rtv s
  | .adda core rtv => Sys2Proof.Machine.execAdda core rtv s
  | .seto core rtv => Sys2Proof.Machine.execSeto core rtv s
  | .addo core rtv => Sys2Proof.Machine.execAddo core rtv s
  | .setl core rtv => Sys2Proof.Machine.execSetl core rtv s
  | .rtvLoop core rtv => Sys2Proof.Machine.execRtvLoop core rtv s
  | .nextp core rtv => Sys2Proof.Machine.execNextp core rtv s
  | .waitc core rtv => Sys2Proof.Machine.execWaitc core rtv s
  | .sig core rtv => Sys2Proof.Machine.execSig core rtv s
  | .rtvFence core rtv => Sys2Proof.Machine.execRtvFence core rtv s
  | .jmp core rtv => Sys2Proof.Machine.execJmp core rtv s
  | .rtvLineLanded core rtv => Sys2Proof.Machine.execRtvLineLanded core rtv s
  | .dbLo ring value acc => Sys2Proof.Machine.execDbLo ring value acc s
  | .dbHi ring value acc => Sys2Proof.Machine.execDbHi ring value acc s
  | .create ring acc mem => Sys2Proof.Machine.execCreate ring acc mem s
  | .destroy ring acc => Sys2Proof.Machine.execDestroy ring acc s
  | .descriptorFetch => Sys2Proof.Machine.execDescriptorFetch s
  | .descriptorAccept ring mem => Sys2Proof.Machine.execDescriptorAccept ring mem s
  | .descNop ring => Sys2Proof.Machine.execDescNop ring s
  | .job ring => Sys2Proof.Machine.execJob ring s
  | .reserve ring mem => Sys2Proof.Machine.execReserve ring mem s
  | .arm ring mem => Sys2Proof.Machine.execArm ring mem s
  | .armAfterScan ring mem => Sys2Proof.Machine.execArmAfterScan ring mem s
  | .release ring => Sys2Proof.Machine.execRelease ring s
  | .groupReleaseEffect gid => Sys2Proof.Machine.execGroupReleaseEffect gid s
  | .query ring mem => Sys2Proof.Machine.execQuery ring mem s
  | .reclaim ring => Sys2Proof.Machine.execReclaim ring s
  | .fenceInit ring => Sys2Proof.Machine.execFenceInit ring s
  | .stop ring => Sys2Proof.Machine.execStop ring s
  | .abort ring => Sys2Proof.Machine.execAbort ring s
  | .resume ring => Sys2Proof.Machine.execResume ring s
  | .quiesce ring => Sys2Proof.Machine.execQuiesce ring s
  | .park ring => Sys2Proof.Machine.execPark ring s
  | .unpark ring => Sys2Proof.Machine.execUnpark ring s
  | .waitTimeout ring => Sys2Proof.Machine.execWaitTimeout ring s
  | .jobStart core => Sys2Proof.Machine.execJobStart core s
  | .completion ring => Sys2Proof.Machine.execCompletion ring s
  | .objectRecord obj mem => Sys2Proof.Machine.execObjectRecord obj mem s
  | .tbTick line => Sys2Proof.Machine.execTbTick line s
  | .tbNetStrobe value => Sys2Proof.Machine.execTbNetStrobe value s
  | .freeRunAdvance tb => Sys2Proof.Machine.execFreeRunAdvance tb s
  | .tbStall tb => Sys2Proof.Machine.execTbStall tb s
  | .tbaseCtrlWrite tb reg value acc => Sys2Proof.Machine.execTbaseCtrlWrite tb reg value acc s
  | .valLoRead tb => Sys2Proof.Machine.execValLoRead tb s
  | .markTHi value acc => Sys2Proof.Machine.execMarkTHi value acc s
  | .frameFire pack => Sys2Proof.Machine.execFrameFire pack s
  | .prefireFire pack => Sys2Proof.Machine.execPrefireFire pack s
  | .traceLostRecord => Sys2Proof.Machine.execTraceLostRecord s
  | .preemptLstTimer core => Sys2Proof.Machine.execPreemptLstTimer core s
  | .preemptionPoint core => Sys2Proof.Machine.execPreemptionPoint core s
  | .jobResume ring => Sys2Proof.Machine.execJobResume ring s
  | .frameStart pack => Sys2Proof.Machine.execFrameStart pack s
  | .endCollection gid => Sys2Proof.Machine.execEndCollection gid s
  | .frameCommit gid => Sys2Proof.Machine.execFrameCommit gid s
  | .frameDeadline gid => Sys2Proof.Machine.execFrameDeadline gid s
  | .budgetRestore pack => Sys2Proof.Machine.execBudgetRestore pack s
  | .standbyMove gid => Sys2Proof.Machine.execStandbyMove gid s
  | .governorWindow slowed => Sys2Proof.Machine.execGovernorWindow slowed s
  | .uncorrectableFault core src loc col => Sys2Proof.Machine.execUncorrectableFault core src loc col s
  | .stateBankRewrite core index => Sys2Proof.Machine.execStateBankRewrite core index s
  | .correctedWriteback core => Sys2Proof.Machine.execCorrectedWriteback core s
  | .spdScrub core line res => Sys2Proof.Machine.execSpdScrub core line res s
  | .acmScrub core array row res => Sys2Proof.Machine.execAcmScrub core array row res s
  | .weightReadback core array upsets => Sys2Proof.Machine.execWeightReadback core array upsets s
  | .knownAnswerTest core fails => Sys2Proof.Machine.execKnownAnswerTest core fails s
  | .faultWindowEnd => Sys2Proof.Machine.execFaultWindowEnd s
  | .controlRetry core failedAgain source => Sys2Proof.Machine.execControlRetry core failedAgain source s
  | .lockstepMismatch => Sys2Proof.Machine.execLockstepMismatch s
  | .calEntryRewrite pack entry => Sys2Proof.Machine.execCalEntryRewrite pack entry s
  | .agingSample core count => Sys2Proof.Machine.execAgingSample core count s
  | .kennelEnable value acc => Sys2Proof.Machine.execKennelEnable value acc s
  | .kennelScan mem => Sys2Proof.Machine.execKennelScan mem s
  | .format value acc mem => Sys2Proof.Machine.execFormat value acc mem s
  | .freeForeign value acc => Sys2Proof.Machine.execFreeForeign value acc s
  | .kennelSnapshot stream => Sys2Proof.Machine.execKennelSnapshot stream s
  | .kennelRecordWrite mem => Sys2Proof.Machine.execKennelRecordWrite mem s
  | .kennelHeaderAck mem verifyOk => Sys2Proof.Machine.execKennelHeaderAck mem verifyOk s
  | .pfNotice => Sys2Proof.Machine.execPfNotice s
  | .pfFinalRecords mem => Sys2Proof.Machine.execPfFinalRecords mem s
  | .pfDone => Sys2Proof.Machine.execPfDone s
  | .porstN => Sys2Proof.Machine.execPorstN s
  | .engRstN => Sys2Proof.Machine.execEngRstN s
  | .trstN => Sys2Proof.Machine.execTrstN s
  | .resetRelease por eng => Sys2Proof.Machine.execResetRelease por eng s
  | .enterEarly fails => Sys2Proof.Machine.execEnterEarly fails s
  | .powerDomainAck dom level => Sys2Proof.Machine.execPowerDomainAck dom level s
  | .fwLoad value acc => Sys2Proof.Machine.execFwLoad value acc s
  | .fwVerifyComplete mem => Sys2Proof.Machine.execFwVerifyComplete mem s
  | .handover fails => Sys2Proof.Machine.execHandover fails s
  | .handleWord0 core index value acc => Sys2Proof.Machine.execHandleWord0 core index value acc s
  | .handleWord1 core index value acc => Sys2Proof.Machine.execHandleWord1 core index value acc s
  | .collarWord0 core index value acc => Sys2Proof.Machine.execCollarWord0 core index value acc s
  | .collarWord1 core index value acc => Sys2Proof.Machine.execCollarWord1 core index value acc s
  | .tableCommit core => Sys2Proof.Machine.execTableCommit core s
  | .segPwrWrite core value acc => Sys2Proof.Machine.execSegPwrWrite core value acc s
  | .segmentUp core => Sys2Proof.Machine.execSegmentUp core s
  | .fxLoad core value acc => Sys2Proof.Machine.execFxLoad core value acc s
  | .fxLoadComplete core => Sys2Proof.Machine.execFxLoadComplete core s
  | .histClr core value acc => Sys2Proof.Machine.execHistClr core value acc s
  | .rmcInvCnt pack value acc => Sys2Proof.Machine.execRmcInvCnt pack value acc s
  | .rmcInvDone pack => Sys2Proof.Machine.execRmcInvDone pack s
  | .remoteWriteArrival source dest => Sys2Proof.Machine.execRemoteWriteArrival source dest s
  | .remoteWriteAck core => Sys2Proof.Machine.execRemoteWriteAck core s
  | .remoteRead core => Sys2Proof.Machine.execRemoteRead core s
  | .hqWrite queue value acc => Sys2Proof.Machine.execHqWrite queue value acc s
  | .chArm channel value acc => Sys2Proof.Machine.execChArm channel value acc s
  | .dmaTransferStart => Sys2Proof.Machine.execDmaTransferStart s
  | .dmaBurst mem => Sys2Proof.Machine.execDmaBurst mem s
  | .chAbortActive channel value acc => Sys2Proof.Machine.execChAbortActive channel value acc s
  | .chAbortShadow channel value acc => Sys2Proof.Machine.execChAbortShadow channel value acc s
  | .memReadData channel tag code => Sys2Proof.Machine.execMemReadData channel tag code s
  | .memWriteCompletion channel tag code => Sys2Proof.Machine.execMemWriteCompletion channel tag code s
  | .memTimeout channel tag => Sys2Proof.Machine.execMemTimeout channel tag s
  | .latClr value acc => Sys2Proof.Machine.execLatClr value acc s
  | .ingressWord lane data tag => Sys2Proof.Machine.execIngressWord lane data tag s
  | .storedWordLand lane => Sys2Proof.Machine.execStoredWordLand lane s
  | .egressWord lane => Sys2Proof.Machine.execEgressWord lane s
  | .inCfgWrite lane reg value acc => Sys2Proof.Machine.execInCfgWrite lane reg value acc s
  | .outCfgWrite lane reg value acc => Sys2Proof.Machine.execOutCfgWrite lane reg value acc s
  | .tileReady surf pass tile => Sys2Proof.Machine.execTileReady surf pass tile s
  | .tileResolve surf pass tile => Sys2Proof.Machine.execTileResolve surf pass tile s
  | .tileAnnounceReserved surf pass tile => Sys2Proof.Machine.execTileAnnounceReserved surf pass tile s
  | .tileReadData tag data code => Sys2Proof.Machine.execTileReadData tag data code s
  | .tileRetry tag => Sys2Proof.Machine.execTileRetry tag s
  | .tbCfgWrite binding reg value acc => Sys2Proof.Machine.execTbCfgWrite binding reg value acc s
  | .hello frame => Sys2Proof.Machine.execHello frame s
  | .heartbeat frame => Sys2Proof.Machine.execHeartbeat frame s
  | .offer frame mem => Sys2Proof.Machine.execOffer frame mem s
  | .accept frame => Sys2Proof.Machine.execAccept frame s
  | .refuse frame => Sys2Proof.Machine.execRefuse frame s
  | .snap frame => Sys2Proof.Machine.execSnap frame s
  | .snapDone frame => Sys2Proof.Machine.execSnapDone frame s
  | .digest frame => Sys2Proof.Machine.execDigest frame s
  | .commit frame => Sys2Proof.Machine.execCommit frame s
  | .commitAck frame => Sys2Proof.Machine.execCommitAck frame s
  | .yieldGroup frame => Sys2Proof.Machine.execYieldGroup frame s
  | .drabinAbort frame => Sys2Proof.Machine.execDrabinAbort frame s
  | .abortAck frame => Sys2Proof.Machine.execAbortAck frame s
  | .heartbeatPeriod => Sys2Proof.Machine.execHeartbeatPeriod s
  | .hbMissExpiry member => Sys2Proof.Machine.execHbMissExpiry member s
  | .tokenBucketRefill => Sys2Proof.Machine.execTokenBucketRefill s
  | .keyWrite slot word value acc => Sys2Proof.Machine.execKeyWrite slot word value acc s
  | .partCfgWrite member value acc => Sys2Proof.Machine.execPartCfgWrite member value acc s
  | .migStart acc => Sys2Proof.Machine.execMigStart acc s
  | .migAbort acc => Sys2Proof.Machine.execMigAbort acc s
  | .acptEnClear value acc => Sys2Proof.Machine.execAcptEnClear value acc s
  | .migSnapshot => Sys2Proof.Machine.execMigSnapshot s
  | .evtClr page value acc => Sys2Proof.Machine.execEvtClr page value acc s
  | .evtSet page value acc => Sys2Proof.Machine.execEvtSet page value acc s
  | .calEnt0Read pack => Sys2Proof.Machine.execCalEnt0Read pack s
  | .timeLoRead => Sys2Proof.Machine.execTimeLoRead s
  | .limitWrite value acc => Sys2Proof.Machine.execLimitWrite value acc s
  | .registerWrite addr value acc => Sys2Proof.Machine.execRegisterWrite addr value acc s
  | .extest => Sys2Proof.Machine.execExtest s
  | .samplePreload => Sys2Proof.Machine.execSamplePreload s
  | .idcode => Sys2Proof.Machine.execIdcode s
  | .cfgacc addr data write => Sys2Proof.Machine.execCfgacc addr data write s
  | .tracectl value => Sys2Proof.Machine.execTracectl value s
  | .bypass code => Sys2Proof.Machine.execBypass code s
  | .sheepdogRestartComplete => Sys2Proof.Machine.execSheepdogRestartComplete s
  | .pllLock => Sys2Proof.Machine.execPllLock s
  | .peerFrameDropped frame => Sys2Proof.Machine.execPeerFrameDropped frame s

end Sys2Proof.Machine
end

