-- ==== Sys2Proof/Safety.lean ====
section
/-! DEFINITION. What counts as a sound state, and the terms that claims use: byte memories in canonical form, interrupt lines at
the levels that R401 gives them, and register accesses that are carried out. -/

namespace Sys2Proof.Machine

/-- Host memory and every scratchpad are in canonical form. -/
def State.memOk (s : State) : Bool := Memory.wf s.host && s.cores.all fun e => Memory.wf e.2.spd

/-- The interrupt lines stand at the levels that R401 gives them. -/
def State.irqOk (s : State) : Prop := s.irq = s.irqLevels

/-- The engine runs and a write of the register at `a` is carried out (R11, R373, R374, R411). -/
def State.grants (s : State) (a : Nat) (acc : Acc) : Bool :=
  s.running && s.pageActs (pageKind a) && pageReg (pageKind a) (a % 0x1000) && writeAllowed a acc

/-- The state in which an allowed register access has been answered with DONE and no data, under its identifier (R371, R374). -/
def State.answered (s : State) (acc : Acc) : State := (s.answers acc).respond 0 0

end Sys2Proof.Machine
end

