-- ==== Sys2Proof/WellFormed.lean ====
section
/-! DEFINITION. Well-formed commands: every operand within the range that the spec gives the thing it names. The
meanings are total, so an ill-formed command is no fault; it names nothing and changes nothing beyond an answer. -/

namespace Sys2Proof

/-- A register address: a word of the 1 MiB space (R371). -/
def addrOk (a : Nat) : Bool := decide (a < 0x100000) && decide (a % 4 = 0)

/-- A power domain of the largest configuration (R399). -/
def domainOk : Domain → Bool
  | .engine => true
  | .pack p => decide (p < 8)
  | .core c => decide (c < 32)

/-- A Drabin frame within the frame sizes (R351, R398): 16 header bytes, a body and 16 tag bytes. -/
def peerOk (f : PeerFrame) : Bool := decide (f.tag.length = 16) && decide (f.body.length ≤ 9184)

/-- Failing columns of the bring-up test: core, array, column (R410). -/
def failsOk (fs : List (Nat × Nat × Nat × Bool)) : Bool :=
  fs.all fun f => decide (f.1 < 32) && decide (f.2.1 < 4) && decide (f.2.2.1 < 32)

/-- Is the command well formed? -/
def Instr.wf (i : Instr) : Bool :=
  match i with
  | .nop core => decide (core < 32)
  | .endSlot core => decide (core < 32)
  | .loadw core => decide (core < 32)
  | .matmul core => decide (core < 32)
  | .matvec core => decide (core < 32)
  | .recur core => decide (core < 32)
  | .scan core => decide (core < 32)
  | .lconv core => decide (core < 32)
  | .gate core => decide (core < 32)
  | .func core => decide (core < 32)
  | .reduceSeq core => decide (core < 32)
  | .convert core => decide (core < 32)
  | .move core => decide (core < 32)
  | .qpush core => decide (core < 32)
  | .qpop core => decide (core < 32)
  | .waitCnt core => decide (core < 32)
  | .signalCnt core => decide (core < 32)
  | .syncTimeout core => decide (core < 32)
  | .branch core => decide (core < 32)
  | .summary core => decide (core < 32)
  | .rtvArm core rtv _ _ => decide (core < 32) && decide (rtv < 8)
  | .rtvDisarm core rtv _ _ => decide (core < 32) && decide (rtv < 8)
  | .rtvStop core rtv _ _ => decide (core < 32) && decide (rtv < 8)
  | .rtvRunStart core rtv => decide (core < 32) && decide (rtv < 8)
  | .rtvEnd core rtv => decide (core < 32) && decide (rtv < 8)
  | .rd core rtv => decide (core < 32) && decide (rtv < 8)
  | .wr core rtv => decide (core < 32) && decide (rtv < 8)
  | .rtvList core rtv => decide (core < 32) && decide (rtv < 8)
  | .seta core rtv => decide (core < 32) && decide (rtv < 8)
  | .adda core rtv => decide (core < 32) && decide (rtv < 8)
  | .seto core rtv => decide (core < 32) && decide (rtv < 8)
  | .addo core rtv => decide (core < 32) && decide (rtv < 8)
  | .setl core rtv => decide (core < 32) && decide (rtv < 8)
  | .rtvLoop core rtv => decide (core < 32) && decide (rtv < 8)
  | .nextp core rtv => decide (core < 32) && decide (rtv < 8)
  | .waitc core rtv => decide (core < 32) && decide (rtv < 8)
  | .sig core rtv => decide (core < 32) && decide (rtv < 8)
  | .rtvFence core rtv => decide (core < 32) && decide (rtv < 8)
  | .jmp core rtv => decide (core < 32) && decide (rtv < 8)
  | .rtvLineLanded core rtv => decide (core < 32) && decide (rtv < 8)
  | .dbLo ring _ _ => decide (ring < 4096)
  | .dbHi ring _ _ => decide (ring < 4096)
  | .create ring _ _ => decide (ring < 4096)
  | .destroy ring _ => decide (ring < 4096)
  | .descriptorFetch => true
  | .descriptorAccept ring _ => decide (ring < 4096)
  | .descNop ring => decide (ring < 4096)
  | .job ring => decide (ring < 4096)
  | .reserve ring _ => decide (ring < 4096)
  | .arm ring _ => decide (ring < 4096)
  | .armAfterScan ring _ => decide (ring < 4096)
  | .release ring => decide (ring < 4096)
  | .groupReleaseEffect gid => decide (gid < 4096)
  | .query ring _ => decide (ring < 4096)
  | .reclaim ring => decide (ring < 4096)
  | .fenceInit ring => decide (ring < 4096)
  | .stop ring => decide (ring < 4096)
  | .abort ring => decide (ring < 4096)
  | .resume ring => decide (ring < 4096)
  | .quiesce ring => decide (ring < 4096)
  | .park ring => decide (ring < 4096)
  | .unpark ring => decide (ring < 4096)
  | .waitTimeout ring => decide (ring < 4096)
  | .jobStart core => decide (core < 32)
  | .completion ring => decide (ring < 4096)
  | .objectRecord obj _ => decide (obj < 8192)
  | .tbTick line => decide (line < 8)
  | .tbNetStrobe _ => true
  | .freeRunAdvance tb => decide (tb < 8)
  | .tbStall tb => decide (tb < 8)
  | .tbaseCtrlWrite tb _ _ _ => decide (tb < 8)
  | .valLoRead tb => decide (tb < 8)
  | .markTHi _ _ => true
  | .frameFire pack => decide (pack < 8)
  | .prefireFire pack => decide (pack < 8)
  | .traceLostRecord => true
  | .preemptLstTimer core => decide (core < 32)
  | .preemptionPoint core => decide (core.unit < 32)
  | .jobResume ring => decide (ring.unit < 4096)
  | .frameStart pack => decide (pack < 8)
  | .endCollection gid => decide (gid < 4096)
  | .frameCommit gid => decide (gid < 4096)
  | .frameDeadline gid => decide (gid < 4096)
  | .budgetRestore pack => decide (pack < 8)
  | .standbyMove gid => decide (gid < 4096)
  | .governorWindow _ => true
  | .uncorrectableFault core _ _ _ => decide (core < 32)
  | .stateBankRewrite core index => decide (core < 32) && decide (index < 256)
  | .correctedWriteback core => decide (core.core < 32)
  | .spdScrub core line _ => decide (core < 32) && decide (line < 65536)
  | .acmScrub core array row _ => decide (core < 32) && decide (array < 4) && decide (row < 512)
  | .weightReadback core array upsets => decide (core < 32) && decide (array < 4) && upsets.all fun u => decide (u.1 < 1024)
  | .knownAnswerTest core fails => decide (core < 32) && fails.all fun f => decide (f.1 < 4) && decide (f.2 < 32)
  | .faultWindowEnd => true
  | .controlRetry core _ _ => decide (core < 32)
  | .lockstepMismatch => true
  | .calEntryRewrite pack entry => decide (pack < 8) && decide (entry < 512)
  | .agingSample core _ => decide (core < 32)
  | .kennelEnable _ _ => true
  | .kennelScan _ => true
  | .format _ _ _ => true
  | .freeForeign _ _ => true
  | .kennelSnapshot stream => decide (stream < 4096)
  | .kennelRecordWrite _ => true
  | .kennelHeaderAck _ _ => true
  | .pfNotice => true
  | .pfFinalRecords _ => true
  | .pfDone => true
  | .porstN => true
  | .engRstN => true
  | .trstN => true
  | .resetRelease _ _ => true
  | .enterEarly fails => failsOk fails
  | .powerDomainAck dom _ => domainOk dom
  | .fwLoad _ _ => true
  | .fwVerifyComplete _ => true
  | .handover fails => failsOk fails
  | .handleWord0 core index _ _ => decide (core < 32) && decide (index < 256)
  | .handleWord1 core index _ _ => decide (core < 32) && decide (index < 256)
  | .collarWord0 core index _ _ => decide (core < 32) && decide (index < 16)
  | .collarWord1 core index _ _ => decide (core < 32) && decide (index < 16)
  | .tableCommit core => decide (core < 32)
  | .segPwrWrite core _ _ => decide (core < 32)
  | .segmentUp core => decide (core < 32)
  | .fxLoad core _ _ => decide (core < 32)
  | .fxLoadComplete core => decide (core < 32)
  | .histClr core _ _ => decide (core < 32)
  | .rmcInvCnt pack _ _ => decide (pack < 8)
  | .rmcInvDone pack => decide (pack < 8)
  | .remoteWriteArrival source dest => decide (source < 32) && decide (dest < 32)
  | .remoteWriteAck core => decide (core < 32)
  | .remoteRead core => decide (core < 32)
  | .hqWrite queue _ _ => decide (queue < 64)
  | .chArm channel _ _ => decide (channel < 8)
  | .dmaTransferStart => true
  | .dmaBurst _ => true
  | .chAbortActive channel _ _ => decide (channel < 8)
  | .chAbortShadow channel _ _ => decide (channel < 8)
  | .memReadData channel tag _ => decide (channel < 8) && decide (tag < 512)
  | .memWriteCompletion channel tag _ => decide (channel < 8) && decide (tag < 512)
  | .memTimeout channel tag => decide (channel < 8) && decide (tag < 512)
  | .latClr _ _ => true
  | .ingressWord lane _ _ => decide (lane < 16)
  | .storedWordLand lane => decide (lane < 16)
  | .egressWord lane => decide (lane < 16)
  | .inCfgWrite lane _ _ _ => decide (lane < 16)
  | .outCfgWrite lane _ _ _ => decide (lane < 16)
  | .tileReady surf pass tile => decide (surf < 16) && decide (pass < 65536) && decide (tile < 4096)
  | .tileResolve surf pass tile => decide (surf < 16) && decide (pass < 65536) && decide (tile < 4096)
  | .tileAnnounceReserved surf pass tile => decide (surf < 16) && decide (pass < 65536) && decide (tile < 4096)
  | .tileReadData tag _ _ => decide (tag < 64)
  | .tileRetry tag => decide (tag < 64)
  | .tbCfgWrite binding _ _ _ => decide (binding < 16)
  | .hello frame => peerOk frame
  | .heartbeat frame => peerOk frame
  | .offer frame _ => peerOk frame
  | .accept frame => peerOk frame
  | .refuse frame => peerOk frame
  | .snap frame => peerOk frame
  | .snapDone frame => peerOk frame
  | .digest frame => peerOk frame
  | .commit frame => peerOk frame
  | .commitAck frame => peerOk frame
  | .yieldGroup frame => peerOk frame
  | .drabinAbort frame => peerOk frame
  | .abortAck frame => peerOk frame
  | .heartbeatPeriod => true
  | .hbMissExpiry member => decide (member < 16)
  | .tokenBucketRefill => true
  | .keyWrite slot word _ _ => decide (slot < 16) && decide (word < 8)
  | .partCfgWrite member _ _ => decide (member < 16)
  | .migStart _ => true
  | .migAbort _ => true
  | .acptEnClear _ _ => true
  | .migSnapshot => true
  | .evtClr page _ _ => decide (page < 60)
  | .evtSet page _ _ => decide (page < 60)
  | .calEnt0Read pack => decide (pack < 8)
  | .timeLoRead => true
  | .limitWrite _ _ => true
  | .registerWrite addr _ _ => addrOk addr
  | .extest => true
  | .samplePreload => true
  | .idcode => true
  | .cfgacc addr _ _ => addrOk addr
  | .tracectl _ => true
  | .bypass _ => true
  | .sheepdogRestartComplete => true
  | .pllLock => true
  | .peerFrameDropped _ => true

end Sys2Proof
end

