-- ==== Sys2Proof/Certificates/Slice0/Obligations.lean ====
section
/-! DEFINITION. Statements for the provers. An exact next state is written `u.settle`: the state `u` with the interrupt
lines brought to the levels of R401 (and the messages of R402 sent); every field that `u` does not rewrite is the old one,
so such an equation also says what the command leaves unchanged. -/

open Sys2Proof Sys2Proof.Machine

/-! ### Words used in the statements -/

/-- The address that a register-writing command writes, with its initiator. -/
def Sys2Proof.Instr.writes : Instr → Option (Nat × Acc)
  | .rtvArm c r _ acc => some (rtvCtrlAddr c r, acc)
  | .rtvDisarm c r _ acc => some (rtvCtrlAddr c r, acc)
  | .rtvStop c r _ acc => some (rtvCtrlAddr c r, acc)
  | .dbLo r _ acc => some (dbAddr r 0, acc)
  | .dbHi r _ acc => some (dbAddr r 4, acc)
  | .create _ acc _ => some (0x1088, acc)
  | .destroy _ acc => some (0x1088, acc)
  | .tbaseCtrlWrite t reg _ acc => some (tbAddr t reg, acc)
  | .markTHi _ acc => some (0x1048, acc)
  | .kennelEnable _ acc => some (0x4905C, acc)
  | .format _ acc _ => some (0x4905C, acc)
  | .freeForeign _ acc => some (0x4905C, acc)
  | .fwLoad _ acc => some (0x8C, acc)
  | .handleWord0 c i _ acc => some (if i < 256 then coreAddr c (0x100 + 8 * i) else noAddr, acc)
  | .handleWord1 c i _ acc => some (if i < 256 then coreAddr c (0x104 + 8 * i) else noAddr, acc)
  | .collarWord0 c i _ acc => some (if i < 16 then coreAddr c (0x900 + 8 * i) else noAddr, acc)
  | .collarWord1 c i _ acc => some (if i < 16 then coreAddr c (0x904 + 8 * i) else noAddr, acc)
  | .segPwrWrite c _ acc => some (coreAddr c 0x9C, acc)
  | .fxLoad c _ acc => some (coreAddr c 0x58, acc)
  | .histClr c _ acc => some (coreAddr c 0x84, acc)
  | .rmcInvCnt p _ acc => some (packAddr p 0x44, acc)
  | .hqWrite q _ acc => some (if q < 64 then 0x300 + 4 * q else noAddr, acc)
  | .chArm c _ acc => some (chAddr c 0x14, acc)
  | .chAbortActive c _ acc => some (chAddr c 0x34, acc)
  | .chAbortShadow c _ acc => some (chAddr c 0x34, acc)
  | .latClr _ acc => some (0x3048, acc)
  | .inCfgWrite l reg _ acc => some (bindAddr 0x5100 l reg, acc)
  | .outCfgWrite l reg _ acc => some (bindAddr 0x5200 l reg, acc)
  | .tbCfgWrite b reg _ acc => some (tileAddr b reg, acc)
  | .keyWrite k w _ acc => some (if k < 16 ∧ w < 8 then 0x6200 + 32 * k + 4 * w else noAddr, acc)
  | .partCfgWrite m _ acc => some (if m < 16 then 0x6100 + 16 * m else noAddr, acc)
  | .migStart acc => some (0x640C, acc)
  | .migAbort acc => some (0x640C, acc)
  | .acptEnClear _ acc => some (0x6418, acc)
  | .evtClr p _ acc => some (regAddr (pageBase p + 0x28), acc)
  | .evtSet p _ acc => some (regAddr (pageBase p + 0x2C), acc)
  | .limitWrite _ acc => some (0x2044, acc)
  | .registerWrite a _ acc => some (regAddr a, acc)
  | _ => none

/-! ### The step, the queue and the lines -/

/-- A step takes the command at the front of the queue and runs it on the state with the rest of the queue. -/
def Obligations.StepRunsTheFrontCommand : Prop :=
  ∀ (c : Instr) (rest : List Instr) (s : State), s.pending = c :: rest → step s = exec c { s with pending := rest }

/-- On an empty queue one FCLK passes: the counter of FCLK, the trace port, the peer port, the tile port and the telemetry of
best-effort work move on, a sample output of the power unit falls, and the waits of the ring heads are evaluated at the new edge; in reset
and while the PLL is not locked nothing moves (the model's choice, log entry 11).

No command ends in a fault or a refusal: every command answers a next state in every state. -/
def Obligations.EveryStepAnswersANextState : Prop :=
  (∀ s : State, s.pending = [] →
      (s.running = false ∨ s.glb.pllLock = false → step s = .next s) ∧
      (s.running = true → s.glb.pllLock = true → step s = .next (State.evalWaits { s with
        fclk := s.fclk + 1
        power := { s.power with ageOut := none }
        trace := if (s.fclk + 1) % 32 = 0 then s.trace.drop 1 else s.trace
        peer := s.peer.sendOne
        tport := s.tport.sendOne
        tele := { s.tele with beCclk := s.tele.beCclk + 2 * s.jobCores } }))) ∧
  (∀ (c : Instr) (s : State), ∃ t, exec c s = .next t)

/-- After every command the interrupt lines stand at the levels that R401 gives them, whatever the state before; a step on an
empty queue keeps them so. -/
def Obligations.EveryStepLeavesTheLinesAtTheirLevels : Prop :=
  (∀ (c : Instr) (s t : State), exec c s = .next t → t.irqOk) ∧
  (∀ s t : State, s.irqOk → step s = .next t → t.irqOk)

/-- What settling the lines does (R401, R402): the lines take their levels; no field changes but the lines and host memory; and a
byte of host memory that lies in no message word of a line that rises with MSI_HI.EN = 1 keeps its value.

A line that rises with MSI_HI.EN = 1, alone among the rising lines to have a message, writes MSI_DATA to its address (R402). -/
def Obligations.SettlingTheLinesSendsMessages : Prop :=
  (∀ s : State,
      s.settle = { s with irq := s.irqLevels, host := s.settle.host, hostOpen := s.settle.hostOpen } ∧
      ∀ a : Nat,
        (∀ l < 16, s.irqLevels.getLsbD l = true → s.irq.getLsbD l = false →
          (Sparse.get (0 : Word) s.glb.msiHi l).getLsbD 31 = true →
          ∀ i < 4, hostAddr ((Sparse.get (0 : Word) s.glb.msiLo l).toNat + wbits (Sparse.get (0 : Word) s.glb.msiHi l) 15 0 * 2 ^ 32 + i)
            ≠ hostAddr a) →
        s.settle.hostByte a = s.hostByte a) ∧
  (∀ (s : State) (l : Nat), Memory.wf s.host = true → l < 16 →
      s.irqLevels.getLsbD l = true → s.irq.getLsbD l = false → (Sparse.get (0 : Word) s.glb.msiHi l).getLsbD 31 = true →
      (∀ m < 16, m ≠ l → s.irqLevels.getLsbD m = true → s.irq.getLsbD m = false →
        (Sparse.get (0 : Word) s.glb.msiHi m).getLsbD 31 = false) →
      s.settle.hostNat ((Sparse.get (0 : Word) s.glb.msiLo l).toNat + wbits (Sparse.get (0 : Word) s.glb.msiHi l) 15 0 * 2 ^ 32) 4
        = (Sparse.get (0 : Word) s.glb.msiData l).toNat)

/-! ### Reset -/

/-- What reset leaves (R403, R406, R409, R423, R425, R430, R434): the ROM stage, no event, all lines low, the queue empty, and the
reset values that the register map states. -/
def Obligations.ResetValues : Prop :=
  let s := State.reset
  s.irqOk ∧ s.memOk = true ∧ s.running = true ∧ s.boot.stage = .rom ∧ s.irq = 0 ∧ s.pending = []
    ∧ (∀ p, (s.hdr p).raw = 0 ∧ (s.hdr p).mask = 0xFFFFFFFF#32 ∧ (s.hdr p).first = 0)
    ∧ (∀ c, (s.core c).segPwr = 1 ∧ (s.core c).nan.ctrl = 1 ∧ (s.core c).inService = true ∧ (s.core c).ageWarn = s.fuse.ageWarn
        ∧ (s.core c).csq.run = .idle)
    ∧ s.power.limit = 0xEA60#32 ∧ s.mport.latBound = 0x800 ∧ s.mport.timeout = 0x100 ∧ s.tport.retry = 0x40
    ∧ s.peer.hb = 0x000400B7#32 ∧ s.peer.rate = 0x00400200#32 ∧ s.peer.tskew = 0x2710#32 ∧ s.sd.fltLim = 4
    ∧ s.kennel.dirtyLim = 0xFFFFFFFF#32 ∧ s.kennel.wearLim = 100000 ∧ s.kennel.rotDelta = 1024
    ∧ (∀ r, (s.ring r).st = .absent) ∧ (∀ f, s.fence? f = none) ∧ (∀ g, s.group? g = none)
    ∧ (∀ a, s.host.byte a = 0) ∧ s.traceEn = 0

/-! ### Access to registers -/

/-- A register-writing command that is not carried out changes nothing beyond its answer: in reset nothing at all; a reserved
word or a page that does not act answers DONE; a refused write answers DENIED, raises CFG_DENIED and fills CFG_ERR (R11, R373,
R374, R403, R411).

What a refusal records (R374, R403): the answer DENIED with zero data, CFG_DENIED, FIRST_ERR of GLB when it was free, and
CFG_ERR with CFG_ERR_ADDR when they were free. -/
def Obligations.WritesThatDoNotActAreAnswered : Prop :=
  (∀ (c : Instr) (a : Nat) (acc : Acc) (s : State), c.writes = some (a, acc) →
      (s.running = false → exec c s = .next s.settle) ∧
      (s.running = true → (s.pageActs (pageKind a) = false ∨
          (pageReg (pageKind a) (a % 0x1000) = false ∧ pageKind a ≠ .debug ∧ pageKind a ≠ .fuse)) →
        exec c s = .next (s.answered acc).settle) ∧
      (s.running = true → s.pageActs (pageKind a) = true → pageReg (pageKind a) (a % 0x1000) = true → writeAllowed a acc = false →
        exec c s = .next ((s.answers acc).deny a true acc).settle)) ∧
  (∀ (s : State) (a : Nat) (w : Bool) (acc : Acc),
      (s.deny a w acc).cfgResp = (1, 0) ∧
      ((s.deny a w acc).hdr 0).raw = (s.hdr 0).raw ||| 1#32 ∧
      ((s.hdr 0).first.getLsbD 0 = true → ((s.deny a w acc).hdr 0).first = (s.hdr 0).first) ∧
      ((s.hdr 0).first.getLsbD 0 = false → ((s.deny a w acc).hdr 0).first = word (1 + (s.fclk / 1024 % 2 ^ 26) * 64)) ∧
      (s.glb.cfgErr.getLsbD 0 = true → (s.deny a w acc).glb = s.glb) ∧
      (s.glb.cfgErr.getLsbD 0 = false → (s.deny a w acc).glb = { s.glb with
        cfgErr := word (1 + 2 * b2n w + 4 * b2n acc.priv + 8 * b2n acc.sec + acc.ctx.toNat * 65536)
        cfgErrAddr := word (a / 4 * 4) }) ∧
      (∀ p, p ≠ 0 → (s.deny a w acc).hdr p = s.hdr p) ∧
      s.deny a w acc = { s with glb := (s.deny a w acc).glb, hdrs := (s.deny a w acc).hdrs, cfgResp := (s.deny a w acc).cfgResp })

/-- A row that names one register does what REGISTER_WRITE does at that register's address. -/
def Obligations.NamedRegisterRowsAreWritesOfTheirRegister : Prop :=
  ∀ (v : Word) (acc : Acc) (s : State),
    exec (.limitWrite v acc) s = exec (.registerWrite 0x2044 v acc) s ∧
    exec (.latClr v acc) s = exec (.registerWrite 0x3048 v acc) s ∧
    exec (.fwLoad v acc) s = exec (.registerWrite 0x8C v acc) s ∧
    exec (.markTHi v acc) s = exec (.registerWrite 0x1048 v acc) s ∧
    exec (.kennelEnable v acc) s = exec (.registerWrite 0x4905C v acc) s ∧
    exec (.freeForeign v acc) s = exec (.registerWrite 0x4905C v acc) s ∧
    exec (.migStart acc) s = exec (.registerWrite 0x640C 1 acc) s ∧
    exec (.migAbort acc) s = exec (.registerWrite 0x640C 2 acc) s ∧
    exec (.acptEnClear v acc) s = exec (.registerWrite 0x6418 v acc) s ∧
    (∀ r, r < 4096 → exec (.create r acc .ok) s = exec (.registerWrite 0x1088 (word (r + 4096)) acc) s ∧
      exec (.destroy r acc) s = exec (.registerWrite 0x1088 (word (r + 8192)) acc) s ∧
      exec (.dbLo r v acc) s = exec (.registerWrite (0x40000 + 8 * r) v acc) s ∧
      exec (.dbHi r v acc) s = exec (.registerWrite (0x40004 + 8 * r) v acc) s) ∧
    (∀ q, q < 64 → exec (.hqWrite q v acc) s = exec (.registerWrite (0x300 + 4 * q) v acc) s) ∧
    (∀ ch, ch < 8 → exec (.chArm ch v acc) s = exec (.registerWrite (0x7114 + 0x40 * ch) v acc) s ∧
      exec (.chAbortActive ch v acc) s = exec (.registerWrite (0x7134 + 0x40 * ch) v acc) s ∧
      exec (.chAbortShadow ch v acc) s = exec (.registerWrite (0x7134 + 0x40 * ch) v acc) s) ∧
    (∀ l, l < 16 → exec (.inCfgWrite l .cfg v acc) s = exec (.registerWrite (0x5100 + 16 * l) v acc) s ∧
      exec (.outCfgWrite l .store v acc) s = exec (.registerWrite (0x5208 + 16 * l) v acc) s ∧
      exec (.tbCfgWrite l .geom v acc) s = exec (.registerWrite (0x4104 + 16 * l) v acc) s ∧
      exec (.partCfgWrite l v acc) s = exec (.registerWrite (0x6100 + 16 * l) v acc) s) ∧
    (∀ k w, k < 16 → w < 8 → exec (.keyWrite k w v acc) s = exec (.registerWrite (0x6200 + 32 * k + 4 * w) v acc) s)

/-! ### Events (R425, R426) -/

/-- EVT_CLR clears the events written with 1 and EVT_SET sets them, reserved bits aside; neither changes FIRST_ERR, the mask or
another page. KN_DIRTY of the KENNEL page is raised again while it still holds (R345, R425).

An error event fills FIRST_ERR of its page when VALID is 0 and leaves it alone otherwise; an event that is not an error
event never touches it (R424, R426). -/
def Obligations.EventsAreWrittenClearedAndRecorded : Prop :=
  (∀ (p : Nat) (v : Word) (acc : Acc) (s : State), p < 59 → s.running = true →
      s.pageActs (pageKind (pageBase p)) = true → acc.priv = true →
      exec (.evtClr p v acc) s = .next (let t := (s.answered acc).updHdr p fun h => { h with raw := h.raw &&& ~~~(v &&& pageEvMask p) }
                                        if p = 57 then t.checkDirty else t).settle ∧
      exec (.evtSet p v acc) s = .next ((s.answered acc).updHdr p fun h => { h with raw := h.raw ||| (v &&& pageEvMask p) }).settle) ∧
  (∀ (s : State) (p b : Nat), b < 32 →
      (((s.raise p b).hdr p).raw = (s.hdr p).raw ||| BitVec.ofNat 32 (2 ^ b)) ∧
      (((s.raise p b).hdr p).mask = (s.hdr p).mask) ∧
      (isErrEvent p b = true → (s.hdr p).first.getLsbD 0 = false →
        ((s.raise p b).hdr p).first = word (1 + b * 2 + (s.fclk / 1024 % 2 ^ 26) * 64)) ∧
      ((s.hdr p).first.getLsbD 0 = true ∨ isErrEvent p b = false → ((s.raise p b).hdr p).first = (s.hdr p).first) ∧
      (∀ q, q ≠ p → (s.raise p b).hdr q = (s.hdr q)) ∧
      s.raise p b = { s with hdrs := (s.raise p b).hdrs })

/-! ### Reads that latch, and LIMIT -/

/-- The mask, the records of GLB, SHEEPDOG and the fault-limit register take what REGISTER_WRITE gives them: EVT_MASK whole,
VALID cleared by writing 1, FLT_LIM its eight bits (R313, R403, R424, R425).

LIMIT takes its 16 bits; a value above 60,000 is ignored (R434). -/
def Obligations.RegisterWritesReachTheirFields : Prop :=
  (∀ (v : Word) (acc : Acc) (s : State), s.running = true → acc.priv = true →
      exec (.registerWrite 0x24 v acc) s = .next ((s.answered acc).updHdr 0 fun h => { h with mask := v }).settle ∧
      exec (.registerWrite 0x30 v acc) s
        = .next ((s.answered acc).updHdr 0 fun h => { h with first := if v.getLsbD 0 then h.first &&& ~~~1#32 else h.first }).settle ∧
      exec (.registerWrite 0x70 v acc) s = .next ({ (s.answered acc) with
        glb := { s.glb with cfgErr := if v.getLsbD 0 then s.glb.cfgErr &&& ~~~1#32 else s.glb.cfgErr } }).settle ∧
      (s.early = true → exec (.registerWrite 0x10B4 v acc) s = .next ({ (s.answered acc) with sd := { s.sd with fltLim := wbits v 7 0 } }).settle) ∧
      (s.early = true → exec (.registerWrite 0x10AC v acc) s = .next ({ (s.answered acc) with
        sd := { s.sd with dbRej := if v.getLsbD 0 then s.sd.dbRej &&& ~~~1#32 else s.sd.dbRej } }).settle)) ∧
  (∀ (v : Word) (acc : Acc) (s : State), s.grants 0x2044 acc = true →
      (wbits v 15 0 ≤ 60000 → exec (.limitWrite v acc) s
        = .next ({ (s.answered acc) with power := { s.power with limit := v &&& 0xFFFF#32 } }).settle) ∧
      (60000 < wbits v 15 0 → exec (.limitWrite v acc) s = .next (s.answered acc).settle))

/-! ### The test access port (R404) -/

/-- A read of VAL_LO latches the high half into VAL_HI, a read of TIME_LO latches the telemetry page, a read of CAL_ENT0 latches the
selected entry; each answers with the low word, and a page that does not act answers zero (R237, R435, R436). The rows carry no identifier: the model
answers them under identifier 0 (the model's choice, log entry 16).

Each instruction of the port selects its code and captures its data register: IDCODE the device code; EXTEST and
SAMPLE_PRELOAD a boundary register whose content is open (a free value); BYPASS, and every code without an instruction, one zero bit;
TRACECTL writes TRACE_EN and captures it; CFGACC performs one config access with the identity of R404 and captures data, code
and DONE. -/
def Obligations.ReadsThatLatchAndTheTestPort : Prop :=
  (∀ s : State, s.running = true →
      let s' : State := { s with cfgRid := 0 }
      (∀ t, t < 8 → s.early = true →
        exec (.valLoRead t) s = .next ((s'.updTb t fun x => { x with valHi := word (x.value.toNat / 2 ^ 32) }).respond 0
          (word (s.tb t).value.toNat)).settle) ∧
      (s.early = true →
        exec .timeLoRead s = .next (({ s' with tele := { s.tele with latch := s.teleNow } }).respond 0 (word (s.fclk % 2 ^ 32))).settle) ∧
      (∀ p, p < 8 → s.early = true → s.packOn p = true →
        (∀ e, (s.pack p).entries.find? (fun x => x.1 == (s.pack p).calSel) = some e →
          exec (.calEnt0Read p) s = .next ((s'.updPack p fun x => { x with
            calLatch := tab 8 fun w => word (fieldAt (s.calBytes e.2) (4 * w) 4)
            calXstat := word (b2n ((s.group? e.2.gid).any (·.shadow)) + 2 * b2n e.2.suspended) }).respond 0
              (word (fieldAt (s.calBytes e.2) 0 4))).settle) ∧
        ((s.pack p).entries.find? (fun x => x.1 == (s.pack p).calSel) = none →
          exec (.calEnt0Read p) s = .next ((s'.updPack p fun x => { x with
            calLatch := List.replicate 8 0, calXstat := 0 }).respond 0 0).settle)) ∧
      (s.early = false → exec .timeLoRead s = .next (s'.respond 0 0).settle)) ∧
  (∀ s : State,
      exec .idcode s = .next ({ s with tap := ⟨0x02, s.conf.idcode.zeroExtend 64⟩ }).settle ∧
      (∃ w : Word, exec .extest s = .next ({ s with fresh := s.fresh + 1, tap := ⟨0x00, w.zeroExtend 64⟩ }).settle) ∧
      (∃ w : Word, exec .samplePreload s = .next ({ s with fresh := s.fresh + 1, tap := ⟨0x01, w.zeroExtend 64⟩ }).settle) ∧
      (∀ code : BitVec 8, code ∉ [0x00#8, 0x01#8, 0x02#8, 0x10#8, 0x11#8] →
        exec (.bypass code) s = .next ({ s with tap := ⟨code, 0⟩ }).settle) ∧
      (∀ v : Word, s.running = true → exec (.tracectl v) s = .next ({ s with
        traceEn := v.truncate 16 &&& 0x01FE#16, tap := ⟨0x11, (v.truncate 16 &&& 0x01FE#16).zeroExtend 64⟩ }).settle) ∧
      (∀ (a : Nat) (v : Word), s.running = true → ∃ t,
        exec (.cfgacc a v true) s = .next t ∧
        ∃ u, exec (.registerWrite a v ⟨s.fuse.debugEn, false, 0, 0⟩) s = .next u ∧ t.cfgResp = u.cfgResp ∧ t.hdrs = u.hdrs ∧ t.glb = u.glb
          ∧ t.cores = u.cores ∧ t.tap = ⟨0x10, dword (u.cfgResp.1 * 2 ^ 32 + 2 ^ 34)⟩) ∧
      (∀ (a : Nat) (v : Word), s.running = true → ∃ t,
        exec (.cfgacc a v false) s = .next t ∧ t.tap.ir = 0x10 ∧ t.tap.dr.toNat / 2 ^ 34 % 2 = 1
          ∧ t.tap.dr.toNat % 2 ^ 32 = t.cfgResp.2.toNat ∧ t.cores = s.cores))

/-! ### Handle and Collar entries, segments, FX loads, histograms, residency map (R203 to R211, R113, R119, R131, R221) -/

/-- Word 0 of a handle or Collar entry is staged and nothing else changes; word 1 is validated with it (R206, R210): TBL_STAT takes
the first failing check of R206, and an entry whose checks pass, or which is not valid, is committed.

A commit that finds no outstanding access through a live old entry of other content takes effect at once; otherwise it is held,
and TABLE_COMMIT applies it once no access is outstanding (R207). Applying it writes the entry, tells the object entry of a new
generation, and completes the RECLAIM that waited. -/
def Obligations.TableEntriesAreStagedValidatedAndCommitted : Prop :=
  (∀ (c i : Nat) (v : Word) (acc : Acc) (s : State), c < 32 →
      (i < 256 → s.grants (0x20100 + 0x1000 * c + 8 * i) acc = true →
        exec (.handleWord0 c i v acc) s = .next ((s.answered acc).updCore c fun k => { k with hstage := k.hstage.set 0 i v }).settle) ∧
      (i < 16 → s.grants (0x20900 + 0x1000 * c + 8 * i) acc = true →
        exec (.collarWord0 c i v acc) s = .next ((s.answered acc).updCore c fun k => { k with cstage := k.cstage.set 0 i v }).settle) ∧
      (i < 256 → s.grants (0x20104 + 0x1000 * c + 8 * i) acc = true →
        let e : DWord := v ++ Sparse.get (0 : Word) (s.core c).hstage i
        let code := tblCode (s.core c) false i e
        let t := (s.answered acc).updCore c fun k => { k with tblStat := word (code * 16 + i * 256) }
        exec (.handleWord1 c i v acc) s = .next (if code = 0 then t.commitEntry c ⟨false, i, e, none⟩ else t).settle) ∧
      (i < 16 → s.grants (0x20904 + 0x1000 * c + 8 * i) acc = true →
        let e : DWord := v ++ (Sparse.get (0 : Word) (s.core c).cstage i &&& 0xFFFF0007#32)
        let code := tblCode (s.core c) true i e
        let t := (s.answered acc).updCore c fun k => { k with tblStat := word (code * 16 + i * 256 + 65536) }
        exec (.collarWord1 c i v acc) s = .next (if code = 0 then t.commitEntry c ⟨true, i, e, none⟩ else t).settle)) ∧
  (∀ (c : Nat) (s : State) (h : HeldCommit),
      ((s.core c).held = some h → s.handleInUse c h.index = false → exec (.tableCommit c) s = .next (s.applyCommit c h).settle) ∧
      ((s.core c).held = some h → s.handleInUse c h.index = true → exec (.tableCommit c) s = .next s.settle) ∧
      ((s.core c).held = none → exec (.tableCommit c) s = .next s.settle) ∧
      (let e := Sparse.get (0 : DWord) (s.core c).handles h.index
       (h.collar = false → e.getLsbD 0 = true → (e ||| 0xF2#64) ≠ (h.value ||| 0xF2#64) → s.handleInUse c h.index = true →
         s.commitEntry c h = s.updCore c fun k => { k with held := some h }) ∧
       (h.collar = true ∨ e.getLsbD 0 = false ∨ (e ||| 0xF2#64) = (h.value ||| 0xF2#64) ∨ s.handleInUse c h.index = false →
         s.commitEntry c h = s.applyCommit c h)) ∧
      (h.collar = false → h.value ≠ 0 → h.reclaim = none →
        (s.applyCommit c h).core c = { s.core c with handles := (s.core c).handles.put h.index h.value, held := none }) ∧
      (∀ d, d ≠ c → (s.applyCommit c h).core d = s.core d))

/-- SEG_PWR takes effect unless a segment that it powers down lies under a valid handle or Collar entry; SEGMENT_UP zeroes each
segment that rises and heals its lines, and touches no other byte (R203). -/
def Obligations.SegmentsFollowSegPwr : Prop :=
  ∀ (c : Nat) (v : Word) (acc : Acc) (s : State),
    (c < 32 → s.grants (0x2009C + 0x1000 * c) acc = true →
      let k := s.core c
      let off := (List.range 8).filter fun i => k.segPwr.getLsbD i && !v.getLsbD i
      let uses (e : DWord) : Bool := hValid e && (segsOf (hBase e) (hLen e)).any fun i => off.contains i
      ((k.handles.any fun e => uses e.2) || (k.collars.any fun e => uses e.2)) = true →
        exec (.segPwrWrite c v acc) s = .next ((s.answered acc).updCore c fun k => { k with segRefused := true }).settle) ∧
    (c < 32 → s.grants (0x2009C + 0x1000 * c) acc = true →
      let k := s.core c
      let off := (List.range 8).filter fun i => k.segPwr.getLsbD i && !v.getLsbD i
      let uses (e : DWord) : Bool := hValid e && (segsOf (hBase e) (hLen e)).any fun i => off.contains i
      ((k.handles.any fun e => uses e.2) || (k.collars.any fun e => uses e.2)) = false →
        exec (.segPwrWrite c v acc) s = .next ((s.answered acc).updCore c fun k =>
          { k with segPwr := v.truncate 8, segUp := k.segUp &&& v.truncate 8, segRefused := false }).settle) ∧
    (s.coreOn c = true → ∃ t, exec (.segmentUp c) s = .next t ∧ (t.core c).segUp = (s.core c).segUp ||| (s.core c).segPwr ∧
      (∀ a, (Memory.wf (s.core c).spd = true) → (t.core c).spd.byte a =
        if a / 524288 < 8 ∧ (s.core c).segPwr.getLsbD (a / 524288) = true ∧ (s.core c).segUp.getLsbD (a / 524288) = false then 0
        else (s.core c).spd.byte a) ∧
      (∀ d, d ≠ c → t.core d = s.core d))

/-- FX_LOAD starts a load, or is refused with TABLE_BUSY when the slot is pinned, a load runs, or the stage is before FULL; at its
end FX_LOAD_COMPLETE reports LOAD_HANDLE for an unusable reference, else what the image's checks say, and installs the image only
with OK (R113, R119, R412). HIST_CLR zeroes the counters of the sets it names and no other (R131). -/
def Obligations.FxLoadsAndHistograms : Prop :=
  ∀ (c : Nat) (v : Word) (acc : Acc) (s : State),
    (c < 32 → s.grants (0x20058 + 0x1000 * c) acc = true → s.full = true → (s.core c).fxJob = none →
      ((s.core c).fxSlot (wbits v 19 16)).pin = false →
      exec (.fxLoad c v acc) s
        = .next ((s.answered acc).updCore c fun k =>
          { k with fxJob := some (wbits v 19 16, wbits v 15 0, acc.ctx)
                   fxStat := word (wbits v 19 16 * 16 + wbits k.fxStat 15 8 * 256) }).settle) ∧
    (c < 32 → s.grants (0x20058 + 0x1000 * c) acc = true →
      (s.full = false ∨ (s.core c).fxJob ≠ none ∨ ((s.core c).fxSlot (wbits v 19 16)).pin = true) →
      exec (.fxLoad c v acc) s = .next (((s.answered acc).updCore c fun k =>
        { k with fxStat := word (wbits v 19 16 * 16 + 3 * 256) }).raise (24 + c) 12).settle) ∧
    (∀ slot ref ctx, (s.core c).fxJob = some (slot, ref, ctx) → ∃ t, exec (.fxLoadComplete c) s = .next t ∧
      (t.core c).fxJob = none ∧
      (let k := s.core c
       let r := loadImage k.fxContent ((k.rd (k.entry ref) 0 (min (hExt (k.entry ref)) 4160)).map BitVec.toNat) (hExt (k.entry ref))
       (k.refGood ctx.toNat ref = true → r.1 = .ok → ((t.core c).fxSlot slot).content = r.2 ∧ ((t.core c).fxSlot slot).rom = false ∧
         (t.core c).fxStat = word (slot * 16 + LoadCode.ok.code * 256)) ∧
       (k.refGood ctx.toNat ref = true → r.1 ≠ .ok → (t.core c).fx = k.fx ∧ (t.core c).fxStat = word (slot * 16 + r.1.code * 256)) ∧
       (k.refGood ctx.toNat ref = false → (t.core c).fx = k.fx ∧
         (t.core c).fxStat = word (slot * 16 + LoadCode.handle.code * 256)))) ∧
    (c < 32 → s.grants (0x20084 + 0x1000 * c) acc = true → (s.core c).hist.rising = true → ∃ t,
      exec (.histClr c v acc) s = .next t ∧
      ∀ set i, set < 4 → i < 68 → Sparse.get (0 : Word) (t.core c).hist (68 * set + i) =
        if v.getLsbD set = true then 0 else Sparse.get (0 : Word) (s.core c).hist (68 * set + i))

/-- A write of RMC_INV_CNT with a count starts an invalidation unless one runs: cached groups that lie in the range are dropped, or
refilled when locked; BUSY clears at RMC_INV_DONE once no translated request is outstanding (R221). HQ[q] takes its context and
EN unless the queue holds tokens, reservations or a waiting QPOP (R433). -/
def Obligations.ResidencyInvalidationAndQueueAssignment : Prop :=
  ∀ (p q : Nat) (v : Word) (acc : Acc) (s : State),
    (p < 8 → s.grants (0x10044 + 0x1000 * p) acc = true → (s.pack p).rmcBusy = false → wbits v 21 0 ≠ 0 →
      let hit (b : RmcBlock) : Bool :=
        decide ((s.pack p).rmcPage < 8 * (b.group + 1)) && decide (8 * b.group < (s.pack p).rmcPage + wbits v 21 0)
      exec (.rmcInvCnt p v acc) s = .next ((s.answered acc).updPack p fun y =>
        { y with rmcBusy := true
                 rmc := (y.rmc.filter fun b => !hit b || decide (0 < b.locks)).map fun b =>
                   if hit b then { b with entries := s.rmapLine b.group } else b }).settle) ∧
    (p < 8 → s.grants (0x10044 + 0x1000 * p) acc = true → ((s.pack p).rmcBusy = true ∨ wbits v 21 0 = 0) →
      exec (.rmcInvCnt p v acc) s = .next (s.answered acc).settle) ∧
    ((s.pack p).rmcBusy = true → s.rmcQuiet p = true →
      exec (.rmcInvDone p) s = .next (s.updPack p fun x => { x with rmcBusy := false }).settle) ∧
    (q < 64 → s.grants (0x300 + 4 * q) acc = true → (s.hq q).tokens = [] → (s.hq q).rsv = 0 → s.qpopWaits q = false →
      exec (.hqWrite q v acc) s
        = .next ((s.answered acc).updHq q fun x => { x with ctx := v.truncate 16, en := v.getLsbD 16 }).settle) ∧
    (q < 64 → s.grants (0x300 + 4 * q) acc = true → ((s.hq q).tokens ≠ [] ∨ (s.hq q).rsv ≠ 0 ∨ s.qpopWaits q = true) →
      exec (.hqWrite q v acc) s = .next (s.answered acc).settle)

/-- A remote write that its Collar accepts lands in the Collar's window, byte for byte, and is acknowledged; a Collar that refuses
it (disabled, peer-only, another context, beyond its extent, in this order) takes nothing of it, fills COLLAR_REJ once and raises
its event (R209 to R211).

The acknowledgement of a remote write frees its place; a refusal, still of the run that sent it, fails that run with BOUNDS at the
MOVE (R182, R193, R209). A remote read takes effect after the core's earlier remote writes to the same destination, returns its rows and
completes its MOVE (R182, R209). -/
def Obligations.RemoteWritesAndReadsAreWholeOrRefused : Prop :=
  (∀ (src dest : Nat) (s : State) (w : RemoteWrite), s.rwrites.find? (fun x => x.src == src && x.dest == dest) = some w →
      let col := Sparse.get (0 : DWord) (s.core dest).collars w.collar
      let u : State := { s with rwrites := s.rwrites.erase w }
      (collarWhy col w.ctx w.rows = none →
        ∃ t, exec (.remoteWriteArrival src dest) s = .next t ∧ t.rwrites = s.rwrites.erase w ∧
          t.racks = s.racks ++ [(⟨src, true, w.pc, w.epoch⟩ : RemoteAck)] ∧
          (∀ a, (∀ r ∈ w.rows, ∀ i < r.2.length, a ≠ 64 * hBase col + r.1 + i) →
            (t.core dest).spd.byte a = (s.core dest).spd.byte a) ∧
          (∀ off bs, w.rows = [(off, bs)] → Memory.wf (s.core dest).spd = true → ∀ i < bs.length,
            (t.core dest).spd.byte (64 * hBase col + off + i) = bs.getD i 0)) ∧
      (∀ why, collarWhy col w.ctx w.rows = some why →
        exec (.remoteWriteArrival src dest) s
          = .next ({ (u.collarRefuse dest w.collar src why w.ctx false) with racks := s.racks ++ [(⟨src, false, w.pc, w.epoch⟩ : RemoteAck)] }).settle)) ∧
  (∀ (c : Nat) (s : State),
      (∀ a : RemoteAck, s.racks.find? (fun x => x.core == c) = some a → a.ok = true →
        exec (.remoteWriteAck c) s = .next (({ s with racks := s.racks.erase a }).updCore c fun k =>
          { k with csq := { k.csq with remote := k.csq.remote - 1 } }).settle) ∧
      (∀ a : RemoteAck, s.racks.find? (fun x => x.core == c) = some a → a.ok = false → a.epoch = (s.core c).csq.epoch →
        (s.core c).csq.run ≠ .idle →
        exec (.remoteWriteAck c) s = .next ((({ s with racks := s.racks.erase a }).updCore c fun k =>
          { k with csq := { k.csq with remote := k.csq.remote - 1 } }).failRun c 0x0F (32 * a.pc) .program).settle) ∧
      (∀ q : RemoteRead, (s.core c).csq.rread = some q → (∀ w ∈ s.rwrites, ¬(w.src = c ∧ w.dest = q.core)) →
        (s.core q.core).bad = [] → ∃ t, exec (.remoteRead c) s = .next t ∧
        (t.core c).csq.rread = none ∧ (t.core c).csq.pc = (s.core c).csq.pc + 1 ∧
        (nbits q.word 227 1 = 0 → (t.core c).spd = (((moveRows q.word).map fun (a, b) =>
          (b, (s.core q.core).rd ((s.core q.core).entry q.ref) a (IWord.by q.word 10 2))).foldl
            (fun (k : Core) x => k.wr (k.entry (IWord.by q.word 6 2)) x.1 x.2) (s.core c)).spd)) ∧
      (∀ q : RemoteRead, (s.core c).csq.rread = some q → (∃ w ∈ s.rwrites, w.src = c ∧ w.dest = q.core) →
        exec (.remoteRead c) s = .next s.settle))

/-! ### Bulk DMA (R223 to R226, R230) -/

/-- CH_CTRL writes the shadow fields; ARM queues the shadow set behind those that wait, unless it is queued already (R224). CH_ABORT
with bit 0 asks the running transfer to stop after its burst, or ends a queued one with ABORTED and its whole length as residue;
bit 1 drops a queued shadow set without a word (R226). -/
def Obligations.DmaChannelsAreArmedAndAborted : Prop :=
  ∀ (c : Nat) (v : Word) (acc : Acc) (s : State), c < 8 →
    let fields (x : DmaChan) : DmaChan :=
      { x with smode := v.getLsbD 1, dmode := v.getLsbD 2, ien := v.getLsbD 3, ctx := BitVec.ofNat 16 (wbits v 31 16) }
    let both (t : State) : Prop := exec (.chAbortActive c v acc) s = .next t ∧ exec (.chAbortShadow c v acc) s = .next t
    (s.grants (0x7114 + 0x40 * c) acc = true → v.getLsbD 0 = true → (s.chan c).arm = false →
      exec (.chArm c v acc) s = .next ({ ((s.answered acc).updChan c fun x => { fields x with arm := true }) with
        dmaQueue := s.dmaQueue ++ [c] }).settle) ∧
    (s.grants (0x7114 + 0x40 * c) acc = true → (v.getLsbD 0 = false ∨ (s.chan c).arm = true) →
      exec (.chArm c v acc) s = .next ((s.answered acc).updChan c fields).settle) ∧
    (s.grants (0x7134 + 0x40 * c) acc = true → v.getLsbD 0 = true → v.getLsbD 1 = false → (s.chan c).running = true →
      both ((s.answered acc).updChan c fun x => { x with aborting := true }).settle) ∧
    (s.grants (0x7134 + 0x40 * c) acc = true → v.getLsbD 0 = true → (s.chan c).running = false → (s.chan c).arm = true →
      ∃ t, both t ∧ t.dmaQueue = s.dmaQueue.erase c ∧ (t.chan c).arm = false ∧
        (t.chan c).code = 1 ∧ (t.chan c).residue = (s.chan c).len ∧ (t.chan c).running = false ∧
        (t.hdr 7).raw = (s.hdr 7).raw ||| word (2 ^ (8 + c))) ∧
    (s.grants (0x7134 + 0x40 * c) acc = true → v.getLsbD 0 = false → v.getLsbD 1 = true → (s.chan c).arm = true →
      both (({ (s.answered acc) with dmaQueue := s.dmaQueue.erase c }).updChan c fun x => { x with arm := false }).settle)

/-- The oldest queued transfer starts when none runs: the shadow set becomes the active one, and the transfer runs, or ends with the
first check of R225 that it fails and its whole length as residue (R224, R225).

A burst moves the next 512 bytes, or what is left: the bytes read at the active source stand at the active destination, addresses
advance except on a fixed side, and the transfer ends with OK once nothing is left (R225). A destination in host memory is read
here before any message of a rising line lands. -/
def Obligations.QueuedTransfersStartAndMoveInBursts : Prop :=
  (∀ (c : Nat) (rest : List Nat) (s : State), s.running = true → s.dmaRunning = none → s.dmaQueue = c :: rest →
      let x := s.chan c
      let u := ({ s with dmaQueue := rest }).updChan c fun y =>
        { y with arm := false, actSrc := x.src, actDst := x.dst, actLen := x.len, actSmode := x.smode, actDmode := x.dmode
                 actCtx := x.ctx }
      (s.dmaCheck x = 0 →
        exec .dmaTransferStart s
          = .next (u.updChan c fun y => { y with running := true, aborting := false, issued := s.fclk }).settle) ∧
      (s.dmaCheck x ≠ 0 → ∃ t, exec .dmaTransferStart s = .next t ∧ t.dmaQueue = rest ∧ (t.chan c).running = false ∧
        (t.chan c).code = s.dmaCheck x ∧ (t.chan c).residue = word x.len.toNat ∧ (t.chan c).arm = false)) ∧
  (∀ (c : Nat) (s : State), c < 8 → s.dmaRunning = some c →
      let x := s.chan c
      let n := min 512 x.actLen.toNat
      x.running = true → s.epCode x.actCtx.toNat x.actSrc = 0 → s.epDstCode x.actCtx.toNat x.actDst n = 0 → s.epBad x.actSrc n = none →
      ∃ u : State, exec (.dmaBurst .ok) s = .next u.settle ∧
        (n < x.actLen.toNat → x.aborting = false →
          (u.chan c).running = true ∧ (u.chan c).actLen = word (x.actLen.toNat - n) ∧
          (u.chan c).actSrc = (if x.actSmode then x.actSrc else x.actSrc + dword n) ∧
          (u.chan c).actDst = (if x.actDmode then x.actDst else x.actDst + dword n)) ∧
        (n = x.actLen.toNat → (u.chan c).running = false ∧ (u.chan c).code = 0 ∧ (u.chan c).residue = 0 ∧
          (u.hdr 7).raw.getLsbD c = true) ∧
        (epSpd x.actDst = false → (∀ k, (s.core k).held = none) → Memory.wf s.host = true →
          ∀ i < n, u.hostByte (wbits x.actDst 47 0 + i) = (s.epRead x.actSrc n).getD i 0) ∧
        (epSpd x.actDst = true → (u.core (epCore x.actDst)).spd = ((s.core (epCore x.actDst)).wr
          ((s.core (epCore x.actDst)).entry (epRef x.actDst)) (epOff x.actDst) (s.epRead x.actSrc n)).spd) ∧
        (∀ d, d ≠ c → u.chan d = s.chan d))

/-! ### Time bases and marks (R231 to R237, R243) -/

/-- A write of a protected register of a time base: refused while streams are bound; a reserved source raises TB_SRC and is ignored;
NOM = 0 with EN, or TOL above 10,000, is refused; otherwise it takes effect, and an enable loads SET (R231, R235, R237). -/
def Obligations.TimeBaseRegistersAreProtected : Prop :=
  ∀ (t : Nat) (reg : TbReg) (v : Word) (acc : Acc) (s : State), s.grants (tbAddr t reg) acc = true →
    let bad : Bool := match reg with | .ctrl => decide (4 < wbits v 3 1) | _ => false
    let u := (s.answered acc).raiseIf bad (8 + t) 3
    let no : Bool := match reg with
      | .ctrl => v.getLsbD 0 && (s.tb t).nom == 0
      | .tol => decide (10000 < wbits v 13 0)
      | _ => false
    (s.tbBound t ≠ 0 → exec (.tbaseCtrlWrite t reg v acc) s = .next (u.updTb t fun x => { x with refused := true }).settle) ∧
    (s.tbBound t = 0 → bad = true → exec (.tbaseCtrlWrite t reg v acc) s = .next u.settle) ∧
    (s.tbBound t = 0 → bad = false → no = true →
      exec (.tbaseCtrlWrite t reg v acc) s = .next ((s.answered acc).updTb t fun x => { x with refused := true }).settle) ∧
    (s.tbBound t = 0 → bad = false → no = false →
      exec (.tbaseCtrlWrite t reg v acc) s = .next ((s.answered acc).updTb t fun x =>
        let y := { x with refused := false }
        match reg with
        | .ctrl =>
          let z := { y with en := v.getLsbD 0, src := wbits v 3 1, sel := wbits v 6 4, div := wbits v 15 8 }
          if !x.en && v.getLsbD 0 then
            { z with value := x.set, sampled := false, holds := decide (wbits v 3 1 = 3), phase := s.fclk, lastAdv := s.fclk, stalled := false }
          else if wbits v 3 1 ≠ x.src then { z with sampled := false, holds := false, phase := s.fclk }
          else if wbits v 15 8 ≠ x.div then { z with phase := s.fclk }
          else z
        | .nom => { y with nom := v }
        | .tol => { y with tol := wbits v 13 0 }
        | .setLo => { y with set := dword (v.toNat + x.set.toNat / 2 ^ 32 * 2 ^ 32) }
        | .setHi => { y with set := dword (x.set.toNat % 2 ^ 32 + v.toNat * 2 ^ 32) }).settle)

/-- A free-running time base counts one for every DIV + 1 FCLK, and the closes that it passes are taken (R231, R239); TB_STALL is raised once when an enabled
time base has not advanced for STALL_LIM × 1,024 FCLK (R234).

An edge on a tick line at least 4 FCLK after the one before counts one on every enabled time base that selects the line, and on
no other; of two edges at the same FCLK edge exactly one counts; a closer one counts one or nothing, which the spec leaves open
(R232). -/
def Obligations.TimeBasesCountRunFreeAndStall : Prop :=
  (∀ (t : Nat) (s : State), s.running = true → t < 8 →
      ((s.tb t).en = true → (s.tb t).src = 4 → (s.tb t).phase + (s.tb t).div + 1 ≤ s.fclk →
        exec (.freeRunAdvance t) s = .next (((s.updTb t fun x => { x with phase := (s.tb t).phase + (s.tb t).div + 1 }).updTb t fun x =>
          { x with value := (s.tb t).value + 1, lastAdv := s.fclk, stalled := false }).passCloses t).settle) ∧
      (((s.tb t).en = false ∨ (s.tb t).src ≠ 4 ∨ s.fclk < (s.tb t).phase + (s.tb t).div + 1) → exec (.freeRunAdvance t) s = .next s.settle) ∧
      ((s.tb t).en = true → (s.tb t).stallLim ≠ 0 → (s.tb t).stalled = false → (s.tb t).stallLim * 1024 ≤ s.fclk - (s.tb t).lastAdv →
        exec (.tbStall t) s = .next ((s.updTb t fun x => { x with stalled := true }).raise (8 + t) 0).settle) ∧
      (((s.tb t).en = false ∨ (s.tb t).stallLim = 0 ∨ (s.tb t).stalled = true ∨ s.fclk - (s.tb t).lastAdv < (s.tb t).stallLim * 1024) →
        exec (.tbStall t) s = .next s.settle)) ∧
  (∀ (line : Nat) (s : State), s.running = true → line < 8 →
      let drives (t : Nat) : Bool := decide (t < 8) && (s.tb t).en && ((s.tb t).src == 1 || (s.tb t).src == 2) && (s.tb t).sel == line
      let last := s.tickEdge.find? fun x => x.1 == line
      let counts (u : State) : Prop := u.tickEdge = s.tickEdge.put line (s.fclk, true) ∧
        ∀ t, drives t = true → u.tb t = { s.tb t with value := (s.tb t).value + 1, lastAdv := s.fclk, stalled := false }
      ∃ u, exec (.tbTick line) s = .next u ∧
        (∀ t, drives t = false → u.tb t = s.tb t) ∧
        ((∀ e, last = some e → e.2.1 + 4 ≤ s.fclk) → counts u) ∧
        (∀ e, last = some e → e.2.1 = s.fclk → e.2.2 = false → counts u) ∧
        (∀ e, last = some e → e.2.1 = s.fclk → e.2.2 = true → u.tickEdge = s.tickEdge ∧ ∀ t, u.tb t = s.tb t) ∧
        (counts u ∨ ∀ t, u.tb t = s.tb t))

/-- A network-time strobe: the first sample after an enable is its value whatever it was; a later one above the value becomes the value,
with TB_JUMP when it lies more than JUMP_LIM above; one below raises TB_BACK and leaves the value (R231, R233, R235).

A mark request for a stream that no group holds answers 4, one beyond four for a member answers 2; otherwise it is kept, moved
past the member's newest fired close when it is late, which is counted (R243, R265). -/
def Obligations.NetworkTimeAndMarks : Prop :=
  (∀ (w : DWord) (s : State), s.running = true →
      ∃ u, exec (.tbNetStrobe w) s = .next u ∧
        (∀ t, (8 ≤ t ∨ (s.tb t).en = false ∨ (s.tb t).src ≠ 3) → u.tb t = s.tb t) ∧
        (∀ t, t < 8 → (s.tb t).en = true → (s.tb t).src = 3 →
          let took : TBase := { s.tb t with value := w, sampled := true, holds := false, lastAdv := s.fclk, stalled := false }
          ((s.tb t).holds = true → u.tb t = took) ∧
          ((s.tb t).holds = false → (s.tb t).value < w → u.tb t = took ∧
            (((s.tb t).jumpLim.toNat < (w - (s.tb t).value).toNat) → (u.hdr (8 + t)).raw.getLsbD 2 = true)) ∧
          ((s.tb t).holds = false → w ≤ (s.tb t).value → u.tb t = { s.tb t with sampled := true } ∧
            (w < (s.tb t).value → (u.hdr (8 + t)).raw.getLsbD 1 = true)))) ∧
  (∀ (v : Word) (acc : Acc) (s : State), s.grants 0x1048 acc = true →
      let m : DWord := dword (s.sd.markLo.toNat + v.toNat * 2 ^ 32)
      let who := s.groups.findSome? fun e =>
        (e.2.members.findIdx? fun x => x.stream == s.sd.markStream).map fun j => (e.1, e.2, j)
      let stat (w : Word) : State := { (s.answered acc) with sd := { s.sd with markStat := w } }
      (who = none → exec (.markTHi v acc) s = .next (stat 4).settle) ∧
      (∀ gid g j, who = some (gid, g, j) → 4 ≤ (g.markReqs.filter fun x => x.1 == j).length →
        exec (.markTHi v acc) s = .next (stat 2).settle) ∧
      (∀ gid g j, who = some (gid, g, j) → (g.markReqs.filter fun x => x.1 == j).length < 4 →
        (∀ n, g.newestFired = some n → g.memberClose j n < m.toNat) →
        exec (.markTHi v acc) s = .next ((stat 0).setGroup gid { g with markReqs := g.markReqs ++ [(j, m)] }).settle) ∧
      (∀ gid g j n, who = some (gid, g, j) → (g.markReqs.filter fun x => x.1 == j).length < 4 →
        g.newestFired = some n → m.toNat ≤ g.memberClose j n →
        exec (.markTHi v acc) s = .next (((stat 0).updLeash s.sd.markStream fun l =>
          { l with markLate := min 65535 (l.markLate + 1) }).setGroup gid
            { g with markReqs := g.markReqs ++ [(j, dword (g.memberClose j n + 1))] }).settle))

/-! ### The memory port (R375 to R380) -/

/-- A reply to a tag frees it. A read reply is handed to the unit that asked, after its latency is noted; an error reply raises MEM_ERR
and fills ERR_INFO; a reply to a request that has timed out is discarded. A completed write has landed in host memory byte for byte of
its enables; one in error leaves those bytes open (R376, R378, R379, R380).

The first error of the memory port stands in ERR_INFO and ERR_ADDR until it is cleared; MEM_ERR is raised by each (R379, R380).
LAT_CLR zeroes LAT_MAX and nothing else (R380). -/
def Obligations.MemoryRepliesAndErrors : Prop :=
  (∀ (ch tag : Nat) (code : MemCode) (s : State), s.running = true →
      let code' : MemCode := if code = .timeout then .tgterr else code
      (∀ u q, s.takeReply ch tag false = (u, some q) → q.timedOut = true → exec (.memReadData ch tag code) s = .next u.settle) ∧
      (∀ u q, s.takeReply ch tag false = (u, some q) → q.timedOut = false →
        exec (.memReadData ch tag code) s
          = .next ((((u.chargeLate q).noteLatency q).memCheck code' false (64 * q.line) q.cls).deliver q code').settle) ∧
      (∀ u q, s.takeReply ch tag true = (u, some q) → q.timedOut = true → exec (.memWriteCompletion ch tag code) s = .next u.settle) ∧
      (∀ u q, s.takeReply ch tag true = (u, some q) → q.timedOut = false → code = .ok →
        exec (.memWriteCompletion ch tag code) s
          = .next ((u.hostWriteEn (64 * q.line) (q.data.zip q.ben)).deliver q .ok).settle) ∧
      (∀ u q, s.takeReply ch tag true = (u, some q) → q.timedOut = false → code ≠ .ok →
        exec (.memWriteCompletion ch tag code) s
          = .next ((((u.openWrite q).memErr code' true (64 * q.line) q.cls)).deliver q code').settle) ∧
      ((∀ u q, s.takeReply ch tag false ≠ (u, some q)) → exec (.memReadData ch tag code) s = .next s.settle) ∧
      (∀ q, (s.mchan ch).out.find? (fun x => x.tag == tag && !x.timedOut) = some q → s.mport.timeout ≠ 0 →
        s.mport.timeout * 1024 ≤ s.fclk - q.sent → q.write = false →
        exec (.memTimeout ch tag) s = .next (((s.setMchan ch { (s.mchan ch) with
            out := (s.mchan ch).out.map fun x => if x = q then { x with timedOut := true } else x }).memErr
              .timeout false (64 * q.line) q.cls).deliver q .timeout).settle) ∧
      (∀ q, (s.mchan ch).out.find? (fun x => x.tag == tag && !x.timedOut) = some q →
        s.fclk - q.sent < s.mport.timeout * 1024 → exec (.memTimeout ch tag) s = .next s.settle)) ∧
  (∀ (s : State) (code : MemCode) (w : Bool) (a : Nat) (cls : QCls) (v : Word) (acc : Acc),
      (s.mport.errInfo.getLsbD 0 = true → s.memErr code w a cls = s.raise 3 0) ∧
      (s.mport.errInfo.getLsbD 0 = false → s.memErr code w a cls = { s.raise 3 0 with mport := { s.mport with
        errInfo := word (1 + 2 * (match code with | .ok => 0 | .tgterr => 1 | .notgt => 2 | .timeout => 3) + 8 * b2n w
          + 16 * (a / 64 % 8) + 128 * (match cls with | .deadline => 0 | .best => 1 | .control => 2 | .background => 3))
        errAddr := a / 64 * 64 % 2 ^ 48 } }) ∧
      (s.grants 0x3048 acc = true → v.getLsbD 0 = true →
        exec (.latClr v acc) s = .next ({ (s.answered acc) with mport := { s.mport with latMax := 0 } }).settle) ∧
      (s.grants 0x3048 acc = true → v.getLsbD 0 = false → exec (.latClr v acc) s = .next (s.answered acc).settle))

/-! ### The sample port and the tile port (R382 to R396) -/

/-- A binding of the sample port is written while its EN is 0, reserved bits aside; while EN is 1 only a write of CFG with EN = 0 acts,
and it clears EN alone (R383, R389).

A binding of the tile port is written while its EN is 0; an enable that would give its surface two equal DSEQ leaves EN at 0 and raises
TP_BIND; while EN is 1 only a write of TB_CFG with EN = 0 acts (R391, R396). -/
def Obligations.PortBindingsAreWrittenWhileDisabled : Prop :=
  (∀ (lane : Nat) (reg : BindReg) (v : Word) (acc : Acc) (s : State), lane < 16 →
      (s.grants (bindAddr 0x5100 lane reg) acc = true → (s.inReg lane).en = false →
        exec (.inCfgWrite lane reg v acc) s = .next ({ (s.answered acc) with aport := match reg with
          | .cfg => { s.aport with inCfg := s.aport.inCfg.set 0 lane (v &&& 0x003FFFFF#32) }
          | .tgt => { s.aport with inTgt := s.aport.inTgt.set 0 lane (v &&& 0x01FFFFFF#32) }
          | .store => { s.aport with inStore := s.aport.inStore.set 0 lane (v &&& 0x07FFFFFF#32) } }).settle) ∧
      (s.grants (bindAddr 0x5100 lane reg) acc = true → (s.inReg lane).en = true →
        exec (.inCfgWrite lane reg v acc) s = .next (if reg = .cfg ∧ v.getLsbD 0 = false then
          { (s.answered acc) with aport := { s.aport with inCfg := s.aport.inCfg.set 0 lane ((s.inReg lane).cfg &&& ~~~1#32) } }
          else (s.answered acc)).settle) ∧
      (s.grants (bindAddr 0x5200 lane reg) acc = true → (s.outReg lane).en = false →
        exec (.outCfgWrite lane reg v acc) s = .next ({ (s.answered acc) with aport := match reg with
          | .cfg => { s.aport with outCfg := s.aport.outCfg.set 0 lane (v &&& 0x0003FFFD#32) }
          | .tgt => { s.aport with outTgt := s.aport.outTgt.set 0 lane (v &&& 0x01FFFFFF#32) }
          | .store => { s.aport with outStore := s.aport.outStore.set 0 lane (v &&& 0x07FFFFFF#32) } }).settle) ∧
      (s.grants (bindAddr 0x5200 lane reg) acc = true → (s.outReg lane).en = true →
        exec (.outCfgWrite lane reg v acc) s = .next (if reg = .cfg ∧ v.getLsbD 0 = false then
          { (s.answered acc) with aport := { s.aport with outCfg := s.aport.outCfg.set 0 lane ((s.outReg lane).cfg &&& ~~~1#32) } }
          else (s.answered acc)).settle)) ∧
  (∀ (b : Nat) (reg : TileReg) (v : Word) (acc : Acc) (s : State), b < 16 → s.grants (tileAddr b reg) acc = true →
      (s.tileEn b = true →
        exec (.tbCfgWrite b reg v acc) s = .next (if reg = .cfg ∧ v.getLsbD 0 = false then
          { (s.answered acc) with tport := { s.tport with cfg := s.tport.cfg.set 0 b (s.tileCfg b &&& ~~~1#32) } } else (s.answered acc)).settle) ∧
      (s.tileEn b = false → reg = .cfg → v.getLsbD 0 = true → s.dseqClash b (wbits v 4 1) = true →
        exec (.tbCfgWrite b reg v acc) s
          = .next (({ (s.answered acc) with tport := { s.tport with cfg := s.tport.cfg.set 0 b (v &&& 0x007FFFFE#32) } }).raise 4 4).settle) ∧
      (s.tileEn b = false → (reg ≠ .cfg ∨ v.getLsbD 0 = false ∨ s.dseqClash b (wbits v 4 1) = false) →
        exec (.tbCfgWrite b reg v acc) s = .next ({ (s.answered acc) with tport := match reg with
          | .cfg => { s.tport with cfg := s.tport.cfg.set 0 b (v &&& 0x007FFFFF#32) }
          | .geom => { s.tport with geom := s.tport.geom.set 0 b v }
          | .refs => { s.tport with refs := s.tport.refs.set 0 b v }
          | .dseq => { s.tport with dseq := s.tport.dseq.set 0 b (v &&& 0x0000FFFF#32) } }).settle))

/-- An ingress word of good parity: without a group, with reserved tag bits, or outside its binding it is stray; for a finished frame it
is late; two frames ahead or more it is early; for the oldest unfinished frame it lands at its position, and for the next one it
waits in the store (R382 to R385). A word of bad parity counts and raises SP_PARITY.

A waiting word lands once its frame has become the oldest unfinished one; a word of a group that is gone is dropped. An egress lane
drives the next word of its release with SO_VALID = 1, and SO_VALID = 0 once none is left (R384, R387). -/
def Obligations.IngressWordsAndReleases : Prop :=
  (∀ (lane : Nat) (data : Word) (tag : BitVec 16) (s : State), s.running = true → lane < 16 →
      (tag.getLsbD 15 ≠ parBit data tag → ∃ t, exec (.ingressWord lane data tag) s = .next t ∧
        t.aport.parCnt = satWord s.aport.parCnt 1 ∧ (t.hdr 5).raw.getLsbD 0 = true) ∧
      (tag.getLsbD 15 = parBit data tag →
        (s.laneGroup lane = none → exec (.ingressWord lane data tag) s = .next s.strayWord.settle) ∧
        ∀ gid g b, s.laneGroup lane = some (gid, g, b) →
          let rel := wbits tag 8 0
          let ch := wbits tag 10 9
          let fits := wbits tag 14 12 = 0 ∧ rel < b.mcnt ∧ ch < b.nch ∧ b.mbase + rel < g.nmem
          let at_ := g.placeOf (b.mbase + rel) ((s.tb g.tb).value + dword b.adv)
          let pos := b.pos g.nmem at_.2 (b.mbase + rel) ch
          let core := g.core b.kslot
          (¬ fits → exec (.ingressWord lane data tag) s = .next s.strayWord.settle) ∧
          (fits → at_.1 < g.oldest → exec (.ingressWord lane data tag) s = .next s.lateWord.settle) ∧
          (fits → g.oldest + 2 ≤ at_.1 → exec (.ingressWord lane data tag) s = .next s.earlyWord.settle) ∧
          (fits → at_.1 = g.oldest → s.bindFor g at_.1 b = some b → ∃ t, exec (.ingressWord lane data tag) s = .next t ∧
            t.aport.istore = s.aport.istore.set 0 (b.storeWord g at_.1 at_.2 rel ch) data ∧
            (b.lane, at_.1, pos) ∈ t.aport.landed ∧
            (tag.getLsbD 11 = false → t.groups = s.groups ∧ (t.core core).spd
              = ((s.core core).wr ((s.core core).entry b.href) pos (toBytes 4 data.toNat)).spd)) ∧
          (fits → at_.1 = g.oldest + 1 → s.bindFor g at_.1 b = some b →
            exec (.ingressWord lane data tag) s = .next ({ s with aport := { s.aport with
              istore := s.aport.istore.set 0 (b.storeWord g at_.1 at_.2 rel ch) data
              waits := s.aport.waits ++ [(⟨b.lane, gid, at_.1, b.storeWord g at_.1 at_.2 rel ch, pos, data, tag.getLsbD 11, b.mbase + rel,
                                           at_.2⟩ : WaitWord)] } }).settle))) ∧
  (∀ (lane : Nat) (s : State), s.running = true →
      (∀ (w : WaitWord) (rest : List WaitWord), s.aport.waits = w :: rest → w.lane = lane →
        let u : State := { s with aport := { s.aport with waits := rest } }
        (s.group? w.gid = none → exec (.storedWordLand lane) s = .next u.settle) ∧
        (∀ g b, s.group? w.gid = some g → w.frame = g.oldest → g.doneAt + 16 ≤ s.fclk → s.bindFor g w.frame (s.inReg lane) = some b →
          exec (.storedWordLand lane) s = .next (u.landWord w.gid g b w).settle)) ∧
      ((∀ w ∈ s.aport.waits, w.lane ≠ lane) → exec (.storedWordLand lane) s = .next s.settle) ∧
      (lane < 16 → ∀ d t rest, Sparse.get [] s.aport.send lane = (d, t) :: rest →
        exec (.egressWord lane) s = .next ({ s with aport := { s.aport with
          send := s.aport.send.set [] lane rest, out := s.aport.out.put lane (true, d, t) } }).settle) ∧
      (lane < 16 → Sparse.get [] s.aport.send lane = [] → ∃ t, exec (.egressWord lane) s = .next t ∧
        (Sparse.get (false, 0, 0) t.aport.out lane).1 = false ∧ t.aport.send = s.aport.send))

/-- READY reads a tile of the oldest unfinished frame at once and keeps one of the next frame; an event for a pass that no frame has is stray;
RESOLVE waits for its frame, is answered NONE once the frame is late or parked, and for a finished frame is answered by what
became of it; a reserved announcement raises TP_RSVD alone (R390 to R394).

A reply to a tile read: OK frees the tag, lands the line and gives the tag to the next waiting read; NOT_READY counts and the read is
sent again after a retry; an error raises TP_READ and faults the frame (R390). A retry that is due sends the read again. -/
def Obligations.TileTrafficReachesItsFrames : Prop :=
  (∀ (surf pass tile : Nat) (s : State), s.running = true →
      exec (.tileAnnounceReserved surf pass tile) s = .next (s.raise 4 0).settle ∧
      (s.passFrames surf pass = [] → exec (.tileReady surf pass tile) s = .next s.strayTile.settle) ∧
      (∀ gid n b g, s.passFrames surf pass = [(gid, n, [b])] → s.group? gid = some g → tile < s.tileCount b →
        (b, gid, n, tile) ∉ s.tport.landed → (b, gid, n, tile) ∉ s.tport.queued →
        (∀ l, (b, gid, n, tile, l) ∉ s.tport.partials) →
        (n = g.oldest → exec (.tileReady surf pass tile) s = .next (s.readTile b gid n tile).settle) ∧
        (n ≠ g.oldest → exec (.tileReady surf pass tile) s
          = .next ({ s with tport := { s.tport with queued := s.tport.queued ++ [(b, gid, n, tile)] } }).settle)) ∧
      (s.passFrames surf pass = [] → s.passDone surf pass = [] → exec (.tileResolve surf pass tile) s
        = .next ({ s.strayTile with tport := { s.strayTile.tport with
            acks := s.tport.acks ++ [(surf, tile, false)], noneCnt := satWord s.tport.noneCnt 1 } }).settle) ∧
      (∀ gid n bs f, s.passFrames surf pass = [(gid, n, bs)] → s.frame? gid n = some f → f.late = false → f.parked = false →
        exec (.tileResolve surf pass tile) s
          = .next ({ s with tport := { s.tport with resolves := s.tport.resolves ++ [(surf, gid, n, tile)] } }).settle) ∧
      (∀ gid n bs f, s.passFrames surf pass = [(gid, n, bs)] → s.frame? gid n = some f → (f.late = true ∨ f.parked = true) →
        exec (.tileResolve surf pass tile) s = .next (s.ackTile surf gid n tile false f.late).settle) ∧
      (∀ gid g t, s.passFrames surf pass = [] → s.passDone surf pass = [(gid, g, t)] →
        (t.ok = true → (∀ d, t.due = some d → s.cclk ≤ d) →
          exec (.tileResolve surf pass tile) s = .next (s.writeTile gid g t.binds t.n surf tile).settle) ∧
        (t.ok = false → t.due = none → exec (.tileResolve surf pass tile) s = .next (s.ackTile surf gid t.n tile false false).settle))) ∧
  (∀ (tag : Nat) (data : BitVec 512) (s : State), s.running = true → tag < 64 →
      (∀ r, s.tport.reads.find? (fun r => r.tag == tag && decide (tag < 64) && !r.retry) = some r →
        let again : State := { s with tport := { s.tport with
          reads := s.tport.reads.map fun x => if x = r then { x with retry := true } else x } }
        exec (.tileReadData tag data .ok) s
          = .next (({ s with tport := { s.tport with reads := s.tport.reads.erase r } }).landTile r data).issueTiles.settle ∧
        exec (.tileReadData tag data .notReady) s
          = .next ({ again with tport := { again.tport with notReadyCnt := satWord s.tport.notReadyCnt 1 } }).settle ∧
        exec (.tileReadData tag data .error) s = .next ((again.raise 4 3).faultFrame r.gid r.frame false).1.settle ∧
        exec (.tileReadData tag data .reserved) s = exec (.tileReadData tag data .error) s) ∧
      ((∀ r ∈ s.tport.reads, r.tag ≠ tag) → ∀ code, exec (.tileReadData tag data code) s = .next s.settle) ∧
      exec (.tileRetry tag) s = .next ({ s with tport := { s.tport with
        reads := s.tport.reads.map fun (r : TileRead) => if r.tag = tag then { r with retry := false } else r } }).settle)

/-! ### Reset inputs, power domains and bring-up (R369, R400, R404, R406 to R418) -/

/-- PORST_N and ENG_RST_N return everything to its reset value, lower every REQ, and leave host memory, the fuses, the ACKs and the waiting
commands; ENG_RST_N leaves the PLL and the test access port as well (R406, R407). TRST_N resets the test access port only.

The release of the last asserted reset input is T0: the count of FCLK is 0 and the boot ROM begins; a release while the other input is
asserted starts nothing (R406). -/
def Obligations.ResetsClearAndTheLastReleaseIsTZero : Prop :=
  (∀ s : State,
      let cleared : State := { State.reset with
        conf := s.conf, fuse := s.fuse, host := s.host, hostOpen := s.hostOpen, fresh := s.fresh, pending := s.pending
        power := { State.reset.power with pdtAck := s.power.pdtAck }
        packs := (s.packs.filter fun e => e.2.pdAck).map fun e => (e.1, { pdAck := true })
        cores := (s.cores.filter fun e => e.2.pdAck).map fun e => (e.1, { pdAck := true, ageWarn := s.fuse.ageWarn }) }
      exec .porstN s = .next { cleared with boot := { State.reset.boot with por := true, eng := s.boot.eng } } ∧
      exec .engRstN s = .next { cleared with
        boot := { State.reset.boot with por := s.boot.por, eng := true }
        glb := { State.reset.glb with pllLock := s.glb.pllLock }, tap := s.tap } ∧
      exec .trstN s = .next ({ s with tap := State.reset.tap }).settle ∧
      exec .pllLock s = .next ({ s with glb := { s.glb with pllLock := true } }).settle) ∧
  (∀ (por eng : Bool) (s : State), s.running = false →
      let b : Boot := { s.boot with por := s.boot.por && !por, eng := s.boot.eng && !eng }
      ((b.por = true ∨ b.eng = true) → exec (.resetRelease por eng) s = .next ({ s with boot := b }).settle) ∧
      (b.por = false → b.eng = false → s.boot.stage = .rom →
        exec (.resetRelease por eng) s = .next ({ s with boot := b, fclk := 0 }).powerUp.settle))

/-- Domains are powered one after another, and the clock of a core runs once its ACK is 1 and its REQ stands: an ACK lets the boot ROM raise the REQ of the first domain of the stage that has none, once
every domain before it is acknowledged, and none is raised while another REQ waits; an ACK that falls while its REQ is 1 raises
PD_LOST and takes a core out of service (R400, R407, R409). -/
def Obligations.DomainsArePoweredOneAfterAnother : Prop :=
  ∀ (d : Domain) (level : Bool) (s : State),
    let acked (b : Bool) : State := match d with
      | .core c => (s.setAck d b).updCore c fun k => { k with cclk := b && k.pdReq && s.running }
      | _ => s.setAck d b
    (s.hasDomain d = false → exec (.powerDomainAck d level) s = .next s.settle) ∧
    (s.hasDomain d = true → s.running = false → exec (.powerDomainAck d level) s = .next (acked level).settle) ∧
    (s.hasDomain d = true → s.running = true → (s.pdAck d = false ∨ level = true ∨ s.pdReq d = false) →
      exec (.powerDomainAck d level) s = .next (acked level).powerUp.settle) ∧
    (s.hasDomain d = true → s.running = true → s.pdAck d = true → s.pdReq d = true →
      exec (.powerDomainAck d false) s = .next (match d with
        | .core c => ((acked false).raise 2 0).retireCore c
        | _ => (acked false).raise 2 0).settle) ∧
    (∀ pre post, s.wanted = pre ++ d :: post → (∀ x ∈ pre, s.pdAck x = true) → s.pdAck d = false →
      ((∃ x ∈ s.allDomains, s.pdReq x = true) ∨ (∀ x ∈ s.allDomains, s.pdAck x = false)) →
      s.powerUp = if s.pdReq d = true then s else s.setReq d true) ∧
    ((∀ x ∈ s.allDomains, s.pdReq x = false) → (∃ x ∈ s.allDomains, s.pdAck x = true) → s.powerUp = s)

/-- LOAD starts verification in EARLY, is held before it, and reports FW_BUSY after it (R415). Verification ends with the verdict of its
checks in order: FW_OK moves the engine to CAL, any other code returns it to EARLY, counts the attempt and raises BOOT_ERR (R416,
R417); a power-fail notice stops the stage (R408). -/
def Obligations.TheFirmwareImageIsLoadedAndVerified : Prop :=
  ∀ s : State, s.running = true →
    (∀ (v : Word) (acc : Acc), s.grants 0x8C acc = true →
      (v.getLsbD 0 = false → exec (.fwLoad v acc) s = .next (s.answered acc).settle) ∧
      (v.getLsbD 0 = true → exec (.fwLoad v acc) s = .next ({ (s.answered acc) with boot := match s.boot.stage with
        | .rom => { s.boot with loadHeld := true }
        | .early => { s.boot with stage := .verify }
        | _ => { s.boot with code := 7 } }).settle)) ∧
    (s.boot.stage = .verify → s.glb.pf = true → ∀ mem, exec (.fwVerifyComplete mem) s = .next s.settle) ∧
    (s.boot.stage = .verify → s.glb.pf = false →
      (s.fwVerdict .ok = 1 → exec (.fwVerifyComplete .ok) s
        = .next ({ s with boot := { s.boot with stage := .cal, code := 1 } }).powerUp.settle) ∧
      (s.fwVerdict .ok ≠ 1 → exec (.fwVerifyComplete .ok) s = .next (({ s with boot := { s.boot with
        stage := .early, code := s.fwVerdict .ok, attempts := min 255 (s.boot.attempts + 1) } }).raise 0 3).settle) ∧
      (∀ mem, mem ≠ .ok → exec (.fwVerifyComplete mem) s
        = .next (({ s.memErr mem false (addr48 s.boot.fwLo s.boot.fwHi) .control with boot := { s.boot with
            stage := .early, code := 2, attempts := min 255 (s.boot.attempts + 1) } }).raise 0 3).settle)) ∧
    (s.fwVerdict .ok = 1 →
      let a := addr48 s.boot.fwLo s.boot.fwHi
      let h := s.hostRead a 256
      fwHeaderOk h = true ∧ s.fuse.keyHash ≠ 0 ∧ leNat (sha384 (natBytes ((h.drop 64).take 96))) = s.fuse.keyHash.toNat ∧
        s.fuse.svn.toNat ≤ fieldAt h 12 4 ∧
        ecdsaOk (beField h 64) (beField h 112) (beField h 160) (beField h 208)
          (beNat (sha384 (natBytes (h.take 160 ++ s.hostRead (a + 256) (fieldAt h 4 4))))) = true)

/-- The engine enters EARLY once the domains of the ROM stage are acknowledged: BOOT_EARLY, EARLY_AT, and VERIFY at once when a LOAD was
held; a column that fails both runs of the array test is bypassed; without a core in service it reports BOOT_NOCORE (R409, R410,
R415).

Handover at the end of CAL: every BUDGET of every pack is 256, the firmware runs, the stage is FULL, FULL_AT is recorded and BOOT_FULL
raised (R418). -/
def Obligations.EarlyServiceAndHandover : Prop :=
  (∀ s : State, s.running = true → s.boot.stage = .rom → (∀ d ∈ romDomains, s.pdAck d = true) →
      (∃ t, exec (.enterEarly []) s = .next t ∧
        t.boot = { s.boot with stage := if s.boot.loadHeld then .verify else .early, loadHeld := false, earlyAt := s.stamp
                               code := if ((List.range 4).all fun c => !(s.core c).inService) then 8 else s.boot.code } ∧
        t.hdr 0 = (s.raise 0 1).hdr 0) ∧
      (∀ c a col, c < 4 → a < 4 → col < 32 → ((s.core c).mxa a).byps.length < 2 →
        (∃ t, exec (.enterEarly [(c, a, col, true)]) s = .next t ∧ ((t.core c).mxa a).byps = ((s.core c).mxa a).byps ++ [col]) ∧
        (∃ t, exec (.enterEarly [(c, a, col, false)]) s = .next t ∧ ((t.core c).mxa a).byps = ((s.core c).mxa a).byps ∧
          (t.core c).ceCnt = satWord (s.core c).ceCnt 1))) ∧
  (∀ s : State, s.running = true → s.boot.stage = .cal → s.glb.pf = false → (∀ d ∈ s.allDomains, s.pdAck d = true) →
      ∃ t, exec (.handover []) s = .next t ∧ t.boot.stage = .full ∧ t.boot.fullAt = s.stamp ∧ t.sd = { s.sd with rom := false } ∧
        t.hdr 0 = (s.raise 0 2).hdr 0 ∧
        (∀ p, p < s.conf.packs → (t.pack p).entries = (s.pack p).entries.map fun e => (e.1, { e.2 with budget := 256 })) ∧
        t.rings = s.rings ∧ t.groups = s.groups ∧ t.fences = s.fences)

/-! ### Faults and background checks (R315 to R330, R346) -/

/-- An uncorrectable fault counts in UE_CNT and telemetry, raises UE, marks every lane word of an SPD line, fills FLT_REC with its outcome and
counts in the window of the core. It is charged to the run of its core, one of a fabric line to the owner of the line. Charged to no
run it has outcome 0; a job is parked with outcome 3; a frame restarts at its first fault with outcome 1, falls back at its second
with outcome 2, and faults at one edge count once (R315, R318, R319, R320, R324, R346). A fault of a calendar entry suspends the
entry (R329).

A core whose faults within a window reach FLT_LIM, when it is not 0, leaves service; the window's end clears the counts (R328). -/
def Obligations.FaultsAreChargedAndRetireCores : Prop :=
  (∀ (c : Nat) (src : FaultSrc) (loc : BitVec 16) (col : BitVec 5) (s : State), s.running = true → s.coreOn c = true →
      let run : Run := if src = .fabric then s.lineOwner c col.toNat else (s.core c).csq.run
      let u0 := (({ s with tele := { s.tele with ueTotal := satWord s.tele.ueTotal 1 } } : State).updCore c fun (k : Core) => { k with
          ueCnt := satWord k.ueCnt 1
          bad := if src = .spd then (k.spoil loc.toNat).bad else k.bad }).raise (24 + c) 0
      let u := u0.traceRec 7 c run.id run.frameNo (srcCode src)
      let closing (t : State) (outcome : Nat) : State :=
        (t.updCore c fun q => q.fltFill src false outcome run.be (if run = .idle then 0 else run.id) loc.toNat col.toNat).countFault c
      (src ≠ .calendar → (src = .spd → u0.bankOwner c loc.toNat = none) →
        (run = .idle → exec (.uncorrectableFault c src loc col) s = .next (closing u 0).settle) ∧
        (∀ ring slot, run = .job ring slot →
          exec (.uncorrectableFault c src loc col) s = .next (closing ((u.faultJob ring).raise (24 + c) 3) 3).settle) ∧
        (∀ gid n slot f, run = .frame gid n slot → s.frame? gid n = some f → f.phase ≠ .finished →
          (f.faultAt = some s.fclk → exec (.uncorrectableFault c src loc col) s = .next (closing u 1).settle) ∧
          (f.faultAt ≠ some s.fclk → f.restarts = 0 → exec (.uncorrectableFault c src loc col) s
            = .next (closing ((u.updFrame gid n fun x => { x with faultAt := some s.fclk }).restartFrame gid n) 1).settle) ∧
          (f.faultAt ≠ some s.fclk → f.restarts ≠ 0 → exec (.uncorrectableFault c src loc col) s
            = .next (closing (((u.updFrame gid n fun x => { x with faultAt := some s.fclk }).countFallback gid).dropFrame gid n 0)
              2).settle))) ∧
      (src = .calendar → ∀ e : Nat × CalEntry, (s.pack (c / 4)).entries.find? (fun x => x.1 == loc.toNat % 512) = some e →
        exec (.uncorrectableFault c src loc col) s = .next ((s.updPack (c / 4) fun q => { q with
          entries := q.entries.put (loc.toNat % 512) { e.2 with suspended := true } }).raise (16 + c / 4) 5).settle)) ∧
  (∀ (c : Nat) (s : State),
      ((s.core c).inService = true → s.sd.fltLim ≠ 0 → s.sd.fltLim ≤ (s.core c).winFaults + 1 →
        ((s.countFault c).core c).inService = false ∧ ((s.countFault c).hdr (24 + c)).raw.getLsbD 5 = true ∧
        ∀ a < 4, (((s.countFault c).core c).mxa a).retired = true) ∧
      ((s.sd.fltLim = 0 ∨ (s.core c).winFaults + 1 < s.sd.fltLim) →
        s.countFault c = s.updCore c fun k => { k with winFaults := k.winFaults + 1 }) ∧
      (∀ d, d ≠ c → (s.countFault c).core d = s.core d) ∧
      (s.running = true →
        exec .faultWindowEnd s = .next ({ s with cores := s.cores.map fun (e : Nat × Core) => (e.1, { e.2 with winFaults := 0 }) }).settle))

/-- Corrected words: counted, recorded while nothing is, and those of a store written back one at a time, whether a reader or the scrubber
met them. A scrub of a clean row does nothing, of a corrected
one counts it, of one that cannot be corrected is a fault. A committed bank that lost a line is rewritten from its initial state
(R316, R317, R321, R325). -/
def Obligations.ScrubbingCorrectsCountsAndRewrites : Prop :=
  ∀ (c : Nat) (s : State), s.running = true → s.coreOn c = true →
    (∀ line, line < 65536 →
      exec (.spdScrub c line .clean) s = .next s.settle ∧
      exec (.spdScrub c line .corrected) s = .next (s.corrected c .spd line 0).settle ∧
      exec (.spdScrub c line .uncorrectable) s
        = .next (s.faultFor (if s.usesLine c line then (s.core c).csq.run else .idle) c .spd line 0).settle) ∧
    (∀ a row, a < 4 → row < 512 →
      exec (.acmScrub c a row .clean) s = .next s.settle ∧
      exec (.acmScrub c a row .corrected) s = .next (s.corrected c .acm (row + 512 * a) 0).settle ∧
      exec (.acmScrub c a row .uncorrectable) s
        = .next (s.faultFor ((s.core c).arrRun a true) c .acm (row + 512 * a) 0).settle) ∧
    (∀ (src : FaultSrc) (loc col : Nat),
      let u := s.corrected c src loc col
      (u.core c).ceCnt = satWord (s.core c).ceCnt 1 ∧ (u.hdr (24 + c)).raw.getLsbD 13 = true ∧
      (u.core c).toWrite = (s.core c).toWrite ++ (match src with | .spd => [loc] | .acm => [65536 + loc] | _ => []) ∧
      ((s.core c).fltRec.getLsbD 0 = true → (u.core c).fltRec = (s.core c).fltRec) ∧ (u.core c).spd = (s.core c).spd) ∧
    (∀ (src : FaultSrc) (loc : BitVec 16) (col : BitVec 5), src = .spd ∨ src = .acm ∨ src = .fabric ∨ src = .calendar →
      exec (.correctedWriteback ⟨c, some (src, loc, col)⟩) s = .next (s.corrected c src loc.toNat col.toNat).settle) ∧
    exec (.correctedWriteback ⟨c, none⟩) s = .next (s.updCore c fun k => { k with toWrite := k.toWrite.drop 1 }).settle ∧
    (∀ i, (s.core c).lost.contains i = true → ∃ t, exec (.stateBankRewrite c i) s = .next t ∧
      (t.core c).lost = (s.core c).lost.erase i ∧ (t.hdr (24 + c)).raw.getLsbD 2 = true ∧
      (let k := s.core c
       let h := k.slotHdr (k.entry i)
       (t.core c).spd = (k.wr (k.entry i) (bankOff h h.cur) (k.initBank i)).spd)) ∧
    (∀ i, (s.core c).lost.contains i = false → exec (.stateBankRewrite c i) s = .next s.settle)

/-- A read-back whose column CRCs agree changes no tag; a column whose CRC differs takes the tag and is a fault at that column, of a run that uses the array (R317, R326). A column
that fails the known-answer test once counts in CE_CNT; twice in a row it is bypassed (R96, R327). The aging sample is recorded, goes to the
power unit, and warns below AGE.WARN (R330, R399).

A control message that fails twice takes its core out of service unless FLT_LIM is 0, and one that is sent again is a fault of the frame it concerns; a
lockstep mismatch restarts Sheepdog and the end of the restart lets it run; a suspended calendar entry is rewritten while Sheepdog
runs (R315, R328, R329, R346). -/
def Obligations.ArrayChecksAndControlFaults : Prop :=
  (∀ (c : Nat) (s : State), s.running = true → s.coreOn c = true →
      (∀ a ups, a < 4 → (∀ u ∈ ups, u.1 < 1024) →
        let v := s.updCore c fun k => k.updMxa a fun m =>
          { m with active := ups.foldl (fun p (i, x) => Sparse.set 0 p i (Sparse.get 0 p i ^^^ x)) m.active }
        (((v.core c).mxa a).crcFails = [] → exec (.weightReadback c a ups) s = .next v.settle) ∧
        (∀ col rest, ((v.core c).mxa a).crcFails = col :: rest → exec (.weightReadback c a ups) s
          = .next (let x := v.updCore c fun k => k.updMxa a fun m => { m with tag := none, crc := none }
                   x.faultFor ((x.core c).arrRun a false) c .weightReadback (32 * a) col).settle)) ∧
      ((s.core c).inService = true →
        (∃ t, exec (.knownAnswerTest c []) s = .next t ∧ (t.core c).lastFails = [] ∧ (t.core c).mxas = (s.core c).mxas) ∧
        ∀ a col, a < 4 → col < 32 → ((s.core c).mxa a).byps.contains col = false →
          ((s.core c).lastFails.contains (a, col) = false → exec (.knownAnswerTest c [(a, col)]) s
            = .next (s.updCore c fun k => { k with ceCnt := satWord k.ceCnt 1, lastFails := [(a, col)] }).settle) ∧
          ((s.core c).lastFails.contains (a, col) = true → ((s.core c).mxa a).byps.length < 2 →
            ((s.bypass c a col).core c).mxa a
              = { (s.core c).mxa a with byps := ((s.core c).mxa a).byps ++ [col], tag := none, crc := none } ∧
            ∃ v : State, (v.core c).lastFails = [] ∧ v.groups = s.groups ∧ exec (.knownAnswerTest c [(a, col)]) s
              = .next ((v.bypass c a col).fault c .columnTest (32 * a) col).settle)) ∧
      (∀ n : BitVec 16, exec (.agingSample c n) s = .next (
        let u : State := { s.updCore c fun k => { k with ageCount := n } with power := { s.power with ageOut := some (c, n) } }
        if n.toNat < (s.core c).ageWarn.toNat then u.raise (24 + c) 11 else u).settle)) ∧
  (∀ s : State, s.running = true →
      (∀ c src, s.coreOn c = true →
        exec (.controlRetry c true src) s = .next (let u := s.faultFor .idle c .fabric 0 src.toNat
                                                  if u.sd.fltLim = 0 then u else u.retireCore c).settle ∧
        (∀ r, s.messageFrame c = some r → exec (.controlRetry c false src) s = .next (s.faultFor r c .fabric 0 src.toNat).settle) ∧
        (s.messageFrame c = none → exec (.controlRetry c false src) s = .next s.settle)) ∧
      (s.early = true →
        exec .lockstepMismatch s = .next (({ s with sd := { s.sd with restart := true } }).raise 1 2).settle) ∧
      exec .sheepdogRestartComplete s = .next ({ s with sd := { s.sd with restart := false } }).settle ∧
      (∀ (p i : Nat) (e : Nat × CalEntry), s.sd.restart = false → p < s.conf.packs → (s.pack p).entries.find? (fun x => x.1 == i) = some e → e.2.suspended = true →
        exec (.calEntryRewrite p i) s = .next (s.updPack p fun q => { q with
          entries := q.entries.put i { e.2 with suspended := false } }).settle))

/-! ### Kennel (R331 to R348) -/

/-- Writes of KENNEL.CTRL: EN starts the scan when window, geometry and persist table are usable, and reports KN_GEOM otherwise; a reserved
WMINOR, a FORMAT while enabled or while a member persists, and a FREE_FOREIGN while not ACTIVE are refused with KN_REFUSED; FORMAT
writes both superblocks and clears the wear table; FREE_FOREIGN frees every foreign slot (R332, R341, R343, R347). -/
def Obligations.KennelControlEnablesFormatsAndFrees : Prop :=
  ∀ (v : Word) (acc : Acc) (s : State), s.grants 0x4905C acc = true →
    let k := s.kennel
    let q : Kennel := { k with verify := v.getLsbD 1, wminor := 0 }
    let all (t : State) : Prop := exec (.kennelEnable v acc) s = .next t ∧ exec (.format v acc .ok) s = .next t ∧
      exec (.freeForeign v acc) s = .next t
    let refused : State := (s.answered acc).kn 0x08 0
    (v.getLsbD 0 = true → s.full = false → all (s.answered acc).settle) ∧
    ((v.getLsbD 0 = false ∨ s.full = true) → wbits v 15 8 ≠ 0 → all refused.settle) ∧
    ((v.getLsbD 0 = false ∨ s.full = true) → v.getLsbD 2 = true → (k.en = true ∨ k.persist ≠ []) → all refused.settle) ∧
    ((v.getLsbD 0 = false ∨ s.full = true) → v.getLsbD 3 = true → k.active = false → all refused.settle) ∧
    (wbits v 15 8 = 0 → v.getLsbD 2 = false → v.getLsbD 3 = false →
      (v.getLsbD 0 = true → s.full = true → k.en = false → k.geomOk = true →
        all ({ (s.answered acc) with kennel := { q with en := true, active := false, scanning := true } } : State).settle) ∧
      (v.getLsbD 0 = true → s.full = true → k.en = false → k.geomOk = false →
        all (({ (s.answered acc) with kennel := q } : State).kn 0x01 0).settle) ∧
      (v.getLsbD 0 = false → k.en = true →
        all ({ (s.answered acc) with kennel := { q with
          en := false, active := false, scanning := false, snaps := [], writing := none } } : State).settle)) ∧
    (wbits v 15 8 = 0 → v.getLsbD 0 = false → v.getLsbD 2 = true → v.getLsbD 3 = false → k.en = false → k.persist = [] →
      Memory.wf s.host = true → ∃ u : State, all u.settle ∧
        u.hostRead k.win 64 = k.superblock ∧ u.hostRead (k.win + 64) 64 = k.superblock ∧
        u.kennel.wear = [] ∧ u.kennel.retired = [] ∧ u.kennel.pids = [] ∧ u.kennel.lastErr = 0) ∧
    (wbits v 15 8 = 0 → v.getLsbD 0 = true → s.full = true → v.getLsbD 2 = false → v.getLsbD 3 = true → k.en = true →
      k.active = true →
        all ({ (s.answered acc) with kennel := { q with foreign := [], lastErr := 0 } } : State).settle)

/-- The scan: a window that does not match its registers leaves Kennel inactive with KN_SUPER, one that cannot be read with KN_MEMERR, and one
that matches makes it active with KN_SCAN_DONE (R341). A wanted snapshot of undamaged state is copied into the half of its staging
area that no window write reads (R338); the writer issues one header at a time, for the slot that R339 chooses, and its acknowledgement makes the record durable (R337, R339). -/
def Obligations.KennelScansSnapshotsAndWritesRecords : Prop :=
  ∀ s : State, s.running = true →
    (s.kennel.scanning = true →
      (s.superMatches = false → exec (.kennelScan .ok) s
        = .next (({ s with kennel := { s.kennel with scanning := false } } : State).kn 0x02 0).settle) ∧
      (s.superMatches = true → ∃ t, exec (.kennelScan .ok) s = .next t ∧ t.kennel.active = true ∧ t.kennel.scanning = false ∧
        (t.hdr 57).raw.getLsbD 0 = true ∧ t.cores = s.cores ∧ t.groups = s.groups) ∧
      (∀ mem, mem ≠ .ok → ∃ t, exec (.kennelScan mem) s = .next t ∧ t.kennel.active = s.kennel.active ∧
        t.kennel.scanning = false ∧ t.kennel.lastErr = 7 ∧ (t.hdr 57).raw.getLsbD 1 = true ∧ (t.hdr 3).raw.getLsbD 0 = true)) ∧
    (∀ (stream : Nat) (e : Nat × Persist) (g : Group), s.kennel.persist.find? (fun x => x.1 == stream) = some e →
      s.group? e.2.gid = some g → s.kennel.active = true → e.2.want = true → s.glb.pf = false → s.badSlotLine g e.2.member = none →
      let half := match s.kennel.writing with
        | some w => if w.stream = stream then 1 - w.half else 1 - e.2.half
        | none => 1 - e.2.half
      exec (.kennelSnapshot stream) s = .next ({ s.hostWrite (e.2.stage + half * s.kennel.slotSize) (s.payload g e.2.member) with
        kennel := { s.kennel with
          snaps := s.kennel.snaps.put stream ⟨e.2.frame, s.payload g e.2.member, half⟩
          persist := s.kennel.persist.put stream { e.2 with want := false, since := 0, half := half } } }).settle) ∧
    (s.kennel.active = true → s.kennel.writing = none → s.glb.pf = false →
      (s.nextSnap = none → exec (.kennelRecordWrite .ok) s = .next s.settle) ∧
      ∀ (x : Nat × Snap) (r : State), s.nextSnap = some x →
        (∀ w, s.beginRecord x.1 x.2.frame x.2.payload .ok = (r, some w) →
          exec (.kennelRecordWrite .ok) s
            = .next ({ r with kennel := { r.kennel with writing := some { w with half := x.2.half } } } : State).checkDirty.settle) ∧
        (s.beginRecord x.1 x.2.frame x.2.payload .ok = (r, none) →
          exec (.kennelRecordWrite .ok) s
            = .next ({ r with kennel := { r.kennel with snaps := r.kennel.snaps.del x.1 } } : State).checkDirty.settle) ∧
        (∀ (e : Nat × Persist) (slot : Nat), s.kennel.persist.find? (fun y => y.1 == x.1) = some e →
          s.kennel.target e.2.pid = some (slot, false) → s.kennel.count slot < s.kennel.wearLim → ∃ t w,
          exec (.kennelRecordWrite .ok) s = .next t ∧ t.kennel.writing = some w ∧ w.stream = x.1 ∧ w.pid = e.2.pid ∧ w.slot = slot ∧
          w.seq = (s.kennel.info e.2.pid).seq + 1 ∧ w.frame = x.2.frame ∧ w.payload = x.2.payload ∧ w.half = x.2.half)) ∧
    (∀ w, s.kennel.writing = some w → (s.kennel.verify = false ∨ s.glb.pf = true) → ∀ ok, ∃ u : State,
      exec (.kennelHeaderAck .ok ok) s = .next u.checkDirty.settle ∧ u.kennel.writing = none ∧
      (u.kennel.info w.pid).live = some w.slot ∧ (u.kennel.info w.pid).seq = w.seq ∧ u.kennel.lastErr = word (w.stream % 4096 * 256) ∧
      u.host = (s.hostWrite (s.kennel.slotAddr w.slot) w.header).host) ∧
    (∀ w, s.kennel.writing = some w → s.kennel.verify = true → s.glb.pf = false → ∃ u : State,
      exec (.kennelHeaderAck .ok false) s = .next u.checkDirty.settle ∧ u.kennel.writing = none ∧ w.slot ∈ u.kennel.retired ∧
      (u.hdr 57).raw.getLsbD 2 = true)

/-- Power failure: no frame fires and nothing is snapshotted from then on; once no fired frame is left and no header is outstanding the final
records and the changed lines of the wear table are written, and then PF_DONE is set and KN_PF_DONE raised (R344). -/
def Obligations.PowerFailureEndsWithPfDone : Prop :=
  ∀ s : State,
    (s.running = true → s.glb.pf = false → ∃ t, exec .pfNotice s = .next t ∧ t.glb.pf = true ∧ t.kennel.snaps = [] ∧
      t.fclk = s.fclk ∧ t.groups = s.groups) ∧
    (s.glb.pf = true →
      exec .pfNotice s = .next s.settle ∧
      (∀ p, exec (.frameFire p) s = .next s.settle ∧ exec (.prefireFire p) s = .next s.settle) ∧
      (∀ st, exec (.kennelSnapshot st) s = .next s.settle) ∧
      (∀ mem, exec (.kennelRecordWrite mem) s = .next s.settle) ∧
      (s.framesLeft = true ∨ s.kennel.writing ≠ none → ∀ mem, exec (.pfFinalRecords mem) s = .next s.settle) ∧
      (s.kennel.finals = false → s.framesLeft = false → s.kennel.writing = none →
        (s.kennel.active = false → ∀ mem, exec (.pfFinalRecords mem) s
          = .next ({ s with kennel := { s.kennel with finals := true } }).settle) ∧
        (s.kennel.active = true → ∀ mem, ∃ t, exec (.pfFinalRecords mem) s = .next t ∧ t.kennel.finals = true)) ∧
      (s.kennel.finals = true → s.kennel.pfDone = false →
        exec .pfDone s = .next (({ s with kennel := { s.kennel with pfDone := true } } : State).raise 57 5).settle) ∧
      (s.kennel.finals = false → exec .pfDone s = .next s.settle))

/-! ### Frames: firing, starting, committing, deadlines (R239 to R263, R274, R322) -/

/-- The calendar takes the waiter of earliest deadline, and of equal deadlines the one of lower entry (R249).

Firing: NEXT advances by P; the frame of a parked group or of an entry without BUDGET, or suspended, fires no compute; otherwise BUDGET
falls by 1, the fires of the members are counted, and the frame is fired at this edge (R247 to R250). A PREFIRE group fires ahead of its
close only while no closed entry waits (R241). A calendar fires at most one entry in an FCLK (R249). -/
def Obligations.FramesAreScheduledByDeadline : Prop :=
  (∀ ws : List Waiter,
      (firstWaiter ws = none ↔ ws = []) ∧
      ∀ w, firstWaiter ws = some w → w ∈ ws ∧ ∀ x ∈ ws,
        (∀ dx dw, x.due = some dx → w.due = some dw → dw ≤ dx ∧ (dw = dx → w.entry ≤ x.entry)) ∧
        (w.due = none → x.due = none ∧ w.entry ≤ x.entry)) ∧
  (∀ (p : Nat) (s : State), s.running = true → s.glb.pf = false → s.peer.inc = none →
      let noted (t : State) (g : Group) : State := t.updPack g.pack fun q => { q with firedAt := some s.fclk }
      ((s.pack p).firedAt = some s.fclk → exec (.frameFire p) s = .next s.settle ∧ exec (.prefireFire p) s = .next s.settle) ∧
      (s.dueToFire p = [] → exec (.frameFire p) s = .next s.settle) ∧
      (∀ w g, (s.pack p).firedAt ≠ some s.fclk → firstWaiter (s.dueToFire p) = some w → s.group? w.gid = some g → g.live = true →
        exec (.frameFire p) s = .next ((noted s g).fireFrame w.gid w.n).settle ∧ exec (.prefireFire p) s = .next s.settle) ∧
      (∀ w g, (s.pack p).firedAt ≠ some s.fclk → s.dueToFire p = [] → firstWaiter (s.prefireDue p) = some w → s.group? w.gid = some g → g.live = true →
        exec (.prefireFire p) s
          = .next ((noted (s.updGroup w.gid fun g => { g with frames := g.frames ++ [{ n := w.n }] }) g).fireFrame w.gid w.n).settle) ∧
      (s.dueToFire p = [] → s.prefireDue p = [] → exec (.prefireFire p) s = .next s.settle) ∧
      (∀ gid n g f e, s.group? gid = some g → s.frame? gid n = some f → (s.pack g.pack).entries.find? (fun x => x.1 == g.entry) = some e →
        let next := e.2.next + dword g.p
        let u := s.updPack g.pack fun q => { q with entries := q.entries.put g.entry { e.2 with next := next } }
        (g.parked ≠ none → s.fireFrame gid n = u.updFrame gid n fun f => { f with parked := true }) ∧
        (g.parked = none → (e.2.budget = 0 ∨ e.2.suspended = true) →
          s.fireFrame gid n = u.updFrame gid n fun f => { f with noBudget := true }) ∧
        (g.parked = none → e.2.budget ≠ 0 → e.2.suspended = false →
          let t := s.fireFrame gid n
          ((t.frame? gid n).map fun x => (x.phase, x.fire)) = some (.fired, some s.fclk) ∧
          (t.pack g.pack).entries.find? (fun x => x.1 == g.entry)
            = some (g.entry, { e.2 with next := next, budget := e.2.budget - 1 }) ∧
          (t.pack g.pack).calFires = (s.pack g.pack).calFires + word g.nmem ∧
          (e.2.budget = 1 → (t.hdr (16 + g.pack)).raw.getLsbD 4 = true))))

/-- A fired frame that is the oldest unfinished one of its group starts once its cores are free: it runs, and every slot's sequencer stands at
the entry of its program with the frame's steps (R243, R249, R269). -/
def Obligations.FiredFramesStartOnTheirCores : Prop :=
  ∀ (p : Nat) (s : State), s.running = true →
    (s.startable p = [] → exec (.frameStart p) s = .next s.settle) ∧
    ∀ w g f, firstWaiter (s.startable p) = some w → s.group? w.gid = some g → s.frame? w.gid w.n = some f →
      ∃ t, exec (.frameStart p) s = .next t ∧
        ((t.frame? w.gid w.n).map fun x => (x.phase, x.start)) = some (.running, some s.fclk) ∧
        (∀ k, k < g.nslot → (∀ j, j < g.nslot → g.core j = g.core k → j = k) →
          let q := (t.core (g.core k)).csq
          q.run = .frame w.gid w.n k ∧ q.prog = g.progs.getD k 0 ∧ q.steps = g.n ∧ q.ended = false ∧
            q.pc = (t.core (g.core k)).progEntry (g.progs.getD k 0) k) ∧
        (∀ c, c ∉ g.allCores → t.core c = s.core c)

/-- END collection makes a running frame whose slots have all ended ready. A frame that may commit commits: its cores are free again and the
committed frame is counted; outside a migration nothing else delays it (R160, R274, R322). -/
def Obligations.EndedFramesAreCollectedAndCommitted : Prop :=
  ∀ (gid : Nat) (s : State) (g : Group), s.running = true → s.group? gid = some g →
    (∀ f, g.runningFrame = some f → s.allEnded gid g f.n = true →
      exec (.endCollection gid) s = .next (s.updFrame gid f.n fun x => { x with phase := .ready }).settle) ∧
    (∀ f, g.runningFrame = some f → s.allEnded gid g f.n = false → exec (.endCollection gid) s = .next s.settle) ∧
    (s.committable gid g = none → exec (.frameCommit gid) s = .next s.settle) ∧
    (∀ f, s.committable gid g = some f → s.frame? gid f.n = some f → s.peer.out = none → s.peer.inc = none →
      let u := (s.updGroup gid fun x => { x with movable := x.movable || !x.moves.isEmpty }).commitFrame gid f.n
      exec (.frameCommit gid) s = .next (if g.shadow then u else u.kennelCommit gid f.n).settle ∧
      u.tele.frames = s.tele.frames + 1 ∧ (∀ c ∈ g.allCores, (u.core c).csq.run = .idle) ∧
      (f.late = false → u.tele.misses = s.tele.misses))

/-- The deadline of an unfinished frame: parked, it is counted as PARKED; without BUDGET it is a SERVICE miss; not started it is skipped and
counted as a CHAINED miss; running, its missing inputs take +0. In each case the fallback is released once (R247, R250, R260,
R262, R385). -/
def Obligations.DeadlinesReleaseTheFallbackOnce : Prop :=
  ∀ (gid : Nat) (s : State) (g : Group), s.running = true → s.group? gid = some g → s.peer.inc = none →
    (s.overdue g = none → exec (.frameDeadline gid) s = .next s.settle) ∧
    (∀ n f, s.frame? gid n = some f → f.late = true → s.releaseFallback gid n = (s, false)) ∧
    ∀ f, s.overdue g = some f → s.frame? gid f.n = some f → s.glb.pf = false →
      let e := Sparse.get default (s.pack g.pack).entries g.entry
      let finished (r : State × Bool) : State := r.1.finish gid f.n 0 (4 + 16 * b2n r.2) false
      let unfired := f.phase = .closed ∧ f.parked = false ∧ f.noBudget = false
      let starved := e.budget = 0 ∨ e.suspended = true
      let v := s.fireFrame gid f.n
      let w := s.updEntry g fun x => { x with next := x.next + dword g.p }
      let park (t : State) : State := finished ((t.leashAll g fun l => { l with parked := satAdd 0xFFFF l.parked 1 }).releaseFallback gid f.n)
      let starve (t : State) : State := finished ((t.missOf gid g f.n 5 0).releaseFallback gid f.n)
      let skip (t : State) : State := finished ((((t.leashAll g fun l => { l with skips := satAdd 0xFFFF l.skips 1 }).missOf gid g f.n 1
        0).discardWork gid f.n).releaseFallback gid f.n)
      (f.parked = true → exec (.frameDeadline gid) s = .next (park s).settle) ∧
      (unfired → g.parked ≠ none → exec (.frameDeadline gid) s = .next (park v).settle) ∧
      (f.parked = false → f.noBudget = true → exec (.frameDeadline gid) s = .next (starve s).settle) ∧
      (unfired → g.parked = none → starved → exec (.frameDeadline gid) s = .next (starve v).settle) ∧
      (unfired → g.parked = none → ¬ starved → exec (.frameDeadline gid) s = .next (skip w).settle) ∧
      (f.parked = false → f.noBudget = false → f.phase = .fired → exec (.frameDeadline gid) s = .next (skip s).settle) ∧
      (f.parked = false → f.noBudget = false → f.phase ≠ .fired → f.phase ≠ .closed → exec (.frameDeadline gid) s
        = .next (let q := (s.fillMissing g f).releaseFallback gid f.n
                 q.1.updFrame gid f.n fun x => { x with late := true, regress := q.2 }).settle)

/-- Sheepdog restores BUDGET to 256 on every entry of a pack (R250); the governor grants what LIMIT leaves above DL_POWER, counts the windows it
slows, and raises THROTTLED when slowing begins (R434); the trace reports its dropped records once room returns (R405); chosen
standby cores are taken once a frame has committed and none is fired (R255). -/
def Obligations.BudgetsWindowsAndStandbyMoves : Prop :=
  ∀ s : State, s.running = true →
    (∀ p, s.early = true → s.sd.restart = false → p < s.conf.packs → exec (.budgetRestore p) s
      = .next (s.updPack p fun q => { q with entries := q.entries.map fun (e : Nat × CalEntry) => (e.1, { e.2 with budget := 256 }) }).settle) ∧
    (∀ slowed : Bool, s.early = true → exec (.governorWindow slowed) s
      = .next (({ s with power := { s.power with
          grant := s.power.limit.toNat % 65536 - s.power.dlPower
          throttle := if slowed then satWord s.power.throttle 1 else s.power.throttle
          slowed := slowed } } : State).raiseIf (slowed && !s.power.slowed) 2 1).settle) ∧
    (s.traceGap ≠ 0 → s.trace.length < 256 → exec .traceLostRecord s = .next ({ s with
      trace := s.trace ++ [(⟨0x0F, s.fclk % 2 ^ 48, 0xFF, min 0xFFFF s.traceGap, 0, 0⟩ : TraceRec)], traceGap := 0 }).settle) ∧
    ((s.traceGap = 0 ∨ 256 ≤ s.trace.length) → exec .traceLostRecord s = .next s.settle) ∧
    (∀ gid g k m, s.group? gid = some g → g.moves = [(k, m)] → g.movable = true →
      (∀ f ∈ g.frames, f.phase = .closed ∨ f.phase = .finished) → ∃ t, exec (.standbyMove gid) s = .next t ∧
        ((t.group? gid).map fun h => (h.cores, h.moves, h.movable)) = some (g.cores.set k m, [], false)) ∧
    (∀ gid g, s.group? gid = some g → g.moves = [] ∨ g.movable = false → exec (.standbyMove gid) s = .next s.settle)

/-! ### Best-effort jobs (R256 to R258, R292) -/

/-- A ready job whose slot cores are all free starts on all of them together, at the entries of its slots; outside full service and in the
power-fail state none starts (R62, R292, R344, R412). -/
def Obligations.ReadyJobsStartOnFreeCores : Prop :=
  ∀ (c : Nat) (s : State),
    (s.jobsRun = false → exec (.jobStart c) s = .next s.settle) ∧
    (s.jobsRun = true → s.jobToStart c = none → exec (.jobStart c) s = .next s.settle) ∧
    ∀ r j, s.jobsRun = true → s.jobToStart c = some r → s.job? r = some j → ∃ t, exec (.jobStart c) s = .next t ∧
      t.job? r = some { j with stage := .running, held := [], ended := [], saved := [], cnts := [] } ∧
      (∀ k, (h : k < j.slots.length) → (∀ i, (hi : i < j.slots.length) → j.slots[i].core = j.slots[k].core → i = k) →
        let q := (t.core j.slots[k].core).csq
        q.run = .job r k ∧ q.prog = j.slots[k].prog ∧ q.ended = false ∧
          q.pc = (s.core j.slots[k].core).progEntry j.slots[k].prog k) ∧
      (∀ d, d ∉ j.cores → t.core d = s.core d)

/-- A preemption request reaches a core that runs best-effort work once its latest start has come (R257). At a preemption point a slot stops;
when the last slot of the job has stopped, the job is displaced, parked, aborted or, in the power-fail state, discarded, and its
cores are free (R256, R128, R222, R307, R344); a memory error on its save area ends it with MEMERR (R295), and a slot that stands at the
last END in the FCLK of its ABORT does not stop (R307).

What a displaced job keeps and frees (R256): its stage, a copy of every slot's sequencer, arrays and state registers, and no core that runs
it. It resumes, once its cores are free, with what was kept (R258). -/
def Obligations.JobsAreDisplacedAndResume : Prop :=
  (∀ (c : Nat) (s : State), s.running = true →
      (∀ r slot, (s.core c).csq.run = .job r slot → s.startPending c = true → s.lstPassed c = true →
        exec (.preemptLstTimer c) s = .next (s.updCore c fun k => { k with preempt := true }).settle) ∧
      ((s.startPending c = false ∨ s.lstPassed c = false) → exec (.preemptLstTimer c) s = .next s.settle) ∧
      (∀ r slot j mem, (s.core c).csq.run = .job r slot → s.job? r = some j → s.jobStops j = true → s.lastEnd j c = false →
        j.held.contains slot = false → (s.core c).csq.rread = none → (s.core c).csq.remote = 0 →
        let h : Job := { j with held := j.held ++ [slot] }
        let u := s.updJob r fun _ => h
        (j.held.length + 1 ≠ j.slots.length → exec (.preemptionPoint ⟨c, mem⟩) s = .next u.settle) ∧
        (j.held.length + 1 = j.slots.length → s.glb.pf = false → j.abortAt = none → j.parking = none →
          exec (.preemptionPoint ⟨c, .ok⟩) s
            = .next ((j.slots.zipIdx.foldl (fun t (sl, _) => t.traceRec 6 sl.core r 0 0) u).saveJob r h .displaced).settle) ∧
        (j.held.length + 1 = j.slots.length → s.glb.pf = false → j.abortAt = none → j.parking = some .parkedRes →
          exec (.preemptionPoint ⟨c, .ok⟩) s = .next (u.saveJob r h .parkedRes).settle) ∧
        (j.held.length + 1 = j.slots.length → s.glb.pf = false → j.abortAt = none → mem ≠ .ok → ∃ a, exec (.preemptionPoint ⟨c, mem⟩) s
          = .next ((u.memErr mem true a .best).endJob r { status := 0x48 }).settle) ∧
        (j.held.length + 1 = j.slots.length → s.glb.pf = false → j.abortAt ≠ none → ∃ pc, exec (.preemptionPoint ⟨c, mem⟩) s
          = .next (u.endJob r { status := 0x42, offset := 32 * pc }).settle) ∧
        (j.held.length + 1 = j.slots.length → s.glb.pf = true → ∃ v : State, exec (.preemptionPoint ⟨c, mem⟩) s = .next v.settle ∧
          v.jobs = u.jobs.del r ∧ v.host = s.host ∧ v.hostOpen = s.hostOpen)) ∧
      (∀ r slot j mem, (s.core c).csq.run = .job r slot → s.job? r = some j →
        (s.jobStops j = false ∨ s.lastEnd j c = true ∨ (s.core c).csq.rread ≠ none ∨ (s.core c).csq.remote ≠ 0) →
        exec (.preemptionPoint ⟨c, mem⟩) s = .next s.settle)) ∧
  (∀ (r : Nat) (s : State) (j : Job), s.job? r = some j →
      (∀ st, ((s.saveJob r j st).job? r).map (fun x => (x.stage, x.held, x.parking)) = some (st, [], none) ∧
        (∀ c ∈ j.cores, ∀ k, ((s.saveJob r j st).core c).csq.run ≠ .job r k) ∧
        (((s.saveJob r j st).job? r).map fun x => x.saved) = some (j.slots.zipIdx.map fun (sl, k) => (k, s.savedSlot sl.core))) ∧
      (s.jobsRun = false → ∀ mem, exec (.jobResume ⟨r, mem⟩) s = .next s.settle) ∧
      (j.stage ≠ .displaced → ∀ mem, exec (.jobResume ⟨r, mem⟩) s = .next s.settle) ∧
      (s.jobsRun = true → j.stage = .displaced → j.cores.all s.coreFree = true → ∃ u : State,
        exec (.jobResume ⟨r, .ok⟩) s = .next (u.resumeRtvs r).settle ∧ u.job? r = some { j with stage := .running, saved := [] } ∧
        ∀ k v, (h : k < j.slots.length) → (∀ i, (hi : i < j.slots.length) → j.slots[i].core = j.slots[k].core → i = k) →
          j.saved.find? (fun x => x.1 == k) = some (k, v) →
          let q := u.core j.slots[k].core
          q.csq.run = v.csq.run ∧ q.csq.pc = v.csq.pc ∧ q.csq.tokens = v.csq.tokens ∧ q.csq.gens = v.csq.gens ∧ q.sregs = v.sregs))

/-! ### Rings, descriptors and groups (R244 to R247, R264, R281 to R307) -/

/-- DB_LO stages the low word of a tail, DB_HI presents it: a doorbell that R284 accepts moves TAIL, one that it refuses changes no tail,
answers DENIED, raises DB_REJECT and fills DB_REJ while that is free.

CREATE of an absent ring whose record is good makes the ring that the record describes and writes its head line; a ring that exists, a
failed read or a bad record is reported in RING_STAT. DESTROY takes away a stopped, drained ring that holds no reference, and reports RING_BUSY for
any other that exists (R282, R283, R309, R314). -/
def Obligations.RingsAndDoorbells : Prop :=
  (∀ (r : Nat) (v : Word) (acc : Acc) (s : State), r < 4096 → s.running = true → s.early = true →
      let x := s.ring r
      let tail : DWord := v ++ x.staged
      exec (.dbLo r v acc) s = .next ((s.answered acc).updRing r fun y => { y with staged := v }).settle ∧
      (x.refuses tail acc = none → exec (.dbHi r v acc) s = .next ((s.answered acc).updRing r fun y => { y with tail := tail }).settle) ∧
      (∀ why, x.refuses tail acc = some why → ∃ t, exec (.dbHi r v acc) s = .next t ∧ t.cfgResp = (1, 0) ∧
        t.ring r = { x with staged := x.tail.truncate 32 } ∧ (t.hdr 1).raw = (s.hdr 1).raw ||| 1#32 ∧
        t.sd.dbRej = (if s.sd.dbRej.getLsbD 0 then s.sd.dbRej else word (1 + why * 2 + r * 16 + acc.ctx.toNat * 65536))) ∧
      (x.refuses tail acc = some 0 ↔ x.st = .absent) ∧
      (x.refuses tail acc = some 1 ↔ x.st ≠ .absent ∧ acc.ctx ≠ x.ctx ∧ acc.priv = false) ∧
      (x.refuses tail acc = some 2 → 2 ^ 63 ≤ (tail - x.tail).toNat) ∧
      (x.refuses tail acc = none → x.cls ≠ 3 → (tail - dword x.completed).toNat ≤ 2 ^ x.log2n)) ∧
  (∀ (r : Nat) (acc : Acc) (s : State), r < 4096 → s.grants 0x1088 acc = true →
      let rec_ := s.hostRead (addr48 s.sd.recLo s.sd.recHi / 64 * 64) 64
      (∀ mem, (s.ring r).st ≠ .absent → exec (.create r acc mem) s = .next ((s.answered acc).ringResult r 1).settle) ∧
      ((s.ring r).st = .absent →
        (s.ringFieldsOk rec_ = true → fieldAt rec_ 1 1 = 1 → fieldAt rec_ 0 1 = 0 → exec (.create r acc .ok) s
          = .next ((((s.answered acc).updRing r fun _ => ringOf rec_).writeHead r).ringResult r 0).settle) ∧
        (s.ringFieldsOk rec_ = true → (fieldAt rec_ 1 1 ≠ 1 ∨ fieldAt rec_ 0 1 ≠ 0) →
          exec (.create r acc .ok) s = .next ((s.answered acc).ringResult r 5).settle) ∧
        (s.ringFieldsOk rec_ = false → exec (.create r acc .ok) s = .next ((s.answered acc).ringResult r 4).settle) ∧
        (∀ mem, mem ≠ .ok → exec (.create r acc mem) s
          = .next (((s.answered acc).memErr mem false (addr48 s.sd.recLo s.sd.recHi) .control).ringResult r 3).settle) ∧
        exec (.destroy r acc) s = .next ((s.answered acc).ringResult r 2).settle) ∧
      ((s.ring r).st = .stopped → (s.ring r).burst = none → (s.ring r).inbox = [] → (s.ring r).queue = [] →
        (s.ring r).completed = (s.ring r).fetched → s.ringHolds r = false →
        exec (.destroy r acc) s = .next (({ (s.answered acc) with rings := s.rings.del r } : State).ringResult r 0).settle) ∧
      ((s.ring r).st ≠ .absent → ((s.ring r).st ≠ .stopped ∨ (s.ring r).burst ≠ none ∨ (s.ring r).queue ≠ [] ∨ (s.ring r).inbox ≠ [] ∨
          (s.ring r).completed ≠ (s.ring r).fetched ∨ s.ringHolds r = true) →
        exec (.destroy r acc) s = .next ((s.answered acc).ringResult r 6).settle) ∧
      (∀ (t : State) (code : Nat), (t.ringResult r code).sd.ringStat = word (code * 16 + r * 256) ∧
        (t.ringResult r code).hdr 1 = (t.raise 1 3).hdr 1))

/-- Fetch, acceptance and completion. The served ring asks for one burst of at most 8 descriptors (R285). An accepted descriptor joins the queue
of its ring, with the status of the first check of R289 that it fails, a JOB or an ARM with the references that it takes (R303); the head of a ring whose wait is met and which is not done may
run, a wait that is not met expires with TIMEOUT (R301), and a done head is completed: COMPLETED passes it and the next becomes due
(R286, R294). -/
def Obligations.DescriptorsAreFetchedAcceptedAndCompleted : Prop :=
  ∀ (r : Nat) (s : State), s.running = true →
    (s.nextRing = none ∨ s.glb.pf = true ∨ s.sd.restart = true ∨ s.early = false →
      exec .descriptorFetch s = .next s.settle) ∧
    (s.nextRing = some r → s.glb.pf = false → s.sd.restart = false → s.early = true →
      let x := s.ring r
      let n := min 8 (min x.unfetched (x.nent - x.fetched % x.nent))
      ∃ t, exec .descriptorFetch s = .next t ∧ (t.ring r) = { x with burst := some (x.fetched, n, n, []) } ∧ t.sd = s.sd) ∧
    (∀ seq w err rest, s.sd.restart = false → (s.ring r).inbox = (seq, w, err) :: rest → (s.ring r).queue ≠ [] →
      let x := s.ring r
      let d : Desc := { seq := seq, w := w, accepted := s.fclk }
      let taken := s.updRing r fun y => { y with inbox := rest }
      let joins (t : State) (e : Desc) : Prop :=
        exec (.descriptorAccept r .ok) s = .next (t.updRing r fun y => { y with queue := y.queue ++ [e] }).settle
      let beyond := d.opc = 0x11 ∧ ∃ g, s.group? d.target = some g ∧ d.beyond g.nslot = true
      (err = true → joins taken { d with done := some { status := 0x48, signal := false } }) ∧
      (err = false →
        (headerBad d = true → joins taken { d with done := some { status := 0x43, signal := false } }) ∧
        (headerBad d = false → classBad x d = true → joins taken { d with done := some { status := 0x44, signal := false } }) ∧
        (headerBad d = false → classBad x d = false → s.fenceBad x d = true →
          joins taken { d with done := some { status := 0x45, signal := false } }) ∧
        (headerBad d = false → classBad x d = false → s.fenceBad x d = false → (bodyBad d = true ∨ beyond) →
          joins taken { d with done := some { status := 0x43 } }) ∧
        (headerBad d = false → classBad x d = false → s.fenceBad x d = false → bodyBad d = false → ¬beyond →
          (s.targetBad x d = true → joins taken { d with done := some { status := 0x46 } }) ∧
          (s.targetBad x d = false →
            (d.opc ≠ 1 → d.opc ≠ 0x11 → joins taken d) ∧
            (d.opc = 0x11 → s.group? d.target = none → joins taken d) ∧
            (∀ g, d.opc = 0x11 → s.group? d.target = some g →
              joins (taken.takeRefs (s.armRefs (g.named d))) { d with refs := s.armRefs (g.named d) }) ∧
            (∀ c, d.opc = 1 → s.acceptJob x d .ok = .inl c → joins taken { d with done := some c }) ∧
            (∀ seed slots os, d.opc = 1 → s.acceptJob x d .ok = .inr (seed, slots, os) →
              joins (taken.takeRefs os) { d with refs := os, seed := seed, slots := slots }))))) ∧
    (∀ d rest, (s.ring r).queue = d :: rest → d.due ≠ none → d.waits = true → d.met = false → d.done = none →
      (d.expiry ≤ s.fclk → exec (.waitTimeout r) s = .next (s.finishHead r { status := 0x41 }).settle) ∧
      (s.fclk < d.expiry → exec (.waitTimeout r) s = .next s.settle)) ∧
    (∀ d rest c, (s.ring r).queue = d :: rest → d.done = some c → ∃ t, exec (.completion r) s = .next t ∧
      (t.ring r).completed = (d.seq + 1) % 2 ^ 64 ∧ (t.ring r).queue.length = rest.length ∧
      (t.ring r).tail = (s.ring r).tail ∧ (t.ring r).fetched = (s.ring r).fetched) ∧
    ((s.ring r).queue = [] → exec (.completion r) s = .next s.settle ∧ exec (.waitTimeout r) s = .next s.settle)

/-- The command at the head of a ring runs only as its own row; a row whose command does not stand at the head, or whose wait is not met,
changes nothing. NOP, FENCE_INIT, RESUME, PARK and UNPARK complete with OK (R247, R288, R297, R307). -/
def Obligations.HeadCommandsRunAndComplete : Prop :=
  ∀ (r : Nat) (s : State),
    (s.headFor r 0x00 = none → exec (.descNop r) s = .next s.settle) ∧
    (s.headFor r 0x01 = none → exec (.job r) s = .next s.settle) ∧
    (∀ mem, s.headFor r 0x10 = none → exec (.reserve r mem) s = .next s.settle) ∧
    (∀ mem, s.headFor r 0x11 = none → exec (.arm r mem) s = .next s.settle ∧ exec (.armAfterScan r mem) s = .next s.settle) ∧
    (s.headFor r 0x12 = none → exec (.release r) s = .next s.settle) ∧
    (∀ mem, s.headFor r 0x13 = none → exec (.query r mem) s = .next s.settle) ∧
    (s.headFor r 0x14 = none → exec (.reclaim r) s = .next s.settle) ∧
    (s.headFor r 0x20 = none → exec (.stop r) s = .next s.settle) ∧
    (s.headFor r 0x21 = none → exec (.abort r) s = .next s.settle) ∧
    (s.headFor r 0x23 = none → exec (.quiesce r) s = .next s.settle) ∧
    (∀ d, s.headFor r 0x00 = some d → exec (.descNop r) s = .next (s.finishHead r { status := 0 }).settle) ∧
    (∀ d, s.headFor r 0x01 = some d → d.started = false →
      exec (.job r) s = .next (({ s with jobs := s.jobs.put r { seed := d.seed, slots := d.slots } } : State).startHead r).settle) ∧
    (∀ d, s.headFor r 0x01 = some d → d.started = true → exec (.job r) s = .next s.settle) ∧
    (∀ d, s.headFor r 0x15 = some d →
      let v := dword (d.by 40 8)
      let t := s.setFence d.target { value := v, ctx := BitVec.ofNat 16 (d.by 34 2), seen := v, edge := s.fclk, base := v }
      exec (.fenceInit r) s = .next (t.finishHead r { status := 0 }).settle ∧
        ((t.fence? d.target).map fun f => (f.value, f.ctx)) = some (v, BitVec.ofNat 16 (d.by 34 2))) ∧
    (∀ d, s.headFor r 0x22 = some d → exec (.resume r) s = .next ((s.resumeRing d.target).finishHead r { status := 0 }).settle ∧
      ((s.ring d.target).st ≠ .absent → ((s.resumeRing d.target).ring d.target).st = .active) ∧
      (∀ j, s.job? d.target = some j → ((s.resumeRing d.target).job? d.target).map (fun x => x.stage)
        = some (if j.stage = .parkedNan ∨ j.stage = .parkedRes then .displaced else j.stage))) ∧
    (∀ d, s.headFor r 0x24 = some d →
      exec (.park r) s = .next ((s.updGroup d.target fun g => { g with parked := some (g.parked.getD .software) }).finishHead r
        { status := 0 }).settle) ∧
    (∀ d, s.headFor r 0x25 = some d →
      exec (.unpark r) s = .next ((s.updGroup d.target fun g => { g with parked := none }).finishHead r { status := 0 }).settle)

/-- STOP stops its ring once no burst is in flight; QUIESCE stops every ring of a context and completes once all its jobs are quiet; ABORT
completes with ABORTED what has not started, and a RELEASE frees a reservation at once and an armed group at its next commit or discard,
or while it is parked, once no fired frame is left (R245, R307). -/
def Obligations.StopAbortQuiesceAndRelease : Prop :=
  ∀ (r : Nat) (s : State) (d : Desc),
    (s.headFor r 0x20 = some d → d.started = false →
      ((s.ring d.target).burst = none →
        exec (.stop r) s = .next ((s.stopRing d.target).finishHead r { status := 0 }).settle) ∧
      ((s.ring d.target).burst ≠ none → exec (.stop r) s = .next ((s.stopRing d.target).startHead r).settle)) ∧
    ((s.ring d.target).st ≠ .absent →
      ((s.stopRing d.target).ring d.target).st = if (s.ring d.target).burst = none then .stopped else .changing) ∧
    (s.headFor r 0x21 = some d → d.started = false → s.job? d.target = none → d.target ≠ r → ∃ t, exec (.abort r) s = .next t ∧
      (t.ring d.target).inbox = [] ∧
      ∀ e ∈ (t.ring d.target).queue, e.started = true ∨ e.done ≠ none) ∧
    (s.headFor r 0x23 = some d → d.started = false →
      let u := ((s.ringsOf (d.by 32 2)).foldl State.stopRing s).startHead r
      exec (.quiesce r) s = .next (if u.quiet (d.by 32 2) then u.finishHead r { status := 0 } else u).settle) ∧
    (s.headFor r 0x12 = some d →
      (s.group? d.target = none → exec (.release r) s = .next (s.finishHead r { status := 0x46 }).settle) ∧
      (∀ g, s.group? d.target = some g → g.stage = .reserved →
        exec (.release r) s = .next ((s.freeGroup d.target).finishHead r { status := 0 }).settle) ∧
      (∀ g, s.group? d.target = some g → g.stage = .armed → exec (.release r) s
        = .next ((s.setGroup d.target { g with stage := .releasing, releaser := some r, freeable := false }).startHead r).settle)) ∧
    (∀ gid g, s.group? gid = some g → g.stage = .releasing → (g.freeable = true ∨ g.parked ≠ none) → g.drained = true →
      (∀ q, g.releaser = some q →
        exec (.groupReleaseEffect gid) s = .next (((s.kennelForget gid).freeGroup gid).finishHead q { status := 0 }).settle) ∧
      (g.releaser = none → exec (.groupReleaseEffect gid) s = .next ((s.kennelForget gid).freeGroup gid).settle)) ∧
    (∀ gid g, s.group? gid = some g → (g.stage ≠ .releasing ∨ (g.freeable = false ∧ g.parked = none) ∨ g.drained = false) →
      exec (.groupReleaseEffect gid) s = .next s.settle)

/-- RESERVE completes with the first failing check of R246, or reserves the placed group, locks its pages and reports its cost and place; ARM
completes with its first failing check, or arms the group, waiting for Kennel's scan where a member is to be replayed; an armed group
holds an entry of its pack's calendar whose next close is the first that its time base has not passed (R242, R245, R248, R254, R420). -/
def Obligations.GroupsAreReservedAndArmed : Prop :=
  ∀ (r : Nat) (s : State) (d : Desc),
    (s.headFor r 0x10 = some d →
      let a := d.by 32 8
      let b := s.hostRead a (64 + 16 * min (s.hostNat (a + 4) 2) 512)
      (∀ c, s.admission b = .inl c →
        exec (.reserve r .ok) s = .next ((s.admitTrace (s.hostNat (a + 64) 2) c).finishHead r c).settle) ∧
      (∀ g, s.admission b = .inr g → ∃ t, exec (.reserve r .ok) s = .next t ∧ t.group? g.gid = some g ∧
        ∀ q rest, (s.ring r).queue = q :: rest → (t.ring r).queue = { q with done := some {
          status := 0, aux32 := min g.eg 0xFFFFFFFF
          aux64 := g.wg % 2 ^ 32 + g.pack * 2 ^ 32 + g.coresField * 2 ^ 40 } } :: rest) ∧
      (∀ mem, mem ≠ .ok → exec (.reserve r mem) s
        = .next ((s.memErr mem false a .control).finishHead r { status := 0x48 }).settle)) ∧
    (∀ mem, s.headFor r 0x11 = some d →
      let both (t : State) : Prop := (d.started = false → exec (.arm r mem) s = .next t) ∧
        (d.started = true → s.kennel.scanning = false → exec (.armAfterScan r mem) s = .next t)
      (∀ c, s.armCheck d = .inl c → both ((s.admitTrace d.target c).finishHead r c).settle) ∧
      (∀ g, s.armCheck d = .inr g → s.armWaits g = true → both (s.startHead r).settle) ∧
      (∀ g, s.armCheck d = .inr g → s.armWaits g = false →
        both ((((s.updRing r fun x => x.updHead fun e => { e with refs := [] }).armGroup d.target { g with armer := some r } d.refs
          mem).admitTrace d.target { status := 0 }).finishHead r { status := 0 }).settle)) ∧
    (∀ gid g held mem, s.kennel.active = false →
      let t := s.armGroup gid g held mem
      let n := s.firstFrame g
      ((t.group? gid).map fun x => (x.stage, x.nextClose, x.oldest, x.frames, x.gens)) = some (.armed, n, n, [], seedGens g.seed g.nslot) ∧
      ∃ i e, (t.pack g.pack).entries.find? (fun x => x.1 == i) = some (i, e) ∧ e.next = dword (g.closeAt n) ∧ e.p = g.p ∧
        e.budget = 256 ∧ e.suspended = false)

/-- QUERY writes the statistics record of a stream of an admitted group and resets SLACK_MIN (R264). RECLAIM is refused while the new
generation is in use, and otherwise advances the generation through a table commit (R305). An object whose references are all gone is
reported once, by a NOTIFY record, when the host holds none either (R304). -/
def Obligations.QueriesReclaimsAndObjectRecords : Prop :=
  ∀ (r : Nat) (s : State) (d : Desc),
    (s.headFor r 0x13 = some d →
      ((s.groups.any fun e => e.2.members.any fun m => m.stream == d.target) = false → ∀ mem,
        exec (.query r mem) s = .next (s.finishHead r { status := 0x46 }).settle) ∧
      ((s.groups.any fun e => e.2.members.any fun m => m.stream == d.target) = true →
        exec (.query r .ok) s = .next (((s.hostWrite (d.by 40 8) (s.leashOf d.target).bytes).updLeash d.target fun l =>
          { l with slackMin := 0x7FFFFFFF#32 }).finishHead r { status := 0 }).settle)) ∧
    (s.headFor r 0x14 = some d → d.started = false →
      let c := d.by 32 1 % 32
      let i := d.by 33 1
      let gen := (s.objGen (objIdx c i) + 1) % 256
      ((objIdx c i, gen) ∈ s.sd.refs → exec (.reclaim r) s = .next (s.finishHead r { status := 0x49 }).settle) ∧
      ((objIdx c i, gen) ∉ s.sd.refs → (s.core c).held = none → exec (.reclaim r) s
        = .next ((s.startHead r).commitEntry c ⟨false, i,
            (Sparse.get (0 : DWord) (s.core c).handles i &&& ~~~0xFF00#64) ||| dword (gen * 256), some r⟩).settle)) ∧
    (∀ o, s.sd.freed.contains o = false → ∀ mem, exec (.objectRecord o mem) s = .next s.settle) ∧
    (∀ o, s.sd.freed.contains o = true →
      let u : State := { s with sd := { s.sd with freed := s.sd.freed.erase o } }
      let a := addr48 s.sd.objLo s.sd.objHi + 16 * o
      (s.hostNat a 4 = 0 → s.sd.objNotify.getLsbD 15 = true → exec (.objectRecord o .ok) s
        = .next (u.notify (wbits s.sd.objNotify 11 0) { tag := o, status := 0, kind := 2, aux32 := s.objGen o }).settle) ∧
      ((s.hostNat a 4 ≠ 0 ∨ s.sd.objNotify.getLsbD 15 = false) →
        exec (.objectRecord o .ok) s = .next u.settle) ∧
      (∀ mem, mem ≠ .ok → exec (.objectRecord o mem) s = .next (u.memErr mem false a .control).settle))

/-! ### Task instructions (R134 to R193) -/

/-- The core and the opcode of a task-instruction row. -/
def Sys2Proof.Instr.task : Instr → Option (Nat × Op)
  | .nop c => some (c, .nop)
  | .endSlot c => some (c, .endOp)
  | .loadw c => some (c, .loadw)
  | .matmul c => some (c, .matmul)
  | .matvec c => some (c, .matvec)
  | .recur c => some (c, .recur)
  | .scan c => some (c, .scan)
  | .lconv c => some (c, .lconv)
  | .gate c => some (c, .gate)
  | .func c => some (c, .func)
  | .reduceSeq c => some (c, .reduce)
  | .convert c => some (c, .convert)
  | .move c => some (c, .move)
  | .qpush c => some (c, .qpush)
  | .qpop c => some (c, .qpop)
  | .waitCnt c => some (c, .wait)
  | .signalCnt c => some (c, .signal)
  | .branch c => some (c, .branch)
  | .summary c => some (c, .summary)
  | _ => none

/-- The instruction at the program counter of core `c` has opcode `o`, the core may issue it, what must complete before it has completed, and it
passes every check at issue. -/
def Sys2Proof.Machine.State.issues (s : State) (c : Nat) (o : Op) : Prop :=
  s.canIssue c = true ∧ (s.vctx c).inside = true ∧ IWord.opc (s.vctx c).w = some o ∧ s.earlierDone c o = true ∧
    s.preIssue (s.vctx c) o = .go

/-- The state in which an issued instruction acts: it is the instruction last issued, and a wait before it has ended. -/
def Sys2Proof.Machine.State.opened (s : State) (c : Nat) (o : Op) : State :=
  let t := s.updCore c fun k => { k with csq := { k.csq with last := (s.vctx c).i } }
  if o = .wait ∨ o = .qpush ∨ o = .qpop then t else t.endFeed c

/-- A row of another opcode than the one at the program counter changes nothing; an instruction whose validation fails ends its run with the
status at its byte offset, one that waits for its input begins its wait, and one that would read a line in error is a fault of its run
(R160, R180, R191, R193, R315, R385). END and SIGNAL wait for the acknowledgement of every remote write (R185, R190), and every other
control or synchronisation instruction for that of the instruction before it (R180). -/
def Obligations.InstructionsIssueWaitFailOrFault : Prop :=
  ∀ (i : Instr) (c : Nat) (o : Op) (s : State), i.task = some (c, o) →
    ((s.vctx c).inside = true → IWord.opc (s.vctx c).w = some o → s.earlierDone c o = false → exec i s = .next s.settle) ∧
    (s.earlierDone c .endOp = true ↔ (s.core c).csq.remote = 0) ∧ (s.earlierDone c .signal = true ↔ (s.core c).csq.remote = 0) ∧
    (∀ p ∈ [Op.nop, Op.wait, Op.branch, Op.summary, Op.qpush, Op.qpop], s.earlierDone c p = true ↔
      (∀ w ∈ s.rwrites, ¬(w.src = c ∧ w.epoch = (s.core c).csq.epoch ∧ w.pc = (s.core c).csq.last)) ∧
      ∀ a ∈ s.racks, ¬(a.core = c ∧ a.epoch = (s.core c).csq.epoch ∧ a.pc = (s.core c).csq.last)) ∧
    (s.canIssue c = false → exec i s = .next s.settle) ∧
    ((s.vctx c).inside = true → (∃ p, IWord.opc (s.vctx c).w = some p ∧ p ≠ o) → exec i s = .next s.settle) ∧
    (s.canIssue c = true → (s.vctx c).inside = true → IWord.opc (s.vctx c).w = some o → s.earlierDone c o = true →
      (∀ st, s.preIssue (s.vctx c) o = .fail st →
        exec i s = .next (s.failRun c st (32 * (s.core c).csq.pc) .program).settle) ∧
      (∀ l, s.preIssue (s.vctx c) o = .fault l → exec i s = .next (s.fault c .spd l 0).settle) ∧
      (s.preIssue (s.vctx c) o = .wait → exec i s = .next (s.noteWait c).settle)) ∧
    (s.canIssue c = true → (s.vctx c).inside = false →
      exec (.nop c) s = .next (s.failRun c 0x0F (32 * (s.core c).csq.pc) .program).settle) ∧
    (s.canIssue c = true → (s.vctx c).inside = true → IWord.opc (s.vctx c).w = none →
      exec (.nop c) s = .next (s.failRun c 0x01 (32 * (s.core c).csq.pc) .program).settle)

/-- LOADW, MATMUL, MATVEC, RECUR, SCAN, LCONV, GATE, FUNC, REDUCE and CONVERT complete when issued, each with its own effect on its core:
scratchpad, arrays, state registers, generators, summary records, open slots and broadcast register are those of its effect, the
program counter moves on by one, and no other core changes (R138, R149, R152, R168 to R177, R180). -/
def Obligations.DataInstructionsHaveTheirEffect : Prop :=
  ∀ (c : Nat) (s : State),
    let w := (s.vctx c).w
    let k (o : Op) : Core := (s.opened c o).core c
    let after (e : Eff) (t : State) : Prop :=
      (t.core c).spd = e.k.spd ∧ (t.core c).mxas = e.k.mxas ∧ (t.core c).sregs = e.k.sregs ∧ (t.core c).handles = e.k.handles ∧
      (t.core c).csq.gens = e.k.csq.gens ∧ (t.core c).csq.srs = e.k.csq.srs ∧ (t.core c).csq.slots = e.k.csq.slots ∧
      (t.core c).csq.pc = e.k.csq.pc + 1 ∧ (t.core c).hist = e.k.hist ∧ (t.core c).bcast = e.k.bcast ∧ (t.core c).wlog = [] ∧
      (∀ d, d ≠ c → t.core d = s.core d) ∧ t.packs = s.packs ∧ t.rings = s.rings ∧ t.peer = s.peer ∧ t.kennel = s.kennel
    (s.issues c .loadw → ∃ t, exec (.loadw c) s = .next t ∧ after (loadwEff (k .loadw) w) t) ∧
    (s.issues c .matmul → ∃ t, exec (.matmul c) s = .next t ∧ after (productEff (k .matmul) w s.conf.hist) t) ∧
    (s.issues c .matvec → ∃ t, exec (.matvec c) s = .next t ∧ after (matvecEff (k .matvec) w s.conf.hist) t) ∧
    (s.issues c .recur → ∃ t, exec (.recur c) s = .next t ∧ after (recurEff (k .recur) w s.conf.hist) t) ∧
    (s.issues c .scan → ∃ t, exec (.scan c) s = .next t ∧ after (scanEff (k .scan) w s.conf.hist) t) ∧
    (s.issues c .lconv → ∃ t, exec (.lconv c) s = .next t ∧ after (lconvEff (k .lconv) w s.conf.hist) t) ∧
    (s.issues c .gate → ∃ t, exec (.gate c) s = .next t ∧ after (gateEff (k .gate) w s.conf.hist) t) ∧
    (s.issues c .func → ∃ t, exec (.func c) s = .next t ∧ after (funcEff (k .func) w s.conf.hist) t) ∧
    (s.issues c .reduce → ∃ t, exec (.reduceSeq c) s = .next t ∧ after (reduceEff (k .reduce) w) t) ∧
    (s.issues c .convert → ∃ t, exec (.convert c) s = .next t ∧ after (convertEff (k .convert) w s.conf.hist) t)

/-- LOADW fills the active plane of every array of AMASK with its tile, keeps the old plane in the shadow and records its tag; it touches no
other array, no accumulator and no scratchpad byte (R71, R168). A streaming product leaves in the accumulator cell of an element the
value that its conversion received, and the accumulator of a one-tile, one-pass element is the group sum of its products (R80, R81,
R85). -/
def Obligations.ArraysHoldWeightsAndSums : Prop :=
  ∀ (k : Core) (w : IWord),
    (∀ a, a < 4 →
      let m := (loadwEff k w).k.mxa a
      (nbits w (12 + a) 1 = 0 → m = k.mxa a) ∧
      (nbits w (12 + a) 1 = 1 → m.shadow = (k.mxa a).active ∧ m.tag = some ⟨IWord.by w 4 2, IWord.by w 12 2, IWord.by w 14 2⟩ ∧
        (m.quad = true ↔ IWord.w0 w 11 11 = 1) ∧ m.acm = (k.mxa a).acm ∧ m.byps = (k.mxa a).byps ∧
        m.crc = some (columnCrcs m.active) ∧
        m.active = k.planeOf (k.mxa a) ⟨⟨k.entry (IWord.by w 4 2), fmtOr (nbits w 128 4), IWord.by w 8 2, IWord.by w 10 2, none⟩,
          ktOf (fmtOr (nbits w 128 4)) (IWord.w0 w 11 11 == 1), IWord.by w 12 2, fun x => 128 * IWord.by w 14 2 + 32 * a + x,
          IWord.by w 10 2, IWord.w0 w 11 11 == 1, 0⟩)) ∧
    ((loadwEff k w).k.spd = k.spd ∧ (loadwEff k w).k.csq = k.csq ∧ (loadwEff k w).k.sregs = k.sregs) ∧
    (∀ hist, (0 < IWord.nCols w → 0 < IWord.kDim w → k.widths.foldl (· + ·) 0 ≠ 0 →
        0 < ktOf (if IWord.passes w = 0 then fmtOr (IWord.afmt w) else .bf16) (k.mxa 0).quad →
        ∀ a, ((productEff k w hist).k.mxa a).tag = if a < 4 then none else (k.mxa a).tag) ∧
      (productEff k w hist).k.sregs = k.sregs ∧ (productEff k w hist).k.csq.srs = k.csq.srs) ∧
    (∀ quad els (e : MatEl) pre post, els = pre ++ e :: post →
      let cell (x : MatEl) : Nat × Nat :=
        (x.gc.arr, 32 * acmRow quad x.h (x.m - x.mc * (if quad then 256 else 512)) + x.gc.col)
      (∀ x ∈ post, cell x ≠ cell e) → (Sparse.rising ((k.mxa e.gc.arr).acm)) = true →
      Sparse.get (0 : F32) ((acmAfter quad k els).mxa e.gc.arr).acm (cell e).2 = e.acc.value) ∧
    (∀ (p : Prod) h m n at_ fold, p.passes = 0 → p.spill = 0 → 0 < p.kDim → p.kDim ≤ p.kt →
      (k.reduceElem p h m n at_ fold).acc
        = f32Add 0 (groupSum ((List.range p.kDim).map fun j => (k.actPart p.a 0 0 p.kt h h m j).mul (k.fvAt p.w h j n))))

/-- NOP, END, BRANCH, SUMMARY and SIGNAL: an issued one moves on, ends its slot, takes or leaves its loop, copies its summary record, or adds
to its counter (R185, R187 to R190). -/
def Obligations.ControlInstructionsActAtIssue : Prop :=
  ∀ (c : Nat) (s : State),
    let w := (s.vctx c).w
    (s.issues c .nop → exec (.nop c) s = .next (((s.opened c .nop).unchain c).nextInstr c).settle) ∧
    (s.issues c .endOp → (s.core c).csq.remote = 0 → ∀ gid n k, (s.core c).csq.run = .frame gid n k → ∃ t,
      exec (.endSlot c) s = .next t ∧ (t.core c).csq.ended = true ∧ (t.core c).csq.run = .frame gid n k ∧
      t.groups = s.groups ∧ (t.core c).spd = (s.core c).spd) ∧
    (s.issues c .endOp → (s.core c).csq.remote = 0 → ∀ ring k j, (s.core c).csq.run = .job ring k → s.job? ring = some j →
      Sparse.rising s.jobs = true → j.ended.length + 1 = j.slots.length → (∃ q rest, (s.ring ring).queue = q :: rest) → ∃ t, exec (.endSlot c) s = .next t ∧
      t.job? ring = none ∧ ((t.ring ring).queue.head?.bind fun q => q.done) = some { status := 0 }) ∧
    (s.issues c .branch →
      exec (.branch c) s = .next (((s.opened c .branch).updCore c fun k => k.branch w).unchain c).settle) ∧
    (∀ k : Core,
      let off := sgn16 (IWord.by w 8 2)
      let n := Sparse.get 0 k.csq.branches k.csq.pc
      (off < 0 → branchHolds k w = true → n < IWord.by w 10 2 →
        (k.branch w).csq.pc = ((k.csq.pc : Int) + off).toNat ∧ (k.branch w).csq.branches = Sparse.set 0 k.csq.branches k.csq.pc (n + 1)) ∧
      (off < 0 → (branchHolds k w = false ∨ IWord.by w 10 2 ≤ n) →
        (k.branch w).csq.pc = k.csq.pc + 1 ∧ (k.branch w).csq.branches = Sparse.set 0 k.csq.branches k.csq.pc 0) ∧
      (0 ≤ off → (k.branch w).csq.pc = (if branchHolds k w then ((k.csq.pc : Int) + off).toNat else k.csq.pc + 1) ∧
        (k.branch w).csq.branches = k.csq.branches)) ∧
    (s.issues c .summary → exec (.summary c) s
      = .next (((((s.opened c .summary).updCore c fun k => k.summary w).unchain c).landWrites c).nextInstr c).settle) ∧
    (∀ k : Core, IWord.w0 w 15 15 = 1 →
      (k.summary w).spd = (k.wr (k.entry (IWord.by w 4 2)) (16 * IWord.by w 6 2) (k.sr (IWord.w0 w 12 11)).bytes).spd) ∧
    (s.issues c .signal → (s.core c).csq.remote = 0 → exec (.signalCnt c) s
      = .next ((((s.opened c .signal).addCounter c (nbits w 32 4) (IWord.by w 5 1)).unchain c).nextInstr c).settle) ∧
    (∀ i n, (s.core c).csq.run ≠ .idle → (∀ gid m k, (s.core c).csq.run = .frame gid m k → s.frame? gid m ≠ none) →
      (∀ ring k, (s.core c).csq.run = .job ring k → s.job? ring ≠ none) →
      (∀ gid m k f, (s.core c).csq.run = .frame gid m k → s.frame? gid m = some f → Sparse.rising f.cnts = true) →
      (∀ ring k j, (s.core c).csq.run = .job ring k → s.job? ring = some j → Sparse.rising j.cnts = true) →
      (s.addCounter c i n).counter c i = min 0xFFFF (s.counter c i + n))

/-- WAIT, QPUSH and QPOP complete once what they await has arrived and wait until then; a wait that outlasts its TIMEOUT ends its run with
SYNC_TIMEOUT (R183 to R186). A local MOVE copies its rows, one into a Collar sends them as one remote write, and one from a token asks
for a remote read (R182, R209). -/
def Obligations.WaitsQueuesAndMoves : Prop :=
  ∀ (c : Nat) (s : State),
    let w := (s.vctx c).w
    let q := nbits w 64 6
    let u (o : Op) : State := s.opened c o
    let onward (t : State) : State := (t.unchain c).nextInstr c
    (s.issues c .wait → (u .wait).arrived c w = true → exec (.waitCnt c) s
      = .next (onward ((u .wait).endWait c)).settle) ∧
    (s.issues c .wait → (u .wait).arrived c w = false → exec (.waitCnt c) s = .next ((u .wait).noteWait c).settle) ∧
    (s.issues c .qpush → (u .qpush).arrived c w = true →
      (∀ ring k, (s.core c).csq.run = .job ring k → exec (.qpush c) s = .next (onward (((u .qpush).endWait c).updHq q fun h =>
        { h with tokens := h.tokens ++ [tokenOf (s.core c) c w ||| dword (h.seq * 2 ^ 40)], seq := (h.seq + 1) % 2 ^ 24 })).settle) ∧
      (∀ gid n k, (s.core c).csq.run = .frame gid n k → exec (.qpush c) s
        = .next (onward ((((u .qpush).endWait c).updHq q fun h => { h with rsv := h.rsv + 1 }).updFrame gid n fun f =>
          { f with pushed := f.pushed ++ [(q, tokenOf (s.core c) c w)] })).settle)) ∧
    (s.issues c .qpush → (u .qpush).arrived c w = false → exec (.qpush c) s = .next ((u .qpush).noteWait c).settle) ∧
    (s.issues c .qpop → ∀ tok rest, (s.hq q).tokens = tok :: rest →
      let v := (((u .qpop).endWait c).updHq q fun h => { h with tokens := rest }).updCore c fun k =>
        { k with csq := { k.csq with tokens := k.csq.tokens.put (nbits w 80 2) tok } }
      (∀ ring k, (s.core c).csq.run = .job ring k → exec (.qpop c) s = .next (onward v).settle) ∧
      (∀ gid n k, (s.core c).csq.run = .frame gid n k → exec (.qpop c) s
        = .next (onward (v.updFrame gid n fun f => { f with popped := f.popped ++ [(q, tok)] })).settle)) ∧
    (s.issues c .qpop → (s.hq q).tokens = [] → exec (.qpop c) s = .next ((u .qpop).noteWait c).settle) ∧
    (∀ t, (s.core c).csq.waiting = some t → s.canIssue c = true → (s.vctx c).inside = true → 0 < timeoutOf w →
      (t + timeoutOf w ≤ s.fclk → s.arrived c w = false →
        exec (.syncTimeout c) s = .next (s.failRun c 0x12 (32 * (s.core c).csq.pc) .program).settle) ∧
      (s.fclk < t + timeoutOf w → exec (.syncTimeout c) s = .next s.settle)) ∧
    (s.issues c .move → nbits w 224 1 = 0 → nbits w 227 1 = 0 → ∃ t, exec (.move c) s = .next t ∧
      (t.core c).csq.pc = (s.core c).csq.pc + 1 ∧ t.rwrites = s.rwrites ∧
      (t.core c).spd = (((moveRows w).map fun (a, b) => (b, (s.core c).rd ((s.core c).entry (IWord.by w 4 2)) a (IWord.by w 10 2))).foldl
        (fun (k : Core) x => k.wr (k.entry (IWord.by w 6 2)) x.1 x.2) (s.core c)).spd) ∧
    (s.issues c .move → nbits w 224 1 = 0 → nbits w 227 1 = 1 → ∃ t m, exec (.move c) s = .next t ∧
      t.rwrites = s.rwrites ++ [m] ∧ m.src = c ∧ m.dest = nbits w 228 5 ∧ m.collar = nbits w 233 4 ∧ m.ctx = (s.core c).csq.ctx ∧
      m.rows = ((moveRows w).map fun (a, b) => (b, (s.core c).rd ((s.core c).entry (IWord.by w 4 2)) a (IWord.by w 10 2))) ∧
      (t.core c).csq.remote = (s.core c).csq.remote + 1 ∧ (t.core c).spd = (s.core c).spd) ∧
    (s.issues c .move → nbits w 224 1 = 1 → ((u .move).tokenStatus ((u .move).vctx c) = 0 → ∃ t, exec (.move c) s = .next t ∧
        (t.core c).csq.rread ≠ none ∧ (t.core c).csq.pc = (s.core c).csq.pc) ∧
      (∀ st, (u .move).tokenStatus ((u .move).vctx c) = st → st ≠ 0 → exec (.move c) s
        = .next ((u .move).failRun c st (32 * (s.core c).csq.pc) .program).settle))

/-! ### Retrievers (R212 to R222, R227) -/

/-- A RD or WR that begins: opcode, handle reference, lines, space, destinations, holds, registers, address and offset (R214). -/
def Sys2Proof.Machine.lineMove (op ref n : Nat) (space : Bool) (mc : Nat) (ah oh : Bool) (fa fb a o : Nat) : RtvMove :=
  { op := op, ref := ref, left := n, space := space, mcast := mc, ahold := ah, ohold := oh, fa := fa, fb := fb, addr := a, off := o }

/-- A LIST that begins: handle reference, space, register, descriptors and the address of the list (R216). -/
def Sys2Proof.Machine.listMove (ref : Nat) (space : Bool) (fa n a : Nat) : RtvMove :=
  { op := 3, ref := ref, left := 0, space := space, fa := fa, addr := 0, off := 0, total := n, base := a }

/-- A write of RTV_CTRL, by any of the three rows that write it (R215, R227). An idle Retriever takes the fields, and with ARM = 1 arms:
on a failed check it reports RTV_BADPROG and stays idle; otherwise it is armed with its program and parameter set 0, and a run at arming
is pending. One that is not idle ignores ARM = 1; ARM = 0 disarms it, after its run. STOP ends a run with RTV_STOPPED. RTV_CTRL reads
the fields last written where the write was not ignored (the model's choice for a write that disarms, log entry 41). -/
def Obligations.RetrieversAreArmedDisarmedAndStopped : Prop :=
  ∀ (c r : Nat) (v : Word) (acc : Acc) (s : State), c < 32 → r < 8 → s.grants (0x20984 + 0x1000 * c + 16 * r) acc = true →
    let all (t : State) : Prop := exec (.rtvArm c r v acc) s = .next t ∧ exec (.rtvDisarm c r v acc) s = .next t ∧
      exec (.rtvStop c r v acc) s = .next t
    let x := (s.core c).rtv r
    let u := v &&& 0x00FFFFD3#32
    let y : Rtv := { x with trig := wbits v 1 0, be := v.getLsbD 4, id := wbits v 17 6, nsets := wbits v 23 18, ctl := u }
    let k := s.core c
    let ok := k.armOk acc.ctx.toNat (wbits x.prog 15 0) (wbits x.prog 31 16) y.trig (b2n y.be) y.nsets
    let busy := x.st = .running ∨ x.st = .parked
    let stopped (st : RtvState) : State := ((s.answered acc).updRtv c r fun z =>
      { z with st := st, cur := none, disarm := false, pend := if z.disarm then false else z.pend }).rtvCode c r 0x0B
    (x.st = .idle → v.getLsbD 2 = false → all ((s.answered acc).updRtv c r fun _ => y).settle) ∧
    (x.st = .idle → v.getLsbD 2 = true → ok = false → all (((s.answered acc).updRtv c r fun _ => y).rtvCode c r 0x01).settle) ∧
    (x.st = .idle → v.getLsbD 2 = true → ok = true → ∃ t, all t ∧
      let z := (t.core c).rtv r
      let e := k.entry (wbits x.prog 15 0)
      z.st = .armed ∧ z.trig = wbits v 1 0 ∧ z.be = v.getLsbD 4 ∧ z.id = wbits v 17 6 ∧ z.nsets = wbits v 23 18 ∧ z.ctl = u ∧
      z.store = (List.range (k.rdN e 2 1)).map (fun (j : Nat) => k.rdN e (8 + 8 * j) 8) ∧ z.params = wbits x.prog 31 16 ∧
      z.p = (List.range 8).map (fun (j : Nat) => dword (k.rdN (k.entry (wbits x.prog 31 16)) (8 * j) 8)) ∧
      z.ctx = acc.ctx ∧ z.set = 0 ∧ z.pend = decide (wbits v 1 0 = 0) ∧ z.cur = none ∧ z.lines = x.lines ∧ z.code = x.code ∧
      t.hdrs = s.hdrs ∧ (t.core c).spd = k.spd ∧ (t.core c).handles = k.handles ∧
      (∀ q, q ≠ r → (t.core c).rtv q = k.rtv q) ∧ (∀ d, d ≠ c → t.core d = s.core d)) ∧
    (x.st = .armed ∨ (busy ∧ v.getLsbD 3 = false) → v.getLsbD 2 = true → all (s.answered acc).settle) ∧
    (x.st = .armed → v.getLsbD 2 = false →
      all ((s.answered acc).updRtv c r fun z => { z with st := .idle, pend := false, disarm := false, ctl := u }).settle) ∧
    (busy → v.getLsbD 2 = false → v.getLsbD 3 = false →
      all ((s.answered acc).updRtv c r fun z => { z with disarm := true, ctl := u }).settle) ∧
    (busy → v.getLsbD 3 = true → v.getLsbD 2 = true → x.trig ≠ 0 → x.disarm = false → all (stopped .armed).settle) ∧
    (busy → v.getLsbD 3 = true → v.getLsbD 2 = true → x.trig = 0 ∨ x.disarm = true → all (stopped .idle).settle) ∧
    (busy → v.getLsbD 3 = true → v.getLsbD 2 = false → x.trig ≠ 0 →
      all ((stopped .idle).updRtv c r fun z => { z with pend := false, ctl := u }).settle) ∧
    (busy → v.getLsbD 3 = true → v.getLsbD 2 = false → x.trig = 0 → all ((stopped .idle).updRtv c r fun z => { z with ctl := u }).settle)

/-- A pending trigger starts the run of an armed Retriever at its first instruction with its address, offset and loop registers zero
(R213, R215). A row of another opcode than the one at the program counter, or one whose Retriever does not run, changes nothing.
END, FENCE and SIG wait for the lines before them; END ends the run with RTV_OK; the others change their registers as R214 says.

The oldest line whose data have arrived lands: in one core, with an agreeing generation, its 64 bytes are written through the
handle, its tag is free and LINES counts it; a stale generation stops the run with RTV_STALE and lands nothing (R212, R217, R218).
With no such line nothing changes. -/
def Obligations.RetrieverProgramsRunAndLinesLand : Prop :=
  (∀ (c r : Nat) (s : State), let x := (s.core c).rtv r
      let w := x.store.getD x.pc 0
      let due (op : Nat) : Prop := x.st = .running ∧ x.cur = none ∧ s.rtvGoes c r = true ∧ nbits w 0 4 = op
      let fa := nbits w 4 4
      let fb := nbits w 8 4
      let n := nbits w 16 16
      let imm := BitVec.ofNat 32 (nbits w 32 32)
      let par : DWord := if fb = 8 then 0 else x.p.getD fb 0
      let on (t : State) (f : Rtv → Rtv) : State := (t.updRtv c r fun y => { f y with pc := y.pc + 1 }).settle
      let ref := nbits w 32 16
      let space := nbits w 12 1 == 1
      let ahold := nbits w 13 1 = 1
      let ohold := nbits w 14 1 = 1
      let a := (Sparse.get (0 : DWord) x.a fa).toNat
      let o := (Sparse.get (0 : Word) x.o fb).toNat
      let code (mc : Nat) := s.moveCode c r ref o n a (if ahold then 1 else n) mc space
      let begun (op mc : Nat) : State := ((s.updRtv c r fun y => { y with
        cur := some (lineMove op ref n space mc (nbits w 13 1 == 1) (nbits w 14 1 == 1) fa fb a o) }).rtvGo c r).settle
      -- the start of a run
      (x.st = .armed → x.pend = true → s.running = true → exec (.rtvRunStart c r) s = .next (s.updRtv c r fun y =>
        { y with st := .running, pend := false, runFrame := y.pendFrame, pc := 0, a := [], o := [], l := [], cur := none }).settle) ∧
      (¬ (x.st = .armed ∧ x.pend = true) → exec (.rtvRunStart c r) s = .next s.settle) ∧
      -- rows of another instruction than the next one
      (¬ due 0 → exec (.rtvEnd c r) s = .next s.settle) ∧ (¬ due 1 → exec (.rd c r) s = .next s.settle) ∧
      (¬ due 2 → exec (.wr c r) s = .next s.settle) ∧ (¬ due 3 → exec (.rtvList c r) s = .next s.settle) ∧
      (¬ due 4 → exec (.seta c r) s = .next s.settle) ∧ (¬ due 5 → exec (.adda c r) s = .next s.settle) ∧
      (¬ due 6 → exec (.seto c r) s = .next s.settle) ∧ (¬ due 7 → exec (.addo c r) s = .next s.settle) ∧
      (¬ due 8 → exec (.setl c r) s = .next s.settle) ∧ (¬ due 9 → exec (.rtvLoop c r) s = .next s.settle) ∧
      (¬ due 10 → exec (.nextp c r) s = .next s.settle) ∧ (¬ due 11 → exec (.waitc c r) s = .next s.settle) ∧
      (¬ due 12 → exec (.sig c r) s = .next s.settle) ∧ (¬ due 13 → exec (.rtvFence c r) s = .next s.settle) ∧
      (¬ due 14 → exec (.jmp c r) s = .next s.settle) ∧
      -- END
      (due 0 → x.flight = [] → exec (.rtvEnd c r) s = .next (((s.updRtv c r fun y =>
        { y with st := if y.trig = 0 ∨ y.disarm = true then .idle else .armed, cur := none, disarm := false,
                 pend := if y.disarm then false else y.pend }).rtvCode c r 0)).settle) ∧
      (due 0 → x.flight ≠ [] → exec (.rtvEnd c r) s = .next s.settle) ∧
      -- SETA, ADDA, SETO, ADDO, SETL
      (due 4 → exec (.seta c r) s = .next (on s fun y => { y with a := Sparse.set 0 y.a fa (par + imm.signExtend 64) })) ∧
      (due 5 → exec (.adda c r) s
        = .next (on s fun y => { y with a := Sparse.set 0 y.a fa (Sparse.get 0 y.a fa + imm.signExtend 64) })) ∧
      (due 6 → exec (.seto c r) s = .next (on s fun y => { y with o := Sparse.set 0 y.o fa (par.setWidth 32 + imm) })) ∧
      (due 7 → exec (.addo c r) s = .next (on s fun y => { y with o := Sparse.set 0 y.o fa (Sparse.get 0 y.o fa + imm) })) ∧
      (due 8 → exec (.setl c r) s = .next (on s fun y => { y with l := Sparse.set 0 y.l fa n })) ∧
      -- LOOP
      (due 9 → Sparse.get 0 x.l fa = 0 → exec (.rtvLoop c r) s = .next (on s id)) ∧
      (due 9 → Sparse.get 0 x.l fa = 1 → exec (.rtvLoop c r) s = .next (on s fun y => { y with l := Sparse.set 0 y.l fa 0 })) ∧
      (due 9 → 1 < Sparse.get 0 x.l fa → exec (.rtvLoop c r) s = .next (s.updRtv c r fun y =>
        { y with l := Sparse.set 0 y.l fa (Sparse.get 0 y.l fa - 1), pc := n }).settle) ∧
      -- NEXTP
      (let m := if x.nsets ≤ x.set then 0 else x.set + 1
       let q := (s.core c).loadSet x m
       (due 10 → q.1 = 0 → exec (.nextp c r) s = .next (on s fun y => { y with set := m, p := q.2 })) ∧
       (due 10 → q.1 ≠ 0 → exec (.nextp c r) s = .next (s.rtvFail c r q.1 0).settle)) ∧
      -- WAITC, SIG, FENCE, JMP
      (due 11 → n ≤ s.rtvCount c r fa → exec (.waitc c r) s = .next (on s id)) ∧
      (due 11 → s.rtvCount c r fa < n → exec (.waitc c r) s = .next s.settle) ∧
      (due 12 → x.flight = [] → exec (.sig c r) s = .next (on (s.rtvSignal c r fa n) id)) ∧
      (due 12 → x.flight ≠ [] → exec (.sig c r) s = .next s.settle) ∧
      (due 13 → x.flight = [] → exec (.rtvFence c r) s = .next (on s id)) ∧
      (due 13 → x.flight ≠ [] → exec (.rtvFence c r) s = .next s.settle) ∧
      (due 14 → exec (.jmp c r) s = .next (s.updRtv c r fun y => { y with pc := n }).settle) ∧
      -- RD
      (let mc := nbits w 48 4
       (due 1 → code mc ≠ 0 → exec (.rd c r) s = .next (s.rtvFail c r (code mc) 0).settle) ∧
       (due 1 → code mc = 0 → exec (.rd c r) s = .next (begun 1 mc)) ∧
       (due 1 → code mc = 0 → nbits w 12 1 = 0 → n ≤ 16 → x.flight = [] → Sparse.rising x.a = true → Sparse.rising x.o = true → 0 < n →
          ∃ t, exec (.rd c r) s = .next t ∧ let z := (t.core c).rtv r
          z.flight = (List.range n).map (fun (j : Nat) => (⟨j, ref, if ohold then o else o + 64 * j, mc, false,
            if ahold then a else a + 64 * j, false, none, none⟩ : RtvLine)) ∧
          z.cur = none ∧ z.pc = x.pc + 1 ∧ z.st = .running ∧ z.code = x.code ∧
          Sparse.get 0 z.a fa = (if ahold then dword a else dword (a + 64 * n)) ∧
          Sparse.get 0 z.o fb = (if ohold then word o else word (o + 64 * n)) ∧
          (t.core c).spd = (s.core c).spd ∧ t.host = s.host ∧ t.groups = s.groups ∧ t.rings = s.rings)) ∧
      -- WR
      (due 2 → code 0 ≠ 0 → exec (.wr c r) s = .next (s.rtvFail c r (code 0) 0).settle) ∧
      (due 2 → code 0 = 0 → exec (.wr c r) s = .next (begun 2 0)) ∧
      -- LIST
      (let bad := s.moveCode c r ref 0 0 a (ceilDiv n 4) 0 space
       (due 3 → bad ≠ 0 → exec (.rtvList c r) s = .next (s.rtvFail c r bad 0).settle) ∧
       (due 3 → bad = 0 → exec (.rtvList c r) s
         = .next ((s.updRtv c r fun y => { y with cur := some (listMove ref space fa n a) }).rtvGo c r).settle))) ∧
  (∀ (c r : Nat) (s : State),
      let x := (s.core c).rtv r
      let ready := x.flight.find? fun l => l.data.isSome
      (ready = none → exec (.rtvLineLanded c r) s = .next s.settle) ∧
      (∀ l bs, ready = some l → l.data = some bs → l.desc = none → l.mcast = 0 → x.trig = 2 →
        let k := s.core c
        (k.refStale l.ref = false → exec (.rtvLineLanded c r) s = .next
          (((((s.updRtv c r fun y => { y with flight := y.flight.erase l }).updCore c fun q =>
            (q.wr (q.entry l.ref) l.off bs).setSmark (refIdx l.ref) false).landWrites c).updRtv c r fun y =>
              { y with lines := y.lines + 1 }).rtvGo c r).settle) ∧
        (k.refStale l.ref = true → x.st = .running → ∃ t, exec (.rtvLineLanded c r) s = .next t ∧
          ((t.core c).rtv r).code = 0x03 ∧ ((t.core c).rtv r).flight = x.flight.erase l ∧ (t.core c).spd = k.spd ∧
          ((t.core c).rtv r).lines = x.lines)))

/-! ### The span and stream migration (R348 to R369) -/

/-- The row of message type `ty` takes frame `f` from `s` to `t`, whichever of the thirteen rows that is. -/
def Sys2Proof.Machine.State.takes (s : State) (ty : Nat) (f : PeerFrame) (t : State) : Prop :=
  (ty = 0x01 → exec (.hello f) s = .next t) ∧ (ty = 0x02 → exec (.heartbeat f) s = .next t) ∧
  (ty = 0x10 → ∀ mem, exec (.offer f mem) s = .next t) ∧ (ty = 0x11 → exec (.accept f) s = .next t) ∧
  (ty = 0x12 → exec (.refuse f) s = .next t) ∧ (ty = 0x13 → exec (.snap f) s = .next t) ∧
  (ty = 0x14 → exec (.snapDone f) s = .next t) ∧ (ty = 0x15 → exec (.digest f) s = .next t) ∧
  (ty = 0x16 → exec (.commit f) s = .next t) ∧ (ty = 0x17 → exec (.commitAck f) s = .next t) ∧
  (ty = 0x18 → exec (.drabinAbort f) s = .next t) ∧ (ty = 0x19 → exec (.abortAck f) s = .next t) ∧
  (ty = 0x1A → exec (.yieldGroup f) s = .next t)

/-- A received frame is dropped at the first step of R353 that it fails, with no effect but that step's counter or event: length and
destination, sender, rate limit, tag, replay window, type and body, and the partner's state. A token is spent from step 3 on, and the
window moves only for a frame that passes the tag. -/
def Obligations.PeerFramesAreCheckedInOrder : Prop :=
  ∀ (ty : Nat) (f : PeerFrame) (s : State),
    let m := f.sid.toNat % 65536
    let p := s.partner m
    let bad1 := 9216 < 32 + f.body.length ∨ f.tag.length ≠ 16 ∨ f.dst.toNat ≠ s.selfMember
    let bad2 := f.sid.toNat / 65536 ≠ wbits s.peer.self 31 16 ∨ 16 ≤ m ∨ m = s.selfMember ∨ p.en = false
    let ks := keySchedule (keyBytes (Sparse.get 0 s.peer.keys p.rxKey))
    let iv := gcmIv f.sid.toNat f.ctr.toNat
    let good4 := bytesOf (gcmTag ks iv (peerHeader f ty) (natBytes f.body)) = f.tag
    let body := bytesOf (gctr ks iv (natBytes f.body))
    let good6 := (if ty = 1 then wbits f.ver 15 8 = 1 else f.ver.toNat = 0x100 + p.minor) ∧ bodyOk ty body = true
    let spent : Partner := { p with tokens := p.tokens - 1 }
    let n := f.ctr.toNat
    (s.running = false → s.takes ty f s.settle) ∧
    (s.running = true → bad1 → s.takes ty f (s.updPeer fun q => { q with rxBad := satAdd 0xFFFF q.rxBad 1 }).settle) ∧
    (s.running = true → ¬ bad1 →
      (bad2 → s.takes ty f (s.updPeer fun q => { q with rxUnknown := satAdd 0xFFFF q.rxUnknown 1 }).settle) ∧
      (¬ bad2 →
        (p.tokens = 0 → s.takes ty f (s.updPartner m fun q => { q with rateDrop := satAdd 0xFFFF q.rateDrop 1 }).settle) ∧
        (p.tokens ≠ 0 → ¬ good4 →
          s.takes ty f ((s.updPartner m fun _ => { spent with authf := satWord p.authf 1 }).raise pgPeer 2).settle) ∧
        (p.tokens ≠ 0 → good4 → n ≤ p.high → (n + 64 ≤ p.high ∨ p.bitmap / 2 ^ (p.high - n) % 2 = 1) →
          s.takes ty f (s.updPartner m fun _ => { spent with replayDrop := satAdd 0xFFFF p.replayDrop 1 }).settle) ∧
        (p.tokens ≠ 0 → good4 → (p.high < n ∨ (p.high < n + 64 ∧ p.bitmap / 2 ^ (p.high - n) % 2 = 0)) →
          let moved : Partner := { spent with
            high := max p.high n
            bitmap := if p.high < n then (p.bitmap * 2 ^ min 64 (n - p.high) + 1) % 2 ^ 64 else p.bitmap + 2 ^ (p.high - n) }
          (¬ good6 → s.takes ty f
            ((s.updPartner m fun _ => moved).updPeer fun q => { q with rxBad := satAdd 0xFFFF q.rxBad 1 }).settle) ∧
          (good6 → s.peerReceive ty f = (s.updPartner m fun _ => moved, some (m, body)) ∧
            (p.st = .down ∨ (p.st = .joining ∧ ty ≠ 1) → s.takes ty f (s.updPartner m fun _ => moved).settle)))))

/-- What the messages of an accepted frame from partner `m` with body `b` do (R350, R356, R362 to R366, R368), from the state `v` that
the steps of R353 leave with the time of arrival noted; a message that names no migration of that partner is dropped (R357). An
ACCEPT for the first frame of a group is in time (the model's choice, log entry 81). -/
def Obligations.MessagesActOnPartnersAndMigrations : Prop :=
  ∀ (f : PeerFrame) (s u : State) (m : Nat) (b : List Byte), s.running = true →
    let v := u.updPartner m fun p => { p with heard := u.fclk }
    let got (ty : Nat) : Prop := s.peerReceive ty f = (u, some (m, b)) ∧ (u.partner m).st = .up
    let id := fieldAt b 0 4
    -- HELLO
    (got 0x01 → exec (.hello f) s = .next (v.sendPeer m 0x01 v.helloBody true).settle) ∧
    (s.peerReceive 0x01 f = (u, some (m, b)) → (u.partner m).st = .joining →
      let okV := fieldAt b 1 1 = 1 ∧ fieldAt b 3 1 = 1 ∧ fieldAt b 0 1 = 0
      (v.netTime? = none → exec (.hello f) s = .next v.settle) ∧
      ∀ now, v.netTime? = some now →
        let far := v.peer.tskew.toNat < max now.toNat (fieldAt b 8 8) - min now.toNat (fieldAt b 8 8)
        (¬ okV → exec (.hello f) s = .next (v.raise pgPeer 3).settle) ∧
        (okV → far → exec (.hello f) s = .next (v.raise pgPeer 4).settle) ∧
        (okV → ¬ far → exec (.hello f) s
          = .next ((v.updPartner m fun p => { p with minor := 0, st := .up }).raise pgPeer 0).settle)) ∧
    -- HEARTBEAT
    (got 0x02 → v.skewed (fieldAt b 0 8) = true →
      exec (.heartbeat f) s = .next ((v.partnerTo m .joining).raise pgPeer 4).settle) ∧
    (got 0x02 → v.skewed (fieldAt b 0 8) = false →
      (v.peer.inc = none → exec (.heartbeat f) s = .next v.settle) ∧
      ∀ x, v.peer.inc = some x →
        (x.src = m ∧ x.state = 3 ∧ fieldAt b 8 4 = 0 →
          exec (.heartbeat f) s = .next ((v.updPeer fun p => { p with inc := none, acptStat := 0 }).raise pgPeer 6).settle) ∧
        (¬ (x.src = m ∧ x.state = 3 ∧ fieldAt b 8 4 = 0) → exec (.heartbeat f) s = .next v.settle)) ∧
    -- OFFER
    (got 0x10 → ∀ mem, wbits v.peer.acptGid 31 31 = 0 ∨ wbits v.peer.acptGid 15 12 ≠ m ∨ v.peer.inc.isSome = true →
      exec (.offer f mem) s = .next v.settle) ∧
    (got 0x10 → ∀ mem, wbits v.peer.acptGid 31 31 = 1 → wbits v.peer.acptGid 15 12 = m → v.peer.inc = none →
      let arm := addr48 v.peer.acptArmLo v.peer.acptArmHi
      let gid := wbits v.peer.acptGid 11 0
      let d : Desc := { seq := 0, w := 0x11 + v.hostNat arm 32 * 2 ^ 256 }
      let no (t : State) (code pcode : Nat) : Prop := exec (.offer f mem) s = .next (t.refuseOffer m id code pcode).settle
      (mem ≠ .ok → no (v.memErr mem false arm .control) 0x06 0) ∧
      (mem = .ok → v.group? gid = none → no v 0x05 0) ∧
      (mem = .ok → ∀ g, v.group? gid = some g →
        let terms := arm % 64 = 0 ∧ d.target = gid ∧ g.stage = .reserved ∧ v.offerMatches (g.named d) b = true
        let check := v.acceptCheck { cls := 1 } d false
        (¬ terms → no v 0x05 0) ∧
        (∀ c, terms → check = some c → no v 0x06 c.pstat) ∧
        (∀ c, terms → check = none → v.armCheck d = .inl c → no v 0x06 c.pstat) ∧
        (∀ h, terms → check = none → v.armCheck d = .inr h → ∃ t, exec (.offer f mem) s = .next t ∧ t.peer.acptStat = 0 ∧
          t.peer.inc = some { id := id, gid := gid, src := m, s := fieldAt b 16 8, nshadow := fieldAt b 13 1
                              core := wbits v.peer.acptGid 20 16, collar := wbits v.peer.acptGid 24 21, state := 1 }))) ∧
    -- SNAP, SNAP_DONE, COMMIT and YIELD name the incoming migration
    ((∀ x, v.peer.inc = some x → ¬ (x.src = m ∧ x.id = id)) →
      (got 0x13 → exec (.snap f) s = .next v.settle) ∧ (got 0x14 → exec (.snapDone f) s = .next v.settle) ∧
      (got 0x16 → exec (.commit f) s = .next v.settle) ∧ (got 0x1A → exec (.yieldGroup f) s = .next v.settle)) ∧
    (∀ x, v.peer.inc = some x → x.src = m → x.id = id →
      let e := Sparse.get (0 : DWord) (v.core x.core).collars x.collar
      let off := fieldAt b 4 4
      let data := b.drop 8
      (got 0x13 → x.state = 1 → ∀ why, peerWhy e off data.length = some why →
        exec (.snap f) s = .next ((v.collarRefuse x.core x.collar m why 0 true).migInFail 0x08).settle) ∧
      (got 0x13 → x.state = 1 → peerWhy e off data.length = none → x.size = none → ∃ t, exec (.snap f) s = .next t ∧
        t.peer.inc = some { x with landed := x.landed ++ [(off, data.length)] } ∧
        (t.core x.core).spd = data.zipIdx.foldl (fun (q : Mem) (z : Byte × Nat) => q.setByte (64 * hBase e + off + z.2) z.1)
          (v.core x.core).spd) ∧
      (got 0x14 → x.state = 1 → exec (.snapDone f) s
        = .next ((v.updPeer fun p => { p with inc := some { x with size := some (fieldAt b 4 4) } }).tryInstall).settle) ∧
      (got 0x13 → x.state ≠ 1 → exec (.snap f) s = .next v.settle) ∧
      (got 0x14 → x.state ≠ 1 → exec (.snapDone f) s = .next v.settle) ∧
      (∀ g, v.group? x.gid = some g →
        let due := x.state = 2 ∧ fieldAt b 8 8 = x.s + x.nshadow ∧ g.oldest ≤ x.s + x.nshadow
        (got 0x16 → due → exec (.commit f) s = .next ((v.updPeer fun p => { p with inc := some { x with committed := true } }).sendPeer m 0x17
          (toBytes 4 x.id ++ toBytes 4 0 ++ toBytes 8 (x.s + x.nshadow)) false).settle) ∧
        (got 0x16 → ¬ due → exec (.commit f) s = .next v.settle)) ∧
      (got 0x1A → x.state = 3 → exec (.yieldGroup f) s
        = .next ((v.updPeer fun p => { p with inc := none, acptStat := 0 }).raise pgPeer 6).settle) ∧
      (got 0x1A → x.state ≠ 3 → exec (.yieldGroup f) s = .next v.settle)) ∧
    -- ACCEPT, REFUSE, DIGEST, COMMIT_ACK and ABORT_ACK name the outgoing migration
    ((∀ o, v.peer.out = some o → ¬ (o.dest = m ∧ o.id = id)) →
      (got 0x11 → exec (.accept f) s = .next v.settle) ∧ (got 0x12 → exec (.refuse f) s = .next v.settle) ∧
      (got 0x15 → exec (.digest f) s = .next v.settle) ∧ (got 0x17 → exec (.commitAck f) s = .next v.settle) ∧
      (got 0x19 → exec (.abortAck f) s = .next v.settle)) ∧
    (∀ o, v.peer.out = some o → o.dest = m → o.id = id →
      (o.state = 5 →
        (got 0x19 → exec (.abortAck f) s = .next (v.updPeer fun p => { p with out := none }).settle) ∧
        (got 0x11 → exec (.accept f) s = .next v.settle) ∧ (got 0x12 → exec (.refuse f) s = .next v.settle) ∧
        (got 0x15 → exec (.digest f) s = .next v.settle) ∧ (got 0x17 → exec (.commitAck f) s = .next v.settle)) ∧
      (∀ g, v.group? o.gid = some g → got 0x11 → o.state = 1 →
        (o.s < g.oldest ∨ (o.s = g.oldest ∧ g.doneAt ≠ 0) → exec (.accept f) s = .next (v.migOutFail 0x0B).settle) ∧
        (g.oldest < o.s ∨ (o.s = g.oldest ∧ g.doneAt = 0) → exec (.accept f) s = .next (v.updPeer fun p =>
          { p with out := some { o with state := 2, accepted := some (fieldAt b 4 1, fieldAt b 5 1) } }).settle)) ∧
      (got 0x12 → o.state ≠ 5 → exec (.refuse f) s = .next ((v.updPeer fun p =>
        { p with out := none, migStat := word (0x0400 + 65536 * fieldAt b 4 1) }).raise pgPeer 7).settle) ∧
      (got 0x15 → o.state ≠ 5 →
        let n := fieldAt b 8 8
        let fresh := o.s ≤ n ∧ n < o.s + o.nshadow ∧ ∀ e ∈ o.theirs, e.1 ≠ n
        (fresh → exec (.digest f) s = .next ((v.updPeer fun p =>
          { p with out := some { o with theirs := o.theirs ++ [(n, b.drop 16)] } }).compareDigests).settle) ∧
        (¬ fresh → exec (.digest f) s = .next v.settle)) ∧
      (got 0x17 → o.state = 4 → fieldAt b 8 8 = o.s + o.nshadow →
        exec (.commitAck f) s = .next (v.updPeer fun p => { p with out := some { o with acked := true } }).settle)) ∧
    -- ABORT names either
    (got 0x18 → (∀ o, v.peer.out = some o → ¬ (o.dest = m ∧ o.id = id)) → (∀ x, v.peer.inc = some x → ¬ (x.src = m ∧ x.id = id)) →
      exec (.drabinAbort f) s = .next v.settle) ∧
    (got 0x18 → ∀ o, v.peer.out = some o → o.dest = m → o.id = id →
      exec (.drabinAbort f) s = .next (((v.updPeer fun p =>
        { p with out := none, migStat := word (fieldAt b 4 1 * 256) }).raise pgPeer 7).sendPeer m 0x19 (toBytes 4 id) true).settle) ∧
    (got 0x18 → (∀ o, v.peer.out = some o → ¬ (o.dest = m ∧ o.id = id)) → ∀ x, v.peer.inc = some x → x.src = m → x.id = id →
      (x.state ≠ 3 → exec (.drabinAbort f) s = .next ((((v.updPeer fun p =>
        { p with inc := none, acptStat := word (fieldAt b 4 1 * 256) }).raise pgPeer 7).dropArm x.gid).sendPeer m 0x19
          (toBytes 4 id) true).settle) ∧
      (x.state = 3 → x.released = true → exec (.drabinAbort f) s = .next (((((v.updPeer fun p =>
        { p with inc := none, acptStat := word 0x0D00 }).raise pgPeer 8).stopLanes x.gid).dropArm x.gid).sendPeer m 0x19
          (toBytes 4 id) true).settle))

/-- Writes of keys, partners, MIG_CMD and ACPT_GID, the periods, and dropped link frames (R350, R354, R355, R359, R361, R366, R367, R398).
A key word is stored, and the last word of a slot makes each enabled partner that uses the slot join afresh and lets a partner that had used up the slot send again. -/
def Obligations.PartnersKeysAndPeriods : Prop :=
  ∀ (s : State) (acc : Acc) (v : Word),
    (∀ k w, k < 16 → w < 8 → s.grants (0x6200 + 32 * k + 4 * w) acc = true →
      (w < 7 → ∃ t, exec (.keyWrite k w v acc) s = .next t ∧ t.peer.parts = s.peer.parts ∧ t.hdrs = s.hdrs ∧
        (Sparse.rising s.peer.keys = true → ∀ j, Sparse.get (0 : BitVec 256) t.peer.keys j = if j = k then
          BitVec.ofNat 256 ((Sparse.get (0 : BitVec 256) s.peer.keys k).toNat / 2 ^ (32 * (w + 1)) * 2 ^ (32 * (w + 1)) + v.toNat * 2 ^ (32 * w)
            + (Sparse.get (0 : BitVec 256) s.peer.keys k).toNat % 2 ^ (32 * w))
          else Sparse.get (0 : BitVec 256) s.peer.keys j)) ∧
      (w = 7 → s.peer.out = none → s.peer.inc = none → ∃ t, exec (.keyWrite k w v acc) s = .next t ∧
        ∀ m, m < 16 →
          let p := s.partner m
          let q : Partner := { p with exhausted := p.exhausted && !decide (p.txKey = k) }
          t.partner m = if p.en = true ∧ m ≠ s.selfMember ∧ (p.txKey = k ∨ p.rxKey = k) then
            { q with st := .joining, high := 0, bitmap := 0, txCtr := 1 } else q)) ∧
    (∀ m, m < 16 → s.grants (0x6100 + 16 * m) acc = true →
      let p : Partner := { s.partner m with en := v.getLsbD 0, txKey := wbits v 7 4, rxKey := wbits v 11 8 }
      (v.getLsbD 0 = true → s.full = false → exec (.partCfgWrite m v acc) s = .next (s.answered acc).settle) ∧
      ((v.getLsbD 0 = false ∨ s.full = true) → (m = s.selfMember ∨ v.getLsbD 0 = (s.partner m).en) →
        exec (.partCfgWrite m v acc) s = .next ((s.answered acc).updPartner m fun _ => p).settle) ∧
      (v.getLsbD 0 = true → s.full = true → m ≠ s.selfMember → (s.partner m).en = false → (s.partner m).st = .down →
        ∃ t, exec (.partCfgWrite m v acc) s = .next t ∧ t.partner m = { p with
          tokens := wbits s.peer.rate 31 16, high := 0, bitmap := 0, txCtr := 1, st := .joining }) ∧
      (v.getLsbD 0 = false → m ≠ s.selfMember → (s.partner m).en = true → (s.partner m).st ≠ .up →
        exec (.partCfgWrite m v acc) s = .next ((s.answered acc).updPartner m fun _ => { p with st := .down }).settle)) ∧
    (s.grants 0x640C acc = true → exec (.migStart acc) s = .next (s.answered acc).migStart.settle ∧
      exec (.migAbort acc) s = .next ((s.answered acc).migOutFail 0x0C).settle) ∧
    (let dest := wbits s.peer.migCfg 3 0
     let gid := wbits s.peer.migGid 11 0
     let sh := wbits s.peer.migCfg 7 4 + 1
     let no (code : Nat) : Prop := s.migStart = s.updPeer fun p => { p with migStat := word (code * 256) }
     (s.full = false → no 0x02) ∧ (s.full = true → s.peer.out.isSome = true → no 0x01) ∧
     (s.full = true → s.peer.out = none → (s.partner dest).st ≠ .up → no 0x02) ∧
     (s.full = true → s.peer.out = none → (s.partner dest).st = .up →
       (s.group? gid = none → no 0x03) ∧
       (∀ g, s.group? gid = some g → (g.stage ≠ .armed ∨ g.parked.isSome = true ∨ (s.tb g.tb).src ≠ 3) → no 0x03) ∧
       (∀ g, s.group? gid = some g → g.stage = .armed → g.parked = none → (s.tb g.tb).src = 3 → s.peer.lastMigId + 1 < 2 ^ 32 →
         let n := ceilDiv ((s.tb g.tb).value.toNat + s.peer.migLead.toNat - g.lead) g.p
         s.migStart.peer.out = some { id := s.peer.lastMigId + 1, gid := gid, dest := dest, s := n, nshadow := sh, state := 1 } ∧
         s.migStart.peer.migFrame = word (n + sh) ∧ s.migStart.peer.migStat = 0))) ∧
    (s.grants 0x6418 acc = true →
      let t := (s.answered acc).updPeer fun p => { p with acptGid := v &&& 0x81FFFFFF#32 }
      (s.peer.inc = none → exec (.acptEnClear v acc) s = .next t.settle) ∧
      (∀ x, s.peer.inc = some x → exec (.acptEnClear v acc) s
        = .next (if v.getLsbD 31 = false ∧ x.state ≠ 3 then t.migInFail 0x0C else t).settle)) ∧
    (s.running = true → s.early = true → 0 < wbits s.peer.hb 15 0 →
      exec .heartbeatPeriod s = .next ((List.range 16).foldl (fun (t : State) m => match (t.partner m).st with
        | .down => t
        | .joining => t.sendPeer m 0x01 t.helloBody true
        | .up => t.periodSend m) s).settle ∧
      (∀ m, (s.partner m).st = .up → s.peer.out = none → s.periodSend m = s.sendPeer m 0x02 s.heartbeatBody true)) ∧
    (∀ m, m < 16 → s.running = true → (s.partner m).st = .up → 0 < wbits s.peer.hb 15 0 →
      let late := max 1 (wbits s.peer.hb 23 16) * (wbits s.peer.hb 15 0 * 1024) ≤ s.fclk - (s.partner m).heard
      (late → exec (.hbMissExpiry m) s = .next ((s.partnerTo m .joining).raise pgPeer 1).settle) ∧
      (¬ late → exec (.hbMissExpiry m) s = .next s.settle)) ∧
    (s.running = true → ∃ t, exec .tokenBucketRefill s = .next t ∧ t.groups = s.groups ∧ t.hdrs = s.hdrs ∧
      ∀ m, (s.partner m).en = true → t.partner m = { s.partner m with
        tokens := min (wbits s.peer.rate 31 16) ((s.partner m).tokens + wbits s.peer.rate 15 0) }) ∧
    (s.running = true → ∀ o g, s.peer.out = some o → o.state = 2 → s.group? o.gid = some g →
      (o.s < g.oldest → exec .migSnapshot s = .next (s.migOutFail 0x07).settle) ∧
      (g.oldest < o.s → exec .migSnapshot s = .next s.settle) ∧
      (∀ c l, g.oldest = o.s → (List.range g.nmem).findSome? (s.badSlotLine g) = some (c, l) →
        exec .migSnapshot s = .next (s.fault c .spd l 0).settle) ∧
      (g.oldest = o.s → (List.range g.nmem).findSome? (s.badSlotLine g) = none →
        ∃ t, exec .migSnapshot s = .next t ∧ t.peer.out = some { o with state := 3 } ∧ t.groups = s.groups)) ∧
    (∀ f : RawFrame, s.running = true →
      let bad := f.err = true ∨ f.framing = true ∨ f.full = true ∨ f.bytes.length < 32 ∨ 9216 < f.bytes.length
      (bad → exec (.peerFrameDropped f) s = .next (s.updPeer fun q => { q with rxBad := satAdd 0xFFFF q.rxBad 1 }).settle) ∧
      (¬ bad → ∀ u, s.peerReceive (rawParse f).1 (rawParse f).2 = (u, none) → exec (.peerFrameDropped f) s = .next u.settle))

/-! ### Rules stated whole -/

/-- R298: v has reached w exactly when (v - w) mod 2^64 < 2^63; equal values have reached each other; two values at a distance of 2^63
have not, in either direction. -/
def Obligations.FenceValuesAreComparedBySerialNumber : Prop :=
  (∀ v w : DWord, fenceReached v w = true ↔ (v.toNat + 2 ^ 64 - w.toNat) % 2 ^ 64 < 2 ^ 63) ∧
  (∀ v : DWord, fenceReached v v = true) ∧
  (∀ v w : DWord, (v - w).toNat = 2 ^ 63 → fenceReached v w = false ∧ fenceReached w v = false)

/-- R411: until EARLY a write or a read of any page but GLB and FUSE answers DONE with zero data and changes nothing else, and the pages
of packs and cores whose domain is not acknowledged behave so in every stage; the GLB page acts throughout. -/
def Obligations.OnlyGlbAndFuseActUntilEarly : Prop :=
  ∀ (s : State) (a : Nat) (v : Word) (acc : Acc), s.running = true →
    let k := pageKind (regAddr a)
    let silent := exec (.registerWrite a v acc) s = .next ({ s with cfgResp := (0, 0), cfgRid := acc.id } : State).settle ∧
      s.cfgRead (regAddr a) acc = { s with cfgResp := (0, 0), cfgRid := acc.id }
    (s.boot.stage = .rom → k ≠ .glb → k ≠ .fuse → silent) ∧
    (∀ p, k = .pack p → (s.pack p).pdAck = false → silent) ∧
    (∀ c, k = .core c → (s.core c).pdAck = false → silent) ∧
    (k = .glb ∨ k = .fuse → pageReg k (regAddr a % 0x1000) = true → readAllowed (regAddr a) acc = true →
      s.cfgRead (regAddr a) acc = { s with cfgResp := (0, s.readReg (regAddr a)), cfgRid := acc.id }) ∧
    (k = .glb → regAddr a = 0x24 → writeAllowed (regAddr a) acc = true → ∃ t,
      exec (.registerWrite a v acc) s = .next t ∧ (t.hdr 0).mask = v)

/-- R50: E8M0 code c from 0 to 0xFE has the value 2^(c - 127) and code 0xFF is NaN, so no code is zero or negative; an E4M3 scale has the
E4M3 value of its code. -/
def Obligations.ScaleCodesHaveTheirValues : Prop :=
  (∀ c, c < 255 → scaleValue true c = .fin false 1 ((c : Int) - 127)) ∧ scaleValue true 255 = .nan ∧
  (∀ c, scaleValue false c = Fmt.e4m3.decode c)
end

