-- ==== Sys2Proof/Laws/Sparse.lean ====
section
/-! SUPPORT. Laws of sparse tables: what a read gives after a write, and that writes keep the canonical form. -/

namespace Sys2Proof.Machine

variable {α : Type}

theorem Sparse.above_mono {j k : Nat} (m : Sparse α) (h : j ≤ k) (ha : Sparse.above k m = true) : Sparse.above j m = true := by
  cases m with
  | nil => rfl
  | cons e r => simp only [Sparse.above, decide_eq_true_eq] at *; omega

theorem Sparse.get_of_above (d : α) (m : Sparse α) (k : Nat) (hr : m.rising = true) (ha : Sparse.above k m = true) :
    Sparse.get d m k = d := by
  induction m with
  | nil => rfl
  | cons e r ih =>
    obtain ⟨j, w⟩ := e
    simp only [Sparse.above, decide_eq_true_eq] at ha
    simp only [Sparse.rising, Bool.and_eq_true] at hr
    rw [Sparse.get, if_neg (by omega)]
    exact ih hr.2 (Sparse.above_mono r (by omega) hr.1)

/-- A write is read back, and leaves every other key as it was. -/
theorem Sparse.get_put (d : α) (m : Sparse α) (k : Nat) (v : α) (j : Nat) :
    Sparse.get d (m.put k v) j = if j = k then v else Sparse.get d m j := by
  induction m with
  | nil => simp [Sparse.put, Sparse.get]
  | cons e r ih =>
    obtain ⟨i, w⟩ := e
    by_cases h1 : k < i
    · by_cases h : j = k <;> simp [Sparse.put, Sparse.get, h1, h]
    · by_cases h2 : k = i
      · subst h2
        by_cases h : j = k <;> simp [Sparse.put, Sparse.get, h]
      · by_cases h : j = k
        · subst h; simp [Sparse.put, Sparse.get, h1, h2, ih]
        · simp [Sparse.put, Sparse.get, h1, h2, ih, h]

@[simp] theorem Sparse.get_put_self (d : α) (m : Sparse α) (k : Nat) (v : α) : Sparse.get d (m.put k v) k = v := by
  rw [Sparse.get_put, if_pos rfl]

theorem Sparse.get_put_ne (d : α) (m : Sparse α) {k j : Nat} (v : α) (h : j ≠ k) :
    Sparse.get d (m.put k v) j = Sparse.get d m j := by
  rw [Sparse.get_put, if_neg h]

/-- Removing a key makes it read as the default, in a table whose keys rise. -/
theorem Sparse.get_del (d : α) (m : Sparse α) (k : Nat) (hr : m.rising = true) (j : Nat) :
    Sparse.get d (m.del k) j = if j = k then d else Sparse.get d m j := by
  induction m with
  | nil => simp [Sparse.del, Sparse.get]
  | cons e r ih =>
    obtain ⟨i, w⟩ := e
    simp only [Sparse.rising, Bool.and_eq_true] at hr
    by_cases h1 : k < i
    · rw [Sparse.del, if_pos h1]
      by_cases h : j = k
      · rw [if_pos h, h]
        exact Sparse.get_of_above d _ _ (by simp only [Sparse.rising, hr.1, hr.2, Bool.and_self]) (by simpa only [Sparse.above, decide_eq_true_eq] using h1)
      · rw [if_neg h]
    · by_cases h2 : k = i
      · rw [Sparse.del, if_neg h1, if_pos h2]
        by_cases h : j = k
        · rw [if_pos h, h, h2]; exact Sparse.get_of_above d _ _ hr.2 hr.1
        · rw [if_neg h, Sparse.get, if_neg (by omega)]
      · rw [Sparse.del, if_neg h1, if_neg h2, Sparse.get, Sparse.get, ih hr.2]
        by_cases h : j = k
        · simp [h, h2]
        · simp [h]

/-- A write that keeps the canonical form is read back too. -/
theorem Sparse.get_set [DecidableEq α] (d : α) (m : Sparse α) (k : Nat) (v : α) (hr : m.rising = true) (j : Nat) :
    Sparse.get d (m.set d k v) j = if j = k then v else Sparse.get d m j := by
  unfold Sparse.set
  split_ifs with h1 h2 h2
  · rw [Sparse.get_del d m k hr, if_pos h2, h1]
  · rw [Sparse.get_del d m k hr, if_neg h2]
  · rw [Sparse.get_put, if_pos h2]
  · rw [Sparse.get_put, if_neg h2]

theorem Sparse.above_put (m : Sparse α) (i k : Nat) (v : α) (hi : i < k) (ha : Sparse.above i m = true) :
    Sparse.above i (m.put k v) = true := by
  cases m with
  | nil => simpa [Sparse.put, Sparse.above] using hi
  | cons e r =>
    obtain ⟨j, w⟩ := e
    simp only [Sparse.above, decide_eq_true_eq] at ha
    rw [Sparse.put]
    split_ifs <;> simp [Sparse.above, *]

theorem Sparse.rising_put (m : Sparse α) (k : Nat) (v : α) (hr : m.rising = true) : (m.put k v).rising = true := by
  induction m with
  | nil => rfl
  | cons e r ih =>
    obtain ⟨i, w⟩ := e
    simp only [Sparse.rising, Bool.and_eq_true] at hr
    rw [Sparse.put]
    split_ifs with h1 h2
    · simp only [Sparse.rising, Sparse.above, decide_eq_true_eq, Bool.and_eq_true]
      exact ⟨h1, hr⟩
    · subst h2; simp [Sparse.rising, hr]
    · simp only [Sparse.rising, Bool.and_eq_true]
      exact ⟨Sparse.above_put r i k v (by omega) hr.1, ih hr.2⟩

theorem Sparse.above_del (m : Sparse α) (i k : Nat) (hr : m.rising = true) (ha : Sparse.above i m = true) :
    Sparse.above i (m.del k) = true := by
  cases m with
  | nil => rfl
  | cons e r =>
    obtain ⟨j, w⟩ := e
    simp only [Sparse.above, decide_eq_true_eq] at ha
    simp only [Sparse.rising, Bool.and_eq_true] at hr
    rw [Sparse.del]
    split_ifs
    · simpa [Sparse.above] using ha
    · exact Sparse.above_mono r (by omega) hr.1
    · simpa [Sparse.above] using ha

theorem Sparse.rising_del (m : Sparse α) (k : Nat) (hr : m.rising = true) : (m.del k).rising = true := by
  induction m with
  | nil => rfl
  | cons e r ih =>
    obtain ⟨i, w⟩ := e
    have h := hr
    simp only [Sparse.rising, Bool.and_eq_true] at hr
    rw [Sparse.del]
    split_ifs
    · exact h
    · exact hr.2
    · simp only [Sparse.rising, Bool.and_eq_true]
      exact ⟨Sparse.above_del r i k hr.2 hr.1, ih hr.2⟩

theorem Sparse.mem_put (m : Sparse α) (k : Nat) (v : α) {e : Nat × α} (h : e ∈ m.put k v) : e = (k, v) ∨ e ∈ m := by
  induction m with
  | nil => simpa [Sparse.put] using h
  | cons x r ih =>
    obtain ⟨i, w⟩ := x
    rw [Sparse.put] at h
    split_ifs at h <;> simp only [List.mem_cons] at h ⊢
    · tauto
    · tauto
    · rcases h with h | h
      · tauto
      · rcases ih h with h | h <;> tauto

theorem Sparse.mem_del (m : Sparse α) (k : Nat) {e : Nat × α} (h : e ∈ m.del k) : e ∈ m := by
  induction m with
  | nil => simp [Sparse.del] at h
  | cons x r ih =>
    obtain ⟨i, w⟩ := x
    rw [Sparse.del] at h
    split_ifs at h <;> simp only [List.mem_cons] at h ⊢
    · exact h
    · exact Or.inr h
    · exact h.imp_right ih

/-- `set` keeps the canonical form. -/
theorem Sparse.wf_set [DecidableEq α] (d : α) (m : Sparse α) (k : Nat) (v : α) (h : Sparse.wf d m = true) :
    Sparse.wf d (m.set d k v) = true := by
  simp only [Sparse.wf, Sparse.noDefault, Bool.and_eq_true, List.all_eq_true, decide_eq_true_eq] at *
  unfold Sparse.set
  split_ifs with hv
  · exact ⟨Sparse.rising_del m k h.1, fun e he => h.2 e (Sparse.mem_del m k he)⟩
  · refine ⟨Sparse.rising_put m k v h.1, fun e he => ?_⟩
    rcases Sparse.mem_put m k v he with rfl | he
    · exact hv
    · exact h.2 e he

theorem Sparse.above_filter (p : Nat × α → Bool) (i : Nat) (m : Sparse α) (hr : m.rising = true) (ha : Sparse.above i m = true) :
    Sparse.above i (m.filter p) = true := by
  induction m with
  | nil => rfl
  | cons e r ih =>
    obtain ⟨j, w⟩ := e
    simp only [Sparse.above, decide_eq_true_eq] at ha
    simp only [Sparse.rising, Bool.and_eq_true] at hr
    rw [List.filter_cons]
    split_ifs
    · simpa [Sparse.above] using ha
    · exact ih hr.2 (Sparse.above_mono r (by omega) hr.1)

/-- Dropping entries keeps the canonical form. -/
theorem Sparse.wf_filter [DecidableEq α] (d : α) (p : Nat × α → Bool) (m : Sparse α) (h : Sparse.wf d m = true) :
    Sparse.wf d (m.filter p) = true := by
  simp only [Sparse.wf, Sparse.noDefault, Bool.and_eq_true, List.all_eq_true, decide_eq_true_eq] at *
  refine ⟨?_, fun e he => h.2 e (List.mem_of_mem_filter he)⟩
  have hr := h.1
  clear h
  induction m with
  | nil => rfl
  | cons e r ih =>
    have h := hr
    obtain ⟨j, w⟩ := e
    simp only [Sparse.rising, Bool.and_eq_true] at hr
    rw [List.filter_cons]
    split_ifs
    · simp only [Sparse.rising, Bool.and_eq_true]
      exact ⟨Sparse.above_filter p j r hr.2 hr.1, ih hr.2⟩
    · exact ih hr.2

/-- What `find?` by key gives after a write. -/
theorem Sparse.find_put (m : Sparse α) (k : Nat) (v : α) (j : Nat) :
    (List.find? (fun e => e.1 == j) (m.put k v)) =
      if j = k then some (k, v) else List.find? (fun e => e.1 == j) m := by
  induction m with
  | nil =>
    by_cases h : j = k
    · simp [Sparse.put, h]
    · simp [Sparse.put, h, Ne.symm h]
  | cons e r ih =>
    obtain ⟨i, w⟩ := e
    by_cases h : j = k
    · subst h
      by_cases h1 : j < i
      · simp [Sparse.put, h1]
      · by_cases h2 : j = i
        · simp [Sparse.put, h2]
        · simp only [Sparse.put, if_neg h1, if_neg h2, List.find?_cons, ih]
          rw [(by simpa using Ne.symm h2 : (i == j) = false)]
    · have hk : (k == j) = false := by simpa using Ne.symm h
      by_cases h1 : k < i
      · simp [Sparse.put, h1, hk, h]
      · by_cases h2 : k = i
        · subst h2; simp [Sparse.put, hk, h]
        · simp only [Sparse.put, if_neg h1, if_neg h2, List.find?_cons, ih, if_neg h]

end Sys2Proof.Machine
end

