-- ==== Sys2Proof/Laws/State.lean ====
section
/-! SUPPORT. What the shared operations over State leave alone: one lemma per field and update. -/

namespace Sys2Proof.Machine

/-- An update written out: everything but the fields that an operation names keeps its value. -/
theorem State.hostWrite_eq (s : State) (a : Nat) (bs : List Byte) :
    s.hostWrite a bs = { s with host := (s.hostWrite a bs).host, hostOpen := (s.hostWrite a bs).hostOpen } := by
  induction bs generalizing s a with
  | nil => rfl
  | cons b bs ih =>
    simp only [State.hostWrite]
    rw [ih]
    rfl

theorem State.msi_eq (s : State) (l : Nat) :
    s.msi l = { s with host := (s.msi l).host, hostOpen := (s.msi l).hostOpen } := by
  unfold State.msi
  dsimp only
  split
  · rw [State.hostPut, State.hostWrite_eq]
  · rfl

theorem State.fold_msi_eq (ls : List Nat) (p : Nat → Bool) (s : State) :
    ls.foldl (fun t l => if p l then t.msi l else t) s =
      { s with host := (ls.foldl (fun t l => if p l then t.msi l else t) s).host
               hostOpen := (ls.foldl (fun t l => if p l then t.msi l else t) s).hostOpen } := by
  induction ls generalizing s with
  | nil => rfl
  | cons l ls ih =>
    rw [List.foldl_cons]
    split
    · rw [ih (s.msi l), State.msi_eq s l]
    · rw [ih s]

/-- Settling changes the lines, and host memory by the messages of the lines that rise. -/
theorem State.settle_eq (s : State) :
    s.settle = { s with irq := s.irqLevels, host := s.settle.host, hostOpen := s.settle.hostOpen } := by
  have h := State.fold_msi_eq (List.range 16) (fun l => s.irqLevels.getLsbD l && !s.irq.getLsbD l) s
  unfold State.settle
  dsimp only
  generalize (List.range 16).foldl (fun t l => if (s.irqLevels.getLsbD l && !s.irq.getLsbD l) = true then t.msi l else t) s = t at h ⊢
  rw [h]


/-! ### settle -/

@[simp] theorem State.settle_conf (s : State) : s.settle.conf = s.conf := by rw [State.settle_eq]
@[simp] theorem State.settle_fuse (s : State) : s.settle.fuse = s.fuse := by rw [State.settle_eq]
@[simp] theorem State.settle_fclk (s : State) : s.settle.fclk = s.fclk := by rw [State.settle_eq]
@[simp] theorem State.settle_boot (s : State) : s.settle.boot = s.boot := by rw [State.settle_eq]
@[simp] theorem State.settle_glb (s : State) : s.settle.glb = s.glb := by rw [State.settle_eq]
@[simp] theorem State.settle_sd (s : State) : s.settle.sd = s.sd := by rw [State.settle_eq]
@[simp] theorem State.settle_power (s : State) : s.settle.power = s.power := by rw [State.settle_eq]
@[simp] theorem State.settle_mport (s : State) : s.settle.mport = s.mport := by rw [State.settle_eq]
@[simp] theorem State.settle_tport (s : State) : s.settle.tport = s.tport := by rw [State.settle_eq]
@[simp] theorem State.settle_aport (s : State) : s.settle.aport = s.aport := by rw [State.settle_eq]
@[simp] theorem State.settle_peer (s : State) : s.settle.peer = s.peer := by rw [State.settle_eq]
@[simp] theorem State.settle_dma (s : State) : s.settle.dma = s.dma := by rw [State.settle_eq]
@[simp] theorem State.settle_dmaQueue (s : State) : s.settle.dmaQueue = s.dmaQueue := by rw [State.settle_eq]
@[simp] theorem State.settle_tbs (s : State) : s.settle.tbs = s.tbs := by rw [State.settle_eq]
@[simp] theorem State.settle_tickEdge (s : State) : s.settle.tickEdge = s.tickEdge := by rw [State.settle_eq]
@[simp] theorem State.settle_packs (s : State) : s.settle.packs = s.packs := by rw [State.settle_eq]
@[simp] theorem State.settle_cores (s : State) : s.settle.cores = s.cores := by rw [State.settle_eq]
@[simp] theorem State.settle_tele (s : State) : s.settle.tele = s.tele := by rw [State.settle_eq]
@[simp] theorem State.settle_kennel (s : State) : s.settle.kennel = s.kennel := by rw [State.settle_eq]
@[simp] theorem State.settle_traceEn (s : State) : s.settle.traceEn = s.traceEn := by rw [State.settle_eq]
@[simp] theorem State.settle_traceLost (s : State) : s.settle.traceLost = s.traceLost := by rw [State.settle_eq]
@[simp] theorem State.settle_traceGap (s : State) : s.settle.traceGap = s.traceGap := by rw [State.settle_eq]
@[simp] theorem State.settle_trace (s : State) : s.settle.trace = s.trace := by rw [State.settle_eq]
@[simp] theorem State.settle_obsSel (s : State) : s.settle.obsSel = s.obsSel := by rw [State.settle_eq]
@[simp] theorem State.settle_tap (s : State) : s.settle.tap = s.tap := by rw [State.settle_eq]
@[simp] theorem State.settle_hdrs (s : State) : s.settle.hdrs = s.hdrs := by rw [State.settle_eq]
@[simp] theorem State.settle_cfgResp (s : State) : s.settle.cfgResp = s.cfgResp := by rw [State.settle_eq]
@[simp] theorem State.settle_cfgRid (s : State) : s.settle.cfgRid = s.cfgRid := by rw [State.settle_eq]
@[simp] theorem State.settle_rings (s : State) : s.settle.rings = s.rings := by rw [State.settle_eq]
@[simp] theorem State.settle_jobs (s : State) : s.settle.jobs = s.jobs := by rw [State.settle_eq]
@[simp] theorem State.settle_fences (s : State) : s.settle.fences = s.fences := by rw [State.settle_eq]
@[simp] theorem State.settle_groups (s : State) : s.settle.groups = s.groups := by rw [State.settle_eq]
@[simp] theorem State.settle_leash (s : State) : s.settle.leash = s.leash := by rw [State.settle_eq]
@[simp] theorem State.settle_hqs (s : State) : s.settle.hqs = s.hqs := by rw [State.settle_eq]
@[simp] theorem State.settle_rwrites (s : State) : s.settle.rwrites = s.rwrites := by rw [State.settle_eq]
@[simp] theorem State.settle_racks (s : State) : s.settle.racks = s.racks := by rw [State.settle_eq]
@[simp] theorem State.settle_fresh (s : State) : s.settle.fresh = s.fresh := by rw [State.settle_eq]
@[simp] theorem State.settle_pending (s : State) : s.settle.pending = s.pending := by rw [State.settle_eq]

/-! ### hostWrite -/

@[simp] theorem State.hostWrite_conf (s : State) (a : Nat) (bs : List Byte) : (s.hostWrite a bs).conf = s.conf := by rw [State.hostWrite_eq]
@[simp] theorem State.hostWrite_fuse (s : State) (a : Nat) (bs : List Byte) : (s.hostWrite a bs).fuse = s.fuse := by rw [State.hostWrite_eq]
@[simp] theorem State.hostWrite_fclk (s : State) (a : Nat) (bs : List Byte) : (s.hostWrite a bs).fclk = s.fclk := by rw [State.hostWrite_eq]
@[simp] theorem State.hostWrite_boot (s : State) (a : Nat) (bs : List Byte) : (s.hostWrite a bs).boot = s.boot := by rw [State.hostWrite_eq]
@[simp] theorem State.hostWrite_glb (s : State) (a : Nat) (bs : List Byte) : (s.hostWrite a bs).glb = s.glb := by rw [State.hostWrite_eq]
@[simp] theorem State.hostWrite_sd (s : State) (a : Nat) (bs : List Byte) : (s.hostWrite a bs).sd = s.sd := by rw [State.hostWrite_eq]
@[simp] theorem State.hostWrite_power (s : State) (a : Nat) (bs : List Byte) : (s.hostWrite a bs).power = s.power := by rw [State.hostWrite_eq]
@[simp] theorem State.hostWrite_mport (s : State) (a : Nat) (bs : List Byte) : (s.hostWrite a bs).mport = s.mport := by rw [State.hostWrite_eq]
@[simp] theorem State.hostWrite_tport (s : State) (a : Nat) (bs : List Byte) : (s.hostWrite a bs).tport = s.tport := by rw [State.hostWrite_eq]
@[simp] theorem State.hostWrite_aport (s : State) (a : Nat) (bs : List Byte) : (s.hostWrite a bs).aport = s.aport := by rw [State.hostWrite_eq]
@[simp] theorem State.hostWrite_peer (s : State) (a : Nat) (bs : List Byte) : (s.hostWrite a bs).peer = s.peer := by rw [State.hostWrite_eq]
@[simp] theorem State.hostWrite_dma (s : State) (a : Nat) (bs : List Byte) : (s.hostWrite a bs).dma = s.dma := by rw [State.hostWrite_eq]
@[simp] theorem State.hostWrite_dmaQueue (s : State) (a : Nat) (bs : List Byte) : (s.hostWrite a bs).dmaQueue = s.dmaQueue := by rw [State.hostWrite_eq]
@[simp] theorem State.hostWrite_tbs (s : State) (a : Nat) (bs : List Byte) : (s.hostWrite a bs).tbs = s.tbs := by rw [State.hostWrite_eq]
@[simp] theorem State.hostWrite_tickEdge (s : State) (a : Nat) (bs : List Byte) : (s.hostWrite a bs).tickEdge = s.tickEdge := by rw [State.hostWrite_eq]
@[simp] theorem State.hostWrite_packs (s : State) (a : Nat) (bs : List Byte) : (s.hostWrite a bs).packs = s.packs := by rw [State.hostWrite_eq]
@[simp] theorem State.hostWrite_cores (s : State) (a : Nat) (bs : List Byte) : (s.hostWrite a bs).cores = s.cores := by rw [State.hostWrite_eq]
@[simp] theorem State.hostWrite_tele (s : State) (a : Nat) (bs : List Byte) : (s.hostWrite a bs).tele = s.tele := by rw [State.hostWrite_eq]
@[simp] theorem State.hostWrite_kennel (s : State) (a : Nat) (bs : List Byte) : (s.hostWrite a bs).kennel = s.kennel := by rw [State.hostWrite_eq]
@[simp] theorem State.hostWrite_traceEn (s : State) (a : Nat) (bs : List Byte) : (s.hostWrite a bs).traceEn = s.traceEn := by rw [State.hostWrite_eq]
@[simp] theorem State.hostWrite_traceLost (s : State) (a : Nat) (bs : List Byte) : (s.hostWrite a bs).traceLost = s.traceLost := by rw [State.hostWrite_eq]
@[simp] theorem State.hostWrite_traceGap (s : State) (a : Nat) (bs : List Byte) : (s.hostWrite a bs).traceGap = s.traceGap := by rw [State.hostWrite_eq]
@[simp] theorem State.hostWrite_trace (s : State) (a : Nat) (bs : List Byte) : (s.hostWrite a bs).trace = s.trace := by rw [State.hostWrite_eq]
@[simp] theorem State.hostWrite_obsSel (s : State) (a : Nat) (bs : List Byte) : (s.hostWrite a bs).obsSel = s.obsSel := by rw [State.hostWrite_eq]
@[simp] theorem State.hostWrite_tap (s : State) (a : Nat) (bs : List Byte) : (s.hostWrite a bs).tap = s.tap := by rw [State.hostWrite_eq]
@[simp] theorem State.hostWrite_hdrs (s : State) (a : Nat) (bs : List Byte) : (s.hostWrite a bs).hdrs = s.hdrs := by rw [State.hostWrite_eq]
@[simp] theorem State.hostWrite_irq (s : State) (a : Nat) (bs : List Byte) : (s.hostWrite a bs).irq = s.irq := by rw [State.hostWrite_eq]
@[simp] theorem State.hostWrite_cfgResp (s : State) (a : Nat) (bs : List Byte) : (s.hostWrite a bs).cfgResp = s.cfgResp := by rw [State.hostWrite_eq]
@[simp] theorem State.hostWrite_cfgRid (s : State) (a : Nat) (bs : List Byte) : (s.hostWrite a bs).cfgRid = s.cfgRid := by rw [State.hostWrite_eq]
@[simp] theorem State.hostWrite_rings (s : State) (a : Nat) (bs : List Byte) : (s.hostWrite a bs).rings = s.rings := by rw [State.hostWrite_eq]
@[simp] theorem State.hostWrite_jobs (s : State) (a : Nat) (bs : List Byte) : (s.hostWrite a bs).jobs = s.jobs := by rw [State.hostWrite_eq]
@[simp] theorem State.hostWrite_fences (s : State) (a : Nat) (bs : List Byte) : (s.hostWrite a bs).fences = s.fences := by rw [State.hostWrite_eq]
@[simp] theorem State.hostWrite_groups (s : State) (a : Nat) (bs : List Byte) : (s.hostWrite a bs).groups = s.groups := by rw [State.hostWrite_eq]
@[simp] theorem State.hostWrite_leash (s : State) (a : Nat) (bs : List Byte) : (s.hostWrite a bs).leash = s.leash := by rw [State.hostWrite_eq]
@[simp] theorem State.hostWrite_hqs (s : State) (a : Nat) (bs : List Byte) : (s.hostWrite a bs).hqs = s.hqs := by rw [State.hostWrite_eq]
@[simp] theorem State.hostWrite_rwrites (s : State) (a : Nat) (bs : List Byte) : (s.hostWrite a bs).rwrites = s.rwrites := by rw [State.hostWrite_eq]
@[simp] theorem State.hostWrite_racks (s : State) (a : Nat) (bs : List Byte) : (s.hostWrite a bs).racks = s.racks := by rw [State.hostWrite_eq]
@[simp] theorem State.hostWrite_fresh (s : State) (a : Nat) (bs : List Byte) : (s.hostWrite a bs).fresh = s.fresh := by rw [State.hostWrite_eq]
@[simp] theorem State.hostWrite_pending (s : State) (a : Nat) (bs : List Byte) : (s.hostWrite a bs).pending = s.pending := by rw [State.hostWrite_eq]

/-! ### hostPut -/

@[simp] theorem State.hostPut_conf (s : State) (a n v : Nat) : (s.hostPut a n v).conf = s.conf := by simp [State.hostPut]
@[simp] theorem State.hostPut_fuse (s : State) (a n v : Nat) : (s.hostPut a n v).fuse = s.fuse := by simp [State.hostPut]
@[simp] theorem State.hostPut_fclk (s : State) (a n v : Nat) : (s.hostPut a n v).fclk = s.fclk := by simp [State.hostPut]
@[simp] theorem State.hostPut_boot (s : State) (a n v : Nat) : (s.hostPut a n v).boot = s.boot := by simp [State.hostPut]
@[simp] theorem State.hostPut_glb (s : State) (a n v : Nat) : (s.hostPut a n v).glb = s.glb := by simp [State.hostPut]
@[simp] theorem State.hostPut_sd (s : State) (a n v : Nat) : (s.hostPut a n v).sd = s.sd := by simp [State.hostPut]
@[simp] theorem State.hostPut_power (s : State) (a n v : Nat) : (s.hostPut a n v).power = s.power := by simp [State.hostPut]
@[simp] theorem State.hostPut_mport (s : State) (a n v : Nat) : (s.hostPut a n v).mport = s.mport := by simp [State.hostPut]
@[simp] theorem State.hostPut_tport (s : State) (a n v : Nat) : (s.hostPut a n v).tport = s.tport := by simp [State.hostPut]
@[simp] theorem State.hostPut_aport (s : State) (a n v : Nat) : (s.hostPut a n v).aport = s.aport := by simp [State.hostPut]
@[simp] theorem State.hostPut_peer (s : State) (a n v : Nat) : (s.hostPut a n v).peer = s.peer := by simp [State.hostPut]
@[simp] theorem State.hostPut_dma (s : State) (a n v : Nat) : (s.hostPut a n v).dma = s.dma := by simp [State.hostPut]
@[simp] theorem State.hostPut_dmaQueue (s : State) (a n v : Nat) : (s.hostPut a n v).dmaQueue = s.dmaQueue := by simp [State.hostPut]
@[simp] theorem State.hostPut_tbs (s : State) (a n v : Nat) : (s.hostPut a n v).tbs = s.tbs := by simp [State.hostPut]
@[simp] theorem State.hostPut_tickEdge (s : State) (a n v : Nat) : (s.hostPut a n v).tickEdge = s.tickEdge := by simp [State.hostPut]
@[simp] theorem State.hostPut_packs (s : State) (a n v : Nat) : (s.hostPut a n v).packs = s.packs := by simp [State.hostPut]
@[simp] theorem State.hostPut_cores (s : State) (a n v : Nat) : (s.hostPut a n v).cores = s.cores := by simp [State.hostPut]
@[simp] theorem State.hostPut_tele (s : State) (a n v : Nat) : (s.hostPut a n v).tele = s.tele := by simp [State.hostPut]
@[simp] theorem State.hostPut_kennel (s : State) (a n v : Nat) : (s.hostPut a n v).kennel = s.kennel := by simp [State.hostPut]
@[simp] theorem State.hostPut_traceEn (s : State) (a n v : Nat) : (s.hostPut a n v).traceEn = s.traceEn := by simp [State.hostPut]
@[simp] theorem State.hostPut_traceLost (s : State) (a n v : Nat) : (s.hostPut a n v).traceLost = s.traceLost := by simp [State.hostPut]
@[simp] theorem State.hostPut_traceGap (s : State) (a n v : Nat) : (s.hostPut a n v).traceGap = s.traceGap := by simp [State.hostPut]
@[simp] theorem State.hostPut_trace (s : State) (a n v : Nat) : (s.hostPut a n v).trace = s.trace := by simp [State.hostPut]
@[simp] theorem State.hostPut_obsSel (s : State) (a n v : Nat) : (s.hostPut a n v).obsSel = s.obsSel := by simp [State.hostPut]
@[simp] theorem State.hostPut_tap (s : State) (a n v : Nat) : (s.hostPut a n v).tap = s.tap := by simp [State.hostPut]
@[simp] theorem State.hostPut_hdrs (s : State) (a n v : Nat) : (s.hostPut a n v).hdrs = s.hdrs := by simp [State.hostPut]
@[simp] theorem State.hostPut_irq (s : State) (a n v : Nat) : (s.hostPut a n v).irq = s.irq := by simp [State.hostPut]
@[simp] theorem State.hostPut_cfgResp (s : State) (a n v : Nat) : (s.hostPut a n v).cfgResp = s.cfgResp := by simp [State.hostPut]
@[simp] theorem State.hostPut_cfgRid (s : State) (a n v : Nat) : (s.hostPut a n v).cfgRid = s.cfgRid := by simp [State.hostPut]
@[simp] theorem State.hostPut_rings (s : State) (a n v : Nat) : (s.hostPut a n v).rings = s.rings := by simp [State.hostPut]
@[simp] theorem State.hostPut_jobs (s : State) (a n v : Nat) : (s.hostPut a n v).jobs = s.jobs := by simp [State.hostPut]
@[simp] theorem State.hostPut_fences (s : State) (a n v : Nat) : (s.hostPut a n v).fences = s.fences := by simp [State.hostPut]
@[simp] theorem State.hostPut_groups (s : State) (a n v : Nat) : (s.hostPut a n v).groups = s.groups := by simp [State.hostPut]
@[simp] theorem State.hostPut_leash (s : State) (a n v : Nat) : (s.hostPut a n v).leash = s.leash := by simp [State.hostPut]
@[simp] theorem State.hostPut_hqs (s : State) (a n v : Nat) : (s.hostPut a n v).hqs = s.hqs := by simp [State.hostPut]
@[simp] theorem State.hostPut_rwrites (s : State) (a n v : Nat) : (s.hostPut a n v).rwrites = s.rwrites := by simp [State.hostPut]
@[simp] theorem State.hostPut_racks (s : State) (a n v : Nat) : (s.hostPut a n v).racks = s.racks := by simp [State.hostPut]
@[simp] theorem State.hostPut_fresh (s : State) (a n v : Nat) : (s.hostPut a n v).fresh = s.fresh := by simp [State.hostPut]
@[simp] theorem State.hostPut_pending (s : State) (a n v : Nat) : (s.hostPut a n v).pending = s.pending := by simp [State.hostPut]

/-! ### hostOpenRange -/

@[simp] theorem State.hostOpenRange_conf (s : State) (a n : Nat) : (s.hostOpenRange a n).conf = s.conf := rfl
@[simp] theorem State.hostOpenRange_fuse (s : State) (a n : Nat) : (s.hostOpenRange a n).fuse = s.fuse := rfl
@[simp] theorem State.hostOpenRange_fclk (s : State) (a n : Nat) : (s.hostOpenRange a n).fclk = s.fclk := rfl
@[simp] theorem State.hostOpenRange_boot (s : State) (a n : Nat) : (s.hostOpenRange a n).boot = s.boot := rfl
@[simp] theorem State.hostOpenRange_glb (s : State) (a n : Nat) : (s.hostOpenRange a n).glb = s.glb := rfl
@[simp] theorem State.hostOpenRange_sd (s : State) (a n : Nat) : (s.hostOpenRange a n).sd = s.sd := rfl
@[simp] theorem State.hostOpenRange_power (s : State) (a n : Nat) : (s.hostOpenRange a n).power = s.power := rfl
@[simp] theorem State.hostOpenRange_mport (s : State) (a n : Nat) : (s.hostOpenRange a n).mport = s.mport := rfl
@[simp] theorem State.hostOpenRange_tport (s : State) (a n : Nat) : (s.hostOpenRange a n).tport = s.tport := rfl
@[simp] theorem State.hostOpenRange_aport (s : State) (a n : Nat) : (s.hostOpenRange a n).aport = s.aport := rfl
@[simp] theorem State.hostOpenRange_peer (s : State) (a n : Nat) : (s.hostOpenRange a n).peer = s.peer := rfl
@[simp] theorem State.hostOpenRange_dma (s : State) (a n : Nat) : (s.hostOpenRange a n).dma = s.dma := rfl
@[simp] theorem State.hostOpenRange_dmaQueue (s : State) (a n : Nat) : (s.hostOpenRange a n).dmaQueue = s.dmaQueue := rfl
@[simp] theorem State.hostOpenRange_tbs (s : State) (a n : Nat) : (s.hostOpenRange a n).tbs = s.tbs := rfl
@[simp] theorem State.hostOpenRange_tickEdge (s : State) (a n : Nat) : (s.hostOpenRange a n).tickEdge = s.tickEdge := rfl
@[simp] theorem State.hostOpenRange_packs (s : State) (a n : Nat) : (s.hostOpenRange a n).packs = s.packs := rfl
@[simp] theorem State.hostOpenRange_cores (s : State) (a n : Nat) : (s.hostOpenRange a n).cores = s.cores := rfl
@[simp] theorem State.hostOpenRange_tele (s : State) (a n : Nat) : (s.hostOpenRange a n).tele = s.tele := rfl
@[simp] theorem State.hostOpenRange_kennel (s : State) (a n : Nat) : (s.hostOpenRange a n).kennel = s.kennel := rfl
@[simp] theorem State.hostOpenRange_traceEn (s : State) (a n : Nat) : (s.hostOpenRange a n).traceEn = s.traceEn := rfl
@[simp] theorem State.hostOpenRange_traceLost (s : State) (a n : Nat) : (s.hostOpenRange a n).traceLost = s.traceLost := rfl
@[simp] theorem State.hostOpenRange_traceGap (s : State) (a n : Nat) : (s.hostOpenRange a n).traceGap = s.traceGap := rfl
@[simp] theorem State.hostOpenRange_trace (s : State) (a n : Nat) : (s.hostOpenRange a n).trace = s.trace := rfl
@[simp] theorem State.hostOpenRange_obsSel (s : State) (a n : Nat) : (s.hostOpenRange a n).obsSel = s.obsSel := rfl
@[simp] theorem State.hostOpenRange_tap (s : State) (a n : Nat) : (s.hostOpenRange a n).tap = s.tap := rfl
@[simp] theorem State.hostOpenRange_hdrs (s : State) (a n : Nat) : (s.hostOpenRange a n).hdrs = s.hdrs := rfl
@[simp] theorem State.hostOpenRange_irq (s : State) (a n : Nat) : (s.hostOpenRange a n).irq = s.irq := rfl
@[simp] theorem State.hostOpenRange_cfgResp (s : State) (a n : Nat) : (s.hostOpenRange a n).cfgResp = s.cfgResp := rfl
@[simp] theorem State.hostOpenRange_cfgRid (s : State) (a n : Nat) : (s.hostOpenRange a n).cfgRid = s.cfgRid := rfl
@[simp] theorem State.hostOpenRange_rings (s : State) (a n : Nat) : (s.hostOpenRange a n).rings = s.rings := rfl
@[simp] theorem State.hostOpenRange_jobs (s : State) (a n : Nat) : (s.hostOpenRange a n).jobs = s.jobs := rfl
@[simp] theorem State.hostOpenRange_fences (s : State) (a n : Nat) : (s.hostOpenRange a n).fences = s.fences := rfl
@[simp] theorem State.hostOpenRange_groups (s : State) (a n : Nat) : (s.hostOpenRange a n).groups = s.groups := rfl
@[simp] theorem State.hostOpenRange_leash (s : State) (a n : Nat) : (s.hostOpenRange a n).leash = s.leash := rfl
@[simp] theorem State.hostOpenRange_hqs (s : State) (a n : Nat) : (s.hostOpenRange a n).hqs = s.hqs := rfl
@[simp] theorem State.hostOpenRange_rwrites (s : State) (a n : Nat) : (s.hostOpenRange a n).rwrites = s.rwrites := rfl
@[simp] theorem State.hostOpenRange_racks (s : State) (a n : Nat) : (s.hostOpenRange a n).racks = s.racks := rfl
@[simp] theorem State.hostOpenRange_pending (s : State) (a n : Nat) : (s.hostOpenRange a n).pending = s.pending := rfl

/-! ### hostWriteCode -/

@[simp] theorem State.hostWriteCode_conf (s : State) (mem : MemCode) (a : Nat) (bs : List Byte) : (s.hostWriteCode mem a bs).conf = s.conf := by unfold State.hostWriteCode; split <;> simp
@[simp] theorem State.hostWriteCode_fuse (s : State) (mem : MemCode) (a : Nat) (bs : List Byte) : (s.hostWriteCode mem a bs).fuse = s.fuse := by unfold State.hostWriteCode; split <;> simp
@[simp] theorem State.hostWriteCode_fclk (s : State) (mem : MemCode) (a : Nat) (bs : List Byte) : (s.hostWriteCode mem a bs).fclk = s.fclk := by unfold State.hostWriteCode; split <;> simp
@[simp] theorem State.hostWriteCode_boot (s : State) (mem : MemCode) (a : Nat) (bs : List Byte) : (s.hostWriteCode mem a bs).boot = s.boot := by unfold State.hostWriteCode; split <;> simp
@[simp] theorem State.hostWriteCode_glb (s : State) (mem : MemCode) (a : Nat) (bs : List Byte) : (s.hostWriteCode mem a bs).glb = s.glb := by unfold State.hostWriteCode; split <;> simp
@[simp] theorem State.hostWriteCode_sd (s : State) (mem : MemCode) (a : Nat) (bs : List Byte) : (s.hostWriteCode mem a bs).sd = s.sd := by unfold State.hostWriteCode; split <;> simp
@[simp] theorem State.hostWriteCode_power (s : State) (mem : MemCode) (a : Nat) (bs : List Byte) : (s.hostWriteCode mem a bs).power = s.power := by unfold State.hostWriteCode; split <;> simp
@[simp] theorem State.hostWriteCode_mport (s : State) (mem : MemCode) (a : Nat) (bs : List Byte) : (s.hostWriteCode mem a bs).mport = s.mport := by unfold State.hostWriteCode; split <;> simp
@[simp] theorem State.hostWriteCode_tport (s : State) (mem : MemCode) (a : Nat) (bs : List Byte) : (s.hostWriteCode mem a bs).tport = s.tport := by unfold State.hostWriteCode; split <;> simp
@[simp] theorem State.hostWriteCode_aport (s : State) (mem : MemCode) (a : Nat) (bs : List Byte) : (s.hostWriteCode mem a bs).aport = s.aport := by unfold State.hostWriteCode; split <;> simp
@[simp] theorem State.hostWriteCode_peer (s : State) (mem : MemCode) (a : Nat) (bs : List Byte) : (s.hostWriteCode mem a bs).peer = s.peer := by unfold State.hostWriteCode; split <;> simp
@[simp] theorem State.hostWriteCode_dma (s : State) (mem : MemCode) (a : Nat) (bs : List Byte) : (s.hostWriteCode mem a bs).dma = s.dma := by unfold State.hostWriteCode; split <;> simp
@[simp] theorem State.hostWriteCode_dmaQueue (s : State) (mem : MemCode) (a : Nat) (bs : List Byte) : (s.hostWriteCode mem a bs).dmaQueue = s.dmaQueue := by unfold State.hostWriteCode; split <;> simp
@[simp] theorem State.hostWriteCode_tbs (s : State) (mem : MemCode) (a : Nat) (bs : List Byte) : (s.hostWriteCode mem a bs).tbs = s.tbs := by unfold State.hostWriteCode; split <;> simp
@[simp] theorem State.hostWriteCode_tickEdge (s : State) (mem : MemCode) (a : Nat) (bs : List Byte) : (s.hostWriteCode mem a bs).tickEdge = s.tickEdge := by unfold State.hostWriteCode; split <;> simp
@[simp] theorem State.hostWriteCode_packs (s : State) (mem : MemCode) (a : Nat) (bs : List Byte) : (s.hostWriteCode mem a bs).packs = s.packs := by unfold State.hostWriteCode; split <;> simp
@[simp] theorem State.hostWriteCode_cores (s : State) (mem : MemCode) (a : Nat) (bs : List Byte) : (s.hostWriteCode mem a bs).cores = s.cores := by unfold State.hostWriteCode; split <;> simp
@[simp] theorem State.hostWriteCode_tele (s : State) (mem : MemCode) (a : Nat) (bs : List Byte) : (s.hostWriteCode mem a bs).tele = s.tele := by unfold State.hostWriteCode; split <;> simp
@[simp] theorem State.hostWriteCode_kennel (s : State) (mem : MemCode) (a : Nat) (bs : List Byte) : (s.hostWriteCode mem a bs).kennel = s.kennel := by unfold State.hostWriteCode; split <;> simp
@[simp] theorem State.hostWriteCode_traceEn (s : State) (mem : MemCode) (a : Nat) (bs : List Byte) : (s.hostWriteCode mem a bs).traceEn = s.traceEn := by unfold State.hostWriteCode; split <;> simp
@[simp] theorem State.hostWriteCode_traceLost (s : State) (mem : MemCode) (a : Nat) (bs : List Byte) : (s.hostWriteCode mem a bs).traceLost = s.traceLost := by unfold State.hostWriteCode; split <;> simp
@[simp] theorem State.hostWriteCode_traceGap (s : State) (mem : MemCode) (a : Nat) (bs : List Byte) : (s.hostWriteCode mem a bs).traceGap = s.traceGap := by unfold State.hostWriteCode; split <;> simp
@[simp] theorem State.hostWriteCode_trace (s : State) (mem : MemCode) (a : Nat) (bs : List Byte) : (s.hostWriteCode mem a bs).trace = s.trace := by unfold State.hostWriteCode; split <;> simp
@[simp] theorem State.hostWriteCode_obsSel (s : State) (mem : MemCode) (a : Nat) (bs : List Byte) : (s.hostWriteCode mem a bs).obsSel = s.obsSel := by unfold State.hostWriteCode; split <;> simp
@[simp] theorem State.hostWriteCode_tap (s : State) (mem : MemCode) (a : Nat) (bs : List Byte) : (s.hostWriteCode mem a bs).tap = s.tap := by unfold State.hostWriteCode; split <;> simp
@[simp] theorem State.hostWriteCode_hdrs (s : State) (mem : MemCode) (a : Nat) (bs : List Byte) : (s.hostWriteCode mem a bs).hdrs = s.hdrs := by unfold State.hostWriteCode; split <;> simp
@[simp] theorem State.hostWriteCode_irq (s : State) (mem : MemCode) (a : Nat) (bs : List Byte) : (s.hostWriteCode mem a bs).irq = s.irq := by unfold State.hostWriteCode; split <;> simp
@[simp] theorem State.hostWriteCode_cfgResp (s : State) (mem : MemCode) (a : Nat) (bs : List Byte) : (s.hostWriteCode mem a bs).cfgResp = s.cfgResp := by unfold State.hostWriteCode; split <;> simp
@[simp] theorem State.hostWriteCode_cfgRid (s : State) (mem : MemCode) (a : Nat) (bs : List Byte) : (s.hostWriteCode mem a bs).cfgRid = s.cfgRid := by unfold State.hostWriteCode; split <;> simp
@[simp] theorem State.hostWriteCode_rings (s : State) (mem : MemCode) (a : Nat) (bs : List Byte) : (s.hostWriteCode mem a bs).rings = s.rings := by unfold State.hostWriteCode; split <;> simp
@[simp] theorem State.hostWriteCode_jobs (s : State) (mem : MemCode) (a : Nat) (bs : List Byte) : (s.hostWriteCode mem a bs).jobs = s.jobs := by unfold State.hostWriteCode; split <;> simp
@[simp] theorem State.hostWriteCode_fences (s : State) (mem : MemCode) (a : Nat) (bs : List Byte) : (s.hostWriteCode mem a bs).fences = s.fences := by unfold State.hostWriteCode; split <;> simp
@[simp] theorem State.hostWriteCode_groups (s : State) (mem : MemCode) (a : Nat) (bs : List Byte) : (s.hostWriteCode mem a bs).groups = s.groups := by unfold State.hostWriteCode; split <;> simp
@[simp] theorem State.hostWriteCode_leash (s : State) (mem : MemCode) (a : Nat) (bs : List Byte) : (s.hostWriteCode mem a bs).leash = s.leash := by unfold State.hostWriteCode; split <;> simp
@[simp] theorem State.hostWriteCode_hqs (s : State) (mem : MemCode) (a : Nat) (bs : List Byte) : (s.hostWriteCode mem a bs).hqs = s.hqs := by unfold State.hostWriteCode; split <;> simp
@[simp] theorem State.hostWriteCode_rwrites (s : State) (mem : MemCode) (a : Nat) (bs : List Byte) : (s.hostWriteCode mem a bs).rwrites = s.rwrites := by unfold State.hostWriteCode; split <;> simp
@[simp] theorem State.hostWriteCode_racks (s : State) (mem : MemCode) (a : Nat) (bs : List Byte) : (s.hostWriteCode mem a bs).racks = s.racks := by unfold State.hostWriteCode; split <;> simp
@[simp] theorem State.hostWriteCode_pending (s : State) (mem : MemCode) (a : Nat) (bs : List Byte) : (s.hostWriteCode mem a bs).pending = s.pending := by unfold State.hostWriteCode; split <;> simp

/-! ### updHdr -/

@[simp] theorem State.updHdr_conf (s : State) (p : Nat) (f : Hdr → Hdr) : (s.updHdr p f).conf = s.conf := rfl
@[simp] theorem State.updHdr_fuse (s : State) (p : Nat) (f : Hdr → Hdr) : (s.updHdr p f).fuse = s.fuse := rfl
@[simp] theorem State.updHdr_fclk (s : State) (p : Nat) (f : Hdr → Hdr) : (s.updHdr p f).fclk = s.fclk := rfl
@[simp] theorem State.updHdr_boot (s : State) (p : Nat) (f : Hdr → Hdr) : (s.updHdr p f).boot = s.boot := rfl
@[simp] theorem State.updHdr_glb (s : State) (p : Nat) (f : Hdr → Hdr) : (s.updHdr p f).glb = s.glb := rfl
@[simp] theorem State.updHdr_sd (s : State) (p : Nat) (f : Hdr → Hdr) : (s.updHdr p f).sd = s.sd := rfl
@[simp] theorem State.updHdr_power (s : State) (p : Nat) (f : Hdr → Hdr) : (s.updHdr p f).power = s.power := rfl
@[simp] theorem State.updHdr_mport (s : State) (p : Nat) (f : Hdr → Hdr) : (s.updHdr p f).mport = s.mport := rfl
@[simp] theorem State.updHdr_tport (s : State) (p : Nat) (f : Hdr → Hdr) : (s.updHdr p f).tport = s.tport := rfl
@[simp] theorem State.updHdr_aport (s : State) (p : Nat) (f : Hdr → Hdr) : (s.updHdr p f).aport = s.aport := rfl
@[simp] theorem State.updHdr_peer (s : State) (p : Nat) (f : Hdr → Hdr) : (s.updHdr p f).peer = s.peer := rfl
@[simp] theorem State.updHdr_dma (s : State) (p : Nat) (f : Hdr → Hdr) : (s.updHdr p f).dma = s.dma := rfl
@[simp] theorem State.updHdr_dmaQueue (s : State) (p : Nat) (f : Hdr → Hdr) : (s.updHdr p f).dmaQueue = s.dmaQueue := rfl
@[simp] theorem State.updHdr_tbs (s : State) (p : Nat) (f : Hdr → Hdr) : (s.updHdr p f).tbs = s.tbs := rfl
@[simp] theorem State.updHdr_tickEdge (s : State) (p : Nat) (f : Hdr → Hdr) : (s.updHdr p f).tickEdge = s.tickEdge := rfl
@[simp] theorem State.updHdr_packs (s : State) (p : Nat) (f : Hdr → Hdr) : (s.updHdr p f).packs = s.packs := rfl
@[simp] theorem State.updHdr_cores (s : State) (p : Nat) (f : Hdr → Hdr) : (s.updHdr p f).cores = s.cores := rfl
@[simp] theorem State.updHdr_tele (s : State) (p : Nat) (f : Hdr → Hdr) : (s.updHdr p f).tele = s.tele := rfl
@[simp] theorem State.updHdr_kennel (s : State) (p : Nat) (f : Hdr → Hdr) : (s.updHdr p f).kennel = s.kennel := rfl
@[simp] theorem State.updHdr_traceEn (s : State) (p : Nat) (f : Hdr → Hdr) : (s.updHdr p f).traceEn = s.traceEn := rfl
@[simp] theorem State.updHdr_traceLost (s : State) (p : Nat) (f : Hdr → Hdr) : (s.updHdr p f).traceLost = s.traceLost := rfl
@[simp] theorem State.updHdr_traceGap (s : State) (p : Nat) (f : Hdr → Hdr) : (s.updHdr p f).traceGap = s.traceGap := rfl
@[simp] theorem State.updHdr_trace (s : State) (p : Nat) (f : Hdr → Hdr) : (s.updHdr p f).trace = s.trace := rfl
@[simp] theorem State.updHdr_obsSel (s : State) (p : Nat) (f : Hdr → Hdr) : (s.updHdr p f).obsSel = s.obsSel := rfl
@[simp] theorem State.updHdr_tap (s : State) (p : Nat) (f : Hdr → Hdr) : (s.updHdr p f).tap = s.tap := rfl
@[simp] theorem State.updHdr_irq (s : State) (p : Nat) (f : Hdr → Hdr) : (s.updHdr p f).irq = s.irq := rfl
@[simp] theorem State.updHdr_cfgResp (s : State) (p : Nat) (f : Hdr → Hdr) : (s.updHdr p f).cfgResp = s.cfgResp := rfl
@[simp] theorem State.updHdr_cfgRid (s : State) (p : Nat) (f : Hdr → Hdr) : (s.updHdr p f).cfgRid = s.cfgRid := rfl
@[simp] theorem State.updHdr_rings (s : State) (p : Nat) (f : Hdr → Hdr) : (s.updHdr p f).rings = s.rings := rfl
@[simp] theorem State.updHdr_jobs (s : State) (p : Nat) (f : Hdr → Hdr) : (s.updHdr p f).jobs = s.jobs := rfl
@[simp] theorem State.updHdr_fences (s : State) (p : Nat) (f : Hdr → Hdr) : (s.updHdr p f).fences = s.fences := rfl
@[simp] theorem State.updHdr_groups (s : State) (p : Nat) (f : Hdr → Hdr) : (s.updHdr p f).groups = s.groups := rfl
@[simp] theorem State.updHdr_leash (s : State) (p : Nat) (f : Hdr → Hdr) : (s.updHdr p f).leash = s.leash := rfl
@[simp] theorem State.updHdr_hqs (s : State) (p : Nat) (f : Hdr → Hdr) : (s.updHdr p f).hqs = s.hqs := rfl
@[simp] theorem State.updHdr_rwrites (s : State) (p : Nat) (f : Hdr → Hdr) : (s.updHdr p f).rwrites = s.rwrites := rfl
@[simp] theorem State.updHdr_racks (s : State) (p : Nat) (f : Hdr → Hdr) : (s.updHdr p f).racks = s.racks := rfl
@[simp] theorem State.updHdr_host (s : State) (p : Nat) (f : Hdr → Hdr) : (s.updHdr p f).host = s.host := rfl
@[simp] theorem State.updHdr_hostOpen (s : State) (p : Nat) (f : Hdr → Hdr) : (s.updHdr p f).hostOpen = s.hostOpen := rfl
@[simp] theorem State.updHdr_fresh (s : State) (p : Nat) (f : Hdr → Hdr) : (s.updHdr p f).fresh = s.fresh := rfl
@[simp] theorem State.updHdr_pending (s : State) (p : Nat) (f : Hdr → Hdr) : (s.updHdr p f).pending = s.pending := rfl

/-! ### raise -/

@[simp] theorem State.raise_conf (s : State) (p b : Nat) : (s.raise p b).conf = s.conf := rfl
@[simp] theorem State.raise_fuse (s : State) (p b : Nat) : (s.raise p b).fuse = s.fuse := rfl
@[simp] theorem State.raise_fclk (s : State) (p b : Nat) : (s.raise p b).fclk = s.fclk := rfl
@[simp] theorem State.raise_boot (s : State) (p b : Nat) : (s.raise p b).boot = s.boot := rfl
@[simp] theorem State.raise_glb (s : State) (p b : Nat) : (s.raise p b).glb = s.glb := rfl
@[simp] theorem State.raise_sd (s : State) (p b : Nat) : (s.raise p b).sd = s.sd := rfl
@[simp] theorem State.raise_power (s : State) (p b : Nat) : (s.raise p b).power = s.power := rfl
@[simp] theorem State.raise_mport (s : State) (p b : Nat) : (s.raise p b).mport = s.mport := rfl
@[simp] theorem State.raise_tport (s : State) (p b : Nat) : (s.raise p b).tport = s.tport := rfl
@[simp] theorem State.raise_aport (s : State) (p b : Nat) : (s.raise p b).aport = s.aport := rfl
@[simp] theorem State.raise_peer (s : State) (p b : Nat) : (s.raise p b).peer = s.peer := rfl
@[simp] theorem State.raise_dma (s : State) (p b : Nat) : (s.raise p b).dma = s.dma := rfl
@[simp] theorem State.raise_dmaQueue (s : State) (p b : Nat) : (s.raise p b).dmaQueue = s.dmaQueue := rfl
@[simp] theorem State.raise_tbs (s : State) (p b : Nat) : (s.raise p b).tbs = s.tbs := rfl
@[simp] theorem State.raise_tickEdge (s : State) (p b : Nat) : (s.raise p b).tickEdge = s.tickEdge := rfl
@[simp] theorem State.raise_packs (s : State) (p b : Nat) : (s.raise p b).packs = s.packs := rfl
@[simp] theorem State.raise_cores (s : State) (p b : Nat) : (s.raise p b).cores = s.cores := rfl
@[simp] theorem State.raise_tele (s : State) (p b : Nat) : (s.raise p b).tele = s.tele := rfl
@[simp] theorem State.raise_kennel (s : State) (p b : Nat) : (s.raise p b).kennel = s.kennel := rfl
@[simp] theorem State.raise_traceEn (s : State) (p b : Nat) : (s.raise p b).traceEn = s.traceEn := rfl
@[simp] theorem State.raise_traceLost (s : State) (p b : Nat) : (s.raise p b).traceLost = s.traceLost := rfl
@[simp] theorem State.raise_traceGap (s : State) (p b : Nat) : (s.raise p b).traceGap = s.traceGap := rfl
@[simp] theorem State.raise_trace (s : State) (p b : Nat) : (s.raise p b).trace = s.trace := rfl
@[simp] theorem State.raise_obsSel (s : State) (p b : Nat) : (s.raise p b).obsSel = s.obsSel := rfl
@[simp] theorem State.raise_tap (s : State) (p b : Nat) : (s.raise p b).tap = s.tap := rfl
@[simp] theorem State.raise_irq (s : State) (p b : Nat) : (s.raise p b).irq = s.irq := rfl
@[simp] theorem State.raise_cfgResp (s : State) (p b : Nat) : (s.raise p b).cfgResp = s.cfgResp := rfl
@[simp] theorem State.raise_cfgRid (s : State) (p b : Nat) : (s.raise p b).cfgRid = s.cfgRid := rfl
@[simp] theorem State.raise_rings (s : State) (p b : Nat) : (s.raise p b).rings = s.rings := rfl
@[simp] theorem State.raise_jobs (s : State) (p b : Nat) : (s.raise p b).jobs = s.jobs := rfl
@[simp] theorem State.raise_fences (s : State) (p b : Nat) : (s.raise p b).fences = s.fences := rfl
@[simp] theorem State.raise_groups (s : State) (p b : Nat) : (s.raise p b).groups = s.groups := rfl
@[simp] theorem State.raise_leash (s : State) (p b : Nat) : (s.raise p b).leash = s.leash := rfl
@[simp] theorem State.raise_hqs (s : State) (p b : Nat) : (s.raise p b).hqs = s.hqs := rfl
@[simp] theorem State.raise_rwrites (s : State) (p b : Nat) : (s.raise p b).rwrites = s.rwrites := rfl
@[simp] theorem State.raise_racks (s : State) (p b : Nat) : (s.raise p b).racks = s.racks := rfl
@[simp] theorem State.raise_host (s : State) (p b : Nat) : (s.raise p b).host = s.host := rfl
@[simp] theorem State.raise_hostOpen (s : State) (p b : Nat) : (s.raise p b).hostOpen = s.hostOpen := rfl
@[simp] theorem State.raise_fresh (s : State) (p b : Nat) : (s.raise p b).fresh = s.fresh := rfl
@[simp] theorem State.raise_pending (s : State) (p b : Nat) : (s.raise p b).pending = s.pending := rfl

/-! ### raiseIf -/

@[simp] theorem State.raiseIf_conf (s : State) (c : Bool) (p b : Nat) : (s.raiseIf c p b).conf = s.conf := by unfold State.raiseIf; split <;> rfl
@[simp] theorem State.raiseIf_fuse (s : State) (c : Bool) (p b : Nat) : (s.raiseIf c p b).fuse = s.fuse := by unfold State.raiseIf; split <;> rfl
@[simp] theorem State.raiseIf_fclk (s : State) (c : Bool) (p b : Nat) : (s.raiseIf c p b).fclk = s.fclk := by unfold State.raiseIf; split <;> rfl
@[simp] theorem State.raiseIf_boot (s : State) (c : Bool) (p b : Nat) : (s.raiseIf c p b).boot = s.boot := by unfold State.raiseIf; split <;> rfl
@[simp] theorem State.raiseIf_glb (s : State) (c : Bool) (p b : Nat) : (s.raiseIf c p b).glb = s.glb := by unfold State.raiseIf; split <;> rfl
@[simp] theorem State.raiseIf_sd (s : State) (c : Bool) (p b : Nat) : (s.raiseIf c p b).sd = s.sd := by unfold State.raiseIf; split <;> rfl
@[simp] theorem State.raiseIf_power (s : State) (c : Bool) (p b : Nat) : (s.raiseIf c p b).power = s.power := by unfold State.raiseIf; split <;> rfl
@[simp] theorem State.raiseIf_mport (s : State) (c : Bool) (p b : Nat) : (s.raiseIf c p b).mport = s.mport := by unfold State.raiseIf; split <;> rfl
@[simp] theorem State.raiseIf_tport (s : State) (c : Bool) (p b : Nat) : (s.raiseIf c p b).tport = s.tport := by unfold State.raiseIf; split <;> rfl
@[simp] theorem State.raiseIf_aport (s : State) (c : Bool) (p b : Nat) : (s.raiseIf c p b).aport = s.aport := by unfold State.raiseIf; split <;> rfl
@[simp] theorem State.raiseIf_peer (s : State) (c : Bool) (p b : Nat) : (s.raiseIf c p b).peer = s.peer := by unfold State.raiseIf; split <;> rfl
@[simp] theorem State.raiseIf_dma (s : State) (c : Bool) (p b : Nat) : (s.raiseIf c p b).dma = s.dma := by unfold State.raiseIf; split <;> rfl
@[simp] theorem State.raiseIf_dmaQueue (s : State) (c : Bool) (p b : Nat) : (s.raiseIf c p b).dmaQueue = s.dmaQueue := by unfold State.raiseIf; split <;> rfl
@[simp] theorem State.raiseIf_tbs (s : State) (c : Bool) (p b : Nat) : (s.raiseIf c p b).tbs = s.tbs := by unfold State.raiseIf; split <;> rfl
@[simp] theorem State.raiseIf_tickEdge (s : State) (c : Bool) (p b : Nat) : (s.raiseIf c p b).tickEdge = s.tickEdge := by unfold State.raiseIf; split <;> rfl
@[simp] theorem State.raiseIf_packs (s : State) (c : Bool) (p b : Nat) : (s.raiseIf c p b).packs = s.packs := by unfold State.raiseIf; split <;> rfl
@[simp] theorem State.raiseIf_cores (s : State) (c : Bool) (p b : Nat) : (s.raiseIf c p b).cores = s.cores := by unfold State.raiseIf; split <;> rfl
@[simp] theorem State.raiseIf_tele (s : State) (c : Bool) (p b : Nat) : (s.raiseIf c p b).tele = s.tele := by unfold State.raiseIf; split <;> rfl
@[simp] theorem State.raiseIf_kennel (s : State) (c : Bool) (p b : Nat) : (s.raiseIf c p b).kennel = s.kennel := by unfold State.raiseIf; split <;> rfl
@[simp] theorem State.raiseIf_traceEn (s : State) (c : Bool) (p b : Nat) : (s.raiseIf c p b).traceEn = s.traceEn := by unfold State.raiseIf; split <;> rfl
@[simp] theorem State.raiseIf_traceLost (s : State) (c : Bool) (p b : Nat) : (s.raiseIf c p b).traceLost = s.traceLost := by unfold State.raiseIf; split <;> rfl
@[simp] theorem State.raiseIf_traceGap (s : State) (c : Bool) (p b : Nat) : (s.raiseIf c p b).traceGap = s.traceGap := by unfold State.raiseIf; split <;> rfl
@[simp] theorem State.raiseIf_trace (s : State) (c : Bool) (p b : Nat) : (s.raiseIf c p b).trace = s.trace := by unfold State.raiseIf; split <;> rfl
@[simp] theorem State.raiseIf_obsSel (s : State) (c : Bool) (p b : Nat) : (s.raiseIf c p b).obsSel = s.obsSel := by unfold State.raiseIf; split <;> rfl
@[simp] theorem State.raiseIf_tap (s : State) (c : Bool) (p b : Nat) : (s.raiseIf c p b).tap = s.tap := by unfold State.raiseIf; split <;> rfl
@[simp] theorem State.raiseIf_irq (s : State) (c : Bool) (p b : Nat) : (s.raiseIf c p b).irq = s.irq := by unfold State.raiseIf; split <;> rfl
@[simp] theorem State.raiseIf_cfgResp (s : State) (c : Bool) (p b : Nat) : (s.raiseIf c p b).cfgResp = s.cfgResp := by unfold State.raiseIf; split <;> rfl
@[simp] theorem State.raiseIf_cfgRid (s : State) (c : Bool) (p b : Nat) : (s.raiseIf c p b).cfgRid = s.cfgRid := by unfold State.raiseIf; split <;> rfl
@[simp] theorem State.raiseIf_rings (s : State) (c : Bool) (p b : Nat) : (s.raiseIf c p b).rings = s.rings := by unfold State.raiseIf; split <;> rfl
@[simp] theorem State.raiseIf_jobs (s : State) (c : Bool) (p b : Nat) : (s.raiseIf c p b).jobs = s.jobs := by unfold State.raiseIf; split <;> rfl
@[simp] theorem State.raiseIf_fences (s : State) (c : Bool) (p b : Nat) : (s.raiseIf c p b).fences = s.fences := by unfold State.raiseIf; split <;> rfl
@[simp] theorem State.raiseIf_groups (s : State) (c : Bool) (p b : Nat) : (s.raiseIf c p b).groups = s.groups := by unfold State.raiseIf; split <;> rfl
@[simp] theorem State.raiseIf_leash (s : State) (c : Bool) (p b : Nat) : (s.raiseIf c p b).leash = s.leash := by unfold State.raiseIf; split <;> rfl
@[simp] theorem State.raiseIf_hqs (s : State) (c : Bool) (p b : Nat) : (s.raiseIf c p b).hqs = s.hqs := by unfold State.raiseIf; split <;> rfl
@[simp] theorem State.raiseIf_rwrites (s : State) (c : Bool) (p b : Nat) : (s.raiseIf c p b).rwrites = s.rwrites := by unfold State.raiseIf; split <;> rfl
@[simp] theorem State.raiseIf_racks (s : State) (c : Bool) (p b : Nat) : (s.raiseIf c p b).racks = s.racks := by unfold State.raiseIf; split <;> rfl
@[simp] theorem State.raiseIf_host (s : State) (c : Bool) (p b : Nat) : (s.raiseIf c p b).host = s.host := by unfold State.raiseIf; split <;> rfl
@[simp] theorem State.raiseIf_hostOpen (s : State) (c : Bool) (p b : Nat) : (s.raiseIf c p b).hostOpen = s.hostOpen := by unfold State.raiseIf; split <;> rfl
@[simp] theorem State.raiseIf_fresh (s : State) (c : Bool) (p b : Nat) : (s.raiseIf c p b).fresh = s.fresh := by unfold State.raiseIf; split <;> rfl
@[simp] theorem State.raiseIf_pending (s : State) (c : Bool) (p b : Nat) : (s.raiseIf c p b).pending = s.pending := by unfold State.raiseIf; split <;> rfl

/-! ### setCore -/

@[simp] theorem State.setCore_conf (s : State) (c : Nat) (k : Core) : (s.setCore c k).conf = s.conf := rfl
@[simp] theorem State.setCore_fuse (s : State) (c : Nat) (k : Core) : (s.setCore c k).fuse = s.fuse := rfl
@[simp] theorem State.setCore_fclk (s : State) (c : Nat) (k : Core) : (s.setCore c k).fclk = s.fclk := rfl
@[simp] theorem State.setCore_boot (s : State) (c : Nat) (k : Core) : (s.setCore c k).boot = s.boot := rfl
@[simp] theorem State.setCore_glb (s : State) (c : Nat) (k : Core) : (s.setCore c k).glb = s.glb := rfl
@[simp] theorem State.setCore_sd (s : State) (c : Nat) (k : Core) : (s.setCore c k).sd = s.sd := rfl
@[simp] theorem State.setCore_power (s : State) (c : Nat) (k : Core) : (s.setCore c k).power = s.power := rfl
@[simp] theorem State.setCore_mport (s : State) (c : Nat) (k : Core) : (s.setCore c k).mport = s.mport := rfl
@[simp] theorem State.setCore_tport (s : State) (c : Nat) (k : Core) : (s.setCore c k).tport = s.tport := rfl
@[simp] theorem State.setCore_aport (s : State) (c : Nat) (k : Core) : (s.setCore c k).aport = s.aport := rfl
@[simp] theorem State.setCore_peer (s : State) (c : Nat) (k : Core) : (s.setCore c k).peer = s.peer := rfl
@[simp] theorem State.setCore_dma (s : State) (c : Nat) (k : Core) : (s.setCore c k).dma = s.dma := rfl
@[simp] theorem State.setCore_dmaQueue (s : State) (c : Nat) (k : Core) : (s.setCore c k).dmaQueue = s.dmaQueue := rfl
@[simp] theorem State.setCore_tbs (s : State) (c : Nat) (k : Core) : (s.setCore c k).tbs = s.tbs := rfl
@[simp] theorem State.setCore_tickEdge (s : State) (c : Nat) (k : Core) : (s.setCore c k).tickEdge = s.tickEdge := rfl
@[simp] theorem State.setCore_packs (s : State) (c : Nat) (k : Core) : (s.setCore c k).packs = s.packs := rfl
@[simp] theorem State.setCore_tele (s : State) (c : Nat) (k : Core) : (s.setCore c k).tele = s.tele := rfl
@[simp] theorem State.setCore_kennel (s : State) (c : Nat) (k : Core) : (s.setCore c k).kennel = s.kennel := rfl
@[simp] theorem State.setCore_traceEn (s : State) (c : Nat) (k : Core) : (s.setCore c k).traceEn = s.traceEn := rfl
@[simp] theorem State.setCore_traceLost (s : State) (c : Nat) (k : Core) : (s.setCore c k).traceLost = s.traceLost := rfl
@[simp] theorem State.setCore_traceGap (s : State) (c : Nat) (k : Core) : (s.setCore c k).traceGap = s.traceGap := rfl
@[simp] theorem State.setCore_trace (s : State) (c : Nat) (k : Core) : (s.setCore c k).trace = s.trace := rfl
@[simp] theorem State.setCore_obsSel (s : State) (c : Nat) (k : Core) : (s.setCore c k).obsSel = s.obsSel := rfl
@[simp] theorem State.setCore_tap (s : State) (c : Nat) (k : Core) : (s.setCore c k).tap = s.tap := rfl
@[simp] theorem State.setCore_hdrs (s : State) (c : Nat) (k : Core) : (s.setCore c k).hdrs = s.hdrs := rfl
@[simp] theorem State.setCore_irq (s : State) (c : Nat) (k : Core) : (s.setCore c k).irq = s.irq := rfl
@[simp] theorem State.setCore_cfgResp (s : State) (c : Nat) (k : Core) : (s.setCore c k).cfgResp = s.cfgResp := rfl
@[simp] theorem State.setCore_cfgRid (s : State) (c : Nat) (k : Core) : (s.setCore c k).cfgRid = s.cfgRid := rfl
@[simp] theorem State.setCore_rings (s : State) (c : Nat) (k : Core) : (s.setCore c k).rings = s.rings := rfl
@[simp] theorem State.setCore_jobs (s : State) (c : Nat) (k : Core) : (s.setCore c k).jobs = s.jobs := rfl
@[simp] theorem State.setCore_fences (s : State) (c : Nat) (k : Core) : (s.setCore c k).fences = s.fences := rfl
@[simp] theorem State.setCore_groups (s : State) (c : Nat) (k : Core) : (s.setCore c k).groups = s.groups := rfl
@[simp] theorem State.setCore_leash (s : State) (c : Nat) (k : Core) : (s.setCore c k).leash = s.leash := rfl
@[simp] theorem State.setCore_hqs (s : State) (c : Nat) (k : Core) : (s.setCore c k).hqs = s.hqs := rfl
@[simp] theorem State.setCore_rwrites (s : State) (c : Nat) (k : Core) : (s.setCore c k).rwrites = s.rwrites := rfl
@[simp] theorem State.setCore_racks (s : State) (c : Nat) (k : Core) : (s.setCore c k).racks = s.racks := rfl
@[simp] theorem State.setCore_host (s : State) (c : Nat) (k : Core) : (s.setCore c k).host = s.host := rfl
@[simp] theorem State.setCore_hostOpen (s : State) (c : Nat) (k : Core) : (s.setCore c k).hostOpen = s.hostOpen := rfl
@[simp] theorem State.setCore_fresh (s : State) (c : Nat) (k : Core) : (s.setCore c k).fresh = s.fresh := rfl
@[simp] theorem State.setCore_pending (s : State) (c : Nat) (k : Core) : (s.setCore c k).pending = s.pending := rfl

/-! ### updCore -/

@[simp] theorem State.updCore_conf (s : State) (c : Nat) (f : Core → Core) : (s.updCore c f).conf = s.conf := rfl
@[simp] theorem State.updCore_fuse (s : State) (c : Nat) (f : Core → Core) : (s.updCore c f).fuse = s.fuse := rfl
@[simp] theorem State.updCore_fclk (s : State) (c : Nat) (f : Core → Core) : (s.updCore c f).fclk = s.fclk := rfl
@[simp] theorem State.updCore_boot (s : State) (c : Nat) (f : Core → Core) : (s.updCore c f).boot = s.boot := rfl
@[simp] theorem State.updCore_glb (s : State) (c : Nat) (f : Core → Core) : (s.updCore c f).glb = s.glb := rfl
@[simp] theorem State.updCore_sd (s : State) (c : Nat) (f : Core → Core) : (s.updCore c f).sd = s.sd := rfl
@[simp] theorem State.updCore_power (s : State) (c : Nat) (f : Core → Core) : (s.updCore c f).power = s.power := rfl
@[simp] theorem State.updCore_mport (s : State) (c : Nat) (f : Core → Core) : (s.updCore c f).mport = s.mport := rfl
@[simp] theorem State.updCore_tport (s : State) (c : Nat) (f : Core → Core) : (s.updCore c f).tport = s.tport := rfl
@[simp] theorem State.updCore_aport (s : State) (c : Nat) (f : Core → Core) : (s.updCore c f).aport = s.aport := rfl
@[simp] theorem State.updCore_peer (s : State) (c : Nat) (f : Core → Core) : (s.updCore c f).peer = s.peer := rfl
@[simp] theorem State.updCore_dma (s : State) (c : Nat) (f : Core → Core) : (s.updCore c f).dma = s.dma := rfl
@[simp] theorem State.updCore_dmaQueue (s : State) (c : Nat) (f : Core → Core) : (s.updCore c f).dmaQueue = s.dmaQueue := rfl
@[simp] theorem State.updCore_tbs (s : State) (c : Nat) (f : Core → Core) : (s.updCore c f).tbs = s.tbs := rfl
@[simp] theorem State.updCore_tickEdge (s : State) (c : Nat) (f : Core → Core) : (s.updCore c f).tickEdge = s.tickEdge := rfl
@[simp] theorem State.updCore_packs (s : State) (c : Nat) (f : Core → Core) : (s.updCore c f).packs = s.packs := rfl
@[simp] theorem State.updCore_tele (s : State) (c : Nat) (f : Core → Core) : (s.updCore c f).tele = s.tele := rfl
@[simp] theorem State.updCore_kennel (s : State) (c : Nat) (f : Core → Core) : (s.updCore c f).kennel = s.kennel := rfl
@[simp] theorem State.updCore_traceEn (s : State) (c : Nat) (f : Core → Core) : (s.updCore c f).traceEn = s.traceEn := rfl
@[simp] theorem State.updCore_traceLost (s : State) (c : Nat) (f : Core → Core) : (s.updCore c f).traceLost = s.traceLost := rfl
@[simp] theorem State.updCore_traceGap (s : State) (c : Nat) (f : Core → Core) : (s.updCore c f).traceGap = s.traceGap := rfl
@[simp] theorem State.updCore_trace (s : State) (c : Nat) (f : Core → Core) : (s.updCore c f).trace = s.trace := rfl
@[simp] theorem State.updCore_obsSel (s : State) (c : Nat) (f : Core → Core) : (s.updCore c f).obsSel = s.obsSel := rfl
@[simp] theorem State.updCore_tap (s : State) (c : Nat) (f : Core → Core) : (s.updCore c f).tap = s.tap := rfl
@[simp] theorem State.updCore_hdrs (s : State) (c : Nat) (f : Core → Core) : (s.updCore c f).hdrs = s.hdrs := rfl
@[simp] theorem State.updCore_irq (s : State) (c : Nat) (f : Core → Core) : (s.updCore c f).irq = s.irq := rfl
@[simp] theorem State.updCore_cfgResp (s : State) (c : Nat) (f : Core → Core) : (s.updCore c f).cfgResp = s.cfgResp := rfl
@[simp] theorem State.updCore_cfgRid (s : State) (c : Nat) (f : Core → Core) : (s.updCore c f).cfgRid = s.cfgRid := rfl
@[simp] theorem State.updCore_rings (s : State) (c : Nat) (f : Core → Core) : (s.updCore c f).rings = s.rings := rfl
@[simp] theorem State.updCore_jobs (s : State) (c : Nat) (f : Core → Core) : (s.updCore c f).jobs = s.jobs := rfl
@[simp] theorem State.updCore_fences (s : State) (c : Nat) (f : Core → Core) : (s.updCore c f).fences = s.fences := rfl
@[simp] theorem State.updCore_groups (s : State) (c : Nat) (f : Core → Core) : (s.updCore c f).groups = s.groups := rfl
@[simp] theorem State.updCore_leash (s : State) (c : Nat) (f : Core → Core) : (s.updCore c f).leash = s.leash := rfl
@[simp] theorem State.updCore_hqs (s : State) (c : Nat) (f : Core → Core) : (s.updCore c f).hqs = s.hqs := rfl
@[simp] theorem State.updCore_rwrites (s : State) (c : Nat) (f : Core → Core) : (s.updCore c f).rwrites = s.rwrites := rfl
@[simp] theorem State.updCore_racks (s : State) (c : Nat) (f : Core → Core) : (s.updCore c f).racks = s.racks := rfl
@[simp] theorem State.updCore_host (s : State) (c : Nat) (f : Core → Core) : (s.updCore c f).host = s.host := rfl
@[simp] theorem State.updCore_hostOpen (s : State) (c : Nat) (f : Core → Core) : (s.updCore c f).hostOpen = s.hostOpen := rfl
@[simp] theorem State.updCore_fresh (s : State) (c : Nat) (f : Core → Core) : (s.updCore c f).fresh = s.fresh := rfl
@[simp] theorem State.updCore_pending (s : State) (c : Nat) (f : Core → Core) : (s.updCore c f).pending = s.pending := rfl

/-! ### updPack -/

@[simp] theorem State.updPack_conf (s : State) (p : Nat) (f : Pack → Pack) : (s.updPack p f).conf = s.conf := rfl
@[simp] theorem State.updPack_fuse (s : State) (p : Nat) (f : Pack → Pack) : (s.updPack p f).fuse = s.fuse := rfl
@[simp] theorem State.updPack_fclk (s : State) (p : Nat) (f : Pack → Pack) : (s.updPack p f).fclk = s.fclk := rfl
@[simp] theorem State.updPack_boot (s : State) (p : Nat) (f : Pack → Pack) : (s.updPack p f).boot = s.boot := rfl
@[simp] theorem State.updPack_glb (s : State) (p : Nat) (f : Pack → Pack) : (s.updPack p f).glb = s.glb := rfl
@[simp] theorem State.updPack_sd (s : State) (p : Nat) (f : Pack → Pack) : (s.updPack p f).sd = s.sd := rfl
@[simp] theorem State.updPack_power (s : State) (p : Nat) (f : Pack → Pack) : (s.updPack p f).power = s.power := rfl
@[simp] theorem State.updPack_mport (s : State) (p : Nat) (f : Pack → Pack) : (s.updPack p f).mport = s.mport := rfl
@[simp] theorem State.updPack_tport (s : State) (p : Nat) (f : Pack → Pack) : (s.updPack p f).tport = s.tport := rfl
@[simp] theorem State.updPack_aport (s : State) (p : Nat) (f : Pack → Pack) : (s.updPack p f).aport = s.aport := rfl
@[simp] theorem State.updPack_peer (s : State) (p : Nat) (f : Pack → Pack) : (s.updPack p f).peer = s.peer := rfl
@[simp] theorem State.updPack_dma (s : State) (p : Nat) (f : Pack → Pack) : (s.updPack p f).dma = s.dma := rfl
@[simp] theorem State.updPack_dmaQueue (s : State) (p : Nat) (f : Pack → Pack) : (s.updPack p f).dmaQueue = s.dmaQueue := rfl
@[simp] theorem State.updPack_tbs (s : State) (p : Nat) (f : Pack → Pack) : (s.updPack p f).tbs = s.tbs := rfl
@[simp] theorem State.updPack_tickEdge (s : State) (p : Nat) (f : Pack → Pack) : (s.updPack p f).tickEdge = s.tickEdge := rfl
@[simp] theorem State.updPack_cores (s : State) (p : Nat) (f : Pack → Pack) : (s.updPack p f).cores = s.cores := rfl
@[simp] theorem State.updPack_tele (s : State) (p : Nat) (f : Pack → Pack) : (s.updPack p f).tele = s.tele := rfl
@[simp] theorem State.updPack_kennel (s : State) (p : Nat) (f : Pack → Pack) : (s.updPack p f).kennel = s.kennel := rfl
@[simp] theorem State.updPack_traceEn (s : State) (p : Nat) (f : Pack → Pack) : (s.updPack p f).traceEn = s.traceEn := rfl
@[simp] theorem State.updPack_traceLost (s : State) (p : Nat) (f : Pack → Pack) : (s.updPack p f).traceLost = s.traceLost := rfl
@[simp] theorem State.updPack_traceGap (s : State) (p : Nat) (f : Pack → Pack) : (s.updPack p f).traceGap = s.traceGap := rfl
@[simp] theorem State.updPack_trace (s : State) (p : Nat) (f : Pack → Pack) : (s.updPack p f).trace = s.trace := rfl
@[simp] theorem State.updPack_obsSel (s : State) (p : Nat) (f : Pack → Pack) : (s.updPack p f).obsSel = s.obsSel := rfl
@[simp] theorem State.updPack_tap (s : State) (p : Nat) (f : Pack → Pack) : (s.updPack p f).tap = s.tap := rfl
@[simp] theorem State.updPack_hdrs (s : State) (p : Nat) (f : Pack → Pack) : (s.updPack p f).hdrs = s.hdrs := rfl
@[simp] theorem State.updPack_irq (s : State) (p : Nat) (f : Pack → Pack) : (s.updPack p f).irq = s.irq := rfl
@[simp] theorem State.updPack_cfgResp (s : State) (p : Nat) (f : Pack → Pack) : (s.updPack p f).cfgResp = s.cfgResp := rfl
@[simp] theorem State.updPack_cfgRid (s : State) (p : Nat) (f : Pack → Pack) : (s.updPack p f).cfgRid = s.cfgRid := rfl
@[simp] theorem State.updPack_rings (s : State) (p : Nat) (f : Pack → Pack) : (s.updPack p f).rings = s.rings := rfl
@[simp] theorem State.updPack_jobs (s : State) (p : Nat) (f : Pack → Pack) : (s.updPack p f).jobs = s.jobs := rfl
@[simp] theorem State.updPack_fences (s : State) (p : Nat) (f : Pack → Pack) : (s.updPack p f).fences = s.fences := rfl
@[simp] theorem State.updPack_groups (s : State) (p : Nat) (f : Pack → Pack) : (s.updPack p f).groups = s.groups := rfl
@[simp] theorem State.updPack_leash (s : State) (p : Nat) (f : Pack → Pack) : (s.updPack p f).leash = s.leash := rfl
@[simp] theorem State.updPack_hqs (s : State) (p : Nat) (f : Pack → Pack) : (s.updPack p f).hqs = s.hqs := rfl
@[simp] theorem State.updPack_rwrites (s : State) (p : Nat) (f : Pack → Pack) : (s.updPack p f).rwrites = s.rwrites := rfl
@[simp] theorem State.updPack_racks (s : State) (p : Nat) (f : Pack → Pack) : (s.updPack p f).racks = s.racks := rfl
@[simp] theorem State.updPack_host (s : State) (p : Nat) (f : Pack → Pack) : (s.updPack p f).host = s.host := rfl
@[simp] theorem State.updPack_hostOpen (s : State) (p : Nat) (f : Pack → Pack) : (s.updPack p f).hostOpen = s.hostOpen := rfl
@[simp] theorem State.updPack_fresh (s : State) (p : Nat) (f : Pack → Pack) : (s.updPack p f).fresh = s.fresh := rfl
@[simp] theorem State.updPack_pending (s : State) (p : Nat) (f : Pack → Pack) : (s.updPack p f).pending = s.pending := rfl

/-! ### updRing -/

@[simp] theorem State.updRing_conf (s : State) (r : Nat) (f : Ring → Ring) : (s.updRing r f).conf = s.conf := rfl
@[simp] theorem State.updRing_fuse (s : State) (r : Nat) (f : Ring → Ring) : (s.updRing r f).fuse = s.fuse := rfl
@[simp] theorem State.updRing_fclk (s : State) (r : Nat) (f : Ring → Ring) : (s.updRing r f).fclk = s.fclk := rfl
@[simp] theorem State.updRing_boot (s : State) (r : Nat) (f : Ring → Ring) : (s.updRing r f).boot = s.boot := rfl
@[simp] theorem State.updRing_glb (s : State) (r : Nat) (f : Ring → Ring) : (s.updRing r f).glb = s.glb := rfl
@[simp] theorem State.updRing_sd (s : State) (r : Nat) (f : Ring → Ring) : (s.updRing r f).sd = s.sd := rfl
@[simp] theorem State.updRing_power (s : State) (r : Nat) (f : Ring → Ring) : (s.updRing r f).power = s.power := rfl
@[simp] theorem State.updRing_mport (s : State) (r : Nat) (f : Ring → Ring) : (s.updRing r f).mport = s.mport := rfl
@[simp] theorem State.updRing_tport (s : State) (r : Nat) (f : Ring → Ring) : (s.updRing r f).tport = s.tport := rfl
@[simp] theorem State.updRing_aport (s : State) (r : Nat) (f : Ring → Ring) : (s.updRing r f).aport = s.aport := rfl
@[simp] theorem State.updRing_peer (s : State) (r : Nat) (f : Ring → Ring) : (s.updRing r f).peer = s.peer := rfl
@[simp] theorem State.updRing_dma (s : State) (r : Nat) (f : Ring → Ring) : (s.updRing r f).dma = s.dma := rfl
@[simp] theorem State.updRing_dmaQueue (s : State) (r : Nat) (f : Ring → Ring) : (s.updRing r f).dmaQueue = s.dmaQueue := rfl
@[simp] theorem State.updRing_tbs (s : State) (r : Nat) (f : Ring → Ring) : (s.updRing r f).tbs = s.tbs := rfl
@[simp] theorem State.updRing_tickEdge (s : State) (r : Nat) (f : Ring → Ring) : (s.updRing r f).tickEdge = s.tickEdge := rfl
@[simp] theorem State.updRing_packs (s : State) (r : Nat) (f : Ring → Ring) : (s.updRing r f).packs = s.packs := rfl
@[simp] theorem State.updRing_cores (s : State) (r : Nat) (f : Ring → Ring) : (s.updRing r f).cores = s.cores := rfl
@[simp] theorem State.updRing_tele (s : State) (r : Nat) (f : Ring → Ring) : (s.updRing r f).tele = s.tele := rfl
@[simp] theorem State.updRing_kennel (s : State) (r : Nat) (f : Ring → Ring) : (s.updRing r f).kennel = s.kennel := rfl
@[simp] theorem State.updRing_traceEn (s : State) (r : Nat) (f : Ring → Ring) : (s.updRing r f).traceEn = s.traceEn := rfl
@[simp] theorem State.updRing_traceLost (s : State) (r : Nat) (f : Ring → Ring) : (s.updRing r f).traceLost = s.traceLost := rfl
@[simp] theorem State.updRing_traceGap (s : State) (r : Nat) (f : Ring → Ring) : (s.updRing r f).traceGap = s.traceGap := rfl
@[simp] theorem State.updRing_trace (s : State) (r : Nat) (f : Ring → Ring) : (s.updRing r f).trace = s.trace := rfl
@[simp] theorem State.updRing_obsSel (s : State) (r : Nat) (f : Ring → Ring) : (s.updRing r f).obsSel = s.obsSel := rfl
@[simp] theorem State.updRing_tap (s : State) (r : Nat) (f : Ring → Ring) : (s.updRing r f).tap = s.tap := rfl
@[simp] theorem State.updRing_hdrs (s : State) (r : Nat) (f : Ring → Ring) : (s.updRing r f).hdrs = s.hdrs := rfl
@[simp] theorem State.updRing_irq (s : State) (r : Nat) (f : Ring → Ring) : (s.updRing r f).irq = s.irq := rfl
@[simp] theorem State.updRing_cfgResp (s : State) (r : Nat) (f : Ring → Ring) : (s.updRing r f).cfgResp = s.cfgResp := rfl
@[simp] theorem State.updRing_cfgRid (s : State) (r : Nat) (f : Ring → Ring) : (s.updRing r f).cfgRid = s.cfgRid := rfl
@[simp] theorem State.updRing_jobs (s : State) (r : Nat) (f : Ring → Ring) : (s.updRing r f).jobs = s.jobs := rfl
@[simp] theorem State.updRing_fences (s : State) (r : Nat) (f : Ring → Ring) : (s.updRing r f).fences = s.fences := rfl
@[simp] theorem State.updRing_groups (s : State) (r : Nat) (f : Ring → Ring) : (s.updRing r f).groups = s.groups := rfl
@[simp] theorem State.updRing_leash (s : State) (r : Nat) (f : Ring → Ring) : (s.updRing r f).leash = s.leash := rfl
@[simp] theorem State.updRing_hqs (s : State) (r : Nat) (f : Ring → Ring) : (s.updRing r f).hqs = s.hqs := rfl
@[simp] theorem State.updRing_rwrites (s : State) (r : Nat) (f : Ring → Ring) : (s.updRing r f).rwrites = s.rwrites := rfl
@[simp] theorem State.updRing_racks (s : State) (r : Nat) (f : Ring → Ring) : (s.updRing r f).racks = s.racks := rfl
@[simp] theorem State.updRing_host (s : State) (r : Nat) (f : Ring → Ring) : (s.updRing r f).host = s.host := rfl
@[simp] theorem State.updRing_hostOpen (s : State) (r : Nat) (f : Ring → Ring) : (s.updRing r f).hostOpen = s.hostOpen := rfl
@[simp] theorem State.updRing_fresh (s : State) (r : Nat) (f : Ring → Ring) : (s.updRing r f).fresh = s.fresh := rfl
@[simp] theorem State.updRing_pending (s : State) (r : Nat) (f : Ring → Ring) : (s.updRing r f).pending = s.pending := rfl

/-! ### updTb -/

@[simp] theorem State.updTb_conf (s : State) (t : Nat) (f : TBase → TBase) : (s.updTb t f).conf = s.conf := rfl
@[simp] theorem State.updTb_fuse (s : State) (t : Nat) (f : TBase → TBase) : (s.updTb t f).fuse = s.fuse := rfl
@[simp] theorem State.updTb_fclk (s : State) (t : Nat) (f : TBase → TBase) : (s.updTb t f).fclk = s.fclk := rfl
@[simp] theorem State.updTb_boot (s : State) (t : Nat) (f : TBase → TBase) : (s.updTb t f).boot = s.boot := rfl
@[simp] theorem State.updTb_glb (s : State) (t : Nat) (f : TBase → TBase) : (s.updTb t f).glb = s.glb := rfl
@[simp] theorem State.updTb_sd (s : State) (t : Nat) (f : TBase → TBase) : (s.updTb t f).sd = s.sd := rfl
@[simp] theorem State.updTb_power (s : State) (t : Nat) (f : TBase → TBase) : (s.updTb t f).power = s.power := rfl
@[simp] theorem State.updTb_mport (s : State) (t : Nat) (f : TBase → TBase) : (s.updTb t f).mport = s.mport := rfl
@[simp] theorem State.updTb_tport (s : State) (t : Nat) (f : TBase → TBase) : (s.updTb t f).tport = s.tport := rfl
@[simp] theorem State.updTb_aport (s : State) (t : Nat) (f : TBase → TBase) : (s.updTb t f).aport = s.aport := rfl
@[simp] theorem State.updTb_peer (s : State) (t : Nat) (f : TBase → TBase) : (s.updTb t f).peer = s.peer := rfl
@[simp] theorem State.updTb_dma (s : State) (t : Nat) (f : TBase → TBase) : (s.updTb t f).dma = s.dma := rfl
@[simp] theorem State.updTb_dmaQueue (s : State) (t : Nat) (f : TBase → TBase) : (s.updTb t f).dmaQueue = s.dmaQueue := rfl
@[simp] theorem State.updTb_tickEdge (s : State) (t : Nat) (f : TBase → TBase) : (s.updTb t f).tickEdge = s.tickEdge := rfl
@[simp] theorem State.updTb_packs (s : State) (t : Nat) (f : TBase → TBase) : (s.updTb t f).packs = s.packs := rfl
@[simp] theorem State.updTb_cores (s : State) (t : Nat) (f : TBase → TBase) : (s.updTb t f).cores = s.cores := rfl
@[simp] theorem State.updTb_tele (s : State) (t : Nat) (f : TBase → TBase) : (s.updTb t f).tele = s.tele := rfl
@[simp] theorem State.updTb_kennel (s : State) (t : Nat) (f : TBase → TBase) : (s.updTb t f).kennel = s.kennel := rfl
@[simp] theorem State.updTb_traceEn (s : State) (t : Nat) (f : TBase → TBase) : (s.updTb t f).traceEn = s.traceEn := rfl
@[simp] theorem State.updTb_traceLost (s : State) (t : Nat) (f : TBase → TBase) : (s.updTb t f).traceLost = s.traceLost := rfl
@[simp] theorem State.updTb_traceGap (s : State) (t : Nat) (f : TBase → TBase) : (s.updTb t f).traceGap = s.traceGap := rfl
@[simp] theorem State.updTb_trace (s : State) (t : Nat) (f : TBase → TBase) : (s.updTb t f).trace = s.trace := rfl
@[simp] theorem State.updTb_obsSel (s : State) (t : Nat) (f : TBase → TBase) : (s.updTb t f).obsSel = s.obsSel := rfl
@[simp] theorem State.updTb_tap (s : State) (t : Nat) (f : TBase → TBase) : (s.updTb t f).tap = s.tap := rfl
@[simp] theorem State.updTb_hdrs (s : State) (t : Nat) (f : TBase → TBase) : (s.updTb t f).hdrs = s.hdrs := rfl
@[simp] theorem State.updTb_irq (s : State) (t : Nat) (f : TBase → TBase) : (s.updTb t f).irq = s.irq := rfl
@[simp] theorem State.updTb_cfgResp (s : State) (t : Nat) (f : TBase → TBase) : (s.updTb t f).cfgResp = s.cfgResp := rfl
@[simp] theorem State.updTb_cfgRid (s : State) (t : Nat) (f : TBase → TBase) : (s.updTb t f).cfgRid = s.cfgRid := rfl
@[simp] theorem State.updTb_rings (s : State) (t : Nat) (f : TBase → TBase) : (s.updTb t f).rings = s.rings := rfl
@[simp] theorem State.updTb_jobs (s : State) (t : Nat) (f : TBase → TBase) : (s.updTb t f).jobs = s.jobs := rfl
@[simp] theorem State.updTb_fences (s : State) (t : Nat) (f : TBase → TBase) : (s.updTb t f).fences = s.fences := rfl
@[simp] theorem State.updTb_groups (s : State) (t : Nat) (f : TBase → TBase) : (s.updTb t f).groups = s.groups := rfl
@[simp] theorem State.updTb_leash (s : State) (t : Nat) (f : TBase → TBase) : (s.updTb t f).leash = s.leash := rfl
@[simp] theorem State.updTb_hqs (s : State) (t : Nat) (f : TBase → TBase) : (s.updTb t f).hqs = s.hqs := rfl
@[simp] theorem State.updTb_rwrites (s : State) (t : Nat) (f : TBase → TBase) : (s.updTb t f).rwrites = s.rwrites := rfl
@[simp] theorem State.updTb_racks (s : State) (t : Nat) (f : TBase → TBase) : (s.updTb t f).racks = s.racks := rfl
@[simp] theorem State.updTb_host (s : State) (t : Nat) (f : TBase → TBase) : (s.updTb t f).host = s.host := rfl
@[simp] theorem State.updTb_hostOpen (s : State) (t : Nat) (f : TBase → TBase) : (s.updTb t f).hostOpen = s.hostOpen := rfl
@[simp] theorem State.updTb_fresh (s : State) (t : Nat) (f : TBase → TBase) : (s.updTb t f).fresh = s.fresh := rfl
@[simp] theorem State.updTb_pending (s : State) (t : Nat) (f : TBase → TBase) : (s.updTb t f).pending = s.pending := rfl

/-! ### setGroup -/

@[simp] theorem State.setGroup_conf (s : State) (g : Nat) (x : Group) : (s.setGroup g x).conf = s.conf := rfl
@[simp] theorem State.setGroup_fuse (s : State) (g : Nat) (x : Group) : (s.setGroup g x).fuse = s.fuse := rfl
@[simp] theorem State.setGroup_fclk (s : State) (g : Nat) (x : Group) : (s.setGroup g x).fclk = s.fclk := rfl
@[simp] theorem State.setGroup_boot (s : State) (g : Nat) (x : Group) : (s.setGroup g x).boot = s.boot := rfl
@[simp] theorem State.setGroup_glb (s : State) (g : Nat) (x : Group) : (s.setGroup g x).glb = s.glb := rfl
@[simp] theorem State.setGroup_sd (s : State) (g : Nat) (x : Group) : (s.setGroup g x).sd = s.sd := rfl
@[simp] theorem State.setGroup_power (s : State) (g : Nat) (x : Group) : (s.setGroup g x).power = s.power := rfl
@[simp] theorem State.setGroup_mport (s : State) (g : Nat) (x : Group) : (s.setGroup g x).mport = s.mport := rfl
@[simp] theorem State.setGroup_tport (s : State) (g : Nat) (x : Group) : (s.setGroup g x).tport = s.tport := rfl
@[simp] theorem State.setGroup_aport (s : State) (g : Nat) (x : Group) : (s.setGroup g x).aport = s.aport := rfl
@[simp] theorem State.setGroup_peer (s : State) (g : Nat) (x : Group) : (s.setGroup g x).peer = s.peer := rfl
@[simp] theorem State.setGroup_dma (s : State) (g : Nat) (x : Group) : (s.setGroup g x).dma = s.dma := rfl
@[simp] theorem State.setGroup_dmaQueue (s : State) (g : Nat) (x : Group) : (s.setGroup g x).dmaQueue = s.dmaQueue := rfl
@[simp] theorem State.setGroup_tbs (s : State) (g : Nat) (x : Group) : (s.setGroup g x).tbs = s.tbs := rfl
@[simp] theorem State.setGroup_tickEdge (s : State) (g : Nat) (x : Group) : (s.setGroup g x).tickEdge = s.tickEdge := rfl
@[simp] theorem State.setGroup_packs (s : State) (g : Nat) (x : Group) : (s.setGroup g x).packs = s.packs := rfl
@[simp] theorem State.setGroup_cores (s : State) (g : Nat) (x : Group) : (s.setGroup g x).cores = s.cores := rfl
@[simp] theorem State.setGroup_tele (s : State) (g : Nat) (x : Group) : (s.setGroup g x).tele = s.tele := rfl
@[simp] theorem State.setGroup_kennel (s : State) (g : Nat) (x : Group) : (s.setGroup g x).kennel = s.kennel := rfl
@[simp] theorem State.setGroup_traceEn (s : State) (g : Nat) (x : Group) : (s.setGroup g x).traceEn = s.traceEn := rfl
@[simp] theorem State.setGroup_traceLost (s : State) (g : Nat) (x : Group) : (s.setGroup g x).traceLost = s.traceLost := rfl
@[simp] theorem State.setGroup_traceGap (s : State) (g : Nat) (x : Group) : (s.setGroup g x).traceGap = s.traceGap := rfl
@[simp] theorem State.setGroup_trace (s : State) (g : Nat) (x : Group) : (s.setGroup g x).trace = s.trace := rfl
@[simp] theorem State.setGroup_obsSel (s : State) (g : Nat) (x : Group) : (s.setGroup g x).obsSel = s.obsSel := rfl
@[simp] theorem State.setGroup_tap (s : State) (g : Nat) (x : Group) : (s.setGroup g x).tap = s.tap := rfl
@[simp] theorem State.setGroup_hdrs (s : State) (g : Nat) (x : Group) : (s.setGroup g x).hdrs = s.hdrs := rfl
@[simp] theorem State.setGroup_irq (s : State) (g : Nat) (x : Group) : (s.setGroup g x).irq = s.irq := rfl
@[simp] theorem State.setGroup_cfgResp (s : State) (g : Nat) (x : Group) : (s.setGroup g x).cfgResp = s.cfgResp := rfl
@[simp] theorem State.setGroup_cfgRid (s : State) (g : Nat) (x : Group) : (s.setGroup g x).cfgRid = s.cfgRid := rfl
@[simp] theorem State.setGroup_rings (s : State) (g : Nat) (x : Group) : (s.setGroup g x).rings = s.rings := rfl
@[simp] theorem State.setGroup_jobs (s : State) (g : Nat) (x : Group) : (s.setGroup g x).jobs = s.jobs := rfl
@[simp] theorem State.setGroup_fences (s : State) (g : Nat) (x : Group) : (s.setGroup g x).fences = s.fences := rfl
@[simp] theorem State.setGroup_leash (s : State) (g : Nat) (x : Group) : (s.setGroup g x).leash = s.leash := rfl
@[simp] theorem State.setGroup_hqs (s : State) (g : Nat) (x : Group) : (s.setGroup g x).hqs = s.hqs := rfl
@[simp] theorem State.setGroup_rwrites (s : State) (g : Nat) (x : Group) : (s.setGroup g x).rwrites = s.rwrites := rfl
@[simp] theorem State.setGroup_racks (s : State) (g : Nat) (x : Group) : (s.setGroup g x).racks = s.racks := rfl
@[simp] theorem State.setGroup_host (s : State) (g : Nat) (x : Group) : (s.setGroup g x).host = s.host := rfl
@[simp] theorem State.setGroup_hostOpen (s : State) (g : Nat) (x : Group) : (s.setGroup g x).hostOpen = s.hostOpen := rfl
@[simp] theorem State.setGroup_fresh (s : State) (g : Nat) (x : Group) : (s.setGroup g x).fresh = s.fresh := rfl
@[simp] theorem State.setGroup_pending (s : State) (g : Nat) (x : Group) : (s.setGroup g x).pending = s.pending := rfl

/-! ### updGroup -/

@[simp] theorem State.updGroup_conf (s : State) (g : Nat) (f : Group → Group) : (s.updGroup g f).conf = s.conf := by unfold State.updGroup; split <;> rfl
@[simp] theorem State.updGroup_fuse (s : State) (g : Nat) (f : Group → Group) : (s.updGroup g f).fuse = s.fuse := by unfold State.updGroup; split <;> rfl
@[simp] theorem State.updGroup_fclk (s : State) (g : Nat) (f : Group → Group) : (s.updGroup g f).fclk = s.fclk := by unfold State.updGroup; split <;> rfl
@[simp] theorem State.updGroup_boot (s : State) (g : Nat) (f : Group → Group) : (s.updGroup g f).boot = s.boot := by unfold State.updGroup; split <;> rfl
@[simp] theorem State.updGroup_glb (s : State) (g : Nat) (f : Group → Group) : (s.updGroup g f).glb = s.glb := by unfold State.updGroup; split <;> rfl
@[simp] theorem State.updGroup_sd (s : State) (g : Nat) (f : Group → Group) : (s.updGroup g f).sd = s.sd := by unfold State.updGroup; split <;> rfl
@[simp] theorem State.updGroup_power (s : State) (g : Nat) (f : Group → Group) : (s.updGroup g f).power = s.power := by unfold State.updGroup; split <;> rfl
@[simp] theorem State.updGroup_mport (s : State) (g : Nat) (f : Group → Group) : (s.updGroup g f).mport = s.mport := by unfold State.updGroup; split <;> rfl
@[simp] theorem State.updGroup_tport (s : State) (g : Nat) (f : Group → Group) : (s.updGroup g f).tport = s.tport := by unfold State.updGroup; split <;> rfl
@[simp] theorem State.updGroup_aport (s : State) (g : Nat) (f : Group → Group) : (s.updGroup g f).aport = s.aport := by unfold State.updGroup; split <;> rfl
@[simp] theorem State.updGroup_peer (s : State) (g : Nat) (f : Group → Group) : (s.updGroup g f).peer = s.peer := by unfold State.updGroup; split <;> rfl
@[simp] theorem State.updGroup_dma (s : State) (g : Nat) (f : Group → Group) : (s.updGroup g f).dma = s.dma := by unfold State.updGroup; split <;> rfl
@[simp] theorem State.updGroup_dmaQueue (s : State) (g : Nat) (f : Group → Group) : (s.updGroup g f).dmaQueue = s.dmaQueue := by unfold State.updGroup; split <;> rfl
@[simp] theorem State.updGroup_tbs (s : State) (g : Nat) (f : Group → Group) : (s.updGroup g f).tbs = s.tbs := by unfold State.updGroup; split <;> rfl
@[simp] theorem State.updGroup_tickEdge (s : State) (g : Nat) (f : Group → Group) : (s.updGroup g f).tickEdge = s.tickEdge := by unfold State.updGroup; split <;> rfl
@[simp] theorem State.updGroup_packs (s : State) (g : Nat) (f : Group → Group) : (s.updGroup g f).packs = s.packs := by unfold State.updGroup; split <;> rfl
@[simp] theorem State.updGroup_cores (s : State) (g : Nat) (f : Group → Group) : (s.updGroup g f).cores = s.cores := by unfold State.updGroup; split <;> rfl
@[simp] theorem State.updGroup_tele (s : State) (g : Nat) (f : Group → Group) : (s.updGroup g f).tele = s.tele := by unfold State.updGroup; split <;> rfl
@[simp] theorem State.updGroup_kennel (s : State) (g : Nat) (f : Group → Group) : (s.updGroup g f).kennel = s.kennel := by unfold State.updGroup; split <;> rfl
@[simp] theorem State.updGroup_traceEn (s : State) (g : Nat) (f : Group → Group) : (s.updGroup g f).traceEn = s.traceEn := by unfold State.updGroup; split <;> rfl
@[simp] theorem State.updGroup_traceLost (s : State) (g : Nat) (f : Group → Group) : (s.updGroup g f).traceLost = s.traceLost := by unfold State.updGroup; split <;> rfl
@[simp] theorem State.updGroup_traceGap (s : State) (g : Nat) (f : Group → Group) : (s.updGroup g f).traceGap = s.traceGap := by unfold State.updGroup; split <;> rfl
@[simp] theorem State.updGroup_trace (s : State) (g : Nat) (f : Group → Group) : (s.updGroup g f).trace = s.trace := by unfold State.updGroup; split <;> rfl
@[simp] theorem State.updGroup_obsSel (s : State) (g : Nat) (f : Group → Group) : (s.updGroup g f).obsSel = s.obsSel := by unfold State.updGroup; split <;> rfl
@[simp] theorem State.updGroup_tap (s : State) (g : Nat) (f : Group → Group) : (s.updGroup g f).tap = s.tap := by unfold State.updGroup; split <;> rfl
@[simp] theorem State.updGroup_hdrs (s : State) (g : Nat) (f : Group → Group) : (s.updGroup g f).hdrs = s.hdrs := by unfold State.updGroup; split <;> rfl
@[simp] theorem State.updGroup_irq (s : State) (g : Nat) (f : Group → Group) : (s.updGroup g f).irq = s.irq := by unfold State.updGroup; split <;> rfl
@[simp] theorem State.updGroup_cfgResp (s : State) (g : Nat) (f : Group → Group) : (s.updGroup g f).cfgResp = s.cfgResp := by unfold State.updGroup; split <;> rfl
@[simp] theorem State.updGroup_cfgRid (s : State) (g : Nat) (f : Group → Group) : (s.updGroup g f).cfgRid = s.cfgRid := by unfold State.updGroup; split <;> rfl
@[simp] theorem State.updGroup_rings (s : State) (g : Nat) (f : Group → Group) : (s.updGroup g f).rings = s.rings := by unfold State.updGroup; split <;> rfl
@[simp] theorem State.updGroup_jobs (s : State) (g : Nat) (f : Group → Group) : (s.updGroup g f).jobs = s.jobs := by unfold State.updGroup; split <;> rfl
@[simp] theorem State.updGroup_fences (s : State) (g : Nat) (f : Group → Group) : (s.updGroup g f).fences = s.fences := by unfold State.updGroup; split <;> rfl
@[simp] theorem State.updGroup_leash (s : State) (g : Nat) (f : Group → Group) : (s.updGroup g f).leash = s.leash := by unfold State.updGroup; split <;> rfl
@[simp] theorem State.updGroup_hqs (s : State) (g : Nat) (f : Group → Group) : (s.updGroup g f).hqs = s.hqs := by unfold State.updGroup; split <;> rfl
@[simp] theorem State.updGroup_rwrites (s : State) (g : Nat) (f : Group → Group) : (s.updGroup g f).rwrites = s.rwrites := by unfold State.updGroup; split <;> rfl
@[simp] theorem State.updGroup_racks (s : State) (g : Nat) (f : Group → Group) : (s.updGroup g f).racks = s.racks := by unfold State.updGroup; split <;> rfl
@[simp] theorem State.updGroup_host (s : State) (g : Nat) (f : Group → Group) : (s.updGroup g f).host = s.host := by unfold State.updGroup; split <;> rfl
@[simp] theorem State.updGroup_hostOpen (s : State) (g : Nat) (f : Group → Group) : (s.updGroup g f).hostOpen = s.hostOpen := by unfold State.updGroup; split <;> rfl
@[simp] theorem State.updGroup_fresh (s : State) (g : Nat) (f : Group → Group) : (s.updGroup g f).fresh = s.fresh := by unfold State.updGroup; split <;> rfl
@[simp] theorem State.updGroup_pending (s : State) (g : Nat) (f : Group → Group) : (s.updGroup g f).pending = s.pending := by unfold State.updGroup; split <;> rfl

/-! ### updJob -/

@[simp] theorem State.updJob_conf (s : State) (r : Nat) (f : Job → Job) : (s.updJob r f).conf = s.conf := by unfold State.updJob; split <;> rfl
@[simp] theorem State.updJob_fuse (s : State) (r : Nat) (f : Job → Job) : (s.updJob r f).fuse = s.fuse := by unfold State.updJob; split <;> rfl
@[simp] theorem State.updJob_fclk (s : State) (r : Nat) (f : Job → Job) : (s.updJob r f).fclk = s.fclk := by unfold State.updJob; split <;> rfl
@[simp] theorem State.updJob_boot (s : State) (r : Nat) (f : Job → Job) : (s.updJob r f).boot = s.boot := by unfold State.updJob; split <;> rfl
@[simp] theorem State.updJob_glb (s : State) (r : Nat) (f : Job → Job) : (s.updJob r f).glb = s.glb := by unfold State.updJob; split <;> rfl
@[simp] theorem State.updJob_sd (s : State) (r : Nat) (f : Job → Job) : (s.updJob r f).sd = s.sd := by unfold State.updJob; split <;> rfl
@[simp] theorem State.updJob_power (s : State) (r : Nat) (f : Job → Job) : (s.updJob r f).power = s.power := by unfold State.updJob; split <;> rfl
@[simp] theorem State.updJob_mport (s : State) (r : Nat) (f : Job → Job) : (s.updJob r f).mport = s.mport := by unfold State.updJob; split <;> rfl
@[simp] theorem State.updJob_tport (s : State) (r : Nat) (f : Job → Job) : (s.updJob r f).tport = s.tport := by unfold State.updJob; split <;> rfl
@[simp] theorem State.updJob_aport (s : State) (r : Nat) (f : Job → Job) : (s.updJob r f).aport = s.aport := by unfold State.updJob; split <;> rfl
@[simp] theorem State.updJob_peer (s : State) (r : Nat) (f : Job → Job) : (s.updJob r f).peer = s.peer := by unfold State.updJob; split <;> rfl
@[simp] theorem State.updJob_dma (s : State) (r : Nat) (f : Job → Job) : (s.updJob r f).dma = s.dma := by unfold State.updJob; split <;> rfl
@[simp] theorem State.updJob_dmaQueue (s : State) (r : Nat) (f : Job → Job) : (s.updJob r f).dmaQueue = s.dmaQueue := by unfold State.updJob; split <;> rfl
@[simp] theorem State.updJob_tbs (s : State) (r : Nat) (f : Job → Job) : (s.updJob r f).tbs = s.tbs := by unfold State.updJob; split <;> rfl
@[simp] theorem State.updJob_tickEdge (s : State) (r : Nat) (f : Job → Job) : (s.updJob r f).tickEdge = s.tickEdge := by unfold State.updJob; split <;> rfl
@[simp] theorem State.updJob_packs (s : State) (r : Nat) (f : Job → Job) : (s.updJob r f).packs = s.packs := by unfold State.updJob; split <;> rfl
@[simp] theorem State.updJob_cores (s : State) (r : Nat) (f : Job → Job) : (s.updJob r f).cores = s.cores := by unfold State.updJob; split <;> rfl
@[simp] theorem State.updJob_tele (s : State) (r : Nat) (f : Job → Job) : (s.updJob r f).tele = s.tele := by unfold State.updJob; split <;> rfl
@[simp] theorem State.updJob_kennel (s : State) (r : Nat) (f : Job → Job) : (s.updJob r f).kennel = s.kennel := by unfold State.updJob; split <;> rfl
@[simp] theorem State.updJob_traceEn (s : State) (r : Nat) (f : Job → Job) : (s.updJob r f).traceEn = s.traceEn := by unfold State.updJob; split <;> rfl
@[simp] theorem State.updJob_traceLost (s : State) (r : Nat) (f : Job → Job) : (s.updJob r f).traceLost = s.traceLost := by unfold State.updJob; split <;> rfl
@[simp] theorem State.updJob_traceGap (s : State) (r : Nat) (f : Job → Job) : (s.updJob r f).traceGap = s.traceGap := by unfold State.updJob; split <;> rfl
@[simp] theorem State.updJob_trace (s : State) (r : Nat) (f : Job → Job) : (s.updJob r f).trace = s.trace := by unfold State.updJob; split <;> rfl
@[simp] theorem State.updJob_obsSel (s : State) (r : Nat) (f : Job → Job) : (s.updJob r f).obsSel = s.obsSel := by unfold State.updJob; split <;> rfl
@[simp] theorem State.updJob_tap (s : State) (r : Nat) (f : Job → Job) : (s.updJob r f).tap = s.tap := by unfold State.updJob; split <;> rfl
@[simp] theorem State.updJob_hdrs (s : State) (r : Nat) (f : Job → Job) : (s.updJob r f).hdrs = s.hdrs := by unfold State.updJob; split <;> rfl
@[simp] theorem State.updJob_irq (s : State) (r : Nat) (f : Job → Job) : (s.updJob r f).irq = s.irq := by unfold State.updJob; split <;> rfl
@[simp] theorem State.updJob_cfgResp (s : State) (r : Nat) (f : Job → Job) : (s.updJob r f).cfgResp = s.cfgResp := by unfold State.updJob; split <;> rfl
@[simp] theorem State.updJob_cfgRid (s : State) (r : Nat) (f : Job → Job) : (s.updJob r f).cfgRid = s.cfgRid := by unfold State.updJob; split <;> rfl
@[simp] theorem State.updJob_rings (s : State) (r : Nat) (f : Job → Job) : (s.updJob r f).rings = s.rings := by unfold State.updJob; split <;> rfl
@[simp] theorem State.updJob_fences (s : State) (r : Nat) (f : Job → Job) : (s.updJob r f).fences = s.fences := by unfold State.updJob; split <;> rfl
@[simp] theorem State.updJob_groups (s : State) (r : Nat) (f : Job → Job) : (s.updJob r f).groups = s.groups := by unfold State.updJob; split <;> rfl
@[simp] theorem State.updJob_leash (s : State) (r : Nat) (f : Job → Job) : (s.updJob r f).leash = s.leash := by unfold State.updJob; split <;> rfl
@[simp] theorem State.updJob_hqs (s : State) (r : Nat) (f : Job → Job) : (s.updJob r f).hqs = s.hqs := by unfold State.updJob; split <;> rfl
@[simp] theorem State.updJob_rwrites (s : State) (r : Nat) (f : Job → Job) : (s.updJob r f).rwrites = s.rwrites := by unfold State.updJob; split <;> rfl
@[simp] theorem State.updJob_racks (s : State) (r : Nat) (f : Job → Job) : (s.updJob r f).racks = s.racks := by unfold State.updJob; split <;> rfl
@[simp] theorem State.updJob_host (s : State) (r : Nat) (f : Job → Job) : (s.updJob r f).host = s.host := by unfold State.updJob; split <;> rfl
@[simp] theorem State.updJob_hostOpen (s : State) (r : Nat) (f : Job → Job) : (s.updJob r f).hostOpen = s.hostOpen := by unfold State.updJob; split <;> rfl
@[simp] theorem State.updJob_fresh (s : State) (r : Nat) (f : Job → Job) : (s.updJob r f).fresh = s.fresh := by unfold State.updJob; split <;> rfl
@[simp] theorem State.updJob_pending (s : State) (r : Nat) (f : Job → Job) : (s.updJob r f).pending = s.pending := by unfold State.updJob; split <;> rfl

/-! ### updHq -/

@[simp] theorem State.updHq_conf (s : State) (q : Nat) (f : HQueue → HQueue) : (s.updHq q f).conf = s.conf := rfl
@[simp] theorem State.updHq_fuse (s : State) (q : Nat) (f : HQueue → HQueue) : (s.updHq q f).fuse = s.fuse := rfl
@[simp] theorem State.updHq_fclk (s : State) (q : Nat) (f : HQueue → HQueue) : (s.updHq q f).fclk = s.fclk := rfl
@[simp] theorem State.updHq_boot (s : State) (q : Nat) (f : HQueue → HQueue) : (s.updHq q f).boot = s.boot := rfl
@[simp] theorem State.updHq_glb (s : State) (q : Nat) (f : HQueue → HQueue) : (s.updHq q f).glb = s.glb := rfl
@[simp] theorem State.updHq_sd (s : State) (q : Nat) (f : HQueue → HQueue) : (s.updHq q f).sd = s.sd := rfl
@[simp] theorem State.updHq_power (s : State) (q : Nat) (f : HQueue → HQueue) : (s.updHq q f).power = s.power := rfl
@[simp] theorem State.updHq_mport (s : State) (q : Nat) (f : HQueue → HQueue) : (s.updHq q f).mport = s.mport := rfl
@[simp] theorem State.updHq_tport (s : State) (q : Nat) (f : HQueue → HQueue) : (s.updHq q f).tport = s.tport := rfl
@[simp] theorem State.updHq_aport (s : State) (q : Nat) (f : HQueue → HQueue) : (s.updHq q f).aport = s.aport := rfl
@[simp] theorem State.updHq_peer (s : State) (q : Nat) (f : HQueue → HQueue) : (s.updHq q f).peer = s.peer := rfl
@[simp] theorem State.updHq_dma (s : State) (q : Nat) (f : HQueue → HQueue) : (s.updHq q f).dma = s.dma := rfl
@[simp] theorem State.updHq_dmaQueue (s : State) (q : Nat) (f : HQueue → HQueue) : (s.updHq q f).dmaQueue = s.dmaQueue := rfl
@[simp] theorem State.updHq_tbs (s : State) (q : Nat) (f : HQueue → HQueue) : (s.updHq q f).tbs = s.tbs := rfl
@[simp] theorem State.updHq_tickEdge (s : State) (q : Nat) (f : HQueue → HQueue) : (s.updHq q f).tickEdge = s.tickEdge := rfl
@[simp] theorem State.updHq_packs (s : State) (q : Nat) (f : HQueue → HQueue) : (s.updHq q f).packs = s.packs := rfl
@[simp] theorem State.updHq_cores (s : State) (q : Nat) (f : HQueue → HQueue) : (s.updHq q f).cores = s.cores := rfl
@[simp] theorem State.updHq_tele (s : State) (q : Nat) (f : HQueue → HQueue) : (s.updHq q f).tele = s.tele := rfl
@[simp] theorem State.updHq_kennel (s : State) (q : Nat) (f : HQueue → HQueue) : (s.updHq q f).kennel = s.kennel := rfl
@[simp] theorem State.updHq_traceEn (s : State) (q : Nat) (f : HQueue → HQueue) : (s.updHq q f).traceEn = s.traceEn := rfl
@[simp] theorem State.updHq_traceLost (s : State) (q : Nat) (f : HQueue → HQueue) : (s.updHq q f).traceLost = s.traceLost := rfl
@[simp] theorem State.updHq_traceGap (s : State) (q : Nat) (f : HQueue → HQueue) : (s.updHq q f).traceGap = s.traceGap := rfl
@[simp] theorem State.updHq_trace (s : State) (q : Nat) (f : HQueue → HQueue) : (s.updHq q f).trace = s.trace := rfl
@[simp] theorem State.updHq_obsSel (s : State) (q : Nat) (f : HQueue → HQueue) : (s.updHq q f).obsSel = s.obsSel := rfl
@[simp] theorem State.updHq_tap (s : State) (q : Nat) (f : HQueue → HQueue) : (s.updHq q f).tap = s.tap := rfl
@[simp] theorem State.updHq_hdrs (s : State) (q : Nat) (f : HQueue → HQueue) : (s.updHq q f).hdrs = s.hdrs := rfl
@[simp] theorem State.updHq_irq (s : State) (q : Nat) (f : HQueue → HQueue) : (s.updHq q f).irq = s.irq := rfl
@[simp] theorem State.updHq_cfgResp (s : State) (q : Nat) (f : HQueue → HQueue) : (s.updHq q f).cfgResp = s.cfgResp := rfl
@[simp] theorem State.updHq_cfgRid (s : State) (q : Nat) (f : HQueue → HQueue) : (s.updHq q f).cfgRid = s.cfgRid := rfl
@[simp] theorem State.updHq_rings (s : State) (q : Nat) (f : HQueue → HQueue) : (s.updHq q f).rings = s.rings := rfl
@[simp] theorem State.updHq_jobs (s : State) (q : Nat) (f : HQueue → HQueue) : (s.updHq q f).jobs = s.jobs := rfl
@[simp] theorem State.updHq_fences (s : State) (q : Nat) (f : HQueue → HQueue) : (s.updHq q f).fences = s.fences := rfl
@[simp] theorem State.updHq_groups (s : State) (q : Nat) (f : HQueue → HQueue) : (s.updHq q f).groups = s.groups := rfl
@[simp] theorem State.updHq_leash (s : State) (q : Nat) (f : HQueue → HQueue) : (s.updHq q f).leash = s.leash := rfl
@[simp] theorem State.updHq_rwrites (s : State) (q : Nat) (f : HQueue → HQueue) : (s.updHq q f).rwrites = s.rwrites := rfl
@[simp] theorem State.updHq_racks (s : State) (q : Nat) (f : HQueue → HQueue) : (s.updHq q f).racks = s.racks := rfl
@[simp] theorem State.updHq_host (s : State) (q : Nat) (f : HQueue → HQueue) : (s.updHq q f).host = s.host := rfl
@[simp] theorem State.updHq_hostOpen (s : State) (q : Nat) (f : HQueue → HQueue) : (s.updHq q f).hostOpen = s.hostOpen := rfl
@[simp] theorem State.updHq_fresh (s : State) (q : Nat) (f : HQueue → HQueue) : (s.updHq q f).fresh = s.fresh := rfl
@[simp] theorem State.updHq_pending (s : State) (q : Nat) (f : HQueue → HQueue) : (s.updHq q f).pending = s.pending := rfl

/-! ### updChan -/

@[simp] theorem State.updChan_conf (s : State) (c : Nat) (f : DmaChan → DmaChan) : (s.updChan c f).conf = s.conf := rfl
@[simp] theorem State.updChan_fuse (s : State) (c : Nat) (f : DmaChan → DmaChan) : (s.updChan c f).fuse = s.fuse := rfl
@[simp] theorem State.updChan_fclk (s : State) (c : Nat) (f : DmaChan → DmaChan) : (s.updChan c f).fclk = s.fclk := rfl
@[simp] theorem State.updChan_boot (s : State) (c : Nat) (f : DmaChan → DmaChan) : (s.updChan c f).boot = s.boot := rfl
@[simp] theorem State.updChan_glb (s : State) (c : Nat) (f : DmaChan → DmaChan) : (s.updChan c f).glb = s.glb := rfl
@[simp] theorem State.updChan_sd (s : State) (c : Nat) (f : DmaChan → DmaChan) : (s.updChan c f).sd = s.sd := rfl
@[simp] theorem State.updChan_power (s : State) (c : Nat) (f : DmaChan → DmaChan) : (s.updChan c f).power = s.power := rfl
@[simp] theorem State.updChan_mport (s : State) (c : Nat) (f : DmaChan → DmaChan) : (s.updChan c f).mport = s.mport := rfl
@[simp] theorem State.updChan_tport (s : State) (c : Nat) (f : DmaChan → DmaChan) : (s.updChan c f).tport = s.tport := rfl
@[simp] theorem State.updChan_aport (s : State) (c : Nat) (f : DmaChan → DmaChan) : (s.updChan c f).aport = s.aport := rfl
@[simp] theorem State.updChan_peer (s : State) (c : Nat) (f : DmaChan → DmaChan) : (s.updChan c f).peer = s.peer := rfl
@[simp] theorem State.updChan_dmaQueue (s : State) (c : Nat) (f : DmaChan → DmaChan) : (s.updChan c f).dmaQueue = s.dmaQueue := rfl
@[simp] theorem State.updChan_tbs (s : State) (c : Nat) (f : DmaChan → DmaChan) : (s.updChan c f).tbs = s.tbs := rfl
@[simp] theorem State.updChan_tickEdge (s : State) (c : Nat) (f : DmaChan → DmaChan) : (s.updChan c f).tickEdge = s.tickEdge := rfl
@[simp] theorem State.updChan_packs (s : State) (c : Nat) (f : DmaChan → DmaChan) : (s.updChan c f).packs = s.packs := rfl
@[simp] theorem State.updChan_cores (s : State) (c : Nat) (f : DmaChan → DmaChan) : (s.updChan c f).cores = s.cores := rfl
@[simp] theorem State.updChan_tele (s : State) (c : Nat) (f : DmaChan → DmaChan) : (s.updChan c f).tele = s.tele := rfl
@[simp] theorem State.updChan_kennel (s : State) (c : Nat) (f : DmaChan → DmaChan) : (s.updChan c f).kennel = s.kennel := rfl
@[simp] theorem State.updChan_traceEn (s : State) (c : Nat) (f : DmaChan → DmaChan) : (s.updChan c f).traceEn = s.traceEn := rfl
@[simp] theorem State.updChan_traceLost (s : State) (c : Nat) (f : DmaChan → DmaChan) : (s.updChan c f).traceLost = s.traceLost := rfl
@[simp] theorem State.updChan_traceGap (s : State) (c : Nat) (f : DmaChan → DmaChan) : (s.updChan c f).traceGap = s.traceGap := rfl
@[simp] theorem State.updChan_trace (s : State) (c : Nat) (f : DmaChan → DmaChan) : (s.updChan c f).trace = s.trace := rfl
@[simp] theorem State.updChan_obsSel (s : State) (c : Nat) (f : DmaChan → DmaChan) : (s.updChan c f).obsSel = s.obsSel := rfl
@[simp] theorem State.updChan_tap (s : State) (c : Nat) (f : DmaChan → DmaChan) : (s.updChan c f).tap = s.tap := rfl
@[simp] theorem State.updChan_hdrs (s : State) (c : Nat) (f : DmaChan → DmaChan) : (s.updChan c f).hdrs = s.hdrs := rfl
@[simp] theorem State.updChan_irq (s : State) (c : Nat) (f : DmaChan → DmaChan) : (s.updChan c f).irq = s.irq := rfl
@[simp] theorem State.updChan_cfgResp (s : State) (c : Nat) (f : DmaChan → DmaChan) : (s.updChan c f).cfgResp = s.cfgResp := rfl
@[simp] theorem State.updChan_cfgRid (s : State) (c : Nat) (f : DmaChan → DmaChan) : (s.updChan c f).cfgRid = s.cfgRid := rfl
@[simp] theorem State.updChan_rings (s : State) (c : Nat) (f : DmaChan → DmaChan) : (s.updChan c f).rings = s.rings := rfl
@[simp] theorem State.updChan_jobs (s : State) (c : Nat) (f : DmaChan → DmaChan) : (s.updChan c f).jobs = s.jobs := rfl
@[simp] theorem State.updChan_fences (s : State) (c : Nat) (f : DmaChan → DmaChan) : (s.updChan c f).fences = s.fences := rfl
@[simp] theorem State.updChan_groups (s : State) (c : Nat) (f : DmaChan → DmaChan) : (s.updChan c f).groups = s.groups := rfl
@[simp] theorem State.updChan_leash (s : State) (c : Nat) (f : DmaChan → DmaChan) : (s.updChan c f).leash = s.leash := rfl
@[simp] theorem State.updChan_hqs (s : State) (c : Nat) (f : DmaChan → DmaChan) : (s.updChan c f).hqs = s.hqs := rfl
@[simp] theorem State.updChan_rwrites (s : State) (c : Nat) (f : DmaChan → DmaChan) : (s.updChan c f).rwrites = s.rwrites := rfl
@[simp] theorem State.updChan_racks (s : State) (c : Nat) (f : DmaChan → DmaChan) : (s.updChan c f).racks = s.racks := rfl
@[simp] theorem State.updChan_host (s : State) (c : Nat) (f : DmaChan → DmaChan) : (s.updChan c f).host = s.host := rfl
@[simp] theorem State.updChan_hostOpen (s : State) (c : Nat) (f : DmaChan → DmaChan) : (s.updChan c f).hostOpen = s.hostOpen := rfl
@[simp] theorem State.updChan_fresh (s : State) (c : Nat) (f : DmaChan → DmaChan) : (s.updChan c f).fresh = s.fresh := rfl
@[simp] theorem State.updChan_pending (s : State) (c : Nat) (f : DmaChan → DmaChan) : (s.updChan c f).pending = s.pending := rfl

/-! ### updPartner -/

@[simp] theorem State.updPartner_conf (s : State) (m : Nat) (f : Partner → Partner) : (s.updPartner m f).conf = s.conf := rfl
@[simp] theorem State.updPartner_fuse (s : State) (m : Nat) (f : Partner → Partner) : (s.updPartner m f).fuse = s.fuse := rfl
@[simp] theorem State.updPartner_fclk (s : State) (m : Nat) (f : Partner → Partner) : (s.updPartner m f).fclk = s.fclk := rfl
@[simp] theorem State.updPartner_boot (s : State) (m : Nat) (f : Partner → Partner) : (s.updPartner m f).boot = s.boot := rfl
@[simp] theorem State.updPartner_glb (s : State) (m : Nat) (f : Partner → Partner) : (s.updPartner m f).glb = s.glb := rfl
@[simp] theorem State.updPartner_sd (s : State) (m : Nat) (f : Partner → Partner) : (s.updPartner m f).sd = s.sd := rfl
@[simp] theorem State.updPartner_power (s : State) (m : Nat) (f : Partner → Partner) : (s.updPartner m f).power = s.power := rfl
@[simp] theorem State.updPartner_mport (s : State) (m : Nat) (f : Partner → Partner) : (s.updPartner m f).mport = s.mport := rfl
@[simp] theorem State.updPartner_tport (s : State) (m : Nat) (f : Partner → Partner) : (s.updPartner m f).tport = s.tport := rfl
@[simp] theorem State.updPartner_aport (s : State) (m : Nat) (f : Partner → Partner) : (s.updPartner m f).aport = s.aport := rfl
@[simp] theorem State.updPartner_dma (s : State) (m : Nat) (f : Partner → Partner) : (s.updPartner m f).dma = s.dma := rfl
@[simp] theorem State.updPartner_dmaQueue (s : State) (m : Nat) (f : Partner → Partner) : (s.updPartner m f).dmaQueue = s.dmaQueue := rfl
@[simp] theorem State.updPartner_tbs (s : State) (m : Nat) (f : Partner → Partner) : (s.updPartner m f).tbs = s.tbs := rfl
@[simp] theorem State.updPartner_tickEdge (s : State) (m : Nat) (f : Partner → Partner) : (s.updPartner m f).tickEdge = s.tickEdge := rfl
@[simp] theorem State.updPartner_packs (s : State) (m : Nat) (f : Partner → Partner) : (s.updPartner m f).packs = s.packs := rfl
@[simp] theorem State.updPartner_cores (s : State) (m : Nat) (f : Partner → Partner) : (s.updPartner m f).cores = s.cores := rfl
@[simp] theorem State.updPartner_tele (s : State) (m : Nat) (f : Partner → Partner) : (s.updPartner m f).tele = s.tele := rfl
@[simp] theorem State.updPartner_kennel (s : State) (m : Nat) (f : Partner → Partner) : (s.updPartner m f).kennel = s.kennel := rfl
@[simp] theorem State.updPartner_traceEn (s : State) (m : Nat) (f : Partner → Partner) : (s.updPartner m f).traceEn = s.traceEn := rfl
@[simp] theorem State.updPartner_traceLost (s : State) (m : Nat) (f : Partner → Partner) : (s.updPartner m f).traceLost = s.traceLost := rfl
@[simp] theorem State.updPartner_traceGap (s : State) (m : Nat) (f : Partner → Partner) : (s.updPartner m f).traceGap = s.traceGap := rfl
@[simp] theorem State.updPartner_trace (s : State) (m : Nat) (f : Partner → Partner) : (s.updPartner m f).trace = s.trace := rfl
@[simp] theorem State.updPartner_obsSel (s : State) (m : Nat) (f : Partner → Partner) : (s.updPartner m f).obsSel = s.obsSel := rfl
@[simp] theorem State.updPartner_tap (s : State) (m : Nat) (f : Partner → Partner) : (s.updPartner m f).tap = s.tap := rfl
@[simp] theorem State.updPartner_hdrs (s : State) (m : Nat) (f : Partner → Partner) : (s.updPartner m f).hdrs = s.hdrs := rfl
@[simp] theorem State.updPartner_irq (s : State) (m : Nat) (f : Partner → Partner) : (s.updPartner m f).irq = s.irq := rfl
@[simp] theorem State.updPartner_cfgResp (s : State) (m : Nat) (f : Partner → Partner) : (s.updPartner m f).cfgResp = s.cfgResp := rfl
@[simp] theorem State.updPartner_cfgRid (s : State) (m : Nat) (f : Partner → Partner) : (s.updPartner m f).cfgRid = s.cfgRid := rfl
@[simp] theorem State.updPartner_rings (s : State) (m : Nat) (f : Partner → Partner) : (s.updPartner m f).rings = s.rings := rfl
@[simp] theorem State.updPartner_jobs (s : State) (m : Nat) (f : Partner → Partner) : (s.updPartner m f).jobs = s.jobs := rfl
@[simp] theorem State.updPartner_fences (s : State) (m : Nat) (f : Partner → Partner) : (s.updPartner m f).fences = s.fences := rfl
@[simp] theorem State.updPartner_groups (s : State) (m : Nat) (f : Partner → Partner) : (s.updPartner m f).groups = s.groups := rfl
@[simp] theorem State.updPartner_leash (s : State) (m : Nat) (f : Partner → Partner) : (s.updPartner m f).leash = s.leash := rfl
@[simp] theorem State.updPartner_hqs (s : State) (m : Nat) (f : Partner → Partner) : (s.updPartner m f).hqs = s.hqs := rfl
@[simp] theorem State.updPartner_rwrites (s : State) (m : Nat) (f : Partner → Partner) : (s.updPartner m f).rwrites = s.rwrites := rfl
@[simp] theorem State.updPartner_racks (s : State) (m : Nat) (f : Partner → Partner) : (s.updPartner m f).racks = s.racks := rfl
@[simp] theorem State.updPartner_host (s : State) (m : Nat) (f : Partner → Partner) : (s.updPartner m f).host = s.host := rfl
@[simp] theorem State.updPartner_hostOpen (s : State) (m : Nat) (f : Partner → Partner) : (s.updPartner m f).hostOpen = s.hostOpen := rfl
@[simp] theorem State.updPartner_fresh (s : State) (m : Nat) (f : Partner → Partner) : (s.updPartner m f).fresh = s.fresh := rfl
@[simp] theorem State.updPartner_pending (s : State) (m : Nat) (f : Partner → Partner) : (s.updPartner m f).pending = s.pending := rfl

/-! ### updLeash -/

@[simp] theorem State.updLeash_conf (s : State) (m : Nat) (f : Leash → Leash) : (s.updLeash m f).conf = s.conf := rfl
@[simp] theorem State.updLeash_fuse (s : State) (m : Nat) (f : Leash → Leash) : (s.updLeash m f).fuse = s.fuse := rfl
@[simp] theorem State.updLeash_fclk (s : State) (m : Nat) (f : Leash → Leash) : (s.updLeash m f).fclk = s.fclk := rfl
@[simp] theorem State.updLeash_boot (s : State) (m : Nat) (f : Leash → Leash) : (s.updLeash m f).boot = s.boot := rfl
@[simp] theorem State.updLeash_glb (s : State) (m : Nat) (f : Leash → Leash) : (s.updLeash m f).glb = s.glb := rfl
@[simp] theorem State.updLeash_sd (s : State) (m : Nat) (f : Leash → Leash) : (s.updLeash m f).sd = s.sd := rfl
@[simp] theorem State.updLeash_power (s : State) (m : Nat) (f : Leash → Leash) : (s.updLeash m f).power = s.power := rfl
@[simp] theorem State.updLeash_mport (s : State) (m : Nat) (f : Leash → Leash) : (s.updLeash m f).mport = s.mport := rfl
@[simp] theorem State.updLeash_tport (s : State) (m : Nat) (f : Leash → Leash) : (s.updLeash m f).tport = s.tport := rfl
@[simp] theorem State.updLeash_aport (s : State) (m : Nat) (f : Leash → Leash) : (s.updLeash m f).aport = s.aport := rfl
@[simp] theorem State.updLeash_peer (s : State) (m : Nat) (f : Leash → Leash) : (s.updLeash m f).peer = s.peer := rfl
@[simp] theorem State.updLeash_dma (s : State) (m : Nat) (f : Leash → Leash) : (s.updLeash m f).dma = s.dma := rfl
@[simp] theorem State.updLeash_dmaQueue (s : State) (m : Nat) (f : Leash → Leash) : (s.updLeash m f).dmaQueue = s.dmaQueue := rfl
@[simp] theorem State.updLeash_tbs (s : State) (m : Nat) (f : Leash → Leash) : (s.updLeash m f).tbs = s.tbs := rfl
@[simp] theorem State.updLeash_tickEdge (s : State) (m : Nat) (f : Leash → Leash) : (s.updLeash m f).tickEdge = s.tickEdge := rfl
@[simp] theorem State.updLeash_packs (s : State) (m : Nat) (f : Leash → Leash) : (s.updLeash m f).packs = s.packs := rfl
@[simp] theorem State.updLeash_cores (s : State) (m : Nat) (f : Leash → Leash) : (s.updLeash m f).cores = s.cores := rfl
@[simp] theorem State.updLeash_tele (s : State) (m : Nat) (f : Leash → Leash) : (s.updLeash m f).tele = s.tele := rfl
@[simp] theorem State.updLeash_kennel (s : State) (m : Nat) (f : Leash → Leash) : (s.updLeash m f).kennel = s.kennel := rfl
@[simp] theorem State.updLeash_traceEn (s : State) (m : Nat) (f : Leash → Leash) : (s.updLeash m f).traceEn = s.traceEn := rfl
@[simp] theorem State.updLeash_traceLost (s : State) (m : Nat) (f : Leash → Leash) : (s.updLeash m f).traceLost = s.traceLost := rfl
@[simp] theorem State.updLeash_traceGap (s : State) (m : Nat) (f : Leash → Leash) : (s.updLeash m f).traceGap = s.traceGap := rfl
@[simp] theorem State.updLeash_trace (s : State) (m : Nat) (f : Leash → Leash) : (s.updLeash m f).trace = s.trace := rfl
@[simp] theorem State.updLeash_obsSel (s : State) (m : Nat) (f : Leash → Leash) : (s.updLeash m f).obsSel = s.obsSel := rfl
@[simp] theorem State.updLeash_tap (s : State) (m : Nat) (f : Leash → Leash) : (s.updLeash m f).tap = s.tap := rfl
@[simp] theorem State.updLeash_hdrs (s : State) (m : Nat) (f : Leash → Leash) : (s.updLeash m f).hdrs = s.hdrs := rfl
@[simp] theorem State.updLeash_irq (s : State) (m : Nat) (f : Leash → Leash) : (s.updLeash m f).irq = s.irq := rfl
@[simp] theorem State.updLeash_cfgResp (s : State) (m : Nat) (f : Leash → Leash) : (s.updLeash m f).cfgResp = s.cfgResp := rfl
@[simp] theorem State.updLeash_cfgRid (s : State) (m : Nat) (f : Leash → Leash) : (s.updLeash m f).cfgRid = s.cfgRid := rfl
@[simp] theorem State.updLeash_rings (s : State) (m : Nat) (f : Leash → Leash) : (s.updLeash m f).rings = s.rings := rfl
@[simp] theorem State.updLeash_jobs (s : State) (m : Nat) (f : Leash → Leash) : (s.updLeash m f).jobs = s.jobs := rfl
@[simp] theorem State.updLeash_fences (s : State) (m : Nat) (f : Leash → Leash) : (s.updLeash m f).fences = s.fences := rfl
@[simp] theorem State.updLeash_groups (s : State) (m : Nat) (f : Leash → Leash) : (s.updLeash m f).groups = s.groups := rfl
@[simp] theorem State.updLeash_hqs (s : State) (m : Nat) (f : Leash → Leash) : (s.updLeash m f).hqs = s.hqs := rfl
@[simp] theorem State.updLeash_rwrites (s : State) (m : Nat) (f : Leash → Leash) : (s.updLeash m f).rwrites = s.rwrites := rfl
@[simp] theorem State.updLeash_racks (s : State) (m : Nat) (f : Leash → Leash) : (s.updLeash m f).racks = s.racks := rfl
@[simp] theorem State.updLeash_host (s : State) (m : Nat) (f : Leash → Leash) : (s.updLeash m f).host = s.host := rfl
@[simp] theorem State.updLeash_hostOpen (s : State) (m : Nat) (f : Leash → Leash) : (s.updLeash m f).hostOpen = s.hostOpen := rfl
@[simp] theorem State.updLeash_fresh (s : State) (m : Nat) (f : Leash → Leash) : (s.updLeash m f).fresh = s.fresh := rfl
@[simp] theorem State.updLeash_pending (s : State) (m : Nat) (f : Leash → Leash) : (s.updLeash m f).pending = s.pending := rfl

/-! ### answers -/

@[simp] theorem State.answers_conf (s : State) (acc : Acc) : (s.answers acc).conf = s.conf := rfl
@[simp] theorem State.answers_fuse (s : State) (acc : Acc) : (s.answers acc).fuse = s.fuse := rfl
@[simp] theorem State.answers_fclk (s : State) (acc : Acc) : (s.answers acc).fclk = s.fclk := rfl
@[simp] theorem State.answers_boot (s : State) (acc : Acc) : (s.answers acc).boot = s.boot := rfl
@[simp] theorem State.answers_glb (s : State) (acc : Acc) : (s.answers acc).glb = s.glb := rfl
@[simp] theorem State.answers_sd (s : State) (acc : Acc) : (s.answers acc).sd = s.sd := rfl
@[simp] theorem State.answers_power (s : State) (acc : Acc) : (s.answers acc).power = s.power := rfl
@[simp] theorem State.answers_mport (s : State) (acc : Acc) : (s.answers acc).mport = s.mport := rfl
@[simp] theorem State.answers_tport (s : State) (acc : Acc) : (s.answers acc).tport = s.tport := rfl
@[simp] theorem State.answers_aport (s : State) (acc : Acc) : (s.answers acc).aport = s.aport := rfl
@[simp] theorem State.answers_peer (s : State) (acc : Acc) : (s.answers acc).peer = s.peer := rfl
@[simp] theorem State.answers_dma (s : State) (acc : Acc) : (s.answers acc).dma = s.dma := rfl
@[simp] theorem State.answers_dmaQueue (s : State) (acc : Acc) : (s.answers acc).dmaQueue = s.dmaQueue := rfl
@[simp] theorem State.answers_tbs (s : State) (acc : Acc) : (s.answers acc).tbs = s.tbs := rfl
@[simp] theorem State.answers_tickEdge (s : State) (acc : Acc) : (s.answers acc).tickEdge = s.tickEdge := rfl
@[simp] theorem State.answers_cfgResp (s : State) (acc : Acc) : (s.answers acc).cfgResp = s.cfgResp := rfl
@[simp] theorem State.answers_packs (s : State) (acc : Acc) : (s.answers acc).packs = s.packs := rfl
@[simp] theorem State.answers_cores (s : State) (acc : Acc) : (s.answers acc).cores = s.cores := rfl
@[simp] theorem State.answers_tele (s : State) (acc : Acc) : (s.answers acc).tele = s.tele := rfl
@[simp] theorem State.answers_kennel (s : State) (acc : Acc) : (s.answers acc).kennel = s.kennel := rfl
@[simp] theorem State.answers_traceEn (s : State) (acc : Acc) : (s.answers acc).traceEn = s.traceEn := rfl
@[simp] theorem State.answers_traceLost (s : State) (acc : Acc) : (s.answers acc).traceLost = s.traceLost := rfl
@[simp] theorem State.answers_traceGap (s : State) (acc : Acc) : (s.answers acc).traceGap = s.traceGap := rfl
@[simp] theorem State.answers_trace (s : State) (acc : Acc) : (s.answers acc).trace = s.trace := rfl
@[simp] theorem State.answers_obsSel (s : State) (acc : Acc) : (s.answers acc).obsSel = s.obsSel := rfl
@[simp] theorem State.answers_tap (s : State) (acc : Acc) : (s.answers acc).tap = s.tap := rfl
@[simp] theorem State.answers_hdrs (s : State) (acc : Acc) : (s.answers acc).hdrs = s.hdrs := rfl
@[simp] theorem State.answers_irq (s : State) (acc : Acc) : (s.answers acc).irq = s.irq := rfl
@[simp] theorem State.answers_rings (s : State) (acc : Acc) : (s.answers acc).rings = s.rings := rfl
@[simp] theorem State.answers_jobs (s : State) (acc : Acc) : (s.answers acc).jobs = s.jobs := rfl
@[simp] theorem State.answers_fences (s : State) (acc : Acc) : (s.answers acc).fences = s.fences := rfl
@[simp] theorem State.answers_groups (s : State) (acc : Acc) : (s.answers acc).groups = s.groups := rfl
@[simp] theorem State.answers_leash (s : State) (acc : Acc) : (s.answers acc).leash = s.leash := rfl
@[simp] theorem State.answers_hqs (s : State) (acc : Acc) : (s.answers acc).hqs = s.hqs := rfl
@[simp] theorem State.answers_rwrites (s : State) (acc : Acc) : (s.answers acc).rwrites = s.rwrites := rfl
@[simp] theorem State.answers_racks (s : State) (acc : Acc) : (s.answers acc).racks = s.racks := rfl
@[simp] theorem State.answers_host (s : State) (acc : Acc) : (s.answers acc).host = s.host := rfl
@[simp] theorem State.answers_hostOpen (s : State) (acc : Acc) : (s.answers acc).hostOpen = s.hostOpen := rfl
@[simp] theorem State.answers_fresh (s : State) (acc : Acc) : (s.answers acc).fresh = s.fresh := rfl
@[simp] theorem State.answers_pending (s : State) (acc : Acc) : (s.answers acc).pending = s.pending := rfl

/-! ### respond -/

@[simp] theorem State.respond_conf (s : State) (n : Nat) (d : Word) : (s.respond n d).conf = s.conf := rfl
@[simp] theorem State.respond_fuse (s : State) (n : Nat) (d : Word) : (s.respond n d).fuse = s.fuse := rfl
@[simp] theorem State.respond_fclk (s : State) (n : Nat) (d : Word) : (s.respond n d).fclk = s.fclk := rfl
@[simp] theorem State.respond_boot (s : State) (n : Nat) (d : Word) : (s.respond n d).boot = s.boot := rfl
@[simp] theorem State.respond_glb (s : State) (n : Nat) (d : Word) : (s.respond n d).glb = s.glb := rfl
@[simp] theorem State.respond_sd (s : State) (n : Nat) (d : Word) : (s.respond n d).sd = s.sd := rfl
@[simp] theorem State.respond_power (s : State) (n : Nat) (d : Word) : (s.respond n d).power = s.power := rfl
@[simp] theorem State.respond_mport (s : State) (n : Nat) (d : Word) : (s.respond n d).mport = s.mport := rfl
@[simp] theorem State.respond_tport (s : State) (n : Nat) (d : Word) : (s.respond n d).tport = s.tport := rfl
@[simp] theorem State.respond_aport (s : State) (n : Nat) (d : Word) : (s.respond n d).aport = s.aport := rfl
@[simp] theorem State.respond_peer (s : State) (n : Nat) (d : Word) : (s.respond n d).peer = s.peer := rfl
@[simp] theorem State.respond_dma (s : State) (n : Nat) (d : Word) : (s.respond n d).dma = s.dma := rfl
@[simp] theorem State.respond_dmaQueue (s : State) (n : Nat) (d : Word) : (s.respond n d).dmaQueue = s.dmaQueue := rfl
@[simp] theorem State.respond_tbs (s : State) (n : Nat) (d : Word) : (s.respond n d).tbs = s.tbs := rfl
@[simp] theorem State.respond_tickEdge (s : State) (n : Nat) (d : Word) : (s.respond n d).tickEdge = s.tickEdge := rfl
@[simp] theorem State.respond_cfgRid (s : State) (n : Nat) (d : Word) : (s.respond n d).cfgRid = s.cfgRid := rfl
@[simp] theorem State.respond_packs (s : State) (n : Nat) (d : Word) : (s.respond n d).packs = s.packs := rfl
@[simp] theorem State.respond_cores (s : State) (n : Nat) (d : Word) : (s.respond n d).cores = s.cores := rfl
@[simp] theorem State.respond_tele (s : State) (n : Nat) (d : Word) : (s.respond n d).tele = s.tele := rfl
@[simp] theorem State.respond_kennel (s : State) (n : Nat) (d : Word) : (s.respond n d).kennel = s.kennel := rfl
@[simp] theorem State.respond_traceEn (s : State) (n : Nat) (d : Word) : (s.respond n d).traceEn = s.traceEn := rfl
@[simp] theorem State.respond_traceLost (s : State) (n : Nat) (d : Word) : (s.respond n d).traceLost = s.traceLost := rfl
@[simp] theorem State.respond_traceGap (s : State) (n : Nat) (d : Word) : (s.respond n d).traceGap = s.traceGap := rfl
@[simp] theorem State.respond_trace (s : State) (n : Nat) (d : Word) : (s.respond n d).trace = s.trace := rfl
@[simp] theorem State.respond_obsSel (s : State) (n : Nat) (d : Word) : (s.respond n d).obsSel = s.obsSel := rfl
@[simp] theorem State.respond_tap (s : State) (n : Nat) (d : Word) : (s.respond n d).tap = s.tap := rfl
@[simp] theorem State.respond_hdrs (s : State) (n : Nat) (d : Word) : (s.respond n d).hdrs = s.hdrs := rfl
@[simp] theorem State.respond_irq (s : State) (n : Nat) (d : Word) : (s.respond n d).irq = s.irq := rfl
@[simp] theorem State.respond_rings (s : State) (n : Nat) (d : Word) : (s.respond n d).rings = s.rings := rfl
@[simp] theorem State.respond_jobs (s : State) (n : Nat) (d : Word) : (s.respond n d).jobs = s.jobs := rfl
@[simp] theorem State.respond_fences (s : State) (n : Nat) (d : Word) : (s.respond n d).fences = s.fences := rfl
@[simp] theorem State.respond_groups (s : State) (n : Nat) (d : Word) : (s.respond n d).groups = s.groups := rfl
@[simp] theorem State.respond_leash (s : State) (n : Nat) (d : Word) : (s.respond n d).leash = s.leash := rfl
@[simp] theorem State.respond_hqs (s : State) (n : Nat) (d : Word) : (s.respond n d).hqs = s.hqs := rfl
@[simp] theorem State.respond_rwrites (s : State) (n : Nat) (d : Word) : (s.respond n d).rwrites = s.rwrites := rfl
@[simp] theorem State.respond_racks (s : State) (n : Nat) (d : Word) : (s.respond n d).racks = s.racks := rfl
@[simp] theorem State.respond_host (s : State) (n : Nat) (d : Word) : (s.respond n d).host = s.host := rfl
@[simp] theorem State.respond_hostOpen (s : State) (n : Nat) (d : Word) : (s.respond n d).hostOpen = s.hostOpen := rfl
@[simp] theorem State.respond_fresh (s : State) (n : Nat) (d : Word) : (s.respond n d).fresh = s.fresh := rfl
@[simp] theorem State.respond_pending (s : State) (n : Nat) (d : Word) : (s.respond n d).pending = s.pending := rfl

/-! ### traceRec -/

@[simp] theorem State.traceRec_conf (s : State) (ty c i n d : Nat) : (s.traceRec ty c i n d).conf = s.conf := by unfold State.traceRec; split <;> [split <;> rfl; rfl]
@[simp] theorem State.traceRec_fuse (s : State) (ty c i n d : Nat) : (s.traceRec ty c i n d).fuse = s.fuse := by unfold State.traceRec; split <;> [split <;> rfl; rfl]
@[simp] theorem State.traceRec_fclk (s : State) (ty c i n d : Nat) : (s.traceRec ty c i n d).fclk = s.fclk := by unfold State.traceRec; split <;> [split <;> rfl; rfl]
@[simp] theorem State.traceRec_boot (s : State) (ty c i n d : Nat) : (s.traceRec ty c i n d).boot = s.boot := by unfold State.traceRec; split <;> [split <;> rfl; rfl]
@[simp] theorem State.traceRec_glb (s : State) (ty c i n d : Nat) : (s.traceRec ty c i n d).glb = s.glb := by unfold State.traceRec; split <;> [split <;> rfl; rfl]
@[simp] theorem State.traceRec_sd (s : State) (ty c i n d : Nat) : (s.traceRec ty c i n d).sd = s.sd := by unfold State.traceRec; split <;> [split <;> rfl; rfl]
@[simp] theorem State.traceRec_power (s : State) (ty c i n d : Nat) : (s.traceRec ty c i n d).power = s.power := by unfold State.traceRec; split <;> [split <;> rfl; rfl]
@[simp] theorem State.traceRec_mport (s : State) (ty c i n d : Nat) : (s.traceRec ty c i n d).mport = s.mport := by unfold State.traceRec; split <;> [split <;> rfl; rfl]
@[simp] theorem State.traceRec_tport (s : State) (ty c i n d : Nat) : (s.traceRec ty c i n d).tport = s.tport := by unfold State.traceRec; split <;> [split <;> rfl; rfl]
@[simp] theorem State.traceRec_aport (s : State) (ty c i n d : Nat) : (s.traceRec ty c i n d).aport = s.aport := by unfold State.traceRec; split <;> [split <;> rfl; rfl]
@[simp] theorem State.traceRec_peer (s : State) (ty c i n d : Nat) : (s.traceRec ty c i n d).peer = s.peer := by unfold State.traceRec; split <;> [split <;> rfl; rfl]
@[simp] theorem State.traceRec_dma (s : State) (ty c i n d : Nat) : (s.traceRec ty c i n d).dma = s.dma := by unfold State.traceRec; split <;> [split <;> rfl; rfl]
@[simp] theorem State.traceRec_dmaQueue (s : State) (ty c i n d : Nat) : (s.traceRec ty c i n d).dmaQueue = s.dmaQueue := by unfold State.traceRec; split <;> [split <;> rfl; rfl]
@[simp] theorem State.traceRec_tbs (s : State) (ty c i n d : Nat) : (s.traceRec ty c i n d).tbs = s.tbs := by unfold State.traceRec; split <;> [split <;> rfl; rfl]
@[simp] theorem State.traceRec_tickEdge (s : State) (ty c i n d : Nat) : (s.traceRec ty c i n d).tickEdge = s.tickEdge := by unfold State.traceRec; split <;> [split <;> rfl; rfl]
@[simp] theorem State.traceRec_packs (s : State) (ty c i n d : Nat) : (s.traceRec ty c i n d).packs = s.packs := by unfold State.traceRec; split <;> [split <;> rfl; rfl]
@[simp] theorem State.traceRec_cores (s : State) (ty c i n d : Nat) : (s.traceRec ty c i n d).cores = s.cores := by unfold State.traceRec; split <;> [split <;> rfl; rfl]
@[simp] theorem State.traceRec_tele (s : State) (ty c i n d : Nat) : (s.traceRec ty c i n d).tele = s.tele := by unfold State.traceRec; split <;> [split <;> rfl; rfl]
@[simp] theorem State.traceRec_kennel (s : State) (ty c i n d : Nat) : (s.traceRec ty c i n d).kennel = s.kennel := by unfold State.traceRec; split <;> [split <;> rfl; rfl]
@[simp] theorem State.traceRec_traceEn (s : State) (ty c i n d : Nat) : (s.traceRec ty c i n d).traceEn = s.traceEn := by unfold State.traceRec; split <;> [split <;> rfl; rfl]
@[simp] theorem State.traceRec_obsSel (s : State) (ty c i n d : Nat) : (s.traceRec ty c i n d).obsSel = s.obsSel := by unfold State.traceRec; split <;> [split <;> rfl; rfl]
@[simp] theorem State.traceRec_tap (s : State) (ty c i n d : Nat) : (s.traceRec ty c i n d).tap = s.tap := by unfold State.traceRec; split <;> [split <;> rfl; rfl]
@[simp] theorem State.traceRec_irq (s : State) (ty c i n d : Nat) : (s.traceRec ty c i n d).irq = s.irq := by unfold State.traceRec; split <;> [split <;> rfl; rfl]
@[simp] theorem State.traceRec_cfgResp (s : State) (ty c i n d : Nat) : (s.traceRec ty c i n d).cfgResp = s.cfgResp := by unfold State.traceRec; split <;> [split <;> rfl; rfl]
@[simp] theorem State.traceRec_cfgRid (s : State) (ty c i n d : Nat) : (s.traceRec ty c i n d).cfgRid = s.cfgRid := by unfold State.traceRec; split <;> [split <;> rfl; rfl]
@[simp] theorem State.traceRec_rings (s : State) (ty c i n d : Nat) : (s.traceRec ty c i n d).rings = s.rings := by unfold State.traceRec; split <;> [split <;> rfl; rfl]
@[simp] theorem State.traceRec_jobs (s : State) (ty c i n d : Nat) : (s.traceRec ty c i n d).jobs = s.jobs := by unfold State.traceRec; split <;> [split <;> rfl; rfl]
@[simp] theorem State.traceRec_fences (s : State) (ty c i n d : Nat) : (s.traceRec ty c i n d).fences = s.fences := by unfold State.traceRec; split <;> [split <;> rfl; rfl]
@[simp] theorem State.traceRec_groups (s : State) (ty c i n d : Nat) : (s.traceRec ty c i n d).groups = s.groups := by unfold State.traceRec; split <;> [split <;> rfl; rfl]
@[simp] theorem State.traceRec_leash (s : State) (ty c i n d : Nat) : (s.traceRec ty c i n d).leash = s.leash := by unfold State.traceRec; split <;> [split <;> rfl; rfl]
@[simp] theorem State.traceRec_hqs (s : State) (ty c i n d : Nat) : (s.traceRec ty c i n d).hqs = s.hqs := by unfold State.traceRec; split <;> [split <;> rfl; rfl]
@[simp] theorem State.traceRec_rwrites (s : State) (ty c i n d : Nat) : (s.traceRec ty c i n d).rwrites = s.rwrites := by unfold State.traceRec; split <;> [split <;> rfl; rfl]
@[simp] theorem State.traceRec_racks (s : State) (ty c i n d : Nat) : (s.traceRec ty c i n d).racks = s.racks := by unfold State.traceRec; split <;> [split <;> rfl; rfl]
@[simp] theorem State.traceRec_host (s : State) (ty c i n d : Nat) : (s.traceRec ty c i n d).host = s.host := by unfold State.traceRec; split <;> [split <;> rfl; rfl]
@[simp] theorem State.traceRec_hostOpen (s : State) (ty c i n d : Nat) : (s.traceRec ty c i n d).hostOpen = s.hostOpen := by unfold State.traceRec; split <;> [split <;> rfl; rfl]
@[simp] theorem State.traceRec_fresh (s : State) (ty c i n d : Nat) : (s.traceRec ty c i n d).fresh = s.fresh := by unfold State.traceRec; split <;> [split <;> rfl; rfl]
@[simp] theorem State.traceRec_pending (s : State) (ty c i n d : Nat) : (s.traceRec ty c i n d).pending = s.pending := by unfold State.traceRec; split <;> [split <;> rfl; rfl]

/-! ### deny -/

@[simp] theorem State.deny_conf (s : State) (a : Nat) (w : Bool) (acc : Acc) : (s.deny a w acc).conf = s.conf := by unfold State.deny; simp only [State.respond]; split <;> rfl
@[simp] theorem State.deny_fuse (s : State) (a : Nat) (w : Bool) (acc : Acc) : (s.deny a w acc).fuse = s.fuse := by unfold State.deny; simp only [State.respond]; split <;> rfl
@[simp] theorem State.deny_fclk (s : State) (a : Nat) (w : Bool) (acc : Acc) : (s.deny a w acc).fclk = s.fclk := by unfold State.deny; simp only [State.respond]; split <;> rfl
@[simp] theorem State.deny_boot (s : State) (a : Nat) (w : Bool) (acc : Acc) : (s.deny a w acc).boot = s.boot := by unfold State.deny; simp only [State.respond]; split <;> rfl
@[simp] theorem State.deny_sd (s : State) (a : Nat) (w : Bool) (acc : Acc) : (s.deny a w acc).sd = s.sd := by unfold State.deny; simp only [State.respond]; split <;> rfl
@[simp] theorem State.deny_power (s : State) (a : Nat) (w : Bool) (acc : Acc) : (s.deny a w acc).power = s.power := by unfold State.deny; simp only [State.respond]; split <;> rfl
@[simp] theorem State.deny_mport (s : State) (a : Nat) (w : Bool) (acc : Acc) : (s.deny a w acc).mport = s.mport := by unfold State.deny; simp only [State.respond]; split <;> rfl
@[simp] theorem State.deny_tport (s : State) (a : Nat) (w : Bool) (acc : Acc) : (s.deny a w acc).tport = s.tport := by unfold State.deny; simp only [State.respond]; split <;> rfl
@[simp] theorem State.deny_aport (s : State) (a : Nat) (w : Bool) (acc : Acc) : (s.deny a w acc).aport = s.aport := by unfold State.deny; simp only [State.respond]; split <;> rfl
@[simp] theorem State.deny_peer (s : State) (a : Nat) (w : Bool) (acc : Acc) : (s.deny a w acc).peer = s.peer := by unfold State.deny; simp only [State.respond]; split <;> rfl
@[simp] theorem State.deny_dma (s : State) (a : Nat) (w : Bool) (acc : Acc) : (s.deny a w acc).dma = s.dma := by unfold State.deny; simp only [State.respond]; split <;> rfl
@[simp] theorem State.deny_dmaQueue (s : State) (a : Nat) (w : Bool) (acc : Acc) : (s.deny a w acc).dmaQueue = s.dmaQueue := by unfold State.deny; simp only [State.respond]; split <;> rfl
@[simp] theorem State.deny_tbs (s : State) (a : Nat) (w : Bool) (acc : Acc) : (s.deny a w acc).tbs = s.tbs := by unfold State.deny; simp only [State.respond]; split <;> rfl
@[simp] theorem State.deny_tickEdge (s : State) (a : Nat) (w : Bool) (acc : Acc) : (s.deny a w acc).tickEdge = s.tickEdge := by unfold State.deny; simp only [State.respond]; split <;> rfl
@[simp] theorem State.deny_cfgRid (s : State) (a : Nat) (w : Bool) (acc : Acc) : (s.deny a w acc).cfgRid = s.cfgRid := by unfold State.deny; simp only [State.respond]; split <;> rfl
@[simp] theorem State.deny_packs (s : State) (a : Nat) (w : Bool) (acc : Acc) : (s.deny a w acc).packs = s.packs := by unfold State.deny; simp only [State.respond]; split <;> rfl
@[simp] theorem State.deny_cores (s : State) (a : Nat) (w : Bool) (acc : Acc) : (s.deny a w acc).cores = s.cores := by unfold State.deny; simp only [State.respond]; split <;> rfl
@[simp] theorem State.deny_tele (s : State) (a : Nat) (w : Bool) (acc : Acc) : (s.deny a w acc).tele = s.tele := by unfold State.deny; simp only [State.respond]; split <;> rfl
@[simp] theorem State.deny_kennel (s : State) (a : Nat) (w : Bool) (acc : Acc) : (s.deny a w acc).kennel = s.kennel := by unfold State.deny; simp only [State.respond]; split <;> rfl
@[simp] theorem State.deny_traceEn (s : State) (a : Nat) (w : Bool) (acc : Acc) : (s.deny a w acc).traceEn = s.traceEn := by unfold State.deny; simp only [State.respond]; split <;> rfl
@[simp] theorem State.deny_traceLost (s : State) (a : Nat) (w : Bool) (acc : Acc) : (s.deny a w acc).traceLost = s.traceLost := by unfold State.deny; simp only [State.respond]; split <;> rfl
@[simp] theorem State.deny_traceGap (s : State) (a : Nat) (w : Bool) (acc : Acc) : (s.deny a w acc).traceGap = s.traceGap := by unfold State.deny; simp only [State.respond]; split <;> rfl
@[simp] theorem State.deny_trace (s : State) (a : Nat) (w : Bool) (acc : Acc) : (s.deny a w acc).trace = s.trace := by unfold State.deny; simp only [State.respond]; split <;> rfl
@[simp] theorem State.deny_obsSel (s : State) (a : Nat) (w : Bool) (acc : Acc) : (s.deny a w acc).obsSel = s.obsSel := by unfold State.deny; simp only [State.respond]; split <;> rfl
@[simp] theorem State.deny_tap (s : State) (a : Nat) (w : Bool) (acc : Acc) : (s.deny a w acc).tap = s.tap := by unfold State.deny; simp only [State.respond]; split <;> rfl
@[simp] theorem State.deny_irq (s : State) (a : Nat) (w : Bool) (acc : Acc) : (s.deny a w acc).irq = s.irq := by unfold State.deny; simp only [State.respond]; split <;> rfl
@[simp] theorem State.deny_rings (s : State) (a : Nat) (w : Bool) (acc : Acc) : (s.deny a w acc).rings = s.rings := by unfold State.deny; simp only [State.respond]; split <;> rfl
@[simp] theorem State.deny_jobs (s : State) (a : Nat) (w : Bool) (acc : Acc) : (s.deny a w acc).jobs = s.jobs := by unfold State.deny; simp only [State.respond]; split <;> rfl
@[simp] theorem State.deny_fences (s : State) (a : Nat) (w : Bool) (acc : Acc) : (s.deny a w acc).fences = s.fences := by unfold State.deny; simp only [State.respond]; split <;> rfl
@[simp] theorem State.deny_groups (s : State) (a : Nat) (w : Bool) (acc : Acc) : (s.deny a w acc).groups = s.groups := by unfold State.deny; simp only [State.respond]; split <;> rfl
@[simp] theorem State.deny_leash (s : State) (a : Nat) (w : Bool) (acc : Acc) : (s.deny a w acc).leash = s.leash := by unfold State.deny; simp only [State.respond]; split <;> rfl
@[simp] theorem State.deny_hqs (s : State) (a : Nat) (w : Bool) (acc : Acc) : (s.deny a w acc).hqs = s.hqs := by unfold State.deny; simp only [State.respond]; split <;> rfl
@[simp] theorem State.deny_rwrites (s : State) (a : Nat) (w : Bool) (acc : Acc) : (s.deny a w acc).rwrites = s.rwrites := by unfold State.deny; simp only [State.respond]; split <;> rfl
@[simp] theorem State.deny_racks (s : State) (a : Nat) (w : Bool) (acc : Acc) : (s.deny a w acc).racks = s.racks := by unfold State.deny; simp only [State.respond]; split <;> rfl
@[simp] theorem State.deny_host (s : State) (a : Nat) (w : Bool) (acc : Acc) : (s.deny a w acc).host = s.host := by unfold State.deny; simp only [State.respond]; split <;> rfl
@[simp] theorem State.deny_hostOpen (s : State) (a : Nat) (w : Bool) (acc : Acc) : (s.deny a w acc).hostOpen = s.hostOpen := by unfold State.deny; simp only [State.respond]; split <;> rfl
@[simp] theorem State.deny_fresh (s : State) (a : Nat) (w : Bool) (acc : Acc) : (s.deny a w acc).fresh = s.fresh := by unfold State.deny; simp only [State.respond]; split <;> rfl
@[simp] theorem State.deny_pending (s : State) (a : Nat) (w : Bool) (acc : Acc) : (s.deny a w acc).pending = s.pending := by unfold State.deny; simp only [State.respond]; split <;> rfl

/-! ### Accessors of an updated state -/

@[simp] theorem State.settle_core_of (s : State) (c' : Nat) : s.settle.core c' = s.core c' := by simp [State.core]
@[simp] theorem State.settle_pack_of (s : State) (p' : Nat) : s.settle.pack p' = s.pack p' := by simp [State.pack]
@[simp] theorem State.settle_ring_of (s : State) (r' : Nat) : s.settle.ring r' = s.ring r' := by simp [State.ring]
@[simp] theorem State.settle_tb_of (s : State) (t' : Nat) : s.settle.tb t' = s.tb t' := by simp [State.tb]
@[simp] theorem State.settle_group_of (s : State) (g' : Nat) : s.settle.group? g' = s.group? g' := by simp [State.group?]
@[simp] theorem State.settle_job_of (s : State) (r' : Nat) : s.settle.job? r' = s.job? r' := by simp [State.job?]
@[simp] theorem State.settle_hq_of (s : State) (q' : Nat) : s.settle.hq q' = s.hq q' := by simp [State.hq]
@[simp] theorem State.settle_chan_of (s : State) (c' : Nat) : s.settle.chan c' = s.chan c' := by simp [State.chan]
@[simp] theorem State.settle_partner_of (s : State) (m' : Nat) : s.settle.partner m' = s.partner m' := by simp [State.partner]
@[simp] theorem State.settle_leashOf_of (s : State) (m' : Nat) : s.settle.leashOf m' = s.leashOf m' := by simp [State.leashOf]
@[simp] theorem State.settle_hdr_of (s : State) (p' : Nat) : s.settle.hdr p' = s.hdr p' := by simp [State.hdr]
@[simp] theorem State.settle_running_of (s : State)  : s.settle.running = s.running := by simp [State.running]
@[simp] theorem State.settle_early_of (s : State)  : s.settle.early = s.early := by simp [State.early]
@[simp] theorem State.settle_full_of (s : State)  : s.settle.full = s.full := by simp [State.full]
@[simp] theorem State.hostWrite_core_of (s : State) (a : Nat) (bs : List Byte) (c' : Nat) : (s.hostWrite a bs).core c' = s.core c' := by simp [State.core]
@[simp] theorem State.hostWrite_pack_of (s : State) (a : Nat) (bs : List Byte) (p' : Nat) : (s.hostWrite a bs).pack p' = s.pack p' := by simp [State.pack]
@[simp] theorem State.hostWrite_ring_of (s : State) (a : Nat) (bs : List Byte) (r' : Nat) : (s.hostWrite a bs).ring r' = s.ring r' := by simp [State.ring]
@[simp] theorem State.hostWrite_tb_of (s : State) (a : Nat) (bs : List Byte) (t' : Nat) : (s.hostWrite a bs).tb t' = s.tb t' := by simp [State.tb]
@[simp] theorem State.hostWrite_group_of (s : State) (a : Nat) (bs : List Byte) (g' : Nat) : (s.hostWrite a bs).group? g' = s.group? g' := by simp [State.group?]
@[simp] theorem State.hostWrite_job_of (s : State) (a : Nat) (bs : List Byte) (r' : Nat) : (s.hostWrite a bs).job? r' = s.job? r' := by simp [State.job?]
@[simp] theorem State.hostWrite_hq_of (s : State) (a : Nat) (bs : List Byte) (q' : Nat) : (s.hostWrite a bs).hq q' = s.hq q' := by simp [State.hq]
@[simp] theorem State.hostWrite_chan_of (s : State) (a : Nat) (bs : List Byte) (c' : Nat) : (s.hostWrite a bs).chan c' = s.chan c' := by simp [State.chan]
@[simp] theorem State.hostWrite_partner_of (s : State) (a : Nat) (bs : List Byte) (m' : Nat) : (s.hostWrite a bs).partner m' = s.partner m' := by simp [State.partner]
@[simp] theorem State.hostWrite_leashOf_of (s : State) (a : Nat) (bs : List Byte) (m' : Nat) : (s.hostWrite a bs).leashOf m' = s.leashOf m' := by simp [State.leashOf]
@[simp] theorem State.hostWrite_hdr_of (s : State) (a : Nat) (bs : List Byte) (p' : Nat) : (s.hostWrite a bs).hdr p' = s.hdr p' := by simp [State.hdr]
@[simp] theorem State.hostWrite_running_of (s : State) (a : Nat) (bs : List Byte)  : (s.hostWrite a bs).running = s.running := by simp [State.running]
@[simp] theorem State.hostWrite_early_of (s : State) (a : Nat) (bs : List Byte)  : (s.hostWrite a bs).early = s.early := by simp [State.early]
@[simp] theorem State.hostWrite_full_of (s : State) (a : Nat) (bs : List Byte)  : (s.hostWrite a bs).full = s.full := by simp [State.full]
@[simp] theorem State.hostPut_core_of (s : State) (a n v : Nat) (c' : Nat) : (s.hostPut a n v).core c' = s.core c' := by simp [State.core]
@[simp] theorem State.hostPut_pack_of (s : State) (a n v : Nat) (p' : Nat) : (s.hostPut a n v).pack p' = s.pack p' := by simp [State.pack]
@[simp] theorem State.hostPut_ring_of (s : State) (a n v : Nat) (r' : Nat) : (s.hostPut a n v).ring r' = s.ring r' := by simp [State.ring]
@[simp] theorem State.hostPut_tb_of (s : State) (a n v : Nat) (t' : Nat) : (s.hostPut a n v).tb t' = s.tb t' := by simp [State.tb]
@[simp] theorem State.hostPut_group_of (s : State) (a n v : Nat) (g' : Nat) : (s.hostPut a n v).group? g' = s.group? g' := by simp [State.group?]
@[simp] theorem State.hostPut_job_of (s : State) (a n v : Nat) (r' : Nat) : (s.hostPut a n v).job? r' = s.job? r' := by simp [State.job?]
@[simp] theorem State.hostPut_hq_of (s : State) (a n v : Nat) (q' : Nat) : (s.hostPut a n v).hq q' = s.hq q' := by simp [State.hq]
@[simp] theorem State.hostPut_chan_of (s : State) (a n v : Nat) (c' : Nat) : (s.hostPut a n v).chan c' = s.chan c' := by simp [State.chan]
@[simp] theorem State.hostPut_partner_of (s : State) (a n v : Nat) (m' : Nat) : (s.hostPut a n v).partner m' = s.partner m' := by simp [State.partner]
@[simp] theorem State.hostPut_leashOf_of (s : State) (a n v : Nat) (m' : Nat) : (s.hostPut a n v).leashOf m' = s.leashOf m' := by simp [State.leashOf]
@[simp] theorem State.hostPut_hdr_of (s : State) (a n v : Nat) (p' : Nat) : (s.hostPut a n v).hdr p' = s.hdr p' := by simp [State.hdr]
@[simp] theorem State.hostPut_running_of (s : State) (a n v : Nat)  : (s.hostPut a n v).running = s.running := by simp [State.running]
@[simp] theorem State.hostPut_early_of (s : State) (a n v : Nat)  : (s.hostPut a n v).early = s.early := by simp [State.early]
@[simp] theorem State.hostPut_full_of (s : State) (a n v : Nat)  : (s.hostPut a n v).full = s.full := by simp [State.full]
@[simp] theorem State.hostOpenRange_core_of (s : State) (a n : Nat) (c' : Nat) : (s.hostOpenRange a n).core c' = s.core c' := by simp [State.core]
@[simp] theorem State.hostOpenRange_pack_of (s : State) (a n : Nat) (p' : Nat) : (s.hostOpenRange a n).pack p' = s.pack p' := by simp [State.pack]
@[simp] theorem State.hostOpenRange_ring_of (s : State) (a n : Nat) (r' : Nat) : (s.hostOpenRange a n).ring r' = s.ring r' := by simp [State.ring]
@[simp] theorem State.hostOpenRange_tb_of (s : State) (a n : Nat) (t' : Nat) : (s.hostOpenRange a n).tb t' = s.tb t' := by simp [State.tb]
@[simp] theorem State.hostOpenRange_group_of (s : State) (a n : Nat) (g' : Nat) : (s.hostOpenRange a n).group? g' = s.group? g' := by simp [State.group?]
@[simp] theorem State.hostOpenRange_job_of (s : State) (a n : Nat) (r' : Nat) : (s.hostOpenRange a n).job? r' = s.job? r' := by simp [State.job?]
@[simp] theorem State.hostOpenRange_hq_of (s : State) (a n : Nat) (q' : Nat) : (s.hostOpenRange a n).hq q' = s.hq q' := by simp [State.hq]
@[simp] theorem State.hostOpenRange_chan_of (s : State) (a n : Nat) (c' : Nat) : (s.hostOpenRange a n).chan c' = s.chan c' := by simp [State.chan]
@[simp] theorem State.hostOpenRange_partner_of (s : State) (a n : Nat) (m' : Nat) : (s.hostOpenRange a n).partner m' = s.partner m' := by simp [State.partner]
@[simp] theorem State.hostOpenRange_leashOf_of (s : State) (a n : Nat) (m' : Nat) : (s.hostOpenRange a n).leashOf m' = s.leashOf m' := by simp [State.leashOf]
@[simp] theorem State.hostOpenRange_hdr_of (s : State) (a n : Nat) (p' : Nat) : (s.hostOpenRange a n).hdr p' = s.hdr p' := by simp [State.hdr]
@[simp] theorem State.hostOpenRange_running_of (s : State) (a n : Nat)  : (s.hostOpenRange a n).running = s.running := by simp [State.running]
@[simp] theorem State.hostOpenRange_early_of (s : State) (a n : Nat)  : (s.hostOpenRange a n).early = s.early := by simp [State.early]
@[simp] theorem State.hostOpenRange_full_of (s : State) (a n : Nat)  : (s.hostOpenRange a n).full = s.full := by simp [State.full]
@[simp] theorem State.hostWriteCode_core_of (s : State) (mem : MemCode) (a : Nat) (bs : List Byte) (c' : Nat) : (s.hostWriteCode mem a bs).core c' = s.core c' := by simp [State.core]
@[simp] theorem State.hostWriteCode_pack_of (s : State) (mem : MemCode) (a : Nat) (bs : List Byte) (p' : Nat) : (s.hostWriteCode mem a bs).pack p' = s.pack p' := by simp [State.pack]
@[simp] theorem State.hostWriteCode_ring_of (s : State) (mem : MemCode) (a : Nat) (bs : List Byte) (r' : Nat) : (s.hostWriteCode mem a bs).ring r' = s.ring r' := by simp [State.ring]
@[simp] theorem State.hostWriteCode_tb_of (s : State) (mem : MemCode) (a : Nat) (bs : List Byte) (t' : Nat) : (s.hostWriteCode mem a bs).tb t' = s.tb t' := by simp [State.tb]
@[simp] theorem State.hostWriteCode_group_of (s : State) (mem : MemCode) (a : Nat) (bs : List Byte) (g' : Nat) : (s.hostWriteCode mem a bs).group? g' = s.group? g' := by simp [State.group?]
@[simp] theorem State.hostWriteCode_job_of (s : State) (mem : MemCode) (a : Nat) (bs : List Byte) (r' : Nat) : (s.hostWriteCode mem a bs).job? r' = s.job? r' := by simp [State.job?]
@[simp] theorem State.hostWriteCode_hq_of (s : State) (mem : MemCode) (a : Nat) (bs : List Byte) (q' : Nat) : (s.hostWriteCode mem a bs).hq q' = s.hq q' := by simp [State.hq]
@[simp] theorem State.hostWriteCode_chan_of (s : State) (mem : MemCode) (a : Nat) (bs : List Byte) (c' : Nat) : (s.hostWriteCode mem a bs).chan c' = s.chan c' := by simp [State.chan]
@[simp] theorem State.hostWriteCode_partner_of (s : State) (mem : MemCode) (a : Nat) (bs : List Byte) (m' : Nat) : (s.hostWriteCode mem a bs).partner m' = s.partner m' := by simp [State.partner]
@[simp] theorem State.hostWriteCode_leashOf_of (s : State) (mem : MemCode) (a : Nat) (bs : List Byte) (m' : Nat) : (s.hostWriteCode mem a bs).leashOf m' = s.leashOf m' := by simp [State.leashOf]
@[simp] theorem State.hostWriteCode_hdr_of (s : State) (mem : MemCode) (a : Nat) (bs : List Byte) (p' : Nat) : (s.hostWriteCode mem a bs).hdr p' = s.hdr p' := by simp [State.hdr]
@[simp] theorem State.hostWriteCode_running_of (s : State) (mem : MemCode) (a : Nat) (bs : List Byte)  : (s.hostWriteCode mem a bs).running = s.running := by simp [State.running]
@[simp] theorem State.hostWriteCode_early_of (s : State) (mem : MemCode) (a : Nat) (bs : List Byte)  : (s.hostWriteCode mem a bs).early = s.early := by simp [State.early]
@[simp] theorem State.hostWriteCode_full_of (s : State) (mem : MemCode) (a : Nat) (bs : List Byte)  : (s.hostWriteCode mem a bs).full = s.full := by simp [State.full]
@[simp] theorem State.updHdr_core_of (s : State) (p : Nat) (f : Hdr → Hdr) (c' : Nat) : (s.updHdr p f).core c' = s.core c' := by simp [State.core]
@[simp] theorem State.updHdr_pack_of (s : State) (p : Nat) (f : Hdr → Hdr) (p' : Nat) : (s.updHdr p f).pack p' = s.pack p' := by simp [State.pack]
@[simp] theorem State.updHdr_ring_of (s : State) (p : Nat) (f : Hdr → Hdr) (r' : Nat) : (s.updHdr p f).ring r' = s.ring r' := by simp [State.ring]
@[simp] theorem State.updHdr_tb_of (s : State) (p : Nat) (f : Hdr → Hdr) (t' : Nat) : (s.updHdr p f).tb t' = s.tb t' := by simp [State.tb]
@[simp] theorem State.updHdr_group_of (s : State) (p : Nat) (f : Hdr → Hdr) (g' : Nat) : (s.updHdr p f).group? g' = s.group? g' := by simp [State.group?]
@[simp] theorem State.updHdr_job_of (s : State) (p : Nat) (f : Hdr → Hdr) (r' : Nat) : (s.updHdr p f).job? r' = s.job? r' := by simp [State.job?]
@[simp] theorem State.updHdr_hq_of (s : State) (p : Nat) (f : Hdr → Hdr) (q' : Nat) : (s.updHdr p f).hq q' = s.hq q' := by simp [State.hq]
@[simp] theorem State.updHdr_chan_of (s : State) (p : Nat) (f : Hdr → Hdr) (c' : Nat) : (s.updHdr p f).chan c' = s.chan c' := by simp [State.chan]
@[simp] theorem State.updHdr_partner_of (s : State) (p : Nat) (f : Hdr → Hdr) (m' : Nat) : (s.updHdr p f).partner m' = s.partner m' := by simp [State.partner]
@[simp] theorem State.updHdr_leashOf_of (s : State) (p : Nat) (f : Hdr → Hdr) (m' : Nat) : (s.updHdr p f).leashOf m' = s.leashOf m' := by simp [State.leashOf]
@[simp] theorem State.updHdr_running_of (s : State) (p : Nat) (f : Hdr → Hdr)  : (s.updHdr p f).running = s.running := by simp [State.running]
@[simp] theorem State.updHdr_early_of (s : State) (p : Nat) (f : Hdr → Hdr)  : (s.updHdr p f).early = s.early := by simp [State.early]
@[simp] theorem State.updHdr_full_of (s : State) (p : Nat) (f : Hdr → Hdr)  : (s.updHdr p f).full = s.full := by simp [State.full]
@[simp] theorem State.raise_core_of (s : State) (p b : Nat) (c' : Nat) : (s.raise p b).core c' = s.core c' := by simp [State.core]
@[simp] theorem State.raise_pack_of (s : State) (p b : Nat) (p' : Nat) : (s.raise p b).pack p' = s.pack p' := by simp [State.pack]
@[simp] theorem State.raise_ring_of (s : State) (p b : Nat) (r' : Nat) : (s.raise p b).ring r' = s.ring r' := by simp [State.ring]
@[simp] theorem State.raise_tb_of (s : State) (p b : Nat) (t' : Nat) : (s.raise p b).tb t' = s.tb t' := by simp [State.tb]
@[simp] theorem State.raise_group_of (s : State) (p b : Nat) (g' : Nat) : (s.raise p b).group? g' = s.group? g' := by simp [State.group?]
@[simp] theorem State.raise_job_of (s : State) (p b : Nat) (r' : Nat) : (s.raise p b).job? r' = s.job? r' := by simp [State.job?]
@[simp] theorem State.raise_hq_of (s : State) (p b : Nat) (q' : Nat) : (s.raise p b).hq q' = s.hq q' := by simp [State.hq]
@[simp] theorem State.raise_chan_of (s : State) (p b : Nat) (c' : Nat) : (s.raise p b).chan c' = s.chan c' := by simp [State.chan]
@[simp] theorem State.raise_partner_of (s : State) (p b : Nat) (m' : Nat) : (s.raise p b).partner m' = s.partner m' := by simp [State.partner]
@[simp] theorem State.raise_leashOf_of (s : State) (p b : Nat) (m' : Nat) : (s.raise p b).leashOf m' = s.leashOf m' := by simp [State.leashOf]
@[simp] theorem State.raise_running_of (s : State) (p b : Nat)  : (s.raise p b).running = s.running := by simp [State.running]
@[simp] theorem State.raise_early_of (s : State) (p b : Nat)  : (s.raise p b).early = s.early := by simp [State.early]
@[simp] theorem State.raise_full_of (s : State) (p b : Nat)  : (s.raise p b).full = s.full := by simp [State.full]
@[simp] theorem State.raiseIf_core_of (s : State) (c : Bool) (p b : Nat) (c' : Nat) : (s.raiseIf c p b).core c' = s.core c' := by simp [State.core]
@[simp] theorem State.raiseIf_pack_of (s : State) (c : Bool) (p b : Nat) (p' : Nat) : (s.raiseIf c p b).pack p' = s.pack p' := by simp [State.pack]
@[simp] theorem State.raiseIf_ring_of (s : State) (c : Bool) (p b : Nat) (r' : Nat) : (s.raiseIf c p b).ring r' = s.ring r' := by simp [State.ring]
@[simp] theorem State.raiseIf_tb_of (s : State) (c : Bool) (p b : Nat) (t' : Nat) : (s.raiseIf c p b).tb t' = s.tb t' := by simp [State.tb]
@[simp] theorem State.raiseIf_group_of (s : State) (c : Bool) (p b : Nat) (g' : Nat) : (s.raiseIf c p b).group? g' = s.group? g' := by simp [State.group?]
@[simp] theorem State.raiseIf_job_of (s : State) (c : Bool) (p b : Nat) (r' : Nat) : (s.raiseIf c p b).job? r' = s.job? r' := by simp [State.job?]
@[simp] theorem State.raiseIf_hq_of (s : State) (c : Bool) (p b : Nat) (q' : Nat) : (s.raiseIf c p b).hq q' = s.hq q' := by simp [State.hq]
@[simp] theorem State.raiseIf_chan_of (s : State) (c : Bool) (p b : Nat) (c' : Nat) : (s.raiseIf c p b).chan c' = s.chan c' := by simp [State.chan]
@[simp] theorem State.raiseIf_partner_of (s : State) (c : Bool) (p b : Nat) (m' : Nat) : (s.raiseIf c p b).partner m' = s.partner m' := by simp [State.partner]
@[simp] theorem State.raiseIf_leashOf_of (s : State) (c : Bool) (p b : Nat) (m' : Nat) : (s.raiseIf c p b).leashOf m' = s.leashOf m' := by simp [State.leashOf]
@[simp] theorem State.raiseIf_running_of (s : State) (c : Bool) (p b : Nat)  : (s.raiseIf c p b).running = s.running := by simp [State.running]
@[simp] theorem State.raiseIf_early_of (s : State) (c : Bool) (p b : Nat)  : (s.raiseIf c p b).early = s.early := by simp [State.early]
@[simp] theorem State.raiseIf_full_of (s : State) (c : Bool) (p b : Nat)  : (s.raiseIf c p b).full = s.full := by simp [State.full]
@[simp] theorem State.setCore_pack_of (s : State) (c : Nat) (k : Core) (p' : Nat) : (s.setCore c k).pack p' = s.pack p' := by simp [State.pack]
@[simp] theorem State.setCore_ring_of (s : State) (c : Nat) (k : Core) (r' : Nat) : (s.setCore c k).ring r' = s.ring r' := by simp [State.ring]
@[simp] theorem State.setCore_tb_of (s : State) (c : Nat) (k : Core) (t' : Nat) : (s.setCore c k).tb t' = s.tb t' := by simp [State.tb]
@[simp] theorem State.setCore_group_of (s : State) (c : Nat) (k : Core) (g' : Nat) : (s.setCore c k).group? g' = s.group? g' := by simp [State.group?]
@[simp] theorem State.setCore_job_of (s : State) (c : Nat) (k : Core) (r' : Nat) : (s.setCore c k).job? r' = s.job? r' := by simp [State.job?]
@[simp] theorem State.setCore_hq_of (s : State) (c : Nat) (k : Core) (q' : Nat) : (s.setCore c k).hq q' = s.hq q' := by simp [State.hq]
@[simp] theorem State.setCore_chan_of (s : State) (c : Nat) (k : Core) (c' : Nat) : (s.setCore c k).chan c' = s.chan c' := by simp [State.chan]
@[simp] theorem State.setCore_partner_of (s : State) (c : Nat) (k : Core) (m' : Nat) : (s.setCore c k).partner m' = s.partner m' := by simp [State.partner]
@[simp] theorem State.setCore_leashOf_of (s : State) (c : Nat) (k : Core) (m' : Nat) : (s.setCore c k).leashOf m' = s.leashOf m' := by simp [State.leashOf]
@[simp] theorem State.setCore_hdr_of (s : State) (c : Nat) (k : Core) (p' : Nat) : (s.setCore c k).hdr p' = s.hdr p' := by simp [State.hdr]
@[simp] theorem State.setCore_running_of (s : State) (c : Nat) (k : Core)  : (s.setCore c k).running = s.running := by simp [State.running]
@[simp] theorem State.setCore_early_of (s : State) (c : Nat) (k : Core)  : (s.setCore c k).early = s.early := by simp [State.early]
@[simp] theorem State.setCore_full_of (s : State) (c : Nat) (k : Core)  : (s.setCore c k).full = s.full := by simp [State.full]
@[simp] theorem State.updCore_pack_of (s : State) (c : Nat) (f : Core → Core) (p' : Nat) : (s.updCore c f).pack p' = s.pack p' := by simp [State.pack]
@[simp] theorem State.updCore_ring_of (s : State) (c : Nat) (f : Core → Core) (r' : Nat) : (s.updCore c f).ring r' = s.ring r' := by simp [State.ring]
@[simp] theorem State.updCore_tb_of (s : State) (c : Nat) (f : Core → Core) (t' : Nat) : (s.updCore c f).tb t' = s.tb t' := by simp [State.tb]
@[simp] theorem State.updCore_group_of (s : State) (c : Nat) (f : Core → Core) (g' : Nat) : (s.updCore c f).group? g' = s.group? g' := by simp [State.group?]
@[simp] theorem State.updCore_job_of (s : State) (c : Nat) (f : Core → Core) (r' : Nat) : (s.updCore c f).job? r' = s.job? r' := by simp [State.job?]
@[simp] theorem State.updCore_hq_of (s : State) (c : Nat) (f : Core → Core) (q' : Nat) : (s.updCore c f).hq q' = s.hq q' := by simp [State.hq]
@[simp] theorem State.updCore_chan_of (s : State) (c : Nat) (f : Core → Core) (c' : Nat) : (s.updCore c f).chan c' = s.chan c' := by simp [State.chan]
@[simp] theorem State.updCore_partner_of (s : State) (c : Nat) (f : Core → Core) (m' : Nat) : (s.updCore c f).partner m' = s.partner m' := by simp [State.partner]
@[simp] theorem State.updCore_leashOf_of (s : State) (c : Nat) (f : Core → Core) (m' : Nat) : (s.updCore c f).leashOf m' = s.leashOf m' := by simp [State.leashOf]
@[simp] theorem State.updCore_hdr_of (s : State) (c : Nat) (f : Core → Core) (p' : Nat) : (s.updCore c f).hdr p' = s.hdr p' := by simp [State.hdr]
@[simp] theorem State.updCore_running_of (s : State) (c : Nat) (f : Core → Core)  : (s.updCore c f).running = s.running := by simp [State.running]
@[simp] theorem State.updCore_early_of (s : State) (c : Nat) (f : Core → Core)  : (s.updCore c f).early = s.early := by simp [State.early]
@[simp] theorem State.updCore_full_of (s : State) (c : Nat) (f : Core → Core)  : (s.updCore c f).full = s.full := by simp [State.full]
@[simp] theorem State.updPack_core_of (s : State) (p : Nat) (f : Pack → Pack) (c' : Nat) : (s.updPack p f).core c' = s.core c' := by simp [State.core]
@[simp] theorem State.updPack_ring_of (s : State) (p : Nat) (f : Pack → Pack) (r' : Nat) : (s.updPack p f).ring r' = s.ring r' := by simp [State.ring]
@[simp] theorem State.updPack_tb_of (s : State) (p : Nat) (f : Pack → Pack) (t' : Nat) : (s.updPack p f).tb t' = s.tb t' := by simp [State.tb]
@[simp] theorem State.updPack_group_of (s : State) (p : Nat) (f : Pack → Pack) (g' : Nat) : (s.updPack p f).group? g' = s.group? g' := by simp [State.group?]
@[simp] theorem State.updPack_job_of (s : State) (p : Nat) (f : Pack → Pack) (r' : Nat) : (s.updPack p f).job? r' = s.job? r' := by simp [State.job?]
@[simp] theorem State.updPack_hq_of (s : State) (p : Nat) (f : Pack → Pack) (q' : Nat) : (s.updPack p f).hq q' = s.hq q' := by simp [State.hq]
@[simp] theorem State.updPack_chan_of (s : State) (p : Nat) (f : Pack → Pack) (c' : Nat) : (s.updPack p f).chan c' = s.chan c' := by simp [State.chan]
@[simp] theorem State.updPack_partner_of (s : State) (p : Nat) (f : Pack → Pack) (m' : Nat) : (s.updPack p f).partner m' = s.partner m' := by simp [State.partner]
@[simp] theorem State.updPack_leashOf_of (s : State) (p : Nat) (f : Pack → Pack) (m' : Nat) : (s.updPack p f).leashOf m' = s.leashOf m' := by simp [State.leashOf]
@[simp] theorem State.updPack_hdr_of (s : State) (p : Nat) (f : Pack → Pack) (p' : Nat) : (s.updPack p f).hdr p' = s.hdr p' := by simp [State.hdr]
@[simp] theorem State.updPack_running_of (s : State) (p : Nat) (f : Pack → Pack)  : (s.updPack p f).running = s.running := by simp [State.running]
@[simp] theorem State.updPack_early_of (s : State) (p : Nat) (f : Pack → Pack)  : (s.updPack p f).early = s.early := by simp [State.early]
@[simp] theorem State.updPack_full_of (s : State) (p : Nat) (f : Pack → Pack)  : (s.updPack p f).full = s.full := by simp [State.full]
@[simp] theorem State.updRing_core_of (s : State) (r : Nat) (f : Ring → Ring) (c' : Nat) : (s.updRing r f).core c' = s.core c' := by simp [State.core]
@[simp] theorem State.updRing_pack_of (s : State) (r : Nat) (f : Ring → Ring) (p' : Nat) : (s.updRing r f).pack p' = s.pack p' := by simp [State.pack]
@[simp] theorem State.updRing_tb_of (s : State) (r : Nat) (f : Ring → Ring) (t' : Nat) : (s.updRing r f).tb t' = s.tb t' := by simp [State.tb]
@[simp] theorem State.updRing_group_of (s : State) (r : Nat) (f : Ring → Ring) (g' : Nat) : (s.updRing r f).group? g' = s.group? g' := by simp [State.group?]
@[simp] theorem State.updRing_job_of (s : State) (r : Nat) (f : Ring → Ring) (r' : Nat) : (s.updRing r f).job? r' = s.job? r' := by simp [State.job?]
@[simp] theorem State.updRing_hq_of (s : State) (r : Nat) (f : Ring → Ring) (q' : Nat) : (s.updRing r f).hq q' = s.hq q' := by simp [State.hq]
@[simp] theorem State.updRing_chan_of (s : State) (r : Nat) (f : Ring → Ring) (c' : Nat) : (s.updRing r f).chan c' = s.chan c' := by simp [State.chan]
@[simp] theorem State.updRing_partner_of (s : State) (r : Nat) (f : Ring → Ring) (m' : Nat) : (s.updRing r f).partner m' = s.partner m' := by simp [State.partner]
@[simp] theorem State.updRing_leashOf_of (s : State) (r : Nat) (f : Ring → Ring) (m' : Nat) : (s.updRing r f).leashOf m' = s.leashOf m' := by simp [State.leashOf]
@[simp] theorem State.updRing_hdr_of (s : State) (r : Nat) (f : Ring → Ring) (p' : Nat) : (s.updRing r f).hdr p' = s.hdr p' := by simp [State.hdr]
@[simp] theorem State.updRing_running_of (s : State) (r : Nat) (f : Ring → Ring)  : (s.updRing r f).running = s.running := by simp [State.running]
@[simp] theorem State.updRing_early_of (s : State) (r : Nat) (f : Ring → Ring)  : (s.updRing r f).early = s.early := by simp [State.early]
@[simp] theorem State.updRing_full_of (s : State) (r : Nat) (f : Ring → Ring)  : (s.updRing r f).full = s.full := by simp [State.full]
@[simp] theorem State.updTb_core_of (s : State) (t : Nat) (f : TBase → TBase) (c' : Nat) : (s.updTb t f).core c' = s.core c' := by simp [State.core]
@[simp] theorem State.updTb_pack_of (s : State) (t : Nat) (f : TBase → TBase) (p' : Nat) : (s.updTb t f).pack p' = s.pack p' := by simp [State.pack]
@[simp] theorem State.updTb_ring_of (s : State) (t : Nat) (f : TBase → TBase) (r' : Nat) : (s.updTb t f).ring r' = s.ring r' := by simp [State.ring]
@[simp] theorem State.updTb_group_of (s : State) (t : Nat) (f : TBase → TBase) (g' : Nat) : (s.updTb t f).group? g' = s.group? g' := by simp [State.group?]
@[simp] theorem State.updTb_job_of (s : State) (t : Nat) (f : TBase → TBase) (r' : Nat) : (s.updTb t f).job? r' = s.job? r' := by simp [State.job?]
@[simp] theorem State.updTb_hq_of (s : State) (t : Nat) (f : TBase → TBase) (q' : Nat) : (s.updTb t f).hq q' = s.hq q' := by simp [State.hq]
@[simp] theorem State.updTb_chan_of (s : State) (t : Nat) (f : TBase → TBase) (c' : Nat) : (s.updTb t f).chan c' = s.chan c' := by simp [State.chan]
@[simp] theorem State.updTb_partner_of (s : State) (t : Nat) (f : TBase → TBase) (m' : Nat) : (s.updTb t f).partner m' = s.partner m' := by simp [State.partner]
@[simp] theorem State.updTb_leashOf_of (s : State) (t : Nat) (f : TBase → TBase) (m' : Nat) : (s.updTb t f).leashOf m' = s.leashOf m' := by simp [State.leashOf]
@[simp] theorem State.updTb_hdr_of (s : State) (t : Nat) (f : TBase → TBase) (p' : Nat) : (s.updTb t f).hdr p' = s.hdr p' := by simp [State.hdr]
@[simp] theorem State.updTb_running_of (s : State) (t : Nat) (f : TBase → TBase)  : (s.updTb t f).running = s.running := by simp [State.running]
@[simp] theorem State.updTb_early_of (s : State) (t : Nat) (f : TBase → TBase)  : (s.updTb t f).early = s.early := by simp [State.early]
@[simp] theorem State.updTb_full_of (s : State) (t : Nat) (f : TBase → TBase)  : (s.updTb t f).full = s.full := by simp [State.full]
@[simp] theorem State.setGroup_core_of (s : State) (g : Nat) (x : Group) (c' : Nat) : (s.setGroup g x).core c' = s.core c' := by simp [State.core]
@[simp] theorem State.setGroup_pack_of (s : State) (g : Nat) (x : Group) (p' : Nat) : (s.setGroup g x).pack p' = s.pack p' := by simp [State.pack]
@[simp] theorem State.setGroup_ring_of (s : State) (g : Nat) (x : Group) (r' : Nat) : (s.setGroup g x).ring r' = s.ring r' := by simp [State.ring]
@[simp] theorem State.setGroup_tb_of (s : State) (g : Nat) (x : Group) (t' : Nat) : (s.setGroup g x).tb t' = s.tb t' := by simp [State.tb]
@[simp] theorem State.setGroup_job_of (s : State) (g : Nat) (x : Group) (r' : Nat) : (s.setGroup g x).job? r' = s.job? r' := by simp [State.job?]
@[simp] theorem State.setGroup_hq_of (s : State) (g : Nat) (x : Group) (q' : Nat) : (s.setGroup g x).hq q' = s.hq q' := by simp [State.hq]
@[simp] theorem State.setGroup_chan_of (s : State) (g : Nat) (x : Group) (c' : Nat) : (s.setGroup g x).chan c' = s.chan c' := by simp [State.chan]
@[simp] theorem State.setGroup_partner_of (s : State) (g : Nat) (x : Group) (m' : Nat) : (s.setGroup g x).partner m' = s.partner m' := by simp [State.partner]
@[simp] theorem State.setGroup_leashOf_of (s : State) (g : Nat) (x : Group) (m' : Nat) : (s.setGroup g x).leashOf m' = s.leashOf m' := by simp [State.leashOf]
@[simp] theorem State.setGroup_hdr_of (s : State) (g : Nat) (x : Group) (p' : Nat) : (s.setGroup g x).hdr p' = s.hdr p' := by simp [State.hdr]
@[simp] theorem State.setGroup_running_of (s : State) (g : Nat) (x : Group)  : (s.setGroup g x).running = s.running := by simp [State.running]
@[simp] theorem State.setGroup_early_of (s : State) (g : Nat) (x : Group)  : (s.setGroup g x).early = s.early := by simp [State.early]
@[simp] theorem State.setGroup_full_of (s : State) (g : Nat) (x : Group)  : (s.setGroup g x).full = s.full := by simp [State.full]
@[simp] theorem State.updGroup_core_of (s : State) (g : Nat) (f : Group → Group) (c' : Nat) : (s.updGroup g f).core c' = s.core c' := by simp [State.core]
@[simp] theorem State.updGroup_pack_of (s : State) (g : Nat) (f : Group → Group) (p' : Nat) : (s.updGroup g f).pack p' = s.pack p' := by simp [State.pack]
@[simp] theorem State.updGroup_ring_of (s : State) (g : Nat) (f : Group → Group) (r' : Nat) : (s.updGroup g f).ring r' = s.ring r' := by simp [State.ring]
@[simp] theorem State.updGroup_tb_of (s : State) (g : Nat) (f : Group → Group) (t' : Nat) : (s.updGroup g f).tb t' = s.tb t' := by simp [State.tb]
@[simp] theorem State.updGroup_job_of (s : State) (g : Nat) (f : Group → Group) (r' : Nat) : (s.updGroup g f).job? r' = s.job? r' := by simp [State.job?]
@[simp] theorem State.updGroup_hq_of (s : State) (g : Nat) (f : Group → Group) (q' : Nat) : (s.updGroup g f).hq q' = s.hq q' := by simp [State.hq]
@[simp] theorem State.updGroup_chan_of (s : State) (g : Nat) (f : Group → Group) (c' : Nat) : (s.updGroup g f).chan c' = s.chan c' := by simp [State.chan]
@[simp] theorem State.updGroup_partner_of (s : State) (g : Nat) (f : Group → Group) (m' : Nat) : (s.updGroup g f).partner m' = s.partner m' := by simp [State.partner]
@[simp] theorem State.updGroup_leashOf_of (s : State) (g : Nat) (f : Group → Group) (m' : Nat) : (s.updGroup g f).leashOf m' = s.leashOf m' := by simp [State.leashOf]
@[simp] theorem State.updGroup_hdr_of (s : State) (g : Nat) (f : Group → Group) (p' : Nat) : (s.updGroup g f).hdr p' = s.hdr p' := by simp [State.hdr]
@[simp] theorem State.updGroup_running_of (s : State) (g : Nat) (f : Group → Group)  : (s.updGroup g f).running = s.running := by simp [State.running]
@[simp] theorem State.updGroup_early_of (s : State) (g : Nat) (f : Group → Group)  : (s.updGroup g f).early = s.early := by simp [State.early]
@[simp] theorem State.updGroup_full_of (s : State) (g : Nat) (f : Group → Group)  : (s.updGroup g f).full = s.full := by simp [State.full]
@[simp] theorem State.updJob_core_of (s : State) (r : Nat) (f : Job → Job) (c' : Nat) : (s.updJob r f).core c' = s.core c' := by simp [State.core]
@[simp] theorem State.updJob_pack_of (s : State) (r : Nat) (f : Job → Job) (p' : Nat) : (s.updJob r f).pack p' = s.pack p' := by simp [State.pack]
@[simp] theorem State.updJob_ring_of (s : State) (r : Nat) (f : Job → Job) (r' : Nat) : (s.updJob r f).ring r' = s.ring r' := by simp [State.ring]
@[simp] theorem State.updJob_tb_of (s : State) (r : Nat) (f : Job → Job) (t' : Nat) : (s.updJob r f).tb t' = s.tb t' := by simp [State.tb]
@[simp] theorem State.updJob_group_of (s : State) (r : Nat) (f : Job → Job) (g' : Nat) : (s.updJob r f).group? g' = s.group? g' := by simp [State.group?]
@[simp] theorem State.updJob_hq_of (s : State) (r : Nat) (f : Job → Job) (q' : Nat) : (s.updJob r f).hq q' = s.hq q' := by simp [State.hq]
@[simp] theorem State.updJob_chan_of (s : State) (r : Nat) (f : Job → Job) (c' : Nat) : (s.updJob r f).chan c' = s.chan c' := by simp [State.chan]
@[simp] theorem State.updJob_partner_of (s : State) (r : Nat) (f : Job → Job) (m' : Nat) : (s.updJob r f).partner m' = s.partner m' := by simp [State.partner]
@[simp] theorem State.updJob_leashOf_of (s : State) (r : Nat) (f : Job → Job) (m' : Nat) : (s.updJob r f).leashOf m' = s.leashOf m' := by simp [State.leashOf]
@[simp] theorem State.updJob_hdr_of (s : State) (r : Nat) (f : Job → Job) (p' : Nat) : (s.updJob r f).hdr p' = s.hdr p' := by simp [State.hdr]
@[simp] theorem State.updJob_running_of (s : State) (r : Nat) (f : Job → Job)  : (s.updJob r f).running = s.running := by simp [State.running]
@[simp] theorem State.updJob_early_of (s : State) (r : Nat) (f : Job → Job)  : (s.updJob r f).early = s.early := by simp [State.early]
@[simp] theorem State.updJob_full_of (s : State) (r : Nat) (f : Job → Job)  : (s.updJob r f).full = s.full := by simp [State.full]
@[simp] theorem State.updHq_core_of (s : State) (q : Nat) (f : HQueue → HQueue) (c' : Nat) : (s.updHq q f).core c' = s.core c' := by simp [State.core]
@[simp] theorem State.updHq_pack_of (s : State) (q : Nat) (f : HQueue → HQueue) (p' : Nat) : (s.updHq q f).pack p' = s.pack p' := by simp [State.pack]
@[simp] theorem State.updHq_ring_of (s : State) (q : Nat) (f : HQueue → HQueue) (r' : Nat) : (s.updHq q f).ring r' = s.ring r' := by simp [State.ring]
@[simp] theorem State.updHq_tb_of (s : State) (q : Nat) (f : HQueue → HQueue) (t' : Nat) : (s.updHq q f).tb t' = s.tb t' := by simp [State.tb]
@[simp] theorem State.updHq_group_of (s : State) (q : Nat) (f : HQueue → HQueue) (g' : Nat) : (s.updHq q f).group? g' = s.group? g' := by simp [State.group?]
@[simp] theorem State.updHq_job_of (s : State) (q : Nat) (f : HQueue → HQueue) (r' : Nat) : (s.updHq q f).job? r' = s.job? r' := by simp [State.job?]
@[simp] theorem State.updHq_chan_of (s : State) (q : Nat) (f : HQueue → HQueue) (c' : Nat) : (s.updHq q f).chan c' = s.chan c' := by simp [State.chan]
@[simp] theorem State.updHq_partner_of (s : State) (q : Nat) (f : HQueue → HQueue) (m' : Nat) : (s.updHq q f).partner m' = s.partner m' := by simp [State.partner]
@[simp] theorem State.updHq_leashOf_of (s : State) (q : Nat) (f : HQueue → HQueue) (m' : Nat) : (s.updHq q f).leashOf m' = s.leashOf m' := by simp [State.leashOf]
@[simp] theorem State.updHq_hdr_of (s : State) (q : Nat) (f : HQueue → HQueue) (p' : Nat) : (s.updHq q f).hdr p' = s.hdr p' := by simp [State.hdr]
@[simp] theorem State.updHq_running_of (s : State) (q : Nat) (f : HQueue → HQueue)  : (s.updHq q f).running = s.running := by simp [State.running]
@[simp] theorem State.updHq_early_of (s : State) (q : Nat) (f : HQueue → HQueue)  : (s.updHq q f).early = s.early := by simp [State.early]
@[simp] theorem State.updHq_full_of (s : State) (q : Nat) (f : HQueue → HQueue)  : (s.updHq q f).full = s.full := by simp [State.full]
@[simp] theorem State.updChan_core_of (s : State) (c : Nat) (f : DmaChan → DmaChan) (c' : Nat) : (s.updChan c f).core c' = s.core c' := by simp [State.core]
@[simp] theorem State.updChan_pack_of (s : State) (c : Nat) (f : DmaChan → DmaChan) (p' : Nat) : (s.updChan c f).pack p' = s.pack p' := by simp [State.pack]
@[simp] theorem State.updChan_ring_of (s : State) (c : Nat) (f : DmaChan → DmaChan) (r' : Nat) : (s.updChan c f).ring r' = s.ring r' := by simp [State.ring]
@[simp] theorem State.updChan_tb_of (s : State) (c : Nat) (f : DmaChan → DmaChan) (t' : Nat) : (s.updChan c f).tb t' = s.tb t' := by simp [State.tb]
@[simp] theorem State.updChan_group_of (s : State) (c : Nat) (f : DmaChan → DmaChan) (g' : Nat) : (s.updChan c f).group? g' = s.group? g' := by simp [State.group?]
@[simp] theorem State.updChan_job_of (s : State) (c : Nat) (f : DmaChan → DmaChan) (r' : Nat) : (s.updChan c f).job? r' = s.job? r' := by simp [State.job?]
@[simp] theorem State.updChan_hq_of (s : State) (c : Nat) (f : DmaChan → DmaChan) (q' : Nat) : (s.updChan c f).hq q' = s.hq q' := by simp [State.hq]
@[simp] theorem State.updChan_partner_of (s : State) (c : Nat) (f : DmaChan → DmaChan) (m' : Nat) : (s.updChan c f).partner m' = s.partner m' := by simp [State.partner]
@[simp] theorem State.updChan_leashOf_of (s : State) (c : Nat) (f : DmaChan → DmaChan) (m' : Nat) : (s.updChan c f).leashOf m' = s.leashOf m' := by simp [State.leashOf]
@[simp] theorem State.updChan_hdr_of (s : State) (c : Nat) (f : DmaChan → DmaChan) (p' : Nat) : (s.updChan c f).hdr p' = s.hdr p' := by simp [State.hdr]
@[simp] theorem State.updChan_running_of (s : State) (c : Nat) (f : DmaChan → DmaChan)  : (s.updChan c f).running = s.running := by simp [State.running]
@[simp] theorem State.updChan_early_of (s : State) (c : Nat) (f : DmaChan → DmaChan)  : (s.updChan c f).early = s.early := by simp [State.early]
@[simp] theorem State.updChan_full_of (s : State) (c : Nat) (f : DmaChan → DmaChan)  : (s.updChan c f).full = s.full := by simp [State.full]
@[simp] theorem State.updPartner_core_of (s : State) (m : Nat) (f : Partner → Partner) (c' : Nat) : (s.updPartner m f).core c' = s.core c' := by simp [State.core]
@[simp] theorem State.updPartner_pack_of (s : State) (m : Nat) (f : Partner → Partner) (p' : Nat) : (s.updPartner m f).pack p' = s.pack p' := by simp [State.pack]
@[simp] theorem State.updPartner_ring_of (s : State) (m : Nat) (f : Partner → Partner) (r' : Nat) : (s.updPartner m f).ring r' = s.ring r' := by simp [State.ring]
@[simp] theorem State.updPartner_tb_of (s : State) (m : Nat) (f : Partner → Partner) (t' : Nat) : (s.updPartner m f).tb t' = s.tb t' := by simp [State.tb]
@[simp] theorem State.updPartner_group_of (s : State) (m : Nat) (f : Partner → Partner) (g' : Nat) : (s.updPartner m f).group? g' = s.group? g' := by simp [State.group?]
@[simp] theorem State.updPartner_job_of (s : State) (m : Nat) (f : Partner → Partner) (r' : Nat) : (s.updPartner m f).job? r' = s.job? r' := by simp [State.job?]
@[simp] theorem State.updPartner_hq_of (s : State) (m : Nat) (f : Partner → Partner) (q' : Nat) : (s.updPartner m f).hq q' = s.hq q' := by simp [State.hq]
@[simp] theorem State.updPartner_chan_of (s : State) (m : Nat) (f : Partner → Partner) (c' : Nat) : (s.updPartner m f).chan c' = s.chan c' := by simp [State.chan]
@[simp] theorem State.updPartner_leashOf_of (s : State) (m : Nat) (f : Partner → Partner) (m' : Nat) : (s.updPartner m f).leashOf m' = s.leashOf m' := by simp [State.leashOf]
@[simp] theorem State.updPartner_hdr_of (s : State) (m : Nat) (f : Partner → Partner) (p' : Nat) : (s.updPartner m f).hdr p' = s.hdr p' := by simp [State.hdr]
@[simp] theorem State.updPartner_running_of (s : State) (m : Nat) (f : Partner → Partner)  : (s.updPartner m f).running = s.running := by simp [State.running]
@[simp] theorem State.updPartner_early_of (s : State) (m : Nat) (f : Partner → Partner)  : (s.updPartner m f).early = s.early := by simp [State.early]
@[simp] theorem State.updPartner_full_of (s : State) (m : Nat) (f : Partner → Partner)  : (s.updPartner m f).full = s.full := by simp [State.full]
@[simp] theorem State.updLeash_core_of (s : State) (m : Nat) (f : Leash → Leash) (c' : Nat) : (s.updLeash m f).core c' = s.core c' := by simp [State.core]
@[simp] theorem State.updLeash_pack_of (s : State) (m : Nat) (f : Leash → Leash) (p' : Nat) : (s.updLeash m f).pack p' = s.pack p' := by simp [State.pack]
@[simp] theorem State.updLeash_ring_of (s : State) (m : Nat) (f : Leash → Leash) (r' : Nat) : (s.updLeash m f).ring r' = s.ring r' := by simp [State.ring]
@[simp] theorem State.updLeash_tb_of (s : State) (m : Nat) (f : Leash → Leash) (t' : Nat) : (s.updLeash m f).tb t' = s.tb t' := by simp [State.tb]
@[simp] theorem State.updLeash_group_of (s : State) (m : Nat) (f : Leash → Leash) (g' : Nat) : (s.updLeash m f).group? g' = s.group? g' := by simp [State.group?]
@[simp] theorem State.updLeash_job_of (s : State) (m : Nat) (f : Leash → Leash) (r' : Nat) : (s.updLeash m f).job? r' = s.job? r' := by simp [State.job?]
@[simp] theorem State.updLeash_hq_of (s : State) (m : Nat) (f : Leash → Leash) (q' : Nat) : (s.updLeash m f).hq q' = s.hq q' := by simp [State.hq]
@[simp] theorem State.updLeash_chan_of (s : State) (m : Nat) (f : Leash → Leash) (c' : Nat) : (s.updLeash m f).chan c' = s.chan c' := by simp [State.chan]
@[simp] theorem State.updLeash_partner_of (s : State) (m : Nat) (f : Leash → Leash) (m' : Nat) : (s.updLeash m f).partner m' = s.partner m' := by simp [State.partner]
@[simp] theorem State.updLeash_hdr_of (s : State) (m : Nat) (f : Leash → Leash) (p' : Nat) : (s.updLeash m f).hdr p' = s.hdr p' := by simp [State.hdr]
@[simp] theorem State.updLeash_running_of (s : State) (m : Nat) (f : Leash → Leash)  : (s.updLeash m f).running = s.running := by simp [State.running]
@[simp] theorem State.updLeash_early_of (s : State) (m : Nat) (f : Leash → Leash)  : (s.updLeash m f).early = s.early := by simp [State.early]
@[simp] theorem State.updLeash_full_of (s : State) (m : Nat) (f : Leash → Leash)  : (s.updLeash m f).full = s.full := by simp [State.full]
@[simp] theorem State.respond_core_of (s : State) (n : Nat) (d : Word) (c' : Nat) : (s.respond n d).core c' = s.core c' := by simp [State.core]
@[simp] theorem State.respond_pack_of (s : State) (n : Nat) (d : Word) (p' : Nat) : (s.respond n d).pack p' = s.pack p' := by simp [State.pack]
@[simp] theorem State.respond_ring_of (s : State) (n : Nat) (d : Word) (r' : Nat) : (s.respond n d).ring r' = s.ring r' := by simp [State.ring]
@[simp] theorem State.respond_tb_of (s : State) (n : Nat) (d : Word) (t' : Nat) : (s.respond n d).tb t' = s.tb t' := by simp [State.tb]
@[simp] theorem State.respond_group_of (s : State) (n : Nat) (d : Word) (g' : Nat) : (s.respond n d).group? g' = s.group? g' := by simp [State.group?]
@[simp] theorem State.respond_job_of (s : State) (n : Nat) (d : Word) (r' : Nat) : (s.respond n d).job? r' = s.job? r' := by simp [State.job?]
@[simp] theorem State.respond_hq_of (s : State) (n : Nat) (d : Word) (q' : Nat) : (s.respond n d).hq q' = s.hq q' := by simp [State.hq]
@[simp] theorem State.respond_chan_of (s : State) (n : Nat) (d : Word) (c' : Nat) : (s.respond n d).chan c' = s.chan c' := by simp [State.chan]
@[simp] theorem State.respond_partner_of (s : State) (n : Nat) (d : Word) (m' : Nat) : (s.respond n d).partner m' = s.partner m' := by simp [State.partner]
@[simp] theorem State.respond_leashOf_of (s : State) (n : Nat) (d : Word) (m' : Nat) : (s.respond n d).leashOf m' = s.leashOf m' := by simp [State.leashOf]
@[simp] theorem State.respond_hdr_of (s : State) (n : Nat) (d : Word) (p' : Nat) : (s.respond n d).hdr p' = s.hdr p' := by simp [State.hdr]
@[simp] theorem State.respond_running_of (s : State) (n : Nat) (d : Word)  : (s.respond n d).running = s.running := by simp [State.running]
@[simp] theorem State.respond_early_of (s : State) (n : Nat) (d : Word)  : (s.respond n d).early = s.early := by simp [State.early]
@[simp] theorem State.respond_full_of (s : State) (n : Nat) (d : Word)  : (s.respond n d).full = s.full := by simp [State.full]
@[simp] theorem State.traceRec_core_of (s : State) (ty c i n d : Nat) (c' : Nat) : (s.traceRec ty c i n d).core c' = s.core c' := by simp [State.core]
@[simp] theorem State.traceRec_pack_of (s : State) (ty c i n d : Nat) (p' : Nat) : (s.traceRec ty c i n d).pack p' = s.pack p' := by simp [State.pack]
@[simp] theorem State.traceRec_ring_of (s : State) (ty c i n d : Nat) (r' : Nat) : (s.traceRec ty c i n d).ring r' = s.ring r' := by simp [State.ring]
@[simp] theorem State.traceRec_tb_of (s : State) (ty c i n d : Nat) (t' : Nat) : (s.traceRec ty c i n d).tb t' = s.tb t' := by simp [State.tb]
@[simp] theorem State.traceRec_group_of (s : State) (ty c i n d : Nat) (g' : Nat) : (s.traceRec ty c i n d).group? g' = s.group? g' := by simp [State.group?]
@[simp] theorem State.traceRec_job_of (s : State) (ty c i n d : Nat) (r' : Nat) : (s.traceRec ty c i n d).job? r' = s.job? r' := by simp [State.job?]
@[simp] theorem State.traceRec_hq_of (s : State) (ty c i n d : Nat) (q' : Nat) : (s.traceRec ty c i n d).hq q' = s.hq q' := by simp [State.hq]
@[simp] theorem State.traceRec_chan_of (s : State) (ty c i n d : Nat) (c' : Nat) : (s.traceRec ty c i n d).chan c' = s.chan c' := by simp [State.chan]
@[simp] theorem State.traceRec_partner_of (s : State) (ty c i n d : Nat) (m' : Nat) : (s.traceRec ty c i n d).partner m' = s.partner m' := by simp [State.partner]
@[simp] theorem State.traceRec_leashOf_of (s : State) (ty c i n d : Nat) (m' : Nat) : (s.traceRec ty c i n d).leashOf m' = s.leashOf m' := by simp [State.leashOf]
@[simp] theorem State.traceRec_running_of (s : State) (ty c i n d : Nat)  : (s.traceRec ty c i n d).running = s.running := by simp [State.running]
@[simp] theorem State.traceRec_early_of (s : State) (ty c i n d : Nat)  : (s.traceRec ty c i n d).early = s.early := by simp [State.early]
@[simp] theorem State.traceRec_full_of (s : State) (ty c i n d : Nat)  : (s.traceRec ty c i n d).full = s.full := by simp [State.full]
@[simp] theorem State.deny_core_of (s : State) (a : Nat) (w : Bool) (acc : Acc) (c' : Nat) : (s.deny a w acc).core c' = s.core c' := by simp [State.core]
@[simp] theorem State.deny_pack_of (s : State) (a : Nat) (w : Bool) (acc : Acc) (p' : Nat) : (s.deny a w acc).pack p' = s.pack p' := by simp [State.pack]
@[simp] theorem State.deny_ring_of (s : State) (a : Nat) (w : Bool) (acc : Acc) (r' : Nat) : (s.deny a w acc).ring r' = s.ring r' := by simp [State.ring]
@[simp] theorem State.deny_tb_of (s : State) (a : Nat) (w : Bool) (acc : Acc) (t' : Nat) : (s.deny a w acc).tb t' = s.tb t' := by simp [State.tb]
@[simp] theorem State.deny_group_of (s : State) (a : Nat) (w : Bool) (acc : Acc) (g' : Nat) : (s.deny a w acc).group? g' = s.group? g' := by simp [State.group?]
@[simp] theorem State.deny_job_of (s : State) (a : Nat) (w : Bool) (acc : Acc) (r' : Nat) : (s.deny a w acc).job? r' = s.job? r' := by simp [State.job?]
@[simp] theorem State.deny_hq_of (s : State) (a : Nat) (w : Bool) (acc : Acc) (q' : Nat) : (s.deny a w acc).hq q' = s.hq q' := by simp [State.hq]
@[simp] theorem State.deny_chan_of (s : State) (a : Nat) (w : Bool) (acc : Acc) (c' : Nat) : (s.deny a w acc).chan c' = s.chan c' := by simp [State.chan]
@[simp] theorem State.deny_partner_of (s : State) (a : Nat) (w : Bool) (acc : Acc) (m' : Nat) : (s.deny a w acc).partner m' = s.partner m' := by simp [State.partner]
@[simp] theorem State.deny_leashOf_of (s : State) (a : Nat) (w : Bool) (acc : Acc) (m' : Nat) : (s.deny a w acc).leashOf m' = s.leashOf m' := by simp [State.leashOf]
@[simp] theorem State.deny_running_of (s : State) (a : Nat) (w : Bool) (acc : Acc)  : (s.deny a w acc).running = s.running := by simp [State.running]
@[simp] theorem State.deny_early_of (s : State) (a : Nat) (w : Bool) (acc : Acc)  : (s.deny a w acc).early = s.early := by simp [State.early]
@[simp] theorem State.deny_full_of (s : State) (a : Nat) (w : Bool) (acc : Acc)  : (s.deny a w acc).full = s.full := by simp [State.full]

@[simp] theorem State.updCore_core (s : State) (c : Nat) (f : Core → Core) (j : Nat) :
    (s.updCore c f).core j = if j = c then f (s.core c) else s.core j := by
  simp [State.core, State.updCore, State.setCore, Sparse.get_put]

@[simp] theorem State.setCore_core (s : State) (c : Nat) (k : Core) (j : Nat) :
    (s.setCore c k).core j = if j = c then k else s.core j := by
  simp [State.core, State.setCore, Sparse.get_put]

@[simp] theorem State.updPack_pack (s : State) (c : Nat) (f : Pack → Pack) (j : Nat) :
    (s.updPack c f).pack j = if j = c then f (s.pack c) else s.pack j := by
  simp [State.pack, State.updPack, Sparse.get_put]

@[simp] theorem State.updRing_ring (s : State) (c : Nat) (f : Ring → Ring) (j : Nat) :
    (s.updRing c f).ring j = if j = c then f (s.ring c) else s.ring j := by
  simp [State.ring, State.updRing, Sparse.get_put]

@[simp] theorem State.updTb_tb (s : State) (c : Nat) (f : TBase → TBase) (j : Nat) :
    (s.updTb c f).tb j = if j = c then f (s.tb c) else s.tb j := by
  simp [State.tb, State.updTb, Sparse.get_put]

@[simp] theorem State.updHq_hq (s : State) (c : Nat) (f : HQueue → HQueue) (j : Nat) :
    (s.updHq c f).hq j = if j = c then f (s.hq c) else s.hq j := by
  simp [State.hq, State.updHq, Sparse.get_put]

@[simp] theorem State.updChan_chan (s : State) (c : Nat) (f : DmaChan → DmaChan) (j : Nat) :
    (s.updChan c f).chan j = if j = c then f (s.chan c) else s.chan j := by
  simp [State.chan, State.updChan, Sparse.get_put]

@[simp] theorem State.updPartner_partner (s : State) (c : Nat) (f : Partner → Partner) (j : Nat) :
    (s.updPartner c f).partner j = if j = c then f (s.partner c) else s.partner j := by
  simp [State.partner, State.updPartner, Sparse.get_put]

@[simp] theorem State.updLeash_leashOf (s : State) (c : Nat) (f : Leash → Leash) (j : Nat) :
    (s.updLeash c f).leashOf j = if j = c then f (s.leashOf c) else s.leashOf j := by
  simp [State.leashOf, State.updLeash, Sparse.get_put]

@[simp] theorem State.updHdr_hdr (s : State) (c : Nat) (f : Hdr → Hdr) (j : Nat) :
    (s.updHdr c f).hdr j = if j = c then f (s.hdr c) else s.hdr j := by
  simp [State.hdr, State.updHdr, Sparse.get_put]

@[simp] theorem State.setGroup_group (s : State) (g : Nat) (x : Group) (j : Nat) :
    (s.setGroup g x).group? j = if j = g then some x else s.group? j := by
  unfold State.group? State.setGroup
  rw [Sparse.find_put]
  split <;> rfl

@[simp] theorem State.updGroup_group (s : State) (g : Nat) (f : Group → Group) (j : Nat) :
    (s.updGroup g f).group? j = if j = g then (s.group? g).map f else s.group? j := by
  unfold State.updGroup
  split
  · rename_i x h
    rw [State.setGroup_group, h]
    rfl
  · rename_i h
    split
    · rename_i e
      rw [e, h]
      rfl
    · rfl

end Sys2Proof.Machine
end

