-- ==== Sys2Proof/Laws/Access.lean ====
section
/-! SUPPORT. What a register access does, said once (R11, R373, R374, R411), and what settling the lines leaves. -/

namespace Sys2Proof.Machine

/-- Settled lines stand at their levels. -/
theorem State.settle_irqOk (s : State) : s.settle.irqOk := by
  unfold State.irqOk
  rw [State.settle_eq]
  rfl

theorem State.cfgWrite_in_reset (s : State) (a : Nat) (acc : Acc) (f : State → State) (h : s.running = false) :
    s.cfgWrite a acc f = s := by
  simp [State.cfgWrite, h]

theorem State.cfgWrite_reserved (s : State) (a : Nat) (acc : Acc) (f : State → State) (h : s.running = true)
    (h1 : s.pageActs (pageKind a) = false ∨
      (pageReg (pageKind a) (a % 0x1000) = false ∧ pageKind a ≠ .debug ∧ pageKind a ≠ .fuse)) :
    s.cfgWrite a acc f = s.answered acc := by
  have hg : pageKind a ≠ .debug → pageKind a ≠ .fuse → guardedPage (pageKind a) = false := by
    intro x y
    unfold guardedPage
    split <;> simp_all
  rcases h1 with h1 | ⟨h1, h2, h3⟩
  · simp [State.cfgWrite, h, h1, State.answered]
  · simp [State.cfgWrite, h, h1, State.answered, hg h2 h3]

theorem State.cfgWrite_denied (s : State) (a : Nat) (acc : Acc) (f : State → State) (h : s.running = true)
    (h1 : s.pageActs (pageKind a) = true) (h2 : pageReg (pageKind a) (a % 0x1000) = true) (h3 : writeAllowed a acc = false) :
    s.cfgWrite a acc f = (s.answers acc).deny a true acc := by
  simp [State.cfgWrite, h, h1, h2, h3]

/-- A granted write acts on the answered state. -/
theorem State.cfgWrite_granted (s : State) (a : Nat) (acc : Acc) (f : State → State) (h : s.grants a acc = true) :
    s.cfgWrite a acc f = f (s.answered acc) := by
  simp only [State.grants, Bool.and_eq_true] at h
  obtain ⟨⟨⟨h, h1⟩, h2⟩, h3⟩ := h
  simp [State.cfgWrite, h, h1, h2, h3, State.answered]

@[simp] theorem State.answered_cfgResp (s : State) (acc : Acc) : (s.answered acc).cfgResp = (0, 0) := rfl
@[simp] theorem State.answered_cfgRid (s : State) (acc : Acc) : (s.answered acc).cfgRid = acc.id := rfl

end Sys2Proof.Machine
end

