-- ==== Sys2Proof/Laws/Memory.lean ====
section
/-! SUPPORT. Laws of the byte memories: a byte written is read back, every other byte keeps its value, and every operation keeps
the canonical form; for scratchpads and weights (`Mem`) and for host memory with its open bytes. -/

namespace Sys2Proof.Machine

/-! ### Byte memories -/

theorem Memory.rising_of_wf {m : Mem} (h : Memory.wf m = true) : Sparse.rising m = true := by
  simp only [Memory.wf, Sparse.wf, Bool.and_eq_true] at h
  exact h.1

theorem Memory.wf_setByte (m : Mem) (a : Nat) (b : Byte) (h : Memory.wf m = true) : Memory.wf (m.setByte a b) = true :=
  Sparse.wf_set 0 m a b h

theorem Mem.byte_setByte (m : Mem) (a : Nat) (b : Byte) (h : Memory.wf m = true) (j : Nat) :
    (m.setByte a b).byte j = if j = a then b else m.byte j :=
  Sparse.get_set 0 m a b (Memory.rising_of_wf h) j

theorem Memory.wf_write (bs : List Byte) (m : Mem) (a : Nat) (h : Memory.wf m = true) : Memory.wf (m.write a bs) = true := by
  induction bs generalizing m a with
  | nil => exact h
  | cons b bs ih => exact ih _ _ (Memory.wf_setByte m a b h)

/-- A write outside the range read leaves the byte as it was. -/
theorem Mem.byte_write_other (bs : List Byte) (m : Mem) (a j : Nat) (h : Memory.wf m = true) (hj : j < a ∨ a + bs.length ≤ j) :
    (m.write a bs).byte j = m.byte j := by
  induction bs generalizing m a with
  | nil => rfl
  | cons b bs ih =>
    simp only [List.length_cons] at hj
    rw [Mem.write, ih _ _ (Memory.wf_setByte m a b h) (by omega), Mem.byte_setByte m a b h, if_neg (by omega)]

/-- Bytes written are read back. -/
theorem Mem.byte_write_self (bs : List Byte) (m : Mem) (a i : Nat) (h : Memory.wf m = true) (hi : i < bs.length) :
    (m.write a bs).byte (a + i) = bs[i] := by
  induction bs generalizing m a i with
  | nil => simp at hi
  | cons b bs ih =>
    rw [Mem.write]
    cases i with
    | zero =>
      rw [Mem.byte_write_other bs _ _ _ (Memory.wf_setByte m a b h) (by omega), Mem.byte_setByte m a b h, if_pos (by omega)]
      rfl
    | succ i =>
      have := ih (m.setByte a b) (a + 1) i (Memory.wf_setByte m a b h) (by simpa using hi)
      rw [show a + (i + 1) = a + 1 + i by omega, this]
      rfl

/-! ### Host memory -/

theorem hostAddr_lt (a : Nat) : hostAddr a < 2 ^ 48 := Nat.mod_lt _ (by decide)

theorem hostAddr_hostAddr (a : Nat) : hostAddr (hostAddr a) = hostAddr a := Nat.mod_mod _ _

theorem hostAddr_add (a i : Nat) : hostAddr (hostAddr a + i) = hostAddr (a + i) := by simp [hostAddr]

/-- Nearby addresses are different bytes. -/
theorem hostAddr_ne {a i j : Nat} (hi : i < 2 ^ 48) (hj : j < 2 ^ 48) (h : i ≠ j) : hostAddr (a + i) ≠ hostAddr (a + j) := by
  simp only [hostAddr]
  omega

/-- Is an address inside an open range? -/
def inOpen (a : Nat) (r : Nat × Nat × Nat) : Bool := decide (hostDist r.1 a < r.2.1)

theorem State.openAt_eq (s : State) (a : Nat) : s.openAt a = (s.hostOpen.find? (inOpen a)).map (·.2.2) := rfl

theorem openDrop_cons (a st len i : Nat) (rs : List (Nat × Nat × Nat)) :
    openDrop a ((st, len, i) :: rs) = if hostDist st a < min len (2 ^ 48) then
        (if hostDist st a = 0 then [] else [(st, hostDist st a, i)])
          ++ (if hostDist st a + 1 = min len (2 ^ 48) then [] else [(hostAddr (a + 1), min len (2 ^ 48) - hostDist st a - 1, i)])
          ++ openDrop a rs
      else (st, len, i) :: openDrop a rs := rfl

theorem hostDist_lt (st a : Nat) : hostDist st a < 2 ^ 48 := Nat.mod_lt _ (by decide)

theorem hostDist_inj {st j a : Nat} (ha : a < 2 ^ 48) (hj : j < 2 ^ 48) (hne : j ≠ a) : hostDist st j ≠ hostDist st a := by
  simp only [hostDist]; omega

theorem hostDist_next (st j a : Nat) (ha : a < 2 ^ 48) (hj : j < 2 ^ 48) :
    (hostDist st j < hostDist st a → ¬ hostDist (hostAddr (a + 1)) j < 2 ^ 48 - hostDist st a - 1) ∧
    (hostDist st a < hostDist st j → hostDist (hostAddr (a + 1)) j = hostDist st j - hostDist st a - 1) := by
  simp only [hostDist, hostAddr]; omega

theorem not_inOpen_after (a st len i : Nat) :
    inOpen a (hostAddr (a + 1), min len (2 ^ 48) - hostDist st a - 1, i) = false := by
  simp only [inOpen, decide_eq_false_iff_not]
  simp only [hostDist, hostAddr]; omega

theorem inOpen_after (a j st len i : Nat) (ha : a < 2 ^ 48) (hj : j < 2 ^ 48) (hne : j ≠ a) :
    inOpen j (hostAddr (a + 1), min len (2 ^ 48) - hostDist st a - 1, i)
      = decide (hostDist st a < hostDist st j ∧ hostDist st j < len) := by
  have h1 := hostDist_next st j a ha hj
  have h2 := hostDist_inj (st := st) ha hj hne
  have h3 := hostDist_lt st j
  simp only [inOpen, decide_eq_decide]
  generalize hostDist (hostAddr (a + 1)) j = d at *
  generalize hostDist st j = x at *
  generalize hostDist st a = y at *
  by_cases hlt : x < y
  · have := h1.1 hlt; omega
  · have := h1.2 (by omega); omega

theorem find_cons_if {α : Type} (p : α → Bool) (x : α) (l : List α) :
    (x :: l).find? p = if p x = true then some x else l.find? p := by
  by_cases h : p x = true
  · rw [List.find?_cons_of_pos h, if_pos h]
  · rw [List.find?_cons_of_neg h, if_neg h]

/-- A byte taken out of the open ranges is open no more. -/
theorem openDrop_self (a : Nat) (rs : List (Nat × Nat × Nat)) : (openDrop a rs).find? (inOpen a) = none := by
  induction rs with
  | nil => rfl
  | cons r rs ih =>
    obtain ⟨st, len, i⟩ := r
    have hd := hostDist_lt st a
    have h3 := not_inOpen_after a st len i
    have h4 : inOpen a (st, hostDist st a, i) = false := by simp [inOpen]
    have h5 : ¬ hostDist st a < min len (2 ^ 48) → inOpen a (st, len, i) = false := by
      intro h
      simp only [inOpen, decide_eq_false_iff_not]; omega
    rw [openDrop_cons]
    generalize hostAddr (a + 1) = e at *
    generalize hostDist st a = d at *
    generalize min len (2 ^ 48) = n at *
    generalize inOpen a = p at *
    split_ifs with h h1 h2 h2
    · simpa only [List.nil_append] using ih
    · simpa only [List.nil_append, List.cons_append, find_cons_if, h3, Bool.false_eq_true, if_false] using ih
    · simpa only [List.nil_append, List.cons_append, find_cons_if, h4, Bool.false_eq_true, if_false] using ih
    · simpa only [List.nil_append, List.cons_append, find_cons_if, h3, h4, Bool.false_eq_true, if_false] using ih
    · simpa only [find_cons_if, h5 h, Bool.false_eq_true, if_false] using ih

/-- The other bytes stay as open as they were. -/
theorem openDrop_other (a j : Nat) (ha : a < 2 ^ 48) (hj : j < 2 ^ 48) (hne : j ≠ a) (rs : List (Nat × Nat × Nat)) :
    ((openDrop a rs).find? (inOpen j)).map (·.2.2) = (rs.find? (inOpen j)).map (·.2.2) := by
  induction rs with
  | nil => rfl
  | cons r rs ih =>
    obtain ⟨st, len, i⟩ := r
    have hd := hostDist_lt st j
    have hne' := hostDist_inj (st := st) ha hj hne
    have high := inOpen_after a j st len i ha hj hne
    have low : inOpen j (st, hostDist st a, i) = decide (hostDist st j < hostDist st a) := rfl
    have whole : inOpen j (st, len, i) = decide (hostDist st j < len) := rfl
    have hn : min len (2 ^ 48) ≤ len := Nat.min_le_left _ _
    have hm : hostDist st j < len → hostDist st j < min len (2 ^ 48) := by omega
    rw [openDrop_cons]
    generalize hostAddr (a + 1) = e at *
    generalize hostDist st a = d at *
    generalize hostDist st j = x at *
    generalize min len (2 ^ 48) = n at *
    generalize inOpen j = p at *
    split_ifs with h h1 h2 h2 <;>
      simp only [List.nil_append, List.cons_append, find_cons_if, low, high, whole, decide_eq_true_eq] <;>
      by_cases hin : x < len <;> by_cases hlt : x < d <;> by_cases hgt : d < x <;>
      simp only [hin, hlt, hgt, and_true, and_false, if_true, if_false, Option.map_some, ih] <;>
      omega

/-- A byte of host memory written is read back; every other byte keeps its value, open or not. -/
theorem State.hostByte_hostSet (s : State) (a : Nat) (b : Byte) (h : Memory.wf s.host = true) (j : Nat) :
    (s.hostSet a b).hostByte j = if hostAddr j = hostAddr a then b else s.hostByte j := by
  unfold State.hostByte
  simp only [State.openAt_eq, State.hostSet]
  by_cases hj : hostAddr j = hostAddr a
  · rw [if_pos hj, hj, openDrop_self]
    simp [Mem.byte_setByte _ _ _ h]
  · rw [if_neg hj, openDrop_other _ _ (hostAddr_lt a) (hostAddr_lt j) hj, Mem.byte_setByte _ _ _ h, if_neg hj]

theorem State.memWf_hostSet (s : State) (a : Nat) (b : Byte) (h : Memory.wf s.host = true) :
    Memory.wf (s.hostSet a b).host = true := Memory.wf_setByte _ _ _ h

theorem State.memWf_hostWrite (bs : List Byte) (s : State) (a : Nat) (h : Memory.wf s.host = true) :
    Memory.wf (s.hostWrite a bs).host = true := by
  induction bs generalizing s a with
  | nil => exact h
  | cons b bs ih => exact ih _ _ (State.memWf_hostSet s a b h)

theorem State.memWf_hostPut (s : State) (a n v : Nat) (h : Memory.wf s.host = true) : Memory.wf (s.hostPut a n v).host = true :=
  State.memWf_hostWrite _ s a h

theorem State.memWf_hostWriteEn (bs : List (Byte × Bool)) (s : State) (a : Nat) (h : Memory.wf s.host = true) :
    Memory.wf (s.hostWriteEn a bs).host = true := by
  induction bs generalizing s a with
  | nil => exact h
  | cons b bs ih =>
    obtain ⟨b, en⟩ := b
    rw [State.hostWriteEn]
    split_ifs
    · exact ih _ _ (State.memWf_hostSet s a b h)
    · exact ih _ _ h

theorem State.memWf_hostOpenRange (s : State) (a n : Nat) (h : Memory.wf s.host = true) :
    Memory.wf (s.hostOpenRange a n).host = true := Sparse.wf_filter 0 _ _ h

theorem State.memWf_hostWriteCode (s : State) (mem : MemCode) (a : Nat) (bs : List Byte) (h : Memory.wf s.host = true) :
    Memory.wf (s.hostWriteCode mem a bs).host = true := by
  unfold State.hostWriteCode
  split_ifs
  · exact State.memWf_hostWrite bs s a h
  · exact State.memWf_hostOpenRange s a _ h

theorem State.memWf_msi (s : State) (l : Nat) (h : Memory.wf s.host = true) : Memory.wf (s.msi l).host = true := by
  unfold State.msi
  dsimp only
  split_ifs
  · exact State.memWf_hostPut s _ _ _ h
  · exact h

theorem State.memWf_settle (s : State) (h : Memory.wf s.host = true) : Memory.wf s.settle.host = true := by
  have key : ∀ (ls : List Nat) (p : Nat → Bool) (t : State), Memory.wf t.host = true →
      Memory.wf (ls.foldl (fun t l => if p l then t.msi l else t) t).host = true := by
    intro ls p
    induction ls with
    | nil => intro t ht; exact ht
    | cons l ls ih =>
      intro t ht
      rw [List.foldl_cons]
      split_ifs
      · exact ih _ (State.memWf_msi t l ht)
      · exact ih _ ht
  exact key (List.range 16) (fun l => s.irqLevels.getLsbD l && !s.irq.getLsbD l) s h

/-- A write of host memory leaves every byte outside its range as it was. -/
theorem State.hostByte_hostWrite_other (bs : List Byte) (s : State) (a j : Nat) (h : Memory.wf s.host = true)
    (hj : ∀ i, i < bs.length → hostAddr j ≠ hostAddr (a + i)) : (s.hostWrite a bs).hostByte j = s.hostByte j := by
  induction bs generalizing s a with
  | nil => rfl
  | cons b bs ih =>
    rw [State.hostWrite, ih _ _ (State.memWf_hostSet s a b h), State.hostByte_hostSet s a b h, if_neg]
    · exact hj 0 (by simp)
    · intro i hi
      have := hj (i + 1) (by simpa using hi)
      rwa [show a + 1 + i = a + (i + 1) by omega]

/-- Bytes written to host memory are read back. -/
theorem State.hostByte_hostWrite_self (bs : List Byte) (s : State) (a i : Nat) (h : Memory.wf s.host = true)
    (hn : bs.length ≤ 2 ^ 48) (hi : i < bs.length) : (s.hostWrite a bs).hostByte (a + i) = bs[i] := by
  induction bs generalizing s a i with
  | nil => simp at hi
  | cons b bs ih =>
    simp only [List.length_cons] at hn
    rw [State.hostWrite]
    cases i with
    | zero =>
      rw [State.hostByte_hostWrite_other bs _ _ _ (State.memWf_hostSet s a b h), State.hostByte_hostSet s a b h, if_pos (by simp)]
      · rfl
      · intro k hk
        rw [show a + 1 + k = a + (k + 1) by omega]
        exact hostAddr_ne (by omega) (by omega) (by omega)
    | succ i =>
      have := ih (s.hostSet a b) (a + 1) i (State.memWf_hostSet s a b h) (by omega) (by simpa using hi)
      rw [show a + (i + 1) = a + 1 + i by omega, this]
      rfl

/-- A run of bytes written to host memory is read back whole. -/
theorem State.hostRead_hostWrite (bs : List Byte) (s : State) (a : Nat) (h : Memory.wf s.host = true) (hn : bs.length ≤ 2 ^ 48) :
    (s.hostWrite a bs).hostRead a bs.length = bs := by
  apply List.ext_getElem
  · simp [State.hostRead, tab]
  · intro i h1 h2
    have := State.hostByte_hostWrite_self bs s a i h hn h2
    simpa [State.hostRead, tab] using this

theorem State.hostRead_congr (s t : State) (a n : Nat) (h : ∀ i, i < n → s.hostByte (a + i) = t.hostByte (a + i)) :
    s.hostRead a n = t.hostRead a n := by
  unfold State.hostRead tab
  exact List.map_congr_left fun i hi => h i (List.mem_range.1 hi)

/-! ### Reset -/

/-- Host memory and every scratchpad are in canonical form after reset. -/
theorem State.reset_memory_wf : Memory.wf State.reset.host = true ∧ ∀ c, Memory.wf (State.reset.core c).spd = true :=
  ⟨rfl, fun _ => rfl⟩

end Sys2Proof.Machine
end

