-- ==== Sys2Proof/Laws/Seal.lean ====
section
/-! SUPPORT. A frame sealed under the key that its receiver holds passes the tag check and gives its body back (R351, R353). -/

namespace Sys2Proof.Machine

theorem length_tab {α : Type} (n : Nat) (f : Nat → α) : (tab n f).length = n := by simp [tab]

theorem length_xorList (a b : List Nat) : (xorList a b).length = min a.length b.length := by simp [xorList]

theorem keyWords_shape (n : Nat) : ∀ (ws : List (List Nat)) (i : Nat), 8 ≤ i → ws.length = i → (∀ w ∈ ws, w.length = 4) →
    (keyWords ws i n).length = i + n ∧ ∀ w ∈ keyWords ws i n, w.length = 4 := by
  induction n with
  | zero => intro ws i _ h hw; exact ⟨by simpa [keyWords] using h, by simpa [keyWords] using hw⟩
  | succ n ih =>
    intro ws i hi h hw
    have at4 : ∀ j, j < i → (ws.getD j []).length = 4 := by
      intro j hj
      rw [List.getD_eq_getElem _ _ (by omega)]
      exact hw _ (List.getElem_mem _)
    rw [keyWords]
    have p := at4 (i - 1) (by omega)
    have q := at4 (i - 8) (by omega)
    have step := ih (ws ++ [xorList (ws.getD (i - 8) []) (if i % 8 = 0 then
        xorList (((ws.getD (i - 1) []).drop 1 ++ (ws.getD (i - 1) []).take 1).map sbox) [rcon (i / 8), 0, 0, 0]
      else if i % 8 = 4 then (ws.getD (i - 1) []).map sbox else ws.getD (i - 1) [])]) (i + 1) (by omega) (by simp [h]) (by
        intro w m
        rcases List.mem_append.1 m with m | m
        · exact hw w m
        · rw [List.mem_singleton] at m
          subst m
          rw [length_xorList, q]
          split
          · rw [length_xorList, List.length_map, List.length_append, List.length_drop, List.length_take, p]; rfl
          · split
            · rw [List.length_map, p]; rfl
            · rw [p]; rfl)
    exact ⟨by rw [step.1]; omega, step.2⟩

theorem keySchedule_shape (key : List Nat) (h : key.length = 32) :
    (keySchedule key).length = 60 ∧ ∀ w ∈ keySchedule key, w.length = 4 :=
  keyWords_shape 52 _ 8 (by omega) (length_tab _ _) (by
    intro w m
    simp only [tab, List.mem_map, List.mem_range] at m
    obtain ⟨i, hi, rfl⟩ := m
    simp [h]; omega)

theorem length_flatten_four : ∀ (l : List (List Nat)), (∀ w ∈ l, w.length = 4) → l.flatten.length = 4 * l.length
  | [], _ => rfl
  | w :: l, h => by
    have a := h w (by simp)
    have b := length_flatten_four l fun x m => h x (by simp [m])
    simp [a, b]; omega

theorem length_roundKey (ks : List (List Nat)) (r : Nat) (h : ∀ w ∈ ks, w.length = 4) (n : 4 * r + 4 ≤ ks.length) :
    (roundKey ks r).length = 16 := by
  rw [roundKey, length_flatten_four]
  · simp; omega
  · intro w m; exact h w (List.mem_of_mem_drop (List.mem_of_mem_take m))

theorem length_aesRounds (ks : List (List Nat)) : ∀ (n : Nat) (s : List Nat) (r : Nat), (roundKey ks (r + n)).length = 16 →
    (aesRounds ks s r n).length = 16
  | 0, s, r, h => by rw [aesRounds, length_xorList, shiftRows, length_tab]; simp at h; simp [h]
  | n + 1, s, r, h => by
    rw [aesRounds]
    exact length_aesRounds ks n _ (r + 1) (by rw [show r + 1 + n = r + (n + 1) by omega]; exact h)

/-- A block under an expanded key is 16 bytes. -/
theorem length_aesBlock (key b : List Nat) (h : key.length = 32) : (aesBlock (keySchedule key) b).length = 16 :=
  length_aesRounds _ 13 _ 1 (length_roundKey _ _ (keySchedule_shape key h).2 (by rw [(keySchedule_shape key h).1]))

/-- A tag is 16 bytes. -/
theorem length_gcmTag (key iv aad ct : List Nat) (h : key.length = 32) : (gcmTag (keySchedule key) iv aad ct).length = 16 := by
  rw [gcmTag, length_xorList, length_aesBlock _ _ h, beBytes, length_tab]; rfl

theorem length_keyBytes (k : BitVec 256) : (keyBytes k).length = 32 := by simp [keyBytes, leBytes]

/-- Bytes under a key stream of 16-byte blocks from block `c` on, as one pass over the bytes. -/
theorem chunks_eq (K : Nat → List Nat) : ∀ (n c : Nat) (bs : List Nat), (bs.length + 15) / 16 = n → ∀ j, j < bs.length →
    (∀ i, (K i).length = 16) →
    ((tab n fun i => xorList ((bs.drop (16 * i)).take 16) (K (c + i))).flatten).getD j 0
      = bs.getD j 0 ^^^ (K (c + j / 16)).getD (j % 16) 0 := by
  intro n
  induction n with
  | zero => intro c bs h j hj; omega
  | succ n ih =>
    intro c bs h j hj hK
    have e : (tab (n + 1) fun i => xorList ((bs.drop (16 * i)).take 16) (K (c + i)))
        = xorList (bs.take 16) (K c) :: tab n fun i => xorList (((bs.drop 16).drop (16 * i)).take 16) (K (c + 1 + i)) := by
      simp only [tab, List.range_succ_eq_map, List.map_cons, List.map_map]
      congr 1
      apply List.map_congr_left
      intro i _
      simp only [Function.comp, List.drop_drop]
      rw [show 16 * (i + 1) = 16 + 16 * i by omega, show c + (i + 1) = c + 1 + i by omega]
    rw [e, List.flatten_cons]
    have hl : (xorList (bs.take 16) (K c)).length = min 16 bs.length := by
      rw [length_xorList, hK, List.length_take]; omega
    by_cases hj16 : j < 16
    · rw [List.getD_append _ _ _ _ (by rw [hl]; omega), Nat.div_eq_of_lt hj16, Nat.mod_eq_of_lt hj16, Nat.add_zero]
      rw [List.getD_eq_getElem _ _ (by rw [hl]; omega), List.getD_eq_getElem _ _ hj, List.getD_eq_getElem _ _ (by rw [hK]; omega)]
      simp [xorList]
    · have hb : 16 ≤ bs.length := by omega
      rw [List.getD_append_right _ _ _ _ (by rw [hl]; omega), hl, Nat.min_eq_left hb,
        ih (c + 1) (bs.drop 16) (by simp; omega) (j - 16) (by simp; omega) hK]
      rw [show c + 1 + (j - 16) / 16 = c + j / 16 by omega, show (j - 16) % 16 = j % 16 by omega]
      congr 1
      rw [List.getD_eq_getElem _ _ (by simp; omega), List.getD_eq_getElem _ _ hj, List.getElem_drop]
      congr 1
      omega

theorem length_chunks (K : Nat → List Nat) (hK : ∀ i, (K i).length = 16) : ∀ (n c : Nat) (bs : List Nat), (bs.length + 15) / 16 = n →
    ((tab n fun i => xorList ((bs.drop (16 * i)).take 16) (K (c + i))).flatten).length = bs.length := by
  intro n
  induction n with
  | zero => intro c bs h; simp [tab]; omega
  | succ n ih =>
    intro c bs h
    have e : (tab (n + 1) fun i => xorList ((bs.drop (16 * i)).take 16) (K (c + i)))
        = xorList (bs.take 16) (K c) :: tab n fun i => xorList (((bs.drop 16).drop (16 * i)).take 16) (K (c + 1 + i)) := by
      simp only [tab, List.range_succ_eq_map, List.map_cons, List.map_map]
      congr 1
      apply List.map_congr_left
      intro i _
      simp only [Function.comp, List.drop_drop]
      rw [show 16 * (i + 1) = 16 + 16 * i by omega, show c + (i + 1) = c + 1 + i by omega]
    rw [e, List.flatten_cons, List.length_append, ih (c + 1) (bs.drop 16) (by simp; omega), length_xorList, hK]
    simp; omega

/-- The counter mode keeps the length. -/
theorem length_gctr (key iv bs : List Nat) (h : key.length = 32) : (gctr (keySchedule key) iv bs).length = bs.length := by
  have e := length_chunks (fun i => aesBlock (keySchedule key) (iv ++ beBytes 4 (i + 2))) (fun _ => length_aesBlock _ _ h) _ 0 bs rfl
  simp only [Nat.zero_add] at e
  exact e

theorem getD_gctr (key iv bs : List Nat) (h : key.length = 32) (j : Nat) (hj : j < bs.length) :
    (gctr (keySchedule key) iv bs).getD j 0
      = bs.getD j 0 ^^^ (aesBlock (keySchedule key) (iv ++ beBytes 4 (j / 16 + 2))).getD (j % 16) 0 := by
  have e := chunks_eq (fun i => aesBlock (keySchedule key) (iv ++ beBytes 4 (i + 2))) _ 0 bs rfl j hj (fun _ => length_aesBlock _ _ h)
  simp only [Nat.zero_add] at e
  exact e

theorem getD_bytesOf (l : List Nat) (j : Nat) (h : j < l.length) : (bytesOf l).getD j 0 = BitVec.ofNat 8 (l.getD j 0) := by
  rw [bytesOf, List.getD_eq_getElem _ _ (by simpa using h), List.getD_eq_getElem _ _ h, List.getElem_map]

theorem getD_natBytes (l : List Byte) (j : Nat) (h : j < l.length) : (natBytes l).getD j 0 = (l.getD j 0).toNat := by
  rw [natBytes, List.getD_eq_getElem _ _ (by simpa using h), List.getD_eq_getElem _ _ h, List.getElem_map]

theorem length_natBytes (l : List Byte) : (natBytes l).length = l.length := by simp [natBytes]

theorem length_bytesOf (l : List Nat) : (bytesOf l).length = l.length := by simp [bytesOf]

/-- Enciphering twice gives the bytes back. -/
theorem gctr_gctr (key iv : List Nat) (h : key.length = 32) (b : List Byte) :
    bytesOf (gctr (keySchedule key) iv (natBytes (bytesOf (gctr (keySchedule key) iv (natBytes b))))) = b := by
  have l1 : (gctr (keySchedule key) iv (natBytes b)).length = b.length := by rw [length_gctr _ _ _ h, length_natBytes]
  have l2 : (natBytes (bytesOf (gctr (keySchedule key) iv (natBytes b)))).length = b.length := by
    rw [length_natBytes, length_bytesOf, l1]
  apply List.ext_getElem
  · rw [length_bytesOf, length_gctr _ _ _ h, l2]
  · intro j h1 h2
    rw [← List.getD_eq_getElem _ 0 h1, ← List.getD_eq_getElem _ 0 h2, getD_bytesOf _ _ (by rw [length_gctr _ _ _ h, l2]; exact h2),
      getD_gctr _ _ _ h _ (by rw [l2]; exact h2), getD_natBytes _ _ (by rw [length_bytesOf, l1]; exact h2),
      getD_bytesOf _ _ (by rw [l1]; exact h2), getD_gctr _ _ _ h _ (by rw [length_natBytes]; exact h2), getD_natBytes _ _ h2]
    generalize (aesBlock (keySchedule key) (iv ++ beBytes 4 (j / 16 + 2))).getD (j % 16) 0 = k
    generalize b.getD j 0 = x
    apply BitVec.eq_of_getElem_eq
    intro i hi
    have e : BitVec.ofNat 8 (k % 256) = BitVec.ofNat 8 k := BitVec.eq_of_toNat_eq (by simp)
    simp [e]

/-- The frame that a sender seals over a body (R351). -/
def PeerFrame.sealOf (key : BitVec 256) (type : Nat) (f : PeerFrame) (b : List Byte) : PeerFrame :=
  let ks := keySchedule (keyBytes key)
  let iv := gcmIv f.sid.toNat f.ctr.toNat
  let ct := bytesOf (gctr ks iv (natBytes b))
  { f with body := ct, tag := bytesOf (gcmTag ks iv (peerHeader f type) (natBytes ct)) }

/-- A frame that passes steps 1 to 6 of R353 is received with its deciphered body. -/
theorem peerReceive_of (s : State) (type : Nat) (f : PeerFrame) (q : Partner) (sid m : Nat) (hs : f.sid.toNat = sid) (hm : sid % 65536 = m)
    (n1 : ¬ (9216 < 32 + f.body.length ∨ f.tag.length ≠ 16 ∨ f.dst.toNat ≠ s.selfMember))
    (n2 : ¬ (sid / 65536 ≠ wbits s.peer.self 31 16 ∨ 16 ≤ m ∨ m = s.selfMember ∨ (s.partner m).en = false))
    (n3 : (s.partner m).tokens ≠ 0) (ks : List (List Nat)) (hk : keySchedule (keyBytes (Sparse.get 0 s.peer.keys (s.partner m).rxKey)) = ks)
    (iv : List Nat) (hi : gcmIv sid f.ctr.toNat = iv)
    (tag : bytesOf (gcmTag ks iv (peerHeader f type) (natBytes f.body)) = f.tag)
    (win : ((s.updPartner m fun q => { q with tokens := q.tokens - 1 }).partner m).window f.ctr.toNat = some q)
    (ver : (if type = 1 then wbits f.ver 15 8 == 1 else f.ver.toNat == 0x100 + (s.partner m).minor) = true)
    (b : List Byte) (body : bytesOf (gctr ks iv (natBytes f.body)) = b) (ok : bodyOk type b = true) :
    s.peerReceive type f
      = ((s.updPartner m fun q => { q with tokens := q.tokens - 1 }).updPartner m fun _ => q, some (m, b)) := by
  subst body hi hk hm hs
  rw [State.peerReceive]
  simp only [if_neg n1, if_neg n2, if_neg n3, tag, win]
  rw [if_neg (fun h => h rfl), if_neg (by rw [ver, ok]; simp)]

/-- A sealed frame whose header, length and counter pass the other steps of R353 is received with the body it was sealed over. -/
theorem peerReceive_sealOf (s : State) (type : Nat) (f : PeerFrame) (b : List Byte) (q : Partner) (sid m : Nat)
    (hs : f.sid.toNat = sid) (hm : sid % 65536 = m) (key : BitVec 256) (hk : Sparse.get 0 s.peer.keys (s.partner m).rxKey = key)
    (len : 32 + b.length ≤ 9216) (dst : f.dst.toNat = s.selfMember) (span : sid / 65536 = wbits s.peer.self 31 16)
    (num : m < 16 ∧ m ≠ s.selfMember) (en : (s.partner m).en = true) (tokens : (s.partner m).tokens ≠ 0)
    (win : ((s.updPartner m fun q => { q with tokens := q.tokens - 1 }).partner m).window f.ctr.toNat = some q)
    (ver : (if type = 1 then wbits f.ver 15 8 == 1 else f.ver.toNat == 0x100 + (s.partner m).minor) = true)
    (ok : bodyOk type b = true) :
    s.peerReceive type (PeerFrame.sealOf key type f b)
      = ((s.updPartner m fun q => { q with tokens := q.tokens - 1 }).updPartner m fun _ => q, some (m, b)) := by
  have k32 := length_keyBytes key
  have t : (PeerFrame.sealOf key type f b).tag = bytesOf (gcmTag (keySchedule (keyBytes key)) (gcmIv sid f.ctr.toNat) (peerHeader f type)
      (natBytes (PeerFrame.sealOf key type f b).body)) := by rw [← hs, PeerFrame.sealOf]
  have bd : (PeerFrame.sealOf key type f b).body = bytesOf (gctr (keySchedule (keyBytes key)) (gcmIv sid f.ctr.toNat) (natBytes b)) := by
    rw [← hs, PeerFrame.sealOf]
  have hd : peerHeader (PeerFrame.sealOf key type f b) type = peerHeader f type := by rw [PeerFrame.sealOf, peerHeader, peerHeader]
  have c : (PeerFrame.sealOf key type f b).ctr = f.ctr := by rw [PeerFrame.sealOf]
  have si : (PeerFrame.sealOf key type f b).sid = f.sid := by rw [PeerFrame.sealOf]
  have ds : (PeerFrame.sealOf key type f b).dst = f.dst := by rw [PeerFrame.sealOf]
  have vr : (PeerFrame.sealOf key type f b).ver = f.ver := by rw [PeerFrame.sealOf]
  refine peerReceive_of s type _ q sid m (by rw [si, hs]) hm ?_ ?_ tokens (keySchedule (keyBytes key)) (by rw [hk])
    (gcmIv sid f.ctr.toNat) (by rw [c]) (by rw [hd, t]) (by rw [c]; exact win) (by rw [vr]; exact ver) b (by rw [bd, gctr_gctr _ _ k32]) ok
  · rintro (h | h | h)
    · rw [bd, length_bytesOf, length_gctr _ _ _ k32, length_natBytes] at h
      omega
    · rw [t, length_bytesOf, length_gcmTag _ _ _ _ k32] at h
      exact h rfl
    · rw [ds] at h
      exact h dst
  · rintro (h | h | h | h)
    · exact h span
    · exact absurd num.1 (Nat.not_lt.2 h)
    · exact num.2 h
    · exact Bool.noConfusion (en.symm.trans h)

end Sys2Proof.Machine
end

