-- ==== Sys2Proof/Laws/Updates.lean ====
section
/-! SUPPORT. Rewriting the same part of the state twice is rewriting it once, and what an update of a part of a core leaves. -/

namespace Sys2Proof.Machine

/-- The later of two writes of one key counts. -/
theorem Sparse.put_put {α : Type} (m : Sparse α) (k : Nat) (v w : α) : (m.put k v).put k w = m.put k w := by
  induction m with
  | nil => simp [Sparse.put]
  | cons e r ih =>
    obtain ⟨i, x⟩ := e
    by_cases h1 : k < i
    · simp [Sparse.put, h1]
    · by_cases h2 : k = i
      · simp [Sparse.put, h2]
      · simp [Sparse.put, h1, h2, ih]

theorem State.setCore_setCore (s : State) (c : Nat) (k q : Core) : (s.setCore c k).setCore c q = s.setCore c q := by
  simp only [State.setCore, Sparse.put_put]

theorem State.updCore_updCore (s : State) (c : Nat) (f g : Core → Core) :
    (s.updCore c f).updCore c g = s.updCore c fun x => g (f x) := by
  simp only [State.updCore, State.setCore_setCore, State.setCore_core, if_true]

theorem State.updPack_updPack (s : State) (c : Nat) (f g : Pack → Pack) :
    (s.updPack c f).updPack c g = s.updPack c fun x => g (f x) := by
  simp only [State.updPack, State.pack, Sparse.get_put_self, Sparse.put_put]

theorem State.updRing_updRing (s : State) (c : Nat) (f g : Ring → Ring) :
    (s.updRing c f).updRing c g = s.updRing c fun x => g (f x) := by
  simp only [State.updRing, State.ring, Sparse.get_put_self, Sparse.put_put]

theorem State.updTb_updTb (s : State) (c : Nat) (f g : TBase → TBase) :
    (s.updTb c f).updTb c g = s.updTb c fun x => g (f x) := by
  simp only [State.updTb, State.tb, Sparse.get_put_self, Sparse.put_put]

theorem State.updHq_updHq (s : State) (c : Nat) (f g : HQueue → HQueue) :
    (s.updHq c f).updHq c g = s.updHq c fun x => g (f x) := by
  simp only [State.updHq, State.hq, Sparse.get_put_self, Sparse.put_put]

theorem State.updChan_updChan (s : State) (c : Nat) (f g : DmaChan → DmaChan) :
    (s.updChan c f).updChan c g = s.updChan c fun x => g (f x) := by
  simp only [State.updChan, State.chan, Sparse.get_put_self, Sparse.put_put]

theorem State.updPartner_updPartner (s : State) (c : Nat) (f g : Partner → Partner) :
    (s.updPartner c f).updPartner c g = s.updPartner c fun x => g (f x) := by
  simp only [State.updPartner, State.partner, Sparse.get_put_self, Sparse.put_put]

theorem State.updLeash_updLeash (s : State) (c : Nat) (f g : Leash → Leash) :
    (s.updLeash c f).updLeash c g = s.updLeash c fun x => g (f x) := by
  simp only [State.updLeash, State.leashOf, Sparse.get_put_self, Sparse.put_put]

theorem State.updHdr_updHdr (s : State) (c : Nat) (f g : Hdr → Hdr) :
    (s.updHdr c f).updHdr c g = s.updHdr c fun x => g (f x) := by
  simp only [State.updHdr, State.hdr, Sparse.get_put_self, Sparse.put_put]

@[simp] theorem Core.updRtv_rtv (k : Core) (r : Nat) (f : Rtv → Rtv) (j : Nat) :
    (k.updRtv r f).rtv j = if j = r then f (k.rtv r) else k.rtv j := by
  simp [Core.rtv, Core.updRtv, Sparse.get_put]

theorem Core.updRtv_updRtv (k : Core) (r : Nat) (f g : Rtv → Rtv) : (k.updRtv r f).updRtv r g = k.updRtv r fun x => g (f x) := by
  simp only [Core.updRtv, Core.rtv, Sparse.get_put_self, Sparse.put_put]

@[simp] theorem Core.updMxa_mxa (k : Core) (r : Nat) (f : Mxa → Mxa) (j : Nat) :
    (k.updMxa r f).mxa j = if j = r then f (k.mxa r) else k.mxa j := by
  simp [Core.mxa, Core.updMxa, Sparse.get_put]

theorem Core.updMxa_updMxa (k : Core) (r : Nat) (f g : Mxa → Mxa) : (k.updMxa r f).updMxa r g = k.updMxa r fun x => g (f x) := by
  simp only [Core.updMxa, Core.mxa, Sparse.get_put_self, Sparse.put_put]

theorem State.setGroup_setGroup (s : State) (g : Nat) (x y : Group) : (s.setGroup g x).setGroup g y = s.setGroup g y := by
  simp only [State.setGroup, Sparse.put_put]

theorem State.updGroup_updGroup (s : State) (g : Nat) (f h : Group → Group) :
    (s.updGroup g f).updGroup g h = s.updGroup g fun x => h (f x) := by
  cases e : s.group? g with
  | none => simp only [State.updGroup, e]
  | some x => simp only [State.updGroup, e, State.setGroup_group, if_true, State.setGroup_setGroup]

@[simp] theorem State.updJob_job (s : State) (r : Nat) (f : Job → Job) (j : Nat) :
    (s.updJob r f).job? j = if j = r then (s.job? r).map f else s.job? j := by
  cases e : s.job? r with
  | none =>
    simp only [State.updJob, e]
    split
    · rename_i h; rw [h, e]; rfl
    · rfl
  | some x =>
    simp only [State.updJob, e]
    simp only [State.job?, Sparse.find_put]
    split <;> rfl

end Sys2Proof.Machine
end

