-- ==== Sys2Proof/Laws/Shared.lean ====
section
/-! SUPPORT. What each operation that many commands share can do, said once: a fact about a command follows from the case that
it is in, without unfolding the operation. -/

namespace Sys2Proof.Machine

theorem done_eq (s : State) : done s = .next s.settle := rfl

/-- A register access whose effect is an update of the answered state. -/
theorem exec_of_cfgWrite {c : Instr} {s u : State} {a : Nat} {acc : Acc} {f : State → State}
    (he : exec c s = done (s.cfgWrite a acc f)) (hg : s.grants a acc = true) (hu : f (s.answered acc) = u) :
    exec c s = .next u.settle := by
  rw [he, State.cfgWrite_granted _ _ _ _ hg, hu, done_eq]

/-- Everything a register write can do: nothing in reset; an answer; a refusal; or its effect on the answered state. -/
theorem State.cfgWrite_cases (s : State) (a : Nat) (acc : Acc) (f : State → State) :
    s.cfgWrite a acc f = s ∨ s.cfgWrite a acc f = s.answered acc ∨ s.cfgWrite a acc f = (s.answers acc).deny a true acc ∨
      (s.running = true ∧ s.pageActs (pageKind a) = true ∧ writeAllowed a acc = true ∧ s.cfgWrite a acc f = f (s.answered acc)) := by
  by_cases h : s.running = true
  · by_cases h1 : s.pageActs (pageKind a) = true
    · by_cases h3 : writeAllowed a acc = true
      · simp only [State.cfgWrite, h, h1, h3, State.answered, Bool.not_true, Bool.false_eq_true, if_false, if_true]
        split <;> simp
      · simp only [State.cfgWrite, h, h1, h3, State.answered, Bool.not_true, Bool.false_eq_true, if_false]
        split <;> simp
    · exact .inr (.inl (State.cfgWrite_reserved s a acc f h (.inl (by simpa using h1))))
  · exact .inl (State.cfgWrite_in_reset s a acc f (by simpa using h))

/-- Everything an instruction row of a core sequencer can do: nothing; its effect, after the wait it ends has been counted;
a wait; a failure with a status; or a fault of a scratchpad line. -/
theorem State.issue_cases (s : State) (c : Nat) (o : Op) (act : State → IWord → State) :
    s.issue c o act = s ∨
    (s.canIssue c = true ∧ (s.vctx c).inside = true ∧ IWord.opc (s.vctx c).w = some o ∧
      s.earlierDone c o = true ∧
      ((s.preIssue (s.vctx c) o = .go ∧ ∃ t, s.issue c o act = act t (s.vctx c).w) ∨
        (s.preIssue (s.vctx c) o = .wait ∧ s.issue c o act = s.noteWait c) ∨
        (∃ st, s.preIssue (s.vctx c) o = .fail st ∧ s.issue c o act = s.failRun c st (32 * (s.vctx c).i) .program) ∨
        (∃ l, s.preIssue (s.vctx c) o = .fault l ∧ s.issue c o act = s.fault c .spd l 0))) := by
  unfold State.issue
  dsimp only
  by_cases h : (s.canIssue c && (s.vctx c).inside && IWord.opc (s.vctx c).w == some o && s.earlierDone c o) = true
  · rw [if_pos h]
    simp only [Bool.and_eq_true, beq_iff_eq] at h
    refine .inr ⟨h.1.1.1, h.1.1.2, h.1.2, h.2, ?_⟩
    cases s.preIssue (s.vctx c) o with
    | go => exact .inl ⟨rfl, _, rfl⟩
    | wait => exact .inr (.inl ⟨rfl, rfl⟩)
    | fail st => exact .inr (.inr (.inl ⟨st, rfl, rfl⟩))
    | fault l => exact .inr (.inr (.inr ⟨l, rfl, rfl⟩))
  · rw [if_neg h]
    exact .inl rfl

/-- Everything a command row of a ring can do: nothing, or its effect on the head that waits for it. -/
theorem State.headRow_cases (s : State) (r opc : Nat) (act : State → Desc → State) :
    s.headRow r opc act = s ∨
    ∃ d rest, (s.ring r).queue = d :: rest ∧ s.running = true ∧ s.sd.restart = false ∧ d.opc = opc ∧ d.met = true ∧
      d.done.isNone = true ∧ s.headRow r opc act = act s d := by
  unfold State.headRow State.headFor
  split
  · rename_i d h
    split at h
    · rename_i e rest hq
      split at h
      · rename_i hc
        cases h
        exact .inr ⟨d, rest, hq, hc.1, hc.2.1, hc.2.2.1, hc.2.2.2.1, hc.2.2.2.2, rfl⟩
      · cases h
    · cases h
  · exact .inl rfl

/-- The head that a command row runs. -/
theorem State.headRow_of_head {s : State} {r opc : Nat} {d : Desc} {rest : List Desc} (act : State → Desc → State)
    (hq : (s.ring r).queue = d :: rest) (h : s.running = true) (h1 : s.sd.restart = false) (h2 : d.opc = opc)
    (h3 : d.met = true) (h4 : d.done.isNone = true) : s.headRow r opc act = act s d := by
  unfold State.headRow State.headFor
  rw [hq]
  simp only [h, h1, h2, h3, h4, and_self, if_true]

/-- Everything an instruction row of a Retriever can do: nothing, or its effect. -/
theorem State.rtvRow_cases (s : State) (c r op : Nat) (act : State → Nat → State) :
    s.rtvRow c r op act = s ∨
    (((s.core c).rtv r).st = .running ∧ ((s.core c).rtv r).cur.isNone = true ∧ s.rtvGoes c r = true ∧
      rOp (((s.core c).rtv r).store.getD ((s.core c).rtv r).pc 0) = op ∧
      s.rtvRow c r op act = act s (((s.core c).rtv r).store.getD ((s.core c).rtv r).pc 0)) := by
  unfold State.rtvRow
  dsimp only
  split_ifs with h
  · exact .inr ⟨h.1, h.2.1, h.2.2.1, h.2.2.2, rfl⟩
  · exact .inl rfl

/-- Everything a received message can do: nothing in reset; the effects of the steps of R353 alone; or the message's own effect on
a partner that may send it. -/
theorem State.onMessage_cases (s : State) (type : Nat) (f : PeerFrame) (act : State → Nat → List Byte → State) :
    s.onMessage type f act = s ∨ s.onMessage type f act = (s.peerReceive type f).1 ∨
    ∃ t m body, s.peerReceive type f = (t, some (m, body)) ∧
      ((t.partner m).st = .up ∨ (type = 1 ∧ (t.partner m).st = .joining)) ∧
      s.onMessage type f act = act (t.updPartner m fun p => { p with heard := t.fclk }) m body := by
  unfold State.onMessage
  split
  · exact .inl rfl
  · rcases h : s.peerReceive type f with ⟨t, _ | ⟨m, body⟩⟩
    · exact .inr (.inl rfl)
    · dsimp only
      split_ifs with h1
      · exact .inr (.inr ⟨t, m, body, rfl, h1, rfl⟩)
      · exact .inr (.inl rfl)

/-- Every command answers a next state whose lines are settled. -/
theorem exec_settled (c : Instr) (s : State) : ∃ u : State, exec c s = .next u.settle := by
  cases c <;> exact ⟨_, rfl⟩

end Sys2Proof.Machine
end

