-- ==== Sys2Proof/Tests/Slice0.lean ====
section
/-! SUPPORT. Tests: each check of well-formedness refuses a term; every statement with hypotheses has a state that meets them, on
which the step it names gives what it says; and values worked by hand from the spec's own examples and tables. -/

namespace Sys2Proof.Machine.Tests

set_option Elab.async false

open Sys2Proof Sys2Proof.Machine

/-! ### Helpers -/

/-- An initiator that may do everything. -/
def boss : Acc := ⟨true, true, 0, 0⟩

/-- An initiator with context 5 and no privilege. -/
def user : Acc := ⟨false, false, 5, 0⟩

/-- The engine at stage FULL with core 0, core 1 and pack 0 powered, and fuse values of a test chip. -/
def full : State :=
  { State.reset with
    boot := { stage := .full }
    fuse := ⟨true, 0, 0, 0, []⟩
    cores := [(0, { pdAck := true, cclk := true }), (1, { pdAck := true, cclk := true })]
    packs := [(0, { pdAck := true, pdReq := true })]
    glb := { pllLock := true } }

/-- Does the command answer a next state of which `p` holds? -/
def after (c : Instr) (s : State) (p : State → Bool) : Bool :=
  match exec c s with
  | .next t => p t
  | _ => false

/-- Does the command answer exactly `u` with its lines settled? -/
def gives (c : Instr) (s u : State) : Bool := after c s fun t => t == u.settle

/-! ### Well-formedness -/

theorem test_wf_core : (Instr.nop 31).wf = true ∧ (Instr.nop 32).wf = false := by decide
theorem test_wf_retriever : (Instr.rd 0 7).wf = true ∧ (Instr.rd 0 8).wf = false ∧ (Instr.rd 32 0).wf = false := by decide
theorem test_wf_ring : (Instr.job 4095).wf = true ∧ (Instr.job 4096).wf = false := by decide
theorem test_wf_group : (Instr.groupReleaseEffect 4096).wf = false := by decide
theorem test_wf_object : (Instr.objectRecord 8191 .ok).wf = true ∧ (Instr.objectRecord 8192 .ok).wf = false := by decide
theorem test_wf_line : (Instr.tbTick 8).wf = false ∧ (Instr.ingressWord 16 0 0).wf = false := by decide
theorem test_wf_timebase : (Instr.tbStall 7).wf = true ∧ (Instr.tbStall 8).wf = false := by decide
theorem test_wf_pack : (Instr.frameFire 7).wf = true ∧ (Instr.frameFire 8).wf = false := by decide
theorem test_wf_tables : (Instr.handleWord0 0 256 0 boss).wf = false ∧ (Instr.collarWord1 0 16 0 boss).wf = false := by decide
theorem test_wf_scrub : (Instr.spdScrub 0 65536 .clean).wf = false ∧ (Instr.acmScrub 0 4 0 .clean).wf = false
    ∧ (Instr.acmScrub 0 0 512 .clean).wf = false := by decide
theorem test_wf_readback : (Instr.weightReadback 0 0 [(1024, 1)]).wf = false ∧ (Instr.knownAnswerTest 0 [(0, 32)]).wf = false := by decide
theorem test_wf_fails : (Instr.enterEarly [(32, 0, 0, true)]).wf = false ∧ (Instr.handover [(0, 4, 0, true)]).wf = false := by decide
theorem test_wf_domain : (Instr.powerDomainAck (.pack 8) true).wf = false ∧ (Instr.powerDomainAck (.core 32) true).wf = false
    ∧ (Instr.powerDomainAck .engine true).wf = true := by decide
theorem test_wf_address : (Instr.registerWrite 2 0 boss).wf = false ∧ (Instr.cfgacc 0x100000 0 true).wf = false := by decide
theorem test_wf_entry : (Instr.calEntryRewrite 0 512).wf = false ∧ (Instr.hqWrite 64 0 boss).wf = false
    ∧ (Instr.chArm 8 0 boss).wf = false := by decide
theorem test_wf_tags : (Instr.memReadData 8 0 .ok).wf = false ∧ (Instr.memReadData 0 512 .ok).wf = false
    ∧ (Instr.tileRetry 64).wf = false := by decide
theorem test_wf_tiles : (Instr.tileReady 16 0 0).wf = false ∧ (Instr.tileReady 0 65536 0).wf = false
    ∧ (Instr.tileReady 0 0 4096).wf = false := by decide
theorem test_wf_peer : (Instr.hello ⟨0, 0, 0, 0, [], []⟩).wf = false ∧ (Instr.keyWrite 16 0 0 boss).wf = false
    ∧ (Instr.keyWrite 0 8 0 boss).wf = false ∧ (Instr.partCfgWrite 16 0 boss).wf = false ∧ (Instr.hbMissExpiry 16).wf = false := by decide
theorem test_wf_page : (Instr.evtClr 60 0 boss).wf = false ∧ (Instr.evtSet 59 0 boss).wf = true := by decide

/-! ### The step, the queue and the lines -/

/-- Witness of StepRunsTheFrontCommand. -/
theorem test_step_front : (full.withFetchWord 0 0).pending = [] ∧
    step { full with pending := [.idcode, .pllLock] } = exec .idcode { full with pending := [.pllLock] } := ⟨rfl, rfl⟩

/-- Witnesses of EveryStepAnswersANextState: an idle step with the PLL locked, one before it locks, and one in reset. -/
theorem test_idle_step : State.reset.running = true ∧ (match step full with | .next t => t.fclk == 1 | _ => false) = true ∧
    (let s := { full with glb := {} }
     match step s with | .next t => t == s | _ => false) = true ∧
    (let s := { full with boot := { por := true } }
     s.running = false ∧ (match step s with | .next t => t == s | _ => false) = true) := by decide +kernel

/-- Witness of EveryStepLeavesTheLinesAtTheirLevels: an event reaches its line, and the lines then stand at their levels. -/
theorem test_line_rises :
    let s := { full with hdrs := [(2, { mask := 0 })], glb := { full.glb with irqMap := [(0, 0x300#32)] } }
    after (.evtSet 2 1 boss) s (fun t => t.irq == 8#16 && t.irqLevels == 8#16) = true := by decide +kernel

/-- Witness of SettlingTheLinesSendsMessages: line 0 rises and writes its message; the byte after it keeps its value. -/
theorem test_message :
    let s := { full with glb := { full.glb with ringPend := 1#16, msiLo := [(0, 0x1000#32)], msiHi := [(0, 0x80000000#32)]
                                                msiData := [(0, 0xA1B2C3D4#32)] } }
    Memory.wf s.host = true ∧ s.irqLevels.getLsbD 0 = true ∧ s.irq.getLsbD 0 = false ∧
    (Sparse.get (0 : Word) s.glb.msiHi 0).getLsbD 31 = true ∧ s.settle.hostNat 0x1000 4 = 0xA1B2C3D4 ∧
    s.settle.hostByte 0x1004 = 0 := by decide +kernel

/-! ### Register access, events, the test port -/

/-- Witnesses of WritesThatDoNotActAreAnswered: in reset, at a reserved word, without privilege. -/
theorem test_writes_refused :
    (Instr.registerWrite 0x2044 1 user).writes = some (0x2044, user) ∧
    gives (.registerWrite 0x2044 1 user) { full with boot := { por := true } } { full with boot := { por := true } } = true ∧
    (pageReg (pageKind 0x2FFC) 0xFFC = false ∧ gives (.registerWrite 0x2FFC 1 boss) full (full.answered boss) = true) ∧
    (writeAllowed 0x2044 user = false ∧ after (.registerWrite 0x2044 1 user) full (fun t =>
      t.cfgResp == (1, 0) && t.glb.cfgErr == 0x50003#32 && t.glb.cfgErrAddr == 0x2044#32 && (t.hdr 0).raw == 1#32) = true) := by
  decide +kernel

/-- Witness of NamedRegisterRowsAreWritesOfTheirRegister at the last member of each array. -/
theorem test_named_rows :
    (gives (.chArm 7 0x8#32 boss) full ((full.answered boss).updChan 7 fun x => { x with ien := true })) = true ∧
    after (.registerWrite (0x7114 + 0x40 * 7) 0x8#32 boss) full (fun t => gives (.chArm 7 0x8#32 boss) full t) = true ∧
    after (.registerWrite (0x6200 + 32 * 15 + 28) 9#32 boss) full (fun t => gives (.keyWrite 15 7 9#32 boss) full t) = true ∧
    after (.registerWrite (0x40000 + 8 * 4095) 9#32 boss) full (fun t => gives (.dbLo 4095 9#32 boss) full t) = true := by
  decide +kernel

/-- Witnesses of EventsAreWrittenClearedAndRecorded at pages 0 and 58, and of an error event. -/
theorem test_events :
    full.pageActs (pageKind (pageBase 58)) = true ∧
    after (.evtSet 0 0xFF#32 boss) full (fun t => (t.hdr 0).raw == 0xF#32 && (t.hdr 0).first == 0) = true ∧
    after (.evtClr 0 2#32 boss) { full with hdrs := [(0, { raw := 7 })] } (fun t => (t.hdr 0).raw == 5#32) = true ∧
    after (.evtSet 58 1#32 boss) full (fun t => (t.hdr 58).raw == 1#32) = true ∧
    isErrEvent 0 0 = true ∧ ((full.raise 0 0).hdr 0).first = 1#32 ∧ isErrEvent 0 1 = false ∧ ((full.raise 0 1).hdr 0).first = 0#32 := by
  decide +kernel

/-- Witnesses of RegisterWritesReachTheirFields, LIMIT at and above its bound. -/
theorem test_register_writes :
    after (.registerWrite 0x24 0x1234#32 boss) full (fun t => (t.hdr 0).mask == 0x1234#32) = true ∧
    after (.registerWrite 0x10B4 0x1FF#32 boss) full (fun t => t.sd.fltLim == 255) = true ∧
    full.grants 0x2044 boss = true ∧
    after (.limitWrite 60000#32 boss) full (fun t => t.power.limit == 60000#32) = true ∧
    after (.limitWrite 60001#32 boss) full (fun t => t.power.limit == 60000#32) = true := by decide +kernel

/-- Witnesses of ReadsThatLatchAndTheTestPort. -/
theorem test_reads_and_port :
    after (.valLoRead 7) { full with tbs := [(7, { value := 0x500000003#64 })] } (fun t =>
      (t.tb 7).valHi == 5#32 && t.cfgResp == (0, 3#32)) = true ∧
    after .timeLoRead { full with fclk := 77 } (fun t => t.cfgResp == (0, 77#32)) = true ∧
    after (.calEnt0Read 0) full (fun _ => true) = true ∧
    after .idcode full (fun t => t.tap.ir == 2#8) = true ∧
    after (.bypass 0xFF#8) full (fun t => t.tap.ir == 0xFF#8 && t.tap.dr == 0) = true ∧
    after (.tracectl 0xFFFF#32) full (fun t => t.traceEn == 0x01FE#16) = true ∧
    after (.cfgacc 0x2044 500#32 true) full (fun t => t.power.limit == 500#32 && t.tap.dr == 0x400000000#64) = true ∧
    after (.cfgacc 0x2044 0#32 false) full (fun t => t.tap.dr.toNat % 2 ^ 32 == 60000) = true := by decide +kernel

/-! ### Tables, segments, loads, queues -/

/-- Witnesses of TableEntriesAreStagedValidatedAndCommitted at the last indices: staging, a code of R206, a commit, a held commit. -/
theorem test_tables :
    let s := full.updCore 0 fun k => { k with hstage := [(255, 0x81#32)], cstage := [(15, 0x00000001#32)] }
    gives (.handleWord0 0 255 7 boss) full ((full.answered boss).updCore 0 fun k => { k with hstage := k.hstage.set 0 255 7 }) = true ∧
    gives (.collarWord0 0 15 7 boss) full ((full.answered boss).updCore 0 fun k => { k with cstage := k.cstage.set 0 15 7 }) = true ∧
    tblCode (s.core 0) false 255 0x81#64 = 3 ∧
    after (.handleWord1 0 255 0 boss) s (fun t => (t.core 0).handles == [] && (t.core 0).tblStat == 0xFF30#32) = true ∧
    tblCode (full.core 0) false 3 0#64 = 0 ∧ after (.handleWord1 0 3 0 boss) full (fun t => (t.core 0).tblStat == 0x300#32) = true ∧
    full.grants (0x20100 + 8 * 255) boss = true ∧ full.grants (0x20904 + 8 * 15) boss = true := by decide +kernel

/-- Witnesses of the commit clauses: nothing held; a held commit that is applied. -/
theorem test_table_commit :
    let h : HeldCommit := { collar := false, index := 4, value := 0x11#64 }
    let s := full.updCore 0 fun k => { k with held := some h }
    (s.core 0).held = some h ∧ s.handleInUse 0 4 = false ∧ gives (.tableCommit 0) s (s.applyCommit 0 h) = true ∧
    (s.applyCommit 0 h).core 0 = { s.core 0 with handles := [(4, 0x11#64)], held := none } ∧
    (full.core 0).held = none ∧ gives (.tableCommit 0) full full = true := by decide +kernel

/-- Witness of a held commit: a running DMA transfer reads through the old entry of handle 4. -/
theorem test_commit_held :
    let h : HeldCommit := { collar := false, index := 4, value := 0x0000000100000001#64 }
    let s := { full.updCore 0 (fun k => { k with handles := [(4, 1#64)] }) with
      dma := [(0, { running := true, actSrc := 0x8000000400000000#64 })] }
    let u := s.updCore 0 fun k => { k with held := some h }
    s.handleInUse 0 4 = true ∧ ((s.commitEntry 0 h).core 0).held = some h ∧
    u.handleInUse 0 4 = true ∧ gives (.tableCommit 0) u u = true := by decide +kernel

/-- Witnesses of SegmentsFollowSegPwr: segment 7 rises and reads 0; segment 0 under a valid handle stays. -/
theorem test_segments :
    let s := full.updCore 0 fun k => { k with handles := [(0, 0x0000000000000001#64)], segPwr := 0x81#8
                                              spd := [(5, 9), (524288 * 7, 3)] }
    after (.segPwrWrite 0 0x80#32 boss) s (fun t => (t.core 0).segPwr == 0x81#8 && (t.core 0).segRefused) = true ∧
    after (.segPwrWrite 0 0x01#32 boss) s (fun t => (t.core 0).segPwr == 1#8 && !(t.core 0).segRefused) = true ∧
    s.coreOn 0 = true ∧ Memory.wf (s.core 0).spd = true ∧
    after (.segmentUp 0) s (fun t => (t.core 0).segUp == 0x81#8 && (t.core 0).spd == [(5, 9)]) = true := by decide +kernel

/-- Witnesses of FxLoadsAndHistograms. -/
theorem test_fx_hist :
    let s := full.updCore 0 fun k => { k with fxJob := some (9, 3, 0), hist := [(68 * 3 + 67, 5#32), (1, 4#32)] }
    full.grants 0x20058 boss = true ∧ ((full.core 0).fxSlot 15).pin = false ∧
    after (.fxLoad 0 0xF0007#32 boss) full (fun t => (t.core 0).fxJob == some (15, 7, 0)) = true ∧
    after (.fxLoad 0 0xF0007#32 boss) s (fun t => (t.core 0).fxStat == 0x3F0#32 && (t.hdr 24).raw == 0x1000#32) = true ∧
    (s.core 0).refGood 0 3 = false ∧
    after (.fxLoadComplete 0) s (fun t => (t.core 0).fxJob.isNone && (t.core 0).fx == []) = true ∧
    (s.core 0).hist.rising = false := by decide +kernel

theorem test_hist_clear :
    let s := full.updCore 0 fun k => { k with hist := [(1, 4#32), (68 * 3 + 67, 5#32)] }
    (s.core 0).hist.rising = true ∧ s.grants 0x20084 boss = true ∧
    after (.histClr 0 8#32 boss) s (fun t => (t.core 0).hist == [(1, 4#32)]) = true := by decide +kernel

/-- Witnesses of ResidencyInvalidationAndQueueAssignment. -/
theorem test_rmc_hq :
    let s := full.updPack 0 fun p => { p with rmc := [⟨1, [1, 1, 1, 1, 1, 1, 1, 1], 0⟩, ⟨9, [2, 2, 2, 2, 2, 2, 2, 2], 0⟩], rmcPage := 15 }
    s.grants 0x10044 boss = true ∧
    after (.rmcInvCnt 0 1#32 boss) s (fun t => (t.pack 0).rmcBusy && (t.pack 0).rmc.map (·.group) == [9]) = true ∧
    (let u := s.updPack 0 fun p => { p with rmcBusy := true }
     u.rmcQuiet 0 = true ∧ after (.rmcInvDone 0) u (fun t => !(t.pack 0).rmcBusy) = true ∧
     gives (.rmcInvCnt 0 1#32 boss) u (u.answered boss) = true) ∧
    full.grants (0x300 + 4 * 63) boss = true ∧ full.qpopWaits 63 = false ∧
    after (.hqWrite 63 0x10005#32 boss) full (fun t => t.hq 63 == { ctx := 5, en := true }) = true ∧
    (let u := full.updHq 63 fun q => { q with tokens := [1] }
     gives (.hqWrite 63 0x10005#32 boss) u (u.answered boss) = true) := by decide +kernel

/-- Witnesses of RemoteWritesAndReadsAreWholeOrRefused: an enabled Collar takes a row, a disabled one refuses it. -/
theorem test_remote :
    let w : RemoteWrite := { src := 0, dest := 1, collar := 2, ctx := 0, pc := 3, rows := [(8, [1, 2])] }
    let s := { full.updCore 1 (fun k => { k with collars := [(2, 0x0000000100000001#64)] }) with rwrites := [w] }
    let u := { full with rwrites := [w] }
    collarWhy (Sparse.get (0 : DWord) (s.core 1).collars 2) 0 w.rows = none ∧ Memory.wf (s.core 1).spd = true ∧
    after (.remoteWriteArrival 0 1) s (fun t => t.rwrites == [] && t.racks == [⟨0, true, 3, 0⟩] &&
      (t.core 1).spd == [(64 + 8, 1), (64 + 9, 2)]) = true ∧
    collarWhy (Sparse.get (0 : DWord) (u.core 1).collars 2) 0 w.rows = some 0 ∧
    after (.remoteWriteArrival 0 1) u (fun t => t.racks == [⟨0, false, 3, 0⟩] && (t.core 1).spd == []) = true := by decide +kernel

/-- Witnesses of the acknowledgements and of a remote read without rows. -/
theorem test_acks :
    let s := { full.updCore 0 (fun k => { k with csq := { k.csq with remote := 1, run := .job 0 0 } }) with racks := [⟨0, true, 3, 0⟩] }
    after (.remoteWriteAck 0) s (fun t => t.racks == [] && (t.core 0).csq.remote == 0) = true ∧
    (let u := { s with racks := [⟨0, false, 3, 0⟩], jobs := [(0, {})] }
     (u.core 0).csq.run ≠ .idle ∧ after (.remoteWriteAck 0) u (fun t => t.racks == [] && (t.hdr 24).raw.getLsbD 8) = true) := by decide +kernel

/-! ### DMA -/

/-- Witnesses of DmaChannelsAreArmedAndAborted, channel 7. -/
theorem test_dma_channels :
    after (.chArm 7 0x0005000B#32 boss) full (fun t => t.dmaQueue == [7] && (t.chan 7).arm && (t.chan 7).ctx == 5#16) = true ∧
    (let s := { full.updChan 7 (fun x => { x with arm := true, len := 64 }) with dmaQueue := [7] }
     after (.chAbortShadow 7 1#32 boss) s (fun t => t.dmaQueue == [] && (t.chan 7).code == 1 && (t.chan 7).residue == 64#32 &&
       (t.hdr 7).raw == 0x8000#32) = true ∧
     after (.chAbortShadow 7 2#32 boss) s (fun t => t.dmaQueue == [] && !(t.chan 7).arm && (t.hdr 7).raw == 0) = true) ∧
    (let s := full.updChan 7 fun x => { x with running := true }
     after (.chAbortActive 7 1#32 boss) s (fun t => (t.chan 7).aborting && (t.chan 7).running) = true) := by decide +kernel

/-- Witnesses of QueuedTransfersStartAndMoveInBursts: a transfer of 64 bytes from host memory to host memory starts, and its one burst
moves them and ends it; one of length 0 ends with its first failing check. -/
theorem test_dma_transfer :
    let s := { full.updChan 0 (fun x => { x with src := 0x1000, dst := 0x2000, len := 64, arm := true }) with
      dmaQueue := [0], host := [(0x1000, 7), (0x1003, 9)] }
    s.dmaRunning = none ∧ s.dmaCheck (s.chan 0) = 0 ∧
    after .dmaTransferStart s (fun t => (t.chan 0).running && t.dmaQueue == [] && t.dmaRunning == some 0 &&
      after (.dmaBurst .ok) t (fun u => !(u.chan 0).running && u.hostByte 0x2000 == 7 && u.hostByte 0x2003 == 9 &&
        u.hostByte 0x2040 == 0 && (u.hdr 7).raw == 1#32 && (u.chan 0).residue == 0)) = true ∧
    (let u := s.updChan 0 fun x => { x with len := 63 }
     u.dmaCheck (u.chan 0) ≠ 0 ∧ after .dmaTransferStart u (fun t => !(t.chan 0).running && (t.chan 0).residue == 63#32) = true) := by
  decide +kernel

/-! ### Time bases and marks -/

/-- Witnesses of TimeBaseRegistersAreProtected: no stream bound; an enable with NOM = 0 is refused, a source above 4 is ignored, TOL
at its limit is taken. -/
theorem test_tb_registers :
    full.grants (tbAddr 7 .ctrl) boss = true ∧ full.tbBound 7 = 0 ∧
    after (.tbaseCtrlWrite 7 .ctrl 1#32 boss) full (fun t => (t.tb 7).refused && !(t.tb 7).en) = true ∧
    after (.tbaseCtrlWrite 7 .ctrl 0xA#32 boss) full (fun t => (t.hdr 15).raw == 8#32 && (t.tb 7).src == 0) = true ∧
    after (.tbaseCtrlWrite 7 .tol 10000#32 boss) full (fun t => (t.tb 7).tol == 10000 && !(t.tb 7).refused) = true ∧
    after (.tbaseCtrlWrite 7 .tol 10001#32 boss) full (fun t => (t.tb 7).tol == 0 && (t.tb 7).refused) = true ∧
    (let s := full.updTb 7 fun x => { x with nom := 48000, set := 5 }
     after (.tbaseCtrlWrite 7 .ctrl 9#32 boss) s (fun t => (t.tb 7).en && (t.tb 7).src == 4 && (t.tb 7).value == 5) = true) ∧
    (let s := { full with groups := [(0, { tb := 7, members := [⟨1, 0⟩] })] }
     s.tbBound 7 ≠ 0 ∧ after (.tbaseCtrlWrite 7 .nom 5#32 boss) s (fun t => (t.tb 7).refused && (t.tb 7).nom == 0) = true) := by
  decide +kernel

/-- Witnesses of TimeBasesCountRunFreeAndStall: free running, a stall, edges 4 apart and at the same FCLK. -/
theorem test_tb_counts :
    let s := { full with tbs := [(0, { en := true, src := 4 }), (3, { en := true, src := 1, sel := 7, stallLim := 1 })], fclk := 1024 }
    after (.freeRunAdvance 0) s (fun t => (t.tb 0).value == 1) = true ∧
    gives (.freeRunAdvance 3) s s = true ∧
    after (.tbStall 3) s (fun t => (t.tb 3).stalled && (t.hdr 11).raw == 1#32) = true ∧
    gives (.tbStall 3) { s with fclk := 1023 } { s with fclk := 1023 } = true ∧
    after (.tbTick 7) { s with tickEdge := [(7, 1020, true)] } (fun t => (t.tb 3).value == 1 && (t.tb 0).value == 0) = true ∧
    after (.tbTick 7) { s with tickEdge := [(7, 1024, true)] } (fun t => (t.tb 3).value == 0) = true ∧
    after (.tbTick 7) { s with tickEdge := [(7, 1024, false)] } (fun t => (t.tb 3).value == 1) = true := by decide +kernel

/-- Witnesses of NetworkTimeAndMarks. -/
theorem test_net_time :
    let s := { full with tbs := [(7, { en := true, src := 3, sampled := true, value := 10, jumpLim := 5 })] }
    after (.tbNetStrobe 15) s (fun t => (t.tb 7).value == 15 && (t.hdr 15).raw == 0) = true ∧
    after (.tbNetStrobe 16) s (fun t => (t.tb 7).value == 16 && (t.hdr 15).raw == 4#32) = true ∧
    after (.tbNetStrobe 9) s (fun t => (t.tb 7).value == 10 && (t.hdr 15).raw == 2#32) = true ∧
    after (.tbNetStrobe 10) s (fun t => t.tb 7 == s.tb 7) = true ∧
    after (.tbNetStrobe 9) { full with tbs := [(7, { en := true, src := 3 })] } (fun t => (t.tb 7).value == 9) = true := by
  decide +kernel

theorem test_marks :
    let g : Group := { members := [⟨12, 0⟩] }
    let s := { full with sd := { full.sd with markStream := 12, markLo := 100 }, groups := [(0, g)] }
    full.grants 0x1048 boss = true ∧
    after (.markTHi 0 boss) full (fun t => t.sd.markStat == 4#32) = true ∧
    after (.markTHi 0 boss) s (fun t => t.sd.markStat == 0 && (t.group? 0).map (·.markReqs) == some [(0, 100)]) = true ∧
    after (.markTHi 0 boss) { s with groups := [(0, { g with markReqs := [(0, 1), (0, 2), (0, 3), (0, 4)] })] }
      (fun t => t.sd.markStat == 2#32) = true ∧
    (let f : Frame := { n := 1, phase := .fired, fire := some 0 }
     let h := { g with frames := [f], lastClose := some 1 }
     h.newestFired = some 1 ∧ h.memberClose 0 1 < 100) := by decide +kernel

/-! ### The memory port -/

/-- Witnesses of MemoryRepliesAndErrors: a write completes and lands by its enables; a late one is discarded; an error leaves its bytes
open; a request times out. -/
theorem test_memory_port :
    let q : MReq := { unit := .retriever 0 0, tag := 511, line := 2, write := true, cls := .best, issued := 0
                      data := [5, 6], ben := [true, false] }
    let s := full.setMchan 7 { out := [q] }
    after (.memWriteCompletion 7 511 .ok) s (fun t => t.hostByte 128 == 5 && t.hostByte 129 == 0 && (t.mchan 7).out == []) = true ∧
    after (.memWriteCompletion 7 511 .tgterr) s (fun t => (t.hdr 3).raw == 1#32 && t.mport.errInfo.getLsbD 0 &&
      t.mport.errAddr == 128) = true ∧
    after (.memWriteCompletion 7 511 .ok) (full.setMchan 7 { out := [{ q with timedOut := true }] })
      (fun t => t.host == [] && (t.mchan 7).out == []) = true ∧
    (let r := { q with write := false }
     let u := { full.setMchan 7 { out := [r] } with fclk := 0x100 * 1024 }
     after (.memTimeout 7 511) u (fun t => (t.hdr 3).raw == 1#32) = true ∧
     gives (.memTimeout 7 511) { u with fclk := 0x100 * 1024 - 1 } { u with fclk := 0x100 * 1024 - 1 } = true ∧
     after (.memReadData 7 511 .ok) { u with fclk := 1 } (fun t => (t.mchan 7).out == [] && (t.hdr 3).raw == 0) = true) ∧
    gives (.memReadData 7 511 .ok) full full = true ∧
    after (.latClr 1 boss) { full with mport := { full.mport with latMax := 9 } } (fun t => t.mport.latMax == 0) = true := by
  decide +kernel

/-! ### The sample port and the tile port -/

/-- A group of one slot and one member on core 0 of pack 0, armed, with handle 1 as input buffer and handle 2 as its program. -/
def grp : Group :=
  { stage := .armed, tb := 0, n := 1, p := 10, dlc := 1000, nslot := 1, members := [⟨0, 0⟩], pack := 0, cores := [0], progs := [2] }

/-- The engine with that group; lane 3 carries its one position. -/
def ported : State :=
  { full.updCore 0 (fun k => { k with handles := [(1, 0x0007000000000001#64), (2, 0x0000000800000001#64)] }) with
    groups := [(0, grp)]
    tbs := [(0, { en := true, nom := 48000, value := 0 })]
    aport := { full.aport with inCfg := [(3, 1#32)], inTgt := [(3, 1#32)] } }

/-- Witnesses of PortBindingsAreWrittenWhileDisabled, lane 15 and binding 15. -/
theorem test_bindings :
    full.grants (bindAddr 0x5100 15 .store) boss = true ∧ full.grants (tileAddr 15 .dseq) boss = true ∧
    after (.inCfgWrite 15 .cfg 0xFFFFFFFF#32 boss) full (fun t => t.aport.inCfg == [(15, 0x003FFFFF#32)]) = true ∧
    gives (.inCfgWrite 3 .tgt 9 boss) ported (ported.answered boss) = true ∧
    after (.inCfgWrite 3 .cfg 0 boss) ported (fun t => t.aport.inCfg == []) = true ∧
    after (.outCfgWrite 15 .cfg 0xFFFFFFFF#32 boss) full (fun t => t.aport.outCfg == [(15, 0x0003FFFD#32)] &&
      after (.outCfgWrite 15 .cfg 0xFFFFFFFE#32 boss) t (fun u => u.aport.outCfg == [(15, 0x0003FFFC#32)])) = true ∧
    (let s := { full with tport := { full.tport with cfg := [(0, 1#32)] } }
     s.dseqClash 15 0 = true ∧ after (.tbCfgWrite 15 .cfg 1 boss) s (fun t => t.tport.cfg == [(0, 1#32)] && (t.hdr 4).raw == 0x10#32) = true ∧
     after (.tbCfgWrite 15 .cfg 3 boss) s (fun t => t.tport.cfg == [(0, 1#32), (15, 3#32)]) = true ∧
     after (.tbCfgWrite 0 .cfg 2 boss) s (fun t => t.tport.cfg == []) = true ∧
     after (.tbCfgWrite 0 .geom 2 boss) s (fun t => t.tport.geom == []) = true) := by decide +kernel

/-- Witnesses of IngressWordsAndReleases: a word of odd parity lands at the time-base value of frame 0, waits for frame 1, is early for
frame 2, late for a finished frame, counted with bad parity, and stray on a lane without a group. -/
theorem test_ingress_places :
    let d : Word := 0x01020304#32
    let t : BitVec 16 := if parBit d 0 then 0x8000#16 else 0
    (ported.laneGroup 3).isSome = true ∧ ported.bindFor grp 0 (ported.inReg 3) = some (ported.inReg 3) ∧
    after (.ingressWord 3 d t) ported (fun u => (u.core 0).spd == [(0, 4), (1, 3), (2, 2), (3, 1)] && u.aport.landed == [(3, 0, 0)]) = true ∧
    after (.ingressWord 3 d t) { ported with tbs := [(0, { en := true, value := 10 })] } (fun u => u.aport.waits.length == 1) = true ∧
    after (.ingressWord 3 d t) { ported with tbs := [(0, { en := true, value := 11 })] } (fun u => u.aport.earlyCnt == 1) = true ∧
    after (.ingressWord 3 d t) { ported with groups := [(0, { grp with oldest := 1 })] } (fun u => u.aport.lateCnt == 1) = true ∧
    after (.ingressWord 3 d (t ^^^ 0x8000#16)) ported (fun u => u.aport.parCnt == 1 && (u.hdr 5).raw.getLsbD 0) = true ∧
    after (.ingressWord 4 d t) ported (fun u => u.aport.strayCnt == 1 && (u.hdr 5).raw == 2#32) = true := by decide +kernel

theorem test_stored_and_egress :
    let w : WaitWord := { lane := 3, gid := 0, frame := 0, store := 0, pos := 0, data := 7, rst := false, member := 0, step := 0 }
    let s := { ported with aport := { ported.aport with waits := [w] }, fclk := 16 }
    after (.storedWordLand 3) s (fun u => u.aport.waits == [] && (u.core 0).spd == [(0, 7)]) = true ∧
    gives (.storedWordLand 2) s s = true ∧
    after (.storedWordLand 3) { s with groups := [] } (fun u => u.aport.waits == [] && (u.core 0).spd == []) = true ∧
    (let v := { full with aport := { full.aport with send := [(15, [(9, 1)])] } }
     after (.egressWord 15) v (fun u => u.aport.send == [] && u.aport.out == [(15, (true, 9, 1))] &&
       after (.egressWord 15) u (fun x => x.aport.out == [(15, (false, 9, 1))])) = true) := by decide +kernel

/-- A tile binding 0 of that group on surface 2, four tiles. -/
def tiled : State := { ported with tport := { ported.tport with cfg := [(0, 5#32)], geom := [(0, 0x00300000#32)], refs := [(0, 0x00010001#32)] } }

/-- Witnesses of TileTrafficReachesItsFrames. -/
theorem test_tiles :
    tiled.passFrames 2 0 = [(0, 0, [0])] ∧ tiled.tileCount 0 = 4 ∧
    after (.tileReady 2 0 3) tiled (fun u => u.tport.reads.length == 1 && u.tport.queued == []) = true ∧
    tiled.passFrames 2 1 = [(0, 1, [0])] ∧ after (.tileReady 2 1 3) tiled (fun u => u.tport.queued == [(0, 0, 1, 3)]) = true ∧
    tiled.passFrames 2 9 = [] ∧ after (.tileReady 2 9 3) tiled (fun u => u.tport.strayCnt == 1 && (u.hdr 4).raw == 2#32) = true ∧
    after (.tileResolve 2 9 3) tiled (fun u => u.tport.acks == [(2, 3, false)] && u.tport.noneCnt == 1) = true ∧
    after (.tileAnnounceReserved 2 0 0) tiled (fun u => (u.hdr 4).raw == 1#32) = true ∧
    (let f : Frame := { n := 0, phase := .fired, fire := some 0, tiles := [0] }
     let s := { tiled with groups := [(0, { grp with frames := [f] })] }
     let l := { tiled with groups := [(0, { grp with frames := [{ f with parked := true }] })] }
     after (.tileResolve 2 0 3) s (fun u => u.tport.resolves == [(2, 0, 0, 3)]) = true ∧
     after (.tileResolve 2 0 3) l (fun u => u.tport.acks == [(2, 3, false)]) = true) ∧
    (let t : TileFrame := { n := 0, due := none, ok := false, binds := [0] }
     let s := { tiled with groups := [(0, { grp with oldest := 1, tileFrames := [t] })] }
     s.passFrames 2 0 = [] ∧ after (.tileResolve 2 0 3) s (fun u => u.tport.acks == [(2, 3, false)]) = true) := by decide +kernel

theorem test_tile_reads :
    let r : TileRead := { tag := 63, binding := 0, gid := 0, frame := 0, tile := 0, line := 0 }
    let s := { tiled with tport := { tiled.tport with reads := [r], partials := [(0, 0, 0, 0, 2)] } }
    after (.tileReadData 63 5 .ok) s (fun u => u.tport.reads == [] && (u.core 0).spd == [(0, 5)]) = true ∧
    after (.tileReadData 63 5 .notReady) s (fun u => u.tport.reads == [{ r with retry := true }] && u.tport.notReadyCnt == 1 &&
      after (.tileRetry 63) u (fun v => v.tport.reads == [r])) = true ∧
    after (.tileReadData 63 5 .error) s (fun u => (u.hdr 4).raw == 8#32) = true ∧
    after (.tileReadData 63 5 .reserved) s (fun u => gives (.tileReadData 63 5 .error) s u) = true ∧
    gives (.tileReadData 62 5 .ok) s s = true := by decide +kernel

/-! ### Reset inputs, domains, bring-up -/

/-- The smallest configuration, every domain acknowledged, at a stage. -/
def raised (st : Stage) : State :=
  { full with conf := .raique4, boot := { stage := st }, power := { full.power with pdtReq := true, pdtAck := true }
              packs := [(0, { pdReq := true, pdAck := true })]
              cores := tab 4 fun c => (c, { pdReq := true, pdAck := true, cclk := true }) }

/-- Witnesses of ResetsClearAndTheLastReleaseIsTZero. -/
theorem test_resets :
    after .porstN { ported with fclk := 9 } (fun t => t.groups == [] && !t.running && (t.core 0).pdAck && t.fclk == 0) = true ∧
    after .engRstN { full with tap := ⟨0xFF, 1⟩, glb := { full.glb with pllLock := true } } (fun t =>
      t.tap.ir == 0xFF#8 && t.glb.pllLock && !t.running) = true ∧
    after .trstN { full with tap := ⟨0xFF, 1⟩ } (fun t => t.tap == {}) = true ∧
    after .pllLock full (fun t => t.glb.pllLock) = true ∧
    (let s := { State.reset with boot := { por := true, eng := true }, fclk := 7 }
     after (.resetRelease true false) s (fun t => !t.running && t.fclk == 7) = true ∧
     after (.resetRelease true true) s (fun t => t.running && t.fclk == 0) = true) := by decide +kernel

/-- Witnesses of DomainsArePoweredOneAfterAnother: none exists; an acknowledgement raises the next REQ; a lost core leaves service. -/
theorem test_domains :
    (raised .full).hasDomain (.core 4) = false ∧ gives (.powerDomainAck (.core 4) true) (raised .full) (raised .full) = true ∧
    (let s := { State.reset with conf := .raique4, power := { State.reset.power with pdtReq := true } }
     after (.powerDomainAck .engine true) s (fun t => t.power.pdtAck && (t.pack 0).pdReq && !(t.core 0).pdReq) = true) ∧
    after (.powerDomainAck (.core 3) false) (raised .full) (fun t => (t.hdr 2).raw == 1#32 && !(t.core 3).inService) = true ∧
    after (.powerDomainAck (.core 3) false) { raised .full with boot := { por := true } } (fun t => (t.hdr 2).raw == 0) = true := by
  decide +kernel

/-- Witnesses of EarlyServiceAndHandover. -/
theorem test_bring_up :
    after (.enterEarly []) (raised .rom) (fun t => t.boot.stage == .early && (t.hdr 0).raw == 2#32) = true ∧
    after (.enterEarly [(3, 3, 31, true)]) (raised .rom) (fun t => ((t.core 3).mxa 3).byps == [31]) = true ∧
    after (.enterEarly [(3, 3, 31, false)]) (raised .rom) (fun t => ((t.core 3).mxa 3).byps == [] && (t.core 3).ceCnt == 1) = true ∧
    after (.handover []) (raised .cal) (fun t => t.boot.stage == .full && !t.sd.rom && (t.hdr 0).raw == 4#32) = true := by decide +kernel

/-- Witnesses of TheFirmwareImageIsLoadedAndVerified: LOAD in each stage, and an image that fails its header check. -/
theorem test_firmware :
    after (.fwLoad 1 boss) (raised .rom) (fun t => t.boot.loadHeld && t.boot.stage == .rom) = true ∧
    after (.fwLoad 1 boss) (raised .early) (fun t => t.boot.stage == .verify) = true ∧
    after (.fwLoad 1 boss) (raised .full) (fun t => t.boot.code == 7) = true ∧
    after (.fwVerifyComplete .ok) (raised .verify) (fun t => t.boot.stage == .early && t.boot.attempts == 1 && t.boot.code == 3 && (t.hdr 0).raw == 8#32) = true ∧
    after (.fwVerifyComplete .tgterr) (raised .verify) (fun t => t.boot.code == 2 && (t.hdr 3).raw == 1#32) = true ∧
    (let s := { raised .verify with glb := { full.glb with pf := true } }
     gives (.fwVerifyComplete .ok) s s = true) := by decide +kernel

/-! ### Faults and background checks -/

/-- Witnesses of FaultsAreChargedAndRetireCores: no run, a job, a frame at its first and second fault, a calendar entry, the limit. -/
theorem test_faults :
    after (.uncorrectableFault 0 .acm 5 1) full (fun t => (t.core 0).ueCnt == 1 && (t.core 0).winFaults == 1 &&
      (t.hdr 24).raw == 1#32 && (t.core 0).fltRec.getLsbD 0) = true ∧
    after (.uncorrectableFault 0 .spd 65535 0) full (fun t => (t.core 0).badLines == [65535]) = true ∧
    (let s := (full.updCore 0 fun k => { k with csq := { k.csq with run := .job 7 0 } })
     after (.uncorrectableFault 0 .acm 5 1) { s with jobs := [(7, { stage := .running })] } (fun t => (t.hdr 24).raw == 9#32) = true) ∧
    (let f : Frame := { n := 0, phase := .running, fire := some 0, start := some 0 }
     let s := { ported.updCore 0 (fun k => { k with csq := { k.csq with run := .frame 0 0 0 } }) with
       groups := [(0, { grp with frames := [f] })] }
     after (.uncorrectableFault 0 .acm 5 1) s (fun t => (t.frame? 0 0).map (·.restarts) == some 1) = true ∧
     after (.uncorrectableFault 0 .acm 5 1) { s with groups := [(0, { grp with frames := [{ f with restarts := 1 }] })] } (fun t =>
       (t.leashOf 0).fallbacks == 1) = true) ∧
    (let s := full.updPack 0 fun p => { p with entries := [(511, { (default : CalEntry) with gid := 0 })] }
     after (.uncorrectableFault 0 .calendar 511 0) s (fun t => (t.hdr 16).raw == 0x20#32 &&
       after (.calEntryRewrite 0 511) t (fun u => (u.pack 0).entries.map (·.2.suspended) == [false])) = true) ∧
    (let s := full.updCore 0 fun k => { k with winFaults := 3 }
     ((s.countFault 0).core 0).inService = false) ∧
    after .faultWindowEnd (full.updCore 0 fun k => { k with winFaults := 3 }) (fun t => (t.core 0).winFaults == 0) = true := by
  decide +kernel

/-- Witnesses of ScrubbingCorrectsCountsAndRewrites. -/
theorem test_scrub :
    gives (.spdScrub 0 65535 .clean) full full = true ∧
    after (.spdScrub 0 65535 .corrected) full (fun t => (t.core 0).toWrite == [65535] && (t.core 0).ceCnt == 1 &&
      after (.correctedWriteback ⟨0, none⟩) t (fun u => (u.core 0).toWrite == [])) = true ∧
    after (.spdScrub 0 65535 .uncorrectable) full (fun t => (t.core 0).ueCnt == 1) = true ∧
    after (.acmScrub 0 3 511 .corrected) full (fun t => (t.core 0).toWrite == [65536 + 2047]) = true ∧
    gives (.acmScrub 0 3 511 .clean) full full = true ∧
    gives (.stateBankRewrite 0 5) full full = true ∧
    (let s := full.updCore 0 fun k => { k with lost := [5] }
     after (.stateBankRewrite 0 5) s (fun t => (t.core 0).lost == [] && (t.hdr 24).raw == 4#32) = true) := by decide +kernel

/-- Witnesses of ArrayChecksAndControlFaults. -/
theorem test_arrays :
    after (.weightReadback 0 3 [(1023, 1)]) full (fun t => ((t.core 0).mxa 3).active == [(1023, 1)]) = true ∧
    after (.knownAnswerTest 0 []) (full.updCore 0 fun k => { k with lastFails := [(0, 0)] }) (fun t => (t.core 0).lastFails == []) = true ∧
    after (.knownAnswerTest 0 [(3, 31)]) full (fun t => (t.core 0).lastFails == [(3, 31)] && (t.core 0).ceCnt == 1) = true ∧
    after (.knownAnswerTest 0 [(3, 31)]) (full.updCore 0 fun k => { k with lastFails := [(3, 31)] }) (fun t =>
      ((t.core 0).mxa 3).byps == [31] && (t.core 0).ueCnt == 1) = true ∧
    after (.agingSample 0 4) (full.updCore 0 fun k => { k with ageWarn := 5 }) (fun t => (t.hdr 24).raw == 0x800#32) = true ∧
    after (.agingSample 0 5) (full.updCore 0 fun k => { k with ageWarn := 5 }) (fun t => (t.hdr 24).raw == 0 && (t.core 0).ageCount == 5) = true ∧
    after (.controlRetry 0 true 3) full (fun t => !(t.core 0).inService) = true ∧
    full.messageFrame 0 = none ∧ gives (.controlRetry 0 false 3) full full = true ∧
    after .lockstepMismatch full (fun t => t.sd.restart && (t.hdr 1).raw == 4#32 &&
      after .sheepdogRestartComplete t (fun u => !u.sd.restart)) = true := by decide +kernel

/-! ### Kennel and power failure -/

/-- Kennel with a window of two slots at 0x100000, its persist table at 0x80000, and superblocks in the window. -/
def kenneled : State :=
  let k : Kennel := { win := 0x100000, pt := 0x80000, geom := 0x0C000002#32, fid := 9 }
  ({ full with kennel := k }.hostWrite 0x100000 k.superblock).hostWrite 0x100040 k.superblock

/-- Witnesses of KennelControlEnablesFormatsAndFrees. -/
theorem test_kennel_ctrl :
    full.grants 0x4905C boss = true ∧ kenneled.kennel.geomOk = true ∧ Memory.wf kenneled.host = true ∧
    after (.kennelEnable 1 boss) kenneled (fun t => t.kennel.en && t.kennel.scanning && !t.kennel.active) = true ∧
    after (.kennelEnable 1 boss) full (fun t => t.kennel.lastErr == 1 && !t.kennel.en && (t.hdr 57).raw == 2#32) = true ∧
    after (.kennelEnable 0x101#32 boss) kenneled (fun t => t.kennel.lastErr == 8#32) = true ∧
    after (.kennelEnable 1 boss) (raised .early) (fun t => !t.kennel.en && t.kennel.lastErr == 0) = true ∧
    after (.kennelEnable 0 boss) { kenneled with kennel := { kenneled.kennel with en := true } } (fun t => !t.kennel.en) = true ∧
    after (.format 5 boss .ok) { kenneled with kennel := { kenneled.kennel with en := true } } (fun t => t.kennel.lastErr == 8#32) = true ∧
    after (.freeForeign 9 boss) kenneled (fun t => t.kennel.lastErr == 8#32) = true ∧
    after (.freeForeign 9 boss) { kenneled with kennel := { kenneled.kennel with en := true, active := true, foreign := [1] } }
      (fun t => t.kennel.foreign == []) = true := by decide +kernel

/-- Witnesses of KennelScansSnapshotsAndWritesRecords: the scan of a matching and of a strange window, and of one that cannot be read. -/
theorem test_kennel_scan :
    let s := { kenneled with kennel := { kenneled.kennel with scanning := true } }
    let z := { s with host := [] }
    s.superMatches = true ∧ after (.kennelScan .ok) s (fun t => t.kennel.active && (t.hdr 57).raw.getLsbD 0) = true ∧
    z.superMatches = false ∧ after (.kennelScan .ok) z (fun t => !t.kennel.active && t.kennel.lastErr == 2#32) = true ∧
    after (.kennelScan .notgt) s (fun t => t.kennel.lastErr == 7#32 && (t.hdr 3).raw == 1#32) = true := by decide +kernel

theorem test_kennel_records :
    let w : RecWrite := { stream := 3, pid := 7, slot := 1, seq := 5, frame := 2, layout := 0, header := [1, 2], payload := [], half := 0 }
    let s := { kenneled with kennel := { kenneled.kennel with active := true, writing := some w, verify := false } }
    let v := { kenneled with kennel := { kenneled.kennel with active := true, writing := some w } }
    after (.kennelHeaderAck .ok true) s (fun t => t.kennel.writing.isNone && (t.kennel.info 7).live == some 1 &&
      t.hostByte (s.kennel.slotAddr 1 + 1) == 2) = true ∧
    after (.kennelHeaderAck .ok false) v (fun t => t.kennel.retired == [1] && (t.hdr 57).raw.getLsbD 2) = true ∧
    (let n := { kenneled with kennel := { kenneled.kennel with active := true } }
     n.nextSnap = none ∧ gives (.kennelRecordWrite .ok) n n = true) := by decide +kernel

theorem test_kennel_snapshot :
    let p : Persist := { pid := 7, cadence := 1, replay := false, layout := 0, stage := 0x40000, len := 0, gid := 0, member := 0, want := true }
    let s := { ported with kennel := { kenneled.kennel with active := true, persist := [(0, p)] } }
    s.badSlotLine grp 0 = none ∧ after (.kennelSnapshot 0) s (fun t => t.kennel.persist.map (·.2.half) == [1] &&
      t.kennel.snaps.map (·.1) == [0]) = true := by decide +kernel

/-- Witnesses of PowerFailureEndsWithPfDone. -/
theorem test_power_fail :
    after .pfNotice full (fun t => t.glb.pf && gives .pfNotice t t && gives (.frameFire 0) t t) = true ∧
    (let s := { full with glb := { full.glb with pf := true } }
     s.framesLeft = false ∧ gives .pfDone s s = true ∧
     after (.pfFinalRecords .ok) s (fun t => t.kennel.finals &&
       after .pfDone t (fun u => u.kennel.pfDone && (u.hdr 57).raw == 0x20#32)) = true ∧
     (let u := { ported with glb := s.glb, groups := [(0, { grp with frames := [{ n := 0, phase := .running, fire := some 0 }] })] }
      u.framesLeft = true ∧ gives (.pfFinalRecords .ok) u u = true) ∧
     after (.pfFinalRecords .ok) { kenneled with glb := s.glb, kennel := { kenneled.kennel with active := true } }
       (fun t => t.kennel.finals) = true) := by decide +kernel

/-! ### Frames -/

/-- The group with frame 0 closed at FCLK 0, its program in the scratchpad (one slot, one END at word 1) and its calendar entry. -/
def framed (f : Frame) : State :=
  { ported with
    groups := [(0, { grp with frames := [f], nextClose := 1 })]
    cores := [(0, { pdAck := true, cclk := true, handles := [(1, 0x0007000000000001#64), (2, 0x0007000800000001#64)]
                    spd := [(512 + 8, 1), (512 + 32, 1)] })]
    packs := [(0, { pdAck := true, pdReq := true,
                    entries := [(0, { next := 0, p := 10, drel := 1000, wres := 0, gid := 0, lag := 0, cores := 1, ctl := 0, xctl := 0, budget := 1 })] })]
    fclk := 8 }

/-- Frame 0, closed at FCLK 0. -/
def f0 : Frame := { n := 0, close := some 0 }

/-- Witness of FramesAreScheduledByDeadline: the calendar picks by deadline, then by entry; no deadline goes last. -/
theorem test_first_waiter :
    firstWaiter [⟨1, 0, none, 0⟩, ⟨2, 0, some 9, 5⟩, ⟨3, 0, some 9, 4⟩, ⟨4, 0, some 10, 1⟩] = some ⟨3, 0, some 9, 4⟩ ∧
    firstWaiter [] = none := by decide

theorem test_fire :
    (framed f0).dueToFire 0 ≠ [] ∧ (framed f0).peer.inc = none ∧
    after (.frameFire 0) (framed f0) (fun t => (t.frame? 0 0).map (·.phase) == some .fired &&
      (t.pack 0).entries.map (·.2.budget) == [0] && (t.pack 0).entries.map (·.2.next) == [10] && (t.pack 0).calFires == 1 &&
      (t.hdr 16).raw.getLsbD 4) = true ∧
    gives (.frameFire 0) (framed { f0 with phase := .finished }) (framed { f0 with phase := .finished }) = true ∧
    (let s := (framed f0).updPack 0 fun p => { p with entries := p.entries.map fun e => (e.1, { e.2 with budget := 0 }) }
     after (.frameFire 0) s (fun t => (t.frame? 0 0).map (·.noBudget) == some true) = true) ∧
    (let s := (framed f0).updGroup 0 fun g => { g with parked := some .software }
     after (.frameFire 0) s (fun t => (t.frame? 0 0).map (·.parked) == some true) = true) ∧
    (let s := (framed f0).updGroup 0 fun g => { g with prefire := true, frames := [] }
     s.dueToFire 0 = [] ∧ s.prefireDue 0 ≠ [] ∧ after (.prefireFire 0) s (fun t => (t.frame? 0 0).map (·.phase) == some .fired) = true) := by
  decide +kernel

/-- Witness of FiredFramesStartOnTheirCores, at the first instruction after the header. -/
theorem test_start :
    after (.frameStart 0) (framed { f0 with phase := .fired, fire := some 3 }) (fun t =>
      (t.frame? 0 0).map (·.phase) == some .running && (t.core 0).csq.run == .frame 0 0 0 && (t.core 0).csq.pc == 1 &&
        (t.core 0).csq.steps == 1) = true ∧
    (framed f0).startable 0 = [] ∧ gives (.frameStart 0) (framed f0) (framed f0) = true := by decide +kernel

/-- Frame 0 running on core 0, its slot ended or not. -/
def runningFrame (ended : Bool) (pc : Nat) : State :=
  (framed { f0 with phase := .running, fire := some 3, start := some 4 }).updCore 0 fun k =>
    { k with csq := { k.csq with run := .frame 0 0 0, prog := 2, pc := pc, ended := ended, steps := 1 } }

/-- Witnesses of EndedFramesAreCollectedAndCommitted. -/
theorem test_commit :
    after (.endCollection 0) (runningFrame true 1) (fun t => (t.frame? 0 0).map (·.phase) == some .ready) = true ∧
    gives (.endCollection 0) (runningFrame false 1) (runningFrame false 1) = true ∧
    after (.frameCommit 0) (runningFrame true 1) (fun t => t.tele.frames == 1 && (t.core 0).csq.run == .idle &&
      (t.leashOf 0).frames == 1 && (t.group? 0).map (·.oldest) == some 1) = true ∧
    (runningFrame false 1).committable 0 ((runningFrame false 1).groups.getD 0 (0, {})).2 = none ∧
    gives (.frameCommit 0) (runningFrame false 1) (runningFrame false 1) = true := by decide +kernel

/-- Witnesses of DeadlinesReleaseTheFallbackOnce, by how far the frame has come at CCLK 2,000. -/
theorem test_deadline :
    let late (s : State) : State := { s with fclk := 1000 }
    gives (.frameDeadline 0) (framed f0) (framed f0) = true ∧
    after (.frameDeadline 0) (late (framed { f0 with parked := true })) (fun t => (t.leashOf 0).parked == 1 && t.tele.fallbacks == 1) = true ∧
    after (.frameDeadline 0) (late (framed { f0 with noBudget := true })) (fun t => (t.leashOf 0).miss == [(5, 1)]) = true ∧
    after (.frameDeadline 0) (late (framed f0)) (fun t => (t.leashOf 0).skips == 1 && (t.leashOf 0).miss == [(1, 1)] &&
      (t.pack 0).entries.map (·.2.next) == [10]) = true ∧
    after (.frameDeadline 0) (late (runningFrame false 1)) (fun t => (t.frame? 0 0).map (·.late) == some true &&
      t.tele.fallbacks == 1 && gives (.frameDeadline 0) t t) = true := by decide +kernel

/-- Witnesses of BudgetsWindowsAndStandbyMoves. -/
theorem test_budgets :
    after (.budgetRestore 0) (framed f0) (fun t => (t.pack 0).entries.map (·.2.budget) == [256]) = true ∧
    after (.governorWindow true) { full with power := { full.power with dlPower := 100 } } (fun t => t.power.grant == 59900 &&
      t.power.throttle == 1 && (t.hdr 2).raw == 2#32 && after (.governorWindow true) t (fun u => u.power.throttle == 2)) = true ∧
    after .traceLostRecord { full with traceGap := 70000 } (fun t => t.traceGap == 0 && t.trace.map (·.id) == [65535]) = true ∧
    gives .traceLostRecord full full = true ∧
    (let s := { ported with groups := [(0, { grp with moves := [(0, 1)], movable := true })] }
     after (.standbyMove 0) s (fun t => (t.group? 0).map (·.cores) == some [1] && (t.group? 0).map (·.movable) == some false) = true) ∧
    gives (.standbyMove 0) ported ported = true := by decide +kernel

/-! ### Jobs -/

/-- A job of ring 5 on core 0: one slot, the program of `framed`. -/
def jobbed (j : Job) (run : Run) : State :=
  { framed f0 with
    groups := []
    jobs := [(5, { j with slots := [⟨0, 2, 0x9000⟩] })]
    rings := [(5, { st := .active, queue := [{ seq := 0, w := 1, met := true, started := true }] })]
    cores := [(0, { ((framed f0).core 0) with csq := { run := run, prog := 2, pc := 1 } })] }

/-- Witnesses of ReadyJobsStartOnFreeCores. -/
theorem test_job_start :
    (jobbed {} .idle).jobsRun = true ∧ (jobbed {} .idle).jobToStart 0 = some 5 ∧
    after (.jobStart 0) (jobbed {} .idle) (fun t => (t.core 0).csq.run == .job 5 0 && (t.job? 5).map (·.stage) == some .running) = true ∧
    gives (.jobStart 1) (jobbed {} .idle) (jobbed {} .idle) = true ∧
    (let s := { jobbed {} .idle with boot := { stage := .cal } }
     s.jobsRun = false ∧ gives (.jobStart 0) s s = true) := by decide +kernel

/-- Witnesses of JobsAreDisplacedAndResume: the timer, the point, displacement and resumption, parking, abort and power failure. -/
theorem test_preemption :
    let s := jobbed { stage := .running } (.job 5 0)
    let p := s.updCore 0 fun k => { k with preempt := true }
    let g := { grp with start := true, frames := [{ f0 with phase := .fired, fire := some 3 }] }
    let q := { s with groups := [(0, g)] }
    q.startPending 0 = true ∧ q.lstPassed 0 = true ∧ after (.preemptLstTimer 0) q (fun t => (t.core 0).preempt) = true ∧
    gives (.preemptLstTimer 0) s s = true ∧ gives (.preemptionPoint ⟨0, .ok⟩) s s = true ∧
    after (.preemptionPoint ⟨0, .ok⟩) p (fun t => (t.job? 5).map (·.stage) == some .displaced && (t.core 0).csq.run == .idle &&
      after (.jobResume ⟨5, .ok⟩) t (fun u => (u.core 0).csq.run == .job 5 0 && (u.core 0).csq.pc == 1)) = true ∧
    after (.preemptionPoint ⟨0, .ok⟩) { p with glb := { full.glb with pf := true } } (fun t => t.jobs == [] && t.host == []) = true ∧
    gives (.jobResume ⟨5, .ok⟩) s s = true := by decide +kernel

theorem test_park_and_abort :
    after (.preemptionPoint ⟨0, .ok⟩) (jobbed { stage := .running, parking := some .parkedRes } (.job 5 0)) (fun t =>
      (t.job? 5).map (·.stage) == some .parkedRes) = true ∧
    after (.preemptionPoint ⟨0, .ok⟩) (jobbed { stage := .running, abortAt := some 0 } (.job 5 0)) (fun t => t.jobs == [] &&
      ((t.ring 5).queue.head?.bind (·.done)).map (·.status) == some 0x42) = true := by decide +kernel

/-! ### Rings and descriptors -/

/-- A program of one slot and the instruction words given, with its header (R161). -/
def image (code : List Byte) : List Byte :=
  let h : List Byte := [0, 1, 1, 0] ++ toBytes 2 (code.length / 32) ++ [0, 0, 1] ++ List.replicate 19 0
  h ++ toBytes 4 (crc32c ((h ++ code).map BitVec.toNat)) ++ code

/-- A 32-byte instruction that begins with the bytes given. -/
def ins (b : List Byte) : List Byte := b ++ List.replicate (32 - b.length) 0

/-- A descriptor with opcode and the bytes 32 on given as a number, at the head of ring 5 of a class, its wait met. -/
def headed (cls opc body : Nat) : State :=
  { full with rings := [(5, { st := .active, cls := cls, queue := [{ seq := 0, w := opc + body * 2 ^ 256, met := true }] })] }

/-- The status that the head of ring 5 has. -/
def status (t : State) : Option Nat := ((t.ring 5).queue.head?.bind (·.done)).map (·.status)

/-- Witnesses of RingsAndDoorbells: doorbells at ring 4095 of each refusal, creation and destruction. -/
theorem test_doorbells :
    let s := { full with rings := [(4095, { st := .active, cls := 1, ctx := 5 })] }
    after (.dbLo 4095 8 user) s (fun t => (t.ring 4095).staged == 8 &&
      after (.dbHi 4095 0 user) t (fun u => (u.ring 4095).tail == 8) &&
      after (.dbHi 4095 0x80000000#32 user) t (fun u => u.cfgResp == (1, 0) && u.sd.dbRej == 0x5FFF5#32 && (u.hdr 1).raw == 1#32)) = true ∧
    after (.dbLo 4095 9 user) s (fun t => after (.dbHi 4095 0 user) t (fun u => u.sd.dbRej == 0x5FFF7#32)) = true ∧
    after (.dbHi 4095 0 ⟨false, false, 6, 0⟩) s (fun u => u.sd.dbRej == 0x6FFF3#32) = true ∧
    after (.dbHi 4095 0 user) full (fun u => u.sd.dbRej == 0x5FFF1#32) = true := by decide +kernel

theorem test_rings :
    let r : List Byte := [0, 1, 0, 1, 1, 0, 0, 0, 3] ++ List.replicate 7 0 ++ toBytes 8 0x2000 ++ toBytes 8 0x3000
    let s := { full with sd := { full.sd with recLo := 0x1000 }, host := Mem.write [] 0x1000 r }
    let gone := { full with rings := [(5, { st := .stopped })] }
    after (.create 5 boss .ok) s (fun t => (t.ring 5).st == .active && (t.ring 5).descBase == 0x2000 && t.sd.ringStat == 0x500#32) = true ∧
    after (.create 5 boss .ok) gone (fun t => t.sd.ringStat == 0x510#32) = true ∧
    after (.create 5 boss .ok) full (fun t => t.sd.ringStat == 0x540#32) = true ∧
    after (.destroy 5 boss) full (fun t => t.sd.ringStat == 0x520#32) = true ∧
    after (.destroy 5 boss) (headed 1 0 0) (fun t => t.sd.ringStat == 0x560#32) = true ∧
    after (.destroy 5 boss) gone (fun t => t.rings == [] && t.sd.ringStat == 0x500#32 && (t.hdr 1).raw == 8#32) = true := by decide +kernel

/-- Witnesses of DescriptorsAreFetchedAcceptedAndCompleted: fetch, acceptance with the statuses of R289, expiry, completion. -/
theorem test_descriptors :
    let s := { full with rings := [(5, { st := .active, cls := 1, tail := 9, queue := [{ seq := 7, w := 0 }] })] }
    let inbox (w : Nat) : State := s.updRing 5 fun x => { x with inbox := [(8, w, false)] }
    let last (t : State) : Option (Option Nat) := (t.ring 5).queue.getLast?.map fun d => d.done.map (·.status)
    full.nextRing = none ∧ gives .descriptorFetch full full = true ∧
    s.nextRing = some 5 ∧ after .descriptorFetch s (fun t => (t.ring 5).burst == some (0, 8, 8, [])) = true ∧
    after (.descriptorAccept 5 .ok) (inbox 0x03) (fun t => last t == some (some 0x43)) = true ∧
    after (.descriptorAccept 5 .ok) (inbox 0x20) (fun t => last t == some (some 0x44)) = true ∧
    after (.descriptorAccept 5 .ok) (inbox (2 ^ 47)) (fun t => last t == some (some 0x45)) = true ∧
    after (.descriptorAccept 5 .ok) (inbox (2 ^ 256)) (fun t => last t == some (some 0x43)) = true ∧
    after (.descriptorAccept 5 .ok) (inbox 0x14) (fun t => last t == some (some 0x46)) = true ∧
    after (.descriptorAccept 5 .ok) (inbox 0) (fun t => last t == some none) = true := by decide +kernel

theorem test_expiry_and_completion :
    let d : Desc := { seq := 7, w := 2 ^ 47 + 2 ^ 192, due := some 0 }
    let s := { full with rings := [(5, { st := .active, cls := 1, log2n := 3, completed := 7, cmplBase := 0x3000, queue := [d] })], fclk := 2000000 }
    let c := s.updRing 5 fun x => { x with queue := [{ d with done := some { status := 0x41 } }] }
    d.waits = true ∧ d.expiry ≤ s.fclk ∧ after (.waitTimeout 5) s (fun t => status t == some 0x41) = true ∧
    gives (.waitTimeout 5) { s with fclk := 0 } { s with fclk := 0 } = true ∧
    after (.completion 5) c (fun t => (t.ring 5).completed == 8 && (t.ring 5).queue == []) = true ∧
    gives (.completion 5) full full = true := by decide +kernel

/-- Witnesses of HeadCommandsRunAndComplete and of the rows of another command. -/
theorem test_head_commands :
    let s := headed 1 0x00 0
    after (.descNop 5) s (fun t => status t == some 0) = true ∧
    gives (.job 5) s s = true ∧ gives (.reserve 5 .ok) s s = true ∧ gives (.arm 5 .ok) s s = true ∧ gives (.armAfterScan 5 .ok) s s = true ∧
    gives (.release 5) s s = true ∧ gives (.query 5 .ok) s s = true ∧ gives (.reclaim 5) s s = true ∧ gives (.stop 5) s s = true ∧
    gives (.abort 5) s s = true ∧ gives (.quiesce 5) s s = true ∧ gives (.fenceInit 5) s s = true := by decide +kernel

theorem test_control_commands :
    after (.job 5) (headed 0 0x01 0) (fun t => t.jobs.map (·.1) == [5] && (t.ring 5).queue.map (·.started) == [true]) = true ∧
    after (.fenceInit 5) (headed 1 0x15 (4095 + 7 * 2 ^ 16 + 9 * 2 ^ 64)) (fun t => t.fences.map (fun e => (e.1, e.2.value, e.2.ctx)) == [(4095, 9#64, 7#16)] && status t == some 0) = true ∧
    after (.resume 5) { headed 2 0x22 6 with rings := (headed 2 0x22 6).rings ++ [(6, { st := .stopped })] } (fun t =>
      (t.ring 6).st == .active && status t == some 0) = true ∧
    after (.park 5) { headed 2 0x24 0 with groups := [(0, grp)] } (fun t => (t.group? 0).map (·.parked) == some (some .software)) = true ∧
    after (.unpark 5) { headed 2 0x25 0 with groups := [(0, { grp with parked := some .program })] } (fun t =>
      (t.group? 0).map (·.parked) == some none && status t == some 0) = true := by decide +kernel

/-- Witnesses of StopAbortQuiesceAndRelease. -/
theorem test_stop_abort :
    let two (s : State) (x : Ring) : State := { s with rings := s.rings ++ [(6, x)] }
    after (.stop 5) (two (headed 2 0x20 6) { st := .active }) (fun t => (t.ring 6).st == .stopped && status t == some 0) = true ∧
    after (.stop 5) (two (headed 2 0x20 6) { st := .active, burst := some (0, 1, 1, []) }) (fun t => (t.ring 6).st == .changing &&
      status t == none) = true ∧
    after (.abort 5) (two (headed 2 0x21 6) { st := .active, queue := [{ seq := 0, w := 0 }] }) (fun t =>
      (t.ring 6).queue.map (fun d => d.done.map (·.status)) == [some 0x42]) = true ∧
    after (.quiesce 5) (two (headed 2 0x23 9) { st := .active, ctx := 9 }) (fun t => (t.ring 6).st == .stopped && status t == some 0) = true := by
  decide +kernel

theorem test_release :
    after (.release 5) (headed 1 0x12 0) (fun t => status t == some 0x46) = true ∧
    after (.release 5) { headed 1 0x12 0 with groups := [(0, { grp with stage := .reserved })] } (fun t => t.groups == [] && status t == some 0) = true ∧
    after (.release 5) { headed 1 0x12 0 with groups := [(0, grp)] } (fun t => (t.group? 0).map (·.stage) == some .releasing &&
      gives (.groupReleaseEffect 0) t t &&
      after (.groupReleaseEffect 0) (t.updGroup 0 fun g => { g with freeable := true }) (fun u => u.groups == [] && status u == some 0) &&
      after (.groupReleaseEffect 0) (t.updGroup 0 fun g => { g with parked := some .software }) (fun u => u.groups == [])) = true ∧
    gives (.groupReleaseEffect 0) ported ported = true := by decide +kernel

/-- A tick-mode group record at 0x1000, its program of one END at 0x2000, a free-running time base, and the program's copy in core 0. -/
def admitting (opc body : Nat) : State :=
  let img := image (ins [1])
  let r : List Byte := [0, 1, 0, 0, 1, 0, 1, 0] ++ toBytes 4 10000 ++ toBytes 4 1000000 ++ [1, 0, 0, 0] ++ toBytes 4 64 ++ toBytes 8 0x2000
    ++ List.replicate 32 0 ++ toBytes 8 0 ++ toBytes 8 5
  { (headed 1 opc body).updCore 0 (fun k => { k with handles := [(2, 0x0007000800000001#64)], spd := Mem.write [] 512 img }) with
    tbs := [(0, { en := true, src := 4, nom := 48000 })]
    host := Mem.write (Mem.write [] 0x1000 r) 0x2000 img }

/-- Witnesses of GroupsAreReservedAndArmed: a record that is not there, one that is admitted, and its arming. -/
theorem test_reserve :
    after (.reserve 5 .ok) (headed 1 0x10 0x1000) (fun t => ((t.ring 5).queue.head?.bind (·.done)).map (fun c => (c.status, c.pstat)) == some (0x40, 1)) = true ∧
    after (.reserve 5 .tgterr) (headed 1 0x10 0x1000) (fun t => status t == some 0x48 && (t.hdr 3).raw == 1#32) = true ∧
    after (.reserve 5 .ok) (admitting 0x10 0x1000) (fun t => status t == some 0 && (t.group? 0).map (fun g => (g.stage, g.pack, g.cores, g.p)) ==
      some (.reserved, 0, [0], 10000)) = true := by decide +kernel

theorem test_arm :
    after (.arm 5 .ok) (headed 1 0x11 0) (fun t => ((t.ring 5).queue.head?.bind (·.done)).map (fun c => (c.status, c.pstat)) == some (0x40, 0x0D)) = true ∧
    after (.reserve 5 .ok) (admitting 0x10 0x1000) (fun t =>
      let u := t.updRing 5 fun x => { x with queue := [{ seq := 1, w := 0x11 + 2 * 2 ^ (8 * 36), met := true }] }
      after (.arm 5 .ok) u (fun v => status v == some 0 && (v.group? 0).map (fun g => (g.stage, g.nextClose)) == some (.armed, 0) &&
        (v.pack 0).entries.map (fun e => (e.1, e.2.next, e.2.p, e.2.budget)) == [(0, 5, 10000, 256)])) = true := by decide +kernel

/-- Witnesses of QueriesReclaimsAndObjectRecords. -/
theorem test_query_reclaim :
    after (.query 5 .ok) (headed 1 0x13 0) (fun t => status t == some 0x46) = true ∧
    after (.query 5 .ok) { headed 1 0x13 (0x4000 * 2 ^ 64) with groups := [(0, grp)], leash := [(0, { frames := 3, slackMin := 7 })] } (fun t =>
      status t == some 0 && t.hostByte 0x4000 == 3 && t.hostByte 0x4008 == 7 && (t.leashOf 0).slackMin == 0x7FFFFFFF#32) = true ∧
    after (.reclaim 5) ((headed 1 0x14 (4 * 256)).updCore 0 fun k => { k with handles := [(4, 1#64)] }) (fun t =>
      status t == some 0 && (t.core 0).handles == [(4, 0x101#64)]) = true ∧
    (let s := { headed 1 0x14 (4 * 256) with sd := { full.sd with refs := [(objIdx 0 4, 1)] } }
     after (.reclaim 5) s (fun t => status t == some 0x49) = true) ∧
    gives (.objectRecord 8191 .ok) full full = true ∧
    (let s := { full with sd := { full.sd with freed := [8191], objNotify := 0x8007#32 } }
     after (.objectRecord 8191 .ok) { s with rings := [(7, { st := .active, cls := 3 })] } (fun t => t.sd.freed == [] && (t.ring 7).produced == 1) = true ∧
     after (.objectRecord 8191 .notgt) s (fun t => t.sd.freed == [] && (t.hdr 3).raw == 1#32) = true) := by decide +kernel

/-! ### Task instructions -/

/-- Bytes as scratchpad cells from address `a` on, zeros left out. -/
def cells (a : Nat) (bs : List Byte) : Sparse Byte := (bs.zipIdx.filter fun x => x.1 != 0).map fun x => (a + x.2, x.1)

/-- A valid handle entry of context 0: layout, element format, base line and line count less one. -/
def buf (layout fmt base len : Nat) : DWord := dword (1 + 4 * layout + 16 * fmt + base * 2 ^ 32 + len * 2 ^ 48)

/-- A core that runs the instructions given, its program counter at word 1: program handle 2 at line 8; buffers 3 and 4 for inputs,
5 for the output, 6 for a descriptor, 7 for a slot list, 8 a state slot, 9 and 10 further inputs, with the bytes given. -/
def coreOf (run : Run) (code : List (List Byte)) (data : Sparse Byte) : Core :=
  { pdAck := true, cclk := true
    handles := [(2, buf 0 0 8 15), (3, buf 0 0 32 0), (4, buf 0 0 40 7), (5, buf 0 0 48 0), (6, buf 0 0 50 1), (7, buf 0 0 52 0),
                (8, buf 3 0 54 2), (9, buf 0 0 58 0), (10, buf 0 0 60 0)]
    spd := cells 512 (image (code.flatMap ins)) ++ data
    csq := { run := run, prog := 2, pc := 1, steps := 1 } }

/-- The core running the job at the head of ring 5. -/
def jobOf (code : List (List Byte)) (data : Sparse Byte) : State :=
  { full with
    jobs := [(5, { stage := .running, slots := [⟨0, 2, 0x9000⟩] })]
    rings := [(5, { st := .active, queue := [{ seq := 0, w := 1, met := true, started := true }] })]
    cores := [(0, coreOf (.job 5 0) code data), (1, { pdAck := true, cclk := true })]
    hqs := [(63, { en := true })] }

/-- The core running frame 0 of group 0. -/
def frameOf (code : List (List Byte)) (data : Sparse Byte) : State :=
  { framed { f0 with phase := .running, fire := some 3, start := some 4 } with
    cores := [(0, coreOf (.frame 0 0 0) code data), (1, { pdAck := true, cclk := true })]
    hqs := [(63, { en := true })] }

/-- The hypotheses of the statements on issued instructions. -/
def issued (s : State) (c : Nat) (o : Op) : Bool :=
  s.canIssue c && (s.vctx c).inside && IWord.opc (s.vctx c).w == some o && s.earlierDone c o && s.preIssue (s.vctx c) o == .go

/-- `n` bytes of core 0's scratchpad as a number. -/
def spdN (s : State) (a n : Nat) : Nat := ofBytes (tab n fun i => (s.core 0).spd.byte (a + i))

/-- Witnesses of ControlInstructionsActAtIssue. -/
theorem test_nop_end :
    (let s := jobOf [[0]] []
     issued s 0 .nop = true ∧ after (.nop 0) s (fun t => (t.core 0).csq.pc == 2) = true) ∧
    (let s := frameOf [[1]] []
     issued s 0 .endOp = true ∧ (s.core 0).csq.remote = 0 ∧ after (.endSlot 0) s (fun t => (t.core 0).csq.ended) = true) ∧
    (let s := jobOf [[1]] []
     issued s 0 .endOp = true ∧ Sparse.rising s.jobs = true ∧ after (.endSlot 0) s (fun t => (t.job? 5).isNone && status t == some 0) = true) := by
  decide +kernel

/-- A taken backward branch, one whose count is spent, and forward ones: always, and SUM of SR_0 equal to 2.0. -/
theorem test_branch :
    let back : List Byte := [0x52, 0x80, 0, 0, 0, 0, 0, 0, 0xFF, 0xFF, 1, 0]
    let s := (jobOf [[0], back] []).updCore 0 fun k => { k with csq := { k.csq with pc := 2 } }
    let eq : List Byte := [0x52, 0, 0, 0, 0, 0, 0, 0x40, 1, 0, 0, 0]
    issued s 0 .branch = true ∧
    after (.branch 0) s (fun t => (t.core 0).csq.pc == 1 && (t.core 0).csq.branches == [(2, 1)]) = true ∧
    after (.branch 0) (s.updCore 0 fun k => { k with csq := { k.csq with branches := [(2, 1)] } })
      (fun t => (t.core 0).csq.pc == 3 && (t.core 0).csq.branches == []) = true ∧
    (let f := jobOf [eq, [0]] []
     issued f 0 .branch = true ∧ after (.branch 0) f (fun t => (t.core 0).csq.pc == 2) = true ∧
     after (.branch 0) (jobOf [[0x52, 0, 0, 0, 0, 0, 0, 0x40, 2, 0, 0, 0], [0], [0]] []) (fun t => (t.core 0).csq.pc == 2) = true ∧
     after (.branch 0) ((jobOf [[0x52, 0, 0, 0, 0, 0, 0, 0x40, 2, 0, 0, 0], [0], [0]] []).updCore 0 fun k =>
       { k with csq := { k.csq with srs := [(0, { sum := 0x40000000#32 })] } }) (fun t => (t.core 0).csq.pc == 3) = true) := by
  decide +kernel

/-- SUMMARY copies SR_0 to SR_1 and stores it at byte 16; SIGNAL adds 2 to CNT_15. -/
theorem test_summary_signal :
    (let s := (jobOf [[0x53, 0xA0, 0, 0, 5, 0, 1, 0]] []).updCore 0 fun k =>
        { k with csq := { k.csq with srs := [(0, { sum := 0x40000000#32, max := 0x3F800000#32, count := 7, anyNan := true })] } }
     issued s 0 .summary = true ∧ after (.summary 0) s (fun t =>
       spdN t (64 * 48 + 16) 16 == 0x40000000 + 0x3F800000 * 2 ^ 32 + 7 * 2 ^ 64 + 2 ^ 96 && ((t.core 0).sr 1).count == 7 &&
         (t.core 0).csq.pc == 2) = true) ∧
    (let s := jobOf [[0x51, 0, 0, 0, 15, 2]] []
     issued s 0 .signal = true ∧ after (.signalCnt 0) s (fun t => (t.job? 5).map (·.cnts) == some [(15, 2)]) = true) := by
  decide +kernel

/-- Witnesses of WaitsQueuesAndMoves: waits met and not yet met, expiry one unit after they began, and the queue at its last number. -/
theorem test_wait :
    let s (v : Byte) : State := jobOf [[0x50, 0, 0, 0, 0, 0, v, 0, 1, 0]] []
    let w := (s 1).updCore 0 fun k => { k with csq := { k.csq with waiting := some 8 } }
    issued (s 0) 0 .wait = true ∧ (s 0).arrived 0 ((s 0).vctx 0).w = true ∧ after (.waitCnt 0) (s 0) (fun t => (t.core 0).csq.pc == 2) = true ∧
    issued (s 1) 0 .wait = true ∧ (s 1).arrived 0 ((s 1).vctx 0).w = false ∧
    after (.waitCnt 0) (s 1) (fun t => (t.core 0).csq.pc == 1 && (t.core 0).csq.waiting == some 0) = true ∧
    gives (.syncTimeout 0) { w with fclk := 39 } { w with fclk := 39 } = true ∧
    after (.syncTimeout 0) { w with fclk := 40 } (fun t => status t == some 0x12 &&
      ((t.ring 5).queue.head?.bind (·.done)).map (·.offset) == some 32) = true := by decide +kernel

theorem test_queues :
    let push : List (List Byte) := [[0x41, 0, 0, 0, 3, 0, 9, 0, 63, 0, 1, 0]]
    let pop : List (List Byte) := [[0x42, 0, 0, 0, 0, 0, 0, 0, 63, 0, 3] ++ List.replicate 17 0 ++ [1]]
    let tok : DWord := dword (3 + 9 * 2 ^ 24)
    let fill (n : Nat) (s : State) : State := { s with hqs := [(63, { en := true, tokens := List.replicate n tok })] }
    issued (jobOf push []) 0 .qpush = true ∧
    after (.qpush 0) (jobOf push []) (fun t => (t.hq 63).tokens == [tok] && (t.hq 63).seq == 1 && (t.core 0).csq.pc == 2) = true ∧
    after (.qpush 0) (fill 16 (jobOf push [])) (fun t => (t.hq 63).tokens.length == 16 && (t.core 0).csq.pc == 1) = true ∧
    issued (frameOf push []) 0 .qpush = true ∧
    after (.qpush 0) (frameOf push []) (fun t => (t.hq 63).tokens == [] && (t.hq 63).rsv == 1 &&
      (t.frame? 0 0).map (·.pushed) == some [(63, tok)]) = true ∧
    issued (jobOf pop []) 0 .qpop = true ∧ after (.qpop 0) (jobOf pop []) (fun t => (t.core 0).csq.pc == 1) = true ∧
    after (.qpop 0) (fill 2 (jobOf pop [])) (fun t => (t.hq 63).tokens == [tok] && (t.core 0).csq.tokens == [(3, tok)]) = true ∧
    after (.qpop 0) (fill 1 (frameOf pop [])) (fun t => (t.hq 63).tokens == [] && (t.frame? 0 0).map (·.popped) == some [(63, tok)]) = true := by
  decide +kernel

/-- A MOVE of two rows of two bytes; one into Collar 15 of core 1; from a token, held and empty. -/
theorem test_move :
    let row : List Byte := [2, 0, 2, 0] ++ toBytes 4 1 ++ toBytes 4 0 ++ toBytes 4 4 ++ toBytes 4 2
    let here := jobOf [[0x40, 0, 0, 0, 3, 0, 5, 0] ++ row] (cells (64 * 32) [1, 2, 3, 4, 5, 6, 7])
    let away := jobOf [[0x40, 0, 0, 0, 3, 0, 0, 0] ++ row ++ toBytes 2 (8 + 16 * 1 + 512 * 15)] (cells (64 * 32) [1, 2, 3])
    let far := (jobOf [[0x40, 0, 0, 0, 0, 0, 5, 0] ++ row ++ toBytes 2 1] []).updCore 1 fun k =>
      { k with handles := [(3, buf 0 0 32 0)] }
    issued here 0 .move = true ∧ after (.move 0) here (fun t => spdN t (64 * 48) 5 == 0x0007060302 && (t.core 0).csq.pc == 2) = true ∧
    issued away 0 .move = true ∧ after (.move 0) away (fun t => t.rwrites.map (fun m => (m.dest, m.collar, m.rows)) ==
      [(1, 15, [(0, [2, 3]), (2, [0, 0])])] && (t.core 0).csq.remote == 1) = true ∧
    issued far 0 .move = true ∧ after (.move 0) far (fun t => status t == some 0x05) = true ∧
    after (.move 0) (far.updCore 0 fun k => { k with csq := { k.csq with tokens := [(0, dword (3 + 65536))] } })
      (fun t => (t.core 0).csq.rread.isSome && (t.core 0).csq.pc == 1) = true := by decide +kernel

/-- Witnesses of InstructionsIssueWaitFailOrFault. -/
theorem test_issue :
    let s := jobOf [[0]] []
    let r := (jobOf [[1]] []).updCore 0 fun k => { k with csq := { k.csq with remote := 1 } }
    gives (.endSlot 0) r r = true ∧ gives (.nop 1) s s = true ∧ s.canIssue 1 = false ∧ gives (.gate 0) s s = true ∧
    after (.waitCnt 0) (jobOf [[0x50]] []) (fun t => status t == some 0x0B) = true ∧
    after (.nop 0) (jobOf [[0, 0x10]] []) (fun t => status t == some 0x02) = true ∧
    after (.nop 0) (jobOf [[0x7F]] []) (fun t => status t == some 0x01) = true ∧
    after (.nop 0) (s.updCore 0 fun k => { k with csq := { k.csq with pc := 2 } }) (fun t => status t == some 0x0F) = true ∧
    s.updCore 0 (fun k => { k with bad := [144] }) ≠ s ∧
    after (.nop 0) (s.updCore 0 fun k => { k with bad := [128] }) (fun t => (t.job? 5).map (·.stage) == some .faulted) = true := by decide +kernel

/-- Witnesses of DataInstructionsHaveTheirEffect, one for each opcode: the row at core 0 passes every check, and the output is the value
worked out by hand. -/
def works (c : Instr) (o : Op) (code : List Byte) (data : Sparse Byte) (out n want : Nat) : Bool :=
  let s := jobOf [code] data
  issued s 0 o && after c s fun t => spdN t out n == want && (t.core 0).csq.pc == 2

/-- LOADW of W[0][0] = 3.0 into all four arrays; MATMUL and MATVEC of 2.0 by 3.0 (BF16 in, FP32 out). -/
theorem test_products :
    let w : Sparse Byte := cells (64 * 32) [0, 0x40] ++ cells (64 * 40) [0x40, 0x40]
    let rest : List Byte := [1, 0, 1, 0, 1, 0, 0, 0, 0x11]
    let s := jobOf [[0x10, 0xF0, 0, 0, 4, 0, 0, 0, 1, 0, 1, 0, 0, 0, 0, 0, 1]] w
    issued s 0 .loadw = true ∧
    after (.loadw 0) s (fun t => (List.range 4).all fun a => ((t.core 0).mxa a).tag == some ⟨4, 0, 0⟩) = true ∧
    after (.loadw 0) s (fun t => ((t.core 0).mxa 0).active == [(0, 0x4040#16)]) = true ∧
    works (.matmul 0) .matmul ([0x11, 0, 0, 0, 3, 0, 4, 0, 5, 0, 0, 0] ++ rest) w (64 * 48) 4 0x40C00000 = true ∧
    works (.matvec 0) .matvec ([0x12, 0, 0, 0, 3, 0, 4, 0, 5, 0, 0, 0] ++ rest) w (64 * 48) 4 0x40C00000 = true := by decide +kernel

/-- SCAN: 2.0 × 4.0 + 3.0 from committed state 4.0; LCONV of one tap: 2.0 × 3.0. -/
theorem test_scan_lconv :
    let slot (mode n : Byte) : Sparse Byte := cells (64 * 54) [0, 1, mode, 0, 0, 0, 0, 0, n]
    works (.scan 0) .scan [0x21, 0, 0, 0, 3, 0, 4, 0, 5, 0, 7, 0, 0, 0, 0, 0, 1, 0, 1, 0, 1, 0, 0, 0, 0, 0, 0, 0, 0]
      (cells (64 * 32) [0, 0, 0, 0x40] ++ cells (64 * 40) [0, 0, 0x40, 0x40] ++ [(64 * 52, 8)] ++ slot 2 1 ++
        cells (64 * 55) [0, 0, 0x80, 0x40]) (64 * 48) 4 0x41300000 = true ∧
    works (.lconv 0) .lconv [0x22, 0, 0, 0, 3, 0, 4, 0, 5, 0, 7, 0, 0, 0, 0, 0, 1, 0, 1, 0, 1, 0, 1, 0, 0, 0, 0, 0, 0x11]
      (cells (64 * 32) [0, 0x40] ++ cells (64 * 40) [0x40, 0x40] ++ [(64 * 52, 8)] ++
        cells (64 * 54) [0, 1, 3, 0, 1]) (64 * 48) 4 0x40C00000 = true := by decide +kernel

/-- RECUR in the tiled form, X = H = 1: G = 3.0 × 2.0 passes FX, chain A doubles it, chain B adds the state row 1.0. -/
theorem test_recur :
    let prog : List Byte := [0, 1, 2, 0, 1, 0, 0, 0, 0x20, 0x08, 0x82, 0x40, 0, 0, 0, 0, 1, 0, 0, 0, 0, 0, 0, 0, 1, 0, 0x60, 0, 0, 0, 0, 0] ++
      List.replicate 32 0 ++ toBytes 8 0x0000000001000100 ++ toBytes 8 0x0000000004000100
    works (.recur 0) .recur [0x20, 0, 0, 0, 6, 0, 4, 0, 10, 0, 5, 0, 7, 0, 0, 0, 1, 0, 1, 0, 1, 0, 1, 0, 0, 0, 0, 0, 0x11]
      (cells (64 * 40) [0x40, 0x40] ++ cells (64 * 50) prog ++ [(64 * 52, 8)] ++ cells (64 * 54) [0, 1, 1, 0, 0, 0, 0, 0, 1] ++
        cells (64 * 55) [0, 0, 0x80, 0x3F] ++ cells (64 * 60) [0, 0x40]) (64 * 48) 4 0x41500000 = true := by decide +kernel

/-- The spec's chain z = g × (h - s) + s (R108): lane 5 has h = 2.0, s = -1.0 and g = 0.75 from MXA_1, and gives 1.25 in BF16. -/
theorem test_gate :
    let chain : List Byte := toBytes 8 0x0000000000400012 ++ List.replicate 32 0 ++ toBytes 8 0x0000000103000200 ++ toBytes 8 0x0000030000004102
    let s := (jobOf [[0x30, 0, 0, 0, 6, 0, 0, 0, 9, 0, 10, 0, 0, 0, 5, 0, 1, 0, 0, 0, 32, 0x10, 1, 0, 1]]
        (cells (64 * 50) chain ++ cells (64 * 58) (List.replicate 10 0 ++ [0, 0x40]) ++ cells (64 * 60) (List.replicate 10 0 ++ [0x80, 0xBF]))).updCore 0
      fun k => { k with mxas := [(1, { acm := [(5, 0x3F400000#32)] })] }
    issued s 0 .gate = true ∧ after (.gate 0) s (fun t => spdN t (64 * 48 + 10) 2 == 0x3FA0 && (t.core 0).csq.pc == 2) = true := by
  decide +kernel

/-- FUNC: the reciprocal of 4.0; REDUCE: 1.0 + 2.0 + 4.0; CONVERT: 1.5 to BF16. -/
theorem test_vectors :
    works (.func 0) .func [0x31, 8, 2, 0, 3, 0, 0, 0, 5, 0, 0, 0, 1, 0, 0, 0, 1] (cells (64 * 32) [0, 0, 0x80, 0x40]) (64 * 48) 4 0x3E800000 = true ∧
    works (.reduceSeq 0) .reduce [0x32, 0, 0, 0, 3, 0, 5, 0, 0, 0, 0, 0, 1, 0, 0, 0, 3]
      (cells (64 * 32) [0, 0, 0x80, 0x3F, 0, 0, 0, 0x40, 0, 0, 0x80, 0x40]) (64 * 48) 4 0x40E00000 = true ∧
    works (.convert 0) .convert [0x33, 0, 0, 0, 3, 0, 5, 0, 0, 0, 0, 0, 1, 0, 1, 0, 0, 0, 0, 0, 0, 0, 0, 0, 1]
      (cells (64 * 32) [0, 0, 0xC0, 0x3F]) (64 * 48) 2 0x3FC0 = true := by decide +kernel

/-! ### Retrievers -/

/-- A Retriever word: OP, FA, FB, FL, N and IMM (R214). -/
def rw (op fa fb fl n imm : Nat) : Nat := op + 16 * fa + 256 * fb + 4096 * fl + 65536 * n + 2 ^ 32 * imm

/-- Retriever 7 of core 0 as given, over buffer 3 of sixteen lines, with a program of one END in buffer 4 and parameters in buffer 5. -/
def fetching (x : Rtv) : State :=
  let h : List Byte := [0, 1, 1, 0]
  let p := h ++ toBytes 4 (crc32c ((h ++ toBytes 8 0).map BitVec.toNat))
  { full with cores := [(0, ({ pdAck := true, cclk := true, handles := [(3, buf 0 0 32 15), (4, buf 0 0 8 0), (5, buf 0 0 9 0)]
                               spd := cells 512 p ++ cells 576 [7] } : Core).updRtv 7 fun _ => x)] }

/-- A running Retriever with the word at its program counter. -/
def fetcher (w : Nat) : Rtv := { st := .running, trig := 2, store := [w, 0], p := [dword 0x100, dword 0x40] }

/-- The Retriever after a command. -/
def rtvAfter (c : Instr) (x : Rtv) (p : Rtv → Bool) : Bool := after c (fetching x) fun t => p ((t.core 0).rtv 7)

/-- Witnesses of RetrieversAreArmedDisarmedAndStopped. -/
theorem test_rtv_ctrl :
    let idle : Rtv := { prog := 0x00050004#32 }
    full.grants (0x20984 + 0x1000 * 1 + 16 * 7) boss = true ∧
    ((fetching idle).core 0).armOk 0 4 5 0 1 0 = true ∧
    rtvAfter (.rtvArm 0 7 0x14#32 boss) idle (fun y => y.st == .armed && y.pend && y.store == [0] && y.p == [7, 0, 0, 0, 0, 0, 0, 0]) = true ∧
    rtvAfter (.rtvArm 0 7 0x04#32 boss) idle (fun y => y.st == .idle && y.code == 1) = true ∧
    rtvAfter (.rtvArm 0 7 0x10#32 boss) idle (fun y => y.st == .idle && y.be) = true ∧
    gives (.rtvArm 0 7 4#32 boss) (fetching { idle with st := .armed }) ((fetching { idle with st := .armed }).answered boss) = true ∧
    rtvAfter (.rtvDisarm 0 7 0 boss) { idle with st := .armed, pend := true } (fun y => y.st == .idle && !y.pend) = true ∧
    rtvAfter (.rtvDisarm 0 7 0 boss) (fetcher 0) (fun y => y.st == .running && y.disarm) = true ∧
    rtvAfter (.rtvStop 0 7 0xC#32 boss) (fetcher 0) (fun y => y.st == .armed && y.code == 0x0B) = true := by decide +kernel

/-- Witnesses of RetrieverProgramsRun: the start of a run and each register instruction, at its last register. -/
theorem test_rtv_registers :
    rtvAfter (.rtvRunStart 0 7) { st := .armed, pend := true, a := [(1, 1)] } (fun y => y.st == .running && y.a == []) = true ∧
    gives (.rtvRunStart 0 7) (fetching {}) (fetching {}) = true ∧
    gives (.seta 0 7) (fetching (fetcher (rw 5 0 0 0 0 0))) (fetching (fetcher (rw 5 0 0 0 0 0))) = true ∧
    rtvAfter (.seta 0 7) (fetcher (rw 4 3 1 0 0 0xFFFFFFFF)) (fun y => y.a == [(3, 0x3F#64)] && y.pc == 1) = true ∧
    rtvAfter (.adda 0 7) (fetcher (rw 5 3 0 0 0 0x40)) (fun y => y.a == [(3, 0x40#64)]) = true ∧
    rtvAfter (.seto 0 7) (fetcher (rw 6 3 8 0 0 0x40)) (fun y => y.o == [(3, 0x40#32)]) = true ∧
    rtvAfter (.addo 0 7) (fetcher (rw 7 0 0 0 0 0xFFFFFFFF)) (fun y => y.o == [(0, 0xFFFFFFFF#32)]) = true ∧
    rtvAfter (.setl 0 7) (fetcher (rw 8 3 0 0 65535 0)) (fun y => y.l == [(3, 65535)]) = true ∧
    rtvAfter (.rtvLoop 0 7) (fetcher (rw 9 0 0 0 0 0)) (fun y => y.pc == 1) = true ∧
    rtvAfter (.rtvLoop 0 7) { fetcher (rw 9 0 0 0 0 0) with l := [(0, 1)] } (fun y => y.pc == 1 && y.l == []) = true ∧
    rtvAfter (.rtvLoop 0 7) { fetcher (rw 9 0 0 0 0 0) with l := [(0, 2)] } (fun y => y.pc == 0 && y.l == [(0, 1)]) = true ∧
    rtvAfter (.nextp 0 7) { fetcher 10 with params := 5 } (fun y => y.set == 0 && y.p.head? == some 7) = true ∧
    rtvAfter (.nextp 0 7) (fetcher 10) (fun y => y.code == 2 && y.st == .armed) = true ∧
    rtvAfter (.jmp 0 7) (fetcher (rw 14 0 0 0 1 0)) (fun y => y.pc == 1) = true := by decide +kernel

theorem test_rtv_waits :
    let l : RtvLine := ⟨0, 3, 0, 0, false, 0x1000, false, none, none⟩
    rtvAfter (.rtvEnd 0 7) (fetcher 0) (fun y => y.st == .armed && y.code == 0) = true ∧
    gives (.rtvEnd 0 7) (fetching { fetcher 0 with flight := [l] }) (fetching { fetcher 0 with flight := [l] }) = true ∧
    rtvAfter (.waitc 0 7) (fetcher (rw 11 15 0 0 0 0)) (fun y => y.pc == 1) = true ∧
    gives (.waitc 0 7) (fetching (fetcher (rw 11 15 0 0 1 0))) (fetching (fetcher (rw 11 15 0 0 1 0))) = true ∧
    rtvAfter (.sig 0 7) (fetcher (rw 12 15 0 0 255 0)) (fun y => y.pc == 1) = true ∧
    rtvAfter (.rtvFence 0 7) (fetcher 13) (fun y => y.pc == 1) = true := by decide +kernel

/-- RD of sixteen lines, of none beyond the extent, WR of one, and LIST. -/
theorem test_rtv_lines :
    rtvAfter (.rd 0 7) { fetcher (rw 1 3 3 0 16 3) with a := [(3, 0x1000)] } (fun y =>
      y.flight.map (·.addr) == (List.range 16).map (fun j => 0x1000 + 64 * j) && y.a == [(3, 0x1400)] && y.o == [(3, 1024)] && y.pc == 1) = true ∧
    rtvAfter (.rd 0 7) (fetcher (rw 1 0 0 0 17 3)) (fun y => y.code == 4 && y.st == .armed) = true ∧
    rtvAfter (.rd 0 7) (fetcher (rw 1 0 0 0 1 9)) (fun y => y.code == 2) = true ∧
    rtvAfter (.rd 0 7) { fetcher (rw 1 0 0 0 1 3) with a := [(0, 1)] } (fun y => y.code == 5) = true ∧
    rtvAfter (.rd 0 7) (fetcher (rw 1 0 0 0 1 (3 + 0x30000))) (fun y => y.code == 7) = true ∧
    after (.wr 0 7) (fetching (fetcher (rw 2 0 0 0 1 3))) (fun t => ((t.core 0).rtv 7).flight.map (·.write) == [true]) = true ∧
    rtvAfter (.rtvList 0 7) (fetcher (rw 3 0 0 0 1 3)) (fun y => y.flight.map (·.desc) == [some 0] && y.pc == 0) = true ∧
    rtvAfter (.rtvList 0 7) (fetcher (rw 3 0 0 0 1 9)) (fun y => y.code == 2) = true := by decide +kernel

/-- Witnesses of LinesLandThroughTheirHandle. -/
theorem test_rtv_landing :
    let l (ref : Nat) : RtvLine := ⟨0, ref, 64, 0, false, 0x1000, false, none, some (List.replicate 64 5)⟩
    gives (.rtvLineLanded 0 7) (fetching {}) (fetching {}) = true ∧
    after (.rtvLineLanded 0 7) (fetching { fetcher 0 with flight := [l 3] }) (fun t => spdN t (64 * 33) 1 == 5 && spdN t (64 * 33 + 63) 2 == 5 &&
      ((t.core 0).rtv 7).lines == 1 && ((t.core 0).rtv 7).flight == []) = true ∧
    after (.rtvLineLanded 0 7) (fetching { fetcher 0 with flight := [l 0x103] }) (fun t => spdN t (64 * 33) 1 == 0 &&
      ((t.core 0).rtv 7).code == 3) = true := by decide +kernel

/-! ### The span and stream migration -/

/-- The header of a frame that member 1 of span 7 sends to member 0. -/
def header1 (ctr : Nat) : PeerFrame := { ver := 0x100, dst := 0, sid := 0x70001, ctr := dword ctr, body := [], tag := [] }

/-- That frame sealed over a body under an all-zero key. -/
def sealed (ty ctr : Nat) (b : List Byte) : PeerFrame := PeerFrame.sealOf 0 ty (header1 ctr) b

/-- The state after the steps of R353 on that frame, with the window taken, or none when a step fails. -/
def opened (s : State) (ty ctr : Nat) (b : List Byte) : Option State :=
  let t := s.updPartner 1 fun q => { q with tokens := q.tokens - 1 }
  match (t.partner 1).window (dword ctr).toNat with
  | some q =>
    if s.running && Sparse.get 0 s.peer.keys (s.partner 1).rxKey == 0 && decide (32 + b.length ≤ 9216) && s.selfMember == 0
        && wbits s.peer.self 31 16 == 7 && (s.partner 1).en && (s.partner 1).tokens != 0 && (ty == 1 || (s.partner 1).minor == 0)
        && bodyOk ty b then
      some (t.updPartner 1 fun _ => q)
    else none
  | none => none

/-- A frame that opens is received with its body. -/
theorem receive_opened {s u : State} {ty ctr : Nat} {b : List Byte} (h : opened s ty ctr b = some u) :
    s.running = true ∧ s.peerReceive ty (sealed ty ctr b) = (u, some (1, b)) := by
  simp only [opened] at h
  split at h
  · rename_i q win
    split at h
    · rename_i c
      simp only [Bool.and_eq_true, beq_iff_eq, decide_eq_true_eq, bne_iff_ne, Bool.or_eq_true] at c
      obtain ⟨⟨⟨⟨⟨⟨⟨⟨run, key⟩, len⟩, self⟩, span⟩, en⟩, tok⟩, min⟩, ok⟩ := c
      cases h
      refine ⟨run, peerReceive_sealOf s ty (header1 ctr) b q 0x70001 1 rfl rfl 0 key len ?_ span.symm ⟨by decide, by rw [self]; decide⟩ en tok
        win ?_ ok⟩
      · rw [self]; rfl
      · have v : (wbits (header1 ctr).ver 15 8 == 1) = true := by show (wbits (0x100#16) 15 8 == 1) = true; decide
        have w : ((header1 ctr).ver.toNat == 0x100) = true := by show ((0x100#16).toNat == 0x100) = true; decide
        by_cases e : ty = 1
        · rw [if_pos e, v]
        · rw [if_neg e, min.resolve_left e, w]
    · cases h
  · cases h

/-- What a message row does with such a frame, its partner being UP or, for a HELLO, JOINING. -/
def acted (s : State) (ty ctr : Nat) (b : List Byte) (act : State → Nat → List Byte → State) (p : State → Bool) : Bool :=
  match opened s ty ctr b with
  | some u =>
    if (u.partner 1).st = .up ∨ (ty = 1 ∧ (u.partner 1).st = .joining) then
      p (act (u.updPartner 1 fun q => { q with heard := u.fclk }) 1 b).settle
    else false
  | none => false

theorem after_acted {c : Instr} {s : State} {ty ctr : Nat} {b : List Byte} {act : State → Nat → List Byte → State} {p : State → Bool}
    (e : exec c s = done (s.onMessage ty (sealed ty ctr b) act)) (h : acted s ty ctr b act p = true) : after c s p = true := by
  rw [acted] at h
  split at h
  · rename_i u ho
    split at h
    · rename_i st
      obtain ⟨run, rec⟩ := receive_opened ho
      rw [after, e, State.onMessage, run, rec]
      simp only [Bool.not_true, Bool.false_eq_true, if_false, if_pos st]
      exact h
    · cases h
  · cases h

/-- Member 0 of span 7 with group 0 on a network time base, and partner 1 as given with eight tokens. -/
def spanned (p : Partner) (out : Option MigOut) (inc : Option MigIn) : State :=
  { ported with
    tbs := [(0, { en := true, src := 3, nom := 48000 })]
    peer := { full.peer with self := 0x00070000#32, parts := [(1, { p with en := true, tokens := 8 })], out := out, inc := inc } }

/-- A partner that is UP. -/
def up1 : Partner := { st := .up }

/-- Partner 1 with the window at 70, its oldest places free. -/
def window70 : Partner := { up1 with high := 70, bitmap := 1 }

/-- Does a sealed frame hold the tag and the body that the receiver finds (steps 4 and 6 of R353)? -/
theorem sealed_is_good (ty ctr : Nat) (b : List Byte) : let f := sealed ty ctr b
    let ks := keySchedule (keyBytes 0)
    let iv := gcmIv f.sid.toNat f.ctr.toNat
    bytesOf (gcmTag ks iv (peerHeader f ty) (natBytes f.body)) = f.tag ∧ bytesOf (gctr ks iv (natBytes f.body)) = b :=
  ⟨rfl, gctr_gctr _ _ (length_keyBytes 0) b⟩

/-- A byte of the tag changed makes it fail step 4. -/
theorem forged_is_not_good (ty ctr : Nat) (b : List Byte) : let f := { sealed ty ctr b with tag := (sealed ty ctr b).tag.map (· ^^^ 1) }
    f.tag.length = 16 ∧
    bytesOf (gcmTag (keySchedule (keyBytes 0)) (gcmIv f.sid.toNat f.ctr.toNat) (peerHeader f ty) (natBytes f.body)) ≠ f.tag := by
  intro f
  have l : (sealed ty ctr b).tag.length = 16 := by
    show (bytesOf (gcmTag _ _ _ _)).length = 16
    rw [length_bytesOf, length_gcmTag _ _ _ _ (length_keyBytes 0)]
  refine ⟨by simpa [f] using l, ?_⟩
  have e : bytesOf (gcmTag (keySchedule (keyBytes 0)) (gcmIv f.sid.toNat f.ctr.toNat) (peerHeader f ty) (natBytes f.body))
      = (sealed ty ctr b).tag := rfl
  rw [e]
  intro h
  have h0 := congrArg (fun x : List Byte => x.getD 0 0) h
  have ft : f.tag = (sealed ty ctr b).tag.map (· ^^^ 1) := rfl
  rw [ft] at h0
  revert h0
  generalize (sealed ty ctr b).tag = x at l
  match x, l with
  | a :: rest, _ =>
    have ne : ∀ y : Byte, y ≠ y ^^^ 1 := by decide
    exact ne a

/-- Witnesses of PeerFramesAreCheckedInOrder, steps 1 to 3 of R353 and link frames. -/
theorem test_peer_steps :
    let s := spanned window70 none none
    let f : PeerFrame := { header1 71 with tag := List.replicate 16 0 }
    gives (.heartbeat f) { s with boot := { por := true } } { s with boot := { por := true } } = true ∧
    after (.heartbeat { f with dst := 1 }) s (fun t => t.peer.rxBad == 1) = true ∧
    after (.heartbeat { f with sid := 0x70002 }) s (fun t => t.peer.rxUnknown == 1) = true ∧
    after (.heartbeat f) (s.updPartner 1 fun q => { q with tokens := 0 }) (fun t => (t.partner 1).rateDrop == 1) = true ∧
    after (.peerFrameDropped ⟨[], false, false, false⟩) s (fun t => t.peer.rxBad == 1) = true ∧
    after (.peerFrameDropped ⟨bytesOf (leBytes 2 0x100 ++ [2, 1] ++ leBytes 4 0x70001 ++ leBytes 8 72) ++ List.replicate 32 0, false, false, false⟩) s
      (fun t => t.peer.rxBad == 1) = true := by decide +kernel

/-- Witnesses of its steps 4 to 7: the tag by `sealed_is_good` and `forged_is_not_good`; counters 6 and 70 fail the window and 7 and 71
pass it; a HEARTBEAT without body fails step 6. -/
theorem test_peer_window :
    let p := { window70 with tokens := 8 }
    (sealed 2 71 []).sid = 0x70001#32 ∧ (spanned window70 none none).selfMember = 0 ∧ (spanned window70 none none).partner 1 = { p with en := true } ∧
    p.window 6 = none ∧ (6 + 64 ≤ p.high) ∧ p.window 70 = none ∧ p.bitmap / 2 ^ (p.high - 70) % 2 = 1 ∧
    p.window 7 = some { p with bitmap := 2 ^ 63 + 1 } ∧ p.window 71 = some { p with high := 71, bitmap := 3 } ∧
    bodyOk 2 [] = false ∧ bodyOk 2 (List.replicate 16 0) = true := by decide +kernel

/-- A frame from a partner that is DOWN or only JOINING changes the window and no more. -/
theorem test_peer_state :
    (opened (spanned { high := 70 } none none) 2 71 (List.replicate 16 0)).map (fun t => ((t.partner 1).high, (t.partner 1).st)) = some (71, .down) ∧
    (opened (spanned { st := .joining, high := 70 } none none) 2 71 (List.replicate 16 0)).map (fun t => (t.partner 1).st) = some .joining := by
  decide +kernel

/-- A 16-byte HELLO of version 1.0. -/
def hello16 : List Byte := [0, 1, 0, 1, 7, 0, 1, 4, 0, 0, 0, 0, 0, 0, 0, 0]

/-- Witnesses of MessagesActOnPartnersAndMigrations: partners. -/
theorem test_partners :
    after (.hello (sealed 1 1 hello16)) (spanned up1 none none) (fun t => t.peer.urgent.length == 1) = true ∧
    after (.hello (sealed 1 1 hello16)) (spanned { st := .joining } none none)
      (fun t => (t.partner 1).st == .up && (t.hdr pgPeer).raw == 1#32) = true ∧
    after (.hello (sealed 1 1 (0 :: 2 :: hello16.drop 2))) (spanned { st := .joining } none none)
      (fun t => (t.partner 1).st == .joining && (t.hdr pgPeer).raw == 8#32) = true ∧
    after (.hello (sealed 1 1 (hello16.take 8 ++ toBytes 8 10001))) (spanned { st := .joining } none none)
      (fun t => (t.hdr pgPeer).raw == 16#32) = true ∧
    after (.heartbeat (sealed 2 1 (toBytes 8 10001 ++ List.replicate 8 0))) (spanned up1 none none)
      (fun t => (t.partner 1).st == .joining && (t.hdr pgPeer).raw == 16#32) = true ∧
    after (.heartbeat (sealed 2 1 (List.replicate 16 0))) (spanned up1 none (some ⟨9, 0, 1, 5, 2, 0, 3, 3, [], none, true, none, true⟩))
      (fun t => t.peer.inc.isNone && (t.hdr pgPeer).raw == 64#32) = true :=
  ⟨after_acted rfl (by decide +kernel), after_acted rfl (by decide +kernel), after_acted rfl (by decide +kernel),
   after_acted rfl (by decide +kernel), after_acted rfl (by decide +kernel), after_acted rfl (by decide +kernel)⟩

/-- An outgoing migration 9 of group 0 to partner 1 in a state, S = 5 and two shadow frames. -/
def outgoing (st : Nat) : MigOut := ⟨9, 0, 1, 5, 2, st, none, [], [], false, 0⟩

/-- An incoming migration 9 of group 0 from partner 1 into Collar 15 of core 0. -/
def incoming (st : Nat) : MigIn := ⟨9, 0, 1, 5, 2, 0, 15, st, [], none, false, none, false⟩

/-- A source in a state of its migration. -/
def source (st : Nat) : State := spanned up1 (some (outgoing st)) none

/-- A destination in a state of its migration, Collar 15 open. -/
def destination (st : Nat) : State :=
  (spanned up1 none (some (incoming st))).updCore 0 fun k => { k with collars := [(15, 0x000F002000000003#64)] }

/-- The state of the outgoing migration is as given. -/
def outIs (n : Nat) (t : State) : Bool := t.peer.out.map (·.state) == some n

/-- Witnesses of MessagesActOnPartnersAndMigrations: the source. -/
theorem test_source :
    after (.accept (sealed 0x11 1 [9, 0, 0, 0, 31, 15, 0, 0])) (source 1) (outIs 2) = true ∧
    after (.accept (sealed 0x11 1 [9, 0, 0, 0, 31, 15, 0, 0])) ((source 1).updGroup 0 fun g => { g with oldest := 5, doneAt := 1 }) (outIs 5) = true ∧
    after (.accept (sealed 0x11 1 [8, 0, 0, 0, 31, 15, 0, 0])) (source 1) (outIs 1) = true ∧
    after (.refuse (sealed 0x12 1 [9, 0, 0, 0, 5, 0, 0, 0])) (source 1)
      (fun t => t.peer.out.isNone && t.peer.migStat == 0x00050400#32) = true ∧
    after (.digest (sealed 0x15 1 ([9, 0, 0, 0, 0, 0, 0, 0, 6] ++ List.replicate 55 0))) (source 3) (fun t =>
      t.peer.out.map (·.theirs.map (·.1)) == some [6]) = true ∧
    after (.digest (sealed 0x15 1 ([9, 0, 0, 0, 0, 0, 0, 0, 7] ++ List.replicate 55 0))) (source 3) (fun t =>
      t.peer.out.map (·.theirs.map (·.1)) == some []) = true ∧
    after (.commitAck (sealed 0x17 1 ([9, 0, 0, 0, 0, 0, 0, 0, 7] ++ List.replicate 7 0))) (source 4) (fun t =>
      t.peer.out.map (·.acked) == some true) = true ∧
    after (.abortAck (sealed 0x19 1 [9, 0, 0, 0])) (source 5) (fun t => t.peer.out.isNone) = true ∧
    after (.abortAck (sealed 0x19 1 [9, 0, 0, 0])) (source 4) (outIs 4) = true ∧
    after (.drabinAbort (sealed 0x18 1 [9, 0, 0, 0, 0x0C, 0, 0, 0])) (source 4) (fun t => t.peer.out.isNone && t.peer.migStat == 0xC00#32 &&
      t.peer.urgent.length == 1) = true :=
  ⟨after_acted rfl (by decide +kernel), after_acted rfl (by decide +kernel), after_acted rfl (by decide +kernel),
   after_acted rfl (by decide +kernel), after_acted rfl (by decide +kernel), after_acted rfl (by decide +kernel),
   after_acted rfl (by decide +kernel), after_acted rfl (by decide +kernel), after_acted rfl (by decide +kernel),
   after_acted rfl (by decide +kernel)⟩

/-- A SNAP of one line at offset 64. -/
def snap64 : List Byte := [9, 0, 0, 0, 64, 0, 0, 0] ++ List.replicate 64 7

/-- Witnesses of MessagesActOnPartnersAndMigrations: the destination. -/
theorem test_destination :
    after (.offer (sealed 0x10 1 (9 :: List.replicate 47 0)) .ok) (destination 1) (fun t => t.peer.inc == some (incoming 1)) = true ∧
    after (.snap (sealed 0x13 1 snap64)) (destination 1) (fun t => t.peer.inc.map (·.landed) == some [(64, 64)] && spdN t (64 * 33) 1 == 7) = true ∧
    after (.snap (sealed 0x13 1 snap64)) (spanned up1 none (some (incoming 1)))
      (fun t => t.peer.inc.isNone && t.peer.acptStat == 0x800#32) = true ∧
    after (.snap (sealed 0x13 1 snap64)) (destination 2) (fun t => t.peer.inc == some (incoming 2)) = true ∧
    after (.snapDone (sealed 0x14 1 [9, 0, 0, 0, 64, 0, 0, 0])) (destination 1) (fun t => t.peer.inc.map (·.size) == some (some 64)) = true ∧
    after (.commit (sealed 0x16 1 ([9, 0, 0, 0, 0, 0, 0, 0, 7] ++ List.replicate 7 0))) (destination 2) (fun t =>
      t.peer.inc.map (·.committed) == some true && t.peer.ordered.length == 1) = true ∧
    after (.commit (sealed 0x16 1 ([9, 0, 0, 0, 0, 0, 0, 0, 8] ++ List.replicate 7 0))) (destination 2)
      (fun t => t.peer.inc == some (incoming 2)) = true ∧
    after (.yieldGroup (sealed 0x1A 1 (9 :: List.replicate 15 0))) (destination 3)
      (fun t => t.peer.inc.isNone && (t.hdr pgPeer).raw == 64#32) = true ∧
    after (.yieldGroup (sealed 0x1A 1 (9 :: List.replicate 15 0))) (destination 2) (fun t => t.peer.inc == some (incoming 2)) = true ∧
    after (.drabinAbort (sealed 0x18 1 [9, 0, 0, 0, 0x0C, 0, 0, 0])) (destination 2)
      (fun t => t.peer.inc.isNone && t.peer.acptStat == 0xC00#32) = true ∧
    after (.drabinAbort (sealed 0x18 1 [8, 0, 0, 0, 0x0C, 0, 0, 0])) (destination 2) (fun t => t.peer.inc == some (incoming 2)) = true :=
  ⟨after_acted rfl (by decide +kernel), after_acted rfl (by decide +kernel), after_acted rfl (by decide +kernel),
   after_acted rfl (by decide +kernel), after_acted rfl (by decide +kernel), after_acted rfl (by decide +kernel),
   after_acted rfl (by decide +kernel), after_acted rfl (by decide +kernel), after_acted rfl (by decide +kernel),
   after_acted rfl (by decide +kernel), after_acted rfl (by decide +kernel)⟩

/-- The admitted group reserved, its ARM body at 0x8000, ready to accept an OFFER of member 1. -/
def offered : State :=
  match exec (.reserve 5 .ok) (admitting 0x10 0x1000) with
  | .next t =>
    { t with tbs := [(0, { en := true, src := 3, nom := 48000, sampled := true })]
             host := Mem.write t.host 0x8000 (toBytes 32 (2 * 2 ^ 32))
             peer := { (spanned up1 none none).peer with acptGid := 0x81E01000#32, acptArmLo := 0x8000 } }
  | _ => full

/-- The OFFER of that group's own terms, from frame 5 with two shadow frames. -/
def terms : List Byte := offered.offerBody 9 (((offered.group? 0).getD grp).named { seq := 0, w := 2 * 2 ^ (8 * 36) }) 5 2

/-- An OFFER is accepted on its own terms, and refused over an unreadable record, without a group, and on other terms. -/
theorem test_offer :
    after (.offer (sealed 0x10 1 terms) .ok) offered (fun u => u.peer.inc == some ⟨9, 0, 1, 5, 2, 0, 15, 1, [], none, false, none, false⟩) = true ∧
    after (.offer (sealed 0x10 1 terms) .tgterr) offered (fun u => u.peer.acptStat == 0x600#32 && u.peer.inc.isNone) = true ∧
    after (.offer (sealed 0x10 1 terms) .ok) { offered with groups := [] } (fun u => u.peer.acptStat == 0x500#32) = true ∧
    after (.offer (sealed 0x10 1 (8 :: List.replicate 47 0)) .ok) offered (fun u => u.peer.acptStat == 0x500#32) = true :=
  ⟨after_acted rfl (by decide +kernel), after_acted rfl (by decide +kernel), after_acted rfl (by decide +kernel),
   after_acted rfl (by decide +kernel)⟩

/-- Witnesses of PartnersKeysAndPeriods. -/
theorem test_keys_and_partners :
    let s := spanned { up1 with txKey := 15, rxKey := 15, high := 9, exhausted := true } none none
    after (.keyWrite 15 6 0xAB#32 boss) s (fun t => Sparse.get 0 t.peer.keys 15 == (BitVec.ofNat 256 (0xAB * 2 ^ 192)) &&
      t.peer.parts == s.peer.parts) = true ∧
    after (.keyWrite 15 7 1#32 boss) s (fun t => (t.partner 1).st == .joining && (t.partner 1).high == 0 && !(t.partner 1).exhausted) = true ∧
    gives (.partCfgWrite 1 1#32 boss) { s with boot := { stage := .early } } (({ s with boot := { stage := .early } } : State).answered boss) = true ∧
    after (.partCfgWrite 0 0xFF1#32 boss) s (fun t => t.partner 0 == { en := true, txKey := 15, rxKey := 15 }) = true ∧
    after (.partCfgWrite 15 1#32 boss) s (fun t => (t.partner 15).st == .joining && (t.partner 15).tokens == 0x40) = true ∧
    after (.partCfgWrite 1 0 boss) (spanned { st := .joining } none none) (fun t => (t.partner 1).st == .down) = true := by decide +kernel

theorem test_migration_commands :
    let s := spanned up1 none none
    let g := { s with peer := { s.peer with migCfg := 0xF1#32, migLead := 41 } }
    after (.migStart boss) { s with boot := { stage := .early } } (fun t => t.peer.migStat == 0x200#32) = true ∧
    after (.migStart boss) (spanned up1 (some (outgoing 1)) none) (fun t => t.peer.migStat == 0x100#32) = true ∧
    after (.migStart boss) s (fun t => t.peer.migStat == 0x200#32) = true ∧
    after (.migStart boss) { g with groups := [] } (fun t => t.peer.migStat == 0x300#32) = true ∧
    after (.migStart boss) (g.updGroup 0 fun x => { x with parked := some .software }) (fun t => t.peer.migStat == 0x300#32) = true ∧
    after (.migStart boss) g (fun t => t.peer.out == some ⟨1, 0, 1, 5, 16, 1, none, [], [], false, 0⟩ && t.peer.ordered.length == 1) = true ∧
    after (.migAbort boss) (spanned up1 (some (outgoing 1)) none) (fun t => t.peer.out.map (·.state) == some 5 && t.peer.migStat == 0xC00#32) = true ∧
    after (.acptEnClear 0 boss) (spanned up1 none (some (incoming 1))) (fun t => t.peer.inc.isNone && t.peer.acptStat == 0xC00#32) = true ∧
    after (.acptEnClear 0xFFFFFFFF#32 boss) s (fun t => t.peer.acptGid == 0x81FFFFFF#32) = true := by decide +kernel

theorem test_peer_periods :
    let s := spanned up1 none none
    let snap (o : Nat) : State := (spanned up1 (some (outgoing 2)) none).updGroup 0 fun g => { g with oldest := o }
    after .heartbeatPeriod s (fun t => t.peer.urgent.length == 1) = true ∧
    after (.hbMissExpiry 1) { s with fclk := 4 * 0xB7 * 1024 } (fun t => (t.partner 1).st == .joining && (t.hdr pgPeer).raw == 2#32) = true ∧
    gives (.hbMissExpiry 1) { s with fclk := 4 * 0xB7 * 1024 - 1 } { s with fclk := 4 * 0xB7 * 1024 - 1 } = true ∧
    after .tokenBucketRefill s (fun t => (t.partner 1).tokens == 0x40) = true ∧
    after .migSnapshot (snap 5) (fun t => t.peer.out == some (outgoing 3) && t.peer.ordered.length == 2) = true ∧
    gives .migSnapshot (snap 4) (snap 4) = true ∧
    after .migSnapshot (snap 6) (fun t => t.peer.out.map (·.state) == some 5 && t.peer.migStat == 0x700#32) = true := by decide +kernel

/-! ### Rules stated whole -/

/-- Witnesses of FenceValuesAreComparedBySerialNumber at a distance of 2^63, and of ScaleCodesHaveTheirValues at code 0xFE. -/
theorem test_rules :
    (0x8000000000000000#64 - 0#64).toNat = 2 ^ 63 ∧ fenceReached 0x8000000000000000#64 0#64 = false ∧
    scaleValue true 254 = .fin false 1 127 ∧ scaleValue true 255 = .nan := by decide +kernel

/-- Witnesses of OnlyGlbAndFuseActUntilEarly. -/
theorem test_pages :
    let r := { full with boot := { stage := .rom } }
    gives (.registerWrite 0x6400 1 boss) r { r with cfgResp := (0, 0) } = true ∧
    (full.pack 7).pdAck = false ∧ gives (.registerWrite 0x17004 1 boss) full { full with cfgResp := (0, 0) } = true ∧
    (full.core 31).pdAck = false ∧ gives (.registerWrite 0x3F024 1 boss) full { full with cfgResp := (0, 0) } = true ∧
    after (.registerWrite 0x24 0x5#32 boss) r (fun t => (t.hdr 0).mask == 5#32) = true := by decide +kernel

/-! ### Further clauses at their boundaries -/

/-- RTV_CTRL while a run goes on: ARM = 1 is ignored, ARM = 0 is taken after the run, and STOP ends the run whatever ARM is. -/
theorem test_rtv_ctrl_running :
    gives (.rtvArm 0 7 4#32 boss) (fetching (fetcher 0)) ((fetching (fetcher 0)).answered boss) = true ∧
    rtvAfter (.rtvDisarm 0 7 0xFFFFFFF3#32 boss) (fetcher 0) (fun y => y.st == .running && y.disarm && y.ctl == 0x00FFFFD3#32) = true ∧
    rtvAfter (.rtvStop 0 7 0x8#32 boss) (fetcher 0) (fun y => y.st == .idle && !y.pend && y.code == 0x0B) = true ∧
    rtvAfter (.rtvStop 0 7 0xC#32 boss) { fetcher 0 with disarm := true } (fun y => y.st == .idle && !y.disarm && y.code == 0x0B) = true ∧
    rtvAfter (.rtvStop 0 7 0x8#32 boss) { fetcher 0 with trig := 0, st := .parked } (fun y => y.st == .idle && y.code == 0x0B) = true ∧
    rtvAfter (.rtvStop 0 7 0xC#32 boss) { fetcher 0 with st := .armed } (fun y => y.st == .armed && y.code == 0) = true := by decide +kernel

/-- SIG and FENCE wait for a line in flight. -/
theorem test_rtv_lines_pending :
    let l : RtvLine := ⟨0, 3, 0, 0, false, 0x1000, false, none, none⟩
    let s (w : Nat) : State := fetching { fetcher w with flight := [l] }
    gives (.sig 0 7) (s (rw 12 15 0 0 255 0)) (s (rw 12 15 0 0 255 0)) = true ∧ gives (.rtvFence 0 7) (s 13) (s 13) = true := by decide +kernel

/-- A transfer into a scratchpad buffer; one whose destination is a state slot of an admitted stream ends with DMA_HANDLE. -/
theorem test_dma_scratchpad :
    let s := { full.updCore 0 (fun k => { k with handles := [(3, buf 0 0 32 0)] }) with
      dma := [(0, { running := true, actSrc := 0x1000, actDst := 0x8000000300000000#64, actLen := 64 })], host := [(0x1000, 7), (0x103F, 9)] }
    s.dmaRunning = some 0 ∧ s.epDstCode 0 0x8000000300000000#64 64 = 0 ∧
    after (.dmaBurst .ok) s (fun t => (t.core 0).spd == [(64 * 32, 7), (64 * 32 + 63, 9)] && !(t.chan 0).running && (t.chan 0).code == 0) = true := by
  decide +kernel

/-- A remote read waits for an earlier write to the same core, then returns its rows and completes its MOVE. -/
theorem test_remote_read :
    let row : List Byte := [2, 0, 1, 0] ++ toBytes 4 1 ++ toBytes 4 0 ++ toBytes 4 4 ++ toBytes 4 2
    let s := ((jobOf [[0x40, 0, 0, 0, 0, 0, 5, 0] ++ row ++ toBytes 2 1] []).updCore 1 fun k =>
      { k with handles := [(3, buf 0 0 32 0)], spd := cells (64 * 32) [5, 6, 7, 0, 0, 9] }).updCore 0 fun k =>
        { k with csq := { k.csq with rread := some ⟨1, 3, 1, (k.progWord 2 1)⟩ } }
    let w : RemoteWrite := { src := 0, dest := 1, collar := 2, ctx := 0, pc := 3, rows := [] }
    gives (.remoteRead 0) { s with rwrites := [w] } { s with rwrites := [w] } = true ∧
    after (.remoteRead 0) s (fun t => (t.core 0).csq.rread.isNone && (t.core 0).csq.pc == 2 && spdN t (64 * 48) 4 == 0x00090006) = true := by
  decide +kernel

/-- A control instruction waits for the remote write of the MOVE before it; a later one does not. -/
theorem test_issue_after_move :
    let w : RemoteWrite := { src := 0, dest := 1, collar := 2, ctx := 0, pc := 0, rows := [] }
    let s := { jobOf [[0]] [] with rwrites := [w] }
    s.earlierDone 0 .nop = false ∧ gives (.nop 0) s s = true ∧
    (let u := s.updCore 0 fun k => { k with csq := { k.csq with last := 5 } }
     issued u 0 .nop = true ∧ after (.nop 0) u (fun t => (t.core 0).csq.pc == 2) = true) := by decide +kernel

/-- The first strobe after an enable is taken below SET; a free-running base of DIV 255 counts at 256 FCLK and not before. -/
theorem test_time_further :
    after (.tbNetStrobe 9) { full with tbs := [(7, { en := true, src := 3, value := 20, holds := true })] } (fun t =>
      (t.tb 7).value == 9 && !(t.tb 7).holds && (t.hdr 15).raw == 0) = true ∧
    (let s := { full with tbs := [(0, { en := true, src := 4, div := 255 })], fclk := 256 }
     after (.freeRunAdvance 0) s (fun t => (t.tb 0).value == 1 && (t.tb 0).phase == 256 && gives (.freeRunAdvance 0) t t) = true ∧
     gives (.freeRunAdvance 0) { s with fclk := 255 } { s with fclk := 255 } = true) := by decide +kernel

/-- A calendar that has fired in this FCLK fires no second entry. -/
theorem test_one_fire_per_fclk :
    let u := (framed f0).updPack 0 fun q => { q with firedAt := some 8 }
    u.dueToFire 0 ≠ [] ∧ gives (.frameFire 0) u u = true ∧ gives (.prefireFire 0) u u = true := by decide +kernel

/-- Deadlines of frames that never fired: a parked group, and an entry without BUDGET. -/
theorem test_deadline_unfired :
    let late (s : State) : State := { s with fclk := 1000 }
    after (.frameDeadline 0) (late ((framed f0).updGroup 0 fun g => { g with parked := some .software }))
      (fun t => (t.leashOf 0).parked == 1 && (t.leashOf 0).miss == []) = true ∧
    after (.frameDeadline 0) (late ((framed f0).updPack 0 fun p => { p with entries := p.entries.map fun e => (e.1, { e.2 with budget := 0 }) }))
      (fun t => (t.leashOf 0).miss == [(5, 1)]) = true ∧
    after (.frameDeadline 0) (late (framed { f0 with phase := .fired, fire := some 3 })) (fun t => (t.leashOf 0).miss == [(1, 1)]) = true := by
  decide +kernel

/-- A save area that cannot be written ends the job with MEMERR; a slot at the last END in the FCLK of its ABORT does not stop. -/
theorem test_preemption_further :
    let p := (jobbed { stage := .running } (.job 5 0)).updCore 0 fun k => { k with preempt := true }
    after (.preemptionPoint ⟨0, .tgterr⟩) p (fun t => t.jobs == [] && status t == some 0x48 && (t.hdr 3).raw == 1#32) = true ∧
    (let a := jobbed { stage := .running, abortAt := some 8 } (.job 5 0)
     a.lastEnd { stage := .running, abortAt := some 8, slots := [⟨0, 2, 0x9000⟩] } 0 = true ∧ gives (.preemptionPoint ⟨0, .ok⟩) a a = true) := by
  decide +kernel

/-- A fault of a fabric line that no run owns, one corrected line, a retry with FLT_LIM 0, and a sample of the aging monitor. -/
theorem test_faults_further :
    full.lineOwner 0 31 = .idle ∧ after (.uncorrectableFault 0 .fabric 0 31) full (fun t => (t.core 0).ueCnt == 1) = true ∧
    after (.correctedWriteback ⟨0, some (.fabric, 0, 31)⟩) full (fun t => (t.core 0).ceCnt == 1 && (t.core 0).toWrite == []) = true ∧
    after (.controlRetry 0 true 3) { full with sd := { full.sd with fltLim := 0 } } (fun t => (t.core 0).inService) = true ∧
    after (.agingSample 1 7) full (fun t => t.power.ageOut == some (1, 7)) = true := by decide +kernel

/-- Array 3 with the CRC-32C of 64 zero bytes recorded for each column, all but column 31 bypassed. -/
def tagged : State :=
  full.updCore 0 fun k => { k with mxas := [(3, { tag := some ⟨4, 0, 0⟩, crc := some (List.replicate 32 63499111), byps := List.range 31 })] }

theorem test_readback_fails : after (.weightReadback 0 3 [(1023, 1)]) tagged (fun t =>
    ((t.core 0).mxa 3).tag == none && (t.core 0).ueCnt == 1) = true := by decide +kernel

theorem test_readback_agrees : after (.weightReadback 0 3 []) tagged (fun t =>
    ((t.core 0).mxa 3).tag == some ⟨4, 0, 0⟩ && (t.core 0).ueCnt == 0) = true := by decide +kernel

/-- FORMAT, also of a window whose geometry is not usable, and of one that host memory refuses; a snapshot beside a window write of the same stream takes the other half. -/
theorem test_kennel_further :
    (full.grants 0x4905C boss = true ∧ kenneled.kennel.en = false ∧ kenneled.kennel.persist = [] ∧ Memory.wf kenneled.host = true) ∧
    after (.format 4 boss .tgterr) { kenneled with kennel := { kenneled.kennel with pt := 0, wear := [(1, 5)] } } (fun t =>
      t.kennel.wear == [] && t.kennel.lastErr == 7) = true ∧
    (let p : Persist := { pid := 7, cadence := 1, replay := false, layout := 0, stage := 0x40000, len := 0, gid := 0, member := 0, want := true }
     let w : RecWrite := { stream := 0, pid := 7, slot := 1, seq := 5, frame := 2, layout := 0, header := [], payload := [], half := 1 }
     let s := { ported with kennel := { kenneled.kennel with active := true, persist := [(0, p)], writing := some w } }
     after (.kennelSnapshot 0) s (fun t => t.kennel.persist.map (·.2.half) == [0]) = true) := by decide +kernel

/-- A descriptor of a line that could not be read, and an ARM with a field of a slot that its group does not have. -/
theorem test_accept_further :
    let s := { full with rings := [(5, { st := .active, cls := 1, tail := 9, queue := [{ seq := 7, w := 0 }] })], groups := [(0, grp)] }
    let inbox (w : Nat) (err : Bool) : State := s.updRing 5 fun x => { x with inbox := [(8, w, err)] }
    let last (t : State) : Option (Option Nat) := (t.ring 5).queue.getLast?.map fun d => d.done.map (·.status)
    after (.descriptorAccept 5 .ok) (inbox 0 true) (fun t => last t == some (some 0x48)) = true ∧
    after (.descriptorAccept 5 .ok) (inbox (0x11 + 2 ^ (8 * 40)) false) (fun t => last t == some (some 0x43)) = true ∧
    after (.descriptorAccept 5 .ok) (inbox 0x11 false) (fun t => last t == some none) = true := by decide +kernel

/-- The last word of a key slot lets a disabled partner of that slot send again without joining. -/
theorem test_key_exhausted :
    let s := (spanned up1 none none).updPartner 1 fun p => { p with en := false, txKey := 15, exhausted := true }
    after (.keyWrite 15 7 1#32 boss) s (fun t => !(t.partner 1).exhausted && (t.partner 1).st == .up) = true := by decide +kernel

/-- A slot line in error is a fault, and no snapshot is sent; an owner that has released acknowledges an ABORT with DUAL_OWNER. -/
theorem test_migration_further :
    (let scan : List Byte := [0x21, 0, 0, 0, 3, 0, 4, 0, 5, 0, 7, 0, 0, 0, 0, 0, 1, 0, 1, 0, 1, 0, 0, 0, 0, 0, 0, 0, 0]
     let k := coreOf .idle [scan] ([(64 * 52, 8)] ++ cells (64 * 54) [0, 1, 2, 0, 0, 0, 0, 0, 1])
     let s := ({ spanned up1 (some (outgoing 2)) none with cores := [(0, { k with bad := [16 * 54 + 15] })] }).updGroup 0 fun g => { g with oldest := 5 }
     (List.range 1).findSome? (s.badSlotLine grp) = some (0, 54) ∧
     after .migSnapshot s (fun t => outIs 2 t && (t.core 0).ueCnt == 1 && t.peer.ordered.length == 0) = true) ∧
    after (.drabinAbort (sealed 0x18 1 [9, 0, 0, 0, 0x0C, 0, 0, 0]))
      (spanned up1 none (some { incoming 3 with released := true }))
      (fun t => t.peer.inc.isNone && t.peer.acptStat == 0xD00#32 && (t.hdr pgPeer).raw == 0x100#32) = true :=
  ⟨by decide +kernel, after_acted rfl (by decide +kernel)⟩

/-- An OFFER whose ARM body has a reserved bit set is refused with BAD_FIELD's code. -/
theorem test_offer_reserved :
    after (.offer (sealed 0x10 1 terms) .ok) { offered with host := Mem.write offered.host 0x8000 [0, 0, 1] }
      (fun u => u.peer.acptStat.toNat / 256 % 256 == 6 && u.peer.inc.isNone) = true :=
  after_acted rfl (by decide +kernel)

end Sys2Proof.Machine.Tests
end

/-! Writes of registers that are not carried out (R11, R373, R374, R403, R411): every register-writing command is one `cfgWrite`,
and a refusal is the event CFG_DENIED with the records of GLB. -/

namespace Sys2Proof.Machine

/-! ### Raising an event -/

theorem State.raise_hdr_raw (s : State) (p b : Nat) : ((s.raise p b).hdr p).raw = (s.hdr p).raw ||| word (2 ^ b) := by
  simp only [State.raise, State.raiseAs, State.updHdr_hdr, if_true, Hdr.fillFirst]
  split_ifs <;> rfl

/-- A valid FIRST_ERR keeps the event that it recorded (R424, R426). -/
theorem State.raise_hdr_first_of_valid {s : State} {p : Nat} (b : Nat) (h : (s.hdr p).first.getLsbD 0 = true) :
    ((s.raise p b).hdr p).first = (s.hdr p).first := by
  simp only [State.raise, State.raiseAs, State.updHdr_hdr, if_true, Hdr.fillFirst, h, ite_self]

/-- A free FIRST_ERR records an error event with its bit and the FCLK count (R424, R426). -/
theorem State.raise_hdr_first_of_free {s : State} {p b : Nat} (he : isErrEvent p b = true)
    (h : (s.hdr p).first.getLsbD 0 = false) :
    ((s.raise p b).hdr p).first = word (1 + b * 2 + (s.fclk / 1024 % 2 ^ 26) * 64) := by
  simp only [State.raise, State.raiseAs, State.updHdr_hdr, if_true, Hdr.fillFirst, he, h, Bool.false_eq_true, if_false]

theorem State.raise_hdr_ne (s : State) {p q : Nat} (b : Nat) (h : q ≠ p) : (s.raise p b).hdr q = s.hdr q := by
  simp only [State.raise, State.raiseAs, State.updHdr_hdr, if_neg h]

/-! ### A refusal (R374, R403) -/

@[simp] theorem State.deny_cfgResp (s : State) (a : Nat) (w : Bool) (acc : Acc) : (s.deny a w acc).cfgResp = (1, 0) := rfl

/-- CFG_DENIED is the only event that a refusal raises. -/
theorem State.deny_hdr (s : State) (a : Nat) (w : Bool) (acc : Acc) (p : Nat) :
    (s.deny a w acc).hdr p = (s.raise pgGlb 0).hdr p := by
  unfold State.deny
  simp only [State.respond]
  split <;> rfl

/-- A valid CFG_ERR keeps the refusal that it recorded. -/
theorem State.deny_glb_of_valid {s : State} (a : Nat) (w : Bool) (acc : Acc) (h : s.glb.cfgErr.getLsbD 0 = true) :
    (s.deny a w acc).glb = s.glb := by
  simp only [State.deny, State.respond, State.raise_glb, h, if_true]

/-- A free CFG_ERR records the access and its initiator, and CFG_ERR_ADDR its address. -/
theorem State.deny_glb_of_free {s : State} (a : Nat) (w : Bool) (acc : Acc) (h : s.glb.cfgErr.getLsbD 0 = false) :
    (s.deny a w acc).glb = { s.glb with
      cfgErr := word (1 + 2 * b2n w + 4 * b2n acc.priv + 8 * b2n acc.sec + acc.ctx.toNat * 65536)
      cfgErrAddr := word (a / 4 * 4) } := by
  simp only [State.deny, State.respond, State.raise_glb, h, Bool.false_eq_true, if_false]

theorem State.deny_frame (s : State) (a : Nat) (w : Bool) (acc : Acc) :
    s.deny a w acc =
      { s with glb := (s.deny a w acc).glb, hdrs := (s.deny a w acc).hdrs, cfgResp := (s.deny a w acc).cfgResp } := by
  unfold State.deny
  simp only [State.respond]
  split <;> rfl

/-! ### Register-writing commands -/

/-- A command that writes a register is a register access at that address, whatever its effect when it is carried out. -/
theorem exec_eq_cfgWrite_of_writes {c : Instr} {a : Nat} {acc : Acc} (s : State) (h : c.writes = some (a, acc)) :
    ∃ f : State → State, exec c s = done (s.cfgWrite a acc f) := by
  -- A command without a register to write has `writes = none`; the meaning of every other one is a `cfgWrite`.
  cases c <;> cases h <;> exact ⟨_, rfl⟩

/-- Settles O6: a register-writing command is one `cfgWrite`, whose branches that do not act are its three clauses. -/
theorem writesThatDoNotActAreAnswered : Obligations.WritesThatDoNotActAreAnswered := by
  unfold Obligations.WritesThatDoNotActAreAnswered
  refine ⟨fun c a acc s hw => ?_, fun s a w acc => ⟨rfl, ?_, ?_, ?_, ?_, ?_, ?_, ?_⟩⟩
  · obtain ⟨f, hf⟩ := exec_eq_cfgWrite_of_writes s hw
    rw [hf, done_eq]
    refine ⟨fun hr => ?_, fun hr hres => ?_, fun hr hact hreg hden => ?_⟩
    · rw [State.cfgWrite_in_reset s a acc f hr]
    · rw [State.cfgWrite_reserved s a acc f hr hres]
    · rw [State.cfgWrite_denied s a acc f hr hact hreg hden]
  · rw [State.deny_hdr]
    exact State.raise_hdr_raw s pgGlb 0
  · intro hv
    rw [State.deny_hdr]
    exact State.raise_hdr_first_of_valid 0 hv
  · intro hv
    rw [State.deny_hdr]
    exact State.raise_hdr_first_of_free (p := pgGlb) (b := 0) (by decide) hv
  · exact State.deny_glb_of_valid a w acc
  · exact State.deny_glb_of_free a w acc
  · intro p hp
    rw [State.deny_hdr]
    exact State.raise_hdr_ne s 0 hp
  · exact State.deny_frame s a w acc

end Sys2Proof.Machine

/-! The values of block scale codes (R50), and the start of a best-effort job, which begins all of its slots together with
seeded generators (R62, R292). -/

namespace Sys2Proof.Machine

/-! ### Block scales (R50) -/

/-- An E8M0 scale is read from a byte: below NaN's code its value is the power of two that the code biases by 127. -/
theorem scaleValue_e8m0_of_lt {c : Nat} (h : c < 255) : scaleValue true c = .fin false 1 ((c : Int) - 127) := by
  have hbyte : c % 256 = c := Nat.mod_eq_of_lt (by omega)
  have hnan : c ≠ 255 := by omega
  simp only [scaleValue, if_true, hbyte, if_neg hnan]

/-- Settles O60: the codes below NaN's, NaN's own code, and the E4M3 scales. -/
theorem scaleCodesHaveTheirValues : Obligations.ScaleCodesHaveTheirValues :=
  ⟨fun _ hc => scaleValue_e8m0_of_lt hc, rfl, fun _ => rfl⟩

/-! ### Updates of one core after the other -/

section
variable {α : Type} (g : α → Nat) (f : α → Core → Core)

theorem State.foldl_updCore_job (l : List α) (s : State) (r : Nat) :
    (l.foldl (fun t x => t.updCore (g x) (f x)) s).job? r = s.job? r := by
  induction l generalizing s with
  | nil => rfl
  | cons x l ih => rw [List.foldl_cons, ih, State.updCore_job_of]

/-- A core that no element names is left as it was. -/
theorem State.foldl_updCore_core_of_not_named {l : List α} {d : Nat} (s : State) (h : ∀ x ∈ l, g x ≠ d) :
    (l.foldl (fun t x => t.updCore (g x) (f x)) s).core d = s.core d := by
  induction l generalizing s with
  | nil => rfl
  | cons x l ih =>
    obtain ⟨hx, hl⟩ := List.forall_mem_cons.mp h
    rw [List.foldl_cons, ih _ hl, State.updCore_core, if_neg (Ne.symm hx)]

/-- A core that exactly one element names is updated once, by that element, from what it was. -/
theorem State.foldl_updCore_core_of_unique {l : List α} {k : Nat} (s : State) (hk : k < l.length)
    (hone : ∀ i, (hi : i < l.length) → g l[i] = g l[k] → i = k) :
    (l.foldl (fun t x => t.updCore (g x) (f x)) s).core (g l[k]) = f l[k] (s.core (g l[k])) := by
  induction l generalizing s k with
  | nil => exact absurd hk (Nat.not_lt_zero k)
  | cons x l ih =>
    rw [List.foldl_cons]
    cases k with
    | zero =>
      have hrest : ∀ y ∈ l, g y ≠ g x := by
        intro y hy hyx
        obtain ⟨i, hi, rfl⟩ := List.getElem_of_mem hy
        exact Nat.succ_ne_zero i (hone (i + 1) (Nat.succ_lt_succ hi) hyx)
      simp only [List.getElem_cons_zero]
      rw [State.foldl_updCore_core_of_not_named g f _ hrest, State.updCore_core, if_pos rfl]
    | succ k =>
      have hk' : k < l.length := Nat.lt_of_succ_lt_succ hk
      have hx : g l[k] ≠ g x := fun h => Nat.succ_ne_zero k (hone 0 (Nat.succ_pos _) h.symm).symm
      simp only [List.getElem_cons_succ]
      rw [ih _ hk' fun i hi h => Nat.succ.inj (hone (i + 1) (Nat.succ_lt_succ hi) h), State.updCore_core, if_neg hx]

end

/-! ### Starting a job (R62, R292) -/

/-- A job as its start leaves it: running, with nothing held, ended, saved or counted. -/
def Job.started (j : Job) : Job := { j with stage := .running, held := [], ended := [], saved := [], cnts := [] }

/-- What the start of the job of ring `r` does to the core of a slot, given with its number: the slot begins, with its part of
the generators that the record seeds. -/
def Job.beginSlot (j : Job) (r : Nat) (x : JobSlot × Nat) (k : Core) : Core :=
  k.begin (.job r x.2) x.1.prog x.2 0 (slotGens (seedGens j.seed j.slots.length) x.2)

theorem State.startJob_of_job {s : State} {r : Nat} {j : Job} (hj : s.job? r = some j) :
    s.startJob r = j.slots.zipIdx.foldl (fun t x => t.updCore x.1.core (j.beginSlot r x)) (s.updJob r Job.started) := by
  simp only [State.startJob, hj]
  rfl

theorem State.startJob_job {s : State} {r : Nat} {j : Job} (hj : s.job? r = some j) :
    (s.startJob r).job? r = some j.started := by
  rw [State.startJob_of_job hj, State.foldl_updCore_job (fun x : JobSlot × Nat => x.1.core), State.updJob_job,
    if_pos rfl, hj, Option.map_some]

/-- A slot whose core no other slot names begins there, on the core as it was. -/
theorem State.startJob_core_of_slot {s : State} {r k : Nat} {j : Job} (hj : s.job? r = some j) (hk : k < j.slots.length)
    (hone : ∀ i, (hi : i < j.slots.length) → j.slots[i].core = j.slots[k].core → i = k) :
    (s.startJob r).core j.slots[k].core = j.beginSlot r (j.slots[k], k) (s.core j.slots[k].core) := by
  have hk' : k < j.slots.zipIdx.length := by rwa [List.length_zipIdx]
  have h := State.foldl_updCore_core_of_unique (·.1.core) (j.beginSlot r) (s.updJob r Job.started) hk'
    fun i hi heq => hone i (by rwa [List.length_zipIdx] at hi) (by simpa only [List.getElem_zipIdx] using heq)
  simpa only [State.startJob_of_job hj, List.getElem_zipIdx, Nat.zero_add, State.updJob_core_of] using h

theorem State.startJob_core_of_not_slot {s : State} {r d : Nat} {j : Job} (hj : s.job? r = some j) (hd : d ∉ j.cores) :
    (s.startJob r).core d = s.core d := by
  have hslots : ∀ x ∈ j.slots.zipIdx, x.1.core ≠ d := by
    rintro x hx rfl
    exact hd (List.mem_map_of_mem (List.fst_mem_of_mem_zipIdx hx))
  rw [State.startJob_of_job hj, State.foldl_updCore_core_of_not_named (fun x : JobSlot × Nat => x.1.core) _ _ hslots,
    State.updJob_core_of]

/-! ### JOB_START -/

theorem exec_jobStart_of_not_jobsRun {s : State} (c : Nat) (h : s.jobsRun = false) :
    exec (.jobStart c) s = .next s.settle := by
  simp only [exec, execJobStart, h, Bool.false_eq_true, if_false, done_eq]

theorem exec_jobStart_of_none {s : State} {c : Nat} (h : s.jobToStart c = none) : exec (.jobStart c) s = .next s.settle := by
  simp only [exec, execJobStart, h, ite_self, done_eq]

theorem exec_jobStart_of_some {s : State} {c r : Nat} (h : s.jobsRun = true) (hr : s.jobToStart c = some r) :
    exec (.jobStart c) s = .next (s.startJob r).settle := by
  simp only [exec, execJobStart, h, hr, if_true, done_eq]

/-- Settles O40: JOB_START starts the chosen job, whose slots begin each on its own core. -/
theorem readyJobsStartOnFreeCores : Obligations.ReadyJobsStartOnFreeCores := by
  unfold Obligations.ReadyJobsStartOnFreeCores
  refine fun c s => ⟨exec_jobStart_of_not_jobsRun c, fun _ => exec_jobStart_of_none, fun r j hrun hr hj =>
    ⟨_, exec_jobStart_of_some hrun hr, ?_, fun k hk hone => ?_, fun d hd => ?_⟩⟩
  · rw [State.settle_job_of, State.startJob_job hj]
    rfl
  · rw [State.settle_core_of, State.startJob_core_of_slot hj hk hone]
    exact ⟨rfl, rfl, rfl, rfl⟩
  · rw [State.settle_core_of, State.startJob_core_of_not_slot hj hd]

end Sys2Proof.Machine

/-! The matrix arrays: what loading weight planes, storing sums and writing an output leave of a core, and the accumulator of a
product of one K-tile (R71, R80, R81, R85, R168, R178). -/

namespace Sys2Proof.Machine

/-! ### Updates of one array after the other -/

/-- Updates of arrays leave the rest of the core as it was. -/
theorem Core.foldl_updMxa_frame {α : Type} (g : α → Nat) (f : α → Mxa → Mxa) (l : List α) (k : Core) :
    ∃ ms, l.foldl (fun k x => k.updMxa (g x) (f x)) k = { k with mxas := ms } := by
  induction l generalizing k with
  | nil => exact ⟨k.mxas, rfl⟩
  | cons x l ih => exact ih (k.updMxa (g x) (f x))

/-- Arrays that are updated once each are updated from what they were. -/
theorem Core.foldl_updMxa_mxa_of_nodup (f : Nat → Mxa → Mxa) {l : List Nat} (h : l.Nodup) (k : Core) (a : Nat) :
    (l.foldl (fun k a => k.updMxa a (f a)) k).mxa a = if a ∈ l then f a (k.mxa a) else k.mxa a := by
  induction l generalizing k with
  | nil => rfl
  | cons b l ih =>
    obtain ⟨hb, hl⟩ := List.nodup_cons.mp h
    rw [List.foldl_cons, ih hl, Core.updMxa_mxa]
    by_cases hab : a = b
    · subst hab
      simp [hb]
    · simp [hab]

/-! ### LOADW (R71, R168) -/

/-- The tile that LOADW takes to array `a`: K-tile KT, and the 32 columns of logical n-group NG that the array holds. -/
def loadwTile (k : Core) (w : IWord) (a : Nat) : TileSrc :=
  let f := fmtOr (nbits w 128 4)
  let quad := IWord.w0 w 11 11 == 1
  ⟨⟨k.entry (IWord.by w 4 2), f, IWord.by w 8 2, IWord.by w 10 2, none⟩, ktOf f quad, IWord.by w 12 2,
    fun x => 128 * IWord.by w 14 2 + 32 * a + x, IWord.by w 10 2, quad, 0⟩

/-- What LOADW makes of array `a` of AMASK. -/
def loadwArray (k : Core) (w : IWord) (a : Nat) (m : Mxa) : Mxa :=
  { m.load (k.planeOf m (loadwTile k w a)) (some ⟨IWord.by w 4 2, IWord.by w 12 2, IWord.by w 14 2⟩) true with
    quad := IWord.w0 w 11 11 == 1 }

theorem loadwArray_active (k : Core) (w : IWord) (a : Nat) (m : Mxa) :
    (loadwArray k w a m).active = k.planeOf m (loadwTile k w a) := by
  simp only [loadwArray, Mxa.load]

theorem loadwArray_acm (k : Core) (w : IWord) (a : Nat) (m : Mxa) : (loadwArray k w a m).acm = m.acm := by
  simp only [loadwArray, Mxa.load]

theorem loadwArray_byps (k : Core) (w : IWord) (a : Nat) (m : Mxa) : (loadwArray k w a m).byps = m.byps := by
  simp only [loadwArray, Mxa.load]

theorem loadwArray_crc (k : Core) (w : IWord) (a : Nat) (m : Mxa) :
    (loadwArray k w a m).crc = some (columnCrcs (loadwArray k w a m).active) := by
  simp only [loadwArray, Mxa.load, if_true]

/-- LOADW updates the arrays of AMASK. -/
theorem loadwEff_eq_foldl (k : Core) (w : IWord) : (loadwEff k w).k =
    ((List.range 4).filter fun a => decide (nbits w (12 + a) 1 = 1)).foldl (fun k' a => k'.updMxa a (loadwArray k w a)) k := by
  simp only [List.foldl_filter, decide_eq_true_eq]
  rfl

theorem loadwEff_mxa (k : Core) (w : IWord) {a : Nat} (ha : a < 4) :
    (loadwEff k w).k.mxa a = if nbits w (12 + a) 1 = 1 then loadwArray k w a (k.mxa a) else k.mxa a := by
  rw [loadwEff_eq_foldl, Core.foldl_updMxa_mxa_of_nodup _ (List.nodup_range.filter _)]
  simp only [List.mem_filter, List.mem_range, decide_eq_true_eq, ha, true_and]

theorem loadwEff_frame (k : Core) (w : IWord) : ∃ ms, (loadwEff k w).k = { k with mxas := ms } := by
  rw [loadwEff_eq_foldl]
  exact Core.foldl_updMxa_frame _ _ _ k

/-! ### The sums in accumulator memory (R80, R85) -/

/-- The accumulator cell of an element: its array, and the address of row and column in it. -/
def MatEl.cell (quad : Bool) (x : MatEl) : Nat × Nat :=
  (x.gc.arr, 32 * acmRow quad x.h (x.m - x.mc * (if quad then 256 else 512)) + x.gc.col)

/-- Stores a value at an address of an array's accumulator memory. -/
def Mxa.setAcm (m : Mxa) (i : Nat) (x : F32) : Mxa := { m with acm := Sparse.set 0 m.acm i x }

theorem Mxa.get_setAcm {m : Mxa} (h : Sparse.rising m.acm = true) (i : Nat) (x : F32) (j : Nat) :
    Sparse.get 0 (m.setAcm i x).acm j = if j = i then x else Sparse.get 0 m.acm j :=
  Sparse.get_set 0 m.acm i x h j

theorem Mxa.rising_setAcm {m : Mxa} (h : Sparse.rising m.acm = true) (i : Nat) (x : F32) :
    Sparse.rising (m.setAcm i x).acm = true := by
  simp only [Mxa.setAcm, Sparse.set]
  split_ifs
  · exact Sparse.rising_del _ _ h
  · exact Sparse.rising_put _ _ _ h

/-- The walk's elements are stored one after the other, each in its cell. -/
theorem acmAfter_eq_foldl (quad : Bool) (k : Core) (els : List MatEl) : acmAfter quad k els =
    els.foldl (fun k e => k.updMxa (e.cell quad).1 fun m => m.setAcm (e.cell quad).2 e.acc.value) k := rfl

theorem acmAfter_cons (quad : Bool) (k : Core) (e : MatEl) (els : List MatEl) :
    acmAfter quad k (e :: els) = acmAfter quad (k.updMxa (e.cell quad).1 fun m => m.setAcm (e.cell quad).2 e.acc.value) els := rfl

theorem acmAfter_append (quad : Bool) (k : Core) (pre post : List MatEl) :
    acmAfter quad k (pre ++ post) = acmAfter quad (acmAfter quad k pre) post := List.foldl_append

theorem acmAfter_frame (quad : Bool) (k : Core) (els : List MatEl) : ∃ ms, acmAfter quad k els = { k with mxas := ms } := by
  rw [acmAfter_eq_foldl]
  exact Core.foldl_updMxa_frame _ _ els k

theorem acmAfter_mxa_tag (quad : Bool) (k : Core) (els : List MatEl) (a : Nat) :
    ((acmAfter quad k els).mxa a).tag = (k.mxa a).tag := by
  induction els generalizing k with
  | nil => rfl
  | cons e els ih =>
    rw [acmAfter_cons, ih, Core.updMxa_mxa]
    split_ifs with h
    · rw [h]; rfl
    · rfl

/-- Storing an element keeps the canonical form of every accumulator memory. -/
theorem rising_acm_store {quad : Bool} {k : Core} {a : Nat} (e : MatEl) (h : Sparse.rising (k.mxa a).acm = true) :
    Sparse.rising ((k.updMxa (e.cell quad).1 fun m => m.setAcm (e.cell quad).2 e.acc.value).mxa a).acm = true := by
  rw [Core.updMxa_mxa]
  split_ifs with ha
  · rw [← ha]; exact Mxa.rising_setAcm h _ _
  · exact h

theorem acmAfter_rising (quad : Bool) {k : Core} {a : Nat} (els : List MatEl) (h : Sparse.rising (k.mxa a).acm = true) :
    Sparse.rising ((acmAfter quad k els).mxa a).acm = true := by
  induction els generalizing k with
  | nil => exact h
  | cons e els ih => exact ih (rising_acm_store e h)

/-- A cell that no element of the walk has keeps its value. -/
theorem acmAfter_get_of_not_cell {quad : Bool} {k : Core} {c : Nat × Nat} {els : List MatEl} (hc : ∀ x ∈ els, x.cell quad ≠ c)
    (h : Sparse.rising (k.mxa c.1).acm = true) :
    Sparse.get 0 ((acmAfter quad k els).mxa c.1).acm c.2 = Sparse.get 0 (k.mxa c.1).acm c.2 := by
  induction els generalizing k with
  | nil => rfl
  | cons e els ih =>
    obtain ⟨he, hels⟩ := List.forall_mem_cons.mp hc
    rw [acmAfter_cons, ih hels (rising_acm_store e h), Core.updMxa_mxa]
    split_ifs with ha
    · have hi : c.2 ≠ (e.cell quad).2 := fun hi => he (Prod.ext ha.symm hi.symm)
      rw [← ha, Mxa.get_setAcm h, if_neg hi]
    · rfl

/-- The last element that has a cell leaves there the value that conversion receives. -/
theorem acmAfter_get_of_last (quad : Bool) {k : Core} (pre : List MatEl) {e : MatEl} {post : List MatEl}
    (hpost : ∀ x ∈ post, x.cell quad ≠ e.cell quad) (h : Sparse.rising (k.mxa (e.cell quad).1).acm = true) :
    Sparse.get 0 ((acmAfter quad k (pre ++ e :: post)).mxa (e.cell quad).1).acm (e.cell quad).2 = e.acc.value := by
  have hpre := acmAfter_rising quad pre h
  rw [acmAfter_append, acmAfter_cons, acmAfter_get_of_not_cell hpost (rising_acm_store e hpre), Core.updMxa_mxa, if_pos rfl,
    Mxa.get_setAcm hpre, if_pos rfl]

/-! ### One K-tile, one pass (R81) -/

theorem Prod.tiles_eq_one {p : Prod} (hpos : 0 < p.kDim) (hle : p.kDim ≤ p.kt) : p.tiles = 1 :=
  Nat.div_eq_of_lt_le (by omega) (by omega)

theorem Prod.terms_of_one_tile {p : Prod} (ht : p.tiles = 1) (hp : p.passes = 0) : p.terms = [(0, 0)] := by
  simp [Prod.terms, ht, hp, passCount]

/-- The reduction indices of the first K-tile are those below K, when K does not exceed the tile. -/
theorem filter_tile_zero {n kt : Nat} (h : n ≤ kt) :
    ((List.range kt).map fun i => 0 * kt + i).filter (fun j => decide (j < n)) = List.range n := by
  obtain ⟨d, rfl⟩ := Nat.exists_eq_add_of_le h
  have hbelow : (List.range n).filter (fun j => decide (j < n)) = List.range n := List.filter_eq_self.mpr (by simp)
  have hbeyond : ((List.range d).map (n + ·)).filter (fun j => decide (j < n)) = [] := List.filter_eq_nil_iff.mpr (by simp)
  simp only [Nat.zero_mul, Nat.zero_add, List.map_id', List.range_add, List.filter_append, hbelow, hbeyond, List.append_nil]

theorem Core.weightPart_one_pass (k : Core) (o : Oper) (q mat r c : Nat) : k.weightPart o 0 q mat r c = k.fvAt o mat r c := rfl

theorem Core.reduceElem_acc_of_one_term (k : Core) {p : Prod} (h m n : Nat) (at_ : Nat → Nat → Nat) (fold : Nat → Nat)
    (hp : p.passes = 0) (hs : p.spill = 0) (hpos : 0 < p.kDim) (hle : p.kDim ≤ p.kt) :
    (k.reduceElem p h m n at_ fold).acc
      = f32Add 0 (groupSum ((List.range p.kDim).map fun j => (k.actPart p.a 0 0 p.kt h h m j).mul (k.fvAt p.w h j n))) := by
  have hterms := Prod.terms_of_one_tile (Prod.tiles_eq_one hpos hle) hp
  simp only [Core.reduceElem, hterms, List.foldl_cons, List.foldl_nil, hs, ne_eq, not_true_eq_false, false_and, if_false,
    filter_tile_zero hle, hp, Core.weightPart_one_pass, List.zip_map', List.map_map]
  rfl

/-! ### The planes that a streaming product leaves (R71, R168, R178) -/

theorem ceilDiv_pos {a b : Nat} (ha : 0 < a) (hb : 0 < b) : 0 < ceilDiv a b := Nat.div_pos (by omega) hb

theorem walkBases_flatten_ne_nil {widths : List Nat} {N : Nat} (stoch : Bool) (hw : widths.foldl (· + ·) 0 ≠ 0) (hN : 0 < N) :
    (walkBases widths N stoch).flatten ≠ [] := by
  have hfirst : ∀ b, 0 < b → 0 ∈ List.range (ceilDiv N b) := fun b hb => List.mem_range.mpr (ceilDiv_pos hN hb)
  simp only [walkBases, if_neg hw]
  split_ifs
  · have h := hfirst _ (Nat.pos_of_ne_zero hw)
    exact List.ne_nil_of_mem (List.mem_flatten.mpr ⟨_, List.mem_map_of_mem h, List.mem_cons_self⟩)
  · have h := hfirst 128 (by omega)
    exact List.ne_nil_of_mem (List.mem_flatten.mpr ⟨_, List.mem_map_of_mem h, List.mem_cons_self⟩)

/-- A product with a column, an index to reduce over and a presented column fills every array at least once. -/
theorem productFills_ne_nil {p : Prod} (quad stoch : Bool) (M : Nat) {N : Nat} {widths : List Nat}
    (hw : widths.foldl (· + ·) 0 ≠ 0) (hN : 0 < N) (hK : 0 < p.kDim) (hkt : 0 < p.kt) :
    (productFills p quad stoch M N widths).1 ≠ [] := by
  obtain ⟨⟨b, lim⟩, hb⟩ := List.exists_mem_of_ne_nil _ (walkBases_flatten_ne_nil stoch hw hN)
  have htile : 0 ∈ List.range p.tiles := List.mem_range.mpr (ceilDiv_pos hK hkt)
  intro hnil
  simp only [productFills, List.drop_eq_nil_iff] at hnil
  -- `one` lists the fills of one m-chunk; the two lists that `productFills` takes the end of are built from it.
  generalize hone : List.flatMap _ _ = one at hnil
  have hempty : one = [] := by
    rw [← List.length_eq_zero_iff]
    rw [apply_ite List.length, List.length_append] at hnil
    split_ifs at hnil <;> omega
  rw [hempty, List.flatMap_eq_nil_iff] at hone
  have hparts := List.map_eq_nil_iff.mp (List.flatMap_eq_nil_iff.mp (hone _ hb) 0 htile)
  split_ifs at hparts

/-- The fill of one array with a weight tile of a streaming product. -/
def streamFill (k : Core) (p : Prod) (quad : Bool) (widths : List Nat) (a : Nat) (m : Mxa) (x : Nat × Nat × Nat × Nat) : Mxa :=
  m.load (k.planeOf m ⟨p.w, p.kt, x.2.2.1, (x.1 + (widths.take a).foldl (· + ·) 0 + ·), x.2.1, quad, x.2.2.2⟩) none true

/-- The last fills of one array. -/
def streamArray (k : Core) (p : Prod) (quad : Bool) (widths : List Nat) (fills : List (Nat × Nat × Nat × Nat) × Nat) (a : Nat)
    (m : Mxa) : Mxa :=
  fills.1.foldl (streamFill k p quad widths a) (m.before fills.2 fills.1.length)

theorem streamPlanes_eq_foldl (k : Core) (p : Prod) (quad stoch : Bool) (M N : Nat) (widths : List Nat) :
    streamPlanes k p quad stoch M N widths = (List.range 4).foldl
      (fun k' a => k'.updMxa a (streamArray k p quad widths (productFills p quad stoch M N widths) a)) k := rfl

theorem streamPlanes_frame (k : Core) (p : Prod) (quad stoch : Bool) (M N : Nat) (widths : List Nat) :
    ∃ ms, streamPlanes k p quad stoch M N widths = { k with mxas := ms } := by
  rw [streamPlanes_eq_foldl]
  exact Core.foldl_updMxa_frame _ _ _ k

/-- A streaming fill clears the tag (R168). -/
theorem streamArray_tag (k : Core) (p : Prod) (quad : Bool) (widths : List Nat) {fills : List (Nat × Nat × Nat × Nat) × Nat}
    (h : fills.1 ≠ []) (a : Nat) (m : Mxa) : (streamArray k p quad widths fills a m).tag = none := by
  rw [streamArray, ← List.dropLast_append_getLast h, List.foldl_concat]
  rfl

theorem streamPlanes_mxa_tag (k : Core) {p : Prod} {quad stoch : Bool} {M N : Nat} {widths : List Nat}
    (h : (productFills p quad stoch M N widths).1 ≠ []) (a : Nat) :
    ((streamPlanes k p quad stoch M N widths).mxa a).tag = if a < 4 then none else (k.mxa a).tag := by
  rw [streamPlanes_eq_foldl, Core.foldl_updMxa_mxa_of_nodup _ List.nodup_range]
  simp only [List.mem_range]
  split_ifs
  · exact streamArray_tag k p quad widths h a _
  · rfl

/-! ### What the writing of an output changes (R56, R130, R205) -/

/-- The second core differs from the first at most in what the writing of an output changes: the scratchpad with its write log,
the handle table, the histograms, the broadcast register and the generators. -/
def Core.OnlyWrites (k k' : Core) : Prop :=
  k' = { k with spd := k'.spd, wlog := k'.wlog, handles := k'.handles, hist := k'.hist, bcast := k'.bcast,
                csq := { k.csq with gens := k'.csq.gens } }

theorem Core.OnlyWrites.refl (k : Core) : k.OnlyWrites k := rfl

theorem Core.OnlyWrites.trans {k k' k'' : Core} (h : k.OnlyWrites k') (h' : k'.OnlyWrites k'') : k.OnlyWrites k'' :=
  Eq.trans h' (congrArg
    (fun q : Core => { q with spd := k''.spd, wlog := k''.wlog, handles := k''.handles, hist := k''.hist, bcast := k''.bcast,
                              csq := { q.csq with gens := k''.csq.gens } }) h)

theorem Core.OnlyWrites.ite {k k' : Core} {c : Prop} [Decidable c] (h : k.OnlyWrites k') :
    k.OnlyWrites (if c then k else k') := by
  split_ifs
  · exact .refl k
  · exact h

theorem Core.OnlyWrites.mxa_eq {k k' : Core} (h : k.OnlyWrites k') (a : Nat) : k'.mxa a = k.mxa a :=
  (congrArg (Core.mxa · a) h :)

theorem Core.OnlyWrites.sregs_eq {k k' : Core} (h : k.OnlyWrites k') : k'.sregs = k.sregs := (congrArg Core.sregs h :)

theorem Core.OnlyWrites.srs_eq {k k' : Core} (h : k.OnlyWrites k') : k'.csq.srs = k.csq.srs :=
  (congrArg (Csq.srs ∘ Core.csq) h :)

/-- Writes one after the other are writes. -/
theorem Core.onlyWrites_foldl {α : Type} {f : Core → α → Core} (h : ∀ (k : Core) x, k.OnlyWrites (f k x)) (l : List α) (k : Core) :
    k.OnlyWrites (l.foldl f k) := by
  induction l generalizing k with
  | nil => exact .refl k
  | cons x l ih => exact (h k x).trans (ih _)

theorem Core.onlyWrites_bcast (k : Core) (b : Sparse Byte) : k.OnlyWrites { k with bcast := b } := rfl

theorem Core.onlyWrites_gens (k : Core) (g : Sparse DWord) : k.OnlyWrites { k with csq := { k.csq with gens := g } } := rfl

theorem Core.onlyWrites_wr (k : Core) (e : DWord) (x : Nat) (bs : List Byte) : k.OnlyWrites (k.wr e x bs) := by
  induction bs generalizing k x with
  | nil => exact .refl k
  | cons b bs ih => exact Core.OnlyWrites.trans (k' := k.wrByte e x b) rfl (ih _ _)

theorem Core.onlyWrites_wrN (k : Core) (e : DWord) (x n v : Nat) : k.OnlyWrites (k.wrN e x n v) := k.onlyWrites_wr e x _

theorem Core.onlyWrites_putPair (k : Core) (e : DWord) (x : Nat) (p : Pair32) : k.OnlyWrites (k.putPair e x p) :=
  (k.onlyWrites_wrN e x 4 _).trans (Core.onlyWrites_wrN _ e _ 4 _)

theorem Core.onlyWrites_putEl (k : Core) (e : DWord) (f : Fmt) (cols r i code : Nat) :
    k.OnlyWrites (k.putEl e f cols r i code) := by
  rw [Core.putEl]
  split_ifs <;> exact k.onlyWrites_wrN _ _ _ _

theorem Core.onlyWrites_putOut (k : Core) (e : DWord) (f : Fmt) (cols r c code : Nat) :
    k.OnlyWrites (k.putOut e f cols r c code) := by
  rw [Core.putOut]
  split_ifs
  · exact k.onlyWrites_putPair _ _ _
  · exact k.onlyWrites_putEl _ _ _ _ _ _

theorem Core.onlyWrites_markWrite (k : Core) (ref : Nat) (stoch : Bool) : k.OnlyWrites (k.markWrite ref stoch) := by
  rw [Core.markWrite]
  split_ifs <;> rfl

theorem Core.onlyWrites_histCount (k : Core) (present : Bool) (set : Nat) (ys : List F32) :
    k.OnlyWrites (k.histCount present set ys) := by
  rw [Core.histCount]
  split_ifs <;> rfl

theorem onlyWrites_spillPairs (k : Core) (e : DWord) (M N : Nat) (els : List MatEl) : k.OnlyWrites (spillPairs k e M N els) := by
  refine Core.onlyWrites_foldl (fun k x => ?_) els k
  cases x.gc.n with
  | none => exact .refl k
  | some n => exact k.onlyWrites_putPair _ _ _

theorem onlyWrites_writeScales (cv : Conv) (osc : DWord) (n : Nat) (amax : Sparse F32) (k : Core) :
    k.OnlyWrites (writeScales cv osc n amax k) :=
  Core.onlyWrites_foldl (fun k i => k.onlyWrites_wrN osc i 1 _) _ k

theorem onlyWrites_convertEls (cv : Conv) (e : DWord) (R C : Nat) (amax : Sparse F32) (els : List OutEl) (o : ConvOut) :
    o.k.OnlyWrites (convertEls cv e R C amax els o).k := by
  induction els generalizing o with
  | nil => exact .refl o.k
  | cons el els ih => exact (o.k.onlyWrites_putOut e cv.f C _ _ _).trans (ih _)

theorem onlyWrites_convertOut (cv : Conv) (hist : Bool) (hset : Nat) (e osc : DWord) (mats R C : Nat) (els : List OutEl)
    (o : ConvOut) : o.k.OnlyWrites (convertOut cv hist hset e osc mats R C els o).k := by
  rw [convertOut]
  split_ifs
  · exact (Core.onlyWrites_histCount _ _ _ _).trans (onlyWrites_convertEls _ _ _ _ _ _ _)
  · exact ((onlyWrites_writeScales _ _ _ _ _).trans (Core.onlyWrites_histCount _ _ _ _)).trans
      (onlyWrites_convertEls _ _ _ _ _ _ _)

/-! ### A streaming product -/

/-- The product of a streaming MATMUL or MATVEC (R169). -/
def productProd (k : Core) (w : IWord) : Prod :=
  let x := k.readXb (IWord.xbRef w)
  let fa := fmtOr (IWord.afmt w)
  let quad := (k.mxa 0).quad
  ⟨⟨k.entry (IWord.by w 4 2), fa, IWord.mRows w, IWord.kDim w, k.operScale x.abs x.asc⟩,
    ⟨k.entry (IWord.by w 6 2), fmtOr (IWord.wfmt w), IWord.kDim w, IWord.nCols w, k.operScale x.wbs x.wsc⟩,
    if IWord.passes w = 0 then ktOf fa quad else ktOf .bf16 quad, IWord.kDim w, IWord.passes w, IWord.spillP w⟩

/-- The core with the sums of a streaming product in its accumulators and the last weight tiles in its planes. -/
def productArrays (k : Core) (w : IWord) : Core :=
  let p := productProd k w
  let quad := (k.mxa 0).quad
  let stoch := (k.conv (IWord.ccw w) (k.readXb (IWord.xbRef w))).stoch
  let els := walkAll k p quad stoch false k.widths (IWord.mRows w) (IWord.nCols w)
  streamPlanes (acmAfter quad k els) p quad stoch (IWord.mRows w) (IWord.nCols w) k.widths

/-- Once its arrays are done, a streaming product only writes: its spilled pairs, its output and their marks. -/
theorem onlyWrites_productEff (k : Core) (w : IWord) (hist : Bool) : (productArrays k w).OnlyWrites (productEff k w hist).k := by
  simp only [productEff, productArrays, productProd]
  refine .trans (.trans ?_ (onlyWrites_convertOut _ _ _ _ _ _ _ _ _ _))
    (((Core.onlyWrites_markWrite _ _ _).trans (Core.onlyWrites_markWrite _ _ _)).trans (Core.onlyWrites_gens _ _))
  exact (Core.onlyWrites_bcast _ _).trans (.ite ((onlyWrites_spillPairs _ _ _ _ _).trans (Core.onlyWrites_markWrite _ _ _)))

theorem productArrays_frame (k : Core) (w : IWord) : ∃ ms, productArrays k w = { k with mxas := ms } := by
  obtain ⟨ms, hms⟩ := acmAfter_frame (k.mxa 0).quad k _
  obtain ⟨ms', hms'⟩ := streamPlanes_frame _ (productProd k w) (k.mxa 0).quad _ (IWord.mRows w) (IWord.nCols w) k.widths
  exact ⟨ms', hms'.trans (by rw [hms])⟩

/-- A streaming product leaves state registers and summary records. -/
theorem productEff_frame (k : Core) (w : IWord) (hist : Bool) :
    (productEff k w hist).k.sregs = k.sregs ∧ (productEff k w hist).k.csq.srs = k.csq.srs := by
  have hw := onlyWrites_productEff k w hist
  obtain ⟨ms, hms⟩ := productArrays_frame k w
  rw [hw.sregs_eq, hw.srs_eq, hms]
  exact ⟨rfl, rfl⟩

/-- A streaming product that fills its arrays clears their tags (R168). -/
theorem productEff_mxa_tag (k : Core) (w : IWord) (hist : Bool) (hN : 0 < IWord.nCols w) (hK : 0 < IWord.kDim w)
    (hw : k.widths.foldl (· + ·) 0 ≠ 0)
    (hkt : 0 < ktOf (if IWord.passes w = 0 then fmtOr (IWord.afmt w) else .bf16) (k.mxa 0).quad) (a : Nat) :
    ((productEff k w hist).k.mxa a).tag = if a < 4 then none else (k.mxa a).tag := by
  have hkt' : 0 < (productProd k w).kt := by rwa [apply_ite (ktOf · (k.mxa 0).quad)] at hkt
  rw [(onlyWrites_productEff k w hist).mxa_eq, productArrays,
    streamPlanes_mxa_tag _ (productFills_ne_nil _ _ _ hw hN hK hkt'), acmAfter_mxa_tag]

/-- Settles O50: LOADW is one update of each array of AMASK, the last element that has a cell leaves its value there, and a walk of one
term is one accumulation. -/
theorem arraysHoldWeightsAndSums : Obligations.ArraysHoldWeightsAndSums := by
  unfold Obligations.ArraysHoldWeightsAndSums
  intro k w
  refine ⟨fun a ha => ⟨fun hm => ?_, fun hm => ?_⟩, ?_, fun hist => ⟨productEff_mxa_tag k w hist, productEff_frame k w hist⟩, ?_,
    fun p h m n at_ fold hp hs hpos hle => k.reduceElem_acc_of_one_term h m n at_ fold hp hs hpos hle⟩
  · rw [loadwEff_mxa k w ha, if_neg (by omega)]
  · rw [loadwEff_mxa k w ha, if_pos hm]
    exact ⟨rfl, rfl, beq_iff_eq, loadwArray_acm _ _ _ _, loadwArray_byps _ _ _ _, loadwArray_crc _ _ _ _,
      loadwArray_active _ _ _ _⟩
  · obtain ⟨ms, hms⟩ := loadwEff_frame k w
    rw [hms]
    exact ⟨rfl, rfl, rfl⟩
  · rintro quad _ e pre post rfl cell hpost hr
    exact acmAfter_get_of_last quad pre hpost hr

end Sys2Proof.Machine

/-! FX loads (R113, R119, R412) and the histogram clear (R131): a load starts or is refused, its end installs the image only with
OK, and the sets that HIST_CLR names read as zero. -/

namespace Sys2Proof.Machine

/-- A core page's registers stand at their offsets from the page. -/
theorem coreAddr_of_lt {c : Nat} (off : Nat) (hc : c < 32) : coreAddr c off = 0x20000 + off + 0x1000 * c := by
  rw [coreAddr, if_pos hc]
  omega

/-! ### FX_LOAD -/

/-- The register access of an FX_LOAD that is carried out. -/
theorem exec_fxLoad_of_grants {c : Nat} {acc : Acc} {s : State} (v : Word) (hc : c < 32)
    (hg : s.grants (0x20058 + 0x1000 * c) acc = true) :
    exec (.fxLoad c v acc) s = .next ((s.answered acc).fxStart c v acc).settle :=
  exec_of_cfgWrite rfl (coreAddr_of_lt 0x58 hc ▸ hg) rfl

/-- A load starts in the stage FULL, on a core that runs none and in a slot that is not pinned. -/
theorem State.fxStart_of_free {s : State} {c : Nat} {v : Word} (acc : Acc) (hf : s.full = true) (hj : (s.core c).fxJob = none)
    (hp : ((s.core c).fxSlot (wbits v 19 16)).pin = false) :
    s.fxStart c v acc = s.updCore c fun k =>
      { k with fxJob := some (wbits v 19 16, wbits v 15 0, acc.ctx)
               fxStat := word (wbits v 19 16 * 16 + wbits k.fxStat 15 8 * 256) } := by
  simp [State.fxStart, hf, hj, hp]

/-- Before FULL, while a load runs, and for a pinned slot the answer is TABLE_BUSY. -/
theorem State.fxStart_of_busy {s : State} {c : Nat} {v : Word} (acc : Acc)
    (h : s.full = false ∨ (s.core c).fxJob ≠ none ∨ ((s.core c).fxSlot (wbits v 19 16)).pin = true) :
    s.fxStart c v acc = s.fxEnd c (wbits v 19 16) 3 := by
  rw [State.fxStart]
  refine if_pos ?_
  rcases h with hf | hj | hp
  · simp [hf]
  · simp [Option.isSome_iff_ne_none.mpr hj]
  · simp [hp]

/-! ### FX_LOAD_COMPLETE -/

/-- The end of a load changes FX_STAT of its core alone. -/
@[simp] theorem State.fxEnd_core (s : State) (c slot code : Nat) :
    (s.fxEnd c slot code).core c = { s.core c with fxStat := word (slot * 16 + code * 256) } := by
  simp [State.fxEnd]

/-- What the checks of R115 say of the image that a reference names, and the content they read from it. -/
def Core.fxImage (k : Core) (ref : Nat) : LoadCode × FxContent :=
  loadImage k.fxContent ((k.rd (k.entry ref) 0 (min (hExt (k.entry ref)) 4160)).map BitVec.toNat) (hExt (k.entry ref))

section
variable {s : State} {c slot ref : Nat} {ctx : BitVec 16}

theorem State.fxFinish_core_of_refGood (hj : (s.core c).fxJob = some (slot, ref, ctx))
    (hr : (s.core c).refGood ctx.toNat ref = true) (hok : ((s.core c).fxImage ref).1 = .ok) :
    (s.fxFinish c).core c = { s.core c with
      fxJob := none
      fx := (s.core c).fx.put slot
        { (s.core c).fxSlot slot with content := ((s.core c).fxImage ref).2, rom := false }
      fxStat := word (slot * 16 + LoadCode.ok.code * 256) } := by
  rw [Core.fxImage] at hok ⊢
  simp [State.fxFinish, hj, hr, hok, Core.fxSlot]

theorem State.fxFinish_core_of_refused (hj : (s.core c).fxJob = some (slot, ref, ctx))
    (hr : (s.core c).refGood ctx.toNat ref = true) (hne : ((s.core c).fxImage ref).1 ≠ .ok) :
    (s.fxFinish c).core c = { s.core c with
      fxJob := none
      fxStat := word (slot * 16 + ((s.core c).fxImage ref).1.code * 256) } := by
  rw [Core.fxImage] at hne ⊢
  simp [State.fxFinish, hj, hr, hne]

theorem State.fxFinish_core_of_refBad (hj : (s.core c).fxJob = some (slot, ref, ctx))
    (hr : (s.core c).refGood ctx.toNat ref = false) :
    (s.fxFinish c).core c = { s.core c with
      fxJob := none
      fxStat := word (slot * 16 + LoadCode.handle.code * 256) } := by
  simp [State.fxFinish, hj, hr]

/-- However a load ends, its core runs no load afterwards. -/
theorem State.fxFinish_fxJob (hj : (s.core c).fxJob = some (slot, ref, ctx)) : ((s.fxFinish c).core c).fxJob = none := by
  cases hr : (s.core c).refGood ctx.toNat ref with
  | false => rw [State.fxFinish_core_of_refBad hj hr]
  | true =>
    by_cases hok : ((s.core c).fxImage ref).1 = .ok
    · rw [State.fxFinish_core_of_refGood hj hr hok]
    · rw [State.fxFinish_core_of_refused hj hr hok]

end

/-! ### HIST_CLR -/

/-- The register access of a HIST_CLR that is carried out. -/
theorem exec_histClr_of_grants {c : Nat} {acc : Acc} {s : State} (v : Word) (hc : c < 32)
    (hg : s.grants (0x20084 + 0x1000 * c) acc = true) :
    exec (.histClr c v acc) s = .next ((s.answered acc).updCore c fun k => k.histClear v).settle :=
  exec_of_cfgWrite rfl (coreAddr_of_lt 0x84 hc ▸ hg) rfl

/-- Dropping entries by their keys: a dropped key reads as the default, every other key as before. -/
theorem Sparse.get_filter_key {α : Type} (d : α) (p : Nat → Bool) (m : Sparse α) (k : Nat) :
    Sparse.get d (m.filter fun e => p e.1) k = if p k = true then Sparse.get d m k else d := by
  induction m with
  | nil => simp [Sparse.get]
  | cons e r ih =>
    obtain ⟨j, w⟩ := e
    by_cases hj : p j = true
    · by_cases hk : k = j
      · simp [Sparse.get, hk, hj]
      · simp [Sparse.get, hk, hj, ih]
    · by_cases hk : k = j
      · subst hk
        simp [hj, ih]
      · simp [Sparse.get, hk, hj, ih]

/-- Counter `i` of a set after a clear. -/
theorem Core.histClear_get (k : Core) (v : Word) {set i : Nat} (hs : set < 4) (hi : i < 68) :
    Sparse.get (0 : Word) (k.histClear v).hist (68 * set + i) =
      if v.getLsbD set = true then 0 else Sparse.get (0 : Word) k.hist (68 * set + i) := by
  have hset : (68 * set + i) / 68 = set := by omega
  rw [Core.histClear, Sparse.get_filter_key 0 (fun j => !(decide (j / 68 < 4) && v.getLsbD (j / 68))), hset]
  cases v.getLsbD set <;> simp [hs]

/-- Settles O13: FX_LOAD and its completion by the cases of their checks, HIST_CLR as a filter of the counters by their set. -/
theorem fxLoadsAndHistograms : Obligations.FxLoadsAndHistograms := by
  unfold Obligations.FxLoadsAndHistograms
  intro c v acc s
  refine ⟨fun hc hg hf hj hp => ?_, fun hc hg h => ?_, fun slot ref ctx hj => ?_, fun hc hg _ => ?_⟩
  · rw [exec_fxLoad_of_grants v hc hg, State.fxStart_of_free (s := s.answered acc) acc hf hj hp]
  · rw [exec_fxLoad_of_grants v hc hg, State.fxStart_of_busy (s := s.answered acc) acc h]
    rfl
  · refine ⟨(s.fxFinish c).settle, rfl, ?_⟩
    rw [State.settle_core_of]
    refine ⟨State.fxFinish_fxJob hj, fun hr hok => ?_, fun hr hne => ?_, fun hr => ?_⟩
    · rw [State.fxFinish_core_of_refGood hj hr hok]
      simp [Core.fxSlot, Core.fxImage]
    · rw [State.fxFinish_core_of_refused hj hr hne]
      exact ⟨rfl, rfl⟩
    · rw [State.fxFinish_core_of_refBad hj hr]
      exact ⟨rfl, rfl⟩
  · refine ⟨_, exec_histClr_of_grants v hc hg, fun set i hs hi => ?_⟩
    rw [State.settle_core_of, State.updCore_core, if_pos rfl]
    exact (s.core c).histClear_get v hs hi

end Sys2Proof.Machine

/-! The ten data instructions of a task program: an issued one leaves on its core what its effect computes, and elsewhere only what a
NaN trap and the egress positions of a frame take (R127, R138, R149, R152, R168 to R177, R180, R387). -/

namespace Sys2Proof.Machine

/-! ### Issue (R180, R193) -/

/-- An instruction that issues has its effect, on the state that its issue opens. -/
theorem State.issue_of_issues {s : State} {c : Nat} {o : Op} (act : State → IWord → State) (h : s.issues c o) :
    s.issue c o act = act (s.opened c o) (s.vctx c).w := by
  obtain ⟨hcan, hinside, hopc, hearlier, hgo⟩ := h
  simp only [State.issue, hcan, hinside, hopc, hearlier, hgo, beq_self_eq_true, Bool.and_self, if_true]
  rfl

/-- The issue itself changes the issuing core alone. -/
theorem State.opened_eq_setCore (s : State) (c : Nat) (o : Op) : ∃ k, s.opened c o = s.setCore c k := by
  unfold State.opened
  dsimp only
  split_ifs
  · exact ⟨_, rfl⟩
  · simp only [State.endFeed, State.endWait, State.updCore_updCore]
    exact ⟨_, rfl⟩

/-! ### What a data instruction can change -/

/-- A state with one core, the event pages, the jobs and the groups rewritten: all that a data instruction reaches. -/
def State.rewrite (s : State) (c : Nat) (k : Core) (hs : Sparse Hdr) (js : Sparse Job) (gs : Sparse Group) : State :=
  { s.setCore c k with hdrs := hs, jobs := js, groups := gs }

section
variable (s : State) (c : Nat) (k : Core) (hs : Sparse Hdr) (js : Sparse Job) (gs : Sparse Group)

@[simp] theorem State.rewrite_packs : (s.rewrite c k hs js gs).packs = s.packs := rfl
@[simp] theorem State.rewrite_rings : (s.rewrite c k hs js gs).rings = s.rings := rfl
@[simp] theorem State.rewrite_peer : (s.rewrite c k hs js gs).peer = s.peer := rfl
@[simp] theorem State.rewrite_kennel : (s.rewrite c k hs js gs).kennel = s.kennel := rfl

@[simp] theorem State.rewrite_core_self : (s.rewrite c k hs js gs).core c = k := (State.setCore_core s c k c).trans (if_pos rfl)

theorem State.rewrite_core_ne {d : Nat} (h : d ≠ c) : (s.rewrite c k hs js gs).core d = s.core d :=
  (State.setCore_core s c k d).trans (if_neg h)

/-- The later contents of a core count. -/
theorem State.setCore_rewrite (q : Core) : (s.setCore c q).rewrite c k hs js gs = s.rewrite c k hs js gs := by
  rw [State.rewrite, State.setCore_setCore]
  rfl

theorem State.rewrite_setCore (q : Core) : (s.rewrite c k hs js gs).setCore c q = s.rewrite c q hs js gs := by
  simp only [State.rewrite, State.setCore, Sparse.put_put]

end

theorem State.updJob_eq (s : State) (r : Nat) (f : Job → Job) : ∃ js, s.updJob r f = { s with jobs := js } := by
  unfold State.updJob
  split
  · exact ⟨_, rfl⟩
  · exact ⟨s.jobs, rfl⟩

theorem State.updFrame_eq (s : State) (gid n : Nat) (f : Frame → Frame) :
    ∃ gs, s.updFrame gid n f = { s with groups := gs } := by
  unfold State.updFrame State.updGroup
  split
  · exact ⟨_, rfl⟩
  · exact ⟨s.groups, rfl⟩

theorem State.raiseIf_eq (s : State) (b : Bool) (p i : Nat) : ∃ hs, s.raiseIf b p i = { s with hdrs := hs } := by
  cases b with
  | false => exact ⟨s.hdrs, rfl⟩
  | true => exact ⟨_, rfl⟩

/-! ### The parts of a completion -/

/-- A core with its trap's records and its vectors for a CHAINED successor rewritten. -/
def Core.trapped (k : Core) (nan : NanTrap) (chain : Option Chained) : Core :=
  { k with nan := nan, csq := { k.csq with chain := chain } }

theorem Core.trapped_trapped (k : Core) (nan nan' : NanTrap) (chain chain' : Option Chained) :
    (k.trapped nan chain).trapped nan' chain' = k.trapped nan' chain' := rfl

/-- The trap of a core's NaNs writes its record and the NaN of chained vectors on that core, raises an event and may ask a job to
park (R127 to R129). -/
theorem State.trapNans_setCore (s : State) (c : Nat) (k : Core) (prior : Option NanEv) (nans : List NanEv) :
    ∃ nan chain hs js, (s.setCore c k).trapNans c prior nans =
      s.rewrite c (k.trapped nan chain) hs js s.groups := by
  have hk : (s.setCore c k).core c = k := by rw [State.setCore_core, if_pos rfl]
  unfold State.trapNans
  simp only [hk, State.setCore_setCore]
  split
  · exact ⟨k.nan, k.csq.chain, s.hdrs, s.jobs, rfl⟩
  · generalize hu : State.raiseIf _ _ _ _ = u
    obtain ⟨hs, hraise⟩ := State.raiseIf_eq _ _ _ _
    rw [hraise] at hu
    subst hu
    split
    · split
      · obtain ⟨js, hjob⟩ := State.updJob_eq _ _ _
        exact ⟨_, _, hs, js, hjob⟩
      · exact ⟨_, _, hs, s.jobs, rfl⟩
    · exact ⟨_, _, hs, s.jobs, rfl⟩

/-- Egress positions are held with their frame, in its group (R387). -/
theorem State.tapEgress_eq (s : State) (c gid n : Nat) (bytes : List Nat) :
    ∃ gs, s.tapEgress c gid n bytes = { s with groups := gs } := by
  unfold State.tapEgress
  split
  · refine List.foldlRecOn (motive := fun t : State => ∃ gs, t = { s with groups := gs }) _ _ ⟨s.groups, rfl⟩ ?_
    rintro _ ⟨gs, rfl⟩ b -
    split
    · exact ⟨gs, rfl⟩
    · exact State.updFrame_eq _ _ _ _
  · exact ⟨s.groups, rfl⟩

/-- The landing of a core's writes refreshes the core and fills egress positions of the frame that it runs (R198, R387). -/
theorem State.landWrites_rewrite (s : State) (c : Nat) (k : Core) (hs : Sparse Hdr) (js : Sparse Job) (gs : Sparse Group) :
    ∃ gs', (s.rewrite c k hs js gs).landWrites c = s.rewrite c k.refresh hs js gs' := by
  unfold State.landWrites
  simp only [State.rewrite_core_self, State.rewrite_setCore]
  split
  · exact State.tapEgress_eq _ _ _ _ _
  · exact ⟨gs, rfl⟩

/-- A core whose program counter is past the instruction that it issued. -/
def Core.next (k : Core) : Core := { k with csq := { k.csq with pc := k.csq.pc + 1 } }

theorem State.nextInstr_rewrite (s : State) (c : Nat) (k : Core) (hs : Sparse Hdr) (js : Sparse Job) (gs : Sparse Group) :
    (s.rewrite c k hs js gs).nextInstr c = s.rewrite c k.next hs js gs := by
  rw [State.nextInstr, State.updCore, State.rewrite_core_self, State.rewrite_setCore]
  rfl

/-! ### Completion of a data instruction (R175, R180) -/

/-- Everything that the completion of a data instruction with effect `e` changes. -/
theorem State.finishData_eq (s : State) (c : Nat) (w : IWord) (e : Eff) :
    ∃ nan chain hs js gs, s.finishData c w e = s.rewrite c (e.k.trapped nan chain).refresh.next hs js gs := by
  obtain ⟨handed, hset⟩ : ∃ handed, s.finishData c w e =
      (((s.setCore c (e.k.trapped e.k.nan handed)).trapNans c e.prior e.nans).landWrites c).nextInstr c := by
    unfold State.finishData
    dsimp only
    split
    · exact ⟨e.k.csq.chain, rfl⟩
    · exact ⟨none, rfl⟩
  obtain ⟨nan, chain, hs, js, htrap⟩ := s.trapNans_setCore c (e.k.trapped e.k.nan handed) e.prior e.nans
  obtain ⟨gs, hland⟩ := s.landWrites_rewrite c (e.k.trapped nan chain) hs js s.groups
  refine ⟨nan, chain, hs, js, gs, ?_⟩
  rw [hset, htrap, Core.trapped_trapped, hland, State.nextInstr_rewrite]

/-- An issued data row completes with its effect on its core. -/
theorem State.dataRow_of_issues {s : State} {c : Nat} {o : Op} (eff : Core → IWord → Eff) (h : s.issues c o) :
    ∃ nan chain hs js gs, s.dataRow c o eff =
      s.rewrite c ((eff ((s.opened c o).core c) (s.vctx c).w).k.trapped nan chain).refresh.next hs js gs := by
  obtain ⟨nan, chain, hs, js, gs, hfin⟩ :=
    (s.opened c o).finishData_eq c (s.vctx c).w (eff ((s.opened c o).core c) (s.vctx c).w)
  obtain ⟨k, hopen⟩ := s.opened_eq_setCore c o
  refine ⟨nan, chain, hs, js, gs, ?_⟩
  rw [State.dataRow, State.issue_of_issues _ h, hfin, hopen, State.setCore_rewrite]

/-- Settles O49: each row is a data row over its effect, whose completion rewrites its own core, events, jobs and groups alone. -/
theorem dataInstructionsHaveTheirEffect : Obligations.DataInstructionsHaveTheirEffect := by
  unfold Obligations.DataInstructionsHaveTheirEffect
  intro c s w k after
  have row (i : Instr) (o : Op) (eff : Core → IWord → Eff) (hi : exec i s = done (s.dataRow c o eff)) (h : s.issues c o) :
      ∃ t, exec i s = .next t ∧ after (eff (k o) w) t := by
    obtain ⟨nan, chain, hs, js, gs, hrow⟩ := State.dataRow_of_issues eff h
    refine ⟨_, hi.trans (congrArg done hrow), ?_⟩
    simp only [after, State.settle_core_of, State.rewrite_core_self]
    refine ⟨rfl, rfl, rfl, rfl, rfl, rfl, rfl, rfl, rfl, rfl, rfl, fun d hd => State.rewrite_core_ne s c _ hs js gs hd, ?_⟩
    simp
  exact ⟨row (.loadw c) .loadw loadwEff rfl,
    row (.matmul c) .matmul (fun q v => productEff q v s.conf.hist) rfl,
    row (.matvec c) .matvec (fun q v => matvecEff q v s.conf.hist) rfl,
    row (.recur c) .recur (fun q v => recurEff q v s.conf.hist) rfl,
    row (.scan c) .scan (fun q v => scanEff q v s.conf.hist) rfl,
    row (.lconv c) .lconv (fun q v => lconvEff q v s.conf.hist) rfl,
    row (.gate c) .gate (fun q v => gateEff q v s.conf.hist) rfl,
    row (.func c) .func (fun q v => funcEff q v s.conf.hist) rfl,
    row (.reduceSeq c) .reduce reduceEff rfl,
    row (.convert c) .convert (fun q v => convertEff q v s.conf.hist) rfl⟩

end Sys2Proof.Machine

/-! How a task instruction is issued: the branches of an instruction row, each said once (R160, R180, R185, R190, R191, R193). -/

namespace Sys2Proof.Machine

/-! ### The branches of an issue -/

section
variable {s : State} {c : Nat} {o : Op} (act : State → IWord → State)

/-- A core that cannot issue leaves everything as it was. -/
theorem State.issue_of_not_canIssue (h : s.canIssue c = false) : s.issue c o act = s := by
  simp only [State.issue, h, Bool.false_and, Bool.false_eq_true, if_false]

/-- Only the row of the opcode at the program counter acts. -/
theorem State.issue_of_other_opc (h : IWord.opc (s.vctx c).w ≠ some o) : s.issue c o act = s := by
  have hopc : (IWord.opc (s.vctx c).w == some o) = false := beq_eq_false_iff_ne.mpr h
  simp only [State.issue, hopc, Bool.and_false, Bool.false_and, Bool.false_eq_true, if_false]

/-- What must complete first holds an instruction back. -/
theorem State.issue_of_not_earlierDone (h : s.earlierDone c o = false) : s.issue c o act = s := by
  simp only [State.issue, h, Bool.and_false, Bool.false_eq_true, if_false]

/-- The instruction at the program counter of core `c` is of opcode `o`, and its turn to be checked has come. -/
def State.reaches (s : State) (c : Nat) (o : Op) : Prop :=
  s.canIssue c = true ∧ (s.vctx c).inside = true ∧ IWord.opc (s.vctx c).w = some o ∧ s.earlierDone c o = true

theorem State.issue_of_fail {st : Nat} (hr : s.reaches c o) (h : s.preIssue (s.vctx c) o = .fail st) :
    s.issue c o act = s.failRun c st (32 * (s.core c).csq.pc) .program := by
  obtain ⟨hcan, hin, hopc, hdone⟩ := hr
  simp only [State.issue, hcan, hin, hopc, hdone, h, beq_self_eq_true, Bool.and_self, if_true]
  rfl

theorem State.issue_of_fault {l : Nat} (hr : s.reaches c o) (h : s.preIssue (s.vctx c) o = .fault l) :
    s.issue c o act = s.fault c .spd l 0 := by
  obtain ⟨hcan, hin, hopc, hdone⟩ := hr
  simp only [State.issue, hcan, hin, hopc, hdone, h, beq_self_eq_true, Bool.and_self, if_true]

theorem State.issue_of_wait (hr : s.reaches c o) (h : s.preIssue (s.vctx c) o = .wait) :
    s.issue c o act = s.noteWait c := by
  obtain ⟨hcan, hin, hopc, hdone⟩ := hr
  simp only [State.issue, hcan, hin, hopc, hdone, h, beq_self_eq_true, Bool.and_self, if_true]

end

/-! ### The rows of task instructions -/

section
variable {s : State} {c : Nat}

/-- Where the core cannot issue or the fetch finds an instruction, NOP is a row like the others. -/
theorem exec_nop_of_fetched (h : s.canIssue c = true → (s.vctx c).inside = true ∧ IWord.opc (s.vctx c).w ≠ none) :
    exec (.nop c) s = done (s.issue c .nop fun t _ => (t.unchain c).nextInstr c) := by
  cases hcan : s.canIssue c with
  | false => simp [exec, execNop, hcan]
  | true =>
    obtain ⟨hin, hopc⟩ := h hcan
    simp [exec, execNop, hin, hopc]

/-- A fetch outside the program ends the run with BOUNDS (R190). -/
theorem exec_nop_of_outside (hcan : s.canIssue c = true) (hin : (s.vctx c).inside = false) :
    exec (.nop c) s = done (s.failRun c stBounds (32 * (s.core c).csq.pc) .program) := by
  simp only [exec, execNop, hcan, hin, Bool.not_false, Bool.and_self, if_true]
  rfl

/-- A reserved opcode ends the run with BAD_OPCODE (R193). -/
theorem exec_nop_of_reserved (hcan : s.canIssue c = true) (hin : (s.vctx c).inside = true)
    (hopc : IWord.opc (s.vctx c).w = none) :
    exec (.nop c) s = done (s.failRun c stOpcode (32 * (s.core c).csq.pc) .program) := by
  simp only [exec, execNop, hcan, hin, hopc, Bool.not_true, Bool.and_false, Bool.false_eq_true, if_false, Option.isNone_none,
    Bool.and_self, if_true]
  rfl

/-- A row of a task instruction is one issue, except for what the row of NOP does with a fetch that finds no instruction. -/
theorem exec_eq_issue_of_task {i : Instr} {o : Op} (hi : i.task = some (c, o))
    (h : s.canIssue c = true → (s.vctx c).inside = true ∧ IWord.opc (s.vctx c).w ≠ none) :
    ∃ act, exec i s = done (s.issue c o act) := by
  cases i with
  | nop => cases hi; exact ⟨_, exec_nop_of_fetched h⟩
  | _ => cases hi <;> exact ⟨_, rfl⟩

/-- Control and synchronisation instructions but END and SIGNAL wait until no remote write of the instruction before them is under way
or unacknowledged (R180). -/
theorem State.earlierDone_iff_of_control {p : Op} (hp : p ∈ [Op.nop, Op.wait, Op.branch, Op.summary, Op.qpush, Op.qpop]) :
    s.earlierDone c p = true ↔
      (∀ w ∈ s.rwrites, ¬(w.src = c ∧ w.epoch = (s.core c).csq.epoch ∧ w.pc = (s.core c).csq.last)) ∧
      ∀ a ∈ s.racks, ¬(a.core = c ∧ a.epoch = (s.core c).csq.epoch ∧ a.pc = (s.core c).csq.last) := by
  have hsame : s.earlierDone c p = s.earlierDone c .nop := by
    simp only [List.mem_cons, List.not_mem_nil, or_false] at hp
    rcases hp with rfl | rfl | rfl | rfl | rfl | rfl <;> rfl
  rw [hsame]
  simp [State.earlierDone, and_assoc]

end

/-- Settles O48: every row is one issue, whose branches are its clauses; the row of NOP also ends a fetch that finds no instruction. -/
theorem instructionsIssueWaitFailOrFault : Obligations.InstructionsIssueWaitFailOrFault := by
  unfold Obligations.InstructionsIssueWaitFailOrFault
  intro i c o s hi
  refine ⟨fun hin hopc hdone => ?_, beq_iff_eq, beq_iff_eq, fun p hp => State.earlierDone_iff_of_control hp, fun hcan => ?_,
    fun hin ⟨p, hopc, hne⟩ => ?_, fun hcan hin hopc hdone => ?_, exec_nop_of_outside, exec_nop_of_reserved⟩
  · obtain ⟨act, hact⟩ := exec_eq_issue_of_task hi fun _ => ⟨hin, by simp [hopc]⟩
    rw [hact, State.issue_of_not_earlierDone act hdone, done_eq]
  · obtain ⟨act, hact⟩ := exec_eq_issue_of_task (s := s) hi fun h => absurd h (by simp [hcan])
    rw [hact, State.issue_of_not_canIssue act hcan, done_eq]
  · obtain ⟨act, hact⟩ := exec_eq_issue_of_task hi fun _ => ⟨hin, by simp [hopc]⟩
    rw [hact, State.issue_of_other_opc act (by simpa [hopc] using hne), done_eq]
  · obtain ⟨act, hact⟩ := exec_eq_issue_of_task hi fun _ => ⟨hin, by simp [hopc]⟩
    have hr : s.reaches c o := ⟨hcan, hin, hopc, hdone⟩
    rw [hact]
    exact ⟨fun st h => congrArg done (State.issue_of_fail act hr h), fun l h => congrArg done (State.issue_of_fault act hr h),
      fun h => congrArg done (State.issue_of_wait act hr h)⟩

end Sys2Proof.Machine

/-! Control instructions of a task program: NOP, END, BRANCH, SUMMARY and SIGNAL act at their issue (R185, R187 to R190). -/

namespace Sys2Proof.Machine

/-! ### The core of an instruction that issues -/

/-- A core whose instruction at `last` has issued: only its wait, the wait's counts and the freeze count may have changed besides. -/
def Core.issued (k : Core) (last : Nat) (waiting : Option Nat) (inWait : Nat) (freeze : Word) : Core :=
  { k with freeze := freeze, csq := { k.csq with last := last, waiting := waiting, inWait := inWait } }

/-- The state in which an instruction acts differs from the one that it found in what the issue notes of its core. -/
theorem State.opened_eq_issued (s : State) (c : Nat) (o : Op) : ∃ waiting inWait freeze,
    s.opened c o = s.setCore c ((s.core c).issued (s.core c).csq.pc waiting inWait freeze) := by
  unfold State.opened
  dsimp only
  split_ifs
  · exact ⟨_, _, _, rfl⟩
  · simp only [State.endFeed, State.endWait, State.updCore_updCore]
    exact ⟨_, _, _, rfl⟩

section
variable (s : State) (c : Nat) (o : Op)

@[simp] theorem State.opened_run : ((s.opened c o).core c).csq.run = (s.core c).csq.run := by
  obtain ⟨wt, iw, fr, h⟩ := s.opened_eq_issued c o
  simp [h, Core.issued]

@[simp] theorem State.opened_spd : ((s.opened c o).core c).spd = (s.core c).spd := by
  obtain ⟨wt, iw, fr, h⟩ := s.opened_eq_issued c o
  simp [h, Core.issued]

@[simp] theorem State.opened_groups : (s.opened c o).groups = s.groups := by
  obtain ⟨k, h⟩ := s.opened_eq_setCore c o
  rw [h, State.setCore_groups]

@[simp] theorem State.opened_jobs : (s.opened c o).jobs = s.jobs := by
  obtain ⟨k, h⟩ := s.opened_eq_setCore c o
  rw [h, State.setCore_jobs]

@[simp] theorem State.opened_job (r : Nat) : (s.opened c o).job? r = s.job? r := by
  simp [State.job?]

@[simp] theorem State.opened_ring (r : Nat) : (s.opened c o).ring r = s.ring r := by
  obtain ⟨k, h⟩ := s.opened_eq_setCore c o
  simp [h, State.ring]

end

/-! ### The end of a job (R134, R190) -/

/-- Updates of cores leave the rest of the state as it was. -/
theorem State.foldl_updCore_frame {α : Type} (g : α → Nat) (f : α → Core → Core) (l : List α) (s : State) :
    ∃ cs, l.foldl (fun t x => t.updCore (g x) (f x)) s = { s with cores := cs } := by
  induction l generalizing s with
  | nil => exact ⟨s.cores, rfl⟩
  | cons x l ih => exact ih (s.updCore (g x) (f x))

theorem State.onJobCores_eq (s : State) (ring : Nat) (f : Core → Core) : ∃ cs, s.onJobCores ring f = { s with cores := cs } := by
  unfold State.onJobCores
  split
  · exact ⟨s.cores, rfl⟩
  · exact State.foldl_updCore_frame id _ _ s

theorem State.unhalt_eq (s : State) (ring : Nat) : ∃ cs, s.unhalt ring = { s with cores := cs } := by
  unfold State.unhalt
  split
  · exact ⟨s.cores, rfl⟩
  · exact State.foldl_updCore_frame id _ _ s

/-- The end of a job takes it out of the jobs, rewrites cores, and gives its outcome to the head of its ring. -/
theorem State.endJob_eq (s : State) (ring : Nat) (cm : Cmpl) :
    ∃ cs, s.endJob ring cm = ({ s with cores := cs, jobs := s.jobs.del ring } : State).finishHead ring cm := by
  unfold State.endJob
  dsimp only
  generalize hu : s.onJobCores ring _ = u
  obtain ⟨cs, hcs⟩ := s.onJobCores_eq ring _
  rw [hcs] at hu
  subst hu
  obtain ⟨cs', hun⟩ := State.unhalt_eq { s with cores := cs } ring
  exact ⟨cs', by rw [hun]⟩

/-- The keys of a rising table lie above what its first key lies above. -/
theorem Sparse.lt_of_mem_of_above {α : Type} {m : Sparse α} {k : Nat} (hr : m.rising = true) (ha : Sparse.above k m = true) :
    ∀ e ∈ m, k < e.1 := by
  induction m with
  | nil => exact fun e he => absurd he List.not_mem_nil
  | cons e r ih =>
    simp only [Sparse.rising, Sparse.above, Bool.and_eq_true, decide_eq_true_eq] at hr ha
    exact List.forall_mem_cons.mpr ⟨ha, ih hr.2 (Sparse.above_mono r (by omega) hr.1)⟩

/-- A key taken out of a table whose keys rise is found no more. -/
theorem Sparse.find_del_self {α : Type} {m : Sparse α} {k : Nat} (hr : m.rising = true) :
    List.find? (fun e => e.1 == k) (m.del k) = none := by
  have none_above (l : Sparse α) (hl : l.rising = true) (ha : Sparse.above k l = true) :
      List.find? (fun e => e.1 == k) l = none :=
    List.find?_eq_none.mpr fun e he => by simpa using Nat.ne_of_gt (Sparse.lt_of_mem_of_above hl ha e he)
  induction m with
  | nil => rfl
  | cons e r ih =>
    have hwhole := hr
    obtain ⟨j, v⟩ := e
    simp only [Sparse.rising, Bool.and_eq_true] at hr
    rw [Sparse.del]
    split_ifs with hlt heq
    · exact none_above _ hwhole (by simpa [Sparse.above] using hlt)
    · exact none_above r hr.2 (heq ▸ hr.1)
    · rw [List.find?_cons_of_neg (by simpa using Ne.symm heq)]
      exact ih hr.2

/-- A ring whose job has ended has no job. -/
theorem State.endJob_job {s : State} {ring : Nat} (cm : Cmpl) (hr : Sparse.rising s.jobs = true) :
    (s.endJob ring cm).job? ring = none := by
  obtain ⟨cs, h⟩ := s.endJob_eq ring cm
  simp only [h, State.finishHead, State.updRing_job_of]
  exact congrArg (Option.map (·.2)) (Sparse.find_del_self hr)

/-- The command at the head of the ring takes the outcome of its job. -/
theorem State.endJob_queue {s : State} {ring : Nat} {d : Desc} {rest : List Desc} (cm : Cmpl)
    (hq : (s.ring ring).queue = d :: rest) :
    ((s.endJob ring cm).ring ring).queue = { d with done := some cm } :: rest := by
  obtain ⟨cs, h⟩ := s.endJob_eq ring cm
  have hring : ({ s with cores := cs, jobs := s.jobs.del ring } : State).ring ring = s.ring ring := rfl
  simp only [h, State.finishHead, State.updRing_ring, if_true, hring, Ring.updHead, hq]

/-! ### END (R190) -/

/-- A core whose slot has reached its END. -/
def Core.ended (k : Core) : Core := { k with csq := { k.csq with ended := true, chain := none } }

theorem State.endRun_of_frame {s : State} {c gid n k : Nat} (hrun : (s.core c).csq.run = .frame gid n k) :
    s.endRun c = s.updCore c Core.ended := by
  simp only [State.endRun, hrun]
  rfl

/-- The last END of a job ends it with OK. -/
theorem State.endRun_of_last {s : State} {c ring k : Nat} {j : Job} (hrun : (s.core c).csq.run = .job ring k)
    (hj : s.job? ring = some j) (hlast : j.ended.length + 1 = j.slots.length) :
    s.endRun c = ((s.updCore c Core.ended).updJob ring fun x => { x with ended := x.ended ++ [k] }).endJob ring { status := 0 } := by
  simp only [State.endRun, hrun, State.updJob_job, State.updCore_job_of, hj, if_true, Option.map_some, List.length_append,
    List.length_singleton, hlast]
  rfl

theorem State.updJob_rising {s : State} (ring : Nat) (f : Job → Job) (hr : Sparse.rising s.jobs = true) :
    Sparse.rising (s.updJob ring f).jobs = true := by
  unfold State.updJob
  split
  · exact Sparse.rising_put _ _ _ hr
  · exact hr

/-! ### BRANCH and SUMMARY (R187 to R189) -/

section
variable {k : Core} {w : IWord}

/-- A loop that is taken counts the pass. -/
theorem Core.branch_of_taken (hoff : sgn16 (IWord.by w 8 2) < 0) (hold : branchHolds k w = true)
    (hn : Sparse.get 0 k.csq.branches k.csq.pc < IWord.by w 10 2) :
    k.branch w = { k with csq := { k.csq with
      pc := ((k.csq.pc : Int) + sgn16 (IWord.by w 8 2)).toNat
      branches := Sparse.set 0 k.csq.branches k.csq.pc (Sparse.get 0 k.csq.branches k.csq.pc + 1) } } := by
  simp [Core.branch, hoff, hold, hn]

/-- A loop that is left starts its count again. -/
theorem Core.branch_of_left (hoff : sgn16 (IWord.by w 8 2) < 0)
    (h : branchHolds k w = false ∨ IWord.by w 10 2 ≤ Sparse.get 0 k.csq.branches k.csq.pc) :
    k.branch w = { k with csq := { k.csq with
      pc := k.csq.pc + 1, branches := Sparse.set 0 k.csq.branches k.csq.pc 0 } } := by
  have hgo : ¬ (branchHolds k w = true ∧ Sparse.get 0 k.csq.branches k.csq.pc < IWord.by w 10 2) := by
    rintro ⟨hold, hn⟩
    rcases h with h | h
    · simp [h] at hold
    · omega
  simp [Core.branch, hoff, hgo]

theorem Core.branch_of_forward (hoff : 0 ≤ sgn16 (IWord.by w 8 2)) :
    k.branch w = { k with csq := { k.csq with
      pc := if branchHolds k w then ((k.csq.pc : Int) + sgn16 (IWord.by w 8 2)).toNat else k.csq.pc + 1 } } := by
  rw [Core.branch]
  simp only [if_neg (not_lt.mpr hoff)]
  split_ifs <;> rfl

end

/-- What is written to a scratchpad does not depend on the sequencer, and leaves it as it was. -/
theorem Core.wr_csq (k : Core) (q : Csq) (e : DWord) (x : Nat) (bs : List Byte) :
    ({ k with csq := q } : Core).wr e x bs = { k.wr e x bs with csq := q } := by
  induction bs generalizing k x with
  | nil => rfl
  | cons b bs ih => exact ih (k.wrByte e x b) (x + 1)

@[simp] theorem Core.setSmark_spd (k : Core) (i : Nat) (b : Bool) : (k.setSmark i b).spd = k.spd := rfl

/-- SUMMARY stores the 16 bytes of its record. -/
theorem Core.summary_spd {k : Core} {w : IWord} (h : IWord.w0 w 15 15 = 1) :
    (k.summary w).spd = (k.wr (k.entry (IWord.by w 4 2)) (16 * IWord.by w 6 2) (k.sr (IWord.w0 w 12 11)).bytes).spd := by
  simp only [Core.summary, h, if_true, Core.setSmark_spd]
  split_ifs
  · rfl
  · rw [Core.wr_csq]
    rfl

/-! ### Sync counters (R185) -/

@[simp] theorem State.updFrame_core_of (s : State) (gid n : Nat) (f : Frame → Frame) (d : Nat) :
    (s.updFrame gid n f).core d = s.core d := by
  rw [State.updFrame, State.updGroup_core_of]

/-- A frame that is rewritten is found as its rewriting. -/
theorem State.updFrame_frame (s : State) (gid n : Nat) (f : Frame → Frame) (hn : ∀ x, (f x).n = x.n) :
    (s.updFrame gid n f).frame? gid n = (s.frame? gid n).map f := by
  have hframes (l : List Frame) : (l.map fun x => if x.n = n then f x else x).find? (·.n == n) = (l.find? (·.n == n)).map f := by
    induction l with
    | nil => rfl
    | cons x l ih =>
      by_cases hx : x.n = n
      · simp [hx, hn]
      · simp [hx, ih]
  simp only [State.frame?, State.updFrame, State.updGroup_group, if_true]
  cases s.group? gid with
  | none => rfl
  | some g => exact hframes g.frames

theorem State.counter_of_frame {s : State} {c gid m k : Nat} {f : Frame} (i : Nat)
    (hrun : (s.core c).csq.run = .frame gid m k) (hf : s.frame? gid m = some f) : s.counter c i = Sparse.get 0 f.cnts i := by
  simp only [State.counter, hrun, hf]

theorem State.counter_of_job {s : State} {c ring k : Nat} {j : Job} (i : Nat)
    (hrun : (s.core c).csq.run = .job ring k) (hj : s.job? ring = some j) : s.counter c i = Sparse.get 0 j.cnts i := by
  simp only [State.counter, hrun, hj]

/-- What an addition makes of the counters of a frame or a job. -/
def countersAdd (m : Sparse Nat) (i n : Nat) : Sparse Nat := Sparse.set 0 m i (satAdd 0xFFFF (Sparse.get 0 m i) n)

theorem countersAdd_get {m : Sparse Nat} (i n : Nat) (hr : Sparse.rising m = true) :
    Sparse.get 0 (countersAdd m i n) i = min 0xFFFF (Sparse.get 0 m i + n) := by
  rw [countersAdd, Sparse.get_set 0 m i _ hr, if_pos rfl, satAdd]

/-- A sync counter of a frame saturates at 0xFFFF. -/
theorem State.addCounter_counter_of_frame {s : State} {c gid m k : Nat} {f : Frame} (i n : Nat)
    (hrun : (s.core c).csq.run = .frame gid m k) (hf : s.frame? gid m = some f) (hr : Sparse.rising f.cnts = true) :
    (s.addCounter c i n).counter c i = min 0xFFFF (s.counter c i + n) := by
  have hadd : s.addCounter c i n = s.updFrame gid m fun f => { f with cnts := countersAdd f.cnts i n } := by
    simp only [State.addCounter, hrun, countersAdd]
  have hf' := (s.updFrame_frame gid m (fun f => { f with cnts := countersAdd f.cnts i n }) fun _ => rfl).trans
    (congrArg (Option.map _) hf)
  rw [hadd, State.counter_of_frame i (by rw [State.updFrame_core_of, hrun]) hf', State.counter_of_frame i hrun hf]
  exact countersAdd_get i n hr

/-- A sync counter of a job saturates at 0xFFFF. -/
theorem State.addCounter_counter_of_job {s : State} {c ring k : Nat} {j : Job} (i n : Nat)
    (hrun : (s.core c).csq.run = .job ring k) (hj : s.job? ring = some j) (hr : Sparse.rising j.cnts = true) :
    (s.addCounter c i n).counter c i = min 0xFFFF (s.counter c i + n) := by
  have hadd : s.addCounter c i n = s.updJob ring fun j => { j with cnts := countersAdd j.cnts i n } := by
    simp only [State.addCounter, hrun, countersAdd]
  have hj' : (s.updJob ring fun j => { j with cnts := countersAdd j.cnts i n }).job? ring
      = some { j with cnts := countersAdd j.cnts i n } := by
    rw [State.updJob_job, if_pos rfl, hj, Option.map_some]
  rw [hadd, State.counter_of_job i (by rw [State.updJob_core_of, hrun]) hj', State.counter_of_job i hrun hj]
  exact countersAdd_get i n hr

/-! ### What an issued control instruction does -/

section
variable {s : State} {c : Nat}

theorem exec_endSlot_of_issues (h : s.issues c .endOp) : exec (.endSlot c) s = .next ((s.opened c .endOp).endRun c).settle :=
  congrArg done (State.issue_of_issues _ h)

theorem exec_nop_of_issues (h : s.issues c .nop) :
    exec (.nop c) s = .next (((s.opened c .nop).unchain c).nextInstr c).settle := by
  have ⟨_, hin, hopc, _⟩ := h
  rw [exec_nop_of_fetched fun _ => ⟨hin, by simp [hopc]⟩, State.issue_of_issues _ h, done_eq]

end

/-- Settles O51: each instruction acts at its issue; END of a frame's slot and of a job's last slot, BRANCH by its three outcomes. -/
theorem controlInstructionsActAtIssue : Obligations.ControlInstructionsActAtIssue := by
  unfold Obligations.ControlInstructionsActAtIssue
  intro c s w
  refine ⟨exec_nop_of_issues, fun h _ gid n k hrun => ?_, fun h _ ring k j hrun hj hr hlast hq => ?_,
    fun h => congrArg done (State.issue_of_issues _ h), fun k => ⟨fun hoff hold hn => ?_, fun hoff h => ?_, fun hoff => ?_⟩,
    fun h => congrArg done (State.issue_of_issues _ h), fun k h => Core.summary_spd h,
    fun h _ => congrArg done (State.issue_of_issues _ h), fun i n hidle hf hj hfr hjr => ?_⟩
  · refine ⟨_, exec_endSlot_of_issues h, ?_⟩
    rw [State.endRun_of_frame (gid := gid) (n := n) (k := k) (by rw [State.opened_run, hrun])]
    simp [Core.ended, hrun]
  · obtain ⟨d, rest, hq⟩ := hq
    refine ⟨_, exec_endSlot_of_issues h, ?_⟩
    rw [State.endRun_of_last (k := k) (j := j) (by rw [State.opened_run, hrun]) (by rw [State.opened_job, hj]) hlast,
      State.settle_job_of, State.settle_ring_of]
    refine ⟨State.endJob_job _ (State.updJob_rising ring _ ?_), ?_⟩
    · rwa [State.updCore_jobs, State.opened_jobs]
    · rw [State.endJob_queue (d := d) (rest := rest) _ (by simpa using hq)]
      rfl
  · rw [Core.branch_of_taken hoff hold hn]
    exact ⟨rfl, rfl⟩
  · rw [Core.branch_of_left hoff h]
    exact ⟨rfl, rfl⟩
  · rw [Core.branch_of_forward hoff]
    exact ⟨rfl, rfl⟩
  · cases hrun : (s.core c).csq.run with
    | idle => exact absurd hrun hidle
    | frame gid m k =>
      obtain ⟨f, hframe⟩ := Option.ne_none_iff_exists'.mp (hf gid m k hrun)
      exact State.addCounter_counter_of_frame i n hrun hframe (hfr gid m k f hrun hframe)
    | job ring k =>
      obtain ⟨j, hjob⟩ := Option.ne_none_iff_exists'.mp (hj ring k hrun)
      exact State.addCounter_counter_of_job i n hrun hjob (hjr ring k j hrun hjob)

end Sys2Proof.Machine

/-! Instructions that wait, queues and moves: WAIT, QPUSH and QPOP complete once what they await has arrived, or time out; MOVE copies,
sends or asks (R182 to R186, R205, R209). -/

namespace Sys2Proof.Machine

/-! ### More of the core of an instruction that issues -/

section
variable (s : State) (c : Nat) (o : Op)

@[simp] theorem State.opened_pc : ((s.opened c o).core c).csq.pc = (s.core c).csq.pc := by
  obtain ⟨wt, iw, fr, h⟩ := s.opened_eq_issued c o
  simp [h, Core.issued]

@[simp] theorem State.opened_ctx : ((s.opened c o).core c).csq.ctx = (s.core c).csq.ctx := by
  obtain ⟨wt, iw, fr, h⟩ := s.opened_eq_issued c o
  simp [h, Core.issued]

@[simp] theorem State.opened_remote : ((s.opened c o).core c).csq.remote = (s.core c).csq.remote := by
  obtain ⟨wt, iw, fr, h⟩ := s.opened_eq_issued c o
  simp [h, Core.issued]

@[simp] theorem State.opened_entry (r : Nat) : ((s.opened c o).core c).entry r = (s.core c).entry r := by
  obtain ⟨wt, iw, fr, h⟩ := s.opened_eq_issued c o
  simp [h, Core.issued, Core.entry]

@[simp] theorem State.opened_rwrites : (s.opened c o).rwrites = s.rwrites := by
  obtain ⟨k, h⟩ := s.opened_eq_setCore c o
  rw [h, State.setCore_rwrites]

@[simp] theorem State.opened_hq (q : Nat) : (s.opened c o).hq q = s.hq q := by
  obtain ⟨k, h⟩ := s.opened_eq_setCore c o
  simp [h, State.hq]

@[simp] theorem State.endWait_run : ((s.endWait c).core c).csq.run = (s.core c).csq.run := by
  simp [State.endWait]

@[simp] theorem State.endWait_entry (r : Nat) : ((s.endWait c).core c).entry r = (s.core c).entry r := by
  simp [State.endWait, Core.entry]

@[simp] theorem State.endWait_hq (q : Nat) : (s.endWait c).hq q = s.hq q := by
  simp [State.endWait]

end

/-! ### Waiting rows (R183 to R186) -/

section
variable {s : State} {c : Nat} {o : Op} (act : State → IWord → State)

/-- What the instruction awaits has arrived. -/
theorem State.waitRow_of_arrived (h : s.issues c o) (ha : (s.opened c o).arrived c (s.vctx c).w = true) :
    s.waitRow c o act = ((act ((s.opened c o).endWait c) (s.vctx c).w).unchain c).nextInstr c := by
  rw [State.waitRow, State.issue_of_issues _ h, if_pos ha]

theorem State.waitRow_of_not_arrived (h : s.issues c o) (ha : (s.opened c o).arrived c (s.vctx c).w = false) :
    s.waitRow c o act = (s.opened c o).noteWait c := by
  rw [State.waitRow, State.issue_of_issues _ h, ha]
  rfl

end

section
variable {s : State} {c : Nat}

/-- A token of a job is in the queue at once (R184). -/
theorem exec_qpush_of_job {ring k : Nat} (h : s.issues c .qpush) (ha : (s.opened c .qpush).arrived c (s.vctx c).w = true)
    (hrun : (s.core c).csq.run = .job ring k) :
    exec (.qpush c) s = .next (((((s.opened c .qpush).endWait c).updHq (nbits (s.vctx c).w 64 6) fun h =>
      { h with tokens := h.tokens ++ [tokenOf (s.core c) c (s.vctx c).w ||| dword (h.seq * 2 ^ 40)]
               seq := (h.seq + 1) % 2 ^ 24 }).unchain c).nextInstr c).settle := by
  simp only [exec, execQpush, State.waitRow_of_arrived _ h ha, State.endWait_run, State.opened_run, hrun, tokenOf,
    State.endWait_entry, State.opened_entry, done_eq]

/-- A token of a frame holds its entry of the queue until the frame's commit (R183, R184). -/
theorem exec_qpush_of_frame {gid n k : Nat} (h : s.issues c .qpush) (ha : (s.opened c .qpush).arrived c (s.vctx c).w = true)
    (hrun : (s.core c).csq.run = .frame gid n k) :
    exec (.qpush c) s = .next ((((((s.opened c .qpush).endWait c).updHq (nbits (s.vctx c).w 64 6) fun h =>
      { h with rsv := h.rsv + 1 }).updFrame gid n fun f =>
        { f with pushed := f.pushed ++ [(nbits (s.vctx c).w 64 6, tokenOf (s.core c) c (s.vctx c).w)] }).unchain c).nextInstr
          c).settle := by
  simp only [exec, execQpush, State.waitRow_of_arrived _ h ha, State.endWait_run, State.opened_run, hrun, tokenOf,
    State.endWait_entry, State.opened_entry, done_eq]

/-- The token that a QPOP awaits is there as soon as its queue holds one. -/
theorem State.opened_arrived_of_qpop (h : s.issues c .qpop) :
    (s.opened c .qpop).arrived c (s.vctx c).w = !(s.hq (nbits (s.vctx c).w 64 6)).tokens.isEmpty := by
  obtain ⟨_, _, hopc, _, _⟩ := h
  simp only [State.arrived, hopc, State.opened_hq]

/-- The state after a QPOP has taken token `tok`, of which `rest` stay behind. -/
def State.popped (s : State) (c : Nat) (w : IWord) (tok : DWord) (rest : List DWord) : State :=
  (s.updHq (nbits w 64 6) fun h => { h with tokens := rest }).updCore c fun k =>
    { k with csq := { k.csq with tokens := k.csq.tokens.put (nbits w 80 2) tok } }

@[simp] theorem State.popped_run (s : State) (c : Nat) (w : IWord) (tok : DWord) (rest : List DWord) :
    ((s.popped c w tok rest).core c).csq.run = (s.core c).csq.run := by
  simp [State.popped]

section
variable {tok : DWord} {rest : List DWord} (h : s.issues c .qpop)
  (hq : (s.hq (nbits (s.vctx c).w 64 6)).tokens = tok :: rest)
include h hq

theorem exec_qpop_of_job {ring k : Nat} (hrun : (s.core c).csq.run = .job ring k) :
    exec (.qpop c) s =
      .next (((((s.opened c .qpop).endWait c).popped c (s.vctx c).w tok rest).unchain c).nextInstr c).settle := by
  have ha : (s.opened c .qpop).arrived c (s.vctx c).w = true := by rw [State.opened_arrived_of_qpop h, hq]; rfl
  have hrun' := (State.popped_run ((s.opened c .qpop).endWait c) c (s.vctx c).w tok rest).trans
    ((State.endWait_run _ c).trans ((s.opened_run c .qpop).trans hrun))
  rw [State.popped] at hrun' ⊢
  simp only [exec, execQpop, State.waitRow_of_arrived _ h ha, State.endWait_hq, State.opened_hq, hq, hrun', done_eq]

/-- A token popped by a frame is taken provisionally (R184). -/
theorem exec_qpop_of_frame {gid n k : Nat} (hrun : (s.core c).csq.run = .frame gid n k) :
    exec (.qpop c) s =
      .next ((((((s.opened c .qpop).endWait c).popped c (s.vctx c).w tok rest).updFrame gid n fun f =>
        { f with popped := f.popped ++ [(nbits (s.vctx c).w 64 6, tok)] }).unchain c).nextInstr c).settle := by
  have ha : (s.opened c .qpop).arrived c (s.vctx c).w = true := by rw [State.opened_arrived_of_qpop h, hq]; rfl
  have hrun' := (State.popped_run ((s.opened c .qpop).endWait c) c (s.vctx c).w tok rest).trans
    ((State.endWait_run _ c).trans ((s.opened_run c .qpop).trans hrun))
  rw [State.popped] at hrun' ⊢
  simp only [exec, execQpop, State.waitRow_of_arrived _ h ha, State.endWait_hq, State.opened_hq, hq, hrun', done_eq]

end

/-- A wait that has lasted its TIMEOUT ends its run (R186). -/
theorem exec_syncTimeout_of_expired {t : Nat} (hw : (s.core c).csq.waiting = some t) (hcan : s.canIssue c = true)
    (hin : (s.vctx c).inside = true) (hpos : 0 < timeoutOf (s.vctx c).w) (hdue : t + timeoutOf (s.vctx c).w ≤ s.fclk)
    (ha : s.arrived c (s.vctx c).w = false) :
    exec (.syncTimeout c) s = .next (s.failRun c stTimeout (32 * (s.core c).csq.pc) .program).settle := by
  simp only [exec, execSyncTimeout, hw, hcan, hin, hpos, hdue, ha, decide_true, Bool.not_false, Bool.and_self, if_true, done_eq]
  rfl

theorem exec_syncTimeout_of_early {t : Nat} (hw : (s.core c).csq.waiting = some t) (hearly : s.fclk < t + timeoutOf (s.vctx c).w) :
    exec (.syncTimeout c) s = .next s.settle := by
  have hnot : decide (t + timeoutOf (s.vctx c).w ≤ s.fclk) = false := decide_eq_false (by omega)
  simp only [exec, execSyncTimeout, hw, hnot, Bool.and_false, Bool.false_and, Bool.false_eq_true, if_false, done_eq]

end

/-! ### The rows of a MOVE (R182, R205) -/

/-- The rows that a MOVE reads, with the offsets that they go to. -/
def moveData (k : Core) (w : IWord) : List (Nat × List Byte) :=
  (moveRows w).map fun (a, b) => (b, k.rd (k.entry (IWord.by w 4 2)) a (IWord.by w 10 2))

/-- A core into whose buffer `r` the rows of a MOVE are written. -/
def Core.store (k : Core) (r : Nat) (rows : List (Nat × List Byte)) : Core :=
  rows.foldl (fun q x => q.wr (q.entry r) x.1 x.2) k

theorem Core.wr_keeps_csq (k : Core) (e : DWord) (x : Nat) (bs : List Byte) : (k.wr e x bs).csq = k.csq := by
  induction bs generalizing k x with
  | nil => rfl
  | cons b bs ih => exact ih (k.wrByte e x b) (x + 1)

theorem Core.store_csq (k : Core) (r : Nat) (rows : List (Nat × List Byte)) : (k.store r rows).csq = k.csq := by
  induction rows generalizing k with
  | nil => rfl
  | cons x rows ih => exact (ih _).trans (k.wr_keeps_csq _ _ _)

section
variable (k : Core) (last : Nat) (waiting : Option Nat) (inWait : Nat) (freeze : Word)

theorem Core.wr_issued (e : DWord) (x : Nat) (bs : List Byte) :
    (k.issued last waiting inWait freeze).wr e x bs = (k.wr e x bs).issued last waiting inWait freeze := by
  induction bs generalizing k x with
  | nil => rfl
  | cons b bs ih => exact ih (k.wrByte e x b) (x + 1)

/-- The rows are written alike before and after the issue of their MOVE. -/
theorem Core.store_issued (r : Nat) (rows : List (Nat × List Byte)) :
    (k.issued last waiting inWait freeze).store r rows = (k.store r rows).issued last waiting inWait freeze := by
  induction rows generalizing k with
  | nil => rfl
  | cons x rows ih =>
    have hx := k.wr_issued last waiting inWait freeze (k.entry r) x.1 x.2
    simp only [Core.store, List.foldl_cons]
    exact (congrArg (Core.store · r rows) hx).trans (ih _)

end

section
variable (s : State) (c : Nat) (o : Op)

theorem State.opened_moveData (w : IWord) : moveData ((s.opened c o).core c) w = moveData (s.core c) w := by
  obtain ⟨wt, iw, fr, h⟩ := s.opened_eq_issued c o
  rw [h, State.setCore_core, if_pos rfl]
  rfl

theorem State.opened_store_spd (r : Nat) (rows : List (Nat × List Byte)) :
    (((s.opened c o).core c).store r rows).spd = ((s.core c).store r rows).spd := by
  obtain ⟨wt, iw, fr, h⟩ := s.opened_eq_issued c o
  rw [h, State.setCore_core, if_pos rfl, Core.store_issued]
  rfl

end

/-! ### The completion of a MOVE -/

/-- What a completed MOVE leaves of the state in which its rows have gone out. -/
def State.moved (s : State) (c : Nat) : State := ((s.unchain c).landWrites c).nextInstr c

/-- The landing of a core's writes refreshes the core, and fills egress positions of the frame that it runs (R198, R387). -/
theorem State.landWrites_eq (s : State) (c : Nat) :
    ∃ gs, s.landWrites c = { s.setCore c (s.core c).refresh with groups := gs } := by
  unfold State.landWrites
  dsimp only
  split
  · exact State.tapEgress_eq _ _ _ _ _
  · exact ⟨s.groups, rfl⟩

@[simp] theorem State.landWrites_core (s : State) (c : Nat) : (s.landWrites c).core c = (s.core c).refresh := by
  obtain ⟨gs, h⟩ := s.landWrites_eq c
  rw [h]
  exact (s.setCore_core c _ c).trans (if_pos rfl)

@[simp] theorem State.landWrites_rwrites (s : State) (c : Nat) : (s.landWrites c).rwrites = s.rwrites := by
  obtain ⟨gs, h⟩ := s.landWrites_eq c
  rw [h, State.setCore_rwrites]

section
variable (s : State) (c : Nat)

@[simp] theorem State.moved_pc : ((s.moved c).core c).csq.pc = (s.core c).csq.pc + 1 := by
  simp [State.moved, State.nextInstr, State.unchain, Core.refresh]

@[simp] theorem State.moved_remote : ((s.moved c).core c).csq.remote = (s.core c).csq.remote := by
  simp [State.moved, State.nextInstr, State.unchain, Core.refresh]

@[simp] theorem State.moved_spd : ((s.moved c).core c).spd = (s.core c).spd := by
  simp [State.moved, State.nextInstr, State.unchain, Core.refresh]

@[simp] theorem State.moved_rwrites : (s.moved c).rwrites = s.rwrites := by
  simp [State.moved, State.nextInstr, State.unchain]

end

/-! ### MOVE (R182, R209) -/

section
variable {s : State} {c : Nat} (h : s.issues c .move)
include h

/-- A MOVE that names its source by a reference sends its rows out. -/
theorem exec_move_of_rows (href : nbits (s.vctx c).w 224 1 = 0) : ∃ mark, exec (.move c) s =
    .next (((s.opened c .move).moveOut c (s.vctx c).w (moveData (s.core c) (s.vctx c).w) mark).moved c).settle := by
  have htok : ¬ nbits (s.vctx c).w 224 1 = 1 := by omega
  rw [← State.opened_moveData s c .move]
  exact ⟨hSmark (((s.opened c .move).core c).entry (IWord.by (s.vctx c).w 4 2)),
    congrArg done ((State.issue_of_issues _ h).trans (if_neg htok))⟩

/-- The remote read for which a MOVE asks whose source is a token. -/
def moveRead (v : VCtx) (w : IWord) : RemoteRead := ⟨wbits v.token 20 16, wbits v.token 15 0, v.k.csq.pc, w⟩

/-- A MOVE whose source is a token asks for a remote read, and waits for it. -/
theorem exec_move_of_token (htok : nbits (s.vctx c).w 224 1 = 1)
    (hok : (s.opened c .move).tokenStatus ((s.opened c .move).vctx c) = 0) : exec (.move c) s =
    .next (((s.opened c .move).updCore c fun k =>
      { k with csq := { k.csq with rread := some (moveRead ((s.opened c .move).vctx c) (s.vctx c).w) } }).unchain c).settle := by
  refine congrArg done ((State.issue_of_issues _ h).trans ((if_pos htok).trans ?_))
  simp only [hok, stOk, ne_eq, not_true_eq_false, if_false]
  rfl

/-- A token that fails its checks ends the run. -/
theorem exec_move_of_bad_token (htok : nbits (s.vctx c).w 224 1 = 1)
    (hbad : (s.opened c .move).tokenStatus ((s.opened c .move).vctx c) ≠ 0) :
    exec (.move c) s = .next ((s.opened c .move).failRun c ((s.opened c .move).tokenStatus ((s.opened c .move).vctx c))
      (32 * (s.core c).csq.pc) .program).settle := by
  rw [← State.opened_pc s c .move]
  simp only [exec, execMove, State.moveRow, State.issue_of_issues _ h, htok, if_true, stOk, ne_eq, hbad, not_false_eq_true,
    done_eq]
  rfl

end

section
variable (s : State) (c : Nat) {w : IWord} (rows : List (Nat × List Byte)) (mark : Bool)

/-- Rows within the core: they are written, and SMARK goes with them. -/
theorem State.moveOut_of_local (hl : nbits w 227 1 = 0) : s.moveOut c w rows mark = s.updCore c fun k =>
    if mark then (k.store (IWord.by w 6 2) rows).setSmark (refIdx (IWord.by w 6 2)) true else k.store (IWord.by w 6 2) rows := by
  have hr : ¬ nbits w 227 1 = 1 := by omega
  rw [State.moveOut, if_neg hr]
  rfl

theorem State.moveOut_local_spd (hl : nbits w 227 1 = 0) :
    ((s.moveOut c w rows mark).core c).spd = ((s.core c).store (IWord.by w 6 2) rows).spd := by
  rw [State.moveOut_of_local s c rows mark hl, State.updCore_core, if_pos rfl]
  cases mark <;> rfl

theorem State.moveOut_local_csq (hl : nbits w 227 1 = 0) : ((s.moveOut c w rows mark).core c).csq = (s.core c).csq := by
  rw [State.moveOut_of_local s c rows mark hl, State.updCore_core, if_pos rfl, ← Core.store_csq (s.core c) (IWord.by w 6 2) rows]
  cases mark <;> rfl

theorem State.moveOut_local_rwrites (hl : nbits w 227 1 = 0) : (s.moveOut c w rows mark).rwrites = s.rwrites := by
  rw [State.moveOut_of_local s c rows mark hl, State.updCore_rwrites]

/-- The remote write as which a MOVE sends its rows into a Collar (R209). -/
def State.moveWrite (s : State) (c : Nat) (w : IWord) (rows : List (Nat × List Byte)) (mark : Bool) : RemoteWrite :=
  let k := s.core c
  { src := c, dest := nbits w 228 5, collar := nbits w 233 4, ctx := k.csq.ctx, pc := k.csq.pc, rows := rows, smark := mark
    epoch := k.csq.epoch, run := k.csq.run }

/-- Rows into a Collar: one more remote write is under way. -/
theorem State.moveOut_of_remote (hr : nbits w 227 1 = 1) : s.moveOut c w rows mark =
    ({ s with rwrites := s.rwrites ++ [s.moveWrite c w rows mark] } : State).updCore c fun k =>
      { k with csq := { k.csq with remote := k.csq.remote + 1 } } := by
  rw [State.moveOut, if_pos hr]
  rfl

theorem State.moveOut_remote_core (hr : nbits w 227 1 = 1) : (s.moveOut c w rows mark).core c =
    { s.core c with csq := { (s.core c).csq with remote := (s.core c).csq.remote + 1 } } := by
  rw [State.moveOut_of_remote s c rows mark hr, State.updCore_core, if_pos rfl]
  rfl

theorem State.moveOut_remote_rwrites (hr : nbits w 227 1 = 1) :
    (s.moveOut c w rows mark).rwrites = s.rwrites ++ [s.moveWrite c w rows mark] := by
  rw [State.moveOut_of_remote s c rows mark hr, State.updCore_rwrites]

end

/-- Settles O52: a waiting row by whether what it awaits has arrived, SYNC_TIMEOUT by its deadline, MOVE by source and destination. -/
theorem waitsQueuesAndMoves : Obligations.WaitsQueuesAndMoves := by
  unfold Obligations.WaitsQueuesAndMoves
  intro c s
  dsimp only
  refine ⟨fun h ha => congrArg done (State.waitRow_of_arrived _ h ha), fun h ha => congrArg done (State.waitRow_of_not_arrived _ h ha),
    fun h ha => ⟨fun ring k => exec_qpush_of_job h ha, fun gid n k => exec_qpush_of_frame h ha⟩,
    fun h ha => congrArg done (State.waitRow_of_not_arrived _ h ha),
    fun h tok rest hq => ⟨fun ring k => exec_qpop_of_job h hq, fun gid n k => exec_qpop_of_frame h hq⟩, fun h hq => ?_,
    fun t hw hcan hin hpos => ⟨fun hdue ha => exec_syncTimeout_of_expired hw hcan hin hpos hdue ha, exec_syncTimeout_of_early hw⟩,
    fun h href hl => ?_, fun h href hr => ?_, fun h htok => ⟨fun hok => ?_, ?_⟩⟩
  · exact congrArg done (State.waitRow_of_not_arrived _ h (by rw [State.opened_arrived_of_qpop h, hq]; rfl))
  · obtain ⟨mark, hmove⟩ := exec_move_of_rows h href
    refine ⟨_, hmove, ?_⟩
    simp only [State.settle_core_of, State.settle_rwrites, State.moved_pc, State.moved_rwrites, State.moved_spd,
      State.moveOut_local_csq _ c _ mark hl, State.moveOut_local_rwrites _ c _ mark hl, State.moveOut_local_spd _ c _ mark hl,
      State.opened_pc, State.opened_rwrites, State.opened_store_spd]
    exact ⟨trivial, trivial, rfl⟩
  · obtain ⟨mark, hmove⟩ := exec_move_of_rows h href
    refine ⟨_, (s.opened c .move).moveWrite c (s.vctx c).w (moveData (s.core c) (s.vctx c).w) mark, hmove, ?_⟩
    simp only [State.settle_core_of, State.settle_rwrites, State.moved_remote, State.moved_rwrites, State.moved_spd,
      State.moveOut_remote_core _ c _ mark hr, State.moveOut_remote_rwrites _ c _ mark hr, State.opened_remote,
      State.opened_rwrites, State.opened_spd]
    exact ⟨trivial, rfl, rfl, rfl, State.opened_ctx s c .move, rfl, trivial, trivial⟩
  · refine ⟨_, exec_move_of_token h htok hok, ?_⟩
    simp [State.unchain]
  · rintro st rfl hbad
    exact exec_move_of_bad_token h htok hbad

end Sys2Proof.Machine

/-! END collection and the commit of a frame: what a commit leaves of the cores' runs, the frame counters and the peer port (R160, R249,
R274, R322). -/

namespace Sys2Proof.Machine

/-! ### What most of a commit leaves alone -/

/-- The parts of the state that a commit changes in few places: the peer port, the telemetry, and what each core runs. -/
def State.standing (s : State) : Peer × Tele × (Nat → Run) := (s.peer, s.tele, fun c => (s.core c).csq.run)

section
variable (s : State)

theorem State.foldl_standing {α : Type} (f : State → α → State) (l : List α) (h : ∀ t x, (f t x).standing = t.standing) :
    (l.foldl f s).standing = s.standing := by
  induction l generalizing s with
  | nil => rfl
  | cons x l ih => rw [List.foldl_cons, ih, h]

theorem State.ite_standing {p : Prop} [Decidable p] {a b : State} (ha : a.standing = s.standing) (hb : b.standing = s.standing) :
    (if p then a else b).standing = s.standing := by
  split_ifs
  · exact ha
  · exact hb

/-- An update that keeps the sequencer of its core. -/
theorem State.updCore_standing (c : Nat) {f : Core → Core} (h : ∀ k, (f k).csq = k.csq) : (s.updCore c f).standing = s.standing := by
  have hrun (d : Nat) : ((s.updCore c f).core d).csq.run = (s.core d).csq.run := by
    rw [State.updCore_core]
    split_ifs with hd
    · rw [h, hd]
    · rfl
  simp only [State.standing, State.updCore_peer, State.updCore_tele, hrun]

@[simp] theorem State.raise_standing (p b : Nat) : (s.raise p b).standing = s.standing := rfl

@[simp] theorem State.raiseIf_standing (b : Bool) (p i : Nat) : (s.raiseIf b p i).standing = s.standing := by
  cases b <;> rfl

@[simp] theorem State.updGroup_standing (gid : Nat) (f : Group → Group) : (s.updGroup gid f).standing = s.standing := by
  simp [State.standing]

@[simp] theorem State.updLeash_standing (m : Nat) (f : Leash → Leash) : (s.updLeash m f).standing = s.standing := rfl

@[simp] theorem State.updPack_standing (p : Nat) (f : Pack → Pack) : (s.updPack p f).standing = s.standing := rfl

@[simp] theorem State.updRing_standing (r : Nat) (f : Ring → Ring) : (s.updRing r f).standing = s.standing := rfl

@[simp] theorem State.hostWrite_standing (a : Nat) (bs : List Byte) : (s.hostWrite a bs).standing = s.standing := by
  rw [State.hostWrite_eq]
  rfl

@[simp] theorem State.hostPut_standing (a n v : Nat) : (s.hostPut a n v).standing = s.standing := by
  simp [State.hostPut]

@[simp] theorem State.traceRec_standing (ty c i n d : Nat) : (s.traceRec ty c i n d).standing = s.standing := by
  simp [State.standing]

@[simp] theorem State.leashAll_standing (g : Group) (f : Leash → Leash) : (s.leashAll g f).standing = s.standing :=
  State.foldl_standing s _ _ fun t m => t.updLeash_standing m.stream f

/-! ### Retriever runs (R215) -/

@[simp] theorem State.updCore_updRtv_standing (c r : Nat) (f : Rtv → Rtv) :
    (s.updCore c fun k => k.updRtv r f).standing = s.standing := s.updCore_standing c fun _ => rfl

@[simp] theorem State.rtvCode_standing (c r code : Nat) : (s.rtvCode c r code).standing = s.standing := by
  rw [State.rtvCode, State.raiseIf_standing, State.updCore_updRtv_standing]

@[simp] theorem State.rtvTrigger_standing (c r frame : Nat) : (s.rtvTrigger c r frame).standing = s.standing := by
  unfold State.rtvTrigger
  dsimp only
  split_ifs
  · rfl
  · exact s.rtvCode_standing c r _
  · exact s.updCore_updRtv_standing c r _

@[simp] theorem State.triggerAll_standing (gid : Nat) (g : Group) (trig frame : Nat) :
    (s.triggerAll gid g trig frame).standing = s.standing :=
  State.foldl_standing s _ _ fun t k => State.foldl_standing t _ _ fun u r => u.rtvTrigger_standing (g.core k) r frame

@[simp] theorem State.endRuns_standing (gid : Nat) (g : Group) (n : Nat) (discard : Bool) :
    (s.endRuns gid g n discard).standing = s.standing := by
  refine State.foldl_standing s _ _ fun t k => State.foldl_standing t _ _ fun u r => State.ite_standing u ?_ ?_
  · exact (State.rtvCode_standing _ _ _ _).trans
      ((State.updCore_updRtv_standing _ _ _ _).trans (u.updCore_updRtv_standing _ _ _))
  · exact u.updCore_updRtv_standing _ _ _

/-! ### The outputs of a frame (R387, R393) -/

@[simp] theorem State.startRelease_standing (lane : Nat) (ws : List (Word × BitVec 16)) :
    (s.startRelease lane ws).standing = s.standing := by
  unfold State.startRelease
  dsimp only
  split_ifs <;> rfl

@[simp] theorem State.releaseLane_standing (gid : Nat) (g : Group) (f : Frame) (b : Bind) :
    (s.releaseLane gid g f b).standing = s.standing := by
  simp only [State.releaseLane, State.startRelease_standing]
  rfl

@[simp] theorem State.ackTile_standing (surf gid n tile : Nat) (wrote late : Bool) :
    (s.ackTile surf gid n tile wrote late).standing = s.standing := by
  simp only [State.ackTile, State.raiseIf_standing]
  rfl

@[simp] theorem State.writeTile_standing (gid : Nat) (g : Group) (binds : List Nat) (n surf tile : Nat) :
    (s.writeTile gid g binds n surf tile).standing = s.standing := by
  simp only [State.writeTile, State.ackTile_standing]
  rfl

@[simp] theorem State.answerResolves_standing (gid : Nat) (g : Group) (binds : List Nat) (n : Nat) (ok late : Bool) :
    (s.answerResolves gid g binds n ok late).standing = s.standing := by
  refine State.foldl_standing _ _ _ fun t x => ?_
  split_ifs
  · exact t.writeTile_standing _ _ _ _ _ _
  · exact t.ackTile_standing _ _ _ _ _ _

/-! ### Fences and records (R296, R299, R300) -/

@[simp] theorem State.fenceRegress_standing (f src : Nat) : (s.fenceRegress f src).standing = s.standing := by
  unfold State.fenceRegress
  dsimp only
  split_ifs <;> rfl

@[simp] theorem State.mirrorFence_standing (f : Nat) (x : Fence) : (s.mirrorFence f x).standing = s.standing := by
  simp [State.mirrorFence]

@[simp] theorem State.setFence_standing (f : Nat) (x : Fence) : (s.setFence f x).standing = s.standing := by
  simp only [State.setFence, State.mirrorFence_standing]
  rfl

@[simp] theorem State.signalFence_standing (f : Nat) (x : DWord) (src : Nat) : (s.signalFence f x src).1.standing = s.standing := by
  have hregress (e : Option (Nat × DWord)) : ((e.map fun e => s.fenceRegress f e.1).getD s).standing = s.standing := by
    cases e <;> simp
  unfold State.signalFence
  split
  · rfl
  · exact State.ite_standing s ((State.mirrorFence_standing _ _ _).trans (hregress _))
      ((State.setFence_standing _ _ _).trans (hregress _))

@[simp] theorem State.frameFence_standing (g : Group) (n : Nat) : (s.frameFence g n).1.standing = s.standing := by
  unfold State.frameFence
  split
  · split_ifs <;> simp
  · rfl

@[simp] theorem State.writeHead_standing (r : Nat) : (s.writeHead r).standing = s.standing := by
  simp [State.writeHead]

@[simp] theorem State.ringSignal_standing (r : Nat) : (s.ringSignal r).standing = s.standing := by
  have hmsg : (if (s.ring r).msgAddr = 0 then s else s.hostPut (s.ring r).msgAddr 4 (s.ring r).msgData.toNat).standing
      = s.standing := by split_ifs <;> simp
  unfold State.ringSignal
  dsimp only
  split
  · exact hmsg
  · exact hmsg

@[simp] theorem State.notify_standing (r : Nat) (c : CRec) : (s.notify r c).standing = s.standing := by
  unfold State.notify
  dsimp only
  split_ifs <;> simp

/-! ### The end of a frame (R296, R393) -/

@[simp] theorem State.openTiles_standing (gid n : Nat) : (s.openTiles gid n).standing = s.standing :=
  State.foldl_standing _ _ _ fun _ _ => rfl

@[simp] theorem State.drain_standing (gid fuel : Nat) : (s.drain gid fuel).standing = s.standing := by
  induction fuel generalizing s with
  | zero => rfl
  | succ fuel ih =>
    rw [State.drain]
    split
    · rfl
    · split
      · rfl
      · split
        · rw [ih, State.openTiles_standing]
          split
          · split_ifs
            · rfl
            · rw [State.notify_standing]
              rfl
          · rfl
        · rfl

@[simp] theorem State.finish_standing (gid n status flags : Nat) (ok : Bool) :
    (s.finish gid n status flags ok).standing = s.standing := by
  unfold State.finish
  split
  · rw [State.drain_standing]
    rfl
  · rfl

end

/-! ### A commit outside a migration (R322) -/

/-- Rewrites the telemetry, as a commit and a miss do. -/
def State.updTele (s : State) (f : Tele → Tele) : State := { s with tele := f s.tele }

@[simp] theorem State.updTele_standing (s : State) (f : Tele → Tele) :
    (s.updTele f).standing = (s.standing.1, f s.standing.2.1, s.standing.2.2) := rfl

/-- The telemetry with one more miss. -/
def Tele.missed (t : Tele) : Tele := { t with misses := satWord t.misses 1 }

section
variable {s : State} {p : Peer} {tele : Tele} {run : Nat → Run} (h : s.standing = (p, tele, run)) (hout : p.out = none)
  (hinc : p.inc = none)
include h hout hinc

/-- Outside a migration a miss fails none. -/
theorem State.migLost_standing (gid n : Nat) : (s.migLost gid n).standing = (p, tele, run) := by
  have hpeer : s.peer = p := congrArg Prod.fst h
  simp only [State.migLost, hpeer, hout, hinc, h]

/-- Outside a migration a miss is counted, and moves neither cores nor the peer port. -/
theorem State.missOf_standing (gid : Nat) (g : Group) (n cause : Nat) (slack : Int) :
    (s.missOf gid g n cause slack).standing = (p, tele.missed, run) := by
  have hcount (l : Leash → Leash) : ((s.leashAll g l).updTele Tele.missed).standing = (p, tele.missed, run) := by
    rw [State.updTele_standing, State.leashAll_standing, h]
  refine State.migLost_standing ?_ hout hinc gid n
  exact (State.traceRec_standing _ _ _ _ _ _).trans
    ((State.raiseIf_standing _ _ _ _).trans ((State.raise_standing _ _ _).trans ((State.updPack_standing _ _ _).trans (hcount _))))

end

/-! ### The commit of a frame (R274, R322) -/

/-- What a rewriting of cores establishes holds of every core that it reaches. -/
theorem State.foldl_updCore_core_of_mem {P : Core → Prop} {f : Core → Core} (h : ∀ k, P (f k)) {l : List Nat} {d : Nat} (s : State)
    (hd : d ∈ l ∨ P (s.core d)) : P ((l.foldl (fun t c => t.updCore c f) s).core d) := by
  induction l generalizing s with
  | nil => exact hd.resolve_left List.not_mem_nil
  | cons c l ih =>
    rw [List.foldl_cons]
    refine ih _ ?_
    by_cases hdc : d = c
    · exact .inr (by rw [State.updCore_core, if_pos hdc]; exact h _)
    · refine hd.imp (fun hmem => (List.mem_cons.mp hmem).resolve_left hdc) fun hp => ?_
      rwa [State.updCore_core, if_neg hdc]

@[simp] theorem State.showTokens_standing (s : State) (l : List (Nat × DWord)) : (s.showTokens l).standing = s.standing :=
  State.foldl_standing _ _ _ fun _ _ => rfl

/-- A core whose slots have committed, each `steps` further; it runs nothing (R22, R322). -/
def Core.committed (steps : Nat) (k : Core) : Core :=
  { k.commitSlots (some steps) with csq := (k.commitSlots (some steps)).csq.rest }

/-- The states of a frame commit: its cores run nothing, and nothing of the peer port or the telemetry changes. -/
theorem State.commitState_standing {s : State} {gid n : Nat} {g : Group} {f : Frame} (hg : s.group? gid = some g)
    (hf : s.frame? gid n = some f) :
    ∃ run, (s.commitState gid n).standing = (s.peer, s.tele, run) ∧ ∀ c ∈ g.allCores, run c = .idle := by
  have hstate : (s.commitState gid n).standing =
      (g.allCores.foldl (fun t c => t.updCore c (Core.committed g.n)) s).standing := by
    rw [State.commitState, hg, hf]
    exact (State.showTokens_standing _ _).trans (State.updGroup_standing _ _ _)
  obtain ⟨cs, hcs⟩ := State.foldl_updCore_frame id (fun _ => Core.committed g.n) g.allCores s
  refine ⟨fun c => ((g.allCores.foldl (fun t c => t.updCore c (Core.committed g.n)) s).core c).csq.run, ?_, fun c hc =>
    State.foldl_updCore_core_of_mem (P := fun k => k.csq.run = .idle) (fun _ => rfl) s (.inl hc)⟩
  rw [hstate, show g.allCores.foldl (fun t c => t.updCore c (Core.committed g.n)) s = { s with cores := cs } from hcs]
  rfl

theorem State.ite_standing_tele {a b : State} {c : Prop} [Decidable c] {p : Peer} {t u : Tele} {run : Nat → Run}
    (ha : a.standing = (p, t, run)) (hb : b.standing = (p, u, run)) :
    (if c then a else b).standing = (p, if c then t else u, run) := by
  split_ifs
  · exact ha
  · exact hb

theorem State.ite_fst_standing {s : State} {p : Prop} [Decidable p] {a b : State × Bool} (ha : a.1.standing = s.standing)
    (hb : b.1.standing = s.standing) : (if p then a else b).1.standing = s.standing := by
  split_ifs
  · exact ha
  · exact hb

/-- The telemetry with frame `f` of a group of `nslot` slots committed at FCLK count `now`. -/
def Tele.committed (t : Tele) (f : Frame) (nslot now : Nat) : Tele :=
  { t with frames := t.frames + 1, dlCclk := t.dlCclk + 2 * (now - f.fire.getD 0) * nslot }

/-- A commit outside a migration: the group's cores stand idle, the frame is counted, and a late one is a miss. -/
theorem State.commitFrame_standing {s : State} {gid n : Nat} {g : Group} {f : Frame} (hg : s.group? gid = some g)
    (hf : s.frame? gid n = some f) (hout : s.peer.out = none) (hinc : s.peer.inc = none) :
    ∃ run now, (s.commitFrame gid n).standing = (s.peer, if f.late then (s.tele.committed f g.nslot now).missed
        else s.tele.committed f g.nslot now, run) ∧ ∀ c ∈ g.allCores, run c = .idle := by
  obtain ⟨run, hstate, hidle⟩ := State.commitState_standing hg hf
  have hcounted (now c i m d : Nat) (l : Leash → Leash) :
      (((((s.commitState gid n).endRuns gid g n false).updTele (Tele.committed · f g.nslot now)).leashAll g l).traceRec
        2 c i m d).standing = (s.peer, s.tele.committed f g.nslot now, run) := by
    rw [State.traceRec_standing, State.leashAll_standing, State.updTele_standing, State.endRuns_standing, hstate]
  refine ⟨run, ((s.commitState gid n).endRuns gid g n false).fclk, ?_, hidle⟩
  rw [State.commitFrame, hg, hf]
  -- What a commit does after the count of the frame and of its miss: outputs, fence, record and triggers.
  refine (State.ite_standing _ rfl (State.triggerAll_standing _ _ _ _ _)).trans ((State.finish_standing _ _ _ _ _ _).trans ?_)
  refine (State.ite_fst_standing rfl ((State.frameFence_standing _ _ _).trans ((State.answerResolves_standing _ _ _ _ _ _ _).trans
    (State.ite_standing _ rfl (State.foldl_standing _ _ _ fun t b => t.releaseLane_standing _ _ _ b))))).trans ?_
  exact State.ite_standing_tele (State.missOf_standing (hcounted _ _ _ _ _ _) hout hinc _ _ _ _ _) (hcounted _ _ _ _ _ _)

/-! ### FRAME_COMMIT and END_COLLECTION -/

/-- A group that has seen a commit since its standby slots were chosen may move (R255). -/
def Group.noted (g : Group) : Group := { g with movable := g.movable || !g.moves.isEmpty }

theorem State.updGroup_noted_frame (s : State) (gid n : Nat) : (s.updGroup gid Group.noted).frame? gid n = s.frame? gid n := by
  simp only [State.frame?, State.updGroup_group, if_true]
  cases s.group? gid <;> rfl

section
variable {s : State} {gid n : Nat} {g : Group} {f : Frame} (hg : s.group? gid = some g) (hf : s.frame? gid n = some f)
  (hout : s.peer.out = none) (hinc : s.peer.inc = none)
include hg hf hout hinc

/-- What the commit of a frame that may commit leaves standing. -/
theorem State.noted_commitFrame_standing :
    ∃ run now, ((s.updGroup gid Group.noted).commitFrame gid n).standing = (s.peer, if f.late then
        (s.tele.committed f g.nslot now).missed else s.tele.committed f g.nslot now, run) ∧ ∀ c ∈ g.allCores, run c = .idle := by
  have hg' : (s.updGroup gid Group.noted).group? gid = some g.noted := by
    rw [State.updGroup_group, if_pos rfl, hg, Option.map_some]
  have hf' := (s.updGroup_noted_frame gid n).trans hf
  have h := State.commitFrame_standing hg' hf' (by rwa [State.updGroup_peer]) (by rwa [State.updGroup_peer])
  rwa [State.updGroup_peer, State.updGroup_tele] at h

/-- Outside a migration a commit is the commit of the frame and of what Kennel keeps of it. -/
theorem State.commitOne_of_no_migration : s.commitOne gid n =
    if g.shadow then (s.updGroup gid Group.noted).commitFrame gid n
    else ((s.updGroup gid Group.noted).commitFrame gid n).kennelCommit gid n := by
  obtain ⟨run, now, hstand, -⟩ := State.noted_commitFrame_standing hg hf hout hinc
  generalize hu : (s.updGroup gid Group.noted).commitFrame gid n = u at hstand ⊢
  have hpeer : u.peer = s.peer := congrArg Prod.fst hstand
  have hkennel : (u.kennelCommit gid n).peer = s.peer := by
    rw [State.kennelCommit, State.checkDirty, State.raiseIf_peer, State.updKennel, hpeer]
  have hafter (t : State) (ht : t.peer = s.peer) (due : Option Nat) : t.migAfter gid f due = t := by
    simp only [State.migAfter, ht, hout, hinc]
    split <;> rfl
  have hbefore : s.migBefore gid n = s := by simp only [State.migBefore, hout, hinc]
  have hhand : s.handsOver gid n = false := by simp only [State.handsOver, hout, Option.any_none]
  have hcommitted : (if g.shadow then u else u.kennelCommit gid n).peer = s.peer := by
    split_ifs
    · exact hpeer
    · exact hkennel
  simp only [State.commitOne, hhand, Bool.false_eq_true, if_false, hbefore, hg, hf]
  subst hu
  exact hafter _ hcommitted _

end

section
variable {s : State} {gid : Nat} {g : Group} (hrun : s.running = true) (hg : s.group? gid = some g)
include hrun hg

/-- END collection makes the running frame ready once its slots have all ended. -/
theorem exec_endCollection_of_running {f : Frame} (hf : g.runningFrame = some f) : exec (.endCollection gid) s =
    done (if s.allEnded gid g f.n then s.updFrame gid f.n fun x => { x with phase := .ready } else s) := by
  simp only [exec, execEndCollection, hrun, if_true, State.collectEnds, hg, hf]

theorem exec_frameCommit_of_none (h : s.committable gid g = none) : exec (.frameCommit gid) s = .next s.settle := by
  simp only [exec, execFrameCommit, hrun, if_true, hg, h, done_eq]

theorem exec_frameCommit_of_committable {f : Frame} (h : s.committable gid g = some f) :
    exec (.frameCommit gid) s = .next (s.commitOne gid f.n).settle := by
  simp only [exec, execFrameCommit, hrun, if_true, hg, h, done_eq]

end

/-- Settles O37: END collection by whether the slots have ended, FRAME_COMMIT by what a commit outside a migration leaves standing. -/
theorem endedFramesAreCollectedAndCommitted : Obligations.EndedFramesAreCollectedAndCommitted := by
  unfold Obligations.EndedFramesAreCollectedAndCommitted
  refine fun gid s g hrun hg => ⟨fun f hf hend => ?_, fun f hf hend => ?_, exec_frameCommit_of_none hrun hg,
    fun f hcom hf hout hinc => ?_⟩
  · rw [exec_endCollection_of_running hrun hg hf, hend, if_pos rfl, done_eq]
  · rw [exec_endCollection_of_running hrun hg hf, hend, if_neg Bool.false_ne_true, done_eq]
  · obtain ⟨run, now, hstand, hidle⟩ := State.noted_commitFrame_standing hg hf hout hinc
    have htele := congrArg (·.2.1) hstand
    have hruns := congrArg (·.2.2) hstand
    refine ⟨?_, ?_, fun c hc => (congrFun hruns c).trans (hidle c hc), fun hlate => ?_⟩
    · rw [exec_frameCommit_of_committable hrun hg hcom, State.commitOne_of_no_migration hg hf hout hinc]
      rfl
    · refine (congrArg Tele.frames htele).trans ?_
      split_ifs <;> rfl
    · refine (congrArg Tele.misses htele).trans ?_
      rw [hlate]
      rfl

end Sys2Proof.Machine

/-! Handle and Collar entries (R206, R207, R210): what the staging, validation and commit of an entry do, and what a commit that takes
effect leaves alone. -/

namespace Sys2Proof.Machine

/-! ### Writes of table words -/

section
variable {c i : Nat} {v : Word} {acc : Acc} {s : State} (hc : c < 32)
include hc

theorem exec_handleWord0_of_grants (hi : i < 256) (hg : s.grants (0x20100 + 0x1000 * c + 8 * i) acc = true) :
    exec (.handleWord0 c i v acc) s =
      .next ((s.answered acc).updCore c fun k => { k with hstage := k.hstage.set 0 i v }).settle := by
  have haddr : (if i < 256 then coreAddr c (0x100 + 8 * i) else noAddr) = 0x20100 + 0x1000 * c + 8 * i := by
    rw [if_pos hi, coreAddr_of_lt _ hc]
    omega
  exact exec_of_cfgWrite rfl (haddr ▸ hg) rfl

theorem exec_handleWord1_of_grants (hi : i < 256) (hg : s.grants (0x20104 + 0x1000 * c + 8 * i) acc = true) :
    exec (.handleWord1 c i v acc) s = .next ((s.answered acc).tableWrite c false i v).settle := by
  have haddr : (if i < 256 then coreAddr c (0x104 + 8 * i) else noAddr) = 0x20104 + 0x1000 * c + 8 * i := by
    rw [if_pos hi, coreAddr_of_lt _ hc]
    omega
  exact exec_of_cfgWrite rfl (haddr ▸ hg) rfl

theorem exec_collarWord0_of_grants (hi : i < 16) (hg : s.grants (0x20900 + 0x1000 * c + 8 * i) acc = true) :
    exec (.collarWord0 c i v acc) s =
      .next ((s.answered acc).updCore c fun k => { k with cstage := k.cstage.set 0 i v }).settle := by
  have haddr : (if i < 16 then coreAddr c (0x900 + 8 * i) else noAddr) = 0x20900 + 0x1000 * c + 8 * i := by
    rw [if_pos hi, coreAddr_of_lt _ hc]
    omega
  exact exec_of_cfgWrite rfl (haddr ▸ hg) rfl

theorem exec_collarWord1_of_grants (hi : i < 16) (hg : s.grants (0x20904 + 0x1000 * c + 8 * i) acc = true) :
    exec (.collarWord1 c i v acc) s = .next ((s.answered acc).tableWrite c true i v).settle := by
  have haddr : (if i < 16 then coreAddr c (0x904 + 8 * i) else noAddr) = 0x20904 + 0x1000 * c + 8 * i := by
    rw [if_pos hi, coreAddr_of_lt _ hc]
    omega
  exact exec_of_cfgWrite rfl (haddr ▸ hg) rfl

end

/-! ### The commit of an entry (R207) -/

section
variable {s : State} {c : Nat} {h : HeldCommit}

theorem exec_tableCommit_of_none (hn : (s.core c).held = none) : exec (.tableCommit c) s = .next s.settle := by
  simp only [exec, execTableCommit, hn, done_eq]

theorem exec_tableCommit_of_held (hh : (s.core c).held = some h) :
    exec (.tableCommit c) s = .next (if s.handleInUse c h.index then s else s.applyCommit c h).settle := by
  simp only [exec, execTableCommit, hh, done_eq]

/-- The commit that would change what an outstanding access through a live entry finds is held. -/
theorem State.commitEntry_of_in_use (hcol : h.collar = false)
    (hlive : (Sparse.get (0 : DWord) (s.core c).handles h.index).getLsbD 0 = true)
    (hne : (Sparse.get (0 : DWord) (s.core c).handles h.index ||| 0xF2#64) ≠ (h.value ||| 0xF2#64))
    (huse : s.handleInUse c h.index = true) :
    s.commitEntry c h = s.updCore c fun k => { k with held := some h } := by
  simp only [State.commitEntry, mustHold, hValid, hcol, hlive, huse, ne_eq, hne, not_false_eq_true, decide_true, Bool.not_false,
    Bool.and_self, if_true]

/-- Every other commit takes effect at once: of a Collar, over a dead entry or one of equal content, or with no access outstanding. -/
theorem State.commitEntry_of_free (hfree : h.collar = true ∨ (Sparse.get (0 : DWord) (s.core c).handles h.index).getLsbD 0 = false ∨
      (Sparse.get (0 : DWord) (s.core c).handles h.index ||| 0xF2#64) = (h.value ||| 0xF2#64) ∨ s.handleInUse c h.index = false) :
    s.commitEntry c h = s.applyCommit c h := by
  have hcond : (!h.collar && mustHold (Sparse.get (0 : DWord) (s.core c).handles h.index) h.value && s.handleInUse c h.index) = false := by
    rcases hfree with hcol | hdead | heq | huse
    · rw [hcol]
      rfl
    · simp only [mustHold, hValid, hdead, Bool.false_and, Bool.and_false]
    · simp only [mustHold, heq, ne_eq, not_true_eq_false, decide_false, Bool.and_false, Bool.false_and]
    · rw [huse, Bool.and_false]
  exact if_neg (ne_true_of_eq_false hcond)

end

/-- A core with the entry of a commit that takes effect. -/
def HeldCommit.enter (h : HeldCommit) (k : Core) : Core :=
  if h.collar then { k with collars := k.collars.set 0 h.index h.value, held := none }
  else { k with handles := k.handles.set 0 h.index h.value, held := none }

/-- An object of a new generation is told in host memory and among the objects to be freed (R305). -/
theorem State.renewObj_eq (s : State) (o old : Nat) :
    ∃ m op sd, s.renewObj o old = { s with host := m, hostOpen := op, sd := sd } := by
  unfold State.renewObj State.freedObj State.writeObj
  rw [State.hostWrite_eq]
  dsimp only
  split_ifs <;> exact ⟨_, _, _, rfl⟩

/-- The state with the entry of a commit, and the object of a changed generation told. -/
def State.entered (s : State) (c : Nat) (h : HeldCommit) : State :=
  let old := hGen (Sparse.get (0 : DWord) (s.core c).handles h.index)
  if !h.collar && old != hGen h.value then (s.updCore c h.enter).renewObj (objIdx c h.index) old else s.updCore c h.enter

theorem State.entered_eq (s : State) (c : Nat) (h : HeldCommit) :
    ∃ m op sd, s.entered c h = { s.updCore c h.enter with host := m, hostOpen := op, sd := sd } := by
  unfold State.entered
  dsimp only
  split_ifs
  · exact State.renewObj_eq _ _ _
  · exact ⟨_, _, _, rfl⟩

/-- The RECLAIM that waited for a commit completes with it. -/
theorem State.applyCommit_eq_elim (s : State) (c : Nat) (h : HeldCommit) :
    s.applyCommit c h = h.reclaim.elim (s.entered c h) (s.entered c h).headOk := by
  unfold State.applyCommit
  cases h.reclaim <;> rfl

/-- A commit writes the entry of its core, and beyond the cores it reaches host memory, the object table and a ring's head. -/
theorem State.applyCommit_eq (s : State) (c : Nat) (h : HeldCommit) :
    ∃ m op sd rs, s.applyCommit c h = { s.updCore c h.enter with host := m, hostOpen := op, sd := sd, rings := rs } := by
  obtain ⟨m, op, sd, hin⟩ := s.entered_eq c h
  rw [State.applyCommit_eq_elim, hin]
  cases h.reclaim with
  | none => exact ⟨m, op, sd, _, rfl⟩
  | some r => exact ⟨m, op, sd, _, rfl⟩

theorem State.applyCommit_core_of (s : State) (c : Nat) (h : HeldCommit) (d : Nat) :
    (s.applyCommit c h).core d = if d = c then h.enter (s.core c) else s.core d := by
  obtain ⟨m, op, sd, rs, happ⟩ := s.applyCommit_eq c h
  rw [happ]
  exact s.updCore_core c h.enter d

/-- Settles O11: each word by its register access, a commit by whether an access through a live old entry is outstanding. -/
theorem tableEntriesAreStagedValidatedAndCommitted : Obligations.TableEntriesAreStagedValidatedAndCommitted := by
  unfold Obligations.TableEntriesAreStagedValidatedAndCommitted
  refine ⟨fun c i v acc s hc => ⟨exec_handleWord0_of_grants hc, exec_collarWord0_of_grants hc, fun hi hg => ?_, fun hi hg => ?_⟩,
    fun c s h => ⟨fun hh hfree => ?_, fun hh huse => ?_, exec_tableCommit_of_none,
      ⟨State.commitEntry_of_in_use, State.commitEntry_of_free⟩, fun hcol hv _ => ?_, fun d hd => ?_⟩⟩
  · exact exec_handleWord1_of_grants hc hi hg
  · exact exec_collarWord1_of_grants hc hi hg
  · rw [exec_tableCommit_of_held hh, hfree, if_neg Bool.false_ne_true]
  · rw [exec_tableCommit_of_held hh, huse, if_pos rfl]
  · rw [State.applyCommit_core_of, if_pos rfl, HeldCommit.enter, hcol, if_neg Bool.false_ne_true, Sparse.set, if_neg hv]
  · rw [State.applyCommit_core_of, if_neg hd]

end Sys2Proof.Machine

/-! Residency-map invalidation (R221) and the assignment of handle queues (R433). -/

namespace Sys2Proof.Machine

section
variable {p : Nat} {v : Word} {acc : Acc} {s : State}

theorem exec_rmcInvCnt_of_grants (hp : p < 8) (hg : s.grants (0x10044 + 0x1000 * p) acc = true) :
    exec (.rmcInvCnt p v acc) s = .next ((s.answered acc).rmcInvalidate p v).settle := by
  have haddr : packAddr p 0x44 = 0x10044 + 0x1000 * p := by
    rw [packAddr, if_pos hp]
    omega
  exact exec_of_cfgWrite rfl (haddr ▸ hg) rfl

theorem exec_hqWrite_of_grants {q : Nat} (hq : q < 64) (hg : s.grants (0x300 + 4 * q) acc = true) :
    exec (.hqWrite q v acc) s = .next ((s.answered acc).hqAssign q v).settle := by
  have hg' : s.grants (if q < 64 then 0x300 + 4 * q else noAddr) acc = true := by rwa [if_pos hq]
  exact exec_of_cfgWrite rfl hg' rfl

theorem exec_rmcInvDone_of_quiet (hb : (s.pack p).rmcBusy = true) (hq : s.rmcQuiet p = true) :
    exec (.rmcInvDone p) s = .next (s.updPack p fun x => { x with rmcBusy := false }).settle := by
  simp only [exec, execRmcInvDone, hb, hq, Bool.and_self, if_true, done_eq]

end

/-- Settles O14: an invalidation by whether one runs or names no page, a queue's assignment by whether the queue is in use. -/
theorem residencyInvalidationAndQueueAssignment : Obligations.ResidencyInvalidationAndQueueAssignment := by
  unfold Obligations.ResidencyInvalidationAndQueueAssignment
  refine fun p q v acc s => ⟨fun hp hg hb hn => ?_, fun hp hg hno => ?_, exec_rmcInvDone_of_quiet, fun hq hg ht hr hw => ?_,
    fun hq hg huse => ?_⟩
  · rw [exec_rmcInvCnt_of_grants hp hg]
    have hruns : ¬ (((s.answered acc).pack p).rmcBusy ∨ wbits v 21 0 = 0) := not_or.mpr ⟨Bool.eq_false_iff.mp hb, hn⟩
    rw [State.rmcInvalidate, if_neg hruns]
    rfl
  · rw [exec_rmcInvCnt_of_grants hp hg]
    have hruns : ((s.answered acc).pack p).rmcBusy ∨ wbits v 21 0 = 0 := hno
    rw [State.rmcInvalidate, if_pos hruns]
  · rw [exec_hqWrite_of_grants hq hg]
    have hfree : ¬ (!((s.answered acc).hq q).tokens.isEmpty ∨ ((s.answered acc).hq q).rsv ≠ 0 ∨
        (s.answered acc).qpopWaits q = true) := by
      have ht' : ((s.answered acc).hq q).tokens = [] := ht
      have hr' : ((s.answered acc).hq q).rsv = 0 := hr
      have hw' : (s.answered acc).qpopWaits q = false := hw
      simp [ht', hr', hw']
    rw [State.hqAssign, if_neg hfree]
  · rw [exec_hqWrite_of_grants hq hg]
    have hused : !((s.answered acc).hq q).tokens.isEmpty ∨ ((s.answered acc).hq q).rsv ≠ 0 ∨
        (s.answered acc).qpopWaits q = true := by
      refine huse.imp_left fun ht => ?_
      have ht' : ((s.answered acc).hq q).tokens ≠ [] := ht
      simpa using ht'
    rw [State.hqAssign, if_pos hused]

end Sys2Proof.Machine

/-! Bulk DMA: the shadow set of a channel and its queue (R224), the start of a transfer (R225), its bursts (R225, R207), and its aborts
(R226). -/

namespace Sys2Proof.Machine

/-! ### Channels -/

/-- Two rewritings of a channel that agree on what it holds are one. -/
theorem State.updChan_congr {s : State} {c : Nat} {f g : DmaChan → DmaChan} (h : f (s.chan c) = g (s.chan c)) :
    s.updChan c f = s.updChan c g := by
  rw [State.updChan, h, State.updChan]

theorem chAddr_of_lt {c : Nat} (off : Nat) (hc : c < 8) : chAddr c off = 0x7100 + off + 0x40 * c := by
  rw [chAddr, if_pos hc]
  omega

/-! ### The end of a transfer (R226, R431) -/

theorem State.raiseAs_hdr_raw (s : State) (p b : Nat) (err : Bool) :
    ((s.raiseAs p b err).hdr p).raw = (s.hdr p).raw ||| word (2 ^ b) := by
  simp only [State.raiseAs, State.updHdr_hdr, if_true, Hdr.fillFirst]
  split_ifs <;> rfl

/-- A channel whose transfer has ended. -/
def DmaChan.ended (x : DmaChan) (code residue : Nat) : DmaChan :=
  { x with running := false, aborting := false, code := code, residue := word residue }

/-- The end of a transfer leaves everything but its channel and the events as they were. -/
theorem State.dmaEnd_eq (s : State) (c code residue : Nat) : ∃ hs, s.dmaEnd c code residue =
    { (s.updChan c fun x => x.ended code residue) with hdrs := hs } := by
  unfold State.dmaEnd
  dsimp only
  split_ifs <;> exact ⟨_, rfl⟩

section
variable (s : State) (c code residue : Nat)

@[simp] theorem State.dmaEnd_chan (d : Nat) : (s.dmaEnd c code residue).chan d =
    if d = c then (s.chan c).ended code residue else s.chan d := by
  obtain ⟨hs, h⟩ := s.dmaEnd_eq c code residue
  rw [h]
  exact s.updChan_chan c (·.ended code residue) d

@[simp] theorem State.dmaEnd_dmaQueue : (s.dmaEnd c code residue).dmaQueue = s.dmaQueue := by
  obtain ⟨hs, h⟩ := s.dmaEnd_eq c code residue
  rw [h]
  rfl

/-- An aborted transfer raises the aborted event of its channel. -/
theorem State.dmaEnd_aborted_raw : ((s.dmaEnd c 1 residue).hdr pgDma).raw = (s.hdr pgDma).raw ||| word (2 ^ (8 + c)) :=
  State.raise_hdr_raw _ pgDma (8 + c)

/-- Every other transfer that ends raises the done event of its channel. -/
theorem State.dmaEnd_done_raw (h : code ≠ 1) :
    ((s.dmaEnd c code residue).hdr pgDma).raw = (s.hdr pgDma).raw ||| word (2 ^ c) := by
  rw [State.dmaEnd, if_neg h, State.raiseAs_hdr_raw]
  rfl

end

/-! ### CH_CTRL (R224) -/

/-- A channel whose shadow fields are those of a write of CH_CTRL. -/
def DmaChan.written (x : DmaChan) (v : Word) : DmaChan :=
  { x with smode := v.getLsbD 1, dmode := v.getLsbD 2, ien := v.getLsbD 3, ctx := BitVec.ofNat 16 (wbits v 31 16) }

section
variable {c : Nat} {v : Word} {acc : Acc} {s : State}

theorem exec_chArm_of_grants (hc : c < 8) (hg : s.grants (0x7114 + 0x40 * c) acc = true) :
    exec (.chArm c v acc) s = .next ((s.answered acc).chCtrlWrite c v).settle :=
  exec_of_cfgWrite rfl (chAddr_of_lt 0x14 hc ▸ hg) rfl

/-- ARM queues the shadow set of a channel that is not queued. -/
theorem State.chCtrlWrite_of_arming (hv : v.getLsbD 0 = true) (ha : (s.chan c).arm = false) : s.chCtrlWrite c v =
    { (s.updChan c fun x => { x.written v with arm := true }) with dmaQueue := s.dmaQueue ++ [c] } := by
  simp only [State.chCtrlWrite, hv, ha, Bool.not_false, Bool.and_self, if_true, Bool.or_true]
  rfl

/-- Without ARM, or on a channel that is queued already, the fields alone are written. -/
theorem State.chCtrlWrite_of_not_arming (h : v.getLsbD 0 = false ∨ (s.chan c).arm = true) :
    s.chCtrlWrite c v = s.updChan c fun x => x.written v := by
  have hq : (v.getLsbD 0 && !(s.chan c).arm) = false := by
    rcases h with hv | ha
    · rw [hv, Bool.false_and]
    · rw [ha, Bool.not_true, Bool.and_false]
  simp only [State.chCtrlWrite, hq, Bool.or_false, Bool.false_eq_true, if_false]
  rfl

/-! ### CH_ABORT (R226) -/

/-- Both rows of CH_ABORT are the one write. -/
theorem exec_chAbort_of_grants (hc : c < 8) (hg : s.grants (0x7134 + 0x40 * c) acc = true) :
    exec (.chAbortActive c v acc) s = .next ((s.answered acc).chAbortWrite c v).settle ∧
      exec (.chAbortShadow c v acc) s = .next ((s.answered acc).chAbortWrite c v).settle :=
  ⟨exec_of_cfgWrite rfl (chAddr_of_lt 0x34 hc ▸ hg) rfl, exec_of_cfgWrite rfl (chAddr_of_lt 0x34 hc ▸ hg) rfl⟩

/-- A queue that a channel's shadow set has left. -/
def State.dmaDrop (s : State) (c : Nat) : State :=
  ({ s with dmaQueue := s.dmaQueue.erase c }).updChan c fun x => { x with arm := false }

theorem State.dmaDrop_chan_self (s : State) (c : Nat) : (s.dmaDrop c).chan c = { s.chan c with arm := false } :=
  (State.updChan_chan _ c _ c).trans (if_pos rfl)

theorem State.chAbortWrite_of_running (hv : v.getLsbD 0 = true) (hv' : v.getLsbD 1 = false) (hr : (s.chan c).running = true) :
    s.chAbortWrite c v = s.updChan c fun x => { x with aborting := true } := by
  simp only [State.chAbortWrite, hv, hv', hr, if_true, Bool.false_and, Bool.false_eq_true, if_false]

/-- A queued transfer that is aborted leaves the queue, with its whole length as residue; bit 1 then finds no shadow set. -/
theorem State.chAbortWrite_of_queued (hv : v.getLsbD 0 = true) (hr : (s.chan c).running = false) (ha : (s.chan c).arm = true) :
    s.chAbortWrite c v = (s.dmaDrop c).dmaEnd c 1 (s.chan c).len.toNat := by
  have hleft : (((s.dmaDrop c).dmaEnd c 1 (s.chan c).len.toNat).chan c).arm = false := by
    rw [State.dmaEnd_chan, if_pos rfl, State.dmaDrop_chan_self]
    rfl
  simp only [State.chAbortWrite, hv, hr, ha, if_true, Bool.false_eq_true, if_false]
  refine if_neg ?_
  rw [State.dmaDrop] at hleft
  rw [hleft, Bool.and_false]
  exact Bool.false_ne_true

theorem State.chAbortWrite_of_shadow (hv : v.getLsbD 0 = false) (hv' : v.getLsbD 1 = true) (ha : (s.chan c).arm = true) :
    s.chAbortWrite c v = s.dmaDrop c := by
  simp only [State.chAbortWrite, hv, hv', ha, Bool.false_eq_true, if_false, Bool.and_self, if_true]
  rfl

end

/-- Settles O16: a write of CH_CTRL by whether it arms, a write of CH_ABORT by whether the transfer runs, is queued, or is dropped. -/
theorem dmaChannelsAreArmedAndAborted : Obligations.DmaChannelsAreArmedAndAborted := by
  unfold Obligations.DmaChannelsAreArmedAndAborted
  intro c v acc s hc
  have chan_answered : (s.answered acc).chan c = s.chan c := rfl
  refine ⟨fun hg hv ha => ?_, fun hg h => ?_, fun hg hv hv' hr => ?_, fun hg hv hr ha => ?_, fun hg hv hv' ha => ?_⟩
  · rw [exec_chArm_of_grants hc hg, State.chCtrlWrite_of_arming hv (chan_answered ▸ ha)]
    rfl
  · rw [exec_chArm_of_grants hc hg, State.chCtrlWrite_of_not_arming (chan_answered ▸ h)]
    rfl
  · rw [← State.chAbortWrite_of_running (s := s.answered acc) hv hv' hr]
    exact exec_chAbort_of_grants hc hg
  · refine ⟨_, exec_chAbort_of_grants hc hg, ?_⟩
    rw [State.chAbortWrite_of_queued hv (chan_answered ▸ hr) (chan_answered ▸ ha)]
    simp only [State.settle_dmaQueue, State.settle_chan_of, State.settle_hdr_of, State.dmaEnd_dmaQueue, State.dmaEnd_chan, if_true,
      State.dmaDrop_chan_self]
    exact ⟨rfl, rfl, rfl, BitVec.ofNat_toNat 32 (s.chan c).len, rfl, State.dmaEnd_aborted_raw _ c _⟩
  · rw [exec_chAbort_of_grants hc hg |>.1, exec_chAbort_of_grants hc hg |>.2,
      State.chAbortWrite_of_shadow hv hv' (chan_answered ▸ ha)]
    exact ⟨rfl, rfl⟩

/-! ### The start of a transfer (R224, R225) -/

/-- The oldest queued shadow set as the active one. -/
def State.dmaActive (s : State) (c : Nat) (rest : List Nat) : State :=
  ({ s with dmaQueue := rest }).updChan c fun y =>
    { y with arm := false, actSrc := y.src, actDst := y.dst, actLen := y.len, actSmode := y.smode, actDmode := y.dmode
             actCtx := y.ctx }

section
variable {s : State} {c : Nat} {rest : List Nat}

theorem exec_dmaTransferStart_of_running (h : s.running = true) : exec .dmaTransferStart s = .next s.dmaStart.settle := by
  simp only [exec, execDmaTransferStart, h, if_true, done_eq]

/-- The checks read nothing that the start changes. -/
theorem State.dmaActive_dmaCheck (x : DmaChan) : (s.dmaActive c rest).dmaCheck x = s.dmaCheck x := rfl

theorem State.dmaStart_of_queued (hr : s.dmaRunning = none) (hq : s.dmaQueue = c :: rest) : s.dmaStart =
    if s.dmaCheck (s.chan c) ≠ 0 then (s.dmaActive c rest).dmaEnd c (s.dmaCheck (s.chan c)) (s.chan c).len.toNat
    else (s.dmaActive c rest).updChan c fun y => { y with running := true, aborting := false, issued := s.fclk } := by
  simp only [State.dmaStart, hr, hq]
  rfl

end

/-! ### What a burst reaches (R205, R223, R380) -/

theorem State.noteLat_eq (s : State) (l n : Nat) : ∃ m hs, s.noteLat l n = { s with mport := m, hdrs := hs } := by
  unfold State.noteLat
  dsimp only
  split_ifs <;> exact ⟨_, _, rfl⟩

/-- The latency of a burst's reads is noted at the memory port. -/
theorem State.burstLatency_eq (s : State) (x : DmaChan) (n : Nat) (mem : MemCode) :
    ∃ m hs, s.burstLatency x n mem = { s with mport := m, hdrs := hs } := by
  unfold State.burstLatency
  split_ifs
  · exact ⟨_, _, rfl⟩
  · exact s.noteLat_eq _ _

section
variable (s : State) {e : DWord} (bs : List Byte)

@[simp] theorem State.epWrite_chan (mem : MemCode) (d : Nat) : (s.epWrite e bs mem).chan d = s.chan d := by
  unfold State.epWrite
  split_ifs
  · dsimp only
    generalize hu : State.updCore _ _ _ = u
    obtain ⟨gs, h⟩ := u.landWrites_eq (epCore e)
    rw [h]
    subst hu
    rfl
  · exact s.hostWriteCode_chan_of mem _ bs d

theorem State.epWrite_of_host (h : epSpd e = false) : s.epWrite e bs .ok = s.hostWrite (wbits e 47 0) bs := by
  rw [State.epWrite, h, if_neg Bool.false_ne_true, State.hostWriteCode, if_pos rfl]

/-- Bytes written at an endpoint in a scratchpad are written through its handle. -/
theorem State.epWrite_spd (mem : MemCode) (h : epSpd e = true) : ((s.epWrite e bs mem).core (epCore e)).spd =
    ((s.core (epCore e)).wr ((s.core (epCore e)).entry (epRef e)) (epOff e) bs).spd := by
  rw [State.epWrite, if_pos h, State.landWrites_core, State.updCore_core, if_pos rfl]
  rfl

end

/-! ### Between two bursts (R207) -/

section
variable (s : State) (e : DWord)

/-- Between two bursts a held commit of the endpoint's core may take effect. -/
theorem State.betweenBursts_cases : s.betweenBursts e = s ∨ ∃ h, s.betweenBursts e = s.applyCommit (epCore e) h := by
  unfold State.betweenBursts
  split
  · split_ifs
    · exact .inr ⟨_, rfl⟩
    · exact .inl rfl
  · exact .inl rfl

theorem State.betweenBursts_of_none (h : (s.core (epCore e)).held = none) : s.betweenBursts e = s := by
  simp only [State.betweenBursts, h]

@[simp] theorem State.betweenBursts_chan (d : Nat) : (s.betweenBursts e).chan d = s.chan d := by
  obtain h | ⟨hc, h⟩ := s.betweenBursts_cases e
  · rw [h]
  · obtain ⟨m, op, sd, rs, happ⟩ := s.applyCommit_eq (epCore e) hc
    rw [h, happ]
    rfl

theorem HeldCommit.enter_spd (h : HeldCommit) (k : Core) : (h.enter k).spd = k.spd := by
  unfold HeldCommit.enter
  split_ifs <;> rfl

/-- A commit moves no byte of a scratchpad. -/
@[simp] theorem State.betweenBursts_spd (d : Nat) : ((s.betweenBursts e).core d).spd = (s.core d).spd := by
  obtain h | ⟨hc, h⟩ := s.betweenBursts_cases e
  · rw [h]
  · rw [h, State.applyCommit_core_of]
    split_ifs with hd
    · rw [HeldCommit.enter_spd, hd]
    · rfl

end

/-! ### A burst (R225) -/

/-- Bytes that the next burst of a channel moves. -/
def DmaChan.burstLen (x : DmaChan) : Nat := min 512 x.actLen.toNat

/-- A channel past a burst of `n` bytes, issued for its next one at `now`. -/
def DmaChan.advanced (x : DmaChan) (n left now : Nat) : DmaChan :=
  { x with actSrc := if x.actSmode then x.actSrc else x.actSrc + dword n
           actDst := if x.actDmode then x.actDst else x.actDst + dword n
           actLen := word left, issued := now }

/-- The state in which the bytes of a burst have been written. -/
def State.burstWritten (s : State) (c : Nat) : State :=
  let x := s.chan c
  let t := s.burstLatency x x.burstLen .ok
  t.epWrite x.actDst (t.epRead x.actSrc x.burstLen) .ok

/-- The state after a burst, before its transfer ends or goes on. -/
def State.bursted (s : State) (c : Nat) : State :=
  let x := s.chan c
  let t := s.burstWritten c
  ((t.updChan c fun y => y.advanced x.burstLen (x.actLen.toNat - x.burstLen) t.fclk).betweenBursts x.actSrc).betweenBursts x.actDst

section
variable (s : State) (c : Nat)

/-- The latency that a burst notes changes nothing that its bytes are read from or written to. -/
theorem State.burstWritten_eq : ∃ m hs, s.burstWritten c = ({ s with mport := m, hdrs := hs } : State).epWrite (s.chan c).actDst
    (s.epRead (s.chan c).actSrc (s.chan c).burstLen) .ok := by
  obtain ⟨m, hs, h⟩ := s.burstLatency_eq (s.chan c) (s.chan c).burstLen .ok
  refine ⟨m, hs, ?_⟩
  rw [State.burstWritten, h]
  rfl

@[simp] theorem State.burstWritten_chan (d : Nat) : (s.burstWritten c).chan d = s.chan d := by
  obtain ⟨m, hs, h⟩ := s.burstWritten_eq c
  rw [h, State.epWrite_chan]
  rfl

theorem State.bursted_chan_self : (s.bursted c).chan c =
    (s.chan c).advanced (s.chan c).burstLen ((s.chan c).actLen.toNat - (s.chan c).burstLen) (s.burstWritten c).fclk := by
  simp only [State.bursted, State.betweenBursts_chan, State.updChan_chan, if_true, State.burstWritten_chan]

theorem State.bursted_chan_ne {d : Nat} (h : d ≠ c) : (s.bursted c).chan d = s.chan d := by
  simp only [State.bursted, State.betweenBursts_chan, State.updChan_chan, if_neg h, State.burstWritten_chan]

theorem State.bursted_spd (h : epSpd (s.chan c).actDst = true) :
    ((s.bursted c).core (epCore (s.chan c).actDst)).spd =
      ((s.core (epCore (s.chan c).actDst)).wr ((s.core (epCore (s.chan c).actDst)).entry (epRef (s.chan c).actDst))
        (epOff (s.chan c).actDst) (s.epRead (s.chan c).actSrc (s.chan c).burstLen)).spd := by
  obtain ⟨m, hs, hw⟩ := s.burstWritten_eq c
  simp only [State.bursted, State.betweenBursts_spd, State.updChan_core_of, hw]
  exact State.epWrite_spd _ _ .ok h

theorem State.epRead_length (e : DWord) (n : Nat) : (s.epRead e n).length = n := by
  unfold State.epRead
  split_ifs <;> simp [Core.rd, State.hostRead, tab]

/-- Bytes moved to host memory are read there, where no commit is held that could write host memory after them. -/
theorem State.bursted_hostByte (h : epSpd (s.chan c).actDst = false) (hn : ∀ k, (s.core k).held = none)
    (hwf : Memory.wf s.host = true) {i : Nat} (hi : i < (s.chan c).burstLen) :
    (s.bursted c).hostByte (wbits (s.chan c).actDst 47 0 + i) =
      (s.epRead (s.chan c).actSrc (s.chan c).burstLen).getD i 0 := by
  obtain ⟨m, hs, hw⟩ := s.burstWritten_eq c
  generalize hb : s.epRead (s.chan c).actSrc (s.chan c).burstLen = bs at hw ⊢
  have hlen : bs.length = (s.chan c).burstLen := hb ▸ s.epRead_length _ _
  have hmax : bs.length ≤ 2 ^ 48 := by
    have : (s.chan c).burstLen ≤ 512 := Nat.min_le_left _ _
    omega
  rw [State.epWrite_of_host _ _ h] at hw
  have hheld (f : DmaChan → DmaChan) (k : Nat) : (((s.burstWritten c).updChan c f).core k).held = none := by
    rw [State.updChan_core_of, hw, State.hostWrite_core_of]
    exact hn k
  have hi' : i < bs.length := hlen ▸ hi
  rw [State.bursted, State.betweenBursts_of_none _ _ (hheld _ _), State.betweenBursts_of_none _ _ (hheld _ _), hw,
    List.getD_eq_getElem _ _ hi']
  exact State.hostByte_hostWrite_self bs { s with mport := m, hdrs := hs } _ i hwf hmax hi'

end

section
variable {s : State} {c : Nat}

theorem exec_dmaBurst_of_running (mem : MemCode) (h : s.dmaRunning = some c) :
    exec (.dmaBurst mem) s = .next (s.dmaBurst c mem).settle := by
  simp only [exec, execDmaBurst, h, done_eq]

variable (ha : s.epCode (s.chan c).actCtx.toNat (s.chan c).actSrc = 0)
  (hb : s.epDstCode (s.chan c).actCtx.toNat (s.chan c).actDst (s.chan c).burstLen = 0)
  (hbad : s.epBad (s.chan c).actSrc (s.chan c).burstLen = none)
include ha hb hbad

/-- A burst between usable endpoints moves its bytes; the transfer ends when nothing is left, or when it is aborted. -/
theorem State.dmaBurst_of_usable : s.dmaBurst c .ok =
    if (s.chan c).actLen.toNat - (s.chan c).burstLen = 0 then (s.bursted c).dmaEnd c 0 0
    else if (s.chan c).aborting then (s.bursted c).dmaEnd c 1 ((s.chan c).actLen.toNat - (s.chan c).burstLen)
    else s.bursted c := by
  rw [DmaChan.burstLen] at hb hbad
  simp only [State.dmaBurst, ha, hb, hbad, ne_eq, not_true_eq_false, or_self, false_and, if_false]
  rfl

theorem State.dmaBurst_cases : s.dmaBurst c .ok = s.bursted c ∨
    ∃ code residue, s.dmaBurst c .ok = (s.bursted c).dmaEnd c code residue := by
  rw [State.dmaBurst_of_usable ha hb hbad]
  split_ifs
  · exact .inr ⟨_, _, rfl⟩
  · exact .inr ⟨_, _, rfl⟩
  · exact .inl rfl

/-- The end of a transfer moves no byte and touches no other channel. -/
theorem State.dmaBurst_eq_bursted : ∃ dma hs, s.dmaBurst c .ok = { s.bursted c with dma := dma, hdrs := hs } := by
  obtain h | ⟨code, residue, h⟩ := State.dmaBurst_cases ha hb hbad
  · exact ⟨_, _, h⟩
  · obtain ⟨hs, hend⟩ := (s.bursted c).dmaEnd_eq c code residue
    exact ⟨_, hs, h.trans hend⟩

theorem State.dmaBurst_chan_ne {d : Nat} (hd : d ≠ c) : (s.dmaBurst c .ok).chan d = s.chan d := by
  obtain h | ⟨code, residue, h⟩ := State.dmaBurst_cases ha hb hbad
  · rw [h, State.bursted_chan_ne s c hd]
  · rw [h, State.dmaEnd_chan, if_neg hd, State.bursted_chan_ne s c hd]

end

theorem word_two_pow_getLsbD {c : Nat} (hc : c < 32) : (word (2 ^ c)).getLsbD c = true := by
  rw [word, BitVec.getLsbD_ofNat]
  simp [hc]

/-- Settles O17: the start by the checks of the shadow set, a burst by the bytes that it moves and whether any are left. -/
theorem queuedTransfersStartAndMoveInBursts : Obligations.QueuedTransfersStartAndMoveInBursts := by
  unfold Obligations.QueuedTransfersStartAndMoveInBursts
  refine ⟨fun c rest s hrun hr hq => ⟨fun hok => ?_, fun hbad => ?_⟩, fun c s hc hr hrun ha hb hbad => ?_⟩
  · rw [exec_dmaTransferStart_of_running hrun, State.dmaStart_of_queued hr hq, if_neg (not_not_intro hok)]
    simp only [State.updChan_updChan, State.dmaActive]
    exact congrArg (fun u : State => Host.Outcome.next u.settle) (State.updChan_congr rfl)
  · refine ⟨_, exec_dmaTransferStart_of_running hrun, ?_⟩
    rw [State.dmaStart_of_queued hr hq, if_pos hbad]
    simp only [State.settle_dmaQueue, State.settle_chan_of, State.dmaEnd_dmaQueue, State.dmaEnd_chan, if_true]
    refine ⟨rfl, rfl, rfl, rfl, ?_⟩
    simp [State.dmaActive, DmaChan.ended]
  · obtain ⟨dma, hs, heq⟩ := State.dmaBurst_eq_bursted ha hb hbad
    refine ⟨_, exec_dmaBurst_of_running .ok hr, fun hleft hgo => ?_, fun hend => ?_, fun hhost hn hwf i hi => ?_, fun hspd => ?_,
      fun d hd => State.dmaBurst_chan_ne ha hb hbad hd⟩
    · have hne : (s.chan c).actLen.toNat - (s.chan c).burstLen ≠ 0 := Nat.sub_ne_zero_of_lt hleft
      rw [State.dmaBurst_of_usable ha hb hbad, if_neg hne, hgo, if_neg Bool.false_ne_true, State.bursted_chan_self]
      exact ⟨hrun, rfl, rfl, rfl⟩
    · have hz : (s.chan c).actLen.toNat - (s.chan c).burstLen = 0 := Nat.sub_eq_zero_of_le (Nat.le_of_eq hend.symm)
      rw [State.dmaBurst_of_usable ha hb hbad, if_pos hz, State.dmaEnd_chan, if_pos rfl]
      refine ⟨rfl, rfl, rfl, ?_⟩
      have hraw := State.dmaEnd_done_raw (s.bursted c) c 0 0 Nat.zero_ne_one
      rw [pgDma] at hraw
      rw [hraw, BitVec.getLsbD_or, word_two_pow_getLsbD (by omega), Bool.or_true]
    · rw [heq]
      exact State.bursted_hostByte s c hhost hn hwf hi
    · rw [heq]
      exact State.bursted_spd s c hspd

end Sys2Proof.Machine

/-! Remote writes, their acknowledgements, and remote reads (R182, R193, R209 to R211). -/

namespace Sys2Proof.Machine

/-! ### Bytes of a memory whatever its form -/

/-- Removing a key leaves the reading of every other key, in any table. -/
theorem Sparse.get_del_ne {α : Type} (d : α) (m : Sparse α) {k j : Nat} (h : j ≠ k) :
    Sparse.get d (m.del k) j = Sparse.get d m j := by
  induction m with
  | nil => rfl
  | cons e r ih =>
    obtain ⟨i, w⟩ := e
    rw [Sparse.del]
    split_ifs with hlt heq
    · rfl
    · rw [Sparse.get, if_neg (heq ▸ h)]
    · rw [Sparse.get, Sparse.get, ih]

theorem Mem.byte_setByte_ne (m : Mem) {a j : Nat} (b : Byte) (h : j ≠ a) : (m.setByte a b).byte j = m.byte j := by
  simp only [Mem.byte, Mem.setByte, Sparse.set]
  split_ifs
  · exact Sparse.get_del_ne 0 m h
  · exact Sparse.get_put_ne 0 m b h

/-! ### The bytes of a remote write (R210) -/

/-- A core into whose scratchpad bytes, given with their offsets from `base`, are written. -/
def Core.landBytes (k : Core) (base : Nat) (bs : List (Byte × Nat)) : Core :=
  bs.foldl (fun q x => { q with spd := q.spd.setByte (base + x.2) x.1, wlog := (base + x.2) :: q.wlog }) k

/-- A core into whose Collar window the rows of a remote write are written. -/
def Core.landRows (k : Core) (base : Nat) (rows : List (Nat × List Byte)) : Core :=
  rows.foldl (fun q r => q.landBytes (base + r.1) r.2.zipIdx) k

theorem Core.landBytes_byte_ne {a base : Nat} {bs : List (Byte × Nat)} (k : Core) (h : ∀ x ∈ bs, a ≠ base + x.2) :
    (k.landBytes base bs).spd.byte a = k.spd.byte a := by
  induction bs generalizing k with
  | nil => rfl
  | cons x bs ih =>
    obtain ⟨hx, hbs⟩ := List.forall_mem_cons.mp h
    exact (ih _ hbs).trans (k.spd.byte_setByte_ne x.1 hx)

theorem Core.landRows_byte_ne {a base : Nat} {rows : List (Nat × List Byte)} (k : Core)
    (h : ∀ r ∈ rows, ∀ i < r.2.length, a ≠ base + r.1 + i) : (k.landRows base rows).spd.byte a = k.spd.byte a := by
  induction rows generalizing k with
  | nil => rfl
  | cons r rows ih =>
    obtain ⟨hr, hrows⟩ := List.forall_mem_cons.mp h
    refine (ih _ hrows).trans (Core.landBytes_byte_ne k fun x hx => hr x.2 ?_)
    exact List.snd_lt_of_mem_zipIdx hx

/-- Successive bytes are one write of the memory. -/
theorem Core.landBytes_spd (k : Core) (base n : Nat) (bs : List Byte) :
    (k.landBytes base (bs.zipIdx n)).spd = k.spd.write (base + n) bs := by
  induction bs generalizing k n with
  | nil => rfl
  | cons b bs ih => exact ih _ (n + 1)

/-! ### REMOTE_WRITE_ARRIVAL (R209 to R211) -/

/-- The core in which a remote write has landed: its bytes, and the marks of the entries that they lie in (R205, R210). -/
def Core.landed (k : Core) (w : RemoteWrite) : Core :=
  let q := k.landRows (64 * hBase (Sparse.get (0 : DWord) k.collars w.collar)) w.rows
  let lines := (q.wlog.map (· / 64)).eraseDups
  if w.smark then
    (q.handles.filter fun h => hValid h.2 && lines.any fun l => decide (hBase h.2 ≤ l) && decide (l ≤ hBase h.2 + hLen h.2)).foldl
      (fun q h => q.setSmark h.1 true) q
  else q

theorem Core.foldl_setSmark_spd (l : List (Nat × DWord)) (k : Core) :
    (l.foldl (fun q h => q.setSmark h.1 true) k).spd = k.spd := by
  induction l generalizing k with
  | nil => rfl
  | cons h l ih => exact ih _

theorem Core.landed_spd (k : Core) (w : RemoteWrite) :
    (k.landed w).spd = (k.landRows (64 * hBase (Sparse.get (0 : DWord) k.collars w.collar)) w.rows).spd := by
  unfold Core.landed
  dsimp only
  split_ifs
  · exact Core.foldl_setSmark_spd _ _
  · rfl

/-- An accepted remote write rewrites its destination core, and egress positions of frames with its groups. -/
theorem State.collarLand_eq (s : State) (w : RemoteWrite) :
    ∃ gs, s.collarLand w = { s.setCore w.dest ((s.core w.dest).landed w).refresh with groups := gs } := by
  obtain ⟨bytes, hdef⟩ : ∃ bytes, s.collarLand w = match w.run with
      | .frame gid n _ => State.tapEgress ((s.setCore w.dest ((s.core w.dest).landed w)).landWrites w.dest) w.dest gid n bytes
      | _ => (s.setCore w.dest ((s.core w.dest).landed w)).landWrites w.dest := ⟨_, rfl⟩
  obtain ⟨gs, hland⟩ := (s.setCore w.dest ((s.core w.dest).landed w)).landWrites_eq w.dest
  rw [State.setCore_setCore, State.setCore_core, if_pos rfl] at hland
  rw [hdef, hland]
  split
  · exact State.tapEgress_eq _ _ _ _ _
  · exact ⟨gs, rfl⟩

section
variable {s : State} {src dest : Nat} {w : RemoteWrite} (h : s.rwrites.find? (fun x => x.src == src && x.dest == dest) = some w)
include h

theorem exec_remoteWriteArrival_of_found : exec (.remoteWriteArrival src dest) s = .next (s.remoteArrive w).settle := by
  simp only [exec, execRemoteWriteArrival, h, done_eq]

/-- The request that is found is one from the source to the destination. -/
theorem State.rwrites_found : w.src = src ∧ w.dest = dest := by
  simpa using List.find?_some h

end

/-- The request taken from those under way. -/
def State.rtaken (s : State) (w : RemoteWrite) : State := { s with rwrites := s.rwrites.erase w }

section
variable {s : State} {w : RemoteWrite}

theorem State.remoteArrive_of_accepted
    (ha : collarWhy (Sparse.get (0 : DWord) (s.core w.dest).collars w.collar) w.ctx w.rows = none) :
    s.remoteArrive w = { (s.rtaken w).collarLand w with
      racks := ((s.rtaken w).collarLand w).racks ++ [(⟨w.src, true, w.pc, w.epoch⟩ : RemoteAck)] } := by
  have ha' : collarWhy (Sparse.get (0 : DWord) ((s.rtaken w).core w.dest).collars w.collar) w.ctx w.rows = none := ha
  rw [State.rtaken] at ha'
  simp only [State.remoteArrive, ha']
  rfl

theorem State.remoteArrive_of_refused {why : Nat}
    (hw : collarWhy (Sparse.get (0 : DWord) (s.core w.dest).collars w.collar) w.ctx w.rows = some why) :
    s.remoteArrive w = { (s.rtaken w).collarRefuse w.dest w.collar w.src why w.ctx false with
      racks := s.racks ++ [(⟨w.src, false, w.pc, w.epoch⟩ : RemoteAck)] } := by
  have hw' : collarWhy (Sparse.get (0 : DWord) ((s.rtaken w).core w.dest).collars w.collar) w.ctx w.rows = some why := hw
  rw [State.rtaken] at hw'
  simp only [State.remoteArrive, hw']
  rfl

/-- What an accepted remote write leaves: the requests without it, one acknowledgement more, and the landed bytes. -/
theorem State.remoteArrive_parts
    (ha : collarWhy (Sparse.get (0 : DWord) (s.core w.dest).collars w.collar) w.ctx w.rows = none) :
    (s.remoteArrive w).rwrites = s.rwrites.erase w ∧
      (s.remoteArrive w).racks = s.racks ++ [(⟨w.src, true, w.pc, w.epoch⟩ : RemoteAck)] ∧
      ((s.remoteArrive w).core w.dest).spd = ((s.core w.dest).landRows
        (64 * hBase (Sparse.get (0 : DWord) (s.core w.dest).collars w.collar)) w.rows).spd := by
  obtain ⟨gs, hland⟩ := (s.rtaken w).collarLand_eq w
  rw [State.remoteArrive_of_accepted ha, hland]
  have hcore := ((s.rtaken w).setCore_core w.dest (((s.rtaken w).core w.dest).landed w).refresh w.dest).trans (if_pos rfl)
  exact ⟨rfl, rfl, (congrArg Core.spd hcore).trans ((s.core w.dest).landed_spd w)⟩

end

/-! ### REMOTE_WRITE_ACK (R182, R193, R209) -/

/-- The acknowledgement taken from those under way, and its place at the source core free. -/
def State.acked (s : State) (a : RemoteAck) : State :=
  ({ s with racks := s.racks.erase a }).updCore a.core fun k => { k with csq := { k.csq with remote := k.csq.remote - 1 } }

section
variable {s : State} {a : RemoteAck}

theorem exec_remoteWriteAck_of_found {c : Nat} (h : s.racks.find? (fun x => x.core == c) = some a) :
    exec (.remoteWriteAck c) s = .next (s.remoteAck a).settle := by
  simp only [exec, execRemoteWriteAck, h, done_eq]

theorem State.remoteAck_of_ok (h : a.ok = true) : s.remoteAck a = s.acked a := by
  simp only [State.remoteAck, h, Bool.not_true, Bool.false_and, Bool.false_eq_true, if_false]
  rfl

theorem State.acked_csq : ((s.acked a).core a.core).csq = { (s.core a.core).csq with remote := (s.core a.core).csq.remote - 1 } := by
  rw [State.acked, State.updCore_core, if_pos rfl]
  rfl

/-- A refusal fails the run that sent the write, when that run is still there. -/
theorem State.remoteAck_of_refused (h : a.ok = false) (he : a.epoch = (s.core a.core).csq.epoch)
    (hr : (s.core a.core).csq.run ≠ .idle) :
    s.remoteAck a = (s.acked a).failRun a.core stBounds (32 * a.pc) .program := by
  refine if_pos ?_
  change (!a.ok && a.epoch == ((s.acked a).core a.core).csq.epoch && ((s.acked a).core a.core).csq.run != .idle) = true
  rw [State.acked_csq]
  simp [h, he, hr]

end

/-! ### REMOTE_READ (R182, R209) -/

section
variable {s : State} {c : Nat} {q : RemoteRead} (hq : (s.core c).csq.rread = some q)
include hq

/-- A remote read waits for the core's earlier remote writes to the same core. -/
theorem exec_remoteRead_of_earlier (h : ∃ w ∈ s.rwrites, w.src = c ∧ w.dest = q.core) :
    exec (.remoteRead c) s = .next s.settle := by
  have hany : (s.rwrites.any fun w => w.src == c && w.dest == q.core) = true := by simpa using h
  simp only [exec, execRemoteRead, hq, hany, if_true, done_eq]

theorem exec_remoteRead_of_none_earlier (h : ∀ w ∈ s.rwrites, ¬(w.src = c ∧ w.dest = q.core)) :
    exec (.remoteRead c) s = .next (s.remoteFetch c q).settle := by
  have hany : (s.rwrites.any fun w => w.src == c && w.dest == q.core) = false := by simpa using h
  simp only [exec, execRemoteRead, hq, hany, Bool.false_eq_true, if_false, done_eq]

end

/-- The rows that a remote read returns, with the offsets that they go to. -/
def fetchedRows (k : Core) (q : RemoteRead) : List (Nat × List Byte) :=
  (moveRows q.word).map fun (a, b) => (b, k.rd (k.entry q.ref) a (IWord.by q.word 10 2))

/-- A core that waits for no remote read. -/
def Core.returned (k : Core) : Core := { k with csq := { k.csq with rread := none } }

section
variable (s : State) (c : Nat) (q : RemoteRead)

/-- From a core without a line in error the rows are read, and go out as those of a MOVE. -/
theorem State.remoteFetch_of_sound (h : (s.core q.core).bad = []) : ∃ mark, s.remoteFetch c q =
    (((s.updCore c Core.returned).moveOut c q.word (fetchedRows (s.core q.core) q) mark).landWrites c).nextInstr c := by
  have hbad : (s.core q.core).badLines = [] := by
    rw [Core.badLines, h]
    rfl
  refine ⟨hSmark ((s.core q.core).entry q.ref), ?_⟩
  simp only [State.remoteFetch, hbad, List.find?_nil]
  rfl

end

theorem Core.wr_returned (k : Core) (e : DWord) (x : Nat) (bs : List Byte) :
    k.returned.wr e x bs = (k.wr e x bs).returned := by
  induction bs generalizing k x with
  | nil => rfl
  | cons b bs ih => exact ih (k.wrByte e x b) (x + 1)

/-- The rows are written alike whether a core waits for a remote read or not. -/
theorem Core.store_returned (k : Core) (r : Nat) (rows : List (Nat × List Byte)) :
    k.returned.store r rows = (k.store r rows).returned := by
  induction rows generalizing k with
  | nil => rfl
  | cons x rows ih =>
    have hx := k.wr_returned (k.entry r) x.1 x.2
    simp only [Core.store, List.foldl_cons]
    exact (congrArg (Core.store · r rows) hx).trans (ih _)

/-- Rows that go out leave the remote read and the program counter of their core. -/
theorem State.moveOut_rread_pc (s : State) (c : Nat) (w : IWord) (rows : List (Nat × List Byte)) (mark : Bool) :
    ((s.moveOut c w rows mark).core c).csq.rread = (s.core c).csq.rread ∧
      ((s.moveOut c w rows mark).core c).csq.pc = (s.core c).csq.pc := by
  have hbit : nbits w 227 1 = 0 ∨ nbits w 227 1 = 1 := by
    have : nbits w 227 1 < 2 := Nat.mod_lt _ (by decide)
    omega
  rcases hbit with hl | hr
  · rw [State.moveOut_local_csq s c rows mark hl]
    exact ⟨rfl, rfl⟩
  · rw [State.moveOut_remote_core s c rows mark hr]
    exact ⟨rfl, rfl⟩

/-- Settles O15: a remote write by what its Collar says, its acknowledgement by whether it is a refusal of the run that is still
there, a remote read by whether an earlier remote write is under way. -/
theorem remoteWritesAndReadsAreWholeOrRefused : Obligations.RemoteWritesAndReadsAreWholeOrRefused := by
  unfold Obligations.RemoteWritesAndReadsAreWholeOrRefused
  refine ⟨fun src dest s w hw => ?_, fun c s => ⟨fun a ha hok => ?_, fun a ha hno he hr => ?_, fun q hq hnone hbad => ?_,
    fun q hq => exec_remoteRead_of_earlier hq⟩⟩
  · obtain ⟨rfl, rfl⟩ := State.rwrites_found hw
    refine ⟨fun hacc => ?_, fun why hwhy => ?_⟩
    · obtain ⟨hrw, hack, hspd⟩ := State.remoteArrive_parts hacc
      refine ⟨_, exec_remoteWriteArrival_of_found hw, ?_⟩
      simp only [State.settle_rwrites, State.settle_racks, State.settle_core_of, hspd]
      refine ⟨hrw, hack, fun a hne => Core.landRows_byte_ne _ hne, fun off bs hrows hwf i hi => ?_⟩
      rw [hrows, List.getD_eq_getElem _ _ hi]
      exact (congrArg (Mem.byte · _) (Core.landBytes_spd _ _ 0 bs)).trans (Mem.byte_write_self bs _ _ i hwf hi)
    · rw [exec_remoteWriteArrival_of_found hw, State.remoteArrive_of_refused hwhy]
      rfl
  · obtain rfl : a.core = c := by simpa using List.find?_some ha
    rw [exec_remoteWriteAck_of_found ha, State.remoteAck_of_ok hok]
    rfl
  · obtain rfl : a.core = c := by simpa using List.find?_some ha
    rw [exec_remoteWriteAck_of_found ha, State.remoteAck_of_refused hno he hr]
    rfl
  · obtain ⟨mark, hfetch⟩ := s.remoteFetch_of_sound c q hbad
    have hcore : (s.updCore c Core.returned).core c = (s.core c).returned := (s.updCore_core c _ c).trans (if_pos rfl)
    obtain ⟨hread, hpc⟩ := (s.updCore c Core.returned).moveOut_rread_pc c q.word (fetchedRows (s.core q.core) q) mark
    refine ⟨_, exec_remoteRead_of_none_earlier hq hnone, ?_⟩
    simp only [State.settle_core_of, hfetch, State.nextInstr, State.updCore_core, if_true, State.landWrites_core, Core.refresh,
      hread, hpc, hcore]
    refine ⟨rfl, rfl, fun hl => ?_⟩
    rw [State.moveOut_local_spd _ c _ mark hl, hcore, Core.store_returned]
    rfl

end Sys2Proof.Machine

/-! Writes of RTV_CTRL (R215, R227): an idle Retriever takes the fields and arms, one that is not idle is disarmed or stopped. -/

namespace Sys2Proof.Machine

/-! ### Rewriting a Retriever -/

/-- Two rewritings of a Retriever that agree on what it holds are one. -/
theorem State.updRtv_congr {s : State} {c r : Nat} {f g : Rtv → Rtv} (h : f ((s.core c).rtv r) = g ((s.core c).rtv r)) :
    s.updRtv c r f = s.updRtv c r g := by
  simp only [State.updRtv, State.updCore, Core.updRtv, h]

section
variable (s : State) (c r : Nat)

theorem State.updRtv_updRtv (f g : Rtv → Rtv) : (s.updRtv c r f).updRtv c r g = s.updRtv c r fun x => g (f x) := by
  simp only [State.updRtv, State.updCore_updCore, Core.updRtv_updRtv]

theorem State.updRtv_core_self (f : Rtv → Rtv) : (s.updRtv c r f).core c = (s.core c).updRtv r f :=
  (s.updCore_core c _ c).trans (if_pos rfl)

theorem State.updRtv_core_ne (f : Rtv → Rtv) {d : Nat} (h : d ≠ c) : (s.updRtv c r f).core d = s.core d :=
  (s.updCore_core c _ d).trans (if_neg h)

theorem State.updRtv_rtv_self (f : Rtv → Rtv) : ((s.updRtv c r f).core c).rtv r = f ((s.core c).rtv r) := by
  rw [State.updRtv_core_self, Core.updRtv_rtv, if_pos rfl]

end

/-- A Retriever with a code reported. -/
def Rtv.coded (x : Rtv) (code : Nat) : Rtv := { x with code := code }

/-- The report of a code before a rewriting is part of it; the event does not depend on the order. -/
theorem State.rtvCode_updRtv (s : State) (c r code : Nat) (f : Rtv → Rtv) : (s.rtvCode c r code).updRtv c r f =
    (s.updRtv c r fun x => f (x.coded code)).raiseIf (code != 0) (pgCore c) 10 := by
  rw [← State.updRtv_updRtv s c r (·.coded code) f, State.rtvCode]
  cases code != 0 <;> rfl

/-- Two pairs of rewritings around the report of a code that agree on what the Retriever holds are one. -/
theorem State.rtvCode_updRtv_congr {s : State} {c r code : Nat} {f g f' g' : Rtv → Rtv}
    (h : g ((f ((s.core c).rtv r)).coded code) = g' ((f' ((s.core c).rtv r)).coded code)) :
    ((s.updRtv c r f).rtvCode c r code).updRtv c r g = ((s.updRtv c r f').rtvCode c r code).updRtv c r g' := by
  simp only [State.rtvCode_updRtv, State.updRtv_updRtv]
  rw [State.updRtv_congr (g := fun x => g' ((f' x).coded code)) h]

/-! ### A write of RTV_CTRL -/

theorem rtvCtrlAddr_of_lt {c r : Nat} (hc : c < 32) (hr : r < 8) : rtvCtrlAddr c r = 0x20984 + 0x1000 * c + 16 * r := by
  rw [rtvCtrlAddr, if_pos ⟨hc, hr⟩]
  omega

/-- The three rows of RTV_CTRL are the one write. -/
theorem exec_rtvCtrl_of_grants {c r : Nat} (v : Word) {acc : Acc} {s : State} (hc : c < 32) (hr : r < 8)
    (hg : s.grants (0x20984 + 0x1000 * c + 16 * r) acc = true) :
    exec (.rtvArm c r v acc) s = .next ((s.answered acc).rtvCtrlWrite c r v acc).settle ∧
      exec (.rtvDisarm c r v acc) s = .next ((s.answered acc).rtvCtrlWrite c r v acc).settle ∧
      exec (.rtvStop c r v acc) s = .next ((s.answered acc).rtvCtrlWrite c r v acc).settle := by
  have hg' : s.grants (rtvCtrlAddr c r) acc = true := by rwa [rtvCtrlAddr_of_lt hc hr]
  exact ⟨exec_of_cfgWrite rfl hg' rfl, exec_of_cfgWrite rfl hg' rfl, exec_of_cfgWrite rfl hg' rfl⟩

/-- An idle Retriever with the fields of a write. -/
def Rtv.taken (x : Rtv) (v : Word) : Rtv :=
  { x with trig := wbits v 1 0, be := v.getLsbD 4, id := wbits v 17 6, nsets := wbits v 23 18, ctl := rtvCtl v }

/-- A Retriever after a write with ARM = 0 that found it not idle. -/
def Rtv.disarmed (z : Rtv) (v : Word) : Rtv :=
  let y := { z with ctl := rtvCtl v }
  match y.st with
  | .armed => { y with st := .idle, pend := false, disarm := false }
  | .idle => y
  | _ => { y with disarm := true }

/-- A Retriever whose run has ended, in the state `st`. -/
def Rtv.stoppedAt (z : Rtv) (st : RtvState) : Rtv :=
  { z with st := st, cur := none, disarm := false, pend := if z.disarm then false else z.pend }

section
variable {z : Rtv}

theorem Rtv.stop_of_again (ht : z.trig ≠ 0) (hd : z.disarm = false) : z.stop = z.stoppedAt .armed := by
  simp [Rtv.stop, Rtv.stoppedAt, ht, hd]

theorem Rtv.stop_of_last (h : z.trig = 0 ∨ z.disarm = true) : z.stop = z.stoppedAt .idle := by
  rw [Rtv.stop, if_pos h, Rtv.stoppedAt]

theorem Rtv.disarmed_of_armed (v : Word) (h : z.st = .armed) :
    z.disarmed v = { z with st := .idle, pend := false, disarm := false, ctl := rtvCtl v } := by
  simp only [Rtv.disarmed, h]

theorem Rtv.disarmed_of_idle (v : Word) (h : z.st = .idle) : z.disarmed v = { z with ctl := rtvCtl v } := by
  simp only [Rtv.disarmed, h]

theorem Rtv.disarmed_of_busy (v : Word) (h : z.st = .running ∨ z.st = .parked) :
    z.disarmed v = { z with disarm := true, ctl := rtvCtl v } := by
  rcases h with h | h <;> simp only [Rtv.disarmed, h]

/-- A run of a trigger that STOP ends and ARM = 0 disarms leaves an idle Retriever without a pending trigger. -/
theorem Rtv.disarmed_stop_of_trigger (v : Word) (code : Nat) (ht : z.trig ≠ 0) : (z.stop.coded code).disarmed v =
    { (z.stoppedAt .idle).coded code with pend := false, ctl := rtvCtl v } := by
  cases hd : z.disarm with
  | false =>
    rw [Rtv.stop_of_again ht hd, Rtv.disarmed_of_armed v rfl]
    rfl
  | true =>
    rw [Rtv.stop_of_last (.inr hd), Rtv.disarmed_of_idle v rfl, Rtv.stoppedAt, if_pos hd]
    rfl

/-- A run of arming that STOP ends leaves an idle Retriever. -/
theorem Rtv.disarmed_stop_of_arming (v : Word) (code : Nat) (ht : z.trig = 0) : (z.stop.coded code).disarmed v =
    { (z.stoppedAt .idle).coded code with ctl := rtvCtl v } := by
  rw [Rtv.stop_of_last (.inl ht), Rtv.disarmed_of_idle v rfl]

end

/-- A Retriever whose run STOP has ended. -/
def State.rtvStopped (s : State) (c r : Nat) : State := (s.updRtv c r Rtv.stop).rtvCode c r 0x0B

section
variable {s : State} {c r : Nat} {v : Word} {acc : Acc}

theorem State.rtvCtrlWrite_of_idle (h : ((s.core c).rtv r).st = .idle) : s.rtvCtrlWrite c r v acc =
    if v.getLsbD 2 then (s.updRtv c r (·.taken v)).rtvArmNow c r acc else s.updRtv c r (·.taken v) := by
  have hrun : (RtvState.idle == .running || RtvState.idle == .parked) = false := rfl
  simp only [State.rtvCtrlWrite, h, hrun, Bool.and_false, if_true, Bool.false_eq_true, if_false]
  rfl

theorem State.rtvCtrlWrite_of_armed (h : ((s.core c).rtv r).st = .armed) :
    s.rtvCtrlWrite c r v acc = if v.getLsbD 2 then s else s.updRtv c r (·.disarmed v) := by
  have hrun : (RtvState.armed == .running || RtvState.armed == .parked) = false := rfl
  simp only [State.rtvCtrlWrite, h, hrun, Bool.and_false, reduceCtorEq, Bool.false_eq_true, if_false]
  rfl

/-- STOP ends the run before ARM is looked at. -/
theorem State.rtvCtrlWrite_of_busy (h : ((s.core c).rtv r).st = .running ∨ ((s.core c).rtv r).st = .parked) :
    s.rtvCtrlWrite c r v acc =
      if v.getLsbD 2 then (if v.getLsbD 3 then s.rtvStopped c r else s)
      else (if v.getLsbD 3 then s.rtvStopped c r else s).updRtv c r (·.disarmed v) := by
  have hrun : (((s.core c).rtv r).st == .running || ((s.core c).rtv r).st == .parked) = true := by
    rcases h with h | h <;> rw [h] <;> rfl
  have hidle : ((s.core c).rtv r).st ≠ .idle := by
    rcases h with h | h <;> rw [h] <;> decide
  simp only [State.rtvCtrlWrite, hrun, hidle, Bool.and_true, if_false]
  rfl

/-! ### Arming (R213, R215) -/

/-- The Retriever that a core arms, with its program and parameter set 0. -/
def Core.armedRtv (k : Core) (x : Rtv) (acc : Acc) : Rtv :=
  let prog := wbits x.prog 15 0
  let y : Rtv := { x with params := wbits x.prog 31 16, ctx := acc.ctx, set := 0
                          store := tab (k.rdN (k.entry prog) 2 1) fun i => k.rdN (k.entry prog) (8 + 8 * i) 8
                          st := .armed, disarm := false, pend := x.trig == 0, pendFrame := 0, pc := 0, cur := none, atFire := [] }
  { y with p := (k.loadSet y 0).2 }

/-- The checks at arming read nothing of the Retrievers. -/
theorem Core.updRtv_armOk (k : Core) (f : Rtv → Rtv) (ctx prog params trig be nsets : Nat) :
    (k.updRtv r f).armOk ctx prog params trig be nsets = k.armOk ctx prog params trig be nsets := rfl

theorem State.rtvArmNow_of_taken : (s.updRtv c r (·.taken v)).rtvArmNow c r acc =
    if (s.core c).armOk acc.ctx.toNat (wbits ((s.core c).rtv r).prog 15 0) (wbits ((s.core c).rtv r).prog 31 16) (wbits v 1 0)
        (b2n (v.getLsbD 4)) (wbits v 23 18)
      then s.updRtv c r fun x => (s.core c).armedRtv (x.taken v) acc
      else (s.updRtv c r (·.taken v)).rtvCode c r 0x01 := by
  simp only [State.rtvArmNow, State.updRtv_core_self, Core.updRtv_rtv, if_true, Core.updRtv_armOk]
  refine if_congr Iff.rfl ?_ rfl
  rw [State.updRtv_updRtv]
  exact State.updRtv_congr rfl

end

theorem Core.refGood_params_of_armOk {k : Core} {ctx prog params trig be nsets : Nat}
    (h : k.armOk ctx prog params trig be nsets = true) : k.refGood ctx params = true := by
  simp only [Core.armOk, Bool.and_eq_true] at h
  obtain ⟨⟨⟨⟨⟨⟨⟨⟨⟨-, hparams⟩, -⟩, -⟩, -⟩, -⟩, -⟩, -⟩, -⟩, -⟩ := h
  exact hparams

/-- A usable reference gives its parameter set. -/
theorem Core.loadSet_of_refGood {k : Core} {x : Rtv} (n : Nat) (h : k.refGood x.ctx.toNat x.params = true) :
    k.loadSet x n = (0, tab 8 fun i => dword (k.rdN (k.entry x.params) (64 * n + 8 * i) 8)) := by
  simp only [Core.refGood, Bool.and_eq_true, Bool.not_eq_true'] at h
  obtain ⟨⟨hnull, hbad⟩, hstale⟩ := h
  simp only [Core.loadSet, hnull, hbad, hstale, Bool.or_self, Bool.false_eq_true, if_false]

theorem Core.armedRtv_p {k : Core} {x : Rtv} {acc : Acc} (h : k.refGood acc.ctx.toNat (wbits x.prog 31 16) = true) :
    (k.armedRtv x acc).p = (List.range 8).map fun j => dword (k.rdN (k.entry (wbits x.prog 31 16)) (8 * j) 8) := by
  rw [Core.armedRtv]
  dsimp only
  rw [Core.loadSet_of_refGood 0 h]
  simp only [tab, Nat.mul_zero, Nat.zero_add]

/-- Settles O53: a write of RTV_CTRL by the state in which it finds the Retriever, then by ARM and STOP. -/
theorem retrieversAreArmedDisarmedAndStopped : Obligations.RetrieversAreArmedDisarmedAndStopped := by
  unfold Obligations.RetrieversAreArmedDisarmedAndStopped
  intro c r v acc s hc hr hg all x u y k ok busy stopped
  have hall := exec_rtvCtrl_of_grants v hc hr hg
  have hidle (h : x.st = .idle) := State.rtvCtrlWrite_of_idle (s := s.answered acc) (v := v) (acc := acc) h
  have harmed (h : x.st = .armed) := State.rtvCtrlWrite_of_armed (s := s.answered acc) (v := v) (acc := acc) h
  have hbusy (h : busy) := State.rtvCtrlWrite_of_busy (s := s.answered acc) (v := v) (acc := acc) h
  have harm := State.rtvArmNow_of_taken (s := s.answered acc) (c := c) (r := r) (v := v) (acc := acc)
  have harm_bad (h : ok = false) := harm.trans (if_neg (ne_true_of_eq_false h))
  have harm_ok (h : ok = true) := harm.trans (if_pos h)
  have htaken : (s.answered acc).updRtv c r (·.taken v) = (s.answered acc).updRtv c r fun _ => y := State.updRtv_congr rfl
  refine ⟨fun h h2 => ?_, fun h h2 hbad => ?_, fun h h2 hok => ?_, fun h h2 => ?_, fun h h2 => ?_, fun h h2 h3 => ?_,
    fun h h3 h2 ht hd => ?_, fun h h3 h2 ht => ?_, fun h h3 h2 ht => ?_, fun h h3 h2 ht => ?_⟩
  · rw [hidle h, h2, if_neg Bool.false_ne_true, htaken] at hall
    exact hall
  · rw [hidle h, h2, if_pos rfl, harm_bad hbad, htaken] at hall
    exact hall
  · rw [hidle h, h2, if_pos rfl, harm_ok hok] at hall
    refine ⟨_, hall, ?_⟩
    simp only [State.settle_core_of, State.settle_hdrs, State.updRtv_rtv_self]
    have hp := Core.armedRtv_p (x := x.taken v) (acc := acc) (Core.refGood_params_of_armOk hok)
    refine ⟨rfl, rfl, rfl, rfl, rfl, rfl, rfl, rfl, hp, rfl, rfl, rfl, rfl, rfl, rfl, rfl, ?_, ?_, fun q hq => ?_, fun d hd => ?_⟩
    · rw [State.updRtv_core_self]
      rfl
    · rw [State.updRtv_core_self]
      rfl
    · rw [State.updRtv_core_self, Core.updRtv_rtv, if_neg hq]
      rfl
    · rw [State.updRtv_core_ne _ _ _ _ hd]
      rfl
  · rcases h with h | ⟨h, h3⟩
    · rw [harmed h, h2, if_pos rfl] at hall
      exact hall
    · rw [hbusy h, h2, if_pos rfl, h3, if_neg Bool.false_ne_true] at hall
      exact hall
  · rw [harmed h, h2, if_neg Bool.false_ne_true,
      State.updRtv_congr (g := fun z => { z with st := .idle, pend := false, disarm := false, ctl := u })
        (Rtv.disarmed_of_armed v h)] at hall
    exact hall
  · rw [hbusy h, h2, if_neg Bool.false_ne_true, h3, if_neg Bool.false_ne_true,
      State.updRtv_congr (g := fun z => { z with disarm := true, ctl := u }) (Rtv.disarmed_of_busy v h)] at hall
    exact hall
  · rw [hbusy h, h2, if_pos rfl, h3, if_pos rfl, State.rtvStopped,
      State.updRtv_congr (s := s.answered acc) (g := (·.stoppedAt .armed)) (Rtv.stop_of_again ht hd)] at hall
    exact hall
  · rw [hbusy h, h2, if_pos rfl, h3, if_pos rfl, State.rtvStopped,
      State.updRtv_congr (s := s.answered acc) (g := (·.stoppedAt .idle)) (Rtv.stop_of_last ht)] at hall
    exact hall
  · rw [hbusy h, h2, if_neg Bool.false_ne_true, h3, if_pos rfl, State.rtvStopped,
      State.rtvCode_updRtv_congr (f' := (·.stoppedAt .idle)) (g' := fun z => { z with pend := false, ctl := u })
        (Rtv.disarmed_stop_of_trigger v 0x0B ht)] at hall
    exact hall
  · rw [hbusy h, h2, if_neg Bool.false_ne_true, h3, if_pos rfl, State.rtvStopped,
      State.rtvCode_updRtv_congr (f' := (·.stoppedAt .idle)) (g' := fun z => { z with ctl := u })
        (Rtv.disarmed_stop_of_arming v 0x0B ht)] at hall
    exact hall

end Sys2Proof.Machine

/-! RD in a state whose interrupt lines are not settled: the line that rises sends its message in the same step, so host memory does
not stay as it was (R214, R401, R402). -/

namespace Sys2Proof.Machine

/-- A Retriever of core 0 whose next instruction is an RD of one line through the reference 1 (R214). -/
def rdRtv : Rtv := { st := .running, trig := 2, store := [1 + 2 ^ 16 + 2 ^ 32] }

/-- The engine with that Retriever over a buffer of one line, with line 0 due to rise and a message set up for it (R402). -/
def rdWithLineDue : State :=
  { State.reset with
    fuse := ⟨false, 0, 0, 0, []⟩
    boot := { stage := .full }
    cores := [(0, { handles := [(1, 1#64)], rtvs := [(0, rdRtv)] })]
    glb := { ringPend := 1#16, msiHi := [(0, 0x80000000#32)], msiData := [(0, 1#32)] } }

/-- The Retriever runs on, and its RD passes the checks of R217. -/
theorem rdWithLineDue_issues :
    rdWithLineDue.rtvGoes 0 0 = true ∧ rdWithLineDue.moveCode 0 0 1 0 1 0 1 0 false = 0 := by decide +kernel

theorem exec_rd_eq (c r : Nat) (s : State) :
    exec (.rd c r) s = .next (s.rtvRow c r 1 fun t w => t.rtvMoveRow c r w).settle := rfl

/-- The message of line 0 lies in host memory after the RD, where nothing lay before. -/
theorem rdWithLineDue_sends_message :
    (rdWithLineDue.rtvRow 0 0 1 fun t w => t.rtvMoveRow 0 0 w).settle.host = [(0, 1#8)] := by decide +kernel

/-- What the last clause of RD says of host memory, for any state with that Retriever. -/
theorem rd_keeps_host_of_obligation (h : Obligations.RetrieverProgramsRunAndLinesLand) {s : State} (hx : (s.core 0).rtv 0 = rdRtv)
    (hgoes : s.rtvGoes 0 0 = true) (hcode : s.moveCode 0 0 1 0 1 0 1 0 false = 0) :
    ∃ t, exec (.rd 0 0) s = .next t ∧ t.host = s.host := by
  obtain ⟨-, -, -, -, -, -, -, -, -, -, -, -, -, -, -, -, -, -, -, -, -, -, -, -, -, -, -, -, -, -, -, -, -, -, -, ⟨-, -, hrd⟩, -⟩ :=
    h.1 0 0 s
  rw [hx] at hrd
  obtain ⟨t, ht, -, -, -, -, -, -, -, -, hhost, -⟩ := hrd ⟨rfl, rfl, hgoes, rfl⟩ hcode rfl (by decide) rfl rfl rfl (by decide)
  exact ⟨t, ht, hhost⟩

/-- Refutes O54: the last clause of RD keeps host memory as it was in every state, also in one whose interrupt lines do not stand at
their levels; there line 0 rises, and its message is written in the step of the RD. -/
theorem not_retrieverProgramsRunAndLinesLand : ¬ Obligations.RetrieverProgramsRunAndLinesLand := by
  intro h
  obtain ⟨hgoes, hcode⟩ := rdWithLineDue_issues
  obtain ⟨t, ht, hhost⟩ := rd_keeps_host_of_obligation h (s := rdWithLineDue) rfl hgoes hcode
  obtain rfl := Host.Outcome.next.inj ((exec_rd_eq 0 0 rdWithLineDue).symm.trans ht)
  rw [rdWithLineDue_sends_message] at hhost
  exact List.cons_ne_nil _ _ hhost

end Sys2Proof.Machine

/-! Time bases: ticks, the free-running count, stalls, and the closes that an advance passes (R231 to R234, R239). -/

namespace Sys2Proof.Machine

/-! ### Events stay raised -/

/-- Every event raised in `s` is raised in `u`. -/
def State.KeepsEvents (s u : State) : Prop := ∀ p i, (s.hdr p).raw.getLsbD i = true → (u.hdr p).raw.getLsbD i = true

theorem State.KeepsEvents.of_eq {s u : State} (h : u.hdrs = s.hdrs) : s.KeepsEvents u := fun p i hi => by
  rwa [State.hdr, h]

theorem State.KeepsEvents.trans {s t u : State} (h : s.KeepsEvents t) (h' : t.KeepsEvents u) : s.KeepsEvents u :=
  fun p i hi => h' p i (h p i hi)

theorem State.raise_keepsEvents (s : State) (q b : Nat) : s.KeepsEvents (s.raise q b) := fun p i h => by
  by_cases hp : p = q
  · rw [hp, State.raise_hdr_raw, BitVec.getLsbD_or, ← hp, h, Bool.true_or]
  · rwa [State.raise_hdr_ne s b hp]

theorem State.raiseIf_keepsEvents (s : State) (c : Bool) (q b : Nat) : s.KeepsEvents (s.raiseIf c q b) := by
  cases c with
  | false => exact .of_eq rfl
  | true => exact s.raise_keepsEvents q b

/-! ### Passing closes (R239) -/

/-- `u` differs from `s` in events, groups and calendars alone, and has every event of `s`. -/
def State.ClosesTo (s u : State) : Prop :=
  (∃ hs gs ps, u = { s with hdrs := hs, groups := gs, packs := ps }) ∧ s.KeepsEvents u

theorem State.ClosesTo.refl (s : State) : s.ClosesTo s := ⟨⟨s.hdrs, s.groups, s.packs, rfl⟩, .of_eq rfl⟩

theorem State.ClosesTo.trans {s t u : State} (h : s.ClosesTo t) (h' : t.ClosesTo u) : s.ClosesTo u := by
  obtain ⟨⟨_, _, _, rfl⟩, hr⟩ := h
  obtain ⟨⟨hs, gs, ps, rfl⟩, hr'⟩ := h'
  exact ⟨⟨hs, gs, ps, rfl⟩, hr.trans hr'⟩

theorem State.ClosesTo.ite {s t u : State} {c : Prop} [Decidable c] (h : s.ClosesTo t) (h' : s.ClosesTo u) :
    s.ClosesTo (if c then t else u) := by
  split_ifs
  · exact h
  · exact h'

theorem State.raiseIf_closesTo (s : State) (c : Bool) (q b : Nat) : s.ClosesTo (s.raiseIf c q b) := by
  obtain ⟨hs, h⟩ := s.raiseIf_eq c q b
  exact ⟨⟨hs, s.groups, s.packs, h⟩, s.raiseIf_keepsEvents c q b⟩

theorem State.setGroup_closesTo (s : State) (gid : Nat) (g : Group) : s.ClosesTo (s.setGroup gid g) :=
  ⟨⟨_, _, _, rfl⟩, .of_eq rfl⟩

theorem State.updPack_closesTo (s : State) (p : Nat) (f : Pack → Pack) : s.ClosesTo (s.updPack p f) :=
  ⟨⟨_, _, _, rfl⟩, .of_eq rfl⟩

theorem State.closeOne_closesTo (s : State) (gid : Nat) : s.ClosesTo (s.closeOne gid) := by
  unfold State.closeOne
  split
  · exact .refl s
  · exact .ite (((s.raiseIf_closesTo _ _ _).trans (State.setGroup_closesTo _ _ _)).trans (State.updPack_closesTo _ _ _))
      ((s.raiseIf_closesTo _ _ _).trans (State.setGroup_closesTo _ _ _))

theorem State.closeMany_closesTo (s : State) (gid n : Nat) : s.ClosesTo (s.closeMany gid n) := by
  induction n generalizing s with
  | zero => exact .refl s
  | succ n ih => exact (s.closeOne_closesTo gid).trans (ih _)

/-- The closes that an advance passes change events, groups and calendars, and take no event back. -/
theorem State.passCloses_closesTo (s : State) (t : Nat) : s.ClosesTo (s.passCloses t) := by
  unfold State.passCloses
  generalize (s.tb t).value = v
  generalize s.groups = l
  induction l generalizing s with
  | nil => exact .refl s
  | cons e l ih => exact State.ClosesTo.trans (.ite (s.closeMany_closesTo _ _) (.refl s)) (ih _)

section
variable (s : State) (t : Nat)

@[simp] theorem State.passCloses_tb (i : Nat) : (s.passCloses t).tb i = s.tb i := by
  obtain ⟨⟨hs, gs, ps, h⟩, -⟩ := s.passCloses_closesTo t
  rw [h]
  rfl

@[simp] theorem State.passCloses_fclk : (s.passCloses t).fclk = s.fclk := by
  obtain ⟨⟨hs, gs, ps, h⟩, -⟩ := s.passCloses_closesTo t
  rw [h]

@[simp] theorem State.passCloses_tickEdge : (s.passCloses t).tickEdge = s.tickEdge := by
  obtain ⟨⟨hs, gs, ps, h⟩, -⟩ := s.passCloses_closesTo t
  rw [h]

end

/-! ### Advancing -/

/-- A time base that has just taken the value `v` at FCLK count `now`. -/
def TBase.advanced (x : TBase) (now : Nat) (v : DWord) : TBase := { x with value := v, lastAdv := now, stalled := false }

section
variable (s : State) (t : Nat) (v : DWord)

theorem State.tbAdvance_tb (i : Nat) : (s.tbAdvance t v).tb i = if i = t then (s.tb t).advanced s.fclk v else s.tb i := by
  rw [State.tbAdvance, State.passCloses_tb, State.updTb_tb]
  rfl

@[simp] theorem State.tbAdvance_fclk : (s.tbAdvance t v).fclk = s.fclk := by
  rw [State.tbAdvance, State.passCloses_fclk, State.updTb_fclk]

@[simp] theorem State.tbAdvance_tickEdge : (s.tbAdvance t v).tickEdge = s.tickEdge := by
  rw [State.tbAdvance, State.passCloses_tickEdge, State.updTb_tickEdge]

end

/-! ### Ticks (R232) -/

/-- Counting one on each of some time bases. -/
def State.countOn (s : State) (l : List Nat) : State := l.foldl (fun u i => u.tbAdvance i ((u.tb i).value + 1)) s

@[simp] theorem State.countOn_tickEdge (s : State) (l : List Nat) : (s.countOn l).tickEdge = s.tickEdge := by
  unfold State.countOn
  induction l generalizing s with
  | nil => rfl
  | cons i l ih => rw [List.foldl_cons, ih, State.tbAdvance_tickEdge]

/-- Each of distinct time bases counts one, and no other does. -/
theorem State.countOn_tb (s : State) {l : List Nat} (hl : l.Nodup) (i : Nat) :
    (s.countOn l).tb i = if i ∈ l then (s.tb i).advanced s.fclk ((s.tb i).value + 1) else s.tb i := by
  unfold State.countOn
  induction l generalizing s with
  | nil => rfl
  | cons j l ih =>
    obtain ⟨hj, hl⟩ := List.nodup_cons.mp hl
    rw [List.foldl_cons, ih _ hl, State.tbAdvance_fclk, State.tbAdvance_tb]
    by_cases hij : i = j
    · subst hij
      simp [hj]
    · simp [hij]

theorem State.mem_tickedBy {s : State} {line i : Nat} : i ∈ s.tickedBy line ↔
    (decide (i < 8) && (s.tb i).en && ((s.tb i).src == 1 || (s.tb i).src == 2) && (s.tb i).sel == line) = true := by
  simp [State.tickedBy, List.mem_filter, and_assoc]

section
variable (s : State) (line : Nat)

theorem State.tickCount_tickEdge (b : Bool) : (s.tickCount line b).tickEdge = s.tickEdge.put line (s.fclk, b) := by
  unfold State.tickCount
  cases b with
  | false => rfl
  | true => exact State.countOn_tickEdge _ _

/-- An edge that counts advances the time bases that its line drives. -/
theorem State.tickCount_true_tb (i : Nat) : (s.tickCount line true).tb i =
    if i ∈ s.tickedBy line then (s.tb i).advanced s.fclk ((s.tb i).value + 1) else s.tb i :=
  State.countOn_tb _ (List.nodup_range.filter _) i

end

/-- The edge of a tick line is noted as one that counted, and every time base that the line drives has counted one. -/
def State.tickCounted (s : State) (line : Nat) (u : State) : Prop :=
  u.tickEdge = s.tickEdge.put line (s.fclk, true) ∧
    ∀ i ∈ s.tickedBy line, u.tb i = (s.tb i).advanced s.fclk ((s.tb i).value + 1)

theorem State.tickCounted_tickCount (s : State) (line : Nat) : s.tickCounted line (s.tickCount line true) :=
  ⟨s.tickCount_tickEdge line true, fun i hi => (s.tickCount_true_tb line i).trans (if_pos hi)⟩

section
variable {s : State} {line : Nat}

/-- The first edge of a line, or one at least 4 FCLK after the one before, counts. -/
theorem State.tick_of_apart (h : ∀ e, s.tickEdge.find? (fun x => x.1 == line) = some e → e.2.1 + 4 ≤ s.fclk) :
    s.tick line = s.tickCount line true := by
  unfold State.tick
  split
  · rename_i x e b he
    have hapart : e + 4 ≤ s.fclk := h _ he
    rw [if_neg (by omega), if_neg (by omega)]
  · rfl

/-- Of two edges at one FCLK edge, the second counts if the first did not. -/
theorem State.tick_of_same {e : Nat × Nat × Bool} (he : s.tickEdge.find? (fun x => x.1 == line) = some e) (h : e.2.1 = s.fclk) :
    s.tick line = if e.2.2 = true then s else s.tickCount line true := by
  obtain ⟨x, e, b⟩ := e
  simp only [State.tick, he]
  rw [if_pos h.symm]

/-- A tick counts one on the time bases of its line or changes no time base. -/
theorem State.tick_cases : s.tick line = s.tickCount line true ∨ (∀ i, (s.tick line).tb i = s.tb i) ∨
    s.tick line = ({ s with fresh := s.fresh + 1 } : State).tickCount line true := by
  unfold State.tick
  split
  · split_ifs
    · exact .inr (.inl fun _ => rfl)
    · exact .inl rfl
    · cases Config.freeBit s.fresh with
      | false => exact .inr (.inl fun _ => rfl)
      | true => exact .inr (.inr rfl)
    · exact .inl rfl
  · exact .inl rfl

theorem State.tickCounted_or_unmoved : s.tickCounted line (s.tick line) ∨ ∀ i, (s.tick line).tb i = s.tb i := by
  rcases State.tick_cases (s := s) (line := line) with h | h | h
  · rw [h]
    exact .inl (s.tickCounted_tickCount line)
  · exact .inr h
  · rw [h]
    exact .inl (State.tickCounted_tickCount { s with fresh := s.fresh + 1 } line)

/-- A tick moves no time base that its line does not drive. -/
theorem State.tick_tb_of_not_driven {i : Nat} (hi : i ∉ s.tickedBy line) : (s.tick line).tb i = s.tb i := by
  rcases State.tick_cases (s := s) (line := line) with h | h | h
  · rw [h, State.tickCount_true_tb, if_neg hi]
  · exact h i
  · rw [h, State.tickCount_true_tb]
    exact if_neg hi

theorem exec_tbTick_of_running (hr : s.running = true) (hl : line < 8) :
    exec (.tbTick line) s = .next (s.tick line).settle := by
  simp only [exec, execTbTick, hr, hl, decide_true, Bool.and_self, if_true, done_eq]

end

/-! ### FREE_RUN_ADVANCE and TB_STALL -/

section
variable {s : State} {t : Nat}

theorem exec_freeRunAdvance_of_due (hr : s.running = true) (ht : t < 8) (hen : (s.tb t).en = true) (hsrc : (s.tb t).src = 4)
    (hdue : (s.tb t).phase + (s.tb t).div + 1 ≤ s.fclk) : exec (.freeRunAdvance t) s =
      .next ((s.updTb t fun x => { x with phase := (s.tb t).phase + (s.tb t).div + 1 }).tbAdvance t ((s.tb t).value + 1)).settle := by
  simp only [exec, execFreeRunAdvance, hr, ht, hen, hsrc, hdue, decide_true, beq_self_eq_true, Bool.and_self, if_true, done_eq]

theorem exec_freeRunAdvance_of_not_due
    (h : (s.tb t).en = false ∨ (s.tb t).src ≠ 4 ∨ s.fclk < (s.tb t).phase + (s.tb t).div + 1) :
    exec (.freeRunAdvance t) s = .next s.settle := by
  have hcond : (s.running && decide (t < 8) && (s.tb t).en && (s.tb t).src == 4
      && decide ((s.tb t).phase + (s.tb t).div + 1 ≤ s.fclk)) = false := by
    rcases h with h | h | h
    · simp [h]
    · simp [h]
    · simp [Nat.not_le.mpr h]
  simp only [exec, execFreeRunAdvance, hcond, Bool.false_eq_true, if_false, done_eq]

theorem exec_tbStall_of_silent (hr : s.running = true) (ht : t < 8) (hen : (s.tb t).en = true) (hlim : (s.tb t).stallLim ≠ 0)
    (hst : (s.tb t).stalled = false) (hlate : (s.tb t).stallLim * 1024 ≤ s.fclk - (s.tb t).lastAdv) :
    exec (.tbStall t) s = .next ((s.updTb t fun x => { x with stalled := true }).raise (pgTbase t) 0).settle := by
  simp only [exec, execTbStall, hr, ht, hen, bne_iff_ne.mpr hlim, hst, hlate, decide_true, Bool.not_false, Bool.and_self, if_true,
    done_eq]

theorem exec_tbStall_of_not_due (h : (s.tb t).en = false ∨ (s.tb t).stallLim = 0 ∨ (s.tb t).stalled = true ∨
    s.fclk - (s.tb t).lastAdv < (s.tb t).stallLim * 1024) : exec (.tbStall t) s = .next s.settle := by
  have hcond : (s.running && decide (t < 8) && (s.tb t).en && (s.tb t).stallLim != 0 && !(s.tb t).stalled
      && decide ((s.tb t).stallLim * 1024 ≤ s.fclk - (s.tb t).lastAdv)) = false := by
    rcases h with h | h | h | h
    · simp [h]
    · simp [h]
    · simp [h]
    · simp [Nat.not_le.mpr h]
  simp only [exec, execTbStall, hcond, Bool.false_eq_true, if_false, done_eq]

end

/-- Settles O19: FREE_RUN_ADVANCE and TB_STALL by their conditions, TB_TICK by the distance of its edge from the one before. -/
theorem timeBasesCountRunFreeAndStall : Obligations.TimeBasesCountRunFreeAndStall := by
  unfold Obligations.TimeBasesCountRunFreeAndStall
  refine ⟨fun t s hr ht => ⟨exec_freeRunAdvance_of_due hr ht, exec_freeRunAdvance_of_not_due, exec_tbStall_of_silent hr ht,
    exec_tbStall_of_not_due⟩, fun line s hr hl => ?_⟩
  have hcounts (u : State) (h : s.tickCounted line u) : s.tickCounted line u.settle := by
    simpa only [State.tickCounted, State.settle_tickEdge, State.settle_tb_of] using h
  dsimp only
  simp only [← State.mem_tickedBy, ← Bool.not_eq_true]
  refine ⟨(s.tick line).settle, exec_tbTick_of_running hr hl, fun i hi => ?_, fun hapart => hcounts _ ?_,
    fun e he hsame hnot => hcounts _ ?_, fun e he hsame hdid => ?_, ?_⟩
  · rw [State.settle_tb_of, State.tick_tb_of_not_driven hi]
  · rw [State.tick_of_apart hapart]
    exact s.tickCounted_tickCount line
  · rw [State.tick_of_same he hsame, if_neg hnot]
    exact s.tickCounted_tickCount line
  · rw [State.tick_of_same he hsame, if_pos hdid]
    exact ⟨s.settle_tickEdge, s.settle_tb_of⟩
  · exact State.tickCounted_or_unmoved.imp (hcounts _) fun h i => (State.settle_tb_of _ i).trans (h i)

end Sys2Proof.Machine

/-! The calendar: which waiting frame goes first, and what the firing of a frame leaves (R241, R247 to R250). -/

namespace Sys2Proof.Machine

/-! ### The order of waiting frames (R249) -/

/-- A waiter goes no later than another: no later deadline, and no higher entry at the same one; no deadline ranks last. -/
def Waiter.noLater (w x : Waiter) : Prop :=
  (∀ dx dw, x.due = some dx → w.due = some dw → dw ≤ dx ∧ (dw = dx → w.entry ≤ x.entry)) ∧
    (w.due = none → x.due = none ∧ w.entry ≤ x.entry)

theorem Waiter.noLater_refl (w : Waiter) : w.noLater w :=
  ⟨fun dx dw hx hw => by cases hx.symm.trans hw; exact ⟨le_rfl, fun _ => le_rfl⟩, fun h => ⟨h, le_rfl⟩⟩

theorem Waiter.noLater_trans {a b c : Waiter} (hab : a.noLater b) (hbc : b.noLater c) : a.noLater c := by
  refine ⟨fun dc da hc ha => ?_, fun ha => ?_⟩
  · cases hb : b.due with
    | none => cases hc.symm.trans (hbc.2 hb).1
    | some db =>
      have h := hab.1 db da hb ha
      have h' := hbc.1 dc db hc hb
      exact ⟨by omega, fun _ => (h.2 (by omega)).trans (h'.2 (by omega))⟩
  · obtain ⟨hb, he⟩ := hab.2 ha
    obtain ⟨hc, he'⟩ := hbc.2 hb
    exact ⟨hc, he.trans he'⟩

theorem Waiter.noLater_of_before {a b : Waiter} (h : a.before b = true) : a.noLater b := by
  unfold Waiter.before at h
  unfold Waiter.noLater
  cases ha : a.due <;> cases hb : b.due <;> simp [ha, hb] at h ⊢ <;> omega

theorem Waiter.noLater_of_not_before {a b : Waiter} (h : ¬ a.before b = true) : b.noLater a := by
  unfold Waiter.before at h
  unfold Waiter.noLater
  cases ha : a.due <;> cases hb : b.due <;> simp [ha, hb] at h ⊢ <;> omega

/-- The earlier of the waiter found so far and the next one. -/
def Waiter.earlier (a : Option Waiter) (w : Waiter) : Option Waiter :=
  match a with
  | none => some w
  | some b => if w.before b then some w else some b

theorem firstWaiter_eq (ws : List Waiter) : firstWaiter ws = ws.foldl Waiter.earlier none := rfl

/-- The earlier of two waiters is one of them, and no later than either. -/
theorem Waiter.earlier_some (b x : Waiter) : ∃ w, Waiter.earlier (some b) x = some w ∧ (w = b ∨ w = x) ∧ w.noLater b ∧ w.noLater x := by
  by_cases h : x.before b = true
  · exact ⟨x, if_pos h, .inr rfl, Waiter.noLater_of_before h, x.noLater_refl⟩
  · exact ⟨b, if_neg h, .inl rfl, b.noLater_refl, Waiter.noLater_of_not_before h⟩

theorem Waiter.foldl_earlier (b : Waiter) (ws : List Waiter) :
    ∃ w, ws.foldl Waiter.earlier (some b) = some w ∧ w ∈ b :: ws ∧ ∀ x ∈ b :: ws, w.noLater x := by
  induction ws generalizing b with
  | nil => exact ⟨b, rfl, List.mem_singleton_self b, fun x hx => List.mem_singleton.mp hx ▸ b.noLater_refl⟩
  | cons x ws ih =>
    obtain ⟨c, hc, hcmem, hcb, hcx⟩ := Waiter.earlier_some b x
    obtain ⟨w, hw, hmem, hall⟩ := ih c
    have hwc := hall c List.mem_cons_self
    refine ⟨w, by rw [List.foldl_cons, hc, hw], ?_, fun y hy => ?_⟩
    · rcases List.mem_cons.mp hmem with rfl | h
      · rcases hcmem with rfl | rfl <;> simp
      · exact .tail _ (.tail _ h)
    · rcases List.mem_cons.mp hy with rfl | hy
      · exact Waiter.noLater_trans hwc hcb
      · rcases List.mem_cons.mp hy with rfl | hy
        · exact Waiter.noLater_trans hwc hcx
        · exact hall y (.tail _ hy)

theorem firstWaiter_none_iff (ws : List Waiter) : firstWaiter ws = none ↔ ws = [] := by
  cases ws with
  | nil => exact ⟨fun _ => rfl, fun _ => rfl⟩
  | cons b ws =>
    obtain ⟨w, hw, -, -⟩ := Waiter.foldl_earlier b ws
    simp only [firstWaiter_eq, List.foldl_cons, Waiter.earlier, hw, reduceCtorEq]

/-- The waiter that goes first waits, and goes no later than any other. -/
theorem firstWaiter_some {ws : List Waiter} {w : Waiter} (h : firstWaiter ws = some w) : w ∈ ws ∧ ∀ x ∈ ws, w.noLater x := by
  cases ws with
  | nil => cases h
  | cons b ws =>
    obtain ⟨v, hv, hmem⟩ := Waiter.foldl_earlier b ws
    cases hv.symm.trans h
    exact hmem

theorem isEmpty_of_firstWaiter {ws : List Waiter} {w : Waiter} (h : firstWaiter ws = some w) : ws.isEmpty = false := by
  cases ws with
  | nil => cases h
  | cons b ws => rfl

/-! ### What happens at a fire beside the frame -/

/-- `u` has the groups, the calendars and the FCLK count of `s`, and every event of `s`. -/
def State.FiresTo (s u : State) : Prop := (u.groups = s.groups ∧ u.packs = s.packs ∧ u.fclk = s.fclk) ∧ s.KeepsEvents u

theorem State.FiresTo.refl (s : State) : s.FiresTo s := ⟨⟨rfl, rfl, rfl⟩, .of_eq rfl⟩

theorem State.FiresTo.trans {s t u : State} (h : s.FiresTo t) (h' : t.FiresTo u) : s.FiresTo u := by
  obtain ⟨⟨hg, hp, hf⟩, he⟩ := h
  obtain ⟨⟨hg', hp', hf'⟩, he'⟩ := h'
  exact ⟨⟨hg'.trans hg, hp'.trans hp, hf'.trans hf⟩, he.trans he'⟩

theorem State.FiresTo.ite {s t u : State} {c : Prop} [Decidable c] (h : s.FiresTo t) (h' : s.FiresTo u) :
    s.FiresTo (if c then t else u) := by
  split_ifs
  · exact h
  · exact h'

theorem State.FiresTo.foldl {α : Type} {f : State → α → State} {s t : State} (l : List α) (h : ∀ (t : State) x, t.FiresTo (f t x))
    (hs : s.FiresTo t) : s.FiresTo (l.foldl f t) := by
  induction l generalizing t with
  | nil => exact hs
  | cons x l ih => exact ih (hs.trans (h t x))

section
variable (s : State)

theorem State.raise_firesTo (p b : Nat) : s.FiresTo (s.raise p b) := ⟨⟨rfl, rfl, rfl⟩, s.raise_keepsEvents p b⟩

theorem State.raiseIf_firesTo (c : Bool) (p b : Nat) : s.FiresTo (s.raiseIf c p b) := .ite (s.raise_firesTo p b) (.refl s)

theorem State.updCore_firesTo (c : Nat) (f : Core → Core) : s.FiresTo (s.updCore c f) := ⟨⟨rfl, rfl, rfl⟩, .of_eq rfl⟩

theorem State.disableIn_firesTo (l : Nat) : s.FiresTo (s.disableIn l) := ⟨⟨rfl, rfl, rfl⟩, State.raise_keepsEvents _ _ _⟩

theorem State.disableOut_firesTo (l : Nat) : s.FiresTo (s.disableOut l) := ⟨⟨rfl, rfl, rfl⟩, State.raise_keepsEvents _ _ _⟩

theorem State.disableTile_firesTo (b : Nat) : s.FiresTo (s.disableTile b) := ⟨⟨rfl, rfl, rfl⟩, State.raise_keepsEvents _ _ _⟩

theorem State.rtvTrigger_firesTo (c r frame : Nat) : s.FiresTo (s.rtvTrigger c r frame) :=
  .ite (.refl s) (.ite ((s.updCore_firesTo _ _).trans (State.raiseIf_firesTo _ _ _ _)) (s.updCore_firesTo _ _))

theorem State.triggerAll_firesTo (gid : Nat) (g : Group) (trig frame : Nat) : s.FiresTo (s.triggerAll gid g trig frame) :=
  .foldl _ (fun t k => .foldl _ (fun u r => u.rtvTrigger_firesTo (g.core k) r frame) (.refl t)) (.refl s)

theorem State.requestPreempt_firesTo (c : Nat) : s.FiresTo (s.requestPreempt c) := by
  unfold State.requestPreempt
  split
  · exact s.updCore_firesTo _ _
  · exact .refl s

theorem State.traceRec_firesTo (ty c i n d : Nat) : s.FiresTo (s.traceRec ty c i n d) :=
  .ite (.ite ⟨⟨rfl, rfl, rfl⟩, .of_eq rfl⟩ ⟨⟨rfl, rfl, rfl⟩, State.raise_keepsEvents _ _ _⟩) (.refl s)

end

/-! ### The fire of a frame (R247 to R250) -/

theorem Sparse.get_of_find {α : Type} (d : α) {m : Sparse α} {k : Nat} {e : Nat × α} (h : m.find? (fun x => x.1 == k) = some e) :
    Sparse.get d m k = e.2 := by
  induction m with
  | nil => cases h
  | cons x m ih =>
    obtain ⟨j, v⟩ := x
    rw [List.find?_cons] at h
    by_cases hj : k = j
    · subst hj
      simp only [beq_self_eq_true, Option.some.injEq] at h
      rw [Sparse.get, if_pos rfl, ← h]
    · rw [beq_eq_false_iff_ne.mpr (Ne.symm hj)] at h
      rw [Sparse.get, if_neg hj, ih h]

/-- The calendar entry `e` of a group as the fire leaves it: NEXT has moved on by one period (R248). -/
def CalEntry.moved (e : CalEntry) (g : Group) : CalEntry := { e with next := e.next + dword g.p }

/-- The state once the fire has moved NEXT of the group's calendar entry on. -/
def State.nextMoved (s : State) (g : Group) (e : CalEntry) : State :=
  s.updPack g.pack fun q => { q with entries := q.entries.put g.entry (e.moved g) }

/-- The state once a fire has also been charged to BUDGET and counted (R250). -/
def State.charged (s : State) (g : Group) (e : CalEntry) : State :=
  ((s.nextMoved g e).updPack g.pack fun q =>
    { q with entries := q.entries.put g.entry { e.moved g with budget := e.budget - 1 }, calFires := q.calFires + word g.nmem }).raiseIf
    (e.budget == 1) (pgPack g.pack) 4

/-- The enabled bindings of a group: ingress lanes, egress lanes and tile bindings (R383, R391). -/
def State.insOf (s : State) (gid : Nat) : List Bind := (tab 16 s.inReg).filter fun b => b.en && b.gid == gid
def State.outsOf (s : State) (gid : Nat) : List Bind := (tab 16 s.outReg).filter fun b => b.en && b.gid == gid
def State.tilesOf (s : State) (gid : Nat) : List Nat := (List.range 16).filter fun b => s.tileEn b && s.tileGid b == gid

/-- The state with the group's bindings that fail their check disabled. -/
def State.bindsChecked (s : State) (gid : Nat) (g : Group) : State :=
  ((s.tilesOf gid).filter fun b => !s.tileOk g b).foldl (fun t b => t.disableTile b)
    (((s.outsOf gid).filter fun b => !s.bindOk g b).foldl (fun t b => t.disableOut b.lane)
      (((s.insOf gid).filter fun b => !s.bindOk g b).foldl (fun t b => t.disableIn b.lane) s))

/-- A frame as the fire at FCLK count `now` leaves it, with the bindings that it uses. -/
def Frame.fired (f : Frame) (now : Nat) (ins outs : List Bind) (tiles : List Nat) : Frame :=
  { f with phase := .fired, fire := some now, ins := ins, outs := outs, tiles := tiles }

/-- The state with frame `n` of a group fired with the bindings that are usable. -/
def State.frameFired (s : State) (gid : Nat) (g : Group) (n : Nat) : State :=
  (s.bindsChecked gid g).updFrame gid n fun f => f.fired (s.bindsChecked gid g).fclk ((s.insOf gid).filter (s.bindOk g))
    ((s.outsOf gid).filter (s.bindOk g)) ((s.tilesOf gid).filter (s.tileOk g))

/-- The fire's triggers and preemption requests have gone out, and its trace record. -/
def State.fireSent (s : State) (gid : Nat) (g : Group) (n : Nat) : State :=
  (if g.start then s.triggerAll gid g 1 n
    else g.allCores.foldl (fun t c => t.requestPreempt c) (s.triggerAll gid g 1 n)).traceRec 1 (g.core 0) g.gid n 0

theorem State.bindsChecked_firesTo (s : State) (gid : Nat) (g : Group) : s.FiresTo (s.bindsChecked gid g) := by
  unfold State.bindsChecked
  exact .foldl _ (fun t b => t.disableTile_firesTo b) (.foldl _ (fun t b => t.disableOut_firesTo b.lane)
    (.foldl _ (fun t b => t.disableIn_firesTo b.lane) (.refl s)))

theorem State.fireSent_firesTo (s : State) (gid : Nat) (g : Group) (n : Nat) : s.FiresTo (s.fireSent gid g n) := by
  have hsent := s.triggerAll_firesTo gid g 1 n
  exact (State.FiresTo.ite hsent (.foldl _ (fun t c => t.requestPreempt_firesTo c) hsent)).trans (State.traceRec_firesTo _ _ _ _ _ _)

/-- What the fire of a frame can do, with the group's calendar entry as it stands. -/
theorem State.fireFrame_eq {s : State} {gid : Nat} {g : Group} (n : Nat) {e : CalEntry} (hg : s.group? gid = some g)
    (he : Sparse.get default (s.pack g.pack).entries g.entry = e) : s.fireFrame gid n =
      if g.parked.isSome then (s.nextMoved g e).updFrame gid n fun f => { f with parked := true }
      else if e.budget = 0 ∨ e.suspended = true then (s.nextMoved g e).updFrame gid n fun f => { f with noBudget := true }
      else ((s.charged g e).frameFired gid g n).fireSent gid g n := by
  subst he
  simp only [State.fireFrame, hg, State.fireSent, State.frameFired, State.bindsChecked, State.charged, State.nextMoved, Frame.fired,
    CalEntry.moved, State.insOf, State.outsOf, State.tilesOf]

section
variable {s : State} {gid n : Nat} {g : Group} {e : CalEntry} (hg : s.group? gid = some g)
  (he : Sparse.get default (s.pack g.pack).entries g.entry = e)
include hg he

/-- The frame of a parked group fires no compute (R247). -/
theorem State.fireFrame_of_parked (hp : g.parked ≠ none) :
    s.fireFrame gid n = (s.nextMoved g e).updFrame gid n fun f => { f with parked := true } := by
  rw [State.fireFrame_eq n hg he, if_pos (Option.isSome_iff_ne_none.mpr hp)]

/-- Nor does the frame of a suspended entry, or of one without BUDGET (R250). -/
theorem State.fireFrame_of_starved (hp : g.parked = none) (hb : e.budget = 0 ∨ e.suspended = true) :
    s.fireFrame gid n = (s.nextMoved g e).updFrame gid n fun f => { f with noBudget := true } := by
  rw [State.fireFrame_eq n hg he, if_neg (by simp [hp]), if_pos hb]

theorem State.fireFrame_of_budget (hp : g.parked = none) (hb : ¬ (e.budget = 0 ∨ e.suspended = true)) :
    s.fireFrame gid n = ((s.charged g e).frameFired gid g n).fireSent gid g n := by
  rw [State.fireFrame_eq n hg he, if_neg (by simp [hp]), if_neg hb]

end

theorem State.frame_of_groups {s u : State} (h : u.groups = s.groups) (gid n : Nat) : u.frame? gid n = s.frame? gid n := by
  simp only [State.frame?, State.group?, h]

theorem State.pack_of_packs {s u : State} (h : u.packs = s.packs) (p : Nat) : u.pack p = s.pack p := by
  simp only [State.pack, h]

section
variable {s : State} {gid n : Nat} {g : Group} {e : CalEntry}

@[simp] theorem State.charged_groups : (s.charged g e).groups = s.groups := State.raiseIf_groups _ _ _ _

@[simp] theorem State.charged_fclk : (s.charged g e).fclk = s.fclk := State.raiseIf_fclk _ _ _ _

/-- The charged calendar: the entry has moved on with one less in BUDGET, and the fires of the members are counted. -/
theorem State.charged_pack : (s.charged g e).pack g.pack = { s.pack g.pack with
    entries := ((s.pack g.pack).entries.put g.entry (e.moved g)).put g.entry { e.moved g with budget := e.budget - 1 }
    calFires := (s.pack g.pack).calFires + word g.nmem } := by
  rw [State.charged, State.raiseIf_pack_of, State.updPack_pack, if_pos rfl, State.nextMoved, State.updPack_pack, if_pos rfl]

/-- The last of BUDGET raises the pack's event for it (R250). -/
theorem State.charged_raises (h : e.budget = 1) : ((s.charged g e).hdr (pgPack g.pack)).raw.getLsbD 4 = true := by
  rw [State.charged, h, beq_self_eq_true, State.raiseIf, if_pos rfl, State.raise_hdr_raw, BitVec.getLsbD_or]
  exact Bool.or_eq_true_iff.mpr (.inr rfl)

/-- A fired frame: fired at this edge, in the charged calendar, with no event taken back. -/
theorem State.fireSent_frameFired (hf : ∃ f, s.frame? gid n = some f) :
    ((((s.charged g e).frameFired gid g n).fireSent gid g n).frame? gid n).map (fun x => (x.phase, x.fire))
        = some (.fired, some s.fclk) ∧
      (((s.charged g e).frameFired gid g n).fireSent gid g n).pack g.pack = (s.charged g e).pack g.pack ∧
      (s.charged g e).KeepsEvents (((s.charged g e).frameFired gid g n).fireSent gid g n) := by
  obtain ⟨f, hf⟩ := hf
  obtain ⟨⟨hgroups, hpacks, hfclk⟩, hevents⟩ := (s.charged g e).bindsChecked_firesTo gid g
  obtain ⟨⟨hgroups', hpacks', -⟩, hevents'⟩ := ((s.charged g e).frameFired gid g n).fireSent_firesTo gid g n
  refine ⟨?_, ?_, hevents.trans (State.KeepsEvents.trans (.of_eq (State.updGroup_hdrs _ _ _)) hevents')⟩
  · rw [State.frame_of_groups hgroups', State.frameFired, State.updFrame_frame,
      State.frame_of_groups (hgroups.trans State.charged_groups), hf, hfclk, State.charged_fclk]
    · rfl
    · exact fun _ => rfl
  · rw [State.pack_of_packs hpacks', State.frameFired, State.updFrame, State.updGroup_pack_of, State.pack_of_packs hpacks]

end

/-! ### FRAME_FIRE and PREFIRE_FIRE -/

/-- The calendar of a pack has noted a fire in this FCLK (R249). -/
def State.fireNoted (s : State) (g : Group) : State := s.updPack g.pack fun q => { q with firedAt := some s.fclk }

/-- Outside an incoming migration the calendar fires the frame of an armed group. -/
theorem State.fireOne_of_live {s : State} {w : Waiter} {g : Group} (hinc : s.peer.inc = none) (hg : s.group? w.gid = some g)
    (hlive : g.live = true) : s.fireOne w = (s.fireNoted g).fireFrame w.gid w.n := by
  simp only [State.fireOne, hg, State.migAtFire, State.updPack_peer, hinc, State.updPack_group_of, hlive, if_true]
  rfl

section
variable {s : State} {p : Nat}

theorem exec_frameFire_of_busy (h : (s.pack p).firedAt = some s.fclk) :
    exec (.frameFire p) s = .next s.settle ∧ exec (.prefireFire p) s = .next s.settle := by
  simp [exec, execFrameFire, execPrefireFire, State.calFree, h, done_eq]

theorem exec_frameFire_of_none (h : s.dueToFire p = []) : exec (.frameFire p) s = .next s.settle := by
  simp [exec, execFrameFire, h, firstWaiter, done_eq]

theorem exec_prefireFire_of_due (h : (s.dueToFire p).isEmpty = false) : exec (.prefireFire p) s = .next s.settle := by
  simp only [exec, execPrefireFire, h, Bool.and_false, Bool.false_eq_true, if_false, done_eq]

theorem exec_prefireFire_of_none (h : s.prefireDue p = []) : exec (.prefireFire p) s = .next s.settle := by
  simp [exec, execPrefireFire, h, firstWaiter, done_eq]

variable (hrun : s.running = true) (hpf : s.glb.pf = false) (hfree : (s.pack p).firedAt ≠ some s.fclk)
include hrun hpf hfree

theorem exec_frameFire_of_some {w : Waiter} (hw : firstWaiter (s.dueToFire p) = some w) :
    exec (.frameFire p) s = .next (s.fireOne w).settle := by
  simp only [exec, execFrameFire, hrun, hpf, State.calFree, bne_iff_ne.mpr hfree, Bool.not_false, Bool.and_self, if_true, hw, done_eq]

theorem exec_prefireFire_of_some {w : Waiter} (hdue : s.dueToFire p = []) (hw : firstWaiter (s.prefireDue p) = some w) :
    exec (.prefireFire p) s = .next (s.firePrefire w).settle := by
  simp only [exec, execPrefireFire, hrun, hpf, State.calFree, bne_iff_ne.mpr hfree, hdue, List.isEmpty_nil, Bool.not_false,
    Bool.and_self, if_true, hw, done_eq]

end

/-- Settles O35: the order of waiters, the two firing rows by what waits, and the fire of a frame by its group and entry. -/
theorem framesAreScheduledByDeadline : Obligations.FramesAreScheduledByDeadline := by
  unfold Obligations.FramesAreScheduledByDeadline
  refine ⟨fun ws => ⟨firstWaiter_none_iff ws, fun w => firstWaiter_some⟩, fun p s hrun hpf hinc =>
    ⟨exec_frameFire_of_busy, exec_frameFire_of_none, fun w g hfree hw hg hlive => ⟨?_, ?_⟩, fun w g hfree hdue hw hg hlive => ?_,
      fun _ => exec_prefireFire_of_none, fun gid n g f e hg hf he => ⟨fun hp => ?_, fun hp hb => ?_, fun hp hb hs => ?_⟩⟩⟩
  · rw [exec_frameFire_of_some hrun hpf hfree hw, State.fireOne_of_live hinc hg hlive]
    rfl
  · exact exec_prefireFire_of_due (isEmpty_of_firstWaiter hw)
  · have hg' : (s.updGroup w.gid fun g => { g with frames := g.frames ++ [{ n := w.n }] }).group? w.gid
        = some { g with frames := g.frames ++ [{ n := w.n }] } := by
      rw [State.updGroup_group, if_pos rfl, hg, Option.map_some]
    rw [exec_prefireFire_of_some hrun hpf hfree hdue hw, State.firePrefire,
      State.fireOne_of_live (by rwa [State.updGroup_peer]) hg' hlive, State.fireNoted, State.updGroup_fclk]
  · exact State.fireFrame_of_parked hg (Sparse.get_of_find _ he) hp
  · exact State.fireFrame_of_starved hg (Sparse.get_of_find _ he) hp hb
  · obtain ⟨hframe, hpack, hevents⟩ := State.fireSent_frameFired (g := g) (e := e.2) ⟨f, hf⟩
    dsimp only
    rw [State.fireFrame_of_budget hg (Sparse.get_of_find _ he) hp (by simp [hb, hs]), hpack, State.charged_pack]
    refine ⟨hframe, ?_, rfl, fun h => hevents _ _ (State.charged_raises h)⟩
    rw [Sparse.find_put, if_pos rfl]
    rfl

end Sys2Proof.Machine

/-! Reads that latch, and the instructions of the test access port (R237, R404, R435, R436). -/

namespace Sys2Proof.Machine

/-! ### Register reads -/

/-- The initiator of the reads that have a row of their own: identifier 0. -/
def readAcc : Acc := ⟨false, false, 0, 0⟩

/-- A read of a page that does not act answers zero. -/
theorem State.cfgRead_of_not_acting {s : State} {a : Nat} {acc : Acc} (hrun : s.running = true)
    (h : s.pageActs (pageKind a) = false) : s.cfgRead a acc = (s.answers acc).respond 0 0 := by
  have hacts : (s.answers acc).pageActs (pageKind a) = false := h
  simp only [State.cfgRead, hrun, Bool.not_true, Bool.false_eq_true, if_false, hacts, Bool.not_false, Bool.true_or, if_true]

/-- A running engine answers every read, with DONE or DENIED, and changes no core. -/
theorem State.cfgRead_answers {s : State} (a : Nat) (acc : Acc) (hrun : s.running = true) :
    (s.cfgRead a acc).cfgResp.1 < 2 ∧ (s.cfgRead a acc).cores = s.cores := by
  unfold State.cfgRead
  simp only [hrun, Bool.not_true, Bool.false_eq_true, if_false]
  split
  · exact ⟨Nat.zero_lt_two, rfl⟩
  · split
    · split
      case h_1 | h_2 | h_3 => split_ifs <;> exact ⟨Nat.zero_lt_two, rfl⟩
      case h_4 => exact ⟨Nat.zero_lt_two, rfl⟩
    · exact ⟨Nat.one_lt_two, State.deny_cores _ _ _ _⟩

section
variable {s : State} (hrun : s.running = true)
include hrun

/-- VAL_LO answers the low word and latches the high one (R237). -/
theorem exec_valLoRead_of_early {t : Nat} (ht : t < 8) (hearly : s.early = true) :
    exec (.valLoRead t) s = .next ((s.answers readAcc).valLo t).settle := by
  simp only [exec, execValLoRead, hrun, hearly, ht, decide_true, Bool.and_self, Bool.not_true, Bool.false_eq_true, if_false, if_true,
    done_eq, readAcc]

/-- TIME_LO answers the low word of the FCLK count and latches the page (R436). -/
theorem exec_timeLoRead_of_early (hearly : s.early = true) :
    exec .timeLoRead s = .next (s.answers readAcc).timeRead.settle := by
  have hacts : (s.answers readAcc).pageActs .tele = true := hearly
  have hkind : pageKind 0x48040 = .tele := by decide
  have hread : readAllowed 0x48040 readAcc = true := by decide
  simp only [exec, execTimeLoRead, State.cfgRead, hrun, hkind]
  rw [show (⟨false, false, 0, 0⟩ : Acc) = readAcc from rfl, hacts, hread]
  rfl

theorem exec_timeLoRead_of_not_early (hearly : s.early = false) :
    exec .timeLoRead s = .next ((s.answers readAcc).respond 0 0).settle :=
  congrArg (fun t : State => Host.Outcome.next t.settle) (State.cfgRead_of_not_acting (acc := readAcc) hrun
    (show s.pageActs (pageKind 0x48040) = false from hearly))

/-- CAL_ENT0 of a powered pack latches the selected entry (R435). -/
theorem exec_calEnt0Read_of_early {p : Nat} (hp : p < 8) (hearly : s.early = true) (hon : s.packOn p = true) :
    exec (.calEnt0Read p) s = .next ((s.answers readAcc).calRead p).settle := by
  have hkind : pageKind (packAddr p 0xA0) = .pack p := by
    rw [packAddr, if_pos hp]
    unfold pageKind
    rw [show (0x10000 + 0x1000 * p + 0xA0) / 0x1000 = 16 + p by omega]
    simp only [show ¬ 16 + p < 8 by omega, show ¬ 16 + p < 16 by omega, show 16 + p < 24 by omega, if_true, if_false,
      Nat.add_sub_cancel_left]
  have hoff : packAddr p 0xA0 % 0x1000 = 0xA0 := by
    rw [packAddr, if_pos hp]
    omega
  have hread : readAllowed (packAddr p 0xA0) readAcc = true := by
    rw [readAllowed, hkind]
  have hacts : (s.answers readAcc).pageActs (.pack p) = true := Bool.and_eq_true_iff.mpr ⟨hearly, hon⟩
  have hreg : pageReg (.pack p) 0xA0 = true := by
    simp [pageReg]
  simp only [exec, execCalEnt0Read, State.cfgRead, hrun, hkind, hoff]
  rw [show (⟨false, false, 0, 0⟩ : Acc) = readAcc from rfl, hacts, hread, hreg]
  rfl

end

/-- The latched copy of a calendar entry that is valid, and of one that is not (R435). -/
theorem State.calRead_of_valid {s : State} {p : Nat} {e : Nat × CalEntry}
    (he : (s.pack p).entries.find? (fun x => x.1 == (s.pack p).calSel) = some e) : s.calRead p =
      (s.updPack p fun x => { x with
        calLatch := tab 8 fun w => word (fieldAt (s.calBytes e.2) (4 * w) 4)
        calXstat := word (b2n ((s.group? e.2.gid).any (·.shadow)) + 2 * b2n e.2.suspended) }).respond 0
        (word (fieldAt (s.calBytes e.2) 0 4)) := by
  simp only [State.calRead, he]
  rfl

theorem State.calRead_of_invalid {s : State} {p : Nat}
    (he : (s.pack p).entries.find? (fun x => x.1 == (s.pack p).calSel) = none) : s.calRead p =
      (s.updPack p fun x => { x with calLatch := List.replicate 8 0, calXstat := 0 }).respond 0 0 := by
  simp only [State.calRead, he]
  rfl

/-! ### CFGACC (R404) -/

/-- A word, a response code of one bit and DONE are read back from the data register of CFGACC. -/
theorem capture_fields {data code : Nat} (hd : data < 2 ^ 32) (hc : code < 2) :
    (dword (data + code * 2 ^ 32 + 2 ^ 34)).toNat / 2 ^ 34 % 2 = 1 ∧ (dword (data + code * 2 ^ 32 + 2 ^ 34)).toNat % 2 ^ 32 = data := by
  rw [dword, BitVec.toNat_ofNat, Nat.mod_eq_of_lt (by omega)]
  omega

theorem exec_cfgacc_of_read {s : State} (a : Nat) (v : Word) (hrun : s.running = true) :
    exec (.cfgacc a v false) s = .next ((s.cfgRead (regAddr a) s.tapAcc).tapSelect 0x10
      (dword ((s.cfgRead (regAddr a) s.tapAcc).cfgResp.2.toNat + (s.cfgRead (regAddr a) s.tapAcc).cfgResp.1 * 2 ^ 32
        + 2 ^ 34))).settle := by
  simp only [exec, execCfgacc, State.tapAccess, hrun, if_true, Bool.false_eq_true, if_false, done_eq]

theorem exec_cfgacc_of_write {s : State} (a : Nat) (v : Word) (hrun : s.running = true) :
    exec (.cfgacc a v true) s = .next ((s.cfgPut a v s.tapAcc).tapSelect 0x10
      (dword (0 + (s.cfgPut a v s.tapAcc).cfgResp.1 * 2 ^ 32 + 2 ^ 34))).settle := by
  simp only [exec, execCfgacc, State.tapAccess, hrun, if_true, done_eq]

/-- Settles O10: each latching read by the page that it reads, each instruction of the port by what it captures. -/
theorem readsThatLatchAndTheTestPort : Obligations.ReadsThatLatchAndTheTestPort := by
  unfold Obligations.ReadsThatLatchAndTheTestPort
  refine ⟨fun s hrun => ⟨fun t ht hearly => exec_valLoRead_of_early hrun ht hearly, fun hearly => ?_,
      fun p hp hearly hon => ⟨fun e he => ?_, fun hnone => ?_⟩, exec_timeLoRead_of_not_early hrun⟩,
    fun s => ⟨rfl, ⟨_, rfl⟩, ⟨_, rfl⟩, fun code hcode => ?_, fun v hrun => ?_, fun a v hrun => ?_, fun a v hrun => ?_⟩⟩
  · have hlow : loWord s.fclk = word (s.fclk % 2 ^ 32) := BitVec.eq_of_toNat_eq (by simp [loWord, word])
    rw [exec_timeLoRead_of_early hrun hearly, ← hlow]
    rfl
  · rw [exec_calEnt0Read_of_early hrun hp hearly hon, State.calRead_of_valid (s := s.answers readAcc) he]
    rfl
  · rw [exec_calEnt0Read_of_early hrun hp hearly hon, State.calRead_of_invalid (s := s.answers readAcc) hnone]
    rfl
  · have hnot : tapCodes.contains code = false := by simpa [tapCodes] using hcode
    simp only [exec, execBypass, hnot, Bool.false_eq_true, if_false, done_eq, State.tapSelect]
  · simp only [exec, execTracectl, hrun, if_true, done_eq]
    rfl
  · refine ⟨_, exec_cfgacc_of_write a v hrun, (s.cfgPut a v s.tapAcc).settle, rfl, ?_⟩
    simp only [State.settle_cfgResp, State.settle_hdrs, State.settle_glb, State.settle_cores, State.settle_tap, Nat.zero_add]
    exact ⟨rfl, rfl, rfl, rfl, rfl⟩
  · obtain ⟨hcode, hcores⟩ := State.cfgRead_answers (regAddr a) s.tapAcc hrun
    obtain ⟨hdone, hdata⟩ := capture_fields (s.cfgRead (regAddr a) s.tapAcc).cfgResp.2.isLt hcode
    refine ⟨_, exec_cfgacc_of_read a v hrun, ?_⟩
    simp only [State.settle_cfgResp, State.settle_cores, State.settle_tap]
    exact ⟨rfl, hdone, hdata, hcores⟩

end Sys2Proof.Machine

/-! Protected registers of a time base, strobes of network time, and mark requests (R231, R233, R235, R237, R243, R265). -/

namespace Sys2Proof.Machine

/-! ### Protected registers (R235, R237) -/

/-- A write of CTRL names a source that is reserved (R231). -/
def namesReservedSrc (reg : TbReg) (v : Word) : Bool :=
  match reg with
  | .ctrl => decide (4 < wbits v 3 1)
  | _ => false

@[simp] theorem State.raiseIf_tbBound (s : State) (b : Bool) (p i t : Nat) : (s.raiseIf b p i).tbBound t = s.tbBound t := by
  rw [State.tbBound, State.raiseIf_groups]
  rfl

/-- The checks of a write of a protected register, in their order. -/
theorem State.tbWrite_eq (s : State) (t : Nat) (reg : TbReg) (v : Word) : s.tbWrite t reg v =
    if s.tbBound t ≠ 0 then (s.raiseIf (namesReservedSrc reg v) (pgTbase t) 3).updTb t fun x => { x with refused := true }
    else if namesReservedSrc reg v then s.raiseIf (namesReservedSrc reg v) (pgTbase t) 3
    else if (s.tb t).refuses reg v then s.updTb t fun x => { x with refused := true }
    else s.updTb t fun x => x.written s.fclk reg v := by
  have h (u : State) (hu : u = s.raiseIf (namesReservedSrc reg v) (pgTbase t) 3) : s.tbWrite t reg v =
      if u.tbBound t ≠ 0 then u.updTb t fun x => { x with refused := true }
      else if namesReservedSrc reg v then u
      else if (s.tb t).refuses reg v then u.updTb t fun x => { x with refused := true }
      else u.updTb t fun x => x.written u.fclk reg v := by
    subst hu
    rfl
  rw [h _ rfl, State.raiseIf_tbBound]
  cases namesReservedSrc reg v <;> rfl

theorem exec_tbaseCtrlWrite_of_grants {t : Nat} {reg : TbReg} {acc : Acc} {s : State} (v : Word)
    (hg : s.grants (tbAddr t reg) acc = true) :
    exec (.tbaseCtrlWrite t reg v acc) s = .next ((s.answered acc).tbWrite t reg v).settle :=
  exec_of_cfgWrite (f := fun u => u.tbWrite t reg v) rfl hg rfl

/-- Settles O18: a granted write is the write of the protected register, in the order of its checks. -/
theorem timeBaseRegistersAreProtected : Obligations.TimeBaseRegistersAreProtected := by
  unfold Obligations.TimeBaseRegistersAreProtected
  intro t reg v acc s hg
  rw [exec_tbaseCtrlWrite_of_grants v hg, State.tbWrite_eq]
  refine ⟨fun (hb : (s.answered acc).tbBound t ≠ 0) => ?_,
    fun (hb : (s.answered acc).tbBound t = 0) (hbad : namesReservedSrc reg v = true) => ?_,
    fun (hb : (s.answered acc).tbBound t = 0) (hbad : namesReservedSrc reg v = false)
      (hno : ((s.answered acc).tb t).refuses reg v = true) => ?_,
    fun (hb : (s.answered acc).tbBound t = 0) (hbad : namesReservedSrc reg v = false)
      (hno : ((s.answered acc).tb t).refuses reg v = false) => ?_⟩
  · rw [if_pos hb]
    rfl
  · rw [if_neg (not_not.mpr hb), if_pos hbad]
    rfl
  · rw [if_neg (not_not.mpr hb), if_neg (Bool.not_eq_true _ ▸ hbad), if_pos hno]
  · rw [if_neg (not_not.mpr hb), if_neg (Bool.not_eq_true _ ▸ hbad), if_neg (Bool.not_eq_true _ ▸ hno)]
    cases reg <;> rfl

/-! ### Strobes of network time (R231, R233, R235) -/

/-- A time base on network time after a strobe of value `w`: the first one after an enable is taken, a later one only upward. -/
def TBase.struck (x : TBase) (now : Nat) (w : DWord) : TBase :=
  if x.holds ∨ x.value < w then { x with value := w, sampled := true, holds := false, lastAdv := now, stalled := false }
  else { x with sampled := true, holds := false }

/-- The event that a strobe of value `w` raises: TB_JUMP (2) far above the value, TB_BACK (1) below it. -/
def TBase.strikes (x : TBase) (w : DWord) (b : Nat) : Prop :=
  x.holds = false ∧ ((b = 2 ∧ x.value < w ∧ x.jumpLim.toNat < (w - x.value).toNat) ∨ (b = 1 ∧ w < x.value))

theorem State.tbAdvance_keepsEvents (s : State) (t : Nat) (v : DWord) : s.KeepsEvents (s.tbAdvance t v) := by
  refine State.KeepsEvents.trans ?_ (State.passCloses_closesTo _ t).2
  exact .of_eq rfl

/-- A raised event is raised still after events that are kept. -/
theorem State.KeepsEvents.raised {s u : State} {p b : Nat} (hb : b < 32) (h : (s.raiseIf true p b).KeepsEvents u) :
    (u.hdr p).raw.getLsbD b = true := by
  refine h p b ?_
  rw [State.raiseIf, if_pos rfl, State.raise_hdr_raw, BitVec.getLsbD_or, word_two_pow_getLsbD hb, Bool.or_true]

section
variable (s : State) (t : Nat) (w : DWord)

/-- One strobed time base: what it holds then, what no strobe touches, and the event that it raises. -/
theorem State.netSample_spec : (s.netSample t w).fclk = s.fclk ∧ s.KeepsEvents (s.netSample t w) ∧
    (∀ i, (s.netSample t w).tb i = if i = t then (s.tb t).struck s.fclk w else s.tb i) ∧
    ∀ b, (s.tb t).strikes w b → ((s.netSample t w).hdr (pgTbase t)).raw.getLsbD b = true := by
  have htaken (u : State) (hu : u = s.updTb t fun y => { y with sampled := true, holds := false }) (c : Bool) (b i : Nat)
      (h : (s.tb t).holds = true ∨ (s.tb t).value < w) :
      ((u.raiseIf c (pgTbase t) b).tbAdvance t w).tb i = if i = t then (s.tb t).struck s.fclk w else s.tb i := by
    rw [State.tbAdvance_tb, State.raiseIf_fclk, State.raiseIf_tb_of, State.raiseIf_tb_of, TBase.struck, if_pos h, hu]
    by_cases hi : i = t
    · simp [hi, TBase.advanced]
    · simp [hi]
  have hmarked := State.KeepsEvents.of_eq (s := s) (u := s.updTb t fun y => { y with sampled := true, holds := false }) rfl
  unfold State.netSample
  dsimp only
  by_cases hh : (s.tb t).holds = true
  · rw [if_pos hh]
    exact ⟨State.tbAdvance_fclk _ _ _, hmarked.trans (State.tbAdvance_keepsEvents _ _ _), fun i => htaken _ rfl false 0 i (.inl hh),
      fun b hb => absurd hh (by rw [hb.1]; decide)⟩
  rw [if_neg hh]
  by_cases hv : (s.tb t).value < w
  · rw [if_pos hv]
    refine ⟨(State.tbAdvance_fclk _ _ _).trans (State.raiseIf_fclk _ _ _ _),
      hmarked.trans ((State.raiseIf_keepsEvents _ _ _ _).trans (State.tbAdvance_keepsEvents _ _ _)),
      fun i => htaken _ rfl _ _ i (.inr hv), fun b hb => ?_⟩
    obtain ⟨-, ⟨rfl, -, hjump⟩ | ⟨-, hback⟩⟩ := hb
    · rw [decide_eq_true hjump]
      exact (State.tbAdvance_keepsEvents _ t w).raised (by decide)
    · exact absurd hv (BitVec.not_lt.mpr (BitVec.le_of_lt hback))
  · rw [if_neg hv]
    refine ⟨State.raiseIf_fclk _ _ _ _, hmarked.trans (State.raiseIf_keepsEvents _ _ _ _), fun i => ?_, fun b hb => ?_⟩
    · rw [State.raiseIf_tb_of, State.updTb_tb, TBase.struck, if_neg (not_or.mpr ⟨hh, hv⟩)]
    · obtain ⟨-, ⟨-, hup, -⟩ | ⟨rfl, hback⟩⟩ := hb
      · exact absurd hup hv
      · rw [decide_eq_true hback]
        exact State.KeepsEvents.raised (by decide) (.of_eq rfl)

/-- Does network time drive a time base? -/
def TBase.onNet (x : TBase) : Bool := x.en && x.src == 3

/-- A strobe reaches one time base, if network time drives it. -/
def State.strobeOne : State := if (s.tb t).onNet then s.netSample t w else s

theorem State.strobeOne_spec : (s.strobeOne t w).fclk = s.fclk ∧ s.KeepsEvents (s.strobeOne t w) ∧
    (∀ i, (s.strobeOne t w).tb i = if i = t ∧ (s.tb i).onNet = true then (s.tb i).struck s.fclk w else s.tb i) ∧
    ∀ b, (s.tb t).onNet = true → (s.tb t).strikes w b → ((s.strobeOne t w).hdr (pgTbase t)).raw.getLsbD b = true := by
  obtain ⟨hfclk, hkeeps, htb, hraised⟩ := s.netSample_spec t w
  unfold State.strobeOne
  by_cases hon : (s.tb t).onNet = true
  · rw [if_pos hon]
    refine ⟨hfclk, hkeeps, fun i => ?_, fun b _ => hraised b⟩
    rw [htb]
    by_cases hi : i = t
    · rw [if_pos hi, if_pos ⟨hi, hi ▸ hon⟩, hi]
    · rw [if_neg hi, if_neg (hi ·.1)]
  · rw [if_neg hon]
    refine ⟨rfl, .of_eq rfl, fun i => (if_neg ?_).symm, fun b h => absurd h hon⟩
    rintro ⟨rfl, h⟩
    exact hon h

end

/-- A strobe reaches each of distinct time bases once. -/
theorem State.foldl_strobeOne_spec (w : DWord) {l : List Nat} (hl : l.Nodup) (s : State) :
    s.KeepsEvents (l.foldl (·.strobeOne · w) s) ∧
    (∀ i, (l.foldl (·.strobeOne · w) s).tb i = if i ∈ l ∧ (s.tb i).onNet = true then (s.tb i).struck s.fclk w else s.tb i) ∧
    ∀ i ∈ l, ∀ b, (s.tb i).onNet = true → (s.tb i).strikes w b →
      ((l.foldl (·.strobeOne · w) s).hdr (pgTbase i)).raw.getLsbD b = true := by
  induction l generalizing s with
  | nil => exact ⟨.of_eq rfl, fun i => by simp, fun i hi => absurd hi List.not_mem_nil⟩
  | cons t l ih =>
    obtain ⟨ht, hl⟩ := List.nodup_cons.mp hl
    obtain ⟨hfclk, hkeeps, htb, hraised⟩ := s.strobeOne_spec t w
    obtain ⟨hkeeps', htb', hraised'⟩ := ih hl (s.strobeOne t w)
    have hrest (i : Nat) (hi : i ≠ t) : (s.strobeOne t w).tb i = s.tb i := by rw [htb, if_neg (hi ·.1)]
    rw [List.foldl_cons]
    refine ⟨hkeeps.trans hkeeps', fun i => ?_, fun i hi b hon hb => ?_⟩
    · by_cases hi : i = t
      · subst hi
        rw [htb', if_neg (ht ·.1), htb]
        simp
      · rw [htb', hrest i hi, hfclk]
        simp [hi]
    · rcases List.mem_cons.mp hi with rfl | hi
      · exact hkeeps' _ _ (hraised b hon hb)
      · have hne : i ≠ t := fun h => ht (h ▸ hi)
        exact hraised' i hi b (by rwa [hrest i hne]) (by rwa [hrest i hne])

theorem exec_tbNetStrobe_of_running {s : State} (w : DWord) (hrun : s.running = true) :
    exec (.tbNetStrobe w) s = .next ((List.range 8).foldl (·.strobeOne · w) s).settle := by
  simp only [exec, execTbNetStrobe, hrun, if_true, done_eq]
  rfl

/-! ### Mark requests (R243, R265) -/

/-- The group and the member that hold a stream. -/
def State.holderOf (s : State) (stream : Nat) : Option (Nat × Group × Nat) :=
  s.groups.findSome? fun e => (e.2.members.findIdx? fun x => x.stream == stream).map fun j => (e.1, e.2, j)

/-- The state with the status of the mark request last made. -/
def State.markStatus (s : State) (v : Word) : State := { s with sd := { s.sd with markStat := v } }

section
variable {s : State} {stream : Nat} {m : DWord}

theorem State.markRequest_of_unheld (h : s.holderOf stream = none) : s.markRequest stream m = s.markStatus 4 := by
  unfold State.markRequest
  rw [show s.groups.findSome? _ = none from h]
  rfl

variable {gid j : Nat} {g : Group} (h : s.holderOf stream = some (gid, g, j))
include h

theorem State.markRequest_of_full (hn : 4 ≤ (g.markReqs.filter fun x => x.1 == j).length) :
    s.markRequest stream m = s.markStatus 2 := by
  unfold State.markRequest
  rw [show s.groups.findSome? _ = some (gid, g, j) from h]
  exact if_pos hn

variable (hn : (g.markReqs.filter fun x => x.1 == j).length < 4)
include hn

/-- A request that is not late is kept as it was made. -/
theorem State.markRequest_of_in_time (ht : ∀ n, g.newestFired = some n → g.memberClose j n < m.toNat) :
    s.markRequest stream m = (s.markStatus 0).setGroup gid { g with markReqs := g.markReqs ++ [(j, m)] } := by
  unfold State.markRequest
  rw [show s.groups.findSome? _ = some (gid, g, j) from h]
  refine (if_neg (Nat.not_le.mpr hn)).trans ?_
  cases hf : g.newestFired with
  | none => rfl
  | some n => simp only [if_neg (Nat.not_le.mpr (ht n hf)), Option.isSome_none, Bool.false_eq_true, if_false, Option.getD_none]; rfl

/-- A late request is counted and moved past the newest fired close of its member. -/
theorem State.markRequest_of_late {n : Nat} (hf : g.newestFired = some n) (ht : m.toNat ≤ g.memberClose j n) :
    s.markRequest stream m = ((s.markStatus 0).updLeash stream fun l => { l with markLate := min 65535 (l.markLate + 1) }).setGroup gid
      { g with markReqs := g.markReqs ++ [(j, dword (g.memberClose j n + 1))] } := by
  unfold State.markRequest
  rw [show s.groups.findSome? _ = some (gid, g, j) from h]
  refine (if_neg (Nat.not_le.mpr hn)).trans ?_
  simp only [hf, if_pos ht, Option.isSome_some, if_true, Option.getD_some]
  rfl

end

theorem exec_markTHi_of_grants {v : Word} {acc : Acc} {s : State} (hg : s.grants 0x1048 acc = true) : exec (.markTHi v acc) s =
    .next ((s.answered acc).markRequest s.sd.markStream (dword (s.sd.markLo.toNat + v.toNat * 2 ^ 32))).settle :=
  exec_of_cfgWrite (f := fun t => t.markRequest t.sd.markStream (dword (t.sd.markLo.toNat + v.toNat * 2 ^ 32))) rfl hg rfl

/-- Settles O20: a strobe time base by time base, a mark request by who holds its stream and when its member last fired. -/
theorem networkTimeAndMarks : Obligations.NetworkTimeAndMarks := by
  unfold Obligations.NetworkTimeAndMarks
  refine ⟨fun w s hrun => ?_, fun v acc s hg => ?_⟩
  · obtain ⟨-, htb, hraised⟩ := State.foldl_strobeOne_spec w List.nodup_range (l := List.range 8) s
    refine ⟨_, exec_tbNetStrobe_of_running w hrun, fun t ht => ?_, fun t ht hen hsrc => ?_⟩
    · rw [State.settle_tb_of, htb, if_neg]
      rintro ⟨hmem, hon⟩
      simp only [TBase.onNet, Bool.and_eq_true, beq_iff_eq] at hon
      rcases ht with h | h | h
      · exact absurd (List.mem_range.mp hmem) (Nat.not_lt.mpr h)
      · exact Bool.noConfusion (h.symm.trans hon.1)
      · exact h hon.2
    · have hmem : t ∈ List.range 8 := List.mem_range.mpr ht
      have hon : (s.tb t).onNet = true := by simp [TBase.onNet, hen, hsrc]
      have hstruck : (((List.range 8).foldl (·.strobeOne · w) s).settle).tb t = (s.tb t).struck s.fclk w := by
        rw [State.settle_tb_of, htb, if_pos ⟨hmem, hon⟩]
      have hkeep (hh : (s.tb t).holds = false) : ({ s.tb t with sampled := true, holds := false } : TBase)
          = { s.tb t with sampled := true } := by rw [← hh]
      rw [hstruck]
      simp only [State.settle_hdr_of]
      refine ⟨fun hh => if_pos (.inl hh), fun hh hlt => ⟨if_pos (.inr hlt), fun hj => ?_⟩, fun hh hle => ⟨?_, fun hlt => ?_⟩⟩
      · exact hraised t hmem 2 hon ⟨hh, .inl ⟨rfl, hlt, hj⟩⟩
      · rw [TBase.struck, if_neg (by simp [hh, BitVec.not_lt.mpr hle]), hkeep hh]
      · exact hraised t hmem 1 hon ⟨hh, .inr ⟨rfl, hlt⟩⟩
  · rw [exec_markTHi_of_grants hg]
    refine ⟨fun hwho => ?_, fun gid g j hwho hn => ?_, fun gid g j hwho hn ht => ?_, fun gid g j n hwho hn hf ht => ?_⟩
    · rw [State.markRequest_of_unheld (s := s.answered acc) hwho]
      rfl
    · rw [State.markRequest_of_full (s := s.answered acc) hwho hn]
      rfl
    · rw [State.markRequest_of_in_time (s := s.answered acc) hwho hn ht]
      rfl
    · rw [State.markRequest_of_late (s := s.answered acc) hwho hn hf ht]
      rfl

end Sys2Proof.Machine

/-! The start of a fired frame: marks, counters, and every slot's sequencer at its entry (R243, R249, R269). -/

namespace Sys2Proof.Machine

/-! ### Rewriting some cores -/

/-- `u` differs from `s` at most in the cores that `cs` names. -/
def State.CoresOf (cs : List Nat) (s u : State) : Prop := (∃ k, u = { s with cores := k }) ∧ ∀ d, d ∉ cs → u.core d = s.core d

section
variable {cs : List Nat} {s t u : State}

theorem State.CoresOf.refl (cs : List Nat) (s : State) : State.CoresOf cs s s := ⟨⟨s.cores, rfl⟩, fun _ _ => rfl⟩

theorem State.CoresOf.trans (h : State.CoresOf cs s t) (h' : State.CoresOf cs t u) : State.CoresOf cs s u := by
  obtain ⟨⟨_, rfl⟩, hd⟩ := h
  obtain ⟨⟨k, rfl⟩, hd'⟩ := h'
  exact ⟨⟨k, rfl⟩, fun d h => (hd' d h).trans (hd d h)⟩

theorem State.CoresOf.groups (h : State.CoresOf cs s u) : u.groups = s.groups := by
  obtain ⟨⟨_, rfl⟩, -⟩ := h
  rfl

theorem State.CoresOf.fclk (h : State.CoresOf cs s u) : u.fclk = s.fclk := by
  obtain ⟨⟨_, rfl⟩, -⟩ := h
  rfl

theorem State.CoresOf.updCore {c : Nat} (hc : c ∈ cs) (s : State) (f : Core → Core) : State.CoresOf cs s (s.updCore c f) :=
  ⟨⟨_, rfl⟩, fun d hd => by rw [State.updCore_core, if_neg (ne_of_mem_of_not_mem hc hd).symm]⟩

theorem State.CoresOf.foldl {α : Type} {f : State → α → State} {l : List α} (h : ∀ t, ∀ x ∈ l, State.CoresOf cs t (f t x))
    (hs : State.CoresOf cs s t) : State.CoresOf cs s (l.foldl f t) := by
  induction l generalizing t with
  | nil => exact hs
  | cons x l ih => exact ih (fun t y hy => h t y (.tail _ hy)) (hs.trans (h t x List.mem_cons_self))

end

theorem Group.core_mem_allCores {g : Group} {k : Nat} (hk : k < g.nslot) : g.core k ∈ g.allCores :=
  List.mem_map_of_mem (List.mem_range.mpr hk)

/-! ### Marks (R137, R243) -/

/-- The mark buffers of every slot of a group written for frame `n`. -/
def State.marked (s : State) (g : Group) (n : Nat) : State :=
  (List.range g.nslot).foldl (fun t k => t.writeMarks g (g.marksOf n) k) s

theorem State.setMark_coresOf (s : State) {g : Group} {k : Nat} (j t : Nat) (hk : g.core k ∈ g.allCores) :
    State.CoresOf g.allCores s (s.setMark g k j t) := by
  unfold State.setMark
  dsimp only
  split_ifs
  · exact .refl _ s
  · exact .updCore hk s _

theorem State.writeMarks_coresOf (s : State) {g : Group} (ms : List (Nat × Nat)) {k : Nat} (hk : g.core k ∈ g.allCores) :
    State.CoresOf g.allCores s (s.writeMarks g ms k) := by
  unfold State.writeMarks
  dsimp only
  split_ifs
  · exact .refl _ s
  · exact .foldl (fun t x _ => t.setMark_coresOf x.1 x.2 hk) (.updCore hk s _)

/-- Writing the marks of a frame changes the cores of its group alone. -/
theorem State.marked_coresOf (s : State) (g : Group) (n : Nat) : State.CoresOf g.allCores s (s.marked g n) :=
  .foldl (fun t _ hk => t.writeMarks_coresOf _ (Group.core_mem_allCores (List.mem_range.mp hk))) (.refl _ s)

/-! ### The start of a frame -/

/-- What the start of frame `n` does to the core of slot `k`. -/
def Group.beginSlot (g : Group) (gid n k : Nat) (c : Core) : Core :=
  c.begin (.frame gid n k) (g.progs.getD k 0) k g.n (slotGens g.gens k)

theorem State.beginFrame_eq (s : State) (gid : Nat) (g : Group) (n : Nat) : s.beginFrame gid g n =
    (List.range g.nslot).foldl (fun t k => t.updCore (g.core k) (g.beginSlot gid n k)) s := rfl

theorem State.beginFrame_coresOf (s : State) (gid : Nat) (g : Group) (n : Nat) :
    State.CoresOf g.allCores s (s.beginFrame gid g n) :=
  .foldl (fun t _ hk => .updCore (Group.core_mem_allCores (List.mem_range.mp hk)) t _) (.refl _ s)

/-- A slot whose core no other slot has begins there, on the core as it was. -/
theorem State.beginFrame_core_of_slot (s : State) (gid : Nat) {g : Group} (n : Nat) {k : Nat} (hk : k < g.nslot)
    (hone : ∀ j, j < g.nslot → g.core j = g.core k → j = k) :
    (s.beginFrame gid g n).core (g.core k) = g.beginSlot gid n k (s.core (g.core k)) := by
  have hk' : k < (List.range g.nslot).length := by rwa [List.length_range]
  have h := State.foldl_updCore_core_of_unique g.core (g.beginSlot gid n) s hk' fun j hj heq => by
    rw [List.length_range] at hj
    rw [List.getElem_range, List.getElem_range] at heq
    exact hone j hj heq
  simpa only [State.beginFrame_eq, List.getElem_range] using h

/-- A frame that runs from FCLK count `now` on, as a rewriting of the fired one. -/
def Frame.RunsFrom (now : Nat) (u : Frame → Frame) : Prop := ∀ x, (u x).n = x.n ∧ (u x).phase = .running ∧ (u x).start = some now

/-- A start writes the marks, takes them from the group, makes the frame run, and begins its slots. -/
theorem State.startFrame_eq {s : State} {gid n : Nat} {g : Group} {f : Frame} (hg : s.group? gid = some g)
    (hf : s.frame? gid n = some f) : ∃ taken u, (∀ x : Group, (taken x).frames = x.frames) ∧ Frame.RunsFrom s.fclk u ∧
      s.startFrame gid n = (((s.marked g n).updGroup gid taken).updFrame gid n u).beginFrame gid g n := by
  simp only [State.startFrame, hg, hf]
  refine ⟨_, _, fun x => ?_, fun x => ?_, rfl⟩
  · rfl
  · refine ⟨rfl, rfl, congrArg some ((State.updGroup_fclk _ _ _).trans ?_)⟩
    exact (s.marked_coresOf g n).fclk

theorem State.updGroup_frame_of_frames (s : State) (gid n : Nat) {u : Group → Group} (h : ∀ x, (u x).frames = x.frames) :
    (s.updGroup gid u).frame? gid n = s.frame? gid n := by
  simp only [State.frame?, State.updGroup_group, if_true]
  cases s.group? gid with
  | none => rfl
  | some g => simp only [Option.map_some, Option.bind_some, Group.frame?, h]

section
variable {s : State} {gid n : Nat} {g : Group} {f : Frame} (hg : s.group? gid = some g) (hf : s.frame? gid n = some f)
include hg hf

/-- The started frame runs, from this edge on. -/
theorem State.startFrame_frame :
    ((s.startFrame gid n).frame? gid n).map (fun x => (x.phase, x.start)) = some (.running, some s.fclk) := by
  obtain ⟨taken, u, htaken, hu, h⟩ := State.startFrame_eq hg hf
  obtain ⟨-, hphase, hstart⟩ := hu f
  rw [h, State.frame_of_groups (State.beginFrame_coresOf _ gid g n).groups, State.updFrame_frame _ _ _ _ fun x => (hu x).1,
    State.updGroup_frame_of_frames _ _ _ htaken, State.frame_of_groups (s.marked_coresOf g n).groups, hf, Option.map_some, Option.map_some,
    hphase, hstart]

/-- Cores of other groups stay as they were. -/
theorem State.startFrame_core_of_not_mem {c : Nat} (hc : c ∉ g.allCores) : (s.startFrame gid n).core c = s.core c := by
  obtain ⟨taken, u, -, -, h⟩ := State.startFrame_eq hg hf
  rw [h, (State.beginFrame_coresOf _ gid g n).2 c hc, State.updFrame, State.updGroup_core_of, State.updGroup_core_of,
    (s.marked_coresOf g n).2 c hc]

/-- The core of a slot runs it from the entry of its program. -/
theorem State.startFrame_core_of_slot {k : Nat} (hk : k < g.nslot) (hone : ∀ j, j < g.nslot → g.core j = g.core k → j = k) :
    ∃ c, (s.startFrame gid n).core (g.core k) = g.beginSlot gid n k c := by
  obtain ⟨taken, u, -, -, h⟩ := State.startFrame_eq hg hf
  exact ⟨_, by rw [h, State.beginFrame_core_of_slot _ gid n hk hone]⟩

end

section
variable {s : State} {p : Nat} (hrun : s.running = true)
include hrun

theorem exec_frameStart_of_none (h : s.startable p = []) : exec (.frameStart p) s = .next s.settle := by
  simp only [exec, execFrameStart, hrun, if_true, h, firstWaiter, List.foldl_nil, done_eq]

theorem exec_frameStart_of_some {w : Waiter} (hw : firstWaiter (s.startable p) = some w) :
    exec (.frameStart p) s = .next (s.startFrame w.gid w.n).settle := by
  simp only [exec, execFrameStart, hrun, if_true, hw, done_eq]

end

/-- Settles O36: FRAME_START starts the waiter that goes first; its frame, its slots and the other cores are those of the start. -/
theorem firedFramesStartOnTheirCores : Obligations.FiredFramesStartOnTheirCores := by
  unfold Obligations.FiredFramesStartOnTheirCores
  refine fun p s hrun => ⟨exec_frameStart_of_none hrun, fun w g f hw hg hf =>
    ⟨_, exec_frameStart_of_some hrun hw, ?_, fun k hk hone => ?_, fun c hc => ?_⟩⟩
  · rw [State.frame_of_groups (State.settle_groups _)]
    exact State.startFrame_frame hg hf
  · obtain ⟨c, hc⟩ := State.startFrame_core_of_slot hg hf hk hone
    rw [State.settle_core_of, hc]
    exact ⟨rfl, rfl, rfl, rfl, rfl⟩
  · rw [State.settle_core_of, State.startFrame_core_of_not_mem hg hf hc]

end Sys2Proof.Machine

/-! The deadline of an unfinished frame: the miss that it counts, the fallback that it releases once, and the work that it discards (R247,
R250, R260, R262, R385). -/

namespace Sys2Proof.Machine

/-- A fold of steps that each keep a part of the state keeps it. -/
theorem State.foldl_keeps {α β : Type} {part : State → β} {f : State → α → State} (l : List α) (h : ∀ t x, part (f t x) = part t)
    (s : State) : part (l.foldl f s) = part s := by
  induction l generalizing s with
  | nil => rfl
  | cons x l ih => rw [List.foldl_cons, ih, h]

/-! ### What a deadline leaves alone: the incoming migration and the power-fail state -/

/-- The incoming migration and the power-fail state, which the deadline of a frame outside a migration leaves as they are. -/
def State.footing (s : State) : Option MigIn × Bool := (s.peer.inc, s.glb.pf)

section
variable (s : State)

theorem State.foldl_footing {α : Type} {f : State → α → State} (l : List α) (h : ∀ t x, (f t x).footing = t.footing) :
    (l.foldl f s).footing = s.footing := State.foldl_keeps l h s

theorem State.ite_footing {p : Prop} [Decidable p] {a b : State} (ha : a.footing = s.footing) (hb : b.footing = s.footing) :
    (if p then a else b).footing = s.footing := by
  split_ifs
  · exact ha
  · exact hb

@[simp] theorem State.raise_footing (p b : Nat) : (s.raise p b).footing = s.footing := rfl

@[simp] theorem State.raiseIf_footing (c : Bool) (p b : Nat) : (s.raiseIf c p b).footing = s.footing := by
  cases c <;> rfl

@[simp] theorem State.updCore_footing (c : Nat) (f : Core → Core) : (s.updCore c f).footing = s.footing := rfl

@[simp] theorem State.updPack_footing (p : Nat) (f : Pack → Pack) : (s.updPack p f).footing = s.footing := rfl

@[simp] theorem State.updGroup_footing (gid : Nat) (f : Group → Group) : (s.updGroup gid f).footing = s.footing := by
  simp [State.footing]

@[simp] theorem State.updFrame_footing (gid n : Nat) (f : Frame → Frame) : (s.updFrame gid n f).footing = s.footing :=
  s.updGroup_footing gid _

@[simp] theorem State.hostWrite_footing (a : Nat) (bs : List Byte) : (s.hostWrite a bs).footing = s.footing := by
  rw [State.hostWrite_eq]
  rfl

@[simp] theorem State.hostPut_footing (a n v : Nat) : (s.hostPut a n v).footing = s.footing := s.hostWrite_footing _ _

@[simp] theorem State.traceRec_footing (ty c i n d : Nat) : (s.traceRec ty c i n d).footing = s.footing := by
  simp [State.footing]

@[simp] theorem State.leashAll_footing (g : Group) (f : Leash → Leash) : (s.leashAll g f).footing = s.footing :=
  s.foldl_footing _ fun _ _ => rfl

/-! ### Discarded work (R319) -/

@[simp] theorem State.rtvCode_footing (c r code : Nat) : (s.rtvCode c r code).footing = s.footing := by
  rw [State.rtvCode, State.raiseIf_footing, State.updCore_footing]

@[simp] theorem State.endRuns_footing (gid : Nat) (g : Group) (n : Nat) (discard : Bool) :
    (s.endRuns gid g n discard).footing = s.footing :=
  s.foldl_footing _ fun t _ => t.foldl_footing _ fun u _ => u.ite_footing (State.rtvCode_footing _ _ _ _) rfl

@[simp] theorem State.updHq_footing (q : Nat) (f : HQueue → HQueue) : (s.updHq q f).footing = s.footing := rfl

@[simp] theorem State.discardWork_footing (gid n : Nat) : (s.discardWork gid n).footing = s.footing := by
  unfold State.discardWork
  split
  · rw [State.updFrame_footing, State.endRuns_footing]
    refine (State.foldl_footing _ _ ?_).trans ((State.foldl_footing _ _ ?_).trans (State.foldl_footing _ _ ?_))
    · intro t x
      exact t.updHq_footing _ _
    · intro t x
      exact t.updHq_footing _ _
    · intro t c
      exact t.updCore_footing _ _
  · rfl

@[simp] theorem State.fillMissing_footing (g : Group) (f : Frame) : (s.fillMissing g f).footing = s.footing := by
  refine s.foldl_footing _ fun t b => t.ite_footing rfl ?_
  exact (State.raise_footing _ _ _).trans (t.foldl_footing _ fun _ _ => rfl)

/-! ### Fallback, fence and record (R293 to R300, R320) -/

@[simp] theorem State.fallbackLane_footing (gid : Nat) (g : Group) (f : Frame) (b : Bind) :
    (s.fallbackLane gid g f b).footing = s.footing := by
  unfold State.fallbackLane State.startRelease
  exact s.ite_footing (p := _ = 0) rfl rfl

@[simp] theorem State.ackTile_footing (surf gid n tile : Nat) (wrote late : Bool) :
    (s.ackTile surf gid n tile wrote late).footing = s.footing := by
  rw [State.ackTile, State.raiseIf_footing]
  rfl

@[simp] theorem State.answerResolves_footing (gid : Nat) (g : Group) (binds : List Nat) (n : Nat) (ok late : Bool) :
    (s.answerResolves gid g binds n ok late).footing = s.footing :=
  State.foldl_footing _ _ fun t _ => t.ite_footing (State.ackTile_footing _ _ _ _ _ _ _) (t.ackTile_footing _ _ _ _ _ _)

@[simp] theorem State.fenceRegress_footing (f src : Nat) : (s.fenceRegress f src).footing = s.footing :=
  s.ite_footing rfl rfl

@[simp] theorem State.mirrorFence_footing (f : Nat) (x : Fence) : (s.mirrorFence f x).footing = s.footing :=
  s.hostWrite_footing _ _

@[simp] theorem State.setFence_footing (f : Nat) (x : Fence) : (s.setFence f x).footing = s.footing := by
  rw [State.setFence, State.mirrorFence_footing]
  rfl

@[simp] theorem State.signalFence_footing (f : Nat) (x : DWord) (src : Nat) : (s.signalFence f x src).1.footing = s.footing := by
  have hregress (e : Option (Nat × DWord)) : ((e.map fun e => s.fenceRegress f e.1).getD s).footing = s.footing := by
    cases e with
    | none => rfl
    | some e => exact s.fenceRegress_footing f e.1
  unfold State.signalFence
  split
  · rfl
  · exact s.ite_footing ((State.mirrorFence_footing _ _ _).trans (hregress _)) ((State.setFence_footing _ _ _).trans (hregress _))

@[simp] theorem State.frameFence_footing (g : Group) (n : Nat) : (s.frameFence g n).1.footing = s.footing := by
  unfold State.frameFence
  split
  · split_ifs
    · rfl
    · exact s.signalFence_footing _ _ _
  · rfl

@[simp] theorem State.ringSignal_footing (r : Nat) : (s.ringSignal r).footing = s.footing := by
  have hmsg : (if (s.ring r).msgAddr = 0 then s else s.hostPut (s.ring r).msgAddr 4 (s.ring r).msgData.toNat).footing
      = s.footing := by
    split_ifs <;> simp
  unfold State.ringSignal
  dsimp only
  split
  · exact hmsg
  · exact hmsg

@[simp] theorem State.writeHead_footing (r : Nat) : (s.writeHead r).footing = s.footing := s.hostWrite_footing _ _

@[simp] theorem State.updRing_footing (r : Nat) (f : Ring → Ring) : (s.updRing r f).footing = s.footing := rfl

@[simp] theorem State.notify_footing (r : Nat) (c : CRec) : (s.notify r c).footing = s.footing := by
  unfold State.notify
  dsimp only
  split_ifs <;> simp

@[simp] theorem State.openTiles_footing (gid n : Nat) : (s.openTiles gid n).footing = s.footing :=
  State.foldl_footing _ _ fun _ _ => rfl

@[simp] theorem State.drain_footing (gid fuel : Nat) : (s.drain gid fuel).footing = s.footing := by
  induction fuel generalizing s with
  | zero => rfl
  | succ fuel ih =>
    rw [State.drain]
    split
    · rfl
    · split
      · rfl
      · split
        · rw [ih, State.openTiles_footing]
          split
          · exact s.ite_footing rfl (State.notify_footing _ _ _)
          · rfl
        · rfl

@[simp] theorem State.finish_footing (gid n status flags : Nat) (ok : Bool) :
    (s.finish gid n status flags ok).footing = s.footing := by
  unfold State.finish
  split
  · rw [State.drain_footing]
    rfl
  · rfl

/-! ### Migrations (R364 to R366) -/

@[simp] theorem State.sendPeer_footing (m type : Nat) (body : List Byte) (urgent : Bool) :
    (s.sendPeer m type body urgent).footing = s.footing := by
  unfold State.sendPeer
  refine s.ite_footing rfl ?_
  rw [State.raiseIf_footing]
  cases urgent <;> rfl

@[simp] theorem State.migOutFail_footing (code : Nat) : (s.migOutFail code).footing = s.footing := by
  unfold State.migOutFail
  split
  · rfl
  · exact s.ite_footing rfl (s.ite_footing (State.sendPeer_footing _ _ _ _ _) rfl)

@[simp] theorem State.yieldTo_footing (o : MigOut) (n : Nat) : (s.yieldTo o n).footing = s.footing :=
  s.sendPeer_footing _ _ _ _

end

section
variable {s : State} {pf : Bool} (h : s.footing = (none, pf))
include h

theorem State.inc_of_footing : s.peer.inc = none := congrArg Prod.fst h

/-- Outside an incoming migration a lost frame brings none about. -/
theorem State.migLost_footing (gid n : Nat) : (s.migLost gid n).footing = (none, pf) := by
  have hinc := State.inc_of_footing h
  cases hout : s.peer.out with
  | none => simp only [State.migLost, hout, hinc, h]
  | some m =>
    by_cases hstays : m.gid ≠ gid ∨ n < m.s ∨ m.hands gid n = true
    · simp only [State.migLost, hout, hstays, if_true, hinc, h]
    · have hfailed (code : Nat) : (s.migOutFail code).footing = (none, pf) := (s.migOutFail_footing code).trans h
      simp only [State.migLost, hout, hstays, if_false, State.inc_of_footing (hfailed _), hfailed]

theorem State.migFallback_footing (gid n : Nat) : (s.migFallback gid n).footing = (none, pf) := by
  have hinc := State.inc_of_footing h
  cases hout : s.peer.out with
  | none => simp only [State.migFallback, hout, hinc, h]
  | some o =>
    by_cases hhands : o.hands gid n = true
    · have hyield (f : Group → Group) : ((s.updGroup gid f).yieldTo o n).footing = (none, pf) :=
        (State.yieldTo_footing _ _ _).trans ((s.updGroup_footing _ _).trans h)
      simp only [State.migFallback, hout, hhands, if_true, State.inc_of_footing (hyield _), hyield]
    · simp only [State.migFallback, hout, hhands, Bool.false_eq_true, if_false, hinc, h]

theorem State.missOf_footing (gid : Nat) (g : Group) (n cause : Nat) (slack : Int) :
    (s.missOf gid g n cause slack).footing = (none, pf) := by
  have hcount (l : Leash → Leash) : ((s.leashAll g l).updTele Tele.missed).footing = (none, pf) := (s.leashAll_footing g l).trans h
  refine State.migLost_footing ?_ gid n
  exact (State.traceRec_footing _ _ _ _ _ _).trans
    ((State.raiseIf_footing _ _ _ _).trans ((State.raise_footing _ _ _).trans ((State.updPack_footing _ _ _).trans (hcount _))))

theorem State.releaseFallback_footing (gid n : Nat) : (s.releaseFallback gid n).1.footing = (none, pf) := by
  have hmig : (if (s.frame? gid n).any fun f => !f.late then s.migFallback gid n else s).footing = (none, pf) := by
    split_ifs
    · exact State.migFallback_footing h gid n
    · exact h
  unfold State.releaseFallback
  dsimp only
  generalize (if (s.frame? gid n).any fun f => !f.late then s.migFallback gid n else s) = t at hmig ⊢
  split
  · split
    · exact hmig
    · refine State.migLost_footing ?_ gid n
      rw [State.frameFence_footing, State.answerResolves_footing]
      split
      · exact hmig
      · rw [State.traceRec_footing]
        exact (State.foldl_footing _ _ fun t b => t.fallbackLane_footing _ _ _ b).trans hmig
  · exact hmig

end

/-! ### The pass of a deadline -/

section
variable {s : State} {pf : Bool} {gid n : Nat} {g : Group} {f : Frame}

theorem State.passDeadline_footing (h : s.footing = (none, pf)) : (s.passDeadline gid n).footing = (none, pf) := by
  unfold State.passDeadline
  split
  · split_ifs
    · exact (State.finish_footing _ _ _ _ _ _).trans (State.releaseFallback_footing ((s.leashAll_footing _ _).trans h) gid n)
    · exact (State.finish_footing _ _ _ _ _ _).trans (State.releaseFallback_footing (State.missOf_footing h _ _ _ _ _) gid n)
    · exact (State.finish_footing _ _ _ _ _ _).trans (State.releaseFallback_footing ((State.discardWork_footing _ _ _).trans
        (State.missOf_footing ((s.leashAll_footing _ _).trans h) _ _ _ _ _)) gid n)
    · exact (State.updFrame_footing _ _ _ _).trans (State.releaseFallback_footing ((s.fillMissing_footing _ _).trans h) gid n)
  · exact h

theorem State.nextMoved_footing (e : CalEntry) : (s.nextMoved g e).footing = s.footing := rfl

theorem State.updEntry_footing (x : CalEntry → CalEntry) : (s.updEntry g x).footing = s.footing := by
  unfold State.updEntry
  split
  · rfl
  · rfl

theorem State.updEntry_group (x : CalEntry → CalEntry) (j : Nat) : (s.updEntry g x).group? j = s.group? j := by
  unfold State.updEntry
  split
  · rfl
  · rfl

theorem State.updFrame_group (x : Frame → Frame) (hg : s.group? gid = some g) :
    (s.updFrame gid n x).group? gid = some (g.updFrame n x) := by
  rw [State.updFrame, State.updGroup_group, if_pos rfl, hg]
  rfl

section
variable (hg : s.group? gid = some g) (hf : s.frame? gid n = some f)
include hg hf

/-- The frame of a parked group is counted as parked (R247). -/
theorem State.passDeadline_of_parked (hp : f.parked = true) :
    s.passDeadline gid n = (let r := (s.leashAll g fun l => { l with parked := satAdd 0xFFFF l.parked 1 }).releaseFallback gid n
      r.1.finish gid n 0 (4 + 16 * b2n r.2) false) := by
  simp only [State.passDeadline, hg, hf, hp, if_true]

/-- The frame of an entry without BUDGET is a SERVICE miss (R250). -/
theorem State.passDeadline_of_starved (hp : f.parked = false) (hb : f.noBudget = true) :
    s.passDeadline gid n = (let r := (s.missOf gid g n 5 0).releaseFallback gid n
      r.1.finish gid n 0 (4 + 16 * b2n r.2) false) := by
  simp only [State.passDeadline, hg, hf, hp, hb, if_true, Bool.false_eq_true, if_false]

/-- A frame that has not started is skipped, and a CHAINED miss (R262). -/
theorem State.passDeadline_of_waiting (hp : f.parked = false) (hb : f.noBudget = false) (hw : f.phase = .closed ∨ f.phase = .fired) :
    s.passDeadline gid n = (let r := (((s.leashAll g fun l => { l with skips := satAdd 0xFFFF l.skips 1 }).missOf gid g n 1
        0).discardWork gid n).releaseFallback gid n
      r.1.finish gid n 0 (4 + 16 * b2n r.2) false) := by
  simp only [State.passDeadline, hg, hf, hp, hb, hw, if_true, Bool.false_eq_true, if_false]

/-- The missing inputs of a running frame take +0 (R385). -/
theorem State.passDeadline_of_running (hp : f.parked = false) (hb : f.noBudget = false) (hw : ¬ (f.phase = .closed ∨ f.phase = .fired)) :
    s.passDeadline gid n = (let q := (s.fillMissing g f).releaseFallback gid n
      q.1.updFrame gid n fun x => { x with late := true, regress := q.2 }) := by
  simp only [State.passDeadline, hg, hf, hp, hb, hw, Bool.false_eq_true, if_false]

/-- The close of a frame that has not fired is used up before its deadline passes (R248); outside the power-fail state nothing follows. -/
theorem State.deadlineOne_eq (hlate : f.late = false) {t : State} (ht : (if f.phase = .closed ∧ f.parked = false ∧ f.noBudget = false then
        if g.parked.isSome || (Sparse.get default (s.pack g.pack).entries g.entry).budget == 0
            || (Sparse.get default (s.pack g.pack).entries g.entry).suspended then s.fireFrame gid n
        else s.updEntry g fun x => { x with next := x.next + dword g.p }
      else s) = t) (hfoot : t.footing = (none, false)) : s.deadlineOne gid n = t.passDeadline gid n := by
  have hpf : (t.passDeadline gid n).glb.pf = false := congrArg Prod.snd (State.passDeadline_footing hfoot)
  subst ht
  simp only [State.deadlineOne, hg, hf, hlate, Bool.false_eq_true, if_false, hpf, Bool.false_and]

end

/-- The deadline of a frame that has fired, or whose close counts as parked or starved already. -/
theorem State.deadlineOne_of_closeUsed (hg : s.group? gid = some g) (hf : s.frame? gid n = some f) (hlate : f.late = false)
    (hused : ¬ (f.phase = .closed ∧ f.parked = false ∧ f.noBudget = false)) (hfoot : s.footing = (none, false)) :
    s.deadlineOne gid n = s.passDeadline gid n :=
  State.deadlineOne_eq hg hf hlate (if_neg hused) hfoot

theorem exec_frameDeadline_of_overdue (hrun : s.running = true) (hg : s.group? gid = some g) (ho : s.overdue g = some f) {t : State}
    (hone : s.deadlineOne gid f.n = t) (hfoot : t.footing = (none, false)) : exec (.frameDeadline gid) s = .next t.settle := by
  have hmig : t.migAtDeadline gid = t := by simp only [State.migAtDeadline, State.inc_of_footing hfoot]
  simp only [exec, execFrameDeadline, hrun, hg, ho, hone, hmig, if_true, done]

theorem exec_frameDeadline_of_none (hg : s.group? gid = some g) (hinc : s.peer.inc = none) (ho : s.overdue g = none) :
    exec (.frameDeadline gid) s = .next s.settle := by
  simp only [exec, execFrameDeadline, hg, ho, State.migAtDeadline, hinc, ite_self, done]

theorem State.late_of_overdue (ho : s.overdue g = some f) (hpf : s.glb.pf = false) : f.late = false := by
  have hfound := List.find?_some ho
  simp only [hpf, Bool.or_false, Bool.and_eq_true, Bool.not_eq_true'] at hfound
  exact hfound.1.2

/-- A frame whose fallback has gone out releases none again (R260). -/
theorem State.releaseFallback_of_late (hf : s.frame? gid n = some f) (hlate : f.late = true) : s.releaseFallback gid n = (s, false) := by
  unfold State.releaseFallback
  simp only [hf, Option.any_some, hlate, Bool.not_true, Bool.false_eq_true, if_false]
  split
  · rename_i heq
    cases heq
    rw [if_pos hlate]
  · rfl

end

/-- Settles O38: the deadline leaves the incoming migration and the power-fail state as they are, so the frame's miss, its discard and its
fallback are all that it does. -/
theorem deadlinesReleaseTheFallbackOnce : Obligations.DeadlinesReleaseTheFallbackOnce := by
  unfold Obligations.DeadlinesReleaseTheFallbackOnce
  intro gid s g hrun hg hinc
  refine ⟨exec_frameDeadline_of_none hg hinc, fun n f hf hlate => State.releaseFallback_of_late hf hlate, ?_⟩
  intro f ho hf hpf e finished unfired starved v w park starve skip
  have hlate := State.late_of_overdue ho hpf
  have hfoot : s.footing = (none, false) := Prod.ext hinc hpf
  have hexec {u t : State} (hone : s.deadlineOne gid f.n = u.passDeadline gid f.n) (hu : u.footing = (none, false))
      (ht : u.passDeadline gid f.n = t) : exec (.frameDeadline gid) s = .next t.settle :=
    ht ▸ exec_frameDeadline_of_overdue hrun hg ho hone (State.passDeadline_footing hu)
  have hused (h : ¬ unfired) : s.deadlineOne gid f.n = s.passDeadline gid f.n := State.deadlineOne_of_closeUsed hg hf hlate h hfoot
  have hfire {x : Frame → Frame} (hv : v = (s.nextMoved g e).updFrame gid f.n x) (hx : ∀ y, (x y).n = y.n) :
      v.footing = (none, false) ∧ v.group? gid = some (g.updFrame f.n x) ∧ v.frame? gid f.n = some (x f) := by
    refine ⟨?_, ?_, ?_⟩
    · rw [hv, State.updFrame_footing, State.nextMoved_footing, hfoot]
    · rw [hv]
      exact State.updFrame_group (s := s.nextMoved g e) x hg
    · rw [hv, State.updFrame_frame _ _ _ _ hx]
      exact congrArg (Option.map x) hf
  have hunfired (h : unfired) (hstop : g.parked ≠ none ∨ starved) (hv : v.footing = (none, false)) :
      s.deadlineOne gid f.n = v.passDeadline gid f.n := by
    refine State.deadlineOne_eq hg hf hlate ?_ hv
    rw [if_pos h, if_pos]
    rcases hstop with hp | hb | hsusp
    · rw [Option.isSome_iff_ne_none.mpr hp]
      rfl
    · rw [show (Sparse.get default (s.pack g.pack).entries g.entry).budget = 0 from hb]
      simp
    · rw [show (Sparse.get default (s.pack g.pack).entries g.entry).suspended = true from hsusp]
      simp
  refine ⟨?_, ?_, ?_, ?_, ?_, ?_, ?_⟩
  · intro hp
    exact hexec (hused fun h => Bool.noConfusion (hp.symm.trans h.2.1)) hfoot (State.passDeadline_of_parked hg hf hp)
  · intro hu hp
    obtain ⟨hvfoot, hvg, hvf⟩ := hfire (State.fireFrame_of_parked hg rfl hp) fun _ => rfl
    have hpark := State.passDeadline_of_parked hvg hvf rfl
    exact hexec (hunfired hu (.inl hp) hvfoot) hvfoot hpark
  · intro hp hb
    exact hexec (hused fun h => Bool.noConfusion (hb.symm.trans h.2.2)) hfoot (State.passDeadline_of_starved hg hf hp hb)
  · intro hu hp hs
    obtain ⟨hvfoot, hvg, hvf⟩ := hfire (State.fireFrame_of_starved hg rfl hp hs) fun _ => rfl
    have hstarve := State.passDeadline_of_starved hvg hvf hu.2.1 rfl
    exact hexec (hunfired hu (.inr hs) hvfoot) hvfoot hstarve
  · intro hu hp hs
    have hwfoot : w.footing = (none, false) := (State.updEntry_footing _).trans hfoot
    have hwg : w.group? gid = some g := (State.updEntry_group _ gid).trans hg
    have hwf : w.frame? gid f.n = some f := by
      rw [State.frame?, hwg]
      rw [State.frame?, hg] at hf
      exact hf
    refine hexec (State.deadlineOne_eq hg hf hlate ?_ hwfoot) hwfoot
      (State.passDeadline_of_waiting hwg hwf hu.2.1 hu.2.2 (.inl hu.1))
    rw [if_pos hu, if_neg]
    simpa [starved, hp, and_comm] using hs
  · intro hp hb hphase
    exact hexec (hused fun h => FramePhase.noConfusion (hphase.symm.trans h.1)) hfoot (State.passDeadline_of_waiting hg hf hp hb (.inr hphase))
  · intro hp hb hfired hclosed
    exact hexec (hused fun h => hclosed h.1) hfoot
      (State.passDeadline_of_running hg hf hp hb fun h => h.elim hclosed hfired)

end Sys2Proof.Machine

/-! Budgets, the governor's windows, the trace's lost records and the moves to standby cores (R250, R255, R405, R434). -/

namespace Sys2Proof.Machine

/-! ### Standby moves (R255) -/

theorem State.group_of_groups {s u : State} (h : u.groups = s.groups) (gid : Nat) : u.group? gid = s.group? gid := by
  rw [State.group?, h, State.group?]

/-- Rewrites the power figures: nothing else changes. -/
def State.withPower (s : State) (p : Power) : State := { s with power := p }

theorem State.withPower_groups (s : State) (p : Power) : (s.withPower p).groups = s.groups := rfl

theorem State.withPower_rings (s : State) (p : Power) : (s.withPower p).rings = s.rings := rfl

theorem State.withPower_packs (s : State) (p : Power) : (s.withPower p).packs = s.packs := rfl

theorem State.setDlPower_groups (s : State) : s.setDlPower.groups = s.groups := s.withPower_groups _

theorem State.setDlPower_rings (s : State) : s.setDlPower.rings = s.rings := s.withPower_rings _

theorem State.setDlPower_packs (s : State) : s.setDlPower.packs = s.packs := s.withPower_packs _

/-- The move of one slot leaves the group as it is but for the slot's core. -/
theorem State.moveSlot_group {s : State} {gid : Nat} {g : Group} (hg : s.group? gid = some g) (k m : Nat) :
    (s.moveSlot gid k m).group? gid = some { g with cores := g.cores.set k m } := by
  simp only [State.moveSlot, hg, State.setGroup_group, if_true]

theorem State.updEntry_groups (s : State) (g : Group) (x : CalEntry → CalEntry) : (s.updEntry g x).groups = s.groups := by
  unfold State.updEntry
  split
  · rfl
  · rfl

/-- The move of one chosen slot: the group stands on the new core, and no move is left to make. -/
theorem State.standbyMove_group {s : State} {gid : Nat} {g : Group} {k m : Nat} (hg : s.group? gid = some g) (hmoves : g.moves = [(k, m)])
    (hmovable : g.movable = true) (hidle : ∀ f ∈ g.frames, f.phase = .closed ∨ f.phase = .finished) :
    ((s.standbyMove gid).group? gid).map (fun h => (h.cores, h.moves, h.movable)) = some (g.cores.set k m, [], false) := by
  have hall : (g.frames.all fun f => f.phase == .closed || f.phase == .finished) = true := by simpa using hidle
  have hmoved : ([(k, m)].foldl (fun t (k, m) => t.moveSlot gid k m) s).group? gid = some { g with cores := g.cores.set k m } :=
    State.moveSlot_group hg k m
  have hstop : ¬ (g.moves.isEmpty || !g.movable || !(g.frames.all fun f => f.phase == .closed || f.phase == .finished)) = true := by
    simp [hmoves, hmovable, hall]
  unfold State.standbyMove
  simp only [hg]
  rw [if_neg hstop, hmoves]
  generalize [(k, m)].foldl (fun t (k, m) => t.moveSlot gid k m) s = t at hmoved ⊢
  simp only [hmoved]
  refine (congrArg (Option.map _) (State.group_of_groups (s := t.setGroup gid _) ((State.setDlPower_groups _).trans
    ((State.updEntry_groups _ _ _).trans ((State.foldl_keeps (part := State.groups) _ ?_ _).trans
      (State.foldl_keeps (part := State.groups) _ ?_ _)))) gid)).trans ?_
  · intro u x
    split_ifs
    · rfl
    · exact State.updCore_groups _ _ _
  · intro u x
    exact State.updCore_groups _ _ _
  · rw [State.setGroup_group, if_pos rfl]
    rfl

/-- No chosen move, or no commit since it was chosen: no slot moves. -/
theorem State.standbyMove_of_waiting {s : State} {gid : Nat} {g : Group} (hg : s.group? gid = some g)
    (h : g.moves = [] ∨ g.movable = false) : s.standbyMove gid = s := by
  have hstop : (g.moves.isEmpty || !g.movable || !(g.frames.all fun f => f.phase == .closed || f.phase == .finished)) = true := by
    rcases h with h | h <;> simp [h]
  unfold State.standbyMove
  simp only [hg]
  rw [if_pos hstop]

/-- Settles O39: the budgets, the governor and the trace by their meanings, the standby move by what each of its steps does to the group. -/
theorem budgetsWindowsAndStandbyMoves : Obligations.BudgetsWindowsAndStandbyMoves := by
  unfold Obligations.BudgetsWindowsAndStandbyMoves
  intro s hrun
  refine ⟨?_, ?_, ?_, ?_, ?_, ?_⟩
  · intro p hearly hrestart hp
    simp only [exec, execBudgetRestore, hrun, hearly, hrestart, decide_eq_true hp, Bool.not_false, Bool.and_self, if_true, done]
  · intro slowed hearly
    simp only [exec, execGovernorWindow, hrun, hearly, Bool.and_self, if_true, State.governor, pgPower, done]
  · intro hgap hroom
    simp only [exec, execTraceLostRecord, hrun, if_true, State.traceLostRec, ne_eq, hgap, hroom, not_false_eq_true, and_self, done]
  · intro h
    have hstop : ¬ (s.traceGap ≠ 0 ∧ s.trace.length < 256) := fun ⟨hgap, hroom⟩ => h.elim hgap (Nat.not_le.mpr hroom)
    simp only [exec, execTraceLostRecord, hrun, if_true, State.traceLostRec, hstop, if_false, done]
  · intro gid g k m hg hmoves hmovable hidle
    refine ⟨(s.standbyMove gid).settle, ?_, ?_⟩
    · simp only [exec, execStandbyMove, hrun, if_true, done]
    · rw [State.settle_group_of]
      exact State.standbyMove_group hg hmoves hmovable hidle
  · intro gid g hg h
    simp only [exec, execStandbyMove, hrun, if_true, State.standbyMove_of_waiting hg h, done]

end Sys2Proof.Machine

/-! Best-effort jobs that give way to frames and resume where they stood (R128, R222, R256 to R258, R295, R307, R344). -/

namespace Sys2Proof.Machine

/-! ### Folds that rewrite one core at each step -/

theorem State.job_of_jobs {s u : State} (h : u.jobs = s.jobs) (r : Nat) : u.job? r = s.job? r := by
  rw [State.job?, h, State.job?]

/-- Steps that each change the core that their element names: the element that alone names a core settles what the core holds. -/
theorem State.foldl_core_of_unique {α : Type} {f : State → α → State} {g : α → Nat} {P : Core → Prop}
    (hother : ∀ t x d, d ≠ g x → (f t x).core d = t.core d) {l : List α} {k : Nat} (hk : k < l.length)
    (hat : ∀ t, P ((f t l[k]).core (g l[k]))) (hone : ∀ i, (hi : i < l.length) → g l[i] = g l[k] → i = k) (s : State) :
    P ((l.foldl f s).core (g l[k])) := by
  have hkeep (m : List α) (d : Nat) (hm : ∀ y ∈ m, g y ≠ d) (t : State) : (m.foldl f t).core d = t.core d := by
    induction m generalizing t with
    | nil => rfl
    | cons y m ih =>
      obtain ⟨hy, hrest⟩ := List.forall_mem_cons.mp hm
      rw [List.foldl_cons, ih hrest, hother _ _ _ (Ne.symm hy)]
  induction l generalizing s k with
  | nil => exact absurd hk (Nat.not_lt_zero k)
  | cons x l ih =>
    cases k with
    | zero =>
      have hrest : ∀ y ∈ l, g y ≠ g x := by
        intro y hy hyx
        obtain ⟨i, hi, rfl⟩ := List.getElem_of_mem hy
        exact Nat.succ_ne_zero i (hone (i + 1) (Nat.succ_lt_succ hi) hyx)
      rw [List.foldl_cons, List.getElem_cons_zero, hkeep l _ hrest]
      exact hat s
    | succ k =>
      exact ih (Nat.lt_of_succ_lt_succ hk) hat (fun i hi h => Nat.succ.inj (hone (i + 1) (Nat.succ_lt_succ hi) h)) _

/-! ### Requests to give way (R257) -/

theorem exec_preemptLstTimer_of_passed {s : State} {c r slot : Nat} (hrun : s.running = true) (hjob : (s.core c).csq.run = .job r slot)
    (hpend : s.startPending c = true) (hpast : s.lstPassed c = true) :
    exec (.preemptLstTimer c) s = .next (s.updCore c fun k => { k with preempt := true }).settle := by
  simp only [exec, execPreemptLstTimer, hrun, hpend, hpast, Bool.and_self, if_true, State.requestPreempt, hjob, done]

theorem exec_preemptLstTimer_of_early {s : State} {c : Nat} (h : s.startPending c = false ∨ s.lstPassed c = false) :
    exec (.preemptLstTimer c) s = .next s.settle := by
  have hstop : ¬ (s.running && s.startPending c && s.lstPassed c) = true := by
    rcases h with h | h <;> simp [h]
  simp only [exec, execPreemptLstTimer, hstop, if_false, Bool.false_eq_true, done]

/-! ### A slot at a preemption point (R256) -/

section
variable {s : State} {c r slot : Nat} {j : Job} (hrun : s.running = true) (hjob : (s.core c).csq.run = .job r slot)
  (hj : s.job? r = some j)

/-- The job with one more of its slots held. -/
def Job.holding (j : Job) (slot : Nat) : Job := { j with held := j.held ++ [slot] }

include hrun hjob hj in
/-- A slot that stops is held; the last one that stops takes the job off its cores. -/
theorem exec_preemptionPoint_of_stops (hstop : s.jobStops j = true) (hlast : s.lastEnd j c = false) (hheld : j.held.contains slot = false)
    (hread : (s.core c).csq.rread = none) (hremote : (s.core c).csq.remote = 0) (mem : MemCode) :
    exec (.preemptionPoint ⟨c, mem⟩) s = .next (if j.held.length + 1 = j.slots.length
      then (s.updJob r fun _ => j.holding slot).jobStopped r (j.holding slot) mem else s.updJob r fun _ => j.holding slot).settle := by
  simp only [exec, execPreemptionPoint, hrun, if_true, State.giveWay, hjob, hj, hstop, hlast, hheld, hread, hremote, Bool.not_false,
    Option.isNone_none, beq_self_eq_true, Bool.and_self, List.length_append, List.length_singleton, Job.holding, done]

include hjob hj in
theorem exec_preemptionPoint_of_runs (h : s.jobStops j = false ∨ s.lastEnd j c = true ∨ (s.core c).csq.rread ≠ none ∨
    (s.core c).csq.remote ≠ 0) (mem : MemCode) : exec (.preemptionPoint ⟨c, mem⟩) s = .next s.settle := by
  have hgo : ¬ (s.jobStops j && !s.lastEnd j c && !j.held.contains slot && (s.core c).csq.rread.isNone
      && (s.core c).csq.remote == 0) = true := by
    simp only [Bool.and_eq_true, Bool.not_eq_true', Option.isNone_iff_eq_none, beq_iff_eq]
    rintro ⟨⟨⟨⟨hstop, hlast⟩, -⟩, hread⟩, hremote⟩
    rcases h with h | h | h | h
    · exact Bool.noConfusion (hstop.symm.trans h)
    · exact Bool.noConfusion (hlast.symm.trans h)
    · exact h hread
    · exact h hremote
  simp only [exec, execPreemptionPoint, State.giveWay, hjob, hj, hgo, if_false, Bool.false_eq_true, ite_self, done]

end

/-! ### Every slot has stopped (R128, R222, R256, R295, R307, R344) -/

section
variable {s : State} {r : Nat} {j : Job}

theorem State.jobStopped_of_pf (hpf : s.glb.pf = true) (mem : MemCode) :
    ∃ cs, s.jobStopped r j mem = { s with cores := cs, jobs := s.jobs.del r } := by
  unfold State.jobStopped
  rw [if_pos hpf]
  dsimp only
  generalize hu : s.onJobCores r _ = u
  obtain ⟨cs, hcs⟩ := s.onJobCores_eq r _
  rw [hcs] at hu
  subst hu
  exact ⟨cs, rfl⟩

theorem State.jobStopped_of_abort (hpf : s.glb.pf = false) (habort : j.abortAt ≠ none) (mem : MemCode) :
    ∃ pc, s.jobStopped r j mem = s.endJob r { status := 0x42, offset := 32 * pc } := by
  unfold State.jobStopped
  rw [if_neg (by simp [hpf]), if_pos (Option.isSome_iff_ne_none.mpr habort)]
  exact ⟨_, rfl⟩

variable (hpf : s.glb.pf = false) (habort : j.abortAt = none)
include hpf habort

theorem State.jobStopped_of_memErr {mem : MemCode} (hmem : mem ≠ .ok) :
    s.jobStopped r j mem = (s.memErr mem true ((j.slots.head?.map (·.save)).getD 0) .best).endJob r { status := 0x48 } := by
  unfold State.jobStopped
  rw [if_neg (by simp [hpf]), if_neg (by simp [habort]), if_pos hmem]

theorem State.jobStopped_of_displaced (hpark : j.parking = none) : s.jobStopped r j .ok
    = (j.slots.zipIdx.foldl (fun t (sl, _) => t.traceRec 6 sl.core r 0 0) s).saveJob r j .displaced := by
  unfold State.jobStopped
  rw [if_neg (by simp [hpf]), if_neg (by simp [habort]), if_neg (by simp), hpark]

theorem State.jobStopped_of_parked (hpark : j.parking = some .parkedRes) : s.jobStopped r j .ok = s.saveJob r j .parkedRes := by
  unfold State.jobStopped
  rw [if_neg (by simp [hpf]), if_neg (by simp [habort]), if_neg (by simp), hpark]
  exact if_neg (by decide)

end

/-! ### What is saved of a job (R256) -/

section
variable {s : State} {r : Nat} {j : Job}

/-- The state with the save areas of a job's slots open: their layout belongs to the engine. -/
def State.areasOpen (s : State) (j : Job) : State := j.slots.foldl (fun t sl => t.hostOpenRange sl.save saveBytes) s

theorem State.areasOpen_jobs (s : State) (j : Job) : (s.areasOpen j).jobs = s.jobs := by
  refine State.foldl_keeps _ ?_ _
  exact fun t x => State.hostOpenRange_jobs t _ _

theorem State.freeCores_jobs (s : State) (r : Nat) : (s.freeCores r).jobs = s.jobs := by
  obtain ⟨cs, hcs⟩ := s.onJobCores_eq r fun k => { k with csq := k.csq.rest, preempt := false }
  rw [State.freeCores, hcs]

theorem State.saveJob_job (hj : s.job? r = some j) (i : Job) (stage : JobStage) : (s.saveJob r i stage).job? r =
    some { j with stage := stage, saved := i.slots.zipIdx.map fun (sl, k) => (k, s.savedSlot sl.core), held := [], parking := none } := by
  have hfreed : ((s.areasOpen i).freeCores r).job? r = some j :=
    (State.job_of_jobs ((State.freeCores_jobs _ r).trans (s.areasOpen_jobs i)) r).trans hj
  rw [State.areasOpen] at hfreed
  rw [State.saveJob, State.updJob_job, if_pos rfl, hfreed]
  rfl

/-- A core that runs no slot of the ring's job stays so when the job's cores are freed; the others are freed. -/
theorem State.saveJob_core (hj : s.job? r = some j) (i : Job) (stage : JobStage) {c : Nat} (hc : c ∈ j.cores) (k : Nat) :
    ((s.saveJob r i stage).core c).csq.run ≠ .job r k := by
  have hopen : (s.areasOpen i).job? r = some j := (State.job_of_jobs (s.areasOpen_jobs i) r).trans hj
  rw [State.areasOpen] at hopen
  rw [State.saveJob, State.updJob_core_of, State.freeCores, State.onJobCores]
  simp only [hopen]
  refine State.foldl_updCore_core_of_mem (P := fun q => q.csq.run ≠ .job r k) (fun q => ?_) _ (.inl hc)
  split
  · rename_i r' slot hrun
    split_ifs with hr
    · exact Run.noConfusion
    · rw [hrun]
      exact fun h => hr (Run.job.inj h).1
  · rename_i hrun
    exact hrun r k

end

/-! ### Resuming (R258) -/

/-- One slot of a job takes back what was saved of it. -/
def State.resumeSlot (saved : List (Nat × SavedSlot)) (t : State) (x : JobSlot × Nat) : State :=
  match saved.find? (·.1 == x.2) with
  | some (_, v) => t.updCore x.1.core fun q => q.restore t.fclk v
  | none => t

/-- Every slot of a displaced job has taken back what was saved of it. -/
def State.resumed (s : State) (r : Nat) (j : Job) : State :=
  j.slots.zipIdx.foldl (State.resumeSlot j.saved) (s.updJob r fun x => { x with stage := .running, saved := [] })

theorem State.resumeSlot_jobs (saved : List (Nat × SavedSlot)) (t : State) (x : JobSlot × Nat) :
    (t.resumeSlot saved x).jobs = t.jobs := by
  unfold State.resumeSlot
  split
  · rfl
  · rfl

theorem State.resumeSlot_core_of_ne (saved : List (Nat × SavedSlot)) (t : State) (x : JobSlot × Nat) (d : Nat) (hd : d ≠ x.1.core) :
    (t.resumeSlot saved x).core d = t.core d := by
  unfold State.resumeSlot
  split
  · rw [State.updCore_core, if_neg hd]
  · rfl

/-- What a restored core has of the saved slot. -/
theorem Core.restore_eq (k : Core) (now : Nat) (v : SavedSlot) : (k.restore now v).csq.run = v.csq.run ∧
    (k.restore now v).csq.pc = v.csq.pc ∧ (k.restore now v).csq.tokens = v.csq.tokens ∧ (k.restore now v).csq.gens = v.csq.gens ∧
    (k.restore now v).sregs = v.sregs := by
  unfold Core.restore
  obtain ⟨ms, hms⟩ := Core.foldl_updMxa_frame (fun x : Mxa × Nat => x.2) (fun x y => y.restore x.1) v.mxas.zipIdx
    { k with sregs := v.sregs, csq := { v.csq with epoch := k.csq.epoch + 1, remote := k.csq.remote
                                                   waiting := v.csq.waiting.map fun t => now - t } }
  dsimp only
  rw [hms]
  exact ⟨rfl, rfl, rfl, rfl, rfl⟩

section
variable {s : State} {r : Nat} {j : Job}

theorem State.resumed_job (hj : s.job? r = some j) : (s.resumed r j).job? r = some { j with stage := .running, saved := [] } := by
  rw [State.resumed, State.job_of_jobs (State.foldl_keeps (part := State.jobs) _ (State.resumeSlot_jobs _) _), State.updJob_job, if_pos rfl, hj]
  rfl

/-- A slot whose core no other slot names resumes there with what was saved of it. -/
theorem State.resumed_core {k : Nat} {v : SavedSlot} (hk : k < j.slots.length)
    (hone : ∀ i, (hi : i < j.slots.length) → j.slots[i].core = j.slots[k].core → i = k)
    (hv : j.saved.find? (fun x => x.1 == k) = some (k, v)) :
    ∃ q now, (s.resumed r j).core j.slots[k].core = Core.restore q now v := by
  have hk' : k < j.slots.zipIdx.length := by rwa [List.length_zipIdx]
  have h := State.foldl_core_of_unique (P := fun p => ∃ q now, p = Core.restore q now v) (g := fun x : JobSlot × Nat => x.1.core)
    (State.resumeSlot_core_of_ne j.saved) hk' (fun t => ?_)
    (fun i hi heq => hone i (by rwa [List.length_zipIdx] at hi) (by simpa only [List.getElem_zipIdx] using heq))
    (s.updJob r fun x => { x with stage := .running, saved := [] })
  · simpa only [State.resumed, List.getElem_zipIdx, Nat.zero_add] using h
  · simp only [List.getElem_zipIdx, Nat.zero_add, State.resumeSlot, hv, State.updCore_core, if_true]
    exact ⟨_, _, rfl⟩

theorem exec_jobResume_of_displaced (hrun : s.jobsRun = true) (hj : s.job? r = some j) (hstage : j.stage = .displaced)
    (hfree : j.cores.all s.coreFree = true) : exec (.jobResume ⟨r, .ok⟩) s = .next ((s.resumed r j).resumeRtvs r).settle := by
  have hgo : ¬ (j.stage ≠ .displaced ∨ j.cores.all s.coreFree = false) := by simp [hstage, hfree]
  simp only [exec, execJobResume, hrun, if_true, State.resumeJob, hj, hgo, if_false, ne_eq, not_true_eq_false, done]
  rfl

theorem exec_jobResume_of_not_displaced (hj : s.job? r = some j) (hstage : j.stage ≠ .displaced) (mem : MemCode) :
    exec (.jobResume ⟨r, mem⟩) s = .next s.settle := by
  simp only [exec, execJobResume, State.resumeJob, hj, hstage, ne_eq, not_false_eq_true, true_or, if_true, ite_self, done]

end

/-- Settles O41: by the preemption point's cases, what saving does to the job and its cores, and what each slot takes back. -/
theorem jobsAreDisplacedAndResume : Obligations.JobsAreDisplacedAndResume := by
  unfold Obligations.JobsAreDisplacedAndResume
  refine ⟨fun c s hrun => ⟨?_, ?_, ?_, ?_⟩, fun r s j hj => ⟨?_, ?_, ?_, ?_⟩⟩
  · exact fun r slot hjob => exec_preemptLstTimer_of_passed hrun hjob
  · exact exec_preemptLstTimer_of_early
  · intro r slot j mem hjob hj hstop hlast hheld hread hremote h u
    have hexec := exec_preemptionPoint_of_stops hrun hjob hj hstop hlast hheld hread hremote
    have hglb : u.glb = s.glb := State.updJob_glb _ _ _
    have hstopped (hall : j.held.length + 1 = j.slots.length) (mem : MemCode) {t : State} (ht : u.jobStopped r h mem = t) :
        exec (.preemptionPoint ⟨c, mem⟩) s = .next t.settle := by
      rw [hexec, if_pos hall, ← ht]
      rfl
    refine ⟨?_, ?_, ?_, ?_, ?_, ?_⟩
    · intro hmore
      rw [hexec, if_neg hmore]
      rfl
    · intro hall hpf habort hpark
      exact hstopped hall .ok (State.jobStopped_of_displaced (j := h) (hglb ▸ hpf) habort hpark)
    · intro hall hpf habort hpark
      exact hstopped hall .ok (State.jobStopped_of_parked (j := h) (hglb ▸ hpf) habort hpark)
    · intro hall hpf habort hmem
      exact ⟨_, hstopped hall mem (State.jobStopped_of_memErr (j := h) (hglb ▸ hpf) habort hmem)⟩
    · intro hall hpf habort
      obtain ⟨pc, hpc⟩ := State.jobStopped_of_abort (s := u) (r := r) (j := h) (hglb ▸ hpf) habort mem
      exact ⟨pc, hstopped hall mem hpc⟩
    · intro hall hpf
      obtain ⟨cs, hcs⟩ := State.jobStopped_of_pf (s := u) (r := r) (j := h) (hglb ▸ hpf) mem
      exact ⟨_, hstopped hall mem hcs, rfl, State.updJob_host _ _ _, State.updJob_hostOpen _ _ _⟩
  · exact fun r slot j mem hjob hj h => exec_preemptionPoint_of_runs hjob hj h mem
  · intro st
    rw [State.saveJob_job hj j st]
    exact ⟨rfl, fun c hc k => State.saveJob_core hj j st hc k, rfl⟩
  · intro hrun mem
    simp only [exec, execJobResume, hrun, Bool.false_eq_true, if_false, done]
  · exact exec_jobResume_of_not_displaced hj
  · intro hrun hstage hfree
    refine ⟨s.resumed r j, exec_jobResume_of_displaced hrun hj hstage hfree, State.resumed_job hj, ?_⟩
    intro k v hk hone hv q
    obtain ⟨k₀, now, hq⟩ := State.resumed_core (s := s) (r := r) hk hone hv
    have hrestored : q = k₀.restore now v := hq
    rw [hrestored]
    exact Core.restore_eq k₀ now v

end Sys2Proof.Machine

/-! The commands at the head of a ring: NOP, JOB, FENCE_INIT, the control commands, RELEASE (R245, R247, R288, R291, R297, R307). -/

namespace Sys2Proof.Machine

/-! ### The row of a command and the head of its ring -/

section
variable {s : State} {r opc : Nat} {d : Desc} (act : State → Desc → State)

theorem State.headRow_of_absent (h : s.headFor r opc = none) : s.headRow r opc act = s := by
  rw [State.headRow, h]

theorem State.headRow_of_some (h : s.headFor r opc = some d) : s.headRow r opc act = act s d := by
  rw [State.headRow, h]

end

/-- A command that is not at the head of its ring changes nothing. -/
theorem done_headRow_of_absent {s : State} {r opc : Nat} (act : State → Desc → State) (h : s.headFor r opc = none) :
    done (s.headRow r opc act) = .next s.settle := by
  rw [State.headRow_of_absent act h, done]

theorem done_headRow_of_some {s : State} {r opc : Nat} {d : Desc} (act : State → Desc → State) (h : s.headFor r opc = some d) :
    done (s.headRow r opc act) = .next (act s d).settle := by
  rw [State.headRow_of_some act h, done]

/-! ### The state of a ring under RESUME and STOP (R307) -/

theorem State.resumeRing_ring_st {s : State} {r : Nat} (h : (s.ring r).st ≠ .absent) : ((s.resumeRing r).ring r).st = .active := by
  have hst : ((s.updRing r fun x => { x with st := if x.st = .absent then .absent else .active }).ring r).st = .active := by
    rw [State.updRing_ring, if_pos rfl]
    exact if_neg h
  unfold State.resumeRing
  dsimp only
  split
  · split_ifs
    · obtain ⟨cs, hcs⟩ := State.unhalt_eq (s.updRing r fun x => { x with st := if x.st = .absent then .absent else .active }) r
      rw [State.updJob_ring_of, hcs]
      exact hst
    · exact hst
  · exact hst

/-- RESUME makes a parked job displaced, which it then resumes from (R258), and leaves any other job as it is. -/
theorem State.resumeRing_job {s : State} {r : Nat} {j : Job} (hj : s.job? r = some j) :
    ((s.resumeRing r).job? r).map (·.stage) = some (if j.stage = .parkedNan ∨ j.stage = .parkedRes then .displaced else j.stage) := by
  have hj' : (s.updRing r fun x => { x with st := if x.st = .absent then .absent else .active }).job? r = some j := hj
  unfold State.resumeRing
  simp only [hj']
  split_ifs with hpark
  · obtain ⟨cs, hcs⟩ := State.unhalt_eq (s.updRing r fun x => { x with st := if x.st = .absent then .absent else .active }) r
    rw [hcs, State.updJob_job, if_pos rfl]
    exact congrArg (fun o : Option Job => (o.map fun y => { y with stage := .displaced }).map (·.stage)) hj
  · rw [hj']
    rfl

/-! ### FENCE_INIT (R297) -/

theorem State.setFence_fence (s : State) (f : Nat) (x : Fence) :
    ((s.setFence f x).fence? f).map (fun y => (y.value, y.ctx)) = some (x.value, x.ctx) := by
  rw [State.setFence, State.mirrorFence, State.fence?, State.hostWrite_fences, Sparse.find_put, if_pos rfl]
  rfl

/-- Settles O44: a command's row runs its effect exactly when its command stands at the head of the ring. -/
theorem headCommandsRunAndComplete : Obligations.HeadCommandsRunAndComplete := by
  unfold Obligations.HeadCommandsRunAndComplete
  intro r s
  refine ⟨done_headRow_of_absent _, done_headRow_of_absent _, fun _ => done_headRow_of_absent _,
    fun _ h => ⟨done_headRow_of_absent _ h, done_headRow_of_absent _ h⟩, done_headRow_of_absent _, fun _ => done_headRow_of_absent _,
    done_headRow_of_absent _, done_headRow_of_absent _, done_headRow_of_absent _, done_headRow_of_absent _,
    fun d h => done_headRow_of_some _ h, ?_, ?_, ?_, ?_, fun d h => done_headRow_of_some _ h, fun d h => done_headRow_of_some _ h⟩
  · intro d h hnew
    refine (done_headRow_of_some _ h).trans ?_
    rw [if_neg (by simp [hnew])]
  · intro d h hstarted
    refine (done_headRow_of_some _ h).trans ?_
    rw [if_pos hstarted]
  · exact fun d h => ⟨done_headRow_of_some _ h, s.setFence_fence _ _⟩
  · exact fun d h => ⟨done_headRow_of_some _ h, State.resumeRing_ring_st, fun j => State.resumeRing_job⟩

end Sys2Proof.Machine

/-! STOP, ABORT, QUIESCE and RELEASE: how work ends (R245, R307). -/

namespace Sys2Proof.Machine

/-! ### STOP -/

/-- A stopped ring fetches no further bursts; it is STOPPED once none is in flight. -/
def Ring.stopping (x : Ring) : Ring := { x with st := if x.st = .absent then .absent else if x.burst.isSome then .changing else .stopped }

theorem State.stopRing_ring (s : State) (r j : Nat) : (s.stopRing r).ring j = if j = r then (s.ring r).stopping else s.ring j :=
  s.updRing_ring r _ j

theorem Ring.stopping_st {x : Ring} (h : x.st ≠ .absent) : x.stopping.st = if x.burst = none then .stopped else .changing := by
  simp only [Ring.stopping, h, if_false]
  cases x.burst with
  | none => rfl
  | some b => rfl

section
variable {s : State} {r : Nat} {d : Desc}

theorem exec_stop_of_head (h : s.headFor r 0x20 = some d) (hnew : d.started = false) : exec (.stop r) s =
    .next (if (s.ring d.target).burst.isNone then (s.stopRing d.target).finishHead r { status := 0 }
      else (s.stopRing d.target).startHead r).settle := by
  refine (done_headRow_of_some _ h).trans ?_
  simp only [hnew, Bool.false_eq_true, if_false, State.stopRing_ring, if_true, State.headOk]
  rfl

/-! ### ABORT and QUIESCE -/

theorem State.abortJob_of_none (hj : s.job? r = none) : s.abortJob r = s := by
  rw [State.abortJob, hj]

/-- The ring of an ABORT: nothing is left to accept, and every descriptor that has not started is done. -/
theorem State.abortRing_ring (hj : s.job? r = none) : ((s.abortRing r).ring r).inbox = [] ∧
    ∀ e ∈ ((s.abortRing r).ring r).queue, e.started = true ∨ e.done ≠ none := by
  have hkeep (t : State) (ht : t.jobs = s.jobs) : t.abortJob r = t := State.abortJob_of_none ((State.job_of_jobs ht r).trans hj)
  rw [State.abortRing, hkeep, State.updRing_ring, if_pos rfl]
  · refine ⟨rfl, fun e he => ?_⟩
    obtain ⟨x, -, rfl⟩ := List.mem_map.mp he
    split_ifs with hx
    · exact hx.imp_right fun hdone hnone => by simp [hnone] at hdone
    · exact .inr (Option.some_ne_none _)
  · rfl

theorem exec_abort_of_head (h : s.headFor r 0x21 = some d) (hnew : d.started = false) (hr : d.target ≠ r) : exec (.abort r) s =
    .next (if ((s.startHead r).abortRing d.target).abortDone d.target = true then
      ((s.startHead r).abortRing d.target).finishHead r { status := 0 } else (s.startHead r).abortRing d.target).settle := by
  refine (done_headRow_of_some _ h).trans ?_
  simp only [hnew, Bool.false_eq_true, if_false, hr, false_or, State.headOk]

theorem exec_quiesce_of_head (h : s.headFor r 0x23 = some d) (hnew : d.started = false) : exec (.quiesce r) s =
    .next (if (((s.ringsOf (d.by 32 2)).foldl State.stopRing s).startHead r).quiet (d.by 32 2) then
      (((s.ringsOf (d.by 32 2)).foldl State.stopRing s).startHead r).finishHead r { status := 0 }
      else ((s.ringsOf (d.by 32 2)).foldl State.stopRing s).startHead r).settle := by
  refine (done_headRow_of_some _ h).trans ?_
  simp only [hnew, Bool.false_eq_true, if_false, State.headOk]

/-! ### RELEASE (R245) -/

section
variable (h : s.headFor r 0x12 = some d)
include h

theorem exec_release_of_none (hg : s.group? d.target = none) :
    exec (.release r) s = .next (s.finishHead r { status := 0x46 }).settle := by
  refine (done_headRow_of_some _ h).trans ?_
  rw [State.releaseCmd, hg]

theorem exec_release_of_reserved {g : Group} (hg : s.group? d.target = some g) (hstage : g.stage = .reserved) :
    exec (.release r) s = .next ((s.freeGroup d.target).finishHead r { status := 0 }).settle := by
  refine (done_headRow_of_some _ h).trans ?_
  simp only [State.releaseCmd, hg, hstage, State.headOk]

theorem exec_release_of_armed {g : Group} (hg : s.group? d.target = some g) (hstage : g.stage = .armed) : exec (.release r) s
    = .next ((s.setGroup d.target { g with stage := .releasing, releaser := some r, freeable := false }).startHead r).settle := by
  refine (done_headRow_of_some _ h).trans ?_
  simp only [State.releaseCmd, hg, hstage]

end

end

section
variable {s : State} {gid : Nat} {g : Group} (hg : s.group? gid = some g)
include hg

section
variable (hstage : g.stage = .releasing) (hfree : g.freeable = true ∨ g.parked ≠ none) (hdrained : g.drained = true)
include hstage hfree hdrained

omit hg in
theorem Group.releases : g.stage = .releasing ∧ (g.freeable = true ∨ g.parked.isSome = true) ∧ g.drained = true :=
  ⟨hstage, hfree.imp_right Option.isSome_iff_ne_none.mpr, hdrained⟩

/-- A released group that fires no more and has no fired frame left is freed, and its RELEASE completes. -/
theorem exec_groupReleaseEffect_of_releaser {q : Nat} (hq : g.releaser = some q) : exec (.groupReleaseEffect gid) s =
    .next (((s.kennelForget gid).freeGroup gid).finishHead q { status := 0 }).settle := by
  simp only [exec, execGroupReleaseEffect, State.releaseEffect, hg, Group.releases hstage hfree hdrained, hq, and_self, if_true,
    State.headOk, done]

theorem exec_groupReleaseEffect_of_no_releaser (hq : g.releaser = none) : exec (.groupReleaseEffect gid) s =
    .next ((s.kennelForget gid).freeGroup gid).settle := by
  simp only [exec, execGroupReleaseEffect, State.releaseEffect, hg, Group.releases hstage hfree hdrained, hq, and_self, if_true, done]

end

theorem exec_groupReleaseEffect_of_waiting (h : g.stage ≠ .releasing ∨ (g.freeable = false ∧ g.parked = none) ∨ g.drained = false) :
    exec (.groupReleaseEffect gid) s = .next s.settle := by
  have hstop : ¬ (g.stage = .releasing ∧ (g.freeable = true ∨ g.parked.isSome = true) ∧ g.drained = true) := by
    rintro ⟨hstage, hfree, hdrained⟩
    rcases h with h | ⟨hf, hp⟩ | h
    · exact h hstage
    · simp [hf, hp] at hfree
    · exact Bool.noConfusion (h.symm.trans hdrained)
  simp only [exec, execGroupReleaseEffect, State.releaseEffect, hg, hstop, if_false, done]

end

/-- Settles O45: by the cases of each command, with what STOP and ABORT do to their ring. -/
theorem stopAbortQuiesceAndRelease : Obligations.StopAbortQuiesceAndRelease := by
  unfold Obligations.StopAbortQuiesceAndRelease
  intro r s d
  refine ⟨?_, ?_, ?_, exec_quiesce_of_head, ?_, ?_, fun gid g hg => exec_groupReleaseEffect_of_waiting hg⟩
  · intro h hnew
    rw [exec_stop_of_head h hnew]
    refine ⟨fun hburst => ?_, fun hburst => ?_⟩
    · rw [hburst, Option.isNone_none, if_pos rfl]
    · rw [if_neg (by rwa [Option.isNone_iff_eq_none])]
  · intro h
    rw [State.stopRing_ring, if_pos rfl, Ring.stopping_st h]
  · intro h hnew hj hr
    obtain ⟨hinbox, hqueue⟩ := State.abortRing_ring (s := s.startHead r) (r := d.target) hj
    refine ⟨_, exec_abort_of_head h hnew hr, ?_⟩
    rw [State.settle_ring_of]
    split_ifs
    · rw [State.finishHead, State.updRing_ring, if_neg hr]
      exact ⟨hinbox, hqueue⟩
    · exact ⟨hinbox, hqueue⟩
  · exact fun h => ⟨exec_release_of_none h, fun g => exec_release_of_reserved h, fun g => exec_release_of_armed h⟩
  · exact fun gid g hg hstage hfree hdrained => ⟨fun q => exec_groupReleaseEffect_of_releaser hg hstage hfree hdrained,
      exec_groupReleaseEffect_of_no_releaser hg hstage hfree hdrained⟩

end Sys2Proof.Machine

/-! QUERY, RECLAIM and the records of freed objects (R264, R304, R305). -/

namespace Sys2Proof.Machine

section
variable {s : State} {r : Nat} {d : Desc}

/-! ### QUERY (R264) -/

theorem exec_query_of_stranger (h : s.headFor r 0x13 = some d)
    (hno : (s.groups.any fun e => e.2.members.any fun m => m.stream == d.target) = false) (mem : MemCode) :
    exec (.query r mem) s = .next (s.finishHead r { status := 0x46 }).settle := by
  refine (done_headRow_of_some _ h).trans ?_
  rw [State.queryCmd, if_neg (by rw [hno]; exact Bool.false_ne_true)]

theorem exec_query_of_member (h : s.headFor r 0x13 = some d)
    (hmember : (s.groups.any fun e => e.2.members.any fun m => m.stream == d.target) = true) : exec (.query r .ok) s =
    .next (((s.hostWrite (d.by 40 8) (s.leashOf d.target).bytes).updLeash d.target fun l =>
      { l with slackMin := 0x7FFFFFFF#32 }).finishHead r { status := 0 }).settle := by
  refine (done_headRow_of_some _ h).trans ?_
  rw [State.queryCmd, if_pos hmember]
  rfl

/-! ### RECLAIM (R305) -/

theorem exec_reclaim_of_inUse (h : s.headFor r 0x14 = some d) (hnew : d.started = false)
    (huse : (objIdx (d.by 32 1 % 32) (d.by 33 1), (s.objGen (objIdx (d.by 32 1 % 32) (d.by 33 1)) + 1) % 256) ∈ s.sd.refs) :
    exec (.reclaim r) s = .next (s.finishHead r { status := 0x49 }).settle := by
  refine (done_headRow_of_some _ h).trans ?_
  simp only [hnew, Bool.false_eq_true, if_false, State.reclaimObj, List.contains_iff_mem.mpr huse, if_true]

theorem exec_reclaim_of_free (h : s.headFor r 0x14 = some d) (hnew : d.started = false)
    (hfree : (objIdx (d.by 32 1 % 32) (d.by 33 1), (s.objGen (objIdx (d.by 32 1 % 32) (d.by 33 1)) + 1) % 256) ∉ s.sd.refs)
    (hheld : (s.core (d.by 32 1 % 32)).held = none) : exec (.reclaim r) s =
    .next ((s.startHead r).commitEntry (d.by 32 1 % 32) ⟨false, d.by 33 1,
      (Sparse.get (0 : DWord) (s.core (d.by 32 1 % 32)).handles (d.by 33 1) &&& ~~~0xFF00#64) |||
        dword ((s.objGen (objIdx (d.by 32 1 % 32) (d.by 33 1)) + 1) % 256 * 256), some r⟩).settle := by
  refine (done_headRow_of_some _ h).trans ?_
  have hno : s.sd.refs.contains (objIdx (d.by 32 1 % 32) (d.by 33 1), (s.objGen (objIdx (d.by 32 1 % 32) (d.by 33 1)) + 1) % 256)
      = false := by simpa using hfree
  simp only [hnew, Bool.false_eq_true, if_false, State.reclaimObj, hno, hheld, Option.isSome_none]

/-! ### Object records (R304) -/

/-- The state with an object's report taken up: its HOST_REF is read. -/
def State.reported (s : State) (o : Nat) : State := { s with sd := { s.sd with freed := s.sd.freed.erase o } }

theorem exec_objectRecord_of_kept {o : Nat} (h : s.sd.freed.contains o = false) (mem : MemCode) :
    exec (.objectRecord o mem) s = .next s.settle := by
  simp only [exec, execObjectRecord, State.objectRecord, h, Bool.false_eq_true, if_false, done]

section
variable {o : Nat} (h : s.sd.freed.contains o = true)
include h

theorem exec_objectRecord_of_freed : exec (.objectRecord o .ok) s =
    .next (if s.hostNat (addr48 s.sd.objLo s.sd.objHi + 16 * o) 4 = 0 ∧ s.sd.objNotify.getLsbD 15 = true then
      (s.reported o).notify (wbits s.sd.objNotify 11 0) { tag := o, status := 0, kind := 2, aux32 := s.objGen o }
      else s.reported o).settle := by
  simp only [exec, execObjectRecord, State.objectRecord, h, if_true, ne_eq, not_true_eq_false, if_false, done]
  rfl

theorem exec_objectRecord_of_memErr {mem : MemCode} (hmem : mem ≠ .ok) : exec (.objectRecord o mem) s =
    .next ((s.reported o).memErr mem false (addr48 s.sd.objLo s.sd.objHi + 16 * o) .control).settle := by
  simp only [exec, execObjectRecord, State.objectRecord, h, if_true, hmem, ne_eq, not_false_eq_true, done]
  rfl

end

end

/-- Settles O47: by the cases of QUERY, of RECLAIM and of an object's report. -/
theorem queriesReclaimsAndObjectRecords : Obligations.QueriesReclaimsAndObjectRecords := by
  unfold Obligations.QueriesReclaimsAndObjectRecords
  intro r s d
  refine ⟨fun h => ⟨exec_query_of_stranger h, exec_query_of_member h⟩,
    fun h hnew => ⟨exec_reclaim_of_inUse h hnew, exec_reclaim_of_free h hnew⟩, fun o h => exec_objectRecord_of_kept h,
    fun o h => ⟨fun hhost hnotify => ?_, fun hstays => ?_, fun mem => exec_objectRecord_of_memErr h⟩⟩
  · rw [exec_objectRecord_of_freed h, if_pos ⟨hhost, hnotify⟩]
    rfl
  · have hsilent : ¬ (s.hostNat (addr48 s.sd.objLo s.sd.objHi + 16 * o) 4 = 0 ∧ s.sd.objNotify.getLsbD 15 = true) := by
      rintro ⟨hhost, hnotify⟩
      exact hstays.elim (fun h => h hhost) fun h => Bool.noConfusion (h.symm.trans hnotify)
    rw [exec_objectRecord_of_freed h, if_neg hsilent]
    rfl

end Sys2Proof.Machine

/-! RESERVE and ARM: a group is admitted or refused with a code, and an armed group takes an entry of its pack's calendar (R242, R245,
R246, R248, R254, R420). -/

namespace Sys2Proof.Machine

/-! ### RESERVE (R245, R246) -/

/-- The address of a RESERVE's group record, and the record with its member entries. -/
def Desc.recordAt (d : Desc) : Nat := d.by 32 8
def State.recordOf (s : State) (d : Desc) : List Byte :=
  s.hostRead d.recordAt (64 + 16 * min (s.hostNat (d.recordAt + 4) 2) 512)

section
variable {s : State} {r : Nat} {d : Desc}

theorem State.admitTrace_rings (gid : Nat) (c : Cmpl) : (s.admitTrace gid c).rings = s.rings := by
  unfold State.admitTrace
  split_ifs
  · exact s.traceRec_rings _ _ _ _ _
  · rfl

theorem State.rmcLock_groups (p : Nat) (pages : List (Nat × Nat)) : (s.rmcLock p pages).groups = s.groups := by
  refine State.foldl_keeps (part := State.groups) _ ?_ s
  exact fun _ _ => rfl

theorem State.rmcLock_rings (p : Nat) (pages : List (Nat × Nat)) : (s.rmcLock p pages).rings = s.rings := by
  refine State.foldl_keeps (part := State.rings) _ ?_ s
  exact fun _ _ => rfl

/-- The state with an admitted group reserved: traced, placed, its pages locked, its power counted (R244, R254). -/
def State.reserved (s : State) (g : Group) : State :=
  (((s.admitTrace g.gid { status := 0 }).setGroup g.gid g).rmcLock g.pack g.pages).setDlPower

/-- The outcome that reports where a reserved group stands and what it costs (R245). -/
def Group.placement (g : Group) : Cmpl :=
  { status := 0, aux32 := min g.eg 0xFFFFFFFF, aux64 := g.wg % 2 ^ 32 + g.pack * 2 ^ 32 + g.coresField * 2 ^ 40 }

theorem State.reserved_group (g : Group) : (s.reserved g).group? g.gid = some g := by
  have hgroups : (s.reserved g).groups = ((s.admitTrace g.gid { status := 0 }).setGroup g.gid g).groups := by
    rw [State.reserved, State.setDlPower_groups, State.rmcLock_groups]
  rw [State.group_of_groups hgroups, State.setGroup_group, if_pos rfl]

theorem State.reserved_ring (g : Group) : (s.reserved g).ring r = s.ring r := by
  have hrings : (s.reserved g).rings = s.rings := by
    rw [State.reserved, State.setDlPower_rings, State.rmcLock_rings]
    exact s.admitTrace_rings _ _
  rw [State.ring, hrings, State.ring]

section
variable (h : s.headFor r 0x10 = some d)
include h

theorem exec_reserve_of_refused {c : Cmpl} (hc : s.admission (s.recordOf d) = .inl c) :
    exec (.reserve r .ok) s = .next ((s.admitTrace (s.hostNat (d.recordAt + 64) 2) c).finishHead r c).settle := by
  refine (done_headRow_of_some _ h).trans ?_
  rw [State.recordOf, Desc.recordAt] at hc
  simp only [State.reserve, ne_eq, not_true_eq_false, if_false, hc]
  rfl

theorem exec_reserve_of_admitted {g : Group} (hg : s.admission (s.recordOf d) = .inr g) :
    exec (.reserve r .ok) s = .next ((s.reserved g).finishHead r g.placement).settle := by
  refine (done_headRow_of_some _ h).trans ?_
  rw [State.recordOf, Desc.recordAt] at hg
  simp only [State.reserve, ne_eq, not_true_eq_false, if_false, hg]
  rfl

theorem exec_reserve_of_memErr {mem : MemCode} (hmem : mem ≠ .ok) :
    exec (.reserve r mem) s = .next ((s.memErr mem false d.recordAt .control).finishHead r { status := 0x48 }).settle := by
  refine (done_headRow_of_some _ h).trans ?_
  rw [State.reserve, if_pos hmem]
  rfl

end

/-! ### ARM's answer (R245, R246, R420) -/

/-- ARM goes on at once, and after the scan that it waited for. -/
theorem exec_arm_and_armAfterScan (h : s.headFor r 0x11 = some d) (mem : MemCode) {t : State} (ht : s.armCmd r d mem = t) :
    (d.started = false → exec (.arm r mem) s = .next t.settle) ∧
    (d.started = true → s.kennel.scanning = false → exec (.armAfterScan r mem) s = .next t.settle) := by
  refine ⟨fun hnew => ?_, fun hstarted hscan => ?_⟩
  · refine (done_headRow_of_some _ h).trans ?_
    simp only [hnew, Bool.false_eq_true, if_false, ht]
  · refine (done_headRow_of_some _ h).trans ?_
    simp only [hstarted, hscan, Bool.not_false, Bool.and_self, if_true, ht]

theorem State.armCmd_of_refused {c : Cmpl} (hc : s.armCheck d = .inl c) (mem : MemCode) :
    s.armCmd r d mem = (s.admitTrace d.target c).finishHead r c := by
  rw [State.armCmd, hc]

theorem State.armCmd_of_waiting {g : Group} (hg : s.armCheck d = .inr g) (hwait : s.armWaits g = true) (mem : MemCode) :
    s.armCmd r d mem = s.startHead r := by
  simp only [State.armCmd, hg, hwait, if_true]

theorem State.armCmd_of_ready {g : Group} (hg : s.armCheck d = .inr g) (hgo : s.armWaits g = false) (mem : MemCode) :
    s.armCmd r d mem = s.armNow r d g mem := by
  simp only [State.armCmd, hg, hgo, Bool.false_eq_true, if_false]

end

/-! ### An armed group (R242, R248) -/

/-- The objects that an arming still has to reference, beside those held since acceptance. -/
def State.armMore (s : State) (g : Group) (held : List (Nat × Nat)) : List (Nat × Nat) := (s.armRefs g).filter fun o => !held.contains o

/-- The lowest free entry of the group's calendar. -/
def State.freeEntry (s : State) (g : Group) : Nat :=
  ((List.range 512).find? fun i => !((s.pack g.pack).entries.map (·.1)).contains i).getD 0

/-- A group as it is armed, with the calendar entry and the references that it takes, its first frame `n`. -/
def Group.armed (g : Group) (entry n : Nat) (refs : List (Nat × Nat)) : Group :=
  { g with
    stage := .armed, entry := entry, refs := refs, gens := seedGens g.seed g.nslot, nextClose := n, oldest := n
    lastClose := none, frames := [], parked := none, shadow := false, moves := []
    tileFrames := [], doneAt := 0, freeable := false, releaser := none }

theorem State.takeRefs_tbs (s : State) (os : List (Nat × Nat)) : (s.takeRefs os).tbs = s.tbs := by
  refine State.foldl_keeps (part := State.tbs) _ ?_ s
  exact fun t o => State.hostWrite_tbs _ _ _

theorem State.takeRefs_kennel (s : State) (os : List (Nat × Nat)) : (s.takeRefs os).kennel = s.kennel := by
  refine State.foldl_keeps (part := State.kennel) _ ?_ s
  exact fun t o => State.hostWrite_kennel _ _ _

theorem State.firstFrame_of_tbs {s u : State} (h : u.tbs = s.tbs) (g : Group) : u.firstFrame g = s.firstFrame g := by
  rw [State.firstFrame, State.firstFrame, State.tb, h, ← State.tb]

/-- The FX slots that a group's copies name, pinned. -/
def State.fxPinned (s : State) (g : Group) : State := (s.fxOf g).foldl (fun t (c, i) => t.pin c i true) s

theorem State.fxPinned_groups (s : State) (g : Group) : (s.fxPinned g).groups = s.groups := by
  refine State.foldl_keeps (part := State.groups) _ ?_ s
  exact fun t x => State.updCore_groups _ _ _

theorem State.fxPinned_kennel (s : State) (g : Group) : (s.fxPinned g).kennel = s.kennel := by
  refine State.foldl_keeps (part := State.kennel) _ ?_ s
  exact fun t x => State.updCore_kennel _ _ _

/-- While Kennel does not act it replays nothing. -/
theorem State.kennelArm_of_inactive {s : State} (h : s.kennel.active = false) (gid : Nat) (mem : MemCode) : s.kennelArm gid mem = s := by
  rw [State.kennelArm, h]

/-- The state with the armed group in place, its ports cleared and its FX slots pinned. -/
def State.armPlaced (s : State) (gid : Nat) (h : Group) : State := ((s.setGroup gid h).clearPorts gid).fxPinned h

theorem State.armPlaced_group (s : State) (gid : Nat) (h : Group) : (s.armPlaced gid h).group? gid = some h := by
  rw [State.armPlaced, State.group_of_groups (State.fxPinned_groups _ _)]
  exact (State.setGroup_group _ _ _ _).trans (if_pos rfl)

/-- The calendar of a group's pack with the group's entry in it, its next close that of frame `n` (R248). -/
def State.calEntered (s : State) (h : Group) (n : Nat) : State :=
  s.updPack h.pack fun p => { p with entries := p.entries.put h.entry (s.calEntry h (dword (h.closeAt n))) }

theorem State.calEntered_group (s : State) (h : Group) (n gid : Nat) : (s.calEntered h n).group? gid = s.group? gid := rfl

theorem State.calEntered_find (s : State) (h : Group) (n : Nat) :
    ((s.calEntered h n).pack h.pack).entries.find? (fun x => x.1 == h.entry) = some (h.entry, s.calEntry h (dword (h.closeAt n))) := by
  rw [State.calEntered, State.updPack_pack, if_pos rfl, Sparse.find_put, if_pos rfl]

/-- The arming of a group once its references are taken: placed, replayed, and in its pack's calendar from its first frame on. -/
theorem State.armGroup_eq_calEntered (s : State) (gid : Nat) (g : Group) (held : List (Nat × Nat)) (mem : MemCode) :
    s.armGroup gid g held mem =
      let t := s.takeRefs (s.armMore g held)
      let h := g.armed (t.freeEntry g) (t.firstFrame g) (held ++ s.armMore g held)
      (((t.armPlaced gid h).kennelArm gid mem).calEntered h (t.firstFrame g)).setDlPower := by
  simp only [State.armGroup, State.calEntered, State.armPlaced, State.fxPinned, Group.armed, State.freeEntry, State.armMore]

/-- What an arming comes to while Kennel does not act: the armed group, placed, in its pack's calendar. -/
theorem State.armGroup_eq {s : State} (hk : s.kennel.active = false) (gid : Nat) (g : Group) (held : List (Nat × Nat)) (mem : MemCode) :
    ∃ (entry : Nat) (refs : List (Nat × Nat)) (u : State), u.group? gid = some (g.armed entry (s.firstFrame g) refs) ∧
      s.armGroup gid g held mem = (u.calEntered (g.armed entry (s.firstFrame g) refs) (s.firstFrame g)).setDlPower := by
  have hn : (s.takeRefs (s.armMore g held)).firstFrame g = s.firstFrame g := State.firstFrame_of_tbs (s.takeRefs_tbs _) g
  refine ⟨(s.takeRefs (s.armMore g held)).freeEntry g, held ++ s.armMore g held, _, State.armPlaced_group
    (s.takeRefs (s.armMore g held)) gid _, ?_⟩
  have hkennel (h : Group) : ((s.takeRefs (s.armMore g held)).armPlaced gid h).kennel.active = false := by
    rw [State.armPlaced, State.fxPinned_kennel]
    exact (congrArg Kennel.active (s.takeRefs_kennel _)).trans hk
  rw [State.armGroup_eq_calEntered]
  dsimp only
  rw [State.kennelArm_of_inactive (hkennel _), hn]

/-- The armed group stands at its first frame with none fired, and holds an entry of its pack's calendar for that frame's close. -/
theorem State.armGroup_armed {s : State} (hk : s.kennel.active = false) (gid : Nat) (g : Group) (held : List (Nat × Nat)) (mem : MemCode) :
    (((s.armGroup gid g held mem).group? gid).map fun x => (x.stage, x.nextClose, x.oldest, x.frames, x.gens)) =
      some (.armed, s.firstFrame g, s.firstFrame g, [], seedGens g.seed g.nslot) ∧
    ∃ i e, ((s.armGroup gid g held mem).pack g.pack).entries.find? (fun x => x.1 == i) = some (i, e) ∧
      e.next = dword (g.closeAt (s.firstFrame g)) ∧ e.p = g.p ∧ e.budget = 256 ∧ e.suspended = false := by
  obtain ⟨entry, refs, u, hgroup, hu⟩ := State.armGroup_eq hk gid g held mem
  have hfound := u.calEntered_find (g.armed entry (s.firstFrame g) refs) (s.firstFrame g)
  rw [hu]
  refine ⟨?_, entry, u.calEntry (g.armed entry (s.firstFrame g) refs) (dword (g.closeAt (s.firstFrame g))), ?_, rfl, rfl, rfl, rfl⟩
  · rw [State.group_of_groups (State.setDlPower_groups _), State.calEntered_group, hgroup]
    rfl
  · rw [State.pack_of_packs (State.setDlPower_packs _)]
    exact hfound

/-- Settles O46: by the cases of RESERVE and of ARM, and what an arming leaves in the group and in its pack's calendar. -/
theorem groupsAreReservedAndArmed : Obligations.GroupsAreReservedAndArmed := by
  unfold Obligations.GroupsAreReservedAndArmed
  intro r s d
  refine ⟨fun h => ⟨fun c => exec_reserve_of_refused h, fun g hg => ?_, fun mem => exec_reserve_of_memErr h⟩,
    fun mem h => ⟨?_, ?_, ?_⟩, ?_⟩
  · refine ⟨_, exec_reserve_of_admitted h hg, ?_, fun q rest hq => ?_⟩
    · rw [State.settle_group_of, State.finishHead, State.updRing_group_of, State.reserved_group]
    · rw [State.settle_ring_of, State.finishHead, State.updRing_ring, if_pos rfl, State.reserved_ring, Ring.updHead, hq]
      rfl
  · exact fun c hc => exec_arm_and_armAfterScan h mem (State.armCmd_of_refused hc mem)
  · exact fun g hg hwait => exec_arm_and_armAfterScan h mem (State.armCmd_of_waiting hg hwait mem)
  · exact fun g hg hgo => exec_arm_and_armAfterScan h mem (State.armCmd_of_ready hg hgo mem)
  · exact fun gid g held mem hk => State.armGroup_armed hk gid g held mem

end Sys2Proof.Machine

/-! Fence values and their comparison (R298). -/

namespace Sys2Proof.Machine

theorem fenceReached_iff (v w : DWord) : fenceReached v w = true ↔ (v.toNat + 2 ^ 64 - w.toNat) % 2 ^ 64 < 2 ^ 63 := by
  have hdist : (v - w).toNat = (v.toNat + 2 ^ 64 - w.toNat) % 2 ^ 64 := by
    rw [BitVec.toNat_sub]
    congr 1
    omega
  rw [fenceReached, decide_eq_true_iff, hdist]

/-- The distance 2^63 is its own opposite. -/
theorem toNat_sub_eq_half_comm {v w : DWord} (h : (v - w).toNat = 2 ^ 63) : (w - v).toNat = 2 ^ 63 := by
  rw [BitVec.toNat_sub] at h ⊢
  omega

theorem fenceReached_of_half {v w : DWord} (h : (v - w).toNat = 2 ^ 63) : fenceReached v w = false :=
  decide_eq_false h.not_lt

/-- Settles O58: the comparison is of the distance mod 2^64, which is 0 from a value to itself and 2^63 in both directions or in none. -/
theorem fenceValuesAreComparedBySerialNumber : Obligations.FenceValuesAreComparedBySerialNumber := by
  unfold Obligations.FenceValuesAreComparedBySerialNumber
  refine ⟨fenceReached_iff, fun v => ?_, fun v w h => ⟨fenceReached_of_half h, fenceReached_of_half (toNat_sub_eq_half_comm h)⟩⟩
  rw [fenceReached_iff, Nat.add_sub_cancel_left]
  decide

end Sys2Proof.Machine

/-! REGISTER_WRITE at the masks, records and limits (R313, R403, R424, R425, R434). -/

namespace Sys2Proof.Machine

section
variable {v : Word} {acc : Acc} {s : State}

/-- A granted write of a register acts on the answered state. -/
theorem exec_registerWrite_of_grants {a : Nat} (hg : s.grants (regAddr a) acc = true) :
    exec (.registerWrite a v acc) s = .next ((s.answered acc).writeReg (regAddr a) v acc).settle := exec_of_cfgWrite rfl hg rfl

theorem exec_limitWrite_of_grants (hg : s.grants 0x2044 acc = true) :
    exec (.limitWrite v acc) s = .next ((s.answered acc).limitWrite v).settle := exec_of_cfgWrite rfl hg rfl

/-- LIMIT takes its 16 bits up to its ceiling (R434). -/
theorem State.limitWrite_of_le (h : wbits v 15 0 ≤ 60000) :
    s.limitWrite v = { s with power := { s.power with limit := v &&& 0xFFFF#32 } } := if_neg h.not_gt

theorem State.limitWrite_of_gt (h : 60000 < wbits v 15 0) : s.limitWrite v = s := if_pos h

variable (hrun : s.running = true) (hpriv : acc.priv = true)
include hrun hpriv

/-- GLB acts in every stage, so a privileged initiator may write each of its registers. -/
theorem State.grants_glb {a : Nat} (hk : pageKind a = .glb) (hkey : isKeySlot a = false) (hreg : pageReg .glb (a % 0x1000) = true) :
    s.grants a acc = true := by
  simp [State.grants, writeAllowed, State.pageActs, hrun, hpriv, hk, hkey, hreg]

/-- SHEEPDOG acts from EARLY on. -/
theorem State.grants_sheepdog {a : Nat} (hearly : s.early = true) (hk : pageKind a = .sheepdog) (hkey : isKeySlot a = false)
    (hreg : pageReg .sheepdog (a % 0x1000) = true) : s.grants a acc = true := by
  simp [State.grants, writeAllowed, State.pageActs, hrun, hpriv, hearly, hk, hkey, hreg]

end

/-- Settles O9: a granted write of each register is the write of its field, LIMIT by its ceiling. -/
theorem registerWritesReachTheirFields : Obligations.RegisterWritesReachTheirFields := by
  unfold Obligations.RegisterWritesReachTheirFields
  refine ⟨fun v acc s hrun hpriv => ⟨?_, ?_, ?_, fun hearly => ?_, fun hearly => ?_⟩, fun v acc s hg => ⟨fun h => ?_, fun h => ?_⟩⟩
  -- At an address that is written out, `writeReg` is the write of its field.
  · exact exec_registerWrite_of_grants (State.grants_glb hrun hpriv rfl rfl rfl)
  · exact exec_registerWrite_of_grants (State.grants_glb hrun hpriv rfl rfl rfl)
  · exact exec_registerWrite_of_grants (State.grants_glb hrun hpriv rfl rfl rfl)
  · exact exec_registerWrite_of_grants (State.grants_sheepdog hrun hpriv hearly rfl rfl rfl)
  · exact exec_registerWrite_of_grants (State.grants_sheepdog hrun hpriv hearly rfl rfl rfl)
  · rw [exec_limitWrite_of_grants hg, State.limitWrite_of_le h]
    rfl
  · rw [exec_limitWrite_of_grants hg, State.limitWrite_of_gt h]

end Sys2Proof.Machine

/-! Doorbells and RING_CMD (R282 to R284, R309, R312, R314). -/

namespace Sys2Proof.Machine

/-! ### Doorbells (R284, R312) -/

theorem pageKind_dbAddr {r off : Nat} (hr : r < 4096) (hoff : off < 8) : pageKind (dbAddr r off) = .doorbell := by
  have hpage : 64 ≤ (0x40000 + 8 * r + off) / 0x1000 ∧ (0x40000 + 8 * r + off) / 0x1000 < 72 := by omega
  rw [dbAddr, if_pos hr]
  unfold pageKind
  generalize (0x40000 + 8 * r + off) / 0x1000 = n at hpage ⊢
  dsimp only
  rw [if_neg (by omega), if_neg (by omega), if_neg (by omega), if_neg (by omega), if_pos hpage]

/-- Every initiator may write a doorbell of an engine that has reached EARLY: R284 decides what it does. -/
theorem State.grants_doorbell {s : State} {r off : Nat} (acc : Acc) (hr : r < 4096) (hoff : off < 8) (hrun : s.running = true)
    (hearly : s.early = true) : s.grants (dbAddr r off) acc = true := by
  simp [State.grants, writeAllowed, State.pageActs, pageReg, pageKind_dbAddr hr hoff, hrun, hearly]

section
variable {r : Nat} {v : Word} {acc : Acc} {s : State} (hr : r < 4096) (hrun : s.running = true) (hearly : s.early = true)
include hr hrun hearly

theorem exec_dbLo_of_early : exec (.dbLo r v acc) s = .next ((s.answered acc).updRing r fun y => { y with staged := v }).settle :=
  exec_of_cfgWrite rfl (State.grants_doorbell acc hr (by decide) hrun hearly) rfl

theorem exec_dbHi_of_early {u : State} (hu : (s.answered acc).presentDoorbell r v acc = u) :
    exec (.dbHi r v acc) s = .next u.settle :=
  exec_of_cfgWrite rfl (State.grants_doorbell acc hr (by decide) hrun hearly) hu

end

section
variable {s : State} {r : Nat} {v : Word} {acc : Acc}

theorem State.presentDoorbell_of_accepted (h : (s.ring r).refuses (v ++ (s.ring r).staged) acc = none) :
    s.presentDoorbell r v acc = s.updRing r fun y => { y with tail := v ++ (s.ring r).staged } := by
  rw [State.presentDoorbell, h]

/-- A refusal stages the low word of TAIL again, raises DB_REJECT, and fills DB_REJ while that is free (R284, R313). -/
theorem State.presentDoorbell_of_refused {why : Nat} (hr : r < 4096)
    (h : (s.ring r).refuses (v ++ (s.ring r).staged) acc = some why) :
    (s.presentDoorbell r v acc).cfgResp = (1, 0) ∧
    (s.presentDoorbell r v acc).ring r = { s.ring r with staged := (s.ring r).tail.truncate 32 } ∧
    ((s.presentDoorbell r v acc).hdr 1).raw = (s.hdr 1).raw ||| 1#32 ∧
    (s.presentDoorbell r v acc).sd.dbRej =
      if s.sd.dbRej.getLsbD 0 then s.sd.dbRej else word (1 + why * 2 + r * 16 + acc.ctx.toNat * 65536) := by
  have hring : ((s.updRing r fun y => { y with staged := y.tail.truncate 32 }).raise pgSheepdog 0).ring r =
      { s.ring r with staged := (s.ring r).tail.truncate 32 } := by
    rw [State.raise_ring_of, State.updRing_ring, if_pos rfl]
  have hraw := (s.updRing r fun y => { y with staged := y.tail.truncate 32 }).raise_hdr_raw pgSheepdog 0
  simp only [State.presentDoorbell, h, State.raise_sd, State.updRing_sd, Nat.mod_eq_of_lt hr]
  split_ifs with hvalid
  · exact ⟨rfl, hring, hraw, rfl⟩
  · exact ⟨rfl, hring, hraw, rfl⟩

end

/-! ### The refusals of R284 -/

section
variable {x : Ring} {tail : DWord} {acc : Acc}

theorem Ring.refuses_absent_iff : x.refuses tail acc = some 0 ↔ x.st = .absent := by
  unfold Ring.refuses
  split_ifs <;> simp_all

theorem Ring.refuses_context_iff :
    x.refuses tail acc = some 1 ↔ x.st ≠ .absent ∧ acc.ctx ≠ x.ctx ∧ acc.priv = false := by
  unfold Ring.refuses
  split_ifs <;> simp_all

theorem Ring.back_of_refuses (h : x.refuses tail acc = some 2) : 2 ^ 63 ≤ (tail - x.tail).toNat := by
  by_contra hfwd
  rw [Ring.refuses, if_neg hfwd] at h
  split_ifs at h <;> cases h

theorem Ring.fits_of_accepts (h : x.refuses tail acc = none) (hcls : x.cls ≠ 3) :
    (tail - dword x.completed).toNat ≤ 2 ^ x.log2n := by
  unfold Ring.refuses at h
  split_ifs at h
  exact Nat.not_lt.mp ‹_›

end

/-! ### RING_CMD (R283) -/

/-- The ring and the operation that a word of RING_CMD names. -/
theorem wbits_ringCmd {r op : Nat} (hr : r < 4096) (hop : op < 4) :
    wbits (word (r + 4096 * op)) 11 0 = r ∧ wbits (word (r + 4096 * op)) 13 12 = op := by
  simp only [wbits, word, BitVec.toNat_ofNat, Nat.shiftRight_eq_div_pow]
  omega

section
variable {r : Nat} {acc : Acc} {mem : MemCode} {s : State} (hr : r < 4096) (hg : s.grants 0x1088 acc = true)
include hr hg

/-- A granted CREATE is the creation in the answered state. -/
theorem exec_create_of_grants {u : State} (hu : (s.answered acc).ringCreate r mem = u) :
    exec (.create r acc mem) s = .next u.settle := by
  obtain ⟨hring, hop⟩ := wbits_ringCmd hr (op := 1) (by decide)
  refine exec_of_cfgWrite rfl hg ?_
  rw [Nat.mod_eq_of_lt hr, State.ringCmd, hring, hop]
  exact hu

theorem exec_destroy_of_grants {u : State} (hu : (s.answered acc).ringDestroy r = u) :
    exec (.destroy r acc) s = .next u.settle := by
  obtain ⟨hring, hop⟩ := wbits_ringCmd hr (op := 2) (by decide)
  refine exec_of_cfgWrite rfl hg ?_
  rw [Nat.mod_eq_of_lt hr, State.ringCmd, hring, hop]
  exact hu

end

section
variable {s : State} {r : Nat}

/-- The record that RING_REC names. -/
def State.ringRec (s : State) : List Byte := s.hostRead (addr48 s.sd.recLo s.sd.recHi / 64 * 64) 64

theorem State.ringCreate_of_exists (h : (s.ring r).st ≠ .absent) (mem : MemCode) : s.ringCreate r mem = s.ringResult r 1 := if_pos h

section
variable (h : (s.ring r).st = .absent)
include h

theorem State.ringCreate_of_memErr {mem : MemCode} (hmem : mem ≠ .ok) :
    s.ringCreate r mem = (s.memErr mem false (addr48 s.sd.recLo s.sd.recHi) .control).ringResult r 3 := by
  simp only [State.ringCreate, ne_eq, h, not_true_eq_false, if_false, hmem, not_false_eq_true, if_true]

theorem State.ringCreate_of_badFields (hbad : s.ringFieldsOk s.ringRec = false) : s.ringCreate r .ok = s.ringResult r 4 := by
  rw [State.ringRec] at hbad
  simp only [State.ringCreate, ne_eq, h, not_true_eq_false, if_false, hbad, if_true]

theorem State.ringCreate_of_badVersion (hok : s.ringFieldsOk s.ringRec = true)
    (hv : fieldAt s.ringRec 1 1 ≠ 1 ∨ fieldAt s.ringRec 0 1 ≠ 0) : s.ringCreate r .ok = s.ringResult r 5 := by
  rw [State.ringRec] at hok hv
  rw [State.ringCreate, if_neg (not_not.mpr h), if_neg (not_not.mpr rfl), if_neg (by simp [hok]), if_pos hv]

theorem State.ringCreate_of_good (hok : s.ringFieldsOk s.ringRec = true) (h1 : fieldAt s.ringRec 1 1 = 1)
    (h0 : fieldAt s.ringRec 0 1 = 0) :
    s.ringCreate r .ok = ((s.updRing r fun _ => ringOf s.ringRec).writeHead r).ringResult r 0 := by
  rw [State.ringRec] at hok h1 h0
  rw [State.ringCreate, if_neg (not_not.mpr h), if_neg (not_not.mpr rfl), if_neg (by simp [hok]), if_neg (by simp [h1, h0]), State.ringRec]

theorem State.ringDestroy_of_absent : s.ringDestroy r = s.ringResult r 2 := if_pos h

end

theorem State.ringDestroy_of_drained (hst : (s.ring r).st = .stopped) (hburst : (s.ring r).burst = none) (hin : (s.ring r).inbox = [])
    (hq : (s.ring r).queue = []) (hdone : (s.ring r).completed = (s.ring r).fetched) (hrefs : s.ringHolds r = false) :
    s.ringDestroy r = ({ s with rings := s.rings.del r } : State).ringResult r 0 := by
  simp [State.ringDestroy, hst, hburst, hin, hq, hdone, hrefs]

theorem State.ringDestroy_of_busy (h : (s.ring r).st ≠ .absent) (hbusy : (s.ring r).st ≠ .stopped ∨ (s.ring r).burst ≠ none ∨
    (s.ring r).queue ≠ [] ∨ (s.ring r).inbox ≠ [] ∨ (s.ring r).completed ≠ (s.ring r).fetched ∨ s.ringHolds r = true) :
    s.ringDestroy r = s.ringResult r 6 := by
  have hheld : (s.ring r).st ≠ .stopped ∨ (s.ring r).burst.isSome ∨ !(s.ring r).inbox.isEmpty ∨ !(s.ring r).queue.isEmpty ∨
      (s.ring r).completed ≠ (s.ring r).fetched ∨ s.ringHolds r = true := by
    simp only [Option.isSome_iff_ne_none, Bool.not_eq_true', List.isEmpty_eq_false_iff]
    tauto
  rw [State.ringDestroy, if_neg h, if_pos hheld]

end

theorem State.ringResult_stat (s : State) {r : Nat} (hr : r < 4096) (code : Nat) :
    (s.ringResult r code).sd.ringStat = word (code * 16 + r * 256) := by
  rw [State.ringResult, State.raise_sd, Nat.mod_eq_of_lt hr]

/-- Settles O42: a doorbell by whether R284 refuses it, CREATE and DESTROY by the checks of R283 in their order. -/
theorem ringsAndDoorbells : Obligations.RingsAndDoorbells := by
  unfold Obligations.RingsAndDoorbells
  refine ⟨fun r v acc s hr hrun hearly => ⟨exec_dbLo_of_early hr hrun hearly, fun h => ?_, fun why h => ?_, Ring.refuses_absent_iff,
    Ring.refuses_context_iff, Ring.back_of_refuses, Ring.fits_of_accepts⟩, fun r acc s hr hg => ⟨fun mem h => ?_,
    fun h => ⟨fun hok h1 h0 => ?_, fun hok hv => ?_, fun hbad => ?_, fun mem hmem => ?_, ?_⟩,
    fun hst hburst hin hq hdone hrefs => ?_, fun h hbusy => ?_, fun t code => ⟨t.ringResult_stat hr code, rfl⟩⟩⟩
  · exact exec_dbHi_of_early hr hrun hearly (State.presentDoorbell_of_accepted h)
  · obtain ⟨hresp, hring, hraw, hrej⟩ := State.presentDoorbell_of_refused (s := s.answered acc) hr h
    refine ⟨_, exec_dbHi_of_early hr hrun hearly rfl, ?_⟩
    rw [State.settle_cfgResp, State.settle_ring_of, State.settle_hdr_of, State.settle_sd]
    exact ⟨hresp, hring, hraw, hrej⟩
  · exact exec_create_of_grants hr hg (State.ringCreate_of_exists (s := s.answered acc) h mem)
  · exact exec_create_of_grants hr hg (State.ringCreate_of_good (s := s.answered acc) h hok h1 h0)
  · exact exec_create_of_grants hr hg (State.ringCreate_of_badVersion (s := s.answered acc) h hok hv)
  · exact exec_create_of_grants hr hg (State.ringCreate_of_badFields (s := s.answered acc) h hbad)
  · exact exec_create_of_grants hr hg (State.ringCreate_of_memErr (s := s.answered acc) h hmem)
  · exact exec_destroy_of_grants hr hg (State.ringDestroy_of_absent (s := s.answered acc) h)
  · exact exec_destroy_of_grants hr hg (State.ringDestroy_of_drained (s := s.answered acc) hst hburst hin hq hdone hrefs)
  · exact exec_destroy_of_grants hr hg (State.ringDestroy_of_busy (s := s.answered acc) h hbusy)

end Sys2Proof.Machine

/-! The way of a descriptor through its ring: fetch, acceptance, expiry of its wait, completion (R285, R286, R289, R294, R301, R303). -/

namespace Sys2Proof.Machine

/-! ### Fetch (R285) -/

theorem State.pumpChan_rings (ch fuel : Nat) (s : State) : (s.pumpChan ch fuel).rings = s.rings := by
  induction fuel generalizing s with
  | zero => rfl
  | succ fuel ih =>
    rw [State.pumpChan]
    split
    · rfl
    · exact ih _

theorem State.pumpChan_sd (ch fuel : Nat) (s : State) : (s.pumpChan ch fuel).sd = s.sd := by
  induction fuel generalizing s with
  | zero => rfl
  | succ fuel ih =>
    rw [State.pumpChan]
    split
    · rfl
    · exact ih _

theorem State.request_rings (s : State) (q : MReq) : (s.request q).rings = s.rings := State.pumpChan_rings _ _ _

theorem State.request_sd (s : State) (q : MReq) : (s.request q).sd = s.sd := State.pumpChan_sd _ _ _

theorem State.ring_of_rings {s u : State} (h : u.rings = s.rings) (r : Nat) : u.ring r = s.ring r := by
  rw [State.ring, h, State.ring]

section
variable {s : State} {r : Nat}

theorem State.fetchBurst_of_none (h : s.nextRing = none) : s.fetchBurst = s := by
  rw [State.fetchBurst, h]

/-- The size of the burst that a ring asks for: at most 8 descriptors, and none beyond the end of the ring's memory (R285). -/
def Ring.burstSize (x : Ring) : Nat := min 8 (min x.unfetched (x.nent - x.fetched % x.nent))

/-- The served ring has one burst in flight, and nothing else of Sheepdog changes. -/
theorem State.fetchBurst_of_some (h : s.nextRing = some r) :
    s.fetchBurst.ring r = { s.ring r with burst := some ((s.ring r).fetched, (s.ring r).burstSize, (s.ring r).burstSize, []) } ∧
    s.fetchBurst.sd = s.sd := by
  rw [State.fetchBurst, h]
  refine ⟨?_, State.foldl_keeps (part := State.sd) _ (fun _ _ => State.request_sd _ _) _⟩
  rw [State.ring_of_rings (State.foldl_keeps (part := State.rings) _ (fun _ _ => State.request_rings _ _) _), State.updRing_ring, if_pos rfl]
  rfl

theorem exec_descriptorFetch_of_idle (h : s.nextRing = none ∨ s.glb.pf = true ∨ s.sd.restart = true ∨ s.early = false) :
    exec .descriptorFetch s = .next s.settle := by
  simp only [exec, execDescriptorFetch, done_eq]
  rcases h with h | h | h | h
  · rw [State.fetchBurst_of_none h, ite_self]
  · simp [h]
  · simp [h]
  · simp [h]

theorem exec_descriptorFetch_of_serving (hrun : s.running = true) (hpf : s.glb.pf = false) (hrestart : s.sd.restart = false)
    (hearly : s.early = true) : exec .descriptorFetch s = .next s.fetchBurst.settle := by
  simp [exec, execDescriptorFetch, done_eq, hrun, hpf, hrestart, hearly]

end

/-! ### The first failing check (R289) -/

section
variable {s : State} {x : Ring} {d : Desc} {err : Bool}

/-- An ARM whose body has entries for slots that its group does not have. -/
def State.beyondGroup (s : State) (d : Desc) : Prop := d.opc = 0x11 ∧ ∃ g, s.group? d.target = some g ∧ d.beyond g.nslot = true

theorem State.beyondGroup_iff :
    (d.opc == 0x11 && (s.group? d.target).any fun g => d.beyond g.nslot) = true ↔ s.beyondGroup d := by
  simp [State.beyondGroup, Option.any_eq_true]

theorem State.acceptCheck_of_unread (h : err = true) : s.acceptCheck x d err = some { status := 0x48, signal := false } := by
  rw [State.acceptCheck, if_pos h]

section
variable (hread : err = false)
include hread

theorem State.acceptCheck_of_headerBad (h : headerBad d = true) : s.acceptCheck x d err = some { status := 0x43, signal := false } := by
  simp [State.acceptCheck, hread, h]

variable (hheader : headerBad d = false)
include hheader

theorem State.acceptCheck_of_classBad (h : classBad x d = true) : s.acceptCheck x d err = some { status := 0x44, signal := false } := by
  simp [State.acceptCheck, hread, hheader, h]

variable (hclass : classBad x d = false)
include hclass

theorem State.acceptCheck_of_fenceBad (h : s.fenceBad x d = true) :
    s.acceptCheck x d err = some { status := 0x45, signal := false } := by
  simp [State.acceptCheck, hread, hheader, hclass, h]

variable (hfence : s.fenceBad x d = false)
include hfence

theorem State.acceptCheck_of_bodyBad (h : bodyBad d = true ∨ s.beyondGroup d) : s.acceptCheck x d err = some { status := 0x43 } := by
  have hbody : (bodyBad d || (d.opc == 0x11 && (s.group? d.target).any fun g => d.beyond g.nslot)) = true := by
    rw [Bool.or_eq_true, State.beyondGroup_iff]
    exact h
  simp only [State.acceptCheck, hread, hheader, hclass, hfence, Bool.false_eq_true, if_false, hbody, if_true]

variable (hbody : bodyBad d = false) (hgroup : ¬ s.beyondGroup d)
include hbody hgroup

/-- Past the body, the target alone decides. -/
theorem State.acceptCheck_of_bodyGood : s.acceptCheck x d err = if s.targetBad x d then some { status := 0x46 } else none := by
  have hgood : (bodyBad d || (d.opc == 0x11 && (s.group? d.target).any fun g => d.beyond g.nslot)) = false := by
    rw [hbody, Bool.false_or, Bool.eq_false_iff, ne_eq, State.beyondGroup_iff]
    exact hgroup
  simp only [State.acceptCheck, hread, hheader, hclass, hfence, Bool.false_eq_true, if_false, hgood]

end

end

/-! ### Acceptance (R286, R289, R303) -/

/-- What acceptance makes of a descriptor: its state with the references that it takes, and the descriptor that joins the queue. -/
def State.acceptOutcome (s : State) (x : Ring) (d : Desc) (err : Bool) (mem : MemCode) : State × Desc :=
  match s.acceptCheck x d err with
  | some c => (s, { d with done := some c })
  | none =>
    if d.opc = 1 then
      let s := s.memCheck mem false (d.by 32 8) .control
      match s.acceptJob x d mem with
      | .inl c => (s, { d with done := some c })
      | .inr (seed, slots, os) => (s.takeRefs os, { d with refs := os, seed := seed, slots := slots })
    else if d.opc = 0x11 then
      match s.group? d.target with
      | some g => (s.takeRefs (s.armRefs (g.named d)), { d with refs := s.armRefs (g.named d) })
      | none => (s, d)
    else (s, d)

section
variable {s : State} {x : Ring} {d : Desc} {err : Bool}

theorem State.acceptOutcome_of_failed {c : Cmpl} (h : s.acceptCheck x d err = some c) (mem : MemCode) :
    s.acceptOutcome x d err mem = (s, { d with done := some c }) := by
  rw [State.acceptOutcome, h]

section
variable (h : s.acceptCheck x d err = none)
include h

theorem State.acceptOutcome_of_badJob {c : Cmpl} (ho : d.opc = 1) (hjob : s.acceptJob x d .ok = .inl c) :
    s.acceptOutcome x d err .ok = (s, { d with done := some c }) := by
  rw [State.acceptOutcome, h]
  simp only [ho, if_true, State.memCheck, hjob]

theorem State.acceptOutcome_of_job {seed : DWord} {slots : List JobSlot} {os : List (Nat × Nat)} (ho : d.opc = 1)
    (hjob : s.acceptJob x d .ok = .inr (seed, slots, os)) :
    s.acceptOutcome x d err .ok = (s.takeRefs os, { d with refs := os, seed := seed, slots := slots }) := by
  rw [State.acceptOutcome, h]
  simp only [ho, if_true, State.memCheck, hjob]

theorem State.acceptOutcome_of_arm {g : Group} (ho : d.opc = 0x11) (hg : s.group? d.target = some g) (mem : MemCode) :
    s.acceptOutcome x d err mem = (s.takeRefs (s.armRefs (g.named d)), { d with refs := s.armRefs (g.named d) }) := by
  rw [State.acceptOutcome, h]
  simp [ho, hg]

theorem State.acceptOutcome_of_absentGroup (ho : d.opc = 0x11) (hg : s.group? d.target = none) (mem : MemCode) :
    s.acceptOutcome x d err mem = (s, d) := by
  rw [State.acceptOutcome, h]
  simp [ho, hg]

/-- Every command but JOB and ARM is accepted as it stands. -/
theorem State.acceptOutcome_of_other (hjob : d.opc ≠ 1) (harm : d.opc ≠ 0x11) (mem : MemCode) :
    s.acceptOutcome x d err mem = (s, d) := by
  rw [State.acceptOutcome, h]
  simp only [hjob, harm, if_false]

end

end

/-- The state once Sheepdog has taken the next fetched descriptor of a ring. -/
def State.taken (s : State) (r : Nat) (rest : List (Nat × Nat × Bool)) : State := s.updRing r fun y => { y with inbox := rest }

/-- The class, the context and the state of a ring do not depend on what it has fetched, so neither do the checks. -/
theorem State.taken_acceptCheck (s : State) (r : Nat) (rest : List (Nat × Nat × Bool)) (x : Ring) (d : Desc) (err : Bool) :
    (s.taken r rest).acceptCheck x d err = s.acceptCheck x d err := by
  have hring (n : Nat) : ((s.taken r rest).ring n).st = (s.ring n).st ∧ ((s.taken r rest).ring n).cls = (s.ring n).cls ∧
      ((s.taken r rest).ring n).ctx = (s.ring n).ctx := by
    rw [State.taken, State.updRing_ring]
    split_ifs with hn
    · subst hn
      exact ⟨rfl, rfl, rfl⟩
    · exact ⟨rfl, rfl, rfl⟩
  have htarget : (s.taken r rest).targetBad x d = s.targetBad x d := by
    simp only [State.targetBad, State.targetBad.other, (hring _).1, (hring _).2.1, (hring _).2.2]
    rfl
  rw [State.acceptCheck, htarget]
  rfl

/-- A JOB's acceptance reads host memory, the cores and the queues, and no ring but by the argument. -/
theorem State.taken_acceptJob (s : State) (r : Nat) (rest : List (Nat × Nat × Bool)) (x : Ring) (d : Desc) (mem : MemCode) :
    (s.taken r rest).acceptJob x d mem = s.acceptJob x d mem := by
  rw [State.acceptJob, State.acceptJob]
  rfl

section
variable {s : State} {r seq w : Nat} {err : Bool} {rest : List (Nat × Nat × Bool)}

/-- On a ring with a queue the outcome of a descriptor's acceptance joins the end of the queue. -/
theorem exec_descriptorAccept_of_outcome {u : State} {e : Desc} (hrun : s.running = true) (hrestart : s.sd.restart = false)
    (hin : (s.ring r).inbox = (seq, w, err) :: rest) (hq : (s.ring r).queue ≠ [])
    (ho : (s.taken r rest).acceptOutcome (s.ring r) { seq := seq, w := w, accepted := s.fclk } err .ok = (u, e)) :
    exec (.descriptorAccept r .ok) s = .next (u.updRing r fun y => { y with queue := y.queue ++ [e] }).settle := by
  have haccept : s.acceptNext r .ok = u.updRing r fun y => { y with queue := y.queue ++ [e] } := by
    have hlast : (s.ring r).queue.isEmpty = false := by simpa using hq
    have heq : s.acceptNext r .ok =
        let o := (s.taken r rest).acceptOutcome (s.ring r) { seq := seq, w := w, accepted := s.fclk } err .ok
        let t := o.1.updRing r fun y => { y with queue := y.queue ++ [o.2] }
        if (s.ring r).queue.isEmpty then t.headDue r else t := by
      rw [State.acceptNext, hin]
      rfl
    rw [heq, ho, hlast]
    rfl
  simp only [exec, execDescriptorAccept, hrun, hrestart, haccept, done_eq]
  rfl

end

/-! ### The wait at the head of a ring (R301) -/

section
variable {s : State} {r : Nat}

theorem exec_waitTimeout_of_empty (hq : (s.ring r).queue = []) : exec (.waitTimeout r) s = .next s.settle := by
  simp only [exec, execWaitTimeout, hq, done_eq]

section
variable {d : Desc} {rest : List Desc} (hq : (s.ring r).queue = d :: rest)
include hq

theorem exec_waitTimeout_of_early (h : s.fclk < d.expiry) : exec (.waitTimeout r) s = .next s.settle := by
  simp only [exec, execWaitTimeout, hq, decide_eq_false h.not_ge, Bool.and_false, Bool.false_eq_true, if_false, done_eq]

/-- A wait that is still not met at its expiry completes the head with TIMEOUT. -/
theorem exec_waitTimeout_of_expired (hrun : s.running = true) (hdue : d.due ≠ none) (hwaits : d.waits = true) (hmet : d.met = false)
    (hdone : d.done = none) (h : d.expiry ≤ s.fclk) :
    exec (.waitTimeout r) s = .next (s.finishHead r { status := 0x41 }).settle := by
  have hsome : d.due.isSome = true := Option.isSome_iff_ne_none.mpr hdue
  simp only [exec, execWaitTimeout, hq, hrun, hsome, hwaits, hmet, hdone, decide_eq_true h, done_eq]
  rfl

end

end

/-! ### Completion (R294) -/

section
variable (s : State)

theorem State.ite_rings {p : Prop} [Decidable p] {a b : State} (ha : a.rings = s.rings) (hb : b.rings = s.rings) :
    (if p then a else b).rings = s.rings := by
  split_ifs
  · exact ha
  · exact hb

theorem State.writeObj_rings (o : Nat) : (s.writeObj o).rings = s.rings := s.hostWrite_rings _ _

theorem State.freedObj_rings (o : Nat) : (s.freedObj o).rings = s.rings := by
  unfold State.freedObj
  split_ifs <;> rfl

theorem State.dropRefs_rings (os : List (Nat × Nat)) : (s.dropRefs os).rings = s.rings := by
  refine State.foldl_keeps (part := State.rings) _ (fun t o => ?_) s
  dsimp only
  split_ifs
  · exact (State.freedObj_rings _ _).trans (State.writeObj_rings _ _)
  · exact State.writeObj_rings _ _
  · rfl

theorem State.fenceRegress_rings (f src : Nat) : (s.fenceRegress f src).rings = s.rings := by
  unfold State.fenceRegress
  dsimp only
  split_ifs <;> rfl

theorem State.signalFence_rings (f : Nat) (x : DWord) (src : Nat) : (s.signalFence f x src).1.rings = s.rings := by
  have hregress (e : Option (Nat × DWord)) : ((e.map fun e => s.fenceRegress f e.1).getD s).rings = s.rings := by
    cases e with
    | none => rfl
    | some e => exact s.fenceRegress_rings f e.1
  unfold State.signalFence
  split
  · rfl
  · exact s.ite_rings ((State.hostWrite_rings _ _ _).trans (hregress _)) ((State.hostWrite_rings _ _ _).trans (hregress _))

theorem State.writeHead_rings (r : Nat) : (s.writeHead r).rings = s.rings := s.hostWrite_rings _ _

theorem State.ringSignal_rings (r : Nat) : (s.ringSignal r).rings = s.rings := by
  have hmsg : (if (s.ring r).msgAddr = 0 then s else s.hostPut (s.ring r).msgAddr 4 (s.ring r).msgData.toNat).rings = s.rings := by
    split_ifs
    · rfl
    · exact s.hostPut_rings _ _ _
  unfold State.ringSignal
  dsimp only
  split
  · exact hmsg
  · exact hmsg

end

/-- Rewriting the head of a queue leaves the counts of the ring and the length of its queue. -/
theorem Ring.updHead_spec (x : Ring) (f : Desc → Desc) : (x.updHead f).completed = x.completed ∧
    (x.updHead f).queue.length = x.queue.length ∧ (x.updHead f).tail = x.tail ∧ (x.updHead f).fetched = x.fetched := by
  unfold Ring.updHead
  split
  next => exact ⟨rfl, rfl, rfl, rfl⟩
  next hq =>
    rw [hq]
    exact ⟨rfl, rfl, rfl, rfl⟩

/-- A ring once its head has completed (R286, R294). -/
def Ring.passed (x : Ring) (d : Desc) (rest : List Desc) : Ring := { x with queue := rest, completed := (d.seq + 1) % 2 ^ 64 }

/-- What a completion does before COMPLETED moves: references dropped, the fence signalled, the record written (R294). -/
def State.reportDone (s : State) (r : Nat) (d : Desc) (c : Cmpl) : State :=
  let t := s.dropRefs d.refs
  let f := if c.signal && d.signals then t.signalFence d.sfence (dword (d.by 16 8)) r else (t, false)
  if nbits d.w 8 1 = 1 then f.1.hostWrite ((s.ring r).cmplBase + 64 + 32 * (d.seq % (s.ring r).nent)) (d.record c f.2).bytes
  else f.1

/-- What it does after: the head line, and the ring's message and event when the descriptor asks for them (R294). -/
def State.announceDone (s : State) (r : Nat) (d : Desc) : State :=
  if nbits d.w 9 1 = 1 then (s.writeHead r).ringSignal r else s.writeHead r

theorem State.reportDone_rings (s : State) (r : Nat) (d : Desc) (c : Cmpl) : (s.reportDone r d c).rings = s.rings := by
  have hfence (p : Prop) [Decidable p] : (if p then (s.dropRefs d.refs).signalFence d.sfence (dword (d.by 16 8)) r
      else (s.dropRefs d.refs, false)).1.rings = s.rings := by
    split_ifs
    · exact (State.signalFence_rings _ _ _ _).trans (s.dropRefs_rings _)
    · exact s.dropRefs_rings _
  exact s.ite_rings ((State.hostWrite_rings _ _ _).trans (hfence _)) (hfence _)

theorem State.announceDone_rings (s : State) (r : Nat) (d : Desc) : (s.announceDone r d).rings = s.rings :=
  s.ite_rings ((State.ringSignal_rings _ _).trans (s.writeHead_rings r)) (s.writeHead_rings r)

section
variable {s : State} {r : Nat}

/-- A done head is reported, COMPLETED passes it, that is announced, and the next descriptor becomes due. -/
theorem State.complete_of_done {d : Desc} {rest : List Desc} {c : Cmpl} (hq : (s.ring r).queue = d :: rest) (hdone : d.done = some c) :
    s.complete r = (((s.reportDone r d c).updRing r fun y => y.passed d rest).announceDone r d).headDue r := by
  rw [State.complete, hq]
  dsimp only
  rw [hdone]
  rfl

theorem State.complete_ring {d : Desc} {rest : List Desc} {c : Cmpl} (hq : (s.ring r).queue = d :: rest) (hdone : d.done = some c) :
    ∃ f : Desc → Desc, (s.complete r).ring r = ((s.ring r).passed d rest).updHead f := by
  rw [State.complete_of_done hq hdone, State.headDue, State.updRing_ring, if_pos rfl,
    State.ring_of_rings (State.announceDone_rings _ r d), State.updRing_ring, if_pos rfl,
    State.ring_of_rings (s.reportDone_rings r d c)]
  exact ⟨_, rfl⟩

theorem exec_completion_of_running (hrun : s.running = true) : exec (.completion r) s = .next (s.complete r).settle := by
  simp only [exec, execCompletion, hrun, if_true, done_eq]

theorem State.complete_of_empty (hq : (s.ring r).queue = []) : s.complete r = s := by
  rw [State.complete, hq]

end

/-- Settles O43: the fetch by whether a ring is served, an acceptance by the first check of R289 that fails and the command that passes,
a wait by its expiry, a completion by what it leaves of its ring. -/
theorem descriptorsAreFetchedAcceptedAndCompleted : Obligations.DescriptorsAreFetchedAcceptedAndCompleted := by
  unfold Obligations.DescriptorsAreFetchedAcceptedAndCompleted
  intro r s hrun
  refine ⟨exec_descriptorFetch_of_idle, fun hnext hpf hrestart hearly => ?_, fun seq w err rest hrestart hin hq => ?_,
    fun d rest hq hdue hwaits hmet hdone => ⟨exec_waitTimeout_of_expired hq hrun hdue hwaits hmet hdone, exec_waitTimeout_of_early hq⟩,
    fun d rest c hq hdone => ?_, fun hq => ⟨?_, exec_waitTimeout_of_empty hq⟩⟩
  · obtain ⟨hring, hsd⟩ := State.fetchBurst_of_some hnext
    refine ⟨_, exec_descriptorFetch_of_serving hrun hpf hrestart hearly, ?_⟩
    rw [State.settle_ring_of, State.settle_sd]
    exact ⟨hring, hsd⟩
  · have hcheck := s.taken_acceptCheck r rest (s.ring r) { seq := seq, w := w, accepted := s.fclk } err
    have joins {u : State} {e : Desc} := exec_descriptorAccept_of_outcome (u := u) (e := e) hrun hrestart hin hq
    have fails {c : Cmpl} (h : s.acceptCheck (s.ring r) { seq := seq, w := w, accepted := s.fclk } err = some c) :=
      joins (State.acceptOutcome_of_failed (hcheck.trans h) .ok)
    refine ⟨fun herr => fails (State.acceptCheck_of_unread herr), fun herr => ⟨fun hheader => ?_, fun hheader hclass => ?_,
      fun hheader hclass hfence => ?_, fun hheader hclass hfence hbody => ?_, fun hheader hclass hfence hbody hgroup => ?_⟩⟩
    · exact fails (State.acceptCheck_of_headerBad herr hheader)
    · exact fails (State.acceptCheck_of_classBad herr hheader hclass)
    · exact fails (State.acceptCheck_of_fenceBad herr hheader hclass hfence)
    · exact fails (State.acceptCheck_of_bodyBad herr hheader hclass hfence hbody)
    · have htarget := State.acceptCheck_of_bodyGood herr hheader hclass hfence hbody hgroup
      refine ⟨fun hbad => fails (htarget.trans (if_pos hbad)), fun hgood => ?_⟩
      have hpass := hcheck.trans (htarget.trans (if_neg (Bool.eq_false_iff.mp hgood)))
      refine ⟨fun hjob harm => ?_, fun ho hg => ?_, fun g ho hg => ?_, fun c ho hjob => ?_, fun seed slots os ho hjob => ?_⟩
      · exact joins (State.acceptOutcome_of_other hpass hjob harm .ok)
      · exact joins (State.acceptOutcome_of_absentGroup hpass ho hg .ok)
      · exact joins (State.acceptOutcome_of_arm hpass ho hg .ok)
      · exact joins (State.acceptOutcome_of_badJob hpass ho ((s.taken_acceptJob r rest _ _ _).trans hjob))
      · exact joins (State.acceptOutcome_of_job hpass ho ((s.taken_acceptJob r rest _ _ _).trans hjob))
  · obtain ⟨f, hring⟩ := State.complete_ring hq hdone
    obtain ⟨hcompleted, hqueue, htail, hfetched⟩ := ((s.ring r).passed d rest).updHead_spec f
    refine ⟨_, exec_completion_of_running hrun, ?_⟩
    rw [State.settle_ring_of, hring]
    exact ⟨hcompleted, hqueue, htail, hfetched⟩
  · rw [exec_completion_of_running hrun, State.complete_of_empty hq]

end Sys2Proof.Machine

/-! Uncorrectable faults: the run that each is charged to, its outcome, and the core that too many of them retire (R315 to R320, R324,
R328, R329, R346). -/

namespace Sys2Proof.Machine

/-! ### Commands behind a guard, and events raised -/

section
variable {i : Instr} {s u : State} {b : Bool} (he : exec i s = done (if b then u else s))
include he

/-- A command whose guard holds has its effect. -/
theorem exec_of_guard (hb : b = true) : exec i s = .next u.settle := by rw [he, hb, if_pos rfl, done_eq]

theorem exec_of_not_guard (hb : b = false) : exec i s = .next s.settle := by rw [he, hb, if_neg Bool.false_ne_true, done_eq]

end

theorem State.raise_sets (s : State) (p : Nat) {b : Nat} (hb : b < 32) : ((s.raise p b).hdr p).raw.getLsbD b = true := by
  rw [State.raise_hdr_raw, BitVec.getLsbD_or, word_two_pow_getLsbD hb, Bool.or_true]

theorem State.checks_of_on {s : State} {c : Nat} (hrun : s.running = true) (hon : s.coreOn c = true) : s.checks c = true := by
  rw [State.checks, hrun, hon]
  rfl

/-! ### Retiring a core -/

section
variable (s : State) (c : Nat)

/-- The cores and the event registers, which a recosting leaves as they are. -/
def State.coresAndEvents : (Nat → Core) × (Nat → Hdr) := (s.core, s.hdr)

theorem State.updEntry_coresAndEvents (g : Group) (f : CalEntry → CalEntry) :
    (s.updEntry g f).coresAndEvents = s.coresAndEvents := by
  unfold State.updEntry
  split <;> rfl

theorem State.updGroup_coresAndEvents (gid : Nat) (f : Group → Group) : (s.updGroup gid f).coresAndEvents = s.coresAndEvents := by
  unfold State.updGroup
  split <;> rfl

theorem State.setGroup_coresAndEvents (gid : Nat) (g : Group) : (s.setGroup gid g).coresAndEvents = s.coresAndEvents := rfl

theorem State.recostGroup_coresAndEvents (gid : Nat) : (s.recostGroup gid c).coresAndEvents = s.coresAndEvents := by
  unfold State.recostGroup
  split
  · rfl
  · dsimp only
    split_ifs
    · exact State.updEntry_coresAndEvents _ _ _
    · rfl
    · exact State.updGroup_coresAndEvents _ _ _

theorem State.withPower_coresAndEvents (p : Power) : (s.withPower p).coresAndEvents = s.coresAndEvents := rfl

theorem State.setDlPower_coresAndEvents : s.setDlPower.coresAndEvents = s.coresAndEvents := s.withPower_coresAndEvents _

theorem State.recost_coresAndEvents : (s.recost c).coresAndEvents = s.coresAndEvents :=
  (State.setDlPower_coresAndEvents _).trans <|
    (State.foldl_keeps (part := State.coresAndEvents) _ (fun t _ => t.recostGroup_coresAndEvents c _) _).trans <|
      State.foldl_keeps (part := State.coresAndEvents) _ (fun t _ => t.setGroup_coresAndEvents _ _) s

theorem State.core_of_coresAndEvents {s u : State} (h : u.coresAndEvents = s.coresAndEvents) (d : Nat) : u.core d = s.core d :=
  congrFun (congrArg Prod.fst h) d

theorem State.hdr_of_coresAndEvents {s u : State} (h : u.coresAndEvents = s.coresAndEvents) (p : Nat) : u.hdr p = s.hdr p :=
  congrFun (congrArg Prod.snd h) p

@[simp] theorem State.recost_core (d : Nat) : (s.recost c).core d = s.core d := State.core_of_coresAndEvents (s.recost_coresAndEvents c) d

@[simp] theorem State.recost_hdr (p : Nat) : (s.recost c).hdr p = s.hdr p := State.hdr_of_coresAndEvents (s.recost_coresAndEvents c) p

/-- A core out of service, its four arrays with WIDTH 0. -/
def Core.retired (k : Core) : Core :=
  (List.range 4).foldl (fun q a => q.updMxa a fun m => { m with retired := true }) { k with inService := false }

theorem Core.retired_inService (k : Core) : k.retired.inService = false := rfl

theorem Core.retired_mxa (k : Core) {a : Nat} (ha : a < 4) : (k.retired.mxa a).retired = true := by
  rw [Core.retired, Core.foldl_updMxa_mxa_of_nodup (fun _ m => { m with retired := true }) List.nodup_range, if_pos (List.mem_range.mpr ha)]

/-- The core with one more fault in its window. -/
def Core.faulted (k : Core) : Core := { k with winFaults := k.winFaults + 1 }

variable {s c}

theorem State.retireCore_of_inService (h : (s.core c).inService = true) :
    s.retireCore c = ((s.updCore c Core.retired).raise (pgCore c) 5).recost c := if_pos h

theorem State.retireCore_core_ne {d : Nat} (h : d ≠ c) : (s.retireCore c).core d = s.core d := by
  unfold State.retireCore
  split_ifs
  · rw [State.recost_core, State.raise_core_of, State.updCore_core, if_neg h]
  · rfl

theorem State.retireCore_core_self (h : (s.core c).inService = true) : (s.retireCore c).core c = (s.core c).retired := by
  rw [State.retireCore_of_inService h, State.recost_core, State.raise_core_of, State.updCore_core, if_pos rfl]

theorem State.retireCore_raises (h : (s.core c).inService = true) : ((s.retireCore c).hdr (pgCore c)).raw.getLsbD 5 = true := by
  rw [State.retireCore_of_inService h, State.recost_hdr]
  exact State.raise_sets _ _ (by decide)

theorem State.countFault_of_limit (hlim : s.sd.fltLim ≠ 0) (h : s.sd.fltLim ≤ (s.core c).winFaults + 1) :
    s.countFault c = (s.updCore c Core.faulted).retireCore c := by
  refine if_pos ⟨hlim, ?_⟩
  rw [State.updCore_core, if_pos rfl]
  exact h

theorem State.countFault_of_below (h : s.sd.fltLim = 0 ∨ (s.core c).winFaults + 1 < s.sd.fltLim) :
    s.countFault c = s.updCore c Core.faulted := by
  refine if_neg fun ⟨hlim, hreach⟩ => h.elim hlim fun hlt => ?_
  rw [State.updCore_core, if_pos rfl] at hreach
  exact Nat.not_le.mpr hlt hreach

/-- A fault of a core concerns no other core. -/
theorem State.countFault_core_ne {d : Nat} (h : d ≠ c) : (s.countFault c).core d = s.core d := by
  have hupd : (s.updCore c Core.faulted).core d = s.core d := by rw [State.updCore_core, if_neg h]
  by_cases hlim : s.sd.fltLim = 0 ∨ (s.core c).winFaults + 1 < s.sd.fltLim
  · rw [State.countFault_of_below hlim, hupd]
  · obtain ⟨hpos, hreach⟩ := not_or.mp hlim
    rw [State.countFault_of_limit hpos (Nat.not_lt.mp hreach), State.retireCore_core_ne h, hupd]

end

/-! ### A fault and the run that it is charged to -/

/-- The fault is counted and raised, and marks the lane words of an SPD line (R315, R346). -/
def State.faultNoted (s : State) (c : Nat) (src : FaultSrc) (loc : Nat) : State :=
  (({ s with tele := { s.tele with ueTotal := satWord s.tele.ueTotal 1 } } : State).updCore c fun k => { k with
    ueCnt := satWord k.ueCnt 1
    bad := if src = .spd then (k.spoil loc).bad else k.bad }).raise (pgCore c) 0

/-- The fault leaves its trace record. -/
def State.faultTraced (s : State) (run : Run) (c : Nat) (src : FaultSrc) (loc : Nat) : State :=
  (s.faultNoted c src loc).traceRec 7 c run.id run.frameNo (srcCode src)

/-- What a fault outside a committed bank does to the run it is charged to, with the outcome code of FLT_REC. -/
def State.chargeFault (s : State) (run : Run) (c : Nat) : State × Nat :=
  match run with
  | .frame gid n _ => s.faultFrame gid n false
  | .job ring _ => ((s.faultJob ring).raise (pgCore c) 3, 3)
  | .idle => (s, 0)

/-- FLT_REC takes the fault and its outcome, and the window of the core counts it. -/
def State.faultClosed (s : State) (run : Run) (c : Nat) (src : FaultSrc) (loc col outcome : Nat) : State :=
  (s.updCore c fun k => k.fltFill src false outcome run.be (if run = .idle then 0 else run.id) loc col).countFault c

/-- The run that a fault reported by a check is charged to: that of the core, or the owner of the line on the fabric (R315). -/
def State.faultRun (s : State) (c : Nat) (src : FaultSrc) (col : Nat) : Run :=
  if src = .fabric then s.lineOwner c col else (s.core c).csq.run

section
variable {s : State} {run : Run} {c loc col gid n : Nat} {src : FaultSrc}

/-- A fault that hits no committed bank is noted, charged and closed. -/
theorem State.faultFor_of_unowned (h : src = .spd → (s.faultNoted c src loc).bankOwner c loc = none) :
    s.faultFor run c src loc col = ((s.faultTraced run c src loc).chargeFault run c).1.faultClosed run c src loc col
      ((s.faultTraced run c src loc).chargeFault run c).2 := by
  have howner : (if src = .spd then (s.faultNoted c src loc).bankOwner c loc else none) = none := by
    split_ifs with hspd
    · exact h hspd
    · rfl
  unfold State.faultNoted at howner
  unfold State.faultFor
  dsimp only
  rw [howner]
  cases run <;> rfl

theorem State.uncorrectable_of_not_calendar (h : src ≠ .calendar) :
    s.uncorrectable c src loc col = s.faultFor (s.faultRun c src col) c src loc col := by
  cases src with
  | calendar => exact absurd rfl h
  | _ => rfl

theorem State.faultTraced_groups : (s.faultTraced run c src loc).groups = s.groups := State.traceRec_groups _ _ _ _ _ _

theorem State.faultTraced_fclk : (s.faultTraced run c src loc).fclk = s.fclk := State.traceRec_fclk _ _ _ _ _ _

variable {f : Frame} (hf : s.frame? gid n = some f) (hphase : f.phase ≠ .finished)
include hf hphase

/-- Faults at one edge count once (R318). -/
theorem State.faultFrame_of_same_edge (h : f.faultAt = some s.fclk) : s.faultFrame gid n false = (s, 1) := by
  simp [State.faultFrame, hf, hphase, h]

/-- The first fault of a frame restarts it (R319). -/
theorem State.faultFrame_of_first (h : f.faultAt ≠ some s.fclk) (hfirst : f.restarts = 0) : s.faultFrame gid n false =
    ((s.updFrame gid n fun x => { x with faultAt := some s.fclk }).restartFrame gid n, 1) := by
  simp [State.faultFrame, hf, hphase, h, hfirst]

/-- The second fault of a frame discards it with its fallback (R320). -/
theorem State.faultFrame_of_second (h : f.faultAt ≠ some s.fclk) (hsecond : f.restarts ≠ 0) : s.faultFrame gid n false =
    (((s.updFrame gid n fun x => { x with faultAt := some s.fclk }).countFallback gid).dropFrame gid n 0, 2) := by
  simp [State.faultFrame, hf, hphase, h, hsecond]

end

/-! ### Reports of the checks -/

section
variable {s : State} {c : Nat} {src : FaultSrc} {loc : BitVec 16} {col : BitVec 5} (hrun : s.running = true) (hon : s.coreOn c = true)
include hrun hon

theorem exec_uncorrectableFault_of_on :
    exec (.uncorrectableFault c src loc col) s = .next (s.uncorrectable c src loc.toNat col.toNat).settle :=
  exec_of_guard rfl (State.checks_of_on hrun hon)

/-- A fault outside the calendar and outside a committed bank leaves what the charge to its run leaves, with the outcome recorded. -/
theorem exec_uncorrectableFault_of_charged {t : State} {outcome : Nat} (hsrc : src ≠ .calendar)
    (hbank : src = .spd → (s.faultNoted c src loc.toNat).bankOwner c loc.toNat = none)
    (h : (s.faultTraced (s.faultRun c src col.toNat) c src loc.toNat).chargeFault (s.faultRun c src col.toNat) c = (t, outcome)) :
    exec (.uncorrectableFault c src loc col) s
      = .next (t.faultClosed (s.faultRun c src col.toNat) c src loc.toNat col.toNat outcome).settle := by
  rw [exec_uncorrectableFault_of_on hrun hon, State.uncorrectable_of_not_calendar hsrc, State.faultFor_of_unowned hbank, h]

end

theorem State.suspendEntry_of_found {s : State} {p i : Nat} {e : Nat × CalEntry}
    (h : (s.pack p).entries.find? (fun x => x.1 == i) = some e) : s.suspendEntry p i =
      (s.updPack p fun q => { q with entries := q.entries.put i { e.2 with suspended := true } }).raise (pgPack p) 5 := by
  rw [State.suspendEntry, h]

/-- Settles O29: the report by the run that the fault is charged to, the core by whether its window has reached the limit. -/
theorem faultsAreChargedAndRetireCores : Obligations.FaultsAreChargedAndRetireCores := by
  unfold Obligations.FaultsAreChargedAndRetireCores
  refine ⟨fun c src loc col s hrun hon => ⟨fun hsrc hbank => ⟨fun hidle => ?_, fun ring slot hjob => ?_,
      fun gid n slot f hframe hf hphase => ?_⟩, fun hsrc e he => ?_⟩,
    fun c s => ⟨fun hin hlim hreach => ?_, State.countFault_of_below, fun d => State.countFault_core_ne, fun hrun => ?_⟩⟩
  · exact exec_uncorrectableFault_of_charged hrun hon hsrc hbank (by rw [State.faultRun, hidle]; rfl)
  · exact exec_uncorrectableFault_of_charged hrun hon hsrc hbank (by rw [State.faultRun, hjob]; rfl)
  · have hf' : (s.faultTraced (s.faultRun c src col.toNat) c src loc.toNat).frame? gid n = some f :=
      (State.frame_of_groups State.faultTraced_groups gid n).trans hf
    have hcharge (t : State) : t.chargeFault (s.faultRun c src col.toNat) c = t.faultFrame gid n false := by
      rw [State.faultRun, hframe]
      rfl
    have hclk : (s.faultTraced (s.faultRun c src col.toNat) c src loc.toNat).fclk = s.fclk := State.faultTraced_fclk
    refine ⟨fun hsame => ?_, fun hnew hfirst => ?_, fun hnew hsecond => ?_⟩
    · exact exec_uncorrectableFault_of_charged hrun hon hsrc hbank
        ((hcharge _).trans (State.faultFrame_of_same_edge hf' hphase (hsame.trans (congrArg some hclk.symm))))
    · have h := State.faultFrame_of_first hf' hphase (by rwa [hclk]) hfirst
      rw [hclk] at h
      exact exec_uncorrectableFault_of_charged hrun hon hsrc hbank ((hcharge _).trans h)
    · have h := State.faultFrame_of_second hf' hphase (by rwa [hclk]) hsecond
      rw [hclk] at h
      exact exec_uncorrectableFault_of_charged hrun hon hsrc hbank ((hcharge _).trans h)
  · subst hsrc
    rw [exec_uncorrectableFault_of_on hrun hon]
    exact congrArg (fun t : State => Host.Outcome.next t.settle) (State.suspendEntry_of_found he)
  · have hin' : ((s.updCore c Core.faulted).core c).inService = true := by rw [State.updCore_core, if_pos rfl]; exact hin
    rw [State.countFault_of_limit hlim hreach, State.retireCore_core_self hin']
    exact ⟨Core.retired_inService _, State.retireCore_raises hin', fun a ha => Core.retired_mxa _ ha⟩
  · exact exec_of_guard rfl hrun

end Sys2Proof.Machine

/-! Scrubbing: corrected words, uncorrectable rows, and the rewrite of a committed bank (R315 to R317, R321, R325). -/

namespace Sys2Proof.Machine

/-! ### Corrected words -/

/-- The lines and ACM rows that a corrected error queues for their write-back (R316). -/
def correctedCells (src : FaultSrc) (loc : Nat) : List Nat :=
  match src with
  | .spd => [loc]
  | .acm => [65536 + loc]
  | _ => []

/-- The core with a corrected error counted and queued. -/
def Core.corrected (k : Core) (src : FaultSrc) (loc : Nat) : Core :=
  { k with ceCnt := satWord k.ceCnt 1, toWrite := k.toWrite ++ correctedCells src loc }

/-- A corrected error fills FLT_REC and FLT_LOC while they hold nothing (R316). -/
theorem Core.fltFill_of_corrected (k : Core) (src : FaultSrc) (outcome : Nat) (be : Bool) (id loc col : Nat) :
    ∃ r l, k.fltFill src true outcome be id loc col = { k with fltRec := r, fltLoc := l } ∧
      (k.fltRec.getLsbD 0 = true → r = k.fltRec) := by
  rw [Core.fltFill, Bool.true_or, Bool.and_true]
  split_ifs with h
  · exact ⟨k.fltRec, k.fltLoc, rfl, fun _ => rfl⟩
  · exact ⟨_, _, rfl, fun hrec => absurd hrec h⟩

section
variable (s : State) (c : Nat) (src : FaultSrc) (loc col : Nat)

/-- A corrected error is counted and queued on its core, and recorded there while nothing is. -/
theorem State.corrected_core : ∃ r l,
    (s.corrected c src loc col).core c = { (s.core c).corrected src loc with fltRec := r, fltLoc := l } ∧
    ((s.core c).fltRec.getLsbD 0 = true → r = (s.core c).fltRec) := by
  unfold State.corrected
  rw [State.raise_core_of, State.updCore_core, if_pos rfl]
  by_cases hcal : src = .calendar
  · exact ⟨_, _, if_pos hcal, fun _ => rfl⟩
  · rw [if_neg hcal]
    exact ((s.core c).corrected src loc).fltFill_of_corrected src 0 _ _ loc col

theorem State.corrected_raises : ((s.corrected c src loc col).hdr (pgCore c)).raw.getLsbD 13 = true := State.raise_sets _ _ (by decide)

end

/-! ### Committed banks (R321) -/

/-- The core on which the committed bank of a slot has been rewritten from the initial state. -/
def Core.rewritten (k : Core) (i : Nat) : Core :=
  let q := k.wr (k.entry i) (bankOff (k.slotHdr (k.entry i)) (k.slotHdr (k.entry i)).cur) (k.initBank i)
  { q with wlog := [], lost := q.lost.erase i
           bad := q.bad.filter fun l =>
             !(decide ((k.bankLines i).1 ≤ l / 16) && decide (l / 16 < (k.bankLines i).1 + (k.bankLines i).2)) }

theorem Core.wr_lost (k : Core) (e : DWord) (x : Nat) (bs : List Byte) : (k.wr e x bs).lost = k.lost :=
  (congrArg Core.lost (k.onlyWrites_wr e x bs) :)

theorem Core.rewritten_lost (k : Core) (i : Nat) : (k.rewritten i).lost = k.lost.erase i := congrArg (List.erase · i) (k.wr_lost _ _ _)

section
variable {s : State} {c i : Nat}

theorem State.bankRewrite_of_lost (h : (s.core c).lost.contains i = true) :
    s.bankRewrite c i = (s.updCore c fun k => k.rewritten i).raise (pgCore c) 2 := if_pos h

theorem State.bankRewrite_of_kept (h : (s.core c).lost.contains i = false) : s.bankRewrite c i = s := if_neg (Bool.eq_false_iff.mp h)

theorem State.bankRewrite_core (h : (s.core c).lost.contains i = true) : (s.bankRewrite c i).core c = (s.core c).rewritten i := by
  rw [State.bankRewrite_of_lost h, State.raise_core_of, State.updCore_core, if_pos rfl]

theorem State.bankRewrite_raises (h : (s.core c).lost.contains i = true) : ((s.bankRewrite c i).hdr (pgCore c)).raw.getLsbD 2 = true := by
  rw [State.bankRewrite_of_lost h]
  exact State.raise_sets _ _ (by decide)

end

/-! ### The scrubber's steps -/

section
variable {s : State} {c : Nat} (hrun : s.running = true) (hon : s.coreOn c = true)
include hrun hon

theorem exec_spdScrub_of_on {line : Nat} (hl : line < 65536) (res : ScrubResult) :
    exec (.spdScrub c line res) s = .next (s.spdScrub c line res).settle :=
  exec_of_guard rfl (by rw [State.checks_of_on hrun hon, decide_eq_true hl, Bool.and_self])

theorem exec_acmScrub_of_on {a row : Nat} (ha : a < 4) (hr : row < 512) (res : ScrubResult) :
    exec (.acmScrub c a row res) s = .next (s.acmScrub c a row res).settle :=
  exec_of_guard rfl (by rw [State.checks_of_on hrun hon, decide_eq_true ha, decide_eq_true hr, Bool.and_self, Bool.and_self])

theorem exec_correctedWriteback_of_found {src : FaultSrc} (loc : BitVec 16) (col : BitVec 5) (hsrc : singleBit src = true) :
    exec (.correctedWriteback ⟨c, some (src, loc, col)⟩) s = .next (s.corrected c src loc.toNat col.toNat).settle := by
  rw [exec_of_guard (i := .correctedWriteback ⟨c, some (src, loc, col)⟩) rfl (State.checks_of_on hrun hon)]
  simp only [hsrc, if_true]

theorem exec_stateBankRewrite_of_on (i : Nat) : exec (.stateBankRewrite c i) s = .next (s.bankRewrite c i).settle :=
  exec_of_guard rfl (State.checks_of_on hrun hon)

end

/-- Settles O30: each step by what the scrubber found, the rewrite by whether the bank lost a line. -/
theorem scrubbingCorrectsCountsAndRewrites : Obligations.ScrubbingCorrectsCountsAndRewrites := by
  unfold Obligations.ScrubbingCorrectsCountsAndRewrites
  intro c s hrun hon
  refine ⟨fun line hl => ⟨?_, ?_, ?_⟩, fun a row ha hr => ⟨?_, ?_, ?_⟩, fun src loc col => ?_, fun src loc col hsrc => ?_, ?_,
    fun i hlost => ?_, fun i hkept => ?_⟩
  · exact exec_spdScrub_of_on hrun hon hl .clean
  · exact exec_spdScrub_of_on hrun hon hl .corrected
  · exact exec_spdScrub_of_on hrun hon hl .uncorrectable
  · exact exec_acmScrub_of_on hrun hon ha hr .clean
  · exact exec_acmScrub_of_on hrun hon ha hr .corrected
  · exact exec_acmScrub_of_on hrun hon ha hr .uncorrectable
  · obtain ⟨r, l, hcore, hrec⟩ := s.corrected_core c src loc col
    dsimp only
    rw [hcore]
    refine ⟨rfl, s.corrected_raises c src loc col, ?_, hrec, rfl⟩
    cases src <;> rfl
  · exact exec_correctedWriteback_of_found hrun hon loc col (by rcases hsrc with rfl | rfl | rfl | rfl <;> rfl)
  · exact exec_of_guard rfl (State.checks_of_on hrun hon)
  · refine ⟨_, exec_stateBankRewrite_of_on hrun hon i, ?_⟩
    rw [State.settle_core_of, State.settle_hdr_of, State.bankRewrite_core hlost]
    exact ⟨Core.rewritten_lost _ i, State.bankRewrite_raises hlost, rfl⟩
  · rw [exec_stateBankRewrite_of_on hrun hon i, State.bankRewrite_of_kept hkept]

end Sys2Proof.Machine

/-! Background checks of the arrays, control messages, and the restarts of Sheepdog (R96, R315, R326 to R330, R346, R399). -/

namespace Sys2Proof.Machine

/-! ### Read-back of the weights (R326) -/

/-- The state in which upsets have flipped bits of an active plane. -/
def State.upset (s : State) (c a : Nat) (ups : List (Nat × BitVec 16)) : State :=
  s.updCore c fun k => k.updMxa a fun m =>
    { m with active := ups.foldl (fun p (i, x) => Sparse.set 0 p i (Sparse.get 0 p i ^^^ x)) m.active }

/-- The state in which an array holds no tag and no recorded CRCs. -/
def State.untagged (s : State) (c a : Nat) : State := s.updCore c fun k => k.updMxa a fun m => { m with tag := none, crc := none }

section
variable {s : State} {c a : Nat} {ups : List (Nat × BitVec 16)}

theorem State.readback_of_agreeing (h : (((s.upset c a ups).core c).mxa a).crcFails = []) : s.readback c a ups = s.upset c a ups := by
  unfold State.readback
  dsimp only
  rw [State.upset] at h
  rw [h]
  rfl

theorem State.readback_of_differing {col : Nat} {rest : List Nat} (h : (((s.upset c a ups).core c).mxa a).crcFails = col :: rest) :
    s.readback c a ups = ((s.upset c a ups).untagged c a).faultFor ((((s.upset c a ups).untagged c a).core c).arrRun a false) c
      .weightReadback (32 * a) col := by
  unfold State.readback
  dsimp only
  rw [State.upset] at h
  rw [h]
  rfl

end

/-! ### The known-answer test (R96, R327) -/

/-- The core after a test in which columns have failed for the first time. -/
def Core.tested (k : Core) (once : List (Nat × Nat)) : Core := { k with ceCnt := satWord k.ceCnt once.length, lastFails := once }

/-- The columns that a test reports and that are not bypassed. -/
def State.liveFails (s : State) (c : Nat) (fails : List (Nat × Nat)) : List (Nat × Nat) :=
  fails.eraseDups.filter fun x => decide (x.1 < 4) && decide (x.2 < 32) && !((s.core c).mxa x.1).byps.contains x.2

/-- A test's outcome: the columns that failed for the first time are counted, those that failed twice bypassed and faulted. -/
def State.scored (s : State) (c : Nat) (once again : List (Nat × Nat)) : State :=
  again.foldl (fun t x => t.fault c .columnTest (32 * x.1) x.2) <|
    again.foldl (fun t x => t.bypass c x.1 x.2) (s.updCore c fun k => k.tested once)

theorem State.answerTest_eq (s : State) (c : Nat) (fails : List (Nat × Nat)) : s.answerTest c fails =
    s.scored c ((s.liveFails c fails).filter fun x => !(s.core c).lastFails.contains x)
      ((s.liveFails c fails).filter fun x => (s.core c).lastFails.contains x) := rfl

section
variable {s : State} {c a col : Nat}

theorem State.answerTest_of_none : s.answerTest c [] = s.updCore c fun k => k.tested [] := rfl

section
variable (ha : a < 4) (hcol : col < 32) (hlive : ((s.core c).mxa a).byps.contains col = false)
include ha hcol hlive

theorem State.liveFails_of_one : s.liveFails c [(a, col)] = [(a, col)] := by
  refine (List.filter_singleton (a := (a, col))).trans ?_
  rw [decide_eq_true ha, decide_eq_true hcol, hlive]
  rfl

/-- A column that fails for the first time counts in CE_CNT. -/
theorem State.answerTest_of_first (h : (s.core c).lastFails.contains (a, col) = false) :
    s.answerTest c [(a, col)] = s.updCore c fun k => k.tested [(a, col)] := by
  rw [State.answerTest_eq, State.liveFails_of_one ha hcol hlive, List.filter_singleton, List.filter_singleton, h]
  rfl

/-- A column that fails twice in a row is bypassed, and is a fault. -/
theorem State.answerTest_of_second (h : (s.core c).lastFails.contains (a, col) = true) :
    s.answerTest c [(a, col)] = ((s.updCore c fun k => k.tested []).bypass c a col).fault c .columnTest (32 * a) col := by
  rw [State.answerTest_eq, State.liveFails_of_one ha hcol hlive, List.filter_singleton, List.filter_singleton, h]
  rfl

end

theorem State.bypass_mxa (h : ((s.core c).mxa a).byps.length < 2) : ((s.bypass c a col).core c).mxa a =
    { (s.core c).mxa a with byps := ((s.core c).mxa a).byps ++ [col], tag := none, crc := none } := by
  rw [State.bypass, if_pos h, State.recost_core, State.raise_core_of, State.updCore_core, if_pos rfl, Core.updMxa_mxa, if_pos rfl]

end

/-! ### What the checks report -/

section
variable {s : State} {c : Nat} (hrun : s.running = true) (hon : s.coreOn c = true)
include hrun hon

theorem exec_weightReadback_of_on {a : Nat} {ups : List (Nat × BitVec 16)} (ha : a < 4) (hups : ∀ u ∈ ups, u.1 < 1024) :
    exec (.weightReadback c a ups) s = .next (s.readback c a ups).settle := by
  have hall : (ups.filter fun u => decide (u.1 < 1024)) = ups := List.filter_eq_self.mpr fun u hu => decide_eq_true (hups u hu)
  rw [exec_of_guard (i := .weightReadback c a ups) rfl (by rw [State.checks_of_on hrun hon, decide_eq_true ha, Bool.and_self]), hall]

theorem exec_knownAnswerTest_of_inService (hin : (s.core c).inService = true) (fails : List (Nat × Nat)) :
    exec (.knownAnswerTest c fails) s = .next (s.answerTest c fails).settle :=
  exec_of_guard rfl (by rw [State.checks_of_on hrun hon, hin, Bool.and_self])

theorem exec_controlRetry_of_on (again : Bool) (src : BitVec 5) :
    exec (.controlRetry c again src) s = .next (s.controlRetry c again src.toNat).settle :=
  exec_of_guard rfl (State.checks_of_on hrun hon)

/-- The sample of AGE is the power unit's for one FCLK, and is compared with the limit that the core holds (R330, R399). -/
theorem exec_agingSample_of_on (n : BitVec 16) : exec (.agingSample c n) s = .next (State.raiseIf
    { s.updCore c fun k => { k with ageCount := n } with power := { s.power with ageOut := some (c, n) } }
    (decide (n.toNat < (s.core c).ageWarn.toNat)) (pgCore c) 11).settle := by
  have hwarn : ((s.updCore c fun k => { k with ageCount := n }).core c).ageWarn = (s.core c).ageWarn := by
    rw [State.updCore_core, if_pos rfl]
  rw [exec_of_guard (i := .agingSample c n) rfl (State.checks_of_on hrun hon)]
  dsimp only
  rw [hwarn]
  rfl

end

theorem State.controlRetry_of_frame {s : State} {c : Nat} {r : Run} (src : Nat) (h : s.messageFrame c = some r) :
    s.controlRetry c false src = s.faultFor r c .fabric 0 src := by
  simp only [State.controlRetry, h, Bool.false_eq_true, if_false]

theorem State.controlRetry_of_no_frame {s : State} {c : Nat} (src : Nat) (h : s.messageFrame c = none) :
    s.controlRetry c false src = s := by
  simp only [State.controlRetry, h, Bool.false_eq_true, if_false]

/-- Sheepdog rewrites an entry that a fault suspended from its own copy (R329). -/
theorem State.rewriteEntry_of_suspended {s : State} {p i : Nat} {e : Nat × CalEntry}
    (h : (s.pack p).entries.find? (fun x => x.1 == i) = some e) (hsus : e.2.suspended = true) : s.rewriteEntry p i =
      s.updPack p fun q => { q with entries := q.entries.put i { e.2 with suspended := false } } := by
  rw [State.rewriteEntry, h]
  exact if_pos hsus

/-- Settles O31: the read-back by its first differing column, the test by whether its column failed before, a message by its frame. -/
theorem arrayChecksAndControlFaults : Obligations.ArrayChecksAndControlFaults := by
  unfold Obligations.ArrayChecksAndControlFaults
  refine ⟨fun c s hrun hon => ⟨fun a ups ha hups => ⟨fun hagree => ?_, fun col rest hdiff => ?_⟩,
      fun hin => ⟨⟨(s.answerTest c []).settle, ?_, ?_, ?_⟩, fun a col ha hcol hlive => ⟨fun hfirst => ?_,
        fun hsecond hfew => ⟨State.bypass_mxa hfew, s.updCore c fun k => k.tested [], ?_, rfl, ?_⟩⟩⟩, fun n => ?_⟩,
    fun s hrun => ⟨fun c src hon => ⟨?_, fun r hr => ?_, fun hnone => ?_⟩, fun hearly => ?_, ?_,
      fun p i e hrestart hp he hsus => ?_⟩⟩
  · rw [exec_weightReadback_of_on hrun hon ha hups, State.readback_of_agreeing hagree]
    rfl
  · rw [exec_weightReadback_of_on hrun hon ha hups, State.readback_of_differing hdiff]
    rfl
  · exact exec_knownAnswerTest_of_inService hrun hon hin []
  · rw [State.settle_core_of, State.answerTest_of_none, State.updCore_core, if_pos rfl]
    rfl
  · rw [State.settle_core_of, State.answerTest_of_none, State.updCore_core, if_pos rfl]
    rfl
  · rw [exec_knownAnswerTest_of_inService hrun hon hin, State.answerTest_of_first ha hcol hlive hfirst]
    rfl
  · rw [State.updCore_core, if_pos rfl]
    rfl
  · rw [exec_knownAnswerTest_of_inService hrun hon hin, State.answerTest_of_second ha hcol hlive hsecond]
  · rw [exec_agingSample_of_on hrun hon]
    simp only [State.raiseIf, decide_eq_true_eq]
    rfl
  · exact exec_controlRetry_of_on hrun hon true src
  · rw [exec_controlRetry_of_on hrun hon, State.controlRetry_of_frame _ hr]
  · rw [exec_controlRetry_of_on hrun hon, State.controlRetry_of_no_frame _ hnone]
  · exact exec_of_guard rfl (by rw [hrun, hearly, Bool.and_self])
  · exact exec_of_guard rfl hrun
  · rw [exec_of_guard (i := .calEntryRewrite p i) rfl (by rw [hrun, hrestart, decide_eq_true hp]; rfl),
      State.rewriteEntry_of_suspended he hsus]

end Sys2Proof.Machine

/-! Kennel's shared operations, and what a write of its control register does (R332, R338 to R341, R343, R347, R348). -/

namespace Sys2Proof.Machine

/-! ### Kennel's state, its reports, and the errors of its port accesses -/

section
variable (s : State) (f : Kennel → Kennel)

@[simp] theorem State.updKennel_kennel : (s.updKennel f).kennel = f s.kennel := rfl

@[simp] theorem State.updKennel_hdr (p : Nat) : (s.updKennel f).hdr p = s.hdr p := rfl

@[simp] theorem State.updKennel_cores : (s.updKennel f).cores = s.cores := rfl

@[simp] theorem State.updKennel_groups : (s.updKennel f).groups = s.groups := rfl

variable (code stream : Nat)

@[simp] theorem State.kn_kennel : (s.kn code stream).kennel = { s.kennel with lastErr := word (code + stream % 4096 * 256) } := by
  rw [State.kn, State.raiseIf_kennel]

@[simp] theorem State.kn_cores : (s.kn code stream).cores = s.cores := by
  rw [State.kn, State.raiseIf_cores]

@[simp] theorem State.kn_groups : (s.kn code stream).groups = s.groups := by
  rw [State.kn, State.raiseIf_groups]

@[simp] theorem State.kn_host : (s.kn code stream).host = s.host := by
  rw [State.kn, State.raiseIf_host]

theorem State.kn_keepsEvents : s.KeepsEvents (s.kn code stream) :=
  .trans (t := { s with kennel := { s.kennel with lastErr := word (code + stream % 4096 * 256) } }) (.of_eq rfl)
    (State.raiseIf_keepsEvents _ _ _ _)

/-- Every code but KN_OK raises KN_ERROR (R348). -/
theorem State.kn_raises {code : Nat} (h : code ≠ 0) : ((s.kn code stream).hdr pgKennel).raw.getLsbD 1 = true := by
  rw [State.kn, State.raiseIf, if_pos (bne_iff_ne.mpr h)]
  exact State.raise_sets _ _ (by decide)

@[simp] theorem State.checkDirty_kennel : s.checkDirty.kennel = s.kennel := by
  rw [State.checkDirty, State.raiseIf_kennel]

@[simp] theorem State.checkDirty_cores : s.checkDirty.cores = s.cores := by
  rw [State.checkDirty, State.raiseIf_cores]

@[simp] theorem State.checkDirty_groups : s.checkDirty.groups = s.groups := by
  rw [State.checkDirty, State.raiseIf_groups]

theorem State.checkDirty_keepsEvents : s.KeepsEvents s.checkDirty := State.raiseIf_keepsEvents _ _ _ _

theorem State.memErr_eq (mem : MemCode) (write : Bool) (addr : Nat) (cls : QCls) :
    ∃ m, s.memErr mem write addr cls = { s.raise pgMport 0 with mport := m } := by
  unfold State.memErr
  dsimp only
  split
  · exact ⟨s.mport, rfl⟩
  · exact ⟨_, rfl⟩

end

/-! ### A write of CTRL -/

theorem and_not_eq_false {a b : Bool} (h : a = false ∨ b = true) : (a && !b) = false := by
  rcases h with rfl | rfl
  · rfl
  · exact Bool.and_false a

/-- CTRL with its VERIFY and WMINOR, the latter 0 in a write that is carried out. -/
def Kennel.controlled (k : Kennel) (v : Word) : Kennel := { k with verify := v.getLsbD 1, wminor := 0 }

section
variable {v : Word} {s : State} {mem : MemCode}

theorem State.kennelCtrl_of_early (hen : v.getLsbD 0 = true) (hfull : s.full = false) : s.kennelCtrl v mem = s := by
  simp only [State.kennelCtrl, hen, hfull, Bool.not_false, Bool.and_self, if_true]

/-- A reserved WMINOR, a FORMAT of a window in use and a FREE_FOREIGN of an inactive Kennel are refused (R332, R341, R343). -/
theorem State.kennelCtrl_of_refused (hgo : v.getLsbD 0 = false ∨ s.full = true)
    (h : wbits v 15 8 ≠ 0 ∨ (v.getLsbD 2 = true ∧ (s.kennel.en = true ∨ s.kennel.persist ≠ [])) ∨
      (v.getLsbD 3 = true ∧ s.kennel.active = false)) : s.kennelCtrl v mem = s.kn 0x08 0 := by
  unfold State.kennelCtrl
  dsimp only
  rw [and_not_eq_false hgo, if_neg Bool.false_ne_true]
  by_cases hminor : wbits v 15 8 ≠ 0
  · exact if_pos hminor
  rw [if_neg hminor]
  by_cases hformat : (v.getLsbD 2 && (s.kennel.en || !s.kennel.persist.isEmpty)) = true
  · exact if_pos hformat
  rw [if_neg hformat]
  refine if_pos ?_
  simp only [Bool.and_eq_true, Bool.or_eq_true, Bool.not_eq_true', List.isEmpty_eq_false_iff] at hformat ⊢
  exact (h.resolve_left hminor).resolve_left hformat

/-- What FORMAT and FREE_FOREIGN of a write do, behind its VERIFY and WMINOR. -/
def State.ctrlActed (s : State) (v : Word) (mem : MemCode) : State :=
  let t := if v.getLsbD 2 then (s.updKennel (·.controlled v)).formatWindow mem else s.updKennel (·.controlled v)
  if v.getLsbD 3 then (t.updKennel fun q => { q with foreign := [] }).kn 0 0 else t

/-- What EN of a write does to a Kennel that was as `k` before the write. -/
def State.ctrlEnabled (s : State) (v : Word) (k : Kennel) : State :=
  if v.getLsbD 0 && !k.en then
    if k.geomOk then s.updKennel fun q => { q with en := true, active := false, scanning := true } else s.kn 0x01 0
  else if !v.getLsbD 0 && k.en then
    s.updKennel fun q => { q with en := false, active := false, scanning := false, snaps := [], writing := none }
  else s

/-- A write that nothing refuses acts in the order FORMAT, FREE_FOREIGN, EN. -/
theorem State.kennelCtrl_of_accepted (hgo : v.getLsbD 0 = false ∨ s.full = true) (hminor : wbits v 15 8 = 0)
    (hformat : v.getLsbD 2 = false ∨ (s.kennel.en = false ∧ s.kennel.persist = []))
    (hfree : v.getLsbD 3 = false ∨ s.kennel.active = true) :
    s.kennelCtrl v mem = (s.ctrlActed v mem).ctrlEnabled v s.kennel := by
  have hformat' : (v.getLsbD 2 && (s.kennel.en || !s.kennel.persist.isEmpty)) = false := by
    rcases hformat with h | ⟨h, h'⟩
    · rw [h, Bool.false_and]
    · rw [h, h']
      exact Bool.and_false _
  unfold State.kennelCtrl
  dsimp only
  rw [and_not_eq_false hgo, hformat', and_not_eq_false hfree, hminor]
  rfl

theorem State.ctrlActed_of_neither (hformat : v.getLsbD 2 = false) (hfree : v.getLsbD 3 = false) :
    s.ctrlActed v mem = s.updKennel (·.controlled v) := by
  simp only [State.ctrlActed, hformat, hfree, Bool.false_eq_true, if_false]

section
variable (hminor : wbits v 15 8 = 0)
include hminor

section
variable (hformat : v.getLsbD 2 = false) (hfree : v.getLsbD 3 = false)
include hformat hfree

theorem State.kennelCtrl_of_enable (hen : v.getLsbD 0 = true) (hfull : s.full = true) (hoff : s.kennel.en = false)
    (hgeom : s.kennel.geomOk = true) : s.kennelCtrl v mem =
      { s with kennel := { s.kennel.controlled v with en := true, active := false, scanning := true } } := by
  rw [State.kennelCtrl_of_accepted (.inr hfull) hminor (.inl hformat) (.inl hfree), State.ctrlActed_of_neither hformat hfree,
    State.ctrlEnabled, hen, hoff, hgeom]
  rfl

theorem State.kennelCtrl_of_unusable (hen : v.getLsbD 0 = true) (hfull : s.full = true) (hoff : s.kennel.en = false)
    (hgeom : s.kennel.geomOk = false) : s.kennelCtrl v mem = (s.updKennel (·.controlled v)).kn 0x01 0 := by
  rw [State.kennelCtrl_of_accepted (.inr hfull) hminor (.inl hformat) (.inl hfree), State.ctrlActed_of_neither hformat hfree,
    State.ctrlEnabled, hen, hoff, hgeom]
  rfl

theorem State.kennelCtrl_of_disable (hen : v.getLsbD 0 = false) (hon : s.kennel.en = true) : s.kennelCtrl v mem =
    { s with kennel := { s.kennel.controlled v with en := false, active := false, scanning := false, snaps := [], writing := none } } := by
  rw [State.kennelCtrl_of_accepted (.inl hen) hminor (.inl hformat) (.inl hfree), State.ctrlActed_of_neither hformat hfree,
    State.ctrlEnabled, hen, hon]
  rfl

end

theorem State.kennelCtrl_of_format (hen : v.getLsbD 0 = false) (hformat : v.getLsbD 2 = true) (hfree : v.getLsbD 3 = false)
    (hoff : s.kennel.en = false) (hnone : s.kennel.persist = []) :
    s.kennelCtrl v mem = (s.updKennel (·.controlled v)).formatWindow mem := by
  rw [State.kennelCtrl_of_accepted (.inl hen) hminor (.inr ⟨hoff, hnone⟩) (.inl hfree)]
  simp only [State.ctrlEnabled, State.ctrlActed, hen, hoff, hformat, hfree, Bool.false_and, Bool.and_false, Bool.false_eq_true, if_true,
    if_false]

theorem State.kennelCtrl_of_freeForeign (hen : v.getLsbD 0 = true) (hfull : s.full = true) (hformat : v.getLsbD 2 = false)
    (hfree : v.getLsbD 3 = true) (hon : s.kennel.en = true) (hact : s.kennel.active = true) : s.kennelCtrl v mem =
      { s with kennel := { s.kennel.controlled v with foreign := [], lastErr := 0 } } := by
  rw [State.kennelCtrl_of_accepted (.inr hfull) hminor (.inl hformat) (.inr hact), State.ctrlEnabled, hen, hon, State.ctrlActed,
    hformat, hfree]
  rfl

end
end

/-- The three commands that write CTRL are one register write. -/
theorem exec_kennelCtrl_of_grants {v : Word} {acc : Acc} {s t : State} (hg : s.grants 0x4905C acc = true)
    (ht : (s.answered acc).kennelCtrl v .ok = t) : exec (.kennelEnable v acc) s = .next t.settle ∧
      exec (.format v acc .ok) s = .next t.settle ∧ exec (.freeForeign v acc) s = .next t.settle :=
  ⟨exec_of_cfgWrite rfl hg ht, exec_of_cfgWrite rfl hg ht, exec_of_cfgWrite rfl hg ht⟩

/-! ### FORMAT (R332) -/

theorem length_leBytes (n v : Nat) : (leBytes n v).length = n := by
  induction n generalizing v with
  | zero => rfl
  | succ n ih => exact congrArg (· + 1) (ih (v / 256))

@[simp] theorem length_toBytes (n v : Nat) : (toBytes n v).length = n := (List.length_map _).trans (length_leBytes n v)

theorem Kennel.length_superblock (k : Kennel) : k.superblock.length = 64 := by simp [Kennel.superblock]

theorem Kennel.length_wearLine (k : Kennel) (l : Nat) : (k.wearLine l).length = 64 := by
  simp [Kennel.wearLine, tab, Function.comp_def]

/-- The superblock is that of the window registers. -/
theorem Kennel.superblock_congr {k q : Kennel} (hgeom : k.geom = q.geom) (hfid : k.fid = q.fid) : k.superblock = q.superblock := by
  simp only [Kennel.superblock, Kennel.nslots, Kennel.slotLog, hgeom, hfid]

section
variable {s : State} (hwf : Memory.wf s.host = true)
include hwf

/-- Writing a window leaves the bytes outside it. -/
theorem State.hostRead_hostWrite_other {a b n : Nat} {bs : List Byte}
    (h : ∀ i < n, ∀ j < bs.length, hostAddr (a + i) ≠ hostAddr (b + j)) :
    (s.hostWrite b bs).hostRead a n = s.hostRead a n :=
  State.hostRead_congr _ _ a n fun i hi => State.hostByte_hostWrite_other bs s b (a + i) hwf (h i hi)

theorem State.hostRead_foldl_hostWrite_other (addr : Nat → Nat) (bytes : Nat → List Byte) {ls : List Nat} {a n : Nat}
    (h : ∀ l ∈ ls, ∀ i < n, ∀ j < (bytes l).length, hostAddr (a + i) ≠ hostAddr (addr l + j)) :
    (ls.foldl (fun t l => t.hostWrite (addr l) (bytes l)) s).hostRead a n = s.hostRead a n := by
  induction ls generalizing s with
  | nil => rfl
  | cons l ls ih =>
    rw [List.foldl_cons, ih (State.memWf_hostWrite _ _ _ hwf) fun m hm => h m (List.mem_cons_of_mem l hm)]
    exact State.hostRead_hostWrite_other hwf (h l List.mem_cons_self)

end

theorem State.hostWriteCode_of_ok (s : State) (a : Nat) (bs : List Byte) : s.hostWriteCode .ok a bs = s.hostWrite a bs := if_pos rfl

/-- Kennel with the tables of a fresh window. -/
def Kennel.formatted (k : Kennel) : Kennel :=
  { k with wear := [], retired := [], written := [], changed := [], pids := [], foreign := [] }

/-- Both superblocks written. -/
def State.supersWritten (s : State) : State :=
  (s.hostWrite s.kennel.win s.kennel.superblock).hostWrite (s.kennel.win + 64) s.kennel.superblock

/-- The wear table written behind them, by its 4,370 lines. -/
def State.wearWritten (s : State) (k : Kennel) : State :=
  (List.range 4370).foldl (fun t l => t.hostWrite (k.lineAddr l) (k.wearLine l)) s

theorem State.formatWindow_of_ok (s : State) : s.formatWindow .ok =
    ((s.updKennel Kennel.formatted).supersWritten.wearWritten s.kennel.formatted).kn 0 0 := by
  unfold State.formatWindow State.wearWritten
  dsimp only
  rw [State.hostWriteCode_of_ok, if_neg (not_not_intro rfl)]
  rfl

theorem State.wearWritten_kennel (s : State) (k : Kennel) : (s.wearWritten k).kennel = s.kennel :=
  State.foldl_keeps (part := State.kennel) _ (fun _ _ => State.hostWrite_kennel _ _ _) s

theorem State.supersWritten_kennel (s : State) : s.supersWritten.kennel = s.kennel := by
  rw [State.supersWritten, State.hostWrite_kennel, State.hostWrite_kennel]

section
variable {s : State} (hwf : Memory.wf s.host = true)
include hwf

theorem State.supersWritten_hostRead : s.supersWritten.hostRead s.kennel.win 64 = s.kennel.superblock ∧
    s.supersWritten.hostRead (s.kennel.win + 64) 64 = s.kennel.superblock := by
  have hlen := s.kennel.length_superblock
  have hwf' := State.memWf_hostWrite s.kennel.superblock s s.kennel.win hwf
  have hread (t : State) (ht : Memory.wf t.host = true) (a : Nat) :
      (t.hostWrite a s.kennel.superblock).hostRead a 64 = s.kennel.superblock := by
    have h := State.hostRead_hostWrite s.kennel.superblock t a ht (by omega)
    rwa [hlen] at h
  refine ⟨?_, hread _ hwf' _⟩
  rw [State.supersWritten, State.hostRead_hostWrite_other hwf', hread s hwf]
  intro i hi j hj
  rw [Nat.add_assoc]
  exact hostAddr_ne (by omega) (by omega) (by omega)

/-- The wear table starts 4,096 bytes into the window, behind the superblocks. -/
theorem State.wearWritten_hostRead (k : Kennel) {a : Nat} (ha : a + 64 ≤ 4096) :
    (s.wearWritten k).hostRead (k.win + a) 64 = s.hostRead (k.win + a) 64 := by
  refine State.hostRead_foldl_hostWrite_other hwf _ _ fun l hl i hi j hj => ?_
  rw [k.length_wearLine] at hj
  rw [Kennel.lineAddr, Nat.add_assoc, Nat.add_assoc, Nat.add_assoc]
  have hl' := List.mem_range.mp hl
  exact hostAddr_ne (by omega) (by omega) (by omega)

end

theorem State.kn_hostRead (s : State) (stream a n : Nat) : (s.kn 0 stream).hostRead a n = s.hostRead a n := rfl

/-- A formatted window begins with two superblocks, and Kennel knows of no wear, no retired slot and no record. -/
theorem State.formatWindow_spec {s : State} (hwf : Memory.wf s.host = true) :
    (s.formatWindow .ok).hostRead s.kennel.win 64 = s.kennel.superblock ∧
    (s.formatWindow .ok).hostRead (s.kennel.win + 64) 64 = s.kennel.superblock ∧
    (s.formatWindow .ok).kennel = { s.kennel.formatted with lastErr := 0 } := by
  obtain ⟨hfirst, hsecond⟩ := State.supersWritten_hostRead (s := s.updKennel Kennel.formatted) hwf
  have hwf' : Memory.wf (s.updKennel Kennel.formatted).supersWritten.host = true :=
    State.memWf_hostWrite _ _ _ (State.memWf_hostWrite _ _ _ hwf)
  have hsuper : s.kennel.formatted.superblock = s.kennel.superblock := Kennel.superblock_congr rfl rfl
  rw [State.formatWindow_of_ok, State.kn_hostRead, State.kn_hostRead, State.kn_kennel, State.wearWritten_kennel,
    State.supersWritten_kennel, ← hsuper]
  refine ⟨?_, ?_, rfl⟩
  · exact (State.wearWritten_hostRead hwf' s.kennel.formatted (a := 0) (by decide)).trans hfirst
  · exact (State.wearWritten_hostRead hwf' s.kennel.formatted (a := 64) (by decide)).trans hsecond

/-- Settles O32: a write of CTRL by its branch, FORMAT by what it leaves in the window. -/
theorem kennelControlEnablesFormatsAndFrees : Obligations.KennelControlEnablesFormatsAndFrees := by
  unfold Obligations.KennelControlEnablesFormatsAndFrees
  intro v acc s hg
  refine ⟨fun hen hfull => ?_, fun hgo hminor => ?_, fun hgo hformat huse => ?_, fun hgo hfree hact => ?_,
    fun hminor hformat hfree => ⟨fun hen hfull hoff hgeom => ?_, fun hen hfull hoff hgeom => ?_, fun hen hon => ?_⟩,
    fun hminor hen hformat hfree hoff hnone hwf => ?_, fun hminor hen hfull hformat hfree hon hact => ?_⟩
  · exact exec_kennelCtrl_of_grants hg (State.kennelCtrl_of_early hen hfull)
  · exact exec_kennelCtrl_of_grants hg (State.kennelCtrl_of_refused hgo (.inl hminor))
  · exact exec_kennelCtrl_of_grants hg (State.kennelCtrl_of_refused hgo (.inr (.inl ⟨hformat, huse⟩)))
  · exact exec_kennelCtrl_of_grants hg (State.kennelCtrl_of_refused hgo (.inr (.inr ⟨hfree, hact⟩)))
  · exact exec_kennelCtrl_of_grants hg (State.kennelCtrl_of_enable (s := s.answered acc) hminor hformat hfree hen hfull hoff hgeom)
  · exact exec_kennelCtrl_of_grants hg (State.kennelCtrl_of_unusable (s := s.answered acc) hminor hformat hfree hen hfull hoff hgeom)
  · exact exec_kennelCtrl_of_grants hg (State.kennelCtrl_of_disable (s := s.answered acc) hminor hformat hfree hen hon)
  · obtain ⟨hfirst, hsecond, hk⟩ := State.formatWindow_spec (s := (s.answered acc).updKennel (·.controlled v)) hwf
    have hsuper : (s.kennel.controlled v).superblock = s.kennel.superblock := Kennel.superblock_congr rfl rfl
    refine ⟨_, exec_kennelCtrl_of_grants hg (State.kennelCtrl_of_format (s := s.answered acc) hminor hen hformat hfree hoff hnone),
      hfirst.trans hsuper, hsecond.trans hsuper, ?_⟩
    rw [hk]
    exact ⟨rfl, rfl, rfl, rfl⟩
  · exact exec_kennelCtrl_of_grants hg
      (State.kennelCtrl_of_freeForeign (s := s.answered acc) hminor hen hfull hformat hfree hon hact)

end Sys2Proof.Machine

/-! Kennel's scan, its snapshots, and the records that its writer makes durable (R337 to R341). -/

namespace Sys2Proof.Machine

/-! ### The scan (R341) -/

section
variable {s : State} (hrun : s.running = true) (hscan : s.kennel.scanning = true)
include hrun hscan

theorem exec_kennelScan_of_strange (h : s.superMatches = false) :
    exec (.kennelScan .ok) s = .next ((s.updKennel fun k => { k with scanning := false }).kn 0x02 0).settle := by
  rw [exec_of_guard (i := .kennelScan .ok) rfl (by rw [hrun, hscan, Bool.and_self]), if_neg (not_not_intro rfl), h,
    if_neg Bool.false_ne_true]

theorem exec_kennelScan_of_matching (h : s.superMatches = true) : exec (.kennelScan .ok) s = .next s.scanWindow.settle := by
  rw [exec_of_guard (i := .kennelScan .ok) rfl (by rw [hrun, hscan, Bool.and_self]), if_neg (not_not_intro rfl), h, if_pos rfl]

theorem exec_kennelScan_of_memErr {mem : MemCode} (h : mem ≠ .ok) : exec (.kennelScan mem) s =
    .next (((s.updKennel fun k => { k with scanning := false }).memErr mem false s.kennel.win .background).kn 0x07 0).settle := by
  rw [exec_of_guard (i := .kennelScan mem) rfl (by rw [hrun, hscan, Bool.and_self]), if_pos h]

end

/-- What the scan of a matching window leaves: an active Kennel, and the event KN_SCAN_DONE. -/
theorem State.scanWindow_eq (s : State) : ∃ k torn, k.active = true ∧ k.scanning = false ∧
    s.scanWindow = (((({ s with kennel := k } : State).raiseIf torn pgKennel 3).kn 0 0).raise pgKennel 0).checkDirty :=
  ⟨_, _, rfl, rfl, rfl⟩

theorem State.scanWindow_spec (s : State) : s.scanWindow.kennel.active = true ∧ s.scanWindow.kennel.scanning = false ∧
    (s.scanWindow.hdr pgKennel).raw.getLsbD 0 = true ∧ s.scanWindow.cores = s.cores ∧ s.scanWindow.groups = s.groups := by
  obtain ⟨k, torn, hact, hscan, heq⟩ := s.scanWindow_eq
  rw [heq, State.checkDirty_kennel, State.checkDirty_cores, State.checkDirty_groups, State.raise_kennel, State.raise_cores,
    State.raise_groups, State.kn_kennel, State.kn_cores, State.kn_groups, State.raiseIf_kennel, State.raiseIf_cores, State.raiseIf_groups]
  exact ⟨hact, hscan, State.checkDirty_keepsEvents _ _ _ (State.raise_sets _ _ (by decide)), rfl, rfl⟩

/-! ### Snapshots (R338) -/

/-- The snapshot of a member: its payload in the free half of its staging area. -/
def State.snapped (s : State) (stream : Nat) (e : Persist) (g : Group) (half : Nat) : State :=
  { s.hostWrite (e.stage + half * s.kennel.slotSize) (s.payload g e.member) with
    kennel := { s.kennel with
      snaps := s.kennel.snaps.put stream ⟨e.frame, s.payload g e.member, half⟩
      persist := s.kennel.persist.put stream { e with want := false, since := 0, half := half } } }

theorem State.snapshot_of_wanted {s : State} {stream : Nat} {e : Nat × Persist} {g : Group} (hrun : s.running = true)
    (he : s.kennel.persist.find? (fun x => x.1 == stream) = some e) (hg : s.group? e.2.gid = some g) (hact : s.kennel.active = true)
    (hwant : e.2.want = true) (hpf : s.glb.pf = false) (hbad : s.badSlotLine g e.2.member = none) :
    s.snapshot stream = s.snapped stream e.2 g (s.freeHalf stream e.2) := by
  have hgo : (!s.kennel.active || !e.2.want || s.glb.pf || !s.running) = false := by
    rw [hact, hwant, hpf, hrun]
    rfl
  unfold State.snapshot
  rw [he]
  dsimp only
  rw [hg]
  dsimp only
  rw [hgo, if_neg Bool.false_ne_true, hbad]
  dsimp only
  rw [State.updKennel, State.hostWrite_kennel, State.snapped]

/-! ### The writer (R337, R339) -/

section
variable {s : State}

theorem State.chooseTarget_of_unworn {pid slot fuel : Nat} {full : Bool} (h : s.kennel.target pid = some (slot, full))
    (hworn : s.kennel.count slot < s.kennel.wearLim) (mem : MemCode) : s.chooseTarget pid mem (fuel + 1) = (s, some (slot, full)) := by
  rw [State.chooseTarget, h]
  exact if_neg (Nat.not_le.mpr hworn)

theorem State.updKennel_congr {f g : Kennel → Kennel} (h : f s.kennel = g s.kennel) : s.updKennel f = s.updKennel g :=
  congrArg (fun k => { s with kennel := k }) h

/-- A line of the wear table that is written is noted in Kennel's lists of changed lines and written counts. -/
theorem State.writeWear_of_ok (s : State) (l : Nat) : ∃ changed written, s.writeWear l .ok =
    (s.hostWrite (s.kennel.lineAddr l) (s.kennel.wearLine l)).updKennel fun k => { k with changed := changed, written := written } := by
  unfold State.writeWear
  dsimp only
  rw [if_pos rfl, State.memCheck, if_pos rfl, State.hostWriteCode_of_ok]
  exact ⟨_, _, State.updKennel_congr rfl⟩

theorem State.wearSlot_pids (s : State) (i : Nat) : (s.wearSlot i .ok).kennel.pids = s.kennel.pids := by
  unfold State.wearSlot
  dsimp only
  split_ifs
  · obtain ⟨changed, written, heq⟩ := State.writeWear_of_ok (s.updKennel fun k =>
      ({ k with wear := Sparse.set 0 k.wear i ((k.count i + 1) % 2 ^ 24) }).touchLine i) (i / 15)
    rw [heq, State.updKennel_kennel, State.hostWrite_kennel]
    rfl
  · rfl

/-- The payload of a record goes to an unworn target, behind its count and ahead of its header. -/
theorem State.beginRecord_of_unworn {stream frame slot : Nat} {payload : List Byte} {e : Nat × Persist}
    (he : s.kennel.persist.find? (fun x => x.1 == stream) = some e) (htarget : s.kennel.target e.2.pid = some (slot, false))
    (hworn : s.kennel.count slot < s.kennel.wearLim) : ∃ r w, s.beginRecord stream frame payload .ok = (r, some w) ∧
      w.stream = stream ∧ w.pid = e.2.pid ∧ w.slot = slot ∧ w.seq = (s.kennel.info e.2.pid).seq + 1 ∧ w.frame = frame ∧
      w.payload = payload := by
  have hinfo : (s.wearSlot slot .ok).kennel.info e.2.pid = s.kennel.info e.2.pid :=
    congrArg (Sparse.get ({} : PidInfo) · e.2.pid) (s.wearSlot_pids slot)
  unfold State.beginRecord
  rw [he]
  dsimp only
  rw [State.chooseTarget_of_unworn htarget hworn]
  dsimp only
  rw [if_neg Bool.false_ne_true, if_neg (not_not_intro rfl), hinfo]
  exact ⟨_, _, rfl, rfl, rfl, rfl, rfl, rfl, rfl⟩

section
variable (hrun : s.running = true) (hact : s.kennel.active = true) (hidle : s.kennel.writing = none) (hpf : s.glb.pf = false)
include hrun hact hidle hpf

theorem kennelRecordWrite_guard : (s.kennel.active && s.kennel.writing.isNone && !s.glb.pf && s.running) = true := by
  rw [hact, hidle, hpf, hrun]
  rfl

theorem exec_kennelRecordWrite_of_none (h : s.nextSnap = none) : exec (.kennelRecordWrite .ok) s = .next s.settle := by
  rw [exec_of_guard (i := .kennelRecordWrite .ok) rfl (kennelRecordWrite_guard hrun hact hidle hpf), h]

variable {x : Nat × Snap} {r : State} (h : s.nextSnap = some x)
include h

theorem exec_kennelRecordWrite_of_begun {w : RecWrite} (hr : s.beginRecord x.1 x.2.frame x.2.payload .ok = (r, some w)) :
    exec (.kennelRecordWrite .ok) s
      = .next ({ r with kennel := { r.kennel with writing := some { w with half := x.2.half } } } : State).checkDirty.settle := by
  rw [exec_of_guard (i := .kennelRecordWrite .ok) rfl (kennelRecordWrite_guard hrun hact hidle hpf), h]
  dsimp only
  rw [hr]
  rfl

theorem exec_kennelRecordWrite_of_abandoned (hr : s.beginRecord x.1 x.2.frame x.2.payload .ok = (r, none)) :
    exec (.kennelRecordWrite .ok) s
      = .next ({ r with kennel := { r.kennel with snaps := r.kennel.snaps.del x.1 } } : State).checkDirty.settle := by
  rw [exec_of_guard (i := .kennelRecordWrite .ok) rfl (kennelRecordWrite_guard hrun hact hidle hpf), h]
  dsimp only
  rw [hr]
  rfl

end

/-! ### Acknowledged headers (R337, R339) -/

theorem State.hostWrite_host_congr {s u : State} (h : u.host = s.host) (a : Nat) (bs : List Byte) :
    (u.hostWrite a bs).host = (s.hostWrite a bs).host := by
  induction bs generalizing s u a with
  | nil => exact h
  | cons b bs ih => exact ih (congrArg (Mem.setByte · (hostAddr a) b) h) (a + 1)

/-- The engine without a header outstanding. -/
def State.headerTaken (s : State) : State := s.updKennel fun k => { k with writing := none }

theorem State.headerTaken_slotAddr (i : Nat) : s.headerTaken.kennel.slotAddr i = s.kennel.slotAddr i := rfl

/-- Once a header is acknowledged, Kennel may drop the snapshot that it was written from. -/
theorem exec_kennelHeaderAck_of_acked {w : RecWrite} {t : State} {again ok : Bool} (hw : s.kennel.writing = some w)
    (h : s.headerTaken.headerAck w .ok (s.kennel.verify && !s.glb.pf) ok = (t, again)) : ∃ snaps,
      exec (.kennelHeaderAck .ok ok) s = .next (t.updKennel fun k => { k with snaps := snaps }).checkDirty.settle := by
  simp only [exec, execKennelHeaderAck, hw, done_eq]
  rw [← State.headerTaken, h]
  dsimp only
  split_ifs
  · exact ⟨t.kennel.snaps, rfl⟩
  · exact ⟨_, rfl⟩

theorem State.headerAck_of_unchecked (w : RecWrite) (ok : Bool) :
    s.headerAck w .ok false ok = ((s.hostWrite (s.kennel.slotAddr w.slot) w.header).durable w, false) := by
  rw [State.headerAck, State.hostWriteCode_of_ok, if_neg (not_not_intro rfl), Bool.false_and, if_neg Bool.false_ne_true]

/-- A durable record is its identity's newest. -/
theorem State.durable_spec (s : State) (w : RecWrite) : (s.durable w).kennel.writing = s.kennel.writing ∧
    ((s.durable w).kennel.info w.pid).live = some w.slot ∧ ((s.durable w).kennel.info w.pid).seq = w.seq ∧
    (s.durable w).kennel.lastErr = word (w.stream % 4096 * 256) ∧ (s.durable w).host = s.host := by
  unfold State.durable
  rw [State.kn_kennel, State.kn_host, Nat.zero_add]
  refine ⟨rfl, ?_, ?_, rfl, rfl⟩
  · rw [Kennel.info, State.updKennel_kennel, Sparse.get_put_self]
  · rw [Kennel.info, State.updKennel_kennel, Sparse.get_put_self]

/-- The identity of a record that failed its read-back, without it. -/
def State.recordLost (s : State) (w : RecWrite) : State := s.updKennel fun k =>
  { k with pids := k.pids.put w.pid { k.info w.pid with live := if (k.info w.pid).live = some w.slot then none else (k.info w.pid).live } }

theorem State.recordLost_writing (w : RecWrite) : (s.recordLost w).kennel.writing = s.kennel.writing := rfl

theorem State.headerAck_of_differing (w : RecWrite) : s.headerAck w .ok true false =
    (((s.hostWrite (s.kennel.slotAddr w.slot) w.header).recordLost w).retireSlot w.slot .ok, true) := by
  rw [State.headerAck, State.hostWriteCode_of_ok, if_neg (not_not_intro rfl)]
  rfl

/-- The identity without a slot as its backup. -/
def PidInfo.unbacked (x : PidInfo) (i : Nat) : PidInfo := { x with backup := if x.backup = some i then none else x.backup }

/-- The slot is retired, and no identity's backup. -/
def Kennel.retire (k : Kennel) (i : Nat) : Kennel :=
  ({ k with retired := if k.retired.contains i then k.retired else k.retired ++ [i]
            pids := k.pids.map fun (p, x) => (p, PidInfo.unbacked x i) }).touchLine i

theorem Kennel.mem_retire (k : Kennel) (i : Nat) : i ∈ (k.retire i).retired := by
  show i ∈ if k.retired.contains i then k.retired else k.retired ++ [i]
  split_ifs with h
  · exact List.contains_iff_mem.mp h
  · exact List.mem_append_right _ List.mem_cons_self

theorem State.retireSlot_eq (s : State) (i : Nat) (mem : MemCode) :
    s.retireSlot i mem = ((s.updKennel (·.retire i)).raise pgKennel 2).writeWear (i / 15) mem := rfl

theorem State.retireSlot_spec (s : State) (i : Nat) : (s.retireSlot i .ok).kennel.writing = s.kennel.writing ∧
    i ∈ (s.retireSlot i .ok).kennel.retired ∧ ((s.retireSlot i .ok).hdr pgKennel).raw.getLsbD 2 = true := by
  obtain ⟨changed, written, heq⟩ := ((s.updKennel (·.retire i)).raise pgKennel 2).writeWear_of_ok (i / 15)
  rw [State.retireSlot_eq, heq, State.updKennel_kennel, State.updKennel_hdr, State.hostWrite_kennel, State.hostWrite_hdr_of]
  exact ⟨rfl, s.kennel.mem_retire i, State.raise_sets _ _ (by decide)⟩

end

/-- Settles O33: the scan by what it reads, the writer by the record that it begins, an acknowledgement by its read-back. -/
theorem kennelScansSnapshotsAndWritesRecords : Obligations.KennelScansSnapshotsAndWritesRecords := by
  unfold Obligations.KennelScansSnapshotsAndWritesRecords
  intro s hrun
  refine ⟨fun hscan => ⟨exec_kennelScan_of_strange hrun hscan, fun hm => ⟨_, exec_kennelScan_of_matching hrun hscan hm, ?_⟩,
      fun mem hmem => ⟨_, exec_kennelScan_of_memErr hrun hscan hmem, ?_⟩⟩,
    fun stream e g he hg hact hwant hpf hbad => ?_,
    fun hact hidle hpf => ⟨exec_kennelRecordWrite_of_none hrun hact hidle hpf, fun x r hx => ⟨fun w hr => ?_, fun hr => ?_,
      fun e slot he htarget hworn => ?_⟩⟩,
    fun w hw huncheck ok => ?_, fun w hw hverify hpf => ?_⟩
  · rw [State.settle_kennel, State.settle_hdr_of, State.settle_cores, State.settle_groups]
    exact s.scanWindow_spec
  · obtain ⟨m, heq⟩ := (s.updKennel fun k => { k with scanning := false }).memErr_eq mem false s.kennel.win .background
    rw [State.settle_kennel, State.settle_hdr_of, State.settle_hdr_of, State.kn_kennel, heq]
    exact ⟨rfl, rfl, rfl, State.kn_raises _ _ (by decide), State.kn_keepsEvents _ _ _ _ _ (State.raise_sets _ _ (by decide))⟩
  · exact congrArg (fun t : State => Host.Outcome.next t.settle) (State.snapshot_of_wanted hrun he hg hact hwant hpf hbad)
  · exact exec_kennelRecordWrite_of_begun hrun hact hidle hpf hx hr
  · exact exec_kennelRecordWrite_of_abandoned hrun hact hidle hpf hx hr
  · obtain ⟨_, w, hr, hstream, hpid, hslot, hseq, hframe, hpayload⟩ :=
      State.beginRecord_of_unworn (frame := x.2.frame) (payload := x.2.payload) he htarget hworn
    refine ⟨_, { w with half := x.2.half }, exec_kennelRecordWrite_of_begun hrun hact hidle hpf hx hr, ?_,
      hstream, hpid, hslot, hseq, hframe, hpayload, rfl⟩
    rw [State.settle_kennel, State.checkDirty_kennel]
  · obtain ⟨snaps, hexec⟩ := exec_kennelHeaderAck_of_acked (ok := ok) hw
      ((congrArg (s.headerTaken.headerAck w .ok · ok) (and_not_eq_false huncheck)).trans (State.headerAck_of_unchecked w ok))
    rw [State.headerTaken_slotAddr] at hexec
    obtain ⟨hwriting, hlive, hseq, herr, hhost⟩ := State.durable_spec (s.headerTaken.hostWrite (s.kennel.slotAddr w.slot) w.header) w
    rw [State.hostWrite_kennel] at hwriting
    rw [State.hostWrite_host_congr (u := s.headerTaken) (s := s) rfl] at hhost
    exact ⟨_, hexec, hwriting, hlive, hseq, herr, hhost⟩
  · have hcheck : (s.kennel.verify && !s.glb.pf) = true := by
      rw [hverify, hpf]
      rfl
    obtain ⟨snaps, hexec⟩ := exec_kennelHeaderAck_of_acked (ok := false) hw
      ((congrArg (s.headerTaken.headerAck w .ok · false) hcheck).trans (State.headerAck_of_differing w))
    rw [State.headerTaken_slotAddr] at hexec
    obtain ⟨hwriting, hretired, hraised⟩ := State.retireSlot_spec
      ((s.headerTaken.hostWrite (s.kennel.slotAddr w.slot) w.header).recordLost w) w.slot
    rw [State.recordLost_writing, State.hostWrite_kennel] at hwriting
    refine ⟨_, hexec, hwriting, hretired, ?_⟩
    rw [State.updKennel_hdr]
    exact hraised

end Sys2Proof.Machine

/-! Power failure: what the notice stops, and what must be done before PF_DONE (R344). -/

namespace Sys2Proof.Machine

/-! ### The notice -/

/-- What stops the calendar and what it works on: the power-fail state, the snapshots, the clock and the groups. -/
def State.pfPart (s : State) : Bool × Sparse Snap × Nat × Sparse Group := (s.glb.pf, s.kennel.snaps, s.fclk, s.groups)

theorem State.parts_of_pfPart {u : State} {pf : Bool} {snaps : Sparse Snap} {now : Nat} {groups : Sparse Group}
    (h : u.pfPart = (pf, snaps, now, groups)) : u.glb.pf = pf ∧ u.kennel.snaps = snaps ∧ u.fclk = now ∧ u.groups = groups :=
  ⟨congrArg (·.1) h, congrArg (·.2.1) h, congrArg (·.2.2.1) h, congrArg (·.2.2.2) h⟩

section
variable (s : State)

theorem State.updJob_pfPart (r : Nat) (f : Job → Job) : (s.updJob r f).pfPart = s.pfPart := by
  unfold State.updJob
  split <;> rfl

theorem State.closeSaved_pfPart (j : Job) : (s.closeSaved j).pfPart = s.pfPart := by
  refine State.foldl_keeps (part := State.pfPart) _ (fun t x => ?_) s
  obtain ⟨slot, v⟩ := x
  dsimp only
  split <;> rfl

/-- Dropping a job touches no group. -/
theorem State.dropJob_pfPart (r : Nat) (j : Job) : (s.dropJob r j).pfPart = s.pfPart := by
  obtain ⟨cs, hcs⟩ := s.unhalt_eq r
  have hunhalt : (s.unhalt r).pfPart = s.pfPart := by
    rw [hcs]
    rfl
  exact ((s.unhalt r).closeSaved_pfPart j).trans hunhalt

/-- The engine that takes no more snapshots for the power that fails. -/
def State.pfNoted (s : State) : State :=
  { s with glb := { s.glb with pf := true },
           kennel := { s.kennel with snaps := [], persist := s.kennel.persist.map fun e => (e.1, { e.2 with want := false }) } }

/-- What the notice does to the job of a ring: a running one is asked to stop, any other is dropped. -/
def State.jobFailed (s : State) (e : Nat × Job) : State :=
  if e.2.stage = .running then s.updJob e.1 fun j => { j with abortAt := some (j.abortAt.getD s.fclk) } else s.dropJob e.1 e.2

theorem State.jobFailed_pfPart (e : Nat × Job) : (s.jobFailed e).pfPart = s.pfPart := by
  unfold State.jobFailed
  split_ifs
  · exact s.updJob_pfPart _ _
  · exact s.dropJob_pfPart _ _

theorem State.powerFail_eq : ∃ cs, s.powerFail = { s.jobs.foldl State.jobFailed s.pfNoted with cores := cs } := ⟨_, rfl⟩

theorem State.powerFail_pfPart : s.powerFail.pfPart = (true, [], s.fclk, s.groups) := by
  obtain ⟨cs, hcs⟩ := s.powerFail_eq
  rw [hcs]
  exact State.foldl_keeps (part := State.pfPart) s.jobs (fun t e => t.jobFailed_pfPart e) s.pfNoted

end

/-! ### What does not happen any more -/

section
variable {s : State} (hpf : s.glb.pf = true)
include hpf

theorem exec_pfNotice_of_pf : exec .pfNotice s = .next s.settle :=
  exec_of_not_guard rfl (by rw [hpf]; exact Bool.and_false _)

theorem exec_frameFire_of_pf (p : Nat) : exec (.frameFire p) s = .next s.settle :=
  exec_of_not_guard rfl (by rw [hpf, Bool.not_true, Bool.and_false, Bool.false_and])

theorem exec_prefireFire_of_pf (p : Nat) : exec (.prefireFire p) s = .next s.settle :=
  exec_of_not_guard rfl (by rw [hpf, Bool.not_true, Bool.and_false, Bool.false_and, Bool.false_and])

theorem exec_kennelRecordWrite_of_pf (mem : MemCode) : exec (.kennelRecordWrite mem) s = .next s.settle :=
  exec_of_not_guard rfl (by rw [hpf, Bool.not_true, Bool.and_false, Bool.false_and])

theorem State.snapshot_of_pf (stream : Nat) : s.snapshot stream = s := by
  unfold State.snapshot
  split
  · rfl
  · split
    · rfl
    · rw [hpf, Bool.or_true, Bool.true_or, if_pos rfl]

end

/-! ### The final records -/

section
variable {s : State} (mem : MemCode)

theorem exec_pfFinalRecords_of_busy (h : s.framesLeft = true ∨ s.kennel.writing ≠ none) :
    exec (.pfFinalRecords mem) s = .next s.settle := by
  refine exec_of_not_guard rfl ?_
  rcases h with h | h
  · rw [h, Bool.not_true, Bool.and_false, Bool.false_and]
  · rw [Option.isNone_eq_false_iff.mpr (Option.isSome_iff_ne_none.mpr h), Bool.and_false]

theorem exec_pfFinalRecords_of_quiet (hpf : s.glb.pf = true) (hnew : s.kennel.finals = false) (hframes : s.framesLeft = false)
    (hidle : s.kennel.writing = none) : exec (.pfFinalRecords mem) s = .next (s.finalRecords mem).settle :=
  exec_of_guard rfl (by rw [hpf, hnew, hframes, hidle]; rfl)

theorem State.finalRecords_of_inactive (h : s.kennel.active = false) :
    s.finalRecords mem = { s with kennel := { s.kennel with finals := true } } := by
  rw [State.finalRecords, h, if_neg Bool.false_ne_true, State.updKennel]

theorem State.finalRecords_finals : (s.finalRecords mem).kennel.finals = true := rfl

end

/-- Settles O34: the notice by what it leaves, each later command by what it waits for. -/
theorem powerFailureEndsWithPfDone : Obligations.PowerFailureEndsWithPfDone := by
  unfold Obligations.PowerFailureEndsWithPfDone
  intro s
  refine ⟨fun hrun hpf => ?_, fun hpf => ⟨exec_pfNotice_of_pf hpf,
    fun p => ⟨exec_frameFire_of_pf hpf p, exec_prefireFire_of_pf hpf p⟩,
    fun stream => ?_, exec_kennelRecordWrite_of_pf hpf, fun hbusy mem => exec_pfFinalRecords_of_busy mem hbusy,
    fun hnew hframes hidle => ⟨fun hoff mem => ?_, fun _ mem => ⟨_, exec_pfFinalRecords_of_quiet mem hpf hnew hframes hidle, ?_⟩⟩,
    fun hfinal hnew => ?_, fun hnew => ?_⟩⟩
  · refine ⟨s.powerFail.settle, exec_of_guard rfl (by rw [hrun, hpf]; rfl), ?_⟩
    rw [State.settle_glb, State.settle_kennel, State.settle_fclk, State.settle_groups]
    exact State.parts_of_pfPart s.powerFail_pfPart
  · exact congrArg (fun t : State => Host.Outcome.next t.settle) (State.snapshot_of_pf hpf stream)
  · rw [exec_pfFinalRecords_of_quiet mem hpf hnew hframes hidle, State.finalRecords_of_inactive mem hoff]
  · rw [State.settle_kennel, State.finalRecords_finals]
  · exact exec_of_guard rfl (by rw [hpf, hfinal, hnew]; rfl)
  · exact exec_of_not_guard rfl (by rw [hnew, Bool.and_false, Bool.false_and])

end Sys2Proof.Machine

/-! The event registers: writes of EVT_CLR and EVT_SET, and what raising an event records (R345, R424 to R426). -/

namespace Sys2Proof.Machine

/-- EVT_CLR and EVT_SET stand in the header of every page with events, outside the key slots. -/
theorem eventWord : ∀ p < 59, ∀ o ∈ [0x28, 0x2C],
    (regAddr (pageBase p + o) = pageBase p + o ∧ (pageBase p + o) % 0x1000 = o ∧ o < 0x40 ∧ isKeySlot (pageBase p + o) = false) ∧
    pageKind (pageBase p + o) = pageKind (pageBase p) ∧ pageReg (pageKind (pageBase p)) o = true ∧
    (pageKind (pageBase p)).index = p ∧ pageKind (pageBase p) ≠ .fuse ∧ pageKind (pageBase p) ≠ .doorbell := by
  decide +kernel

theorem writeAllowed_of_priv {a : Nat} {acc : Acc} (hkey : isKeySlot a = false) (hpriv : acc.priv = true) : writeAllowed a acc = true := by
  unfold writeAllowed
  rw [hkey, hpriv]
  split <;> rfl

section
variable {s : State} {p o : Nat} {acc : Acc} (hp : p < 59) (ho : o ∈ [0x28, 0x2C])
include hp ho

theorem State.grants_eventWord (hrun : s.running = true) (hact : s.pageActs (pageKind (pageBase p)) = true) (hpriv : acc.priv = true) :
    s.grants (regAddr (pageBase p + o)) acc = true := by
  obtain ⟨⟨haddr, hoff, -, hkey⟩, hkind, hreg, -, -, -⟩ := eventWord p hp o ho
  rw [State.grants, haddr, hkind, hoff, hrun, hact, hreg, writeAllowed_of_priv hkey hpriv]
  rfl

theorem State.writeReg_eventWord (v : Word) :
    s.writeReg (regAddr (pageBase p + o)) v acc = s.writeHeader (pageKind (pageBase p)) o v := by
  obtain ⟨⟨haddr, hoff, hlow, -⟩, hkind, -, -, -, hdb⟩ := eventWord p hp o ho
  rw [State.writeReg, haddr, hoff, hkind]
  exact if_pos ⟨hlow, hdb⟩

end

section
variable {s : State} {p : Nat} {acc : Acc} (v : Word) (hp : p < 59) (hrun : s.running = true)
  (hact : s.pageActs (pageKind (pageBase p)) = true) (hpriv : acc.priv = true)
include hp hrun hact hpriv

theorem exec_evtClr_of_page : exec (.evtClr p v acc) s = .next ((s.answered acc).evtClear p v).settle := by
  obtain ⟨-, -, -, hindex, hfuse, -⟩ := eventWord p hp 0x28 (by decide)
  refine exec_of_cfgWrite rfl (State.grants_eventWord hp (by decide) hrun hact hpriv) ?_
  rw [State.writeReg_eventWord hp (by decide), State.writeHeader, if_neg hfuse, hindex]

theorem exec_evtSet_of_page : exec (.evtSet p v acc) s = .next ((s.answered acc).evtSet p v).settle := by
  obtain ⟨-, -, -, hindex, hfuse, -⟩ := eventWord p hp 0x2C (by decide)
  refine exec_of_cfgWrite rfl (State.grants_eventWord hp (by decide) hrun hact hpriv) ?_
  rw [State.writeReg_eventWord hp (by decide), State.writeHeader, if_neg hfuse, hindex]

end

theorem State.raise_hdr_mask (s : State) (p b : Nat) : ((s.raise p b).hdr p).mask = (s.hdr p).mask := by
  simp only [State.raise, State.raiseAs, State.updHdr_hdr, if_true, Hdr.fillFirst]
  split_ifs <;> rfl

/-- An event that is not an error event leaves FIRST_ERR alone (R426). -/
theorem State.raise_hdr_first_of_info {s : State} {p b : Nat} (h : isErrEvent p b = false) :
    ((s.raise p b).hdr p).first = (s.hdr p).first := by
  simp only [State.raise, State.raiseAs, State.updHdr_hdr, if_true, h, Bool.false_eq_true, if_false]

/-- Settles O8: each write by its register, an event by whether it is an error event and FIRST_ERR is free. -/
theorem eventsAreWrittenClearedAndRecorded : Obligations.EventsAreWrittenClearedAndRecorded := by
  unfold Obligations.EventsAreWrittenClearedAndRecorded
  refine ⟨fun p v acc s hp hrun hact hpriv => ⟨exec_evtClr_of_page v hp hrun hact hpriv, exec_evtSet_of_page v hp hrun hact hpriv⟩,
    fun s p b _ => ⟨State.raise_hdr_raw s p b, State.raise_hdr_mask s p b, State.raise_hdr_first_of_free, fun h => ?_,
      fun q => State.raise_hdr_ne s b, rfl⟩⟩
  exact h.elim (State.raise_hdr_first_of_valid b) State.raise_hdr_first_of_info

end Sys2Proof.Machine

/-! Received frames: the steps of R353, of which a frame is dropped at the first that it fails (R353, R354). -/

namespace Sys2Proof.Machine

/-! ### The rows of the thirteen messages -/

/-- A message that comes to the same whatever its own effect is, the row of its type takes so. -/
theorem State.takes_of_onMessage {s t : State} {ty : Nat} {f : PeerFrame} (h : ∀ act, s.onMessage ty f act = t) :
    s.takes ty f t.settle := by
  refine ⟨?_, ?_, ?_, ?_, ?_, ?_, ?_, ?_, ?_, ?_, ?_, ?_, ?_⟩ <;> rintro rfl
  case refine_3 => exact fun mem => congrArg done (h _)
  all_goals exact congrArg done (h _)

section
variable {s u : State} {ty m : Nat} {f : PeerFrame} {b : List Byte}

theorem State.takes_of_reset (h : s.running = false) : s.takes ty f s.settle :=
  State.takes_of_onMessage fun act => by rw [State.onMessage, h]; rfl

variable (hrun : s.running = true)
include hrun

/-- A frame that fails one of the steps 1 to 6 has that step's effect alone. -/
theorem State.takes_of_dropped (h : s.peerReceive ty f = (u, none)) : s.takes ty f u.settle :=
  State.takes_of_onMessage fun act => by rw [State.onMessage, hrun, h]; rfl

/-- Step 7: only a HELLO acts on a partner that is JOINING, and nothing on one that is DOWN. -/
theorem State.takes_of_early (h : s.peerReceive ty f = (u, some (m, b)))
    (hst : (u.partner m).st = .down ∨ ((u.partner m).st = .joining ∧ ty ≠ 1)) : s.takes ty f u.settle := by
  refine State.takes_of_onMessage fun act => ?_
  have hdrop : ¬ ((u.partner m).st = .up ∨ (ty = 1 ∧ (u.partner m).st = .joining)) := by
    rcases hst with hdown | ⟨hjoining, hty⟩
    · simp [hdown]
    · simp [hjoining, hty]
  simp only [State.onMessage, hrun, h, hdrop, Bool.not_true, Bool.false_eq_true, if_false]

end

/-! ### The replay window (R354) -/

/-- The window that has taken counter `n`. -/
def Partner.movedTo (p : Partner) (n : Nat) : Partner :=
  { p with
    high := max p.high n
    bitmap := if p.high < n then (p.bitmap * 2 ^ min 64 (n - p.high) + 1) % 2 ^ 64 else p.bitmap + 2 ^ (p.high - n) }

theorem Partner.window_of_replayed {p : Partner} {n : Nat} (hle : n ≤ p.high)
    (h : n + 64 ≤ p.high ∨ p.bitmap / 2 ^ (p.high - n) % 2 = 1) : p.window n = none := by
  rw [Partner.window, if_neg (by omega), if_neg (by omega)]

theorem Partner.window_of_fresh {p : Partner} {n : Nat}
    (h : p.high < n ∨ (p.high < n + 64 ∧ p.bitmap / 2 ^ (p.high - n) % 2 = 0)) : p.window n = some (p.movedTo n) := by
  rw [Partner.window, Partner.movedTo]
  by_cases hlt : p.high < n
  · rw [if_pos hlt, if_pos hlt, max_eq_right hlt.le]
  · rw [if_neg hlt, if_neg hlt, if_pos (h.resolve_left hlt), max_eq_left (Nat.not_lt.mp hlt)]

/-! ### Steps 1 to 6 (R353) -/

/-- Step 1 fails: length, tag length, or destination. -/
def State.misaddressed (s : State) (f : PeerFrame) : Prop :=
  9216 < 32 + f.body.length ∨ f.tag.length ≠ 16 ∨ f.dst.toNat ≠ s.selfMember

/-- Step 2 fails: the sender is no enabled partner of this span. -/
def State.strange (s : State) (f : PeerFrame) : Prop :=
  f.sid.toNat / 65536 ≠ wbits s.peer.self 31 16 ∨ 16 ≤ f.sid.toNat % 65536 ∨ f.sid.toNat % 65536 = s.selfMember ∨
    (s.partner (f.sid.toNat % 65536)).en = false

/-- The partner that a frame names as its sender. -/
def State.sender (s : State) (f : PeerFrame) : Partner := s.partner (f.sid.toNat % 65536)

/-- The key schedule under which a frame of that sender is opened. -/
def State.rxSchedule (s : State) (f : PeerFrame) : List (List Nat) :=
  keySchedule (keyBytes (Sparse.get 0 s.peer.keys (s.sender f).rxKey))

/-- Step 4 passes: the tag is that of the frame under the key. -/
def State.sealGood (s : State) (ty : Nat) (f : PeerFrame) : Prop :=
  bytesOf (gcmTag (s.rxSchedule f) (gcmIv f.sid.toNat f.ctr.toNat) (peerHeader f ty) (natBytes f.body)) = f.tag

/-- The deciphered body of a frame. -/
def State.clearBody (s : State) (f : PeerFrame) : List Byte :=
  bytesOf (gctr (s.rxSchedule f) (gcmIv f.sid.toNat f.ctr.toNat) (natBytes f.body))

/-- Step 6 passes: version and body are those of the message type. -/
def State.wellFormed (s : State) (ty : Nat) (f : PeerFrame) : Prop :=
  (if ty = 1 then wbits f.ver 15 8 = 1 else f.ver.toNat = 0x100 + (s.sender f).minor) ∧ bodyOk ty (s.clearBody f) = true

/-- A partner after a token of it has been spent. -/
def Partner.spent (p : Partner) : Partner := { p with tokens := p.tokens - 1 }

/-- The receive window as step 5 finds it. -/
theorem State.spent_window (s : State) (m n : Nat) :
    ((s.updPartner m fun p => { p with tokens := p.tokens - 1 }).partner m).window n = (s.partner m).spent.window n := by
  rw [State.updPartner_partner, if_pos rfl, Partner.spent]

section
variable {s : State} {ty : Nat} {f : PeerFrame}

theorem State.peerReceive_of_misaddressed (h : s.misaddressed f) : s.peerReceive ty f = (s.rxBad, none) := if_pos h

variable (h1 : ¬ s.misaddressed f)
include h1

theorem State.peerReceive_of_strange (h : s.strange f) :
    s.peerReceive ty f = (s.updPeer fun q => { q with rxUnknown := satAdd 0xFFFF q.rxUnknown 1 }, none) :=
  (if_neg h1).trans (if_pos h)

variable (h2 : ¬ s.strange f)
include h2

theorem State.peerReceive_of_no_token (h : (s.sender f).tokens = 0) : s.peerReceive ty f =
    (s.updPartner (f.sid.toNat % 65536) fun q => { q with rateDrop := satAdd 0xFFFF q.rateDrop 1 }, none) :=
  (if_neg h1).trans ((if_neg h2).trans (if_pos h))

variable (h3 : (s.sender f).tokens ≠ 0)
include h3

theorem State.peerReceive_of_bad_seal (h : ¬ s.sealGood ty f) : s.peerReceive ty f =
    ((s.updPartner (f.sid.toNat % 65536) fun _ =>
      { (s.sender f).spent with authf := satWord (s.sender f).authf 1 }).raise pgPeer 2, none) := by
  refine (if_neg h1).trans ((if_neg h2).trans ((if_neg h3).trans ((if_pos h).trans ?_)))
  rw [State.updPartner_updPartner]
  rfl

variable (h4 : s.sealGood ty f)
include h4

theorem State.peerReceive_of_replayed (h : (s.sender f).spent.window f.ctr.toNat = none) : s.peerReceive ty f =
    (s.updPartner (f.sid.toNat % 65536) fun _ =>
      { (s.sender f).spent with replayDrop := satAdd 0xFFFF (s.sender f).replayDrop 1 }, none) := by
  refine (if_neg h1).trans ((if_neg h2).trans ((if_neg h3).trans ((if_neg (not_not_intro h4)).trans ?_)))
  simp only [(s.spent_window _ _).trans h, State.updPartner_updPartner]
  rfl

variable {q : Partner} (h5 : (s.sender f).spent.window f.ctr.toNat = some q)
include h5

theorem State.peerReceive_of_malformed (h : ¬ s.wellFormed ty f) : s.peerReceive ty f =
    ((s.updPartner (f.sid.toNat % 65536) fun _ => q).rxBad, none) := by
  refine (if_neg h1).trans ((if_neg h2).trans ((if_neg h3).trans ((if_neg (not_not_intro h4)).trans ?_)))
  simp only [(s.spent_window _ _).trans h5, State.updPartner_updPartner]
  refine if_pos ?_
  by_contra hgood
  obtain ⟨hver, hbody⟩ := not_or.mp hgood
  refine h ⟨?_, Bool.eq_true_of_not_eq_false hbody⟩
  split_ifs with hty
  · simpa [hty] using hver
  · simpa [hty, State.sender] using hver

theorem State.peerReceive_of_wellFormed (h : s.wellFormed ty f) : s.peerReceive ty f =
    (s.updPartner (f.sid.toNat % 65536) fun _ => q, some (f.sid.toNat % 65536, s.clearBody f)) := by
  obtain ⟨hver, hbody⟩ := h
  refine (peerReceive_of s ty f q _ _ rfl rfl h1 h2 h3 _ rfl _ rfl h4 ((s.spent_window _ _).trans h5) ?_ _ rfl hbody).trans ?_
  · split_ifs at hver ⊢ <;> exact beq_iff_eq.mpr hver
  · rw [State.updPartner_updPartner]
    rfl

end

/-- Settles O55: the steps in their order, each under the steps before it. -/
theorem peerFramesAreCheckedInOrder : Obligations.PeerFramesAreCheckedInOrder := by
  unfold Obligations.PeerFramesAreCheckedInOrder
  intro ty f s
  refine ⟨State.takes_of_reset, fun hrun h => State.takes_of_dropped hrun (State.peerReceive_of_misaddressed h), fun hrun h1 =>
    ⟨fun h => State.takes_of_dropped hrun (State.peerReceive_of_strange h1 h), fun h2 =>
      ⟨fun h => State.takes_of_dropped hrun (State.peerReceive_of_no_token h1 h2 h),
        fun h3 h => State.takes_of_dropped hrun (State.peerReceive_of_bad_seal h1 h2 h3 h),
        fun h3 h4 hle h => State.takes_of_dropped hrun (State.peerReceive_of_replayed h1 h2 h3 h4 (Partner.window_of_replayed hle h)),
        fun h3 h4 h => ?_⟩⟩⟩
  have h5 : (s.sender f).spent.window f.ctr.toNat = some ((s.sender f).spent.movedTo f.ctr.toNat) := Partner.window_of_fresh h
  refine ⟨fun h6 => State.takes_of_dropped hrun (State.peerReceive_of_malformed h1 h2 h3 h4 h5 h6), fun h6 => ?_⟩
  have hreceive := State.peerReceive_of_wellFormed h1 h2 h3 h4 h5 h6
  refine ⟨hreceive, fun hst => State.takes_of_early hrun hreceive ?_⟩
  rw [State.updPartner_partner, if_pos rfl]
  exact hst

end Sys2Proof.Machine

/-! What the messages of an accepted frame do to partners and to either side of a migration (R350, R356, R357, R362 to R366, R368). -/

namespace Sys2Proof.Machine

/-! ### Sending -/

/-- Frames sent to partners: the partners and the transmit queues are rewritten, and events raised; all else stands. -/
def State.Sends (s t : State) : Prop :=
  ∃ parts us os hs, t = { s with peer := { s.peer with parts := parts, urgent := us, ordered := os }, hdrs := hs }

theorem State.Sends.refl (s : State) : s.Sends s := ⟨_, _, _, _, rfl⟩

theorem State.Sends.trans {s t u : State} (h : s.Sends t) (h' : t.Sends u) : s.Sends u := by
  obtain ⟨parts, us, os, hs, rfl⟩ := h
  obtain ⟨parts', us', os', hs', rfl⟩ := h'
  exact ⟨parts', us', os', hs', rfl⟩

theorem State.Sends.ite {s t u : State} {p : Prop} [Decidable p] (ht : s.Sends t) (hu : s.Sends u) : s.Sends (if p then t else u) := by
  split_ifs
  · exact ht
  · exact hu

theorem State.raiseIf_sends (s : State) (c : Bool) (p b : Nat) : s.Sends (s.raiseIf c p b) := by
  obtain ⟨hs, h⟩ := s.raiseIf_eq c p b
  exact ⟨_, _, _, hs, h⟩

theorem State.sendPeer_sends (s : State) (m type : Nat) (body : List Byte) (urgent : Bool) : s.Sends (s.sendPeer m type body urgent) := by
  unfold State.sendPeer
  refine .ite (.refl s) (.trans ?_ (State.raiseIf_sends _ _ _ _))
  cases urgent <;> exact ⟨_, _, _, _, rfl⟩

section
variable {s t : State} (h : s.Sends t)
include h

theorem State.Sends.out : t.peer.out = s.peer.out := by obtain ⟨_, _, _, _, rfl⟩ := h; rfl

theorem State.Sends.inc : t.peer.inc = s.peer.inc := by obtain ⟨_, _, _, _, rfl⟩ := h; rfl

theorem State.Sends.acptStat : t.peer.acptStat = s.peer.acptStat := by obtain ⟨_, _, _, _, rfl⟩ := h; rfl

theorem State.Sends.migFrame : t.peer.migFrame = s.peer.migFrame := by obtain ⟨_, _, _, _, rfl⟩ := h; rfl

theorem State.Sends.migStat : t.peer.migStat = s.peer.migStat := by obtain ⟨_, _, _, _, rfl⟩ := h; rfl

theorem State.Sends.groups : t.groups = s.groups := by obtain ⟨_, _, _, _, rfl⟩ := h; rfl

end

/-! ### The message of a frame that passes the steps of R353 -/

/-- The state in which the arrival of a frame from partner `m` has been noted. -/
def State.heardFrom (u : State) (m : Nat) : State := u.updPartner m fun p => { p with heard := u.fclk }

theorem State.heardFrom_st (u : State) (m : Nat) : ((u.heardFrom m).partner m).st = (u.partner m).st := by
  rw [State.heardFrom, State.updPartner_partner, if_pos rfl]

section
variable {i : Instr} {s u t : State} {ty m : Nat} {f : PeerFrame} {b : List Byte} {act : State → Nat → List Byte → State}
  (he : exec i s = done (s.onMessage ty f act)) (hrun : s.running = true)
include he hrun

theorem exec_of_allowed (hreceive : s.peerReceive ty f = (u, some (m, b)))
    (hst : (u.partner m).st = .up ∨ (ty = 1 ∧ (u.partner m).st = .joining)) (ht : act (u.heardFrom m) m b = t) :
    exec i s = .next t.settle := by
  rw [he, done_eq, State.onMessage, hrun, hreceive]
  simp only [Bool.not_true, Bool.false_eq_true, if_false, if_pos hst]
  rw [← ht, State.heardFrom]

/-- A message from a partner that is UP has its own effect. -/
theorem exec_of_message (hgot : s.peerReceive ty f = (u, some (m, b)) ∧ (u.partner m).st = .up) (ht : act (u.heardFrom m) m b = t) :
    exec i s = .next t.settle :=
  exec_of_allowed he hrun hgot.1 (.inl hgot.2) ht

end

/-! ### HELLO and HEARTBEAT (R350, R356, R365) -/

/-- A partner that was not UP takes another state and no more. -/
theorem State.partnerTo_of_not_up {s : State} {m : Nat} (h : (s.partner m).st ≠ .up) (st : PartState) :
    s.partnerTo m st = s.updPartner m fun p => { p with st := st } := if_neg fun hup => h hup.1

section
variable {s : State} {m : Nat} {b : List Byte}

theorem State.onHello_of_up (h : (s.partner m).st = .up) : s.onHello m b = s.sendPeer m 0x01 s.helloBody true := if_pos h

theorem State.skewed_of_netTime {now : DWord} (h : s.netTime? = some now) (n : Nat) :
    s.skewed n = decide (s.peer.tskew.toNat < max now.toNat n - min now.toNat n) := by
  rw [State.skewed, h]

section
variable (hst : (s.partner m).st = .joining)
include hst

theorem State.not_up_of_joining : ¬ (s.partner m).st = .up := by rw [hst]; exact PartState.noConfusion

theorem State.onHello_of_no_netTime (h : s.netTime? = none) : s.onHello m b = s :=
  (if_neg (State.not_up_of_joining hst)).trans (if_pos (by rw [h]; rfl))

section
variable {now : DWord} (hnow : s.netTime? = some now)
include hnow

theorem State.onHello_of_netTime : s.onHello m b =
    if fieldAt b 1 1 ≠ 1 ∨ fieldAt b 3 1 ≠ 1 ∨ fieldAt b 0 1 ≠ 0 then s.raise pgPeer 3
    else if s.skewed (fieldAt b 8 8) then s.raise pgPeer 4
    else ((s.updPartner m fun p => { p with minor := 0 }).partnerTo m .up).raise pgPeer 0 :=
  (if_neg (State.not_up_of_joining hst)).trans (if_neg (by rw [hnow]; exact Bool.false_ne_true))

theorem State.onHello_of_version (h : ¬ (fieldAt b 1 1 = 1 ∧ fieldAt b 3 1 = 1 ∧ fieldAt b 0 1 = 0)) :
    s.onHello m b = s.raise pgPeer 3 :=
  (State.onHello_of_netTime hst hnow).trans (if_pos (by tauto))

variable (hver : fieldAt b 1 1 = 1 ∧ fieldAt b 3 1 = 1 ∧ fieldAt b 0 1 = 0)
include hver

theorem State.onHello_of_skewed (h : s.peer.tskew.toNat < max now.toNat (fieldAt b 8 8) - min now.toNat (fieldAt b 8 8)) :
    s.onHello m b = s.raise pgPeer 4 :=
  (State.onHello_of_netTime hst hnow).trans ((if_neg (by tauto)).trans
    (if_pos (by rw [State.skewed_of_netTime hnow]; exact decide_eq_true h)))

theorem State.onHello_joins (h : ¬ s.peer.tskew.toNat < max now.toNat (fieldAt b 8 8) - min now.toNat (fieldAt b 8 8)) :
    s.onHello m b = (s.updPartner m fun p => { p with minor := 0, st := .up }).raise pgPeer 0 := by
  refine (State.onHello_of_netTime hst hnow).trans ((if_neg (by tauto)).trans
    ((if_neg (by rw [State.skewed_of_netTime hnow, decide_eq_true_iff]; exact h)).trans ?_))
  rw [State.partnerTo_of_not_up, State.updPartner_updPartner]
  rw [State.updPartner_partner, if_pos rfl]
  exact State.not_up_of_joining hst

end

end

theorem State.onHeartbeat_of_skewed (h : s.skewed (fieldAt b 0 8) = true) :
    s.onHeartbeat m b = (s.partnerTo m .joining).raise pgPeer 4 := if_pos h

section
variable (hskew : s.skewed (fieldAt b 0 8) = false)
include hskew

theorem State.onHeartbeat_of_no_inc (h : s.peer.inc = none) : s.onHeartbeat m b = s := by
  rw [State.onHeartbeat, hskew, h]
  rfl

variable {x : MigIn} (hinc : s.peer.inc = some x)
include hinc

theorem State.onHeartbeat_of_inc :
    s.onHeartbeat m b = if x.src = m ∧ x.state = 3 ∧ fieldAt b 8 4 = 0 then s.migInDone else s := by
  rw [State.onHeartbeat, hskew, hinc]
  rfl

end

end

/-! ### OFFER (R362, R368) -/

/-- Does the ARM body `d` name group `gid`, still reserved, on the terms of the OFFER? -/
def State.offerTerms (s : State) (b : List Byte) (gid : Nat) (g : Group) (d : Desc) : Prop :=
  addr48 s.peer.acptArmLo s.peer.acptArmHi % 64 = 0 ∧ d.target = gid ∧ g.stage = .reserved ∧ s.offerMatches (g.named d) b = true

theorem State.offerTerms_iff {s : State} {b : List Byte} {gid : Nat} {g : Group} {d : Desc} : s.offerTerms b gid g d ↔
    ¬ (addr48 s.peer.acptArmLo s.peer.acptArmHi % 64 ≠ 0 ∨ d.target ≠ gid ∨ g.stage ≠ .reserved ∨
      s.offerMatches (g.named d) b = false) := by
  simp only [State.offerTerms, not_or, not_not, Bool.not_eq_false]

/-- The group of the acceptance registers armed as a shadow, from the first frame that the OFFER names. -/
def State.shadowArmed (s : State) (b : List Byte) (h : Group) (mem : MemCode) : State :=
  let gid := wbits s.peer.acptGid 11 0
  let t := (s.armGroup gid h [] mem).updGroup gid fun x =>
    { x with shadow := true, nextClose := fieldAt b 16 8, oldest := fieldAt b 16 8 }
  t.updEntry ((t.group? gid).getD h) fun e => { e with next := dword (fieldAt b 24 8) }

/-- The incoming migration that an accepted OFFER begins. -/
def State.offeredMig (s : State) (m : Nat) (b : List Byte) : MigIn :=
  { id := fieldAt b 0 4, gid := wbits s.peer.acptGid 11 0, src := m, s := fieldAt b 16 8, nshadow := fieldAt b 13 1
    core := wbits s.peer.acptGid 20 16, collar := wbits s.peer.acptGid 24 21, state := 1 }

/-- What an accepted OFFER does: the shadow, the incoming migration, and ACCEPT. -/
def State.offerAccepted (s : State) (m : Nat) (b : List Byte) (h : Group) (mem : MemCode) : State :=
  let x := s.offeredMig m b
  ((s.shadowArmed b h mem).updPeer fun p => { p with inc := some x, acptStat := 0 }).sendPeer m 0x11
    (toBytes 4 x.id ++ toBytes 1 x.core ++ toBytes 1 x.collar ++ toBytes 2 0) false

theorem State.offerAccepted_inc (s : State) (m : Nat) (b : List Byte) (h : Group) (mem : MemCode) :
    (s.offerAccepted m b h mem).peer.inc = some (s.offeredMig m b) := (State.sendPeer_sends _ _ _ _ _).inc

theorem State.offerAccepted_acptStat (s : State) (m : Nat) (b : List Byte) (h : Group) (mem : MemCode) :
    (s.offerAccepted m b h mem).peer.acptStat = 0 := (State.sendPeer_sends _ _ _ _ _).acptStat

section
variable {s : State} {m : Nat} {b : List Byte} {mem : MemCode}

theorem State.onOffer_of_closed
    (h : wbits s.peer.acptGid 31 31 = 0 ∨ wbits s.peer.acptGid 15 12 ≠ m ∨ s.peer.inc.isSome = true) : s.onOffer m b mem = s :=
  if_pos h

variable (hen : wbits s.peer.acptGid 31 31 = 1) (hsrc : wbits s.peer.acptGid 15 12 = m) (hnew : s.peer.inc = none)
include hen hsrc hnew

theorem State.offer_open : ¬ (wbits s.peer.acptGid 31 31 = 0 ∨ wbits s.peer.acptGid 15 12 ≠ m ∨ s.peer.inc.isSome = true) := by
  simp [hen, hsrc, hnew]

theorem State.onOffer_of_memErr (h : mem ≠ .ok) : s.onOffer m b mem =
    (s.memErr mem false (addr48 s.peer.acptArmLo s.peer.acptArmHi) .control).refuseOffer m (fieldAt b 0 4) 0x06 0 :=
  (if_neg (State.offer_open hen hsrc hnew)).trans (if_pos h)

variable (hmem : mem = .ok)
include hmem

theorem State.onOffer_of_no_group (h : s.group? (wbits s.peer.acptGid 11 0) = none) :
    s.onOffer m b mem = s.refuseOffer m (fieldAt b 0 4) 0x05 0 := by
  rw [State.onOffer, if_neg (State.offer_open hen hsrc hnew), if_neg (not_not_intro hmem), h]

variable {g : Group} {w : Nat} (hg : s.group? (wbits s.peer.acptGid 11 0) = some g)
  (hw : 0x11 + s.hostNat (addr48 s.peer.acptArmLo s.peer.acptArmHi) 32 * 2 ^ 256 = w)
include hg hw

/-- The answers to an OFFER for a group: by its terms, by the checks of acceptance (R289) on the ARM body `w`, by those of ARM. -/
theorem State.onOffer_of_group :
    (¬ s.offerTerms b (wbits s.peer.acptGid 11 0) g { seq := 0, w := w } →
      s.onOffer m b mem = s.refuseOffer m (fieldAt b 0 4) 0x05 0) ∧
    (s.offerTerms b (wbits s.peer.acptGid 11 0) g { seq := 0, w := w } →
      (∀ c, s.acceptCheck { cls := 1 } { seq := 0, w := w } false = some c →
        s.onOffer m b mem = s.refuseOffer m (fieldAt b 0 4) 0x06 c.pstat) ∧
      (s.acceptCheck { cls := 1 } { seq := 0, w := w } false = none →
        (∀ c, s.armCheck { seq := 0, w := w } = .inl c → s.onOffer m b mem = s.refuseOffer m (fieldAt b 0 4) 0x06 c.pstat) ∧
        ∀ h, s.armCheck { seq := 0, w := w } = .inr h → s.onOffer m b mem = s.offerAccepted m b h mem)) := by
  rw [State.onOffer, if_neg (State.offer_open hen hsrc hnew), if_neg (not_not_intro hmem), hg]
  -- the model's spelling of the word and that of `hw` need not be the same term, so they are compared here alone
  generalize hword : 0x11 + s.hostNat (addr48 s.peer.acptArmLo s.peer.acptArmHi) 32 * _ = w'
  obtain rfl : w' = w := hword.symm.trans hw
  refine ⟨fun h => if_pos (not_not.mp (mt State.offerTerms_iff.mpr h)),
    fun hterms => ⟨fun c hc => ?_, fun hc => ⟨fun c ha => ?_, fun h ha => ?_⟩⟩⟩
  all_goals refine (if_neg (State.offerTerms_iff.mp hterms)).trans ?_
  · rw [hc]
  · simp only [hc, ha]
  · simp only [hc, ha]
    rfl

end

/-! ### Messages that name a migration (R357) -/

section
variable {s : State} {m : Nat} {b : List Byte}

theorem State.withIn_of_other (act : State → MigIn → State)
    (h : ∀ x, s.peer.inc = some x → ¬ (x.src = m ∧ x.id = fieldAt b 0 4)) : s.withIn m b act = s := by
  unfold State.withIn
  split
  case h_1 x hinc => exact if_neg (h x hinc)
  case h_2 => rfl

theorem State.withIn_of_named {x : MigIn} (act : State → MigIn → State) (hinc : s.peer.inc = some x) (hsrc : x.src = m)
    (hid : x.id = fieldAt b 0 4) : s.withIn m b act = act s x := by
  rw [State.withIn, hinc]
  exact if_pos ⟨hsrc, hid⟩

theorem State.withOut_of_other (act : State → MigOut → State)
    (h : ∀ o, s.peer.out = some o → ¬ (o.dest = m ∧ o.id = fieldAt b 0 4 ∧ o.state ≠ 5)) : s.withOut m b act = s := by
  unfold State.withOut
  split
  case h_1 o hout => exact if_neg (h o hout)
  case h_2 => rfl

theorem State.withOut_of_named {o : MigOut} (act : State → MigOut → State) (hout : s.peer.out = some o) (hdest : o.dest = m)
    (hid : o.id = fieldAt b 0 4) (hst : o.state ≠ 5) : s.withOut m b act = act s o := by
  rw [State.withOut, hout]
  exact if_pos ⟨hdest, hid, hst⟩

end

/-! ### The destination: SNAP, SNAP_DONE, COMMIT, YIELD (R363, R365) -/

theorem Core.landBytes_spd_foldl (k : Core) (base : Nat) (bs : List (Byte × Nat)) :
    (k.landBytes base bs).spd = bs.foldl (fun q z => q.setByte (base + z.2) z.1) k.spd := by
  induction bs generalizing k with
  | nil => rfl
  | cons z bs ih => exact ih _

theorem State.tryInstall_of_no_size {s : State} {x : MigIn} (hinc : s.peer.inc = some x) (h : x.size = none) : s.tryInstall = s := by
  simp only [State.tryInstall, hinc, h]

section
variable {s : State} {m : Nat} {b : List Byte} {x : MigIn} (hinc : s.peer.inc = some x) (hsrc : x.src = m) (hid : x.id = fieldAt b 0 4)
include hinc hsrc hid

theorem State.onSnap_of_loaded (h : x.state ≠ 1) : s.onSnap m b = s :=
  (State.withIn_of_named _ hinc hsrc hid).trans (if_pos h)

theorem State.onSnapDone_of_loaded (h : x.state ≠ 1) : s.onSnapDone m b = s :=
  (State.withIn_of_named _ hinc hsrc hid).trans (if_pos h)

theorem State.onSnapDone_of_shadow (h : x.state = 1) :
    s.onSnapDone m b = (s.updPeer fun p => { p with inc := some { x with size := some (fieldAt b 4 4) } }).tryInstall :=
  (State.withIn_of_named _ hinc hsrc hid).trans (if_neg (not_not_intro h))

theorem State.onYield_of_owner (h : x.state = 3) :
    s.onYield m b = (s.updPeer fun p => { p with inc := none, acptStat := 0 }).raise pgPeer 6 :=
  (State.withIn_of_named _ hinc hsrc hid).trans (if_pos h)

theorem State.onYield_of_shadow (h : x.state ≠ 3) : s.onYield m b = s :=
  (State.withIn_of_named _ hinc hsrc hid).trans (if_neg h)

theorem State.onCommit_of_group {g : Group} (hg : s.group? x.gid = some g) : s.onCommit m b =
    if x.state = 2 ∧ fieldAt b 8 8 = x.s + x.nshadow ∧ g.oldest ≤ x.s + x.nshadow then
      (s.updPeer fun p => { p with inc := some { x with committed := true } }).sendPeer m 0x17
        (toBytes 4 x.id ++ toBytes 4 0 ++ toBytes 8 (x.s + x.nshadow)) false
    else s := by
  refine (State.withIn_of_named _ hinc hsrc hid).trans ?_
  simp only [hg]
  rfl

section
variable (hst : x.state = 1)
include hst

theorem State.onSnap_of_refused {why : Nat} (h : peerWhy (Sparse.get (0 : DWord) (s.core x.core).collars x.collar) (fieldAt b 4 4)
    (b.drop 8).length = some why) : s.onSnap m b = (s.collarRefuse x.core x.collar m why 0 true).migInFail 0x08 := by
  refine (State.withIn_of_named _ hinc hsrc hid).trans ((if_neg (not_not_intro hst)).trans ?_)
  simp only [h]

/-- The remote write that the payload of a SNAP makes into the Collar of the migration. -/
def MigIn.snapWrite (x : MigIn) (m : Nat) (b : List Byte) : RemoteWrite :=
  { src := m, dest := x.core, collar := x.collar, ctx := 0, pc := 0, rows := [(fieldAt b 4 4, b.drop 8)] }

theorem State.onSnap_of_landed (h : peerWhy (Sparse.get (0 : DWord) (s.core x.core).collars x.collar) (fieldAt b 4 4)
    (b.drop 8).length = none) (hsize : x.size = none) : s.onSnap m b = (s.collarLand (x.snapWrite m b)).updPeer fun p =>
      { p with inc := some { x with landed := x.landed ++ [(fieldAt b 4 4, (b.drop 8).length)] } } := by
  refine (State.withIn_of_named _ hinc hsrc hid).trans ((if_neg (not_not_intro hst)).trans ?_)
  simp only [h]
  exact State.tryInstall_of_no_size rfl hsize

end

end

theorem State.collarLand_snapWrite_spd (s : State) (x : MigIn) (m : Nat) (b : List Byte) :
    ((s.collarLand (x.snapWrite m b)).core x.core).spd = (b.drop 8).zipIdx.foldl (fun q z => q.setByte
      (64 * hBase (Sparse.get (0 : DWord) (s.core x.core).collars x.collar) + fieldAt b 4 4 + z.2) z.1) (s.core x.core).spd := by
  obtain ⟨gs, hland⟩ := s.collarLand_eq (x.snapWrite m b)
  rw [hland]
  calc ((s.setCore x.core ((s.core x.core).landed (x.snapWrite m b)).refresh).core x.core).spd
      = ((s.core x.core).landed (x.snapWrite m b)).spd := by rw [State.setCore_core, if_pos rfl]; rfl
    _ = _ := (Core.landed_spd _ _).trans (Core.landBytes_spd_foldl _ _ _)

/-! ### The source: ACCEPT, REFUSE, DIGEST, COMMIT_ACK, ABORT_ACK (R363 to R366, R368) -/

section
variable {s : State} {m : Nat} {b : List Byte} {o : MigOut} (hout : s.peer.out = some o) (hdest : o.dest = m) (hid : o.id = fieldAt b 0 4)
include hout hdest hid

theorem State.onAbortAck_of_aborting (hst : o.state = 5) : s.onAbortAck m b = s.updPeer fun p => { p with out := none } := by
  rw [State.onAbortAck, hout]
  exact if_pos ⟨hdest, hid, hst⟩

section
variable (hst : o.state ≠ 5)
include hst

theorem State.onRefuse_of_out : s.onRefuse m b = (s.updPeer fun p =>
    { p with out := none, migStat := word (0x0400 + 65536 * fieldAt b 4 1) }).raise pgPeer 7 :=
  State.withOut_of_named _ hout hdest hid hst

theorem State.onDigest_of_out : s.onDigest m b =
    if o.s ≤ fieldAt b 8 8 ∧ fieldAt b 8 8 < o.s + o.nshadow ∧ o.theirs.all (fun e => e.1 != fieldAt b 8 8) = true then
      (s.updPeer fun p => { p with out := some { o with theirs := o.theirs ++ [(fieldAt b 8 8, b.drop 16)] } }).compareDigests
    else s :=
  State.withOut_of_named _ hout hdest hid hst

theorem State.onCommitAck_of_out : s.onCommitAck m b =
    if o.state = 4 ∧ fieldAt b 8 8 = o.s + o.nshadow then s.updPeer fun p => { p with out := some { o with acked := true } } else s :=
  State.withOut_of_named _ hout hdest hid hst

end

theorem State.onAccept_of_offered {g : Group} (hst : o.state = 1) (hg : s.group? o.gid = some g) : s.onAccept m b =
    if o.s < g.oldest ∨ (o.s = g.oldest ∧ g.doneAt ≠ 0) then s.migOutFail 0x0B
    else s.updPeer fun p => { p with out := some { o with state := 2, accepted := some (fieldAt b 4 1, fieldAt b 5 1) } } := by
  refine (State.withOut_of_named _ hout hdest hid (by omega)).trans ((if_neg (not_not_intro hst)).trans ?_)
  simp only [hg]
  rfl

end

theorem State.onAbortAck_of_other {s : State} {m : Nat} {b : List Byte}
    (h : ∀ o, s.peer.out = some o → ¬ (o.dest = m ∧ o.id = fieldAt b 0 4)) : s.onAbortAck m b = s := by
  unfold State.onAbortAck
  split
  case h_1 o hout => exact if_neg fun hnamed => h o hout ⟨hnamed.1, hnamed.2.1⟩
  case h_2 => rfl

/-! ### ABORT (R365, R366) -/

/-- An ABORT to the destination: DUAL when it is already owner and the source may be too. -/
def State.abortIn (m : Nat) (b : List Byte) (s : State) (x : MigIn) : State :=
  let dual := x.state = 3 ∧ x.released = true
  let t := (s.updPeer fun p =>
    { p with inc := none, acptStat := word ((if dual then 0x0D else fieldAt b 4 1) * 256) }).raise pgPeer (if dual then 8 else 7)
  ((if x.state = 3 then t.stopLanes x.gid else t).dropArm x.gid).sendPeer m 0x19 (toBytes 4 (fieldAt b 0 4)) true

section
variable {s : State} {m : Nat} {b : List Byte}

theorem State.onAbort_of_out {o : MigOut} (hout : s.peer.out = some o) (hdest : o.dest = m) (hid : o.id = fieldAt b 0 4) :
    s.onAbort m b = ((s.updPeer fun p => { p with out := none, migStat := word (fieldAt b 4 1 * 256) }).raise pgPeer 7).sendPeer m 0x19
      (toBytes 4 (fieldAt b 0 4)) true := by
  rw [State.onAbort, hout]
  exact if_pos (by simp [hdest, hid])

section
variable (hother : ∀ o, s.peer.out = some o → ¬ (o.dest = m ∧ o.id = fieldAt b 0 4))
include hother

theorem State.onAbort_of_other_out : s.onAbort m b = s.withIn m b (State.abortIn m b) := by
  cases hout : s.peer.out with
  | none =>
    rw [State.onAbort, hout]
    exact if_neg Bool.false_ne_true
  | some o =>
    rw [State.onAbort, hout]
    exact if_neg (by simpa using hother o hout)

theorem State.onAbort_of_other (h : ∀ x, s.peer.inc = some x → ¬ (x.src = m ∧ x.id = fieldAt b 0 4)) : s.onAbort m b = s :=
  (State.onAbort_of_other_out hother).trans (State.withIn_of_other _ h)

variable {x : MigIn} (hinc : s.peer.inc = some x) (hsrc : x.src = m) (hid : x.id = fieldAt b 0 4)
include hinc hsrc hid

theorem State.onAbort_of_shadow (h : x.state ≠ 3) : s.onAbort m b =
    (((s.updPeer fun p => { p with inc := none, acptStat := word (fieldAt b 4 1 * 256) }).raise pgPeer 7).dropArm x.gid).sendPeer m 0x19
      (toBytes 4 (fieldAt b 0 4)) true := by
  rw [State.onAbort_of_other_out hother, State.withIn_of_named _ hinc hsrc hid, State.abortIn]
  simp only [h, false_and, if_false]

theorem State.onAbort_of_owner (h : x.state = 3) (hrel : x.released = true) : s.onAbort m b =
    ((((s.updPeer fun p => { p with inc := none, acptStat := word 0x0D00 }).raise pgPeer 8).stopLanes x.gid).dropArm x.gid).sendPeer m 0x19
      (toBytes 4 (fieldAt b 0 4)) true := by
  rw [State.onAbort_of_other_out hother, State.withIn_of_named _ hinc hsrc hid, State.abortIn]
  simp only [h, hrel, and_self, if_true]

end

end

/-- Settles O56: message by message, by the state of the partner or of the migration that the message names. -/
theorem messagesActOnPartnersAndMigrations : Obligations.MessagesActOnPartnersAndMigrations := by
  unfold Obligations.MessagesActOnPartnersAndMigrations
  intro f s u m b hrun v got id
  refine ⟨?hello, ?join, ?skewed, ?heartbeat, ?closed, ?offer, ?otherIn, ?incoming, ?otherOut, ?outgoing, ?abortOther, ?abortOut,
    ?abortIn⟩
  case hello =>
    intro h
    exact exec_of_message rfl hrun h (State.onHello_of_up ((u.heardFrom_st m).trans h.2))
  case join =>
    intro hreceive hst okV
    have hjoin : (v.partner m).st = .joining := (u.heardFrom_st m).trans hst
    have hexec {t : State} : v.onHello m b = t → exec (.hello f) s = .next t.settle :=
      exec_of_allowed rfl hrun hreceive (.inr ⟨rfl, hst⟩)
    exact ⟨fun h => hexec (State.onHello_of_no_netTime hjoin h), fun now hnow =>
      ⟨fun h => hexec (State.onHello_of_version hjoin hnow h), fun hv h => hexec (State.onHello_of_skewed hjoin hnow hv h),
        fun hv h => hexec (State.onHello_joins hjoin hnow hv h)⟩⟩
  case skewed => exact fun h hskew => exec_of_message rfl hrun h (State.onHeartbeat_of_skewed hskew)
  case heartbeat =>
    intro h hskew
    refine ⟨fun hinc => exec_of_message rfl hrun h (State.onHeartbeat_of_no_inc hskew hinc),
      fun x hinc => ⟨fun hdone => ?_, fun hgo => ?_⟩⟩
    · exact exec_of_message rfl hrun h ((State.onHeartbeat_of_inc hskew hinc).trans (if_pos hdone))
    · exact exec_of_message rfl hrun h ((State.onHeartbeat_of_inc hskew hinc).trans (if_neg hgo))
  case closed => exact fun h mem hclosed => exec_of_message rfl hrun h (State.onOffer_of_closed hclosed)
  case offer =>
    intro h mem hen hsrc hnew arm gid d no
    have hexec {t : State} : v.onOffer m b mem = t → exec (.offer f mem) s = .next t.settle :=
      exec_of_message (act := fun t m b => t.onOffer m b mem) rfl hrun h
    refine ⟨fun hmem => hexec (State.onOffer_of_memErr hen hsrc hnew hmem),
      fun hmem hg => hexec (State.onOffer_of_no_group hen hsrc hnew hmem hg), fun hmem g hg => ?_⟩
    obtain ⟨hother, hnamed⟩ := State.onOffer_of_group hen hsrc hnew hmem hg rfl
    refine ⟨fun ht => hexec (hother ht), fun c ht hc => hexec ((hnamed ht).1 c hc), fun c ht hc ha => hexec (((hnamed ht).2 hc).1 c ha),
      fun k ht hc ha => ⟨_, hexec (((hnamed ht).2 hc).2 k ha), ?_, ?_⟩⟩
    · rw [State.settle_peer, State.offerAccepted_acptStat]
    · rw [State.settle_peer, State.offerAccepted_inc]
      rfl
  case otherIn =>
    intro hother
    exact ⟨fun h => exec_of_message rfl hrun h (State.withIn_of_other _ hother),
      fun h => exec_of_message rfl hrun h (State.withIn_of_other _ hother),
      fun h => exec_of_message rfl hrun h (State.withIn_of_other _ hother),
      fun h => exec_of_message rfl hrun h (State.withIn_of_other _ hother)⟩
  case incoming =>
    intro x hinc hsrc hid e off data
    refine ⟨fun h hst why hwhy => exec_of_message rfl hrun h (State.onSnap_of_refused hinc hsrc hid hst hwhy),
      fun h hst hwhy hsize => ⟨_, exec_of_message rfl hrun h (State.onSnap_of_landed hinc hsrc hid hst hwhy hsize), ?_, ?_⟩,
      fun h hst => exec_of_message rfl hrun h (State.onSnapDone_of_shadow hinc hsrc hid hst),
      fun h hst => exec_of_message rfl hrun h (State.onSnap_of_loaded hinc hsrc hid hst),
      fun h hst => exec_of_message rfl hrun h (State.onSnapDone_of_loaded hinc hsrc hid hst),
      fun g hg => ⟨fun h hdue => ?_, fun h hdue => ?_⟩,
      fun h hst => exec_of_message rfl hrun h (State.onYield_of_owner hinc hsrc hid hst),
      fun h hst => exec_of_message rfl hrun h (State.onYield_of_shadow hinc hsrc hid hst)⟩
    · exact congrArg Peer.inc (State.settle_peer _)
    · rw [State.settle_core_of]
      exact v.collarLand_snapWrite_spd x m b
    · exact exec_of_message rfl hrun h ((State.onCommit_of_group hinc hsrc hid hg).trans (if_pos hdue))
    · exact exec_of_message rfl hrun h ((State.onCommit_of_group hinc hsrc hid hg).trans (if_neg hdue))
  case otherOut =>
    intro hother
    have hnone : ∀ o, v.peer.out = some o → ¬ (o.dest = m ∧ o.id = id ∧ o.state ≠ 5) :=
      fun o hout ⟨hdest, hid, _⟩ => hother o hout ⟨hdest, hid⟩
    exact ⟨fun h => exec_of_message rfl hrun h (State.withOut_of_other _ hnone),
      fun h => exec_of_message rfl hrun h (State.withOut_of_other _ hnone),
      fun h => exec_of_message rfl hrun h (State.withOut_of_other _ hnone),
      fun h => exec_of_message rfl hrun h (State.withOut_of_other _ hnone),
      fun h => exec_of_message rfl hrun h (State.onAbortAck_of_other hother)⟩
  case outgoing =>
    intro o hout hdest hid
    refine ⟨fun hst => ?_, fun g hg h hst => ⟨fun hlate => ?_, fun htime => ?_⟩,
      fun h hst => exec_of_message rfl hrun h (State.onRefuse_of_out hout hdest hid hst),
      fun h hst => ⟨fun hfresh => ?_, fun hstale => ?_⟩, fun h hst hn => ?_⟩
    · have hnone : ∀ o', v.peer.out = some o' → ¬ (o'.dest = m ∧ o'.id = id ∧ o'.state ≠ 5) := by
        intro o' ho' hn
        rw [hout, Option.some.injEq] at ho'
        exact hn.2.2 (ho' ▸ hst)
      exact ⟨fun h => exec_of_message rfl hrun h (State.onAbortAck_of_aborting hout hdest hid hst),
        fun h => exec_of_message rfl hrun h (State.withOut_of_other _ hnone),
        fun h => exec_of_message rfl hrun h (State.withOut_of_other _ hnone),
        fun h => exec_of_message rfl hrun h (State.withOut_of_other _ hnone),
        fun h => exec_of_message rfl hrun h (State.withOut_of_other _ hnone)⟩
    · exact exec_of_message rfl hrun h ((State.onAccept_of_offered hout hdest hid hst hg).trans (if_pos hlate))
    · exact exec_of_message rfl hrun h ((State.onAccept_of_offered hout hdest hid hst hg).trans (if_neg (by omega)))
    · refine exec_of_message rfl hrun h ((State.onDigest_of_out hout hdest hid hst).trans (if_pos ?_))
      simpa only [List.all_eq_true, bne_iff_ne] using hfresh
    · refine exec_of_message rfl hrun h ((State.onDigest_of_out hout hdest hid hst).trans (if_neg ?_))
      simpa only [List.all_eq_true, bne_iff_ne] using hstale
    · exact exec_of_message rfl hrun h ((State.onCommitAck_of_out hout hdest hid (by omega)).trans (if_pos ⟨hst, hn⟩))
  case abortOther => exact fun h hout hinc => exec_of_message rfl hrun h (State.onAbort_of_other hout hinc)
  case abortOut => exact fun h o hout hdest hid => exec_of_message rfl hrun h (State.onAbort_of_out hout hdest hid)
  case abortIn =>
    exact fun h hout x hinc hsrc hid => ⟨fun hst => exec_of_message rfl hrun h (State.onAbort_of_shadow hout hinc hsrc hid hst),
      fun hst hrel => exec_of_message rfl hrun h (State.onAbort_of_owner hout hinc hsrc hid hst hrel)⟩
end Sys2Proof.Machine

/-! Keys, partners, MIG_CMD, ACPT_GID, the periods, and dropped link frames (R350, R354, R355, R359, R361, R366, R367, R398). -/

namespace Sys2Proof.Machine

/-! ### Register writes -/

section
variable {s : State} {v : Word} {acc : Acc}

theorem exec_keyWrite_of_grants {k w : Nat} (hk : k < 16) (hw : w < 8) (hg : s.grants (0x6200 + 32 * k + 4 * w) acc = true) :
    exec (.keyWrite k w v acc) s = .next ((s.answered acc).keyWrite k w v).settle :=
  exec_of_cfgWrite (congrArg (fun a => done (s.cfgWrite a acc fun t => t.keyWrite k w v)) (if_pos ⟨hk, hw⟩)) hg rfl

theorem exec_partCfgWrite_of_grants {m : Nat} (hm : m < 16) (hg : s.grants (0x6100 + 16 * m) acc = true) :
    exec (.partCfgWrite m v acc) s = .next ((s.answered acc).partCfgWrite m v).settle :=
  exec_of_cfgWrite (congrArg (fun a => done (s.cfgWrite a acc fun t => t.partCfgWrite m v)) (if_pos hm)) hg rfl

theorem exec_acptEnClear_of_grants (hg : s.grants 0x6418 acc = true) :
    exec (.acptEnClear v acc) s = .next ((s.answered acc).acptWrite v).settle := exec_of_cfgWrite rfl hg rfl

theorem exec_migStart_of_grants (hg : s.grants 0x640C acc = true) : exec (.migStart acc) s = .next (s.answered acc).migStart.settle :=
  exec_of_cfgWrite rfl hg rfl

theorem exec_migAbort_of_grants (hg : s.grants 0x640C acc = true) :
    exec (.migAbort acc) s = .next ((s.answered acc).migOutFail 0x0C).settle := exec_of_cfgWrite rfl hg rfl

end

/-! ### Words of a key slot (R355) -/

/-- Replacing the 32-bit digit at bit `a` of a number leaves what is above and below it. -/
theorem replace_word (old v a : Nat) : old - old / 2 ^ a % 2 ^ 32 * 2 ^ a + v * 2 ^ a =
    old / 2 ^ (a + 32) * 2 ^ (a + 32) + v * 2 ^ a + old % 2 ^ a := by
  have hlow : old / 2 ^ a * 2 ^ a + old % 2 ^ a = old := Nat.div_add_mod' old (2 ^ a)
  have hdigit : old / 2 ^ a / 2 ^ 32 * 2 ^ 32 + old / 2 ^ a % 2 ^ 32 = old / 2 ^ a := Nat.div_add_mod' _ _
  have hsplit : old / 2 ^ (a + 32) * 2 ^ (a + 32) + old / 2 ^ a % 2 ^ 32 * 2 ^ a = old / 2 ^ a * 2 ^ a := by
    rw [pow_add, ← Nat.div_div_eq_div_mul, mul_comm (2 ^ a) (2 ^ 32), ← mul_assoc, ← add_mul, hdigit]
  omega

/-- A key after a write of its word `w`. -/
def keyWord (key : BitVec 256) (w : Nat) (v : Word) : BitVec 256 :=
  BitVec.ofNat 256 (key.toNat - key.toNat / 2 ^ (32 * w) % 2 ^ 32 * 2 ^ (32 * w) + v.toNat * 2 ^ (32 * w))

theorem keyWord_eq (key : BitVec 256) (w : Nat) (v : Word) : keyWord key w v =
    BitVec.ofNat 256 (key.toNat / 2 ^ (32 * (w + 1)) * 2 ^ (32 * (w + 1)) + v.toNat * 2 ^ (32 * w) + key.toNat % 2 ^ (32 * w)) := by
  rw [keyWord, replace_word, ← Nat.mul_succ]

/-- The state with another key in slot `k`. -/
def State.withKey (s : State) (k : Nat) (key : BitVec 256) : State := s.updPeer fun p => { p with keys := p.keys.set 0 k key }

section
variable (s : State) (k : Nat) (key : BitVec 256)

theorem State.withKey_out : (s.withKey k key).peer.out = s.peer.out := rfl

theorem State.withKey_inc : (s.withKey k key).peer.inc = s.peer.inc := rfl

theorem State.withKey_partner (m : Nat) : (s.withKey k key).partner m = s.partner m := rfl

theorem State.withKey_selfMember : (s.withKey k key).selfMember = s.selfMember := rfl

end

/-- The key of slot `k` after a write of its word `w`. -/
def State.newKey (s : State) (k w : Nat) (v : Word) : BitVec 256 := keyWord (Sparse.get 0 s.peer.keys k) w v

theorem State.keyWrite_of_inner {s : State} {k w : Nat} (v : Word) (h : w < 7) : s.keyWrite k w v = s.withKey k (s.newKey k w v) :=
  if_pos (by omega)

/-! ### Partners that join afresh (R350, R355) -/

section
variable {s : State} (hout : s.peer.out = none) (hinc : s.peer.inc = none)
include hout hinc

theorem State.leftUp_of_no_migration (m : Nat) : s.leftUp m = s := by simp only [State.leftUp, hout, hinc]

/-- Outside a migration a change of a partner's state changes that partner alone. -/
theorem State.partnerTo_of_no_migration (m : Nat) (st : PartState) : s.partnerTo m st = s.updPartner m fun p => { p with st := st } := by
  have hleft : (s.updPartner m fun p => { p with st := st }).leftUp m = s.updPartner m fun p => { p with st := st } :=
    State.leftUp_of_no_migration (s := s.updPartner m _) hout hinc m
  rw [State.partnerTo, hleft, ite_self]

end

/-- A partner that joins afresh. -/
def Partner.afresh (p : Partner) (tx : Bool) : Partner :=
  { p with high := 0, bitmap := 0, txCtr := 1, exhausted := p.exhausted && !tx, st := .joining }

theorem State.rejoin_of_no_migration {s : State} (hout : s.peer.out = none) (hinc : s.peer.inc = none) (m : Nat) (tx : Bool) :
    s.rejoin m tx = s.updPartner m fun p => p.afresh tx := by
  rw [State.rejoin, State.partnerTo_of_no_migration (by exact hout) (by exact hinc), State.updPartner_updPartner]
  rfl

theorem State.rejoin_of_not_up {s : State} {m : Nat} (h : (s.partner m).st ≠ .up) (tx : Bool) :
    s.rejoin m tx = s.updPartner m fun p => p.afresh tx := by
  rw [State.rejoin, State.partnerTo_of_not_up (by rw [State.updPartner_partner, if_pos rfl]; exact h), State.updPartner_updPartner]
  rfl

/-- The state with other partners. -/
def State.withParts (s : State) (parts : Sparse Partner) : State := { s with peer := { s.peer with parts := parts } }

/-- What the last word of key slot `k` does to partner `m`. -/
def State.rekey (k : Nat) (t : State) (m : Nat) : State :=
  let p := t.partner m
  let t := if p.txKey = k ∧ p.exhausted = true then t.updPartner m fun q => { q with exhausted := false } else t
  if p.en && m != t.selfMember && (p.txKey == k || p.rxKey == k) then t.rejoin m (p.txKey == k) else t

theorem State.keyWrite_of_last (s : State) (k : Nat) (v : Word) :
    s.keyWrite k 7 v = (List.range 16).foldl (State.rekey k) (s.withKey k (s.newKey k 7 v)) := rfl

/-- A partner after the last word of key slot `k`; `own` says that it is this member itself. -/
def Partner.rekeyed (p : Partner) (k : Nat) (own : Prop) [Decidable own] : Partner :=
  let q := { p with exhausted := p.exhausted && !decide (p.txKey = k) }
  if p.en = true ∧ ¬ own ∧ (p.txKey = k ∨ p.rxKey = k) then { q with st := .joining, high := 0, bitmap := 0, txCtr := 1 } else q

theorem Partner.rekeyed_of_joins {p : Partner} {k : Nat} {own : Prop} [Decidable own]
    (h : p.en = true ∧ ¬ own ∧ (p.txKey = k ∨ p.rxKey = k)) : p.rekeyed k own = p.afresh (p.txKey == k) := if_pos h

theorem Partner.rekeyed_of_stays {p : Partner} {k : Nat} {own : Prop} [Decidable own]
    (h : ¬ (p.en = true ∧ ¬ own ∧ (p.txKey = k ∨ p.rxKey = k))) :
    p.rekeyed k own = { p with exhausted := p.exhausted && !decide (p.txKey = k) } := if_neg h

theorem State.updPartner_congr {s : State} {m : Nat} {f g : Partner → Partner} (h : f (s.partner m) = g (s.partner m)) :
    s.updPartner m f = s.updPartner m g := by rw [State.updPartner, State.updPartner, h]

section
variable {s : State} (hout : s.peer.out = none) (hinc : s.peer.inc = none) (k m : Nat)
include hout hinc

theorem State.rekey_cases : (s.rekey k m = s ∧ (s.partner m).rekeyed k (m = s.selfMember) = s.partner m) ∨
    s.rekey k m = s.updPartner m fun p => p.rekeyed k (m = s.selfMember) := by
  have hjoin : ((s.partner m).en && m != s.selfMember && ((s.partner m).txKey == k || (s.partner m).rxKey == k)) = true ↔
      (s.partner m).en = true ∧ ¬ m = s.selfMember ∧ ((s.partner m).txKey = k ∨ (s.partner m).rxKey = k) := by
    simp [and_assoc]
  by_cases hj : (s.partner m).en = true ∧ ¬ m = s.selfMember ∧ ((s.partner m).txKey = k ∨ (s.partner m).rxKey = k)
  all_goals by_cases hx : (s.partner m).txKey = k ∧ (s.partner m).exhausted = true
  all_goals dsimp only [State.rekey]
  · rw [if_pos hx]
    refine .inr ((if_pos (hjoin.mpr hj)).trans ?_)
    rw [State.rejoin_of_no_migration (by exact hout) (by exact hinc), State.updPartner_updPartner]
    refine State.updPartner_congr ?_
    rw [Partner.rekeyed_of_joins hj]
    simp [Partner.afresh, hx]
  · rw [if_neg hx]
    refine .inr ((if_pos (hjoin.mpr hj)).trans ?_)
    rw [State.rejoin_of_no_migration hout hinc]
    exact State.updPartner_congr (Partner.rekeyed_of_joins hj).symm
  · rw [if_pos hx]
    refine .inr ((if_neg (mt hjoin.mp hj)).trans (State.updPartner_congr ?_))
    rw [Partner.rekeyed_of_stays hj]
    simp [hx]
  · rw [if_neg hx]
    refine .inl ⟨if_neg (mt hjoin.mp hj), ?_⟩
    have hkeep : ((s.partner m).exhausted && !decide ((s.partner m).txKey = k)) = (s.partner m).exhausted := by
      by_cases hkey : (s.partner m).txKey = k
      · simpa [hkey] using hx
      · simp [hkey]
    rw [Partner.rekeyed_of_stays hj, hkeep]

/-- Rewriting the key of partner `m` rewrites the partners, and of these `m` alone. -/
theorem State.rekey_parts : ∃ parts, s.rekey k m = s.withParts parts ∧ ∀ j, (s.withParts parts).partner j =
    if j = m then (s.partner m).rekeyed k (m = s.selfMember) else s.partner j := by
  obtain ⟨hsame, hpart⟩ | hupd := State.rekey_cases hout hinc k m
  · refine ⟨s.peer.parts, hsame, fun j => ?_⟩
    split_ifs with hj
    · rw [hj, hpart]
      rfl
    · rfl
  · exact ⟨_, hupd, s.updPartner_partner m fun p => p.rekeyed k (m = s.selfMember)⟩

/-- The last word of a key slot rewrites the partners one after the other. -/
theorem State.foldl_rekey (n : Nat) : ∃ parts, (List.range n).foldl (State.rekey k) s = s.withParts parts ∧ ∀ j,
    (s.withParts parts).partner j = if j < n then (s.partner j).rekeyed k (j = s.selfMember) else s.partner j := by
  induction n with
  | zero => exact ⟨s.peer.parts, rfl, fun j => rfl⟩
  | succ n ih =>
    obtain ⟨parts, hfold, hparts⟩ := ih
    obtain ⟨parts', hrekey, hparts'⟩ := State.rekey_parts (s := s.withParts parts) hout hinc k n
    refine ⟨parts', ?_, fun j => (hparts' j).trans ?_⟩
    · rw [List.range_succ, List.foldl_append, hfold]
      exact hrekey
    · rw [hparts n, hparts j, if_neg (lt_irrefl n)]
      by_cases hj : j = n
      · rw [if_pos hj, if_pos (by omega), hj]
        rfl
      · rw [if_neg hj]
        exact if_congr (by omega) rfl rfl

end

/-! ### PART_CFG (R350, R367, R412) -/

/-- A partner with the fields that a write of PART_CFG gives it. -/
def Partner.configured (p : Partner) (v : Word) : Partner := { p with en := v.getLsbD 0, txKey := wbits v 7 4, rxKey := wbits v 11 8 }

section
variable {s : State} {m : Nat} {v : Word}

theorem State.partCfgWrite_of_not_full (hen : v.getLsbD 0 = true) (hfull : s.full = false) : s.partCfgWrite m v = s :=
  if_pos (by rw [hen, hfull]; rfl)

section
variable (hgo : v.getLsbD 0 = false ∨ s.full = true)
include hgo

theorem State.partCfgWrite_of_taken : s.partCfgWrite m v =
    let t := s.updPartner m fun p => p.configured v
    if m = s.selfMember then t
    else if v.getLsbD 0 && !(s.partner m).en then (t.updPartner m fun p => { p with tokens := wbits s.peer.rate 31 16 }).rejoin m false
    else if (s.partner m).en && !v.getLsbD 0 then t.partnerTo m .down
    else t :=
  if_neg (by
    rcases hgo with h | h
    · rw [h, Bool.false_and]; exact Bool.false_ne_true
    · rw [h, Bool.not_true, Bool.and_false]; exact Bool.false_ne_true)

theorem State.partCfgWrite_of_same (h : m = s.selfMember ∨ v.getLsbD 0 = (s.partner m).en) :
    s.partCfgWrite m v = s.updPartner m fun p => p.configured v := by
  rw [State.partCfgWrite_of_taken hgo]
  rcases h with hself | hsame
  · exact if_pos hself
  · rw [hsame, Bool.and_not_self]
    simp only [Bool.false_eq_true, if_false, ite_self]

end

variable (hm : m ≠ s.selfMember)
include hm

theorem State.partCfgWrite_of_enabled (hen : v.getLsbD 0 = true) (hfull : s.full = true) (hoff : (s.partner m).en = false)
    (hst : (s.partner m).st ≠ .up) : s.partCfgWrite m v = s.updPartner m fun p =>
      ({ p.configured v with tokens := wbits s.peer.rate 31 16 } : Partner).afresh false := by
  rw [State.partCfgWrite_of_taken (.inr hfull)]
  refine (if_neg hm).trans ((if_pos (by rw [hen, hoff]; rfl)).trans ?_)
  rw [State.rejoin_of_not_up, State.updPartner_updPartner, State.updPartner_updPartner]
  rw [State.updPartner_partner, if_pos rfl, State.updPartner_partner, if_pos rfl]
  exact hst

theorem State.partCfgWrite_of_disabled (hen : v.getLsbD 0 = false) (hon : (s.partner m).en = true) (hst : (s.partner m).st ≠ .up) :
    s.partCfgWrite m v = s.updPartner m fun p => { p.configured v with st := .down } := by
  rw [State.partCfgWrite_of_taken (.inl hen)]
  refine (if_neg hm).trans ((if_neg (by rw [hen]; exact Bool.false_ne_true)).trans ((if_pos (by rw [hen, hon]; rfl)).trans ?_))
  rw [State.partnerTo_of_not_up, State.updPartner_updPartner]
  rw [State.updPartner_partner, if_pos rfl]
  exact hst

end

/-! ### MIG_CMD.START (R361, R368) -/

/-- The source when its migration of group `g` has been offered for a first frame. -/
def State.migOffered (s : State) (g : Group) : State :=
  let n := ceilDiv ((s.tb g.tb).value.toNat + s.peer.migLead.toNat - g.lead) g.p
  let nshadow := wbits s.peer.migCfg 7 4 + 1
  s.updPeer fun p =>
    { p with lastMigId := s.peer.lastMigId + 1, migStat := 0, migFrame := word (n + nshadow)
             out := some { id := s.peer.lastMigId + 1, gid := wbits s.peer.migGid 11 0, dest := wbits s.peer.migCfg 3 0, s := n
                           nshadow := nshadow, state := 1 } }

section
variable {s : State}

theorem State.migStart_of_not_full (h : s.full = false) : s.migStart = s.migRefused 0x02 := if_pos h

variable (hfull : s.full = true)
include hfull

theorem State.migStart_of_busy (h : s.peer.out.isSome = true) : s.migStart = s.migRefused 0x01 :=
  (if_neg (by rw [hfull]; exact Bool.noConfusion)).trans (if_pos h)

variable (hout : s.peer.out = none)
include hout

theorem State.migStart_of_not_up (h : (s.partner (wbits s.peer.migCfg 3 0)).st ≠ .up) : s.migStart = s.migRefused 0x02 :=
  (if_neg (by rw [hfull]; exact Bool.noConfusion)).trans ((if_neg (by rw [hout]; exact Bool.false_ne_true)).trans (if_pos h))

variable (hup : (s.partner (wbits s.peer.migCfg 3 0)).st = .up)
include hup

theorem State.migStart_of_no_group (hg : s.group? (wbits s.peer.migGid 11 0) = none) : s.migStart = s.migRefused 0x03 := by
  simp only [State.migStart, hfull, hout, hup, hg, ne_eq, not_true_eq_false, Option.isSome_none, Bool.false_eq_true, reduceCtorEq, if_false]

variable {g : Group} (hg : s.group? (wbits s.peer.migGid 11 0) = some g)
include hg

theorem State.migStart_of_unfit (h : g.stage ≠ .armed ∨ g.parked.isSome = true ∨ (s.tb g.tb).src ≠ 3) :
    s.migStart = s.migRefused 0x03 := by
  simp only [State.migStart, hfull, hout, hup, hg, if_pos h, ne_eq, not_true_eq_false, Option.isSome_none, Bool.true_eq_false,
    Bool.false_eq_true, if_false]

theorem State.migStart_of_fit (hstage : g.stage = .armed) (hparked : g.parked = none) (hsrc : (s.tb g.tb).src = 3)
    (hid : s.peer.lastMigId + 1 < 2 ^ 32) : s.migStart = (s.migOffered g).sendPeer (wbits s.peer.migCfg 3 0) 0x10
      ((s.migOffered g).offerBody (s.peer.lastMigId + 1) g
        (ceilDiv ((s.tb g.tb).value.toNat + s.peer.migLead.toNat - g.lead) g.p) (wbits s.peer.migCfg 7 4 + 1)) false := by
  have hfit : ¬ (g.stage ≠ .armed ∨ g.parked.isSome = true ∨ (s.tb g.tb).src ≠ 3) := by simp [hstage, hparked, hsrc]
  simp only [State.migStart, hfull, hout, hup, hg, if_neg hfit, if_pos hid, ne_eq, not_true_eq_false, Option.isSome_none,
    Bool.true_eq_false, Bool.false_eq_true, if_false]
  rfl

end

/-! ### ACPT_GID (R362, R366) -/

section
variable {s : State} {v : Word}

theorem State.acptWrite_of_no_inc (h : s.peer.inc = none) :
    s.acptWrite v = s.updPeer fun p => { p with acptGid := v &&& 0x81FFFFFF#32 } := by
  simp only [State.acptWrite, State.updPeer, h]

theorem State.acptWrite_of_inc {x : MigIn} (h : s.peer.inc = some x) : s.acptWrite v =
    let t := s.updPeer fun p => { p with acptGid := v &&& 0x81FFFFFF#32 }
    if v.getLsbD 31 = false ∧ x.state ≠ 3 then t.migInFail 0x0C else t := by
  simp only [State.acptWrite, State.updPeer, h]

end

/-! ### The periods (R350, R354, R366) -/

section
variable {s : State} {m : Nat}

theorem State.periodSend_of_down (h : (s.partner m).st = .down) : s.periodSend m = s := by rw [State.periodSend, h]

theorem State.periodSend_of_joining (h : (s.partner m).st = .joining) : s.periodSend m = s.sendPeer m 0x01 s.helloBody true := by
  rw [State.periodSend, h]

theorem State.periodSend_of_up (h : (s.partner m).st = .up) (hout : s.peer.out = none) :
    s.periodSend m = s.sendPeer m 0x02 s.heartbeatBody true := by
  simp only [State.periodSend, h, (State.sendPeer_sends _ _ _ _ _).out, hout]

theorem State.hbPeriod_ne_zero (h : 0 < wbits s.peer.hb 15 0) : (s.hbPeriod != 0) = true :=
  bne_iff_ne.mpr (Nat.mul_ne_zero h.ne' (by decide))

/-- One turn of the token buckets. -/
def Partner.refilled (p : Partner) (rate : Word) : Partner := { p with tokens := min (wbits rate 31 16) (p.tokens + wbits rate 15 0) }

end

/-- A value that is changed throughout a table is found changed, unless it stands in none of its rows. -/
theorem Sparse.get_map {α : Type} (d : α) (f : α → α) (m : Sparse α) (k : Nat) (h : Sparse.get d m k ≠ d) :
    Sparse.get d (m.map fun e => (e.1, f e.2)) k = f (Sparse.get d m k) := by
  induction m with
  | nil => exact absurd rfl h
  | cons e m ih =>
    obtain ⟨j, v⟩ := e
    simp only [List.map_cons, Sparse.get] at h ⊢
    split_ifs with hj
    · rfl
    · rw [if_neg hj] at h
      exact ih h

/-! ### The snapshot of a migration (R359) -/

theorem State.sendSnaps_sends (s : State) (o : MigOut) (off : Nat) (bytes : List Byte) (fuel : Nat) :
    s.Sends (s.sendSnaps o off bytes fuel) := by
  induction fuel generalizing s off bytes with
  | zero => exact .refl s
  | succ fuel ih => exact .ite (.refl s) (.trans (State.sendPeer_sends _ _ _ _ _) (ih _ _ _))

section
variable {s : State} {o : MigOut} {g : Group} (hout : s.peer.out = some o) (hst : o.state = 2) (hg : s.group? o.gid = some g)
include hout hst hg

theorem State.takeSnapshot_of_late (h : o.s < g.oldest) : s.takeSnapshot = s.migOutFail 0x07 := by
  simp only [State.takeSnapshot, hout, hst, hg, h, ne_eq, not_true_eq_false, if_false, if_true]

theorem State.takeSnapshot_of_early (h : g.oldest < o.s) : s.takeSnapshot = s := by
  simp only [State.takeSnapshot, hout, hst, hg, h, Nat.not_lt.mpr h.le, ne_eq, not_true_eq_false, if_false, if_true]

variable (hdue : g.oldest = o.s)
include hdue

theorem State.takeSnapshot_of_fault {c l : Nat} (h : (List.range g.nmem).findSome? (s.badSlotLine g) = some (c, l)) :
    s.takeSnapshot = s.fault c .spd l 0 := by
  simp only [State.takeSnapshot, hout, hst, hg, hdue, h, lt_irrefl, ne_eq, not_true_eq_false, if_false]

theorem State.takeSnapshot_of_good (h : (List.range g.nmem).findSome? (s.badSlotLine g) = none) :
    (s.setOut { o with state := 3 }).Sends s.takeSnapshot := by
  simp only [State.takeSnapshot, hout, hst, hg, hdue, h, lt_irrefl, ne_eq, not_true_eq_false, if_false]
  exact .trans (State.sendSnaps_sends _ _ _ _ _) (State.sendPeer_sends _ _ _ _ _)

end

/-! ### Dropped link frames (R398) -/

section
variable {s : State} {f : RawFrame}

theorem State.frameDropped_of_bad
    (h : f.err = true ∨ f.framing = true ∨ f.full = true ∨ f.bytes.length < 32 ∨ 9216 < f.bytes.length) :
    s.frameDropped f = s.rxBad := if_pos h

theorem State.frameDropped_of_step {u : State}
    (h : ¬ (f.err = true ∨ f.framing = true ∨ f.full = true ∨ f.bytes.length < 32 ∨ 9216 < f.bytes.length))
    (hstep : s.peerReceive (rawParse f).1 (rawParse f).2 = (u, none)) : s.frameDropped f = u := by
  rw [State.frameDropped, if_neg h, hstep]

end

/-- Settles O57: each write, period and dropped frame by the cases of its own operation. -/
theorem partnersKeysAndPeriods : Obligations.PartnersKeysAndPeriods := by
  unfold Obligations.PartnersKeysAndPeriods
  intro s acc v
  refine ⟨?key, ?partCfg, fun hg => ⟨exec_migStart_of_grants hg, exec_migAbort_of_grants hg⟩, ?migStart, ?acptGid, ?period, ?miss,
    ?refill, ?snapshot, ?dropped⟩
  case key =>
    intro k w hk hw hg
    refine ⟨fun hw7 => ⟨_, exec_keyWrite_of_grants hk hw hg, ?_⟩, ?_⟩
    · rw [State.keyWrite_of_inner v hw7, State.settle_peer, State.settle_hdrs]
      refine ⟨rfl, rfl, fun hr j => (Sparse.get_set 0 s.peer.keys k _ hr j).trans ?_⟩
      exact congrArg (fun x => if j = k then x else _) (keyWord_eq _ w v)
    · rintro rfl hout hinc
      obtain ⟨parts, hfold, hparts⟩ := State.foldl_rekey (s := (s.answered acc).withKey k ((s.answered acc).newKey k 7 v))
        ((State.withKey_out _ _ _).trans hout) ((State.withKey_inc _ _ _).trans hinc) k 16
      refine ⟨_, exec_keyWrite_of_grants hk hw hg, fun m hm => ?_⟩
      rw [State.settle_partner_of, State.keyWrite_of_last, hfold, hparts m, if_pos hm, State.withKey_partner, State.withKey_selfMember]
      rfl
  case partCfg =>
    intro m hm hg
    have hexec {t : State} (ht : (s.answered acc).partCfgWrite m v = t) : exec (.partCfgWrite m v acc) s = .next t.settle :=
      ht ▸ exec_partCfgWrite_of_grants hm hg
    refine ⟨fun hen hfull => hexec (State.partCfgWrite_of_not_full hen hfull),
      fun hgo hsame => hexec (State.partCfgWrite_of_same hgo hsame),
      fun hen hfull hself hoff hdown => ⟨_, hexec (State.partCfgWrite_of_enabled hself hen hfull hoff ?_), ?_⟩,
      fun hen hself hon hst => hexec (State.partCfgWrite_of_disabled hself hen hon hst)⟩
    · exact fun hup => PartState.noConfusion (hdown.symm.trans hup)
    · rw [State.settle_partner_of, State.updPartner_partner, if_pos rfl, Partner.afresh, Bool.not_false, Bool.and_true]
      rfl
  case migStart =>
    refine ⟨State.migStart_of_not_full, State.migStart_of_busy, State.migStart_of_not_up, fun hfull hout hup =>
      ⟨State.migStart_of_no_group hfull hout hup, fun g hg => State.migStart_of_unfit hfull hout hup hg,
        fun g hg hstage hparked hsrc hid => ?_⟩⟩
    rw [State.migStart_of_fit hfull hout hup hg hstage hparked hsrc hid]
    have hsends := (s.migOffered g).sendPeer_sends (wbits s.peer.migCfg 3 0) 0x10
      ((s.migOffered g).offerBody (s.peer.lastMigId + 1) g
        (ceilDiv ((s.tb g.tb).value.toNat + s.peer.migLead.toNat - g.lead) g.p) (wbits s.peer.migCfg 7 4 + 1)) false
    exact ⟨hsends.out, hsends.migFrame, hsends.migStat⟩
  case acptGid =>
    intro hg
    have hexec {t : State} (ht : (s.answered acc).acptWrite v = t) : exec (.acptEnClear v acc) s = .next t.settle :=
      ht ▸ exec_acptEnClear_of_grants hg
    exact ⟨fun hinc => hexec (State.acptWrite_of_no_inc hinc), fun x hinc => hexec (State.acptWrite_of_inc hinc)⟩
  case period =>
    intro hrun hearly hhb
    have hguard : (s.running && s.early && s.hbPeriod != 0) = true := by
      rw [hrun, hearly, State.hbPeriod_ne_zero hhb]
      rfl
    refine ⟨(exec_of_guard rfl hguard).trans ?_, fun m hup hout => State.periodSend_of_up hup hout⟩
    refine congrArg (fun send => Host.Outcome.next (((List.range 16).foldl send s).settle)) (funext₂ fun t m => ?_)
    cases hst : (t.partner m).st
    case down => exact State.periodSend_of_down hst
    case joining => exact State.periodSend_of_joining hst
    case up => rfl
  case miss =>
    intro m hm hrun hup hhb late
    have hguard : (s.running && decide (m < 16) && (s.partner m).st == .up && s.hbPeriod != 0) = true := by
      rw [hrun, decide_eq_true hm, hup, State.hbPeriod_ne_zero hhb]
      rfl
    exact ⟨fun h => exec_of_guard rfl (by rw [hguard]; exact decide_eq_true h),
      fun h => exec_of_not_guard rfl (by rw [hguard]; exact decide_eq_false h)⟩
  case refill =>
    intro hrun
    refine ⟨_, exec_of_guard rfl hrun, ?_, ?_, fun m hen => ?_⟩
    · rw [State.settle_groups]
      rfl
    · rw [State.settle_hdrs]
      rfl
    · rw [State.settle_partner_of]
      refine Sparse.get_map {} (fun p => p.refilled s.peer.rate) s.peer.parts m fun h => ?_
      have hoff : (s.partner m).en = false := congrArg Partner.en h
      exact Bool.false_ne_true (hoff.symm.trans hen)
  case snapshot =>
    intro hrun o g hout hst hg
    have hexec {t : State} (ht : s.takeSnapshot = t) : exec .migSnapshot s = .next t.settle := ht ▸ exec_of_guard rfl hrun
    refine ⟨fun h => hexec (State.takeSnapshot_of_late hout hst hg h), fun h => hexec (State.takeSnapshot_of_early hout hst hg h),
      fun c l hdue h => hexec (State.takeSnapshot_of_fault hout hst hg hdue h), fun hdue h => ⟨_, hexec rfl, ?_⟩⟩
    have hsends := State.takeSnapshot_of_good hout hst hg hdue h
    rw [State.settle_peer, State.settle_groups]
    exact ⟨hsends.out, hsends.groups⟩
  case dropped =>
    intro f hrun
    have hexec {t : State} (ht : s.frameDropped f = t) : exec (.peerFrameDropped f) s = .next t.settle := ht ▸ exec_of_guard rfl hrun
    exact ⟨fun h => hexec (State.frameDropped_of_bad h), fun h u hstep => hexec (State.frameDropped_of_step h hstep)⟩

end Sys2Proof.Machine

/-! The step, the queue and the interrupt lines: every command answers a state whose lines are settled, and settling them sends the
messages of the lines that rise (R301, R370, R401, R402, R405, R436). -/

namespace Sys2Proof.Machine

/-! ### The step -/

section
variable {s : State}

theorem step_of_front {c : Instr} {rest : List Instr} (h : s.pending = c :: rest) : step s = exec c { s with pending := rest } := by
  simp only [step, h]

theorem step_of_empty (h : s.pending = []) : step s = .next s.idle := by simp only [step, h]

/-- No FCLK passes in reset, nor before the PLL has locked (R370, R406). -/
theorem State.idle_of_stopped (h : s.running = false ∨ s.glb.pllLock = false) : s.idle = s := by
  have hguard : ¬ (s.running && s.glb.pllLock) = true := by
    rcases h with h | h <;> simp [h]
  exact if_neg hguard

theorem State.idle_of_clocked (hrun : s.running = true) (hlock : s.glb.pllLock = true) : s.idle = State.evalWaits { s with
    fclk := s.fclk + 1
    power := { s.power with ageOut := none }
    trace := if (s.fclk + 1) % 32 = 0 then s.trace.drop 1 else s.trace
    peer := s.peer.sendOne
    tport := s.tport.sendOne
    tele := { s.tele with beCclk := s.tele.beCclk + 2 * s.jobCores } } := if_pos (Bool.and_eq_true_iff.mpr ⟨hrun, hlock⟩)

/-- Idle time changes nothing that the levels of the lines depend on. -/
theorem State.idle_irqOk (h : s.irqOk) : s.idle.irqOk := by
  by_cases hclock : s.running = true ∧ s.glb.pllLock = true
  · rw [State.idle_of_clocked hclock.1 hclock.2]
    exact h
  · rw [State.idle_of_stopped (by simpa [imp_iff_not_or] using hclock)]
    exact h

end

/-- What a command answers stands at the levels of its lines. -/
theorem irqOk_of_exec {c : Instr} {s t : State} (h : exec c s = .next t) : t.irqOk := by
  obtain ⟨u, hu⟩ := exec_settled c s
  obtain rfl := Host.Outcome.next.inj (hu.symm.trans h)
  exact u.settle_irqOk

/-- Settles O1: the step looks at the queue alone. -/
theorem stepRunsTheFrontCommand : Obligations.StepRunsTheFrontCommand := fun _ _ _ h => step_of_front h

/-- Settles O2: on an empty queue idle time passes or stands still, and every command ends in a settled state. -/
theorem everyStepAnswersANextState : Obligations.EveryStepAnswersANextState := by
  unfold Obligations.EveryStepAnswersANextState
  refine ⟨fun s hempty => ⟨fun hstop => ?_, fun hrun hlock => ?_⟩, fun c s => ?_⟩
  · rw [step_of_empty hempty, State.idle_of_stopped hstop]
  · rw [step_of_empty hempty, State.idle_of_clocked hrun hlock]
  · obtain ⟨u, hu⟩ := exec_settled c s
    exact ⟨_, hu⟩

/-- Settles O3: a step is a command, which settles the lines, or idle time, which leaves what they depend on. -/
theorem everyStepLeavesTheLinesAtTheirLevels : Obligations.EveryStepLeavesTheLinesAtTheirLevels := by
  unfold Obligations.EveryStepLeavesTheLinesAtTheirLevels
  refine ⟨fun c s t => irqOk_of_exec, fun s t hs hstep => ?_⟩
  cases hq : s.pending with
  | nil =>
    obtain rfl := Host.Outcome.next.inj ((step_of_empty hq).symm.trans hstep)
    exact State.idle_irqOk hs
  | cons c rest => exact irqOk_of_exec ((step_of_front hq).symm.trans hstep)

/-! ### Bytes of host memory that a write leaves, whatever the form of the table -/

theorem State.hostByte_hostSet_ne (s : State) {a j : Nat} (b : Byte) (h : hostAddr j ≠ hostAddr a) :
    (s.hostSet a b).hostByte j = s.hostByte j := by
  have hopen : (s.hostSet a b).openAt (hostAddr j) = s.openAt (hostAddr j) := openDrop_other _ _ (hostAddr_lt a) (hostAddr_lt j) h _
  have hbyte : (s.hostSet a b).host.byte (hostAddr j) = s.host.byte (hostAddr j) := s.host.byte_setByte_ne b h
  rw [State.hostByte, State.hostByte, hopen, hbyte]

theorem State.hostByte_hostWrite_ne (bs : List Byte) (s : State) {a j : Nat} (h : ∀ i < bs.length, hostAddr (a + i) ≠ hostAddr j) :
    (s.hostWrite a bs).hostByte j = s.hostByte j := by
  induction bs generalizing s a with
  | nil => rfl
  | cons b bs ih =>
    have hrest : ∀ i < bs.length, hostAddr (a + 1 + i) ≠ hostAddr j := fun i hi => by
      rw [Nat.add_assoc, Nat.add_comm 1 i]
      exact h (i + 1) (Nat.succ_lt_succ hi)
    exact (ih _ hrest).trans (State.hostByte_hostSet_ne s b (h 0 (Nat.succ_pos _)).symm)

/-- Little-endian bytes hold the number modulo their range. -/
theorem ofBytes_toBytes (n v : Nat) : ofBytes (toBytes n v) = v % 256 ^ n := by
  rw [ofBytes, toBytes, List.map_map]
  induction n generalizing v with
  | zero => rw [pow_zero, Nat.mod_one]; rfl
  | succ n ih =>
    rw [leBytes, List.map_cons, leNat, ih, Function.comp_apply, BitVec.toNat_ofNat, Nat.mod_mod, Nat.mod_mod, pow_succ', Nat.mod_mul]

/-- A number written to host memory is read back. -/
theorem State.hostNat_hostPut {s : State} (a : Nat) {n v : Nat} (h : Memory.wf s.host = true) (hn : n ≤ 2 ^ 48) (hv : v < 256 ^ n) :
    (s.hostPut a n v).hostNat a n = v := by
  have hread := State.hostRead_hostWrite (toBytes n v) s a h (by rwa [length_toBytes])
  rw [length_toBytes] at hread
  rw [State.hostNat, State.hostPut, hread, ofBytes_toBytes, Nat.mod_eq_of_lt hv]

/-! ### Messages (R402) -/

/-- The address of the message of line `l`. -/
def State.msiAddr (s : State) (l : Nat) : Nat :=
  (Sparse.get (0 : Word) s.glb.msiLo l).toNat + wbits (Sparse.get (0 : Word) s.glb.msiHi l) 15 0 * 2 ^ 32

/-- MSI_HI.EN of line `l`. -/
def State.msiOn (s : State) (l : Nat) : Bool := (Sparse.get (0 : Word) s.glb.msiHi l).getLsbD 31

theorem State.msi_of_on {s : State} {l : Nat} (h : s.msiOn l = true) :
    s.msi l = s.hostPut (s.msiAddr l) 4 (Sparse.get (0 : Word) s.glb.msiData l).toNat := if_pos h

theorem State.msi_of_off {s : State} {l : Nat} (h : s.msiOn l = false) : s.msi l = s := if_neg (Bool.eq_false_iff.mp h)

theorem State.msi_glb (s : State) (l : Nat) : (s.msi l).glb = s.glb := by rw [State.msi_eq]

/-- Does line `l` rise when the lines are settled? -/
def State.rises (s : State) (l : Nat) : Bool := s.irqLevels.getLsbD l && !s.irq.getLsbD l

/-- The messages of the lines of `ls` that `p` selects. -/
def State.sendMessages (s : State) (p : Nat → Bool) (ls : List Nat) : State := ls.foldl (fun t l => if p l then t.msi l else t) s

theorem State.settle_hostByte (s : State) (a : Nat) : s.settle.hostByte a = (s.sendMessages s.rises (List.range 16)).hostByte a := rfl

/-- A byte that lies in no message word that is sent keeps its value. -/
theorem State.sendMessages_hostByte {p : Nat → Bool} {a : Nat} {ls : List Nat} {s : State}
    (h : ∀ l ∈ ls, p l = true → s.msiOn l = true → ∀ i < 4, hostAddr (s.msiAddr l + i) ≠ hostAddr a) :
    (s.sendMessages p ls).hostByte a = s.hostByte a := by
  induction ls generalizing s with
  | nil => rfl
  | cons l ls ih =>
    obtain ⟨hl, hrest⟩ := List.forall_mem_cons.mp h
    rw [State.sendMessages, List.foldl_cons]
    split_ifs with hp
    · have hmsi : (s.msi l).hostByte a = s.hostByte a := by
        by_cases hon : s.msiOn l = true
        · rw [State.msi_of_on hon, State.hostPut]
          exact State.hostByte_hostWrite_ne _ s (hl hp hon)
        · rw [State.msi_of_off (Bool.eq_false_iff.mpr hon)]
      refine (ih fun m hm hpm hon => ?_).trans hmsi
      rw [State.msiOn, State.msi_glb] at hon
      rw [State.msiAddr, State.msi_glb]
      exact hrest m hm hpm hon
    · exact ih hrest

theorem State.sendMessages_of_none {p : Nat → Bool} {ls : List Nat} {s : State} (h : ∀ l ∈ ls, p l = true → s.msiOn l = false) :
    s.sendMessages p ls = s := by
  induction ls with
  | nil => rfl
  | cons l ls ih =>
    obtain ⟨hl, hrest⟩ := List.forall_mem_cons.mp h
    rw [State.sendMessages, List.foldl_cons]
    split_ifs with hp
    · rw [State.msi_of_off (hl hp)]
      exact ih hrest
    · exact ih hrest

/-- A line that alone has a message to send is the only one to write. -/
theorem State.sendMessages_of_one {p : Nat → Bool} {l : Nat} {ls : List Nat} {s : State} (hnodup : ls.Nodup) (hl : l ∈ ls)
    (hp : p l = true) (h : ∀ m ∈ ls, m ≠ l → p m = true → s.msiOn m = false) : s.sendMessages p ls = s.msi l := by
  obtain ⟨pre, post, rfl⟩ := List.append_of_mem hl
  have hpre : l ∉ pre := fun hmem => (List.nodup_append.mp hnodup).2.2 l hmem l List.mem_cons_self rfl
  have hpost : l ∉ post := (List.nodup_cons.mp (List.nodup_append.mp hnodup).2.1).1
  have hbefore : s.sendMessages p pre = s :=
    State.sendMessages_of_none fun m hm => h m (List.mem_append_left _ hm) fun e => hpre (e ▸ hm)
  have hafter : (s.msi l).sendMessages p post = s.msi l := State.sendMessages_of_none fun m hm hpm => by
    rw [State.msiOn, State.msi_glb]
    exact h m (List.mem_append_right _ (List.mem_cons_of_mem _ hm)) (fun e => hpost (e ▸ hm)) hpm
  rw [State.sendMessages] at hbefore hafter
  rw [State.sendMessages, List.foldl_append, hbefore, List.foldl_cons, if_pos hp, hafter]

theorem State.rises_iff (s : State) (l : Nat) : s.rises l = true ↔ s.irqLevels.getLsbD l = true ∧ s.irq.getLsbD l = false := by
  rw [State.rises, Bool.and_eq_true, Bool.not_eq_true']

/-- Settles O4: the messages are the only writes, and one that is alone is read back whole. -/
theorem settlingTheLinesSendsMessages : Obligations.SettlingTheLinesSendsMessages := by
  unfold Obligations.SettlingTheLinesSendsMessages
  refine ⟨fun s => ⟨s.settle_eq, fun a hclear => ?_⟩, fun s l hwf hl hlevel hirq hon halone => ?_⟩
  · rw [State.settle_hostByte]
    refine State.sendMessages_hostByte fun l hl hrise hon => ?_
    obtain ⟨hlevel, hirq⟩ := (s.rises_iff l).mp hrise
    exact hclear l (List.mem_range.mp hl) hlevel hirq hon
  · have hone : s.sendMessages s.rises (List.range 16) = s.msi l :=
      State.sendMessages_of_one List.nodup_range (List.mem_range.mpr hl) ((s.rises_iff l).mpr ⟨hlevel, hirq⟩) fun m hm hne hrise => by
        obtain ⟨hlevel', hirq'⟩ := (s.rises_iff m).mp hrise
        exact halone m (List.mem_range.mp hm) hne hlevel' hirq'
    have hsettle : ∀ a n, s.settle.hostNat a n = (s.sendMessages s.rises (List.range 16)).hostNat a n := fun _ _ => rfl
    rw [hsettle, hone, State.msi_of_on hon]
    exact State.hostNat_hostPut _ hwf (by decide) (Sparse.get (0 : Word) s.glb.msiData l).isLt

/-! ### Reset -/

/-- Settles O5: every field at its reset value, the tables without an entry. -/
theorem resetValues : Obligations.ResetValues := by
  unfold Obligations.ResetValues
  exact ⟨rfl, rfl, rfl, rfl, rfl, rfl, fun _ => ⟨rfl, rfl, rfl⟩, fun _ => ⟨rfl, rfl, rfl, rfl, rfl⟩, rfl, rfl, rfl, rfl, rfl, rfl, rfl,
    rfl, rfl, rfl, rfl, fun _ => rfl, fun _ => rfl, fun _ => rfl, fun _ => rfl, rfl⟩

end Sys2Proof.Machine

/-! A row that names one register does what REGISTER_WRITE does at that register's address (R371 to R373). -/

namespace Sys2Proof.Machine

/-! ### Addresses -/

theorem regAddr_of_aligned {a : Nat} (hlt : a < 2 ^ 20) (h : a % 4 = 0) : regAddr a = a := by
  rw [regAddr]
  omega

/-- The page of an address is that of the first address of its 4 KB. -/
theorem pageKind_of_page {a : Nat} (n : Nat) (h : a / 0x1000 = n) : pageKind a = pageKind (0x1000 * n) := by
  rw [pageKind, pageKind, h, Nat.mul_div_cancel_left n (by decide)]

/-! ### The parts of a register write -/

section
variable {s : State} {a o : Nat} {v : Word} {acc : Acc} (ho : a % 0x1000 = o) (hbody : 0x40 ≤ o)
include ho hbody

theorem State.writeReg_glb (hk : pageKind a = .glb) : s.writeReg a v acc = s.writeGlb o v := by
  simp [State.writeReg, ho, hk, hbody.not_gt]

theorem State.writeReg_tport (hk : pageKind a = .tport) : s.writeReg a v acc = s.writeTport o v := by
  simp [State.writeReg, ho, hk, hbody.not_gt]

theorem State.writeReg_aport (hk : pageKind a = .aport) : s.writeReg a v acc = s.writeAport o v := by
  simp [State.writeReg, ho, hk, hbody.not_gt]

theorem State.writeReg_peer (hk : pageKind a = .peer) : s.writeReg a v acc = s.writePeer o v := by
  simp [State.writeReg, ho, hk, hbody.not_gt]

theorem State.writeReg_dma (hk : pageKind a = .dma) : s.writeReg a v acc = s.writeDma o v := by
  simp [State.writeReg, ho, hk, hbody.not_gt]

end

section
variable (t : State) (v : Word) (acc : Acc)

theorem State.writeReg_hq {q : Nat} (hq : q < 64) : t.writeReg (0x300 + 4 * q) v acc = t.hqAssign q v := by
  have hk : pageKind (0x300 + 4 * q) = .glb := pageKind_of_page 0 (by omega)
  have hidx : (0x300 + 4 * q - 0x300) / 4 = q := by omega
  rw [State.writeReg_glb (o := 0x300 + 4 * q) (by omega) (by omega) hk]
  unfold State.writeGlb
  rw [if_pos (by omega), hidx]

theorem State.writeReg_inCfg {l : Nat} (hl : l < 16) : t.writeReg (0x5100 + 16 * l) v acc = t.inWrite l .cfg v := by
  have hk : pageKind (0x5100 + 16 * l) = .aport := pageKind_of_page 5 (by omega)
  have hidx : (0x100 + 16 * l - 0x100) / 16 = l := by omega
  have hreg : (0x100 + 16 * l) % 16 = 0 := by omega
  rw [State.writeReg_aport (o := 0x100 + 16 * l) (by omega) (by omega) hk, State.writeAport, hreg, if_pos (by omega), hidx]
  rfl

theorem State.writeReg_outStore {l : Nat} (hl : l < 16) : t.writeReg (0x5208 + 16 * l) v acc = t.outWrite l .store v := by
  have hk : pageKind (0x5208 + 16 * l) = .aport := pageKind_of_page 5 (by omega)
  have hidx : (0x208 + 16 * l - 0x200) / 16 = l := by omega
  have hreg : (0x208 + 16 * l) % 16 = 8 := by omega
  rw [State.writeReg_aport (o := 0x208 + 16 * l) (by omega) (by omega) hk, State.writeAport, hreg, if_neg (by omega),
    if_pos (by omega), hidx]
  rfl

theorem State.writeReg_tileGeom {b : Nat} (hb : b < 16) : t.writeReg (0x4104 + 16 * b) v acc = t.tileWrite b .geom v := by
  have hk : pageKind (0x4104 + 16 * b) = .tport := pageKind_of_page 4 (by omega)
  have hidx : (0x104 + 16 * b - 0x100) / 16 = b := by omega
  have hreg : (0x104 + 16 * b) % 16 = 4 := by omega
  rw [State.writeReg_tport (o := 0x104 + 16 * b) (by omega) (by omega) hk, State.writeTport, hreg, if_pos (by omega), hidx]
  rfl

theorem State.writeReg_partCfg {m : Nat} (hm : m < 16) : t.writeReg (0x6100 + 16 * m) v acc = t.partCfgWrite m v := by
  have hk : pageKind (0x6100 + 16 * m) = .peer := pageKind_of_page 6 (by omega)
  have hidx : (0x100 + 16 * m - 0x100) / 16 = m := by omega
  rw [State.writeReg_peer (o := 0x100 + 16 * m) (by omega) (by omega) hk]
  unfold State.writePeer
  rw [if_neg (by omega), if_pos (by omega), if_pos (by omega), hidx]

theorem State.writeReg_key {k w : Nat} (hk : k < 16) (hw : w < 8) :
    t.writeReg (0x6200 + 32 * k + 4 * w) v acc = t.keyWrite k w v := by
  have hpage : pageKind (0x6200 + 32 * k + 4 * w) = .peer := pageKind_of_page 6 (by omega)
  have hslot : (0x200 + 32 * k + 4 * w - 0x200) / 32 = k := by omega
  have hword : (0x200 + 32 * k + 4 * w - 0x200) % 32 / 4 = w := by omega
  rw [State.writeReg_peer (o := 0x200 + 32 * k + 4 * w) (by omega) (by omega) hpage]
  unfold State.writePeer
  rw [if_pos (by omega), hslot, hword]

theorem State.writeReg_chCtrl {c : Nat} (hc : c < 8) : t.writeReg (0x7114 + 0x40 * c) v acc = t.chCtrlWrite c v := by
  have hk : pageKind (0x7114 + 0x40 * c) = .dma := pageKind_of_page 7 (by omega)
  have hidx : (0x114 + 0x40 * c - 0x100) / 0x40 = c := by omega
  have hreg : (0x114 + 0x40 * c) % 0x40 = 0x14 := by omega
  rw [State.writeReg_dma (o := 0x114 + 0x40 * c) (by omega) (by omega) hk, State.writeDma, if_pos (by omega), hidx, hreg]
  rfl

theorem State.writeReg_chAbort {c : Nat} (hc : c < 8) : t.writeReg (0x7134 + 0x40 * c) v acc = t.chAbortWrite c v := by
  have hk : pageKind (0x7134 + 0x40 * c) = .dma := pageKind_of_page 7 (by omega)
  have hidx : (0x134 + 0x40 * c - 0x100) / 0x40 = c := by omega
  have hreg : (0x134 + 0x40 * c) % 0x40 = 0x34 := by omega
  rw [State.writeReg_dma (o := 0x134 + 0x40 * c) (by omega) (by omega) hk, State.writeDma, if_pos (by omega), hidx, hreg]
  rfl

theorem State.writeReg_dbLo {r : Nat} (hr : r < 4096) :
    t.writeReg (0x40000 + 8 * r) v acc = t.updRing r fun x => { x with staged := v } := by
  have hk : pageKind (0x40000 + 8 * r) = .doorbell := by simpa [dbAddr, hr] using pageKind_dbAddr (off := 0) hr (by decide)
  have hreg : (0x40000 + 8 * r) % 8 = 0 := by omega
  simp [State.writeReg, hk, hreg]

theorem State.writeReg_dbHi {r : Nat} (hr : r < 4096) : t.writeReg (0x40004 + 8 * r) v acc = t.presentDoorbell r v acc := by
  have haddr : dbAddr r 4 = 0x40004 + 8 * r := by
    rw [dbAddr, if_pos hr]
    omega
  have hk : pageKind (0x40004 + 8 * r) = .doorbell := haddr ▸ pageKind_dbAddr hr (by decide)
  have hidx : (0x40004 + 8 * r - 0x40000) / 8 = r := by omega
  have hreg : (0x40004 + 8 * r) % 8 = 4 := by omega
  simp [State.writeReg, hk, hidx, hreg]

end

/-! ### Rows that name one register -/

/-- A row whose effect is that of the register at its address does what REGISTER_WRITE does there. -/
theorem exec_eq_registerWrite {i : Instr} {s : State} {a : Nat} {v : Word} {acc : Acc} {f : State → State}
    (he : exec i s = done (s.cfgWrite a acc f)) (hf : ∀ t : State, t.writeReg a v acc = f t) (hlt : a < 2 ^ 20 := by omega)
    (h4 : a % 4 = 0 := by omega) : exec i s = exec (.registerWrite a v acc) s := by
  have hput : exec (.registerWrite a v acc) s = done (s.cfgPut a v acc) := rfl
  rw [he, hput, State.cfgPut, regAddr_of_aligned hlt h4, funext hf]

/-- A row at an address that it gives only for operands in range. -/
theorem exec_eq_cfgWrite_of_addr {i : Instr} {s : State} {a b : Nat} {acc : Acc} {f : State → State}
    (he : exec i s = done (s.cfgWrite b acc f)) (hab : b = a) : exec i s = done (s.cfgWrite a acc f) := hab ▸ he

section
variable (s : State) (v : Word) (acc : Acc)

theorem exec_create_eq_registerWrite {r : Nat} (hr : r < 4096) :
    exec (.create r acc .ok) s = exec (.registerWrite 0x1088 (word (r + 4096)) acc) s := by
  have hring : r % 4096 = r := Nat.mod_eq_of_lt hr
  refine exec_eq_registerWrite rfl fun t => ?_
  rw [hring]
  rfl

theorem exec_destroy_eq_registerWrite {r : Nat} (hr : r < 4096) :
    exec (.destroy r acc) s = exec (.registerWrite 0x1088 (word (r + 8192)) acc) s := by
  have hring : r % 4096 = r := Nat.mod_eq_of_lt hr
  refine exec_eq_registerWrite rfl fun t => ?_
  rw [hring]
  rfl

theorem exec_db_eq_registerWrite {r : Nat} (hr : r < 4096) :
    exec (.dbLo r v acc) s = exec (.registerWrite (0x40000 + 8 * r) v acc) s ∧
    exec (.dbHi r v acc) s = exec (.registerWrite (0x40004 + 8 * r) v acc) s := by
  have haddr (off : Nat) : dbAddr r off = 0x40000 + 8 * r + off := if_pos hr
  exact ⟨exec_eq_registerWrite (exec_eq_cfgWrite_of_addr rfl (haddr 0)) fun t => t.writeReg_dbLo v acc hr,
    exec_eq_registerWrite (exec_eq_cfgWrite_of_addr rfl ((haddr 4).trans (by omega))) fun t => t.writeReg_dbHi v acc hr⟩

theorem exec_ch_eq_registerWrite {c : Nat} (hc : c < 8) :
    exec (.chArm c v acc) s = exec (.registerWrite (0x7114 + 0x40 * c) v acc) s ∧
    exec (.chAbortActive c v acc) s = exec (.registerWrite (0x7134 + 0x40 * c) v acc) s ∧
    exec (.chAbortShadow c v acc) s = exec (.registerWrite (0x7134 + 0x40 * c) v acc) s := by
  have haddr (off : Nat) : chAddr c off = 0x7100 + 0x40 * c + off := if_pos hc
  have hctrl : chAddr c 0x14 = 0x7114 + 0x40 * c := (haddr _).trans (by omega)
  have habort : chAddr c 0x34 = 0x7134 + 0x40 * c := (haddr _).trans (by omega)
  exact ⟨exec_eq_registerWrite (exec_eq_cfgWrite_of_addr rfl hctrl) fun t => t.writeReg_chCtrl v acc hc,
    exec_eq_registerWrite (exec_eq_cfgWrite_of_addr rfl habort) fun t => t.writeReg_chAbort v acc hc,
    exec_eq_registerWrite (exec_eq_cfgWrite_of_addr rfl habort) fun t => t.writeReg_chAbort v acc hc⟩

theorem exec_binding_eq_registerWrite {l : Nat} (hl : l < 16) :
    exec (.inCfgWrite l .cfg v acc) s = exec (.registerWrite (0x5100 + 16 * l) v acc) s ∧
    exec (.outCfgWrite l .store v acc) s = exec (.registerWrite (0x5208 + 16 * l) v acc) s ∧
    exec (.tbCfgWrite l .geom v acc) s = exec (.registerWrite (0x4104 + 16 * l) v acc) s ∧
    exec (.partCfgWrite l v acc) s = exec (.registerWrite (0x6100 + 16 * l) v acc) s := by
  have hin : bindAddr 0x5100 l .cfg = 0x5100 + 16 * l := if_pos hl
  have hout : bindAddr 0x5200 l .store = 0x5208 + 16 * l := (if_pos hl).trans (by simp only [bindAddr.bindOff]; omega)
  have htile : tileAddr l .geom = 0x4104 + 16 * l := (if_pos hl).trans (by simp only [tileAddr.off]; omega)
  exact ⟨exec_eq_registerWrite (exec_eq_cfgWrite_of_addr rfl hin) fun t => t.writeReg_inCfg v acc hl,
    exec_eq_registerWrite (exec_eq_cfgWrite_of_addr rfl hout) fun t => t.writeReg_outStore v acc hl,
    exec_eq_registerWrite (exec_eq_cfgWrite_of_addr rfl htile) fun t => t.writeReg_tileGeom v acc hl,
    exec_eq_registerWrite (exec_eq_cfgWrite_of_addr rfl (if_pos hl)) fun t => t.writeReg_partCfg v acc hl⟩

end

/-- Settles O7: at its address each row's effect is the write of its register. -/
theorem namedRegisterRowsAreWritesOfTheirRegister : Obligations.NamedRegisterRowsAreWritesOfTheirRegister := by
  unfold Obligations.NamedRegisterRowsAreWritesOfTheirRegister
  intro v acc s
  -- At an address that is written out, `writeReg` is the write of its field.
  refine ⟨exec_eq_registerWrite rfl fun _ => rfl, exec_eq_registerWrite rfl fun _ => rfl, exec_eq_registerWrite rfl fun _ => rfl,
    exec_eq_registerWrite rfl fun _ => rfl, exec_eq_registerWrite rfl fun _ => rfl, exec_eq_registerWrite rfl fun _ => rfl,
    exec_eq_registerWrite rfl fun _ => rfl, exec_eq_registerWrite rfl fun _ => rfl, exec_eq_registerWrite rfl fun _ => rfl,
    fun r hr => ⟨exec_create_eq_registerWrite s acc hr, exec_destroy_eq_registerWrite s acc hr, exec_db_eq_registerWrite s v acc hr⟩,
    fun q hq => exec_eq_registerWrite (exec_eq_cfgWrite_of_addr rfl (if_pos hq)) fun t => t.writeReg_hq v acc hq,
    fun c hc => exec_ch_eq_registerWrite s v acc hc, fun l hl => exec_binding_eq_registerWrite s v acc hl,
    fun k w hk hw => exec_eq_registerWrite (exec_eq_cfgWrite_of_addr rfl (if_pos ⟨hk, hw⟩)) fun t => t.writeReg_key v acc hk hw⟩

end Sys2Proof.Machine

/-! Until EARLY only GLB and FUSE act, and the bindings of the sample port and the tile port are written while disabled (R383, R389,
R391, R396, R411). -/

namespace Sys2Proof.Machine

/-! ### Pages that do not act (R411) -/

section
variable {s : State}

theorem State.pageActs_of_rom {k : PageKind} (hrom : s.boot.stage = .rom) (hglb : k ≠ .glb) (hfuse : k ≠ .fuse) :
    s.pageActs k = false := by
  have hearly : s.early = false := by rw [State.early, hrom]; rfl
  cases k
  case glb | fuse => contradiction
  case absent => rfl
  all_goals simp only [State.pageActs, hearly, Bool.false_and]

theorem State.pageActs_of_pack_off {p : Nat} (h : (s.pack p).pdAck = false) : s.pageActs (.pack p) = false := by
  simp [State.pageActs, State.packOn, h]

theorem State.pageActs_of_core_off {c : Nat} (h : (s.core c).pdAck = false) : s.pageActs (.core c) = false := by
  simp [State.pageActs, State.coreOn, h]

variable (hrun : s.running = true)
include hrun

/-- An access of a page that does not act answers DONE with no data. -/
theorem access_of_not_acting {a : Nat} {v : Word} {acc : Acc} (h : s.pageActs (pageKind (regAddr a)) = false) :
    exec (.registerWrite a v acc) s = .next ({ s with cfgResp := (0, 0), cfgRid := acc.id } : State).settle ∧
    s.cfgRead (regAddr a) acc = { s with cfgResp := (0, 0), cfgRid := acc.id } := by
  have hput : s.cfgPut a v acc = s.answered acc := State.cfgWrite_reserved _ _ _ _ hrun (.inl h)
  exact ⟨congrArg (fun t : State => Host.Outcome.next t.settle) hput, State.cfgRead_of_not_acting hrun h⟩

/-- GLB and FUSE answer the word of the register, in every stage. -/
theorem State.cfgRead_of_glb_or_fuse {a : Nat} {acc : Acc} (hk : pageKind a = .glb ∨ pageKind a = .fuse)
    (hreg : pageReg (pageKind a) (a % 0x1000) = true) (hallow : readAllowed a acc = true) :
    s.cfgRead a acc = { s with cfgResp := (0, s.readReg a), cfgRid := acc.id } := by
  have hdata : (s.answers acc).readReg a = s.readReg a := by
    rcases hk with hk | hk <;> simp only [State.readReg, hk] <;> rfl
  have hread : s.cfgRead a acc = (s.answers acc).respond 0 ((s.answers acc).readReg a) := by
    rcases hk with hk | hk <;> simp only [hk] at hreg <;> simp [State.cfgRead, State.pageActs, hrun, hk, hreg, hallow]
  rw [hread, hdata]
  rfl

end

/-- Settles O59: a page that does not act answers and no more; GLB reads its registers and takes its mask in every stage. -/
theorem onlyGlbAndFuseActUntilEarly : Obligations.OnlyGlbAndFuseActUntilEarly := by
  unfold Obligations.OnlyGlbAndFuseActUntilEarly
  intro s a v acc hrun k silent
  refine ⟨fun hrom hglb hfuse => ?_, fun p hk hoff => ?_, fun c hk hoff => ?_, fun hk hreg hallow => ?_, fun hk haddr hallow => ?_⟩
  · exact access_of_not_acting hrun (State.pageActs_of_rom hrom hglb hfuse)
  · exact access_of_not_acting hrun (by rw [show pageKind (regAddr a) = .pack p from hk]; exact State.pageActs_of_pack_off hoff)
  · exact access_of_not_acting hrun (by rw [show pageKind (regAddr a) = .core c from hk]; exact State.pageActs_of_core_off hoff)
  · exact State.cfgRead_of_glb_or_fuse hrun hk hreg hallow
  · rw [haddr] at hallow
    have hg : s.grants (regAddr a) acc = true := by
      rw [haddr, State.grants, hrun, hallow]
      rfl
    refine ⟨_, exec_registerWrite_of_grants hg, ?_⟩
    rw [State.settle_hdr_of, haddr]
    exact congrArg Hdr.mask (((s.answered acc).updHdr_hdr 0 (fun h => { h with mask := v }) 0).trans (if_pos rfl))

/-! ### Bindings of the sample port (R383, R389) -/

section
variable {s : State} {l : Nat} {reg : BindReg} {v : Word} {acc : Acc}

theorem exec_inCfgWrite_of_grants (hg : s.grants (bindAddr 0x5100 l reg) acc = true) :
    exec (.inCfgWrite l reg v acc) s = .next ((s.answered acc).inWrite l reg v).settle := exec_of_cfgWrite rfl hg rfl

theorem exec_outCfgWrite_of_grants (hg : s.grants (bindAddr 0x5200 l reg) acc = true) :
    exec (.outCfgWrite l reg v acc) s = .next ((s.answered acc).outWrite l reg v).settle := exec_of_cfgWrite rfl hg rfl

/-- An enabled ingress binding takes only the write that clears EN. -/
theorem State.inWrite_of_enabled (h : (s.inReg l).en = true) : s.inWrite l reg v = if reg = .cfg ∧ v.getLsbD 0 = false then
    { s with aport := { s.aport with inCfg := s.aport.inCfg.set 0 l ((s.inReg l).cfg &&& ~~~1#32) } } else s := if_pos h

theorem State.outWrite_of_enabled (h : (s.outReg l).en = true) : s.outWrite l reg v = if reg = .cfg ∧ v.getLsbD 0 = false then
    { s with aport := { s.aport with outCfg := s.aport.outCfg.set 0 l ((s.outReg l).cfg &&& ~~~1#32) } } else s := if_pos h

end

/-! ### Bindings of the tile port (R391, R396) -/

/-- The bits of CFG of a tile binding that are not reserved. -/
theorem tileCfg_mask (v : Word) : (v &&& 0x007FFFFF#32).getLsbD 0 = v.getLsbD 0 ∧ wbits (v &&& 0x007FFFFF#32) 4 1 = wbits v 4 1 ∧
    v &&& 0x007FFFFF#32 &&& ~~~1#32 = v &&& 0x007FFFFE#32 := by
  refine ⟨by simp, ?_, by rw [BitVec.and_assoc]; rfl⟩
  have hmod : (v &&& 0x007FFFFF#32).toNat = v.toNat % 2 ^ 23 := Nat.and_two_pow_sub_one_eq_mod v.toNat 23
  rw [wbits, wbits, hmod, Nat.shiftRight_eq_div_pow, Nat.shiftRight_eq_div_pow]
  omega

section
variable {s : State} {b : Nat} {reg : TileReg} {v : Word} {acc : Acc}

theorem exec_tbCfgWrite_of_grants (hg : s.grants (tileAddr b reg) acc = true) :
    exec (.tbCfgWrite b reg v acc) s = .next ((s.answered acc).tileWrite b reg v).settle := exec_of_cfgWrite rfl hg rfl

theorem State.tileWrite_of_enabled (h : s.tileEn b = true) : s.tileWrite b reg v = if reg = .cfg ∧ v.getLsbD 0 = false then
    { s with tport := { s.tport with cfg := s.tport.cfg.set 0 b (s.tileCfg b &&& ~~~1#32) } } else s := if_pos h

variable (h : s.tileEn b = false)
include h

/-- An enable that would repeat a DSEQ on its surface leaves EN at 0. -/
theorem State.tileWrite_of_clash (hen : v.getLsbD 0 = true) (hclash : s.dseqClash b (wbits v 4 1) = true) : s.tileWrite b .cfg v =
    ({ s with tport := { s.tport with cfg := s.tport.cfg.set 0 b (v &&& 0x007FFFFE#32) } }).raise 4 4 := by
  obtain ⟨hbit, hsurf, hclear⟩ := tileCfg_mask v
  simp only [State.tileWrite, h, Bool.false_eq_true, if_false, hbit, hsurf, hclear, hen, hclash, Bool.and_self, if_true]
  rfl

theorem State.tileWrite_of_cfg (hno : v.getLsbD 0 = false ∨ s.dseqClash b (wbits v 4 1) = false) : s.tileWrite b .cfg v =
    { s with tport := { s.tport with cfg := s.tport.cfg.set 0 b (v &&& 0x007FFFFF#32) } } := by
  obtain ⟨hbit, hsurf, -⟩ := tileCfg_mask v
  have hguard : (v.getLsbD 0 && s.dseqClash b (wbits v 4 1)) = false := Bool.and_eq_false_iff.mpr hno
  simp only [State.tileWrite, h, Bool.false_eq_true, if_false, hbit, hsurf, hguard]

end

/-- Settles O22: a granted write of a binding by whether the binding is enabled. -/
theorem portBindingsAreWrittenWhileDisabled : Obligations.PortBindingsAreWrittenWhileDisabled := by
  unfold Obligations.PortBindingsAreWrittenWhileDisabled
  refine ⟨fun l reg v acc s _ => ⟨fun hg hoff => ?_, fun hg hon => ?_, fun hg hoff => ?_, fun hg hon => ?_⟩,
    fun b reg v acc s _ hg => ⟨fun hon => ?_, fun hoff hcfg hen hclash => ?_, fun hoff hno => ?_⟩⟩
  · refine exec_of_cfgWrite rfl hg ((if_neg (Bool.eq_false_iff.mp hoff)).trans ?_)
    cases reg <;> rfl
  · rw [exec_inCfgWrite_of_grants hg, State.inWrite_of_enabled (s := s.answered acc) hon]
    rfl
  · refine exec_of_cfgWrite rfl hg ((if_neg (Bool.eq_false_iff.mp hoff)).trans ?_)
    cases reg <;> rfl
  · rw [exec_outCfgWrite_of_grants hg, State.outWrite_of_enabled (s := s.answered acc) hon]
    rfl
  · rw [exec_tbCfgWrite_of_grants hg, State.tileWrite_of_enabled (s := s.answered acc) hon]
    rfl
  · subst hcfg
    rw [exec_tbCfgWrite_of_grants hg, State.tileWrite_of_clash (s := s.answered acc) hoff hen hclash]
    rfl
  · cases reg with
    | cfg =>
      have hno' : v.getLsbD 0 = false ∨ s.dseqClash b (wbits v 4 1) = false := hno.resolve_left fun hne => hne rfl
      rw [exec_tbCfgWrite_of_grants hg, State.tileWrite_of_cfg (s := s.answered acc) hoff hno']
      rfl
    | geom => exact exec_of_cfgWrite rfl hg (if_neg (Bool.eq_false_iff.mp hoff))
    | refs => exact exec_of_cfgWrite rfl hg (if_neg (Bool.eq_false_iff.mp hoff))
    | dseq => exact exec_of_cfgWrite rfl hg (if_neg (Bool.eq_false_iff.mp hoff))

end Sys2Proof.Machine

/-! The memory port: replies, errors and timeouts (R376, R378 to R380). -/

namespace Sys2Proof.Machine

/-! ### Replies (R376, R378) -/

/-- The reserved reply code is taken as MR_TGTERR (R379). -/
theorem portCode_eq (code : MemCode) : portCode code = if code = .timeout then .tgterr else code := by cases code <;> rfl

theorem State.memCheck_of_error {code : MemCode} (s : State) (write : Bool) (addr : Nat) (cls : QCls) (h : code ≠ .ok) :
    s.memCheck code write addr cls = s.memErr code write addr cls := if_neg h

theorem portCode_ne_ok {code : MemCode} (h : code ≠ .ok) : portCode code ≠ .ok := by
  cases code
  case ok => contradiction
  all_goals exact MemCode.noConfusion

/-- A reply to a tag that is not outstanding takes nothing. -/
theorem State.takeReply_of_none {s : State} {ch tag : Nat} {write : Bool} (h : ∀ u q, s.takeReply ch tag write ≠ (u, some q)) :
    s.takeReply ch tag write = (s, none) := by
  unfold State.takeReply at h ⊢
  dsimp only at h ⊢
  split at h
  next => rfl
  next q _ => exact absurd rfl (h _ q)

section
variable {s u : State} {ch tag : Nat} {q : MReq}

theorem State.readData_of_none {code : MemCode} (h : s.takeReply ch tag false = (u, none)) : s.readData ch tag code = u := by
  simp only [State.readData, h]

theorem State.readData_of_timedOut {code : MemCode} (h : s.takeReply ch tag false = (u, some q)) (ht : q.timedOut = true) :
    s.readData ch tag code = u := by
  simp only [State.readData, h, ht, if_true]

theorem State.readData_of_reply {code : MemCode} (h : s.takeReply ch tag false = (u, some q)) (ht : q.timedOut = false) :
    s.readData ch tag code =
      (((u.chargeLate q).noteLatency q).memCheck (portCode code) false (64 * q.line) q.cls).deliver q (portCode code) := by
  simp only [State.readData, h, ht, Bool.false_eq_true, if_false]

theorem State.writeDone_of_timedOut {code : MemCode} (h : s.takeReply ch tag true = (u, some q)) (ht : q.timedOut = true) :
    s.writeDone ch tag code = u := by
  simp only [State.writeDone, h, ht, if_true]

/-- A completed write lands by its enables. -/
theorem State.writeDone_of_ok (h : s.takeReply ch tag true = (u, some q)) (ht : q.timedOut = false) :
    s.writeDone ch tag .ok = (u.hostWriteEn (64 * q.line) (q.data.zip q.ben)).deliver q .ok := by
  simp only [State.writeDone, h, ht, Bool.false_eq_true, if_false]
  rfl

/-- A write in error leaves its bytes open (R379). -/
theorem State.writeDone_of_error {code : MemCode} (h : s.takeReply ch tag true = (u, some q)) (ht : q.timedOut = false)
    (hcode : code ≠ .ok) : s.writeDone ch tag code =
      ((u.openWrite q).memErr (portCode code) true (64 * q.line) q.cls).deliver q (portCode code) := by
  have hport := portCode_ne_ok hcode
  simp only [State.writeDone, h, ht, Bool.false_eq_true, if_false, if_neg hport, State.memCheck_of_error _ _ _ _ hport]

/-! ### Timeouts (R379) -/

/-- The outstanding request of a channel that a timeout of `tag` concerns. -/
def MChan.awaits (c : MChan) (tag : Nat) : Option MReq := c.out.find? fun x => x.tag == tag && !x.timedOut

/-- The channel with request `q` marked as timed out; its tag stays reserved. -/
def MChan.expire (c : MChan) (q : MReq) : MChan := { c with out := c.out.map fun x => if x = q then { x with timedOut := true } else x }

variable (hq : (s.mchan ch).awaits tag = some q)
include hq

theorem State.timeOut_of_read (hlim : s.mport.timeout ≠ 0) (hdue : s.mport.timeout * 1024 ≤ s.fclk - q.sent)
    (hread : q.write = false) : s.timeOut ch tag = ((s.setMchan ch ((s.mchan ch).expire q)).memErr .timeout false (64 * q.line) q.cls).deliver q .timeout := by
  have hq' : (s.mchan ch).out.find? (fun x => x.tag == tag && !x.timedOut) = some q := hq
  simp only [State.timeOut, hq', if_pos (And.intro hlim hdue), hread, Bool.false_eq_true, if_false]
  rfl

theorem State.timeOut_of_early (h : s.fclk - q.sent < s.mport.timeout * 1024) : s.timeOut ch tag = s := by
  have hq' : (s.mchan ch).out.find? (fun x => x.tag == tag && !x.timedOut) = some q := hq
  simp only [State.timeOut, hq', if_neg fun due : _ ∧ _ => absurd due.2 h.not_ge]

end

/-! ### The record of the first error (R379, R380) -/

section
variable {s : State} {code : MemCode} {write : Bool} {addr : Nat} {cls : QCls}

theorem State.memErr_of_valid (h : s.mport.errInfo.getLsbD 0 = true) : s.memErr code write addr cls = s.raise 3 0 := if_pos h

theorem State.memErr_of_free (h : s.mport.errInfo.getLsbD 0 = false) : s.memErr code write addr cls =
    { s.raise 3 0 with mport := { s.mport with
      errInfo := word (1 + 2 * causeOf code + 8 * b2n write + 16 * (addr / 64 % 8) + 128 * clsCode cls)
      errAddr := addr / 64 * 64 % 2 ^ 48 } } := if_neg (Bool.eq_false_iff.mp h)

end

/-- Settles O21: a reply by whether its tag is outstanding and timed out, an error by whether the record is free. -/
theorem memoryRepliesAndErrors : Obligations.MemoryRepliesAndErrors := by
  unfold Obligations.MemoryRepliesAndErrors
  refine ⟨fun ch tag code s hrun => ?_,
    fun s code w a cls v acc => ⟨State.memErr_of_valid, fun hfree => ?_, fun hg hv => ?_, fun hg hv => ?_⟩⟩
  · have hread (code : MemCode) {t : State} (ht : s.readData ch tag code = t) : exec (.memReadData ch tag code) s = .next t.settle :=
      ht ▸ exec_of_guard rfl hrun
    have hwrite (code : MemCode) {t : State} (ht : s.writeDone ch tag code = t) :
        exec (.memWriteCompletion ch tag code) s = .next t.settle := ht ▸ exec_of_guard rfl hrun
    have htimeout {t : State} (ht : s.timeOut ch tag = t) : exec (.memTimeout ch tag) s = .next t.settle := ht ▸ exec_of_guard rfl hrun
    dsimp only
    rw [← portCode_eq]
    refine ⟨fun u q h ht => hread code (State.readData_of_timedOut h ht), fun u q h ht => hread code (State.readData_of_reply h ht),
      fun u q h ht => hwrite code (State.writeDone_of_timedOut h ht), fun u q h ht hok => ?_,
      fun u q h ht herr => hwrite code (State.writeDone_of_error h ht herr),
      fun h => hread code (State.readData_of_none (State.takeReply_of_none h)),
      fun q hq hlim hdue hr => htimeout (State.timeOut_of_read hq hlim hdue hr),
      fun q hq hearly => htimeout (State.timeOut_of_early hq hearly)⟩
    subst hok
    exact hwrite .ok (State.writeDone_of_ok h ht)
  · rw [State.memErr_of_free hfree]
    cases code <;> cases cls <;> rfl
  · exact exec_of_cfgWrite rfl hg (if_pos hv)
  · exact exec_of_cfgWrite rfl hg (if_neg (Bool.eq_false_iff.mp hv))

end Sys2Proof.Machine

/-! Ingress words and egress releases: where a captured word goes, when a waiting word lands, and what a lane drives (R382 to R385,
R387). -/

namespace Sys2Proof.Machine

/-! ### Where a word lands (R384) -/

/-- The sample port with a position noted as landed. -/
def APort.land (p : APort) (x : Nat × Nat × Nat) : APort :=
  { p with landed := if p.landed.contains x then p.landed else p.landed ++ [x] }

theorem APort.mem_land (p : APort) (x : Nat × Nat × Nat) : x ∈ (p.land x).landed := by
  unfold APort.land
  dsimp only
  split_ifs with h
  · exact List.contains_iff_mem.mp h
  · exact List.mem_append_right _ List.mem_cons_self

section
variable (s : State) (gid : Nat) (g : Group) (b : Bind) (w : WaitWord)

/-- The latch of the core of a tick-mode group of one slot takes the word (R243). -/
def State.latchWord : State :=
  if !g.block && g.nslot == 1 then
    s.updCore (g.core b.kslot) fun k =>
      { k with
        latch := (List.range 4).foldl (fun m i =>
          Sparse.set 0 m (4 * b.boff + i) (BitVec.ofNat 8 (w.data.toNat / 256 ^ i % 256))) k.latch
        latched := (k.latched.filter fun x => x.off != 4 * b.boff)
          ++ [⟨gid, w.frame, hPhys (k.entry b.href) w.pos / 64, 4 * b.boff⟩] }
  else s

/-- A word at its position in SPD and in the latch of its core, before its mark. -/
def State.landData : State :=
  let t := (s.writeHandle (g.core b.kslot) b.href w.pos (toBytes 4 w.data.toNat)).latchWord gid g b w
  { t with aport := t.aport.land (w.lane, w.frame, w.pos) }

/-- The mark of a landed word: in the mark buffers of a frame that runs, else kept with the group (R243, R386). -/
def State.landMark : State :=
  match g.frame? w.frame with
  | some f =>
    if f.start.isSome then (List.range g.nslot).foldl (fun t k => t.setMark g k w.member w.step) s
    else s.updGroup gid fun x => { x with ingressMarks := x.ingressMarks ++ [(w.frame, w.member, w.step)] }
  | none => s.updGroup gid fun x => { x with ingressMarks := x.ingressMarks ++ [(w.frame, w.member, w.step)] }

theorem State.landWord_eq :
    s.landWord gid g b w = if !w.rst then s.landData gid g b w else (s.landData gid g b w).landMark gid g w := rfl

/-- The registers of the sample port and the event registers. -/
def State.portAndEvents (s : State) : APort × Sparse Hdr := (s.aport, s.hdrs)

theorem State.setMark_portAndEvents (k j t : Nat) : (s.setMark g k j t).portAndEvents = s.portAndEvents := by
  unfold State.setMark
  dsimp only
  split_ifs <;> rfl

theorem State.updGroup_portAndEvents (f : Group → Group) : (s.updGroup gid f).portAndEvents = s.portAndEvents := by
  unfold State.updGroup
  split <;> rfl

theorem State.landMark_portAndEvents : (s.landMark gid g w).portAndEvents = s.portAndEvents := by
  unfold State.landMark
  split
  · split_ifs
    · exact State.foldl_keeps (part := State.portAndEvents) _ (fun t k => t.setMark_portAndEvents g k w.member w.step) s
    · exact s.updGroup_portAndEvents gid _
  · exact s.updGroup_portAndEvents gid _

theorem State.landWord_portAndEvents : (s.landWord gid g b w).portAndEvents = (s.landData gid g b w).portAndEvents := by
  rw [State.landWord_eq]
  split_ifs
  · rfl
  · exact State.landMark_portAndEvents _ gid g w

theorem State.latchWord_frame : (s.latchWord gid g b w).aport = s.aport ∧ (s.latchWord gid g b w).hdrs = s.hdrs ∧
    (s.latchWord gid g b w).groups = s.groups := by
  unfold State.latchWord
  split_ifs <;> exact ⟨rfl, rfl, rfl⟩

theorem State.latchWord_spd (c : Nat) : ((s.latchWord gid g b w).core c).spd = (s.core c).spd := by
  unfold State.latchWord
  split_ifs
  · rw [State.updCore_core]
    split_ifs with hc
    · rw [hc]
    · rfl
  · rfl

theorem State.landData_frame : (s.landData gid g b w).aport = s.aport.land (w.lane, w.frame, w.pos) ∧
    (s.landData gid g b w).hdrs = s.hdrs ∧ (s.landData gid g b w).groups = s.groups := by
  obtain ⟨haport, hhdrs, hgroups⟩ :=
    (s.writeHandle (g.core b.kslot) b.href w.pos (toBytes 4 w.data.toNat)).latchWord_frame gid g b w
  exact ⟨congrArg (APort.land · _) haport, hhdrs, hgroups⟩

theorem State.landData_spd : ((s.landData gid g b w).core (g.core b.kslot)).spd =
    ((s.core (g.core b.kslot)).wr ((s.core (g.core b.kslot)).entry b.href) w.pos (toBytes 4 w.data.toNat)).spd := by
  refine (State.latchWord_spd _ gid g b w _).trans ?_
  rw [State.writeHandle, State.updCore_core, if_pos rfl]

/-- The sample port after a word has landed. -/
theorem State.landWord_aport : (s.landWord gid g b w).aport = s.aport.land (w.lane, w.frame, w.pos) :=
  (congrArg Prod.fst (s.landWord_portAndEvents gid g b w)).trans (s.landData_frame gid g b w).1

theorem State.landWord_hdrs : (s.landWord gid g b w).hdrs = s.hdrs :=
  (congrArg Prod.snd (s.landWord_portAndEvents gid g b w)).trans (s.landData_frame gid g b w).2.1

theorem State.landWord_of_unmarked (h : w.rst = false) : s.landWord gid g b w = s.landData gid g b w := by
  rw [State.landWord_eq, h]
  rfl

end

/-! ### A captured word (R382 to R385) -/

/-- The state after a word of bad parity has been counted. -/
def State.parityError (s : State) : State :=
  ({ s with aport := { s.aport with parCnt := satWord s.aport.parCnt 1 } }).raise pgAport 0

/-- The frame and the step that a tag's member stands in at the present value of the time base (R239). -/
def State.tagPlace (s : State) (g : Group) (b : Bind) (tag : BitVec 16) : Nat × Nat :=
  g.placeOf (b.mbase + wbits tag 8 0) ((s.tb g.tb).value + dword b.adv)

/-- What the port does with a word for a place, a frame and a step (R384, R385). -/
def State.placeWord (s : State) (gid : Nat) (g : Group) (b : Bind) (data : Word) (tag : BitVec 16) (mark : Bool) (p : Nat × Nat) :
    State :=
  if p.1 < g.oldest then s.lateWord
  else if g.oldest + 2 ≤ p.1 then s.earlyWord
  else
    match s.bindFor g p.1 b with
    | some x =>
      if x.mcnt ≤ wbits tag 8 0 ∨ x.nch ≤ wbits tag 10 9 then s.strayWord
      else s.storeIngress gid g x p.1 p.2 (wbits tag 8 0) (wbits tag 10 9) data mark
    | none => s.strayWord

/-- What the port does with a word once its parity has been checked. -/
def State.capture (s : State) (lane : Nat) (data : Word) (tag : BitVec 16) (mark : Bool) : State :=
  match s.laneGroup lane with
  | none => s.strayWord
  | some (gid, g, b) =>
    if wbits tag 14 12 ≠ 0 ∨ b.mcnt ≤ wbits tag 8 0 ∨ b.nch ≤ wbits tag 10 9 ∨ g.nmem ≤ b.mbase + wbits tag 8 0 then
      s.strayWord
    else s.placeWord gid g b data tag mark (s.tagPlace g b tag)

theorem State.ingress_of_good {s : State} {lane : Nat} {data : Word} {tag : BitVec 16} (h : tag.getLsbD 15 = parBit data tag) :
    s.ingress lane data tag = s.capture lane data tag (tag.getLsbD 11) := by
  simp only [State.ingress, h, bne_self_eq_false, Bool.false_eq_true, if_false, Bool.not_false, Bool.true_and]
  rfl

theorem State.ingress_of_bad {s : State} {lane : Nat} {data : Word} {tag : BitVec 16} (h : tag.getLsbD 15 ≠ parBit data tag) :
    s.ingress lane data tag = s.parityError.capture lane 0 tag false := by
  simp only [State.ingress, bne_iff_ne.mpr h, if_true, Bool.not_true, Bool.false_and]
  rfl

/-- PAR_CNT and SP_PARITY, which only the parity of a word changes. -/
def State.parity (s : State) : Word × Bool := (s.aport.parCnt, (s.hdr 5).raw.getLsbD 0)

section
variable (s : State)

theorem State.raise_stray_parity : (s.raise pgAport 1).parity = s.parity := by
  have hraw : ((s.raise 5 1).hdr 5).raw.getLsbD 0 = (s.hdr 5).raw.getLsbD 0 := by
    rw [State.raise_hdr_raw, BitVec.getLsbD_or, show (word (2 ^ 1)).getLsbD 0 = false from rfl, Bool.or_false]
  exact congrArg (fun raised => (s.aport.parCnt, raised)) hraw

theorem State.strayWord_parity : s.strayWord.parity = s.parity := State.raise_stray_parity _

theorem State.lateWord_parity : s.lateWord.parity = s.parity := State.raise_stray_parity _

theorem State.earlyWord_parity : s.earlyWord.parity = s.parity := State.raise_stray_parity _

theorem State.storeIngress_parity (gid : Nat) (g : Group) (b : Bind) (n t rel ch : Nat) (data : Word) (mark : Bool) :
    (s.storeIngress gid g b n t rel ch data mark).parity = s.parity := by
  unfold State.storeIngress
  dsimp only
  split_ifs
  · rw [State.parity, State.hdr, State.landWord_aport, State.landWord_hdrs]
    rfl
  · rfl

theorem State.placeWord_parity (gid : Nat) (g : Group) (b : Bind) (data : Word) (tag : BitVec 16) (mark : Bool) (p : Nat × Nat) :
    (s.placeWord gid g b data tag mark p).parity = s.parity := by
  unfold State.placeWord
  split_ifs
  · exact s.lateWord_parity
  · exact s.earlyWord_parity
  · split
    · split_ifs
      · exact s.strayWord_parity
      · exact s.storeIngress_parity ..
    · exact s.strayWord_parity

theorem State.capture_parity (lane : Nat) (data : Word) (tag : BitVec 16) (mark : Bool) :
    (s.capture lane data tag mark).parity = s.parity := by
  unfold State.capture
  split
  · exact s.strayWord_parity
  · split_ifs
    · exact s.strayWord_parity
    · exact s.placeWord_parity ..

theorem State.parityError_parity : s.parityError.parity = (satWord s.aport.parCnt 1, true) :=
  congrArg (fun raised => (satWord s.aport.parCnt 1, raised)) (State.raise_sets _ pgAport (b := 0) (by decide))

end

section
variable (s : State) (gid : Nat) (g : Group) (b : Bind) (n t rel ch : Nat) (data : Word) (mark : Bool)

/-- The word as the ingress store holds it. -/
def Bind.waitWord : WaitWord :=
  { lane := b.lane, gid := gid, frame := n, store := b.storeWord g n t rel ch, pos := b.pos g.nmem t (b.mbase + rel) ch, data := data
    rst := mark, member := b.mbase + rel, step := t }

/-- The state with a word in the ingress store. -/
def State.stored : State := { s with aport := { s.aport with istore := s.aport.istore.set 0 (b.storeWord g n t rel ch) data } }

theorem State.storeIngress_of_oldest (h : n = g.oldest) : s.storeIngress gid g b n t rel ch data mark =
    (s.stored g b n t rel ch data).landWord gid g b (b.waitWord gid g n t rel ch data mark) := if_pos h

theorem State.storeIngress_of_next (h : n ≠ g.oldest) : s.storeIngress gid g b n t rel ch data mark =
    { s with aport := { s.aport with
      istore := s.aport.istore.set 0 (b.storeWord g n t rel ch) data
      waits := s.aport.waits ++ [b.waitWord gid g n t rel ch data mark] } } := if_neg h

end

/-- Does a tag name a position of the binding (R382, R384)? -/
def Bind.takes (b : Bind) (g : Group) (tag : BitVec 16) : Prop :=
  wbits tag 14 12 = 0 ∧ wbits tag 8 0 < b.mcnt ∧ wbits tag 10 9 < b.nch ∧ b.mbase + wbits tag 8 0 < g.nmem

theorem Bind.not_takes_iff (b : Bind) (g : Group) (tag : BitVec 16) : ¬ b.takes g tag ↔
    wbits tag 14 12 ≠ 0 ∨ b.mcnt ≤ wbits tag 8 0 ∨ b.nch ≤ wbits tag 10 9 ∨ g.nmem ≤ b.mbase + wbits tag 8 0 := by
  simp only [Bind.takes, not_and_or, not_lt, ne_eq]

section
variable {s : State} {lane : Nat} {data : Word} {tag : BitVec 16} {mark : Bool}

theorem State.capture_of_no_group (h : s.laneGroup lane = none) : s.capture lane data tag mark = s.strayWord := by
  simp only [State.capture, h]

variable {gid : Nat} {g : Group} {b : Bind} (hgroup : s.laneGroup lane = some (gid, g, b))
include hgroup

theorem State.capture_of_unfit (h : ¬ b.takes g tag) : s.capture lane data tag mark = s.strayWord := by
  simp only [State.capture, hgroup, if_pos ((b.not_takes_iff g tag).mp h)]

variable (htakes : b.takes g tag)
include htakes

theorem State.capture_of_fit :
    s.capture lane data tag mark = s.placeWord gid g b data tag mark (s.tagPlace g b tag) := by
  simp only [State.capture, hgroup, if_neg (mt (b.not_takes_iff g tag).mpr (not_not_intro htakes))]

theorem State.capture_of_finished (h : (s.tagPlace g b tag).1 < g.oldest) : s.capture lane data tag mark = s.lateWord :=
  (State.capture_of_fit hgroup htakes).trans (if_pos h)

theorem State.capture_of_far (h : g.oldest + 2 ≤ (s.tagPlace g b tag).1) : s.capture lane data tag mark = s.earlyWord :=
  (State.capture_of_fit hgroup htakes).trans ((if_neg (by omega)).trans (if_pos h))

/-- A word of the oldest unfinished frame or of the next one goes to the store of its binding. -/
theorem State.capture_of_near (hlow : g.oldest ≤ (s.tagPlace g b tag).1) (hhigh : (s.tagPlace g b tag).1 < g.oldest + 2)
    (hbind : s.bindFor g (s.tagPlace g b tag).1 b = some b) : s.capture lane data tag mark =
      s.storeIngress gid g b (s.tagPlace g b tag).1 (s.tagPlace g b tag).2 (wbits tag 8 0) (wbits tag 10 9) data mark := by
  obtain ⟨-, hrel, hch, -⟩ := id htakes
  rw [State.capture_of_fit hgroup htakes, State.placeWord, if_neg hlow.not_gt, if_neg hhigh.not_ge, hbind]
  exact if_neg (not_or.mpr ⟨hrel.not_ge, hch.not_ge⟩)

/-- A word of the oldest unfinished frame lands at its position. -/
theorem State.capture_of_oldest (hat : (s.tagPlace g b tag).1 = g.oldest) (hbind : s.bindFor g (s.tagPlace g b tag).1 b = some b) :
    let n := (s.tagPlace g b tag).1
    let t := (s.tagPlace g b tag).2
    let pos := b.pos g.nmem t (b.mbase + wbits tag 8 0) (wbits tag 10 9)
    let u := s.capture lane data tag mark
    u.aport.istore = s.aport.istore.set 0 (b.storeWord g n t (wbits tag 8 0) (wbits tag 10 9)) data ∧
    (b.lane, n, pos) ∈ u.aport.landed ∧
    (mark = false → u.groups = s.groups ∧ (u.core (g.core b.kslot)).spd =
      ((s.core (g.core b.kslot)).wr ((s.core (g.core b.kslot)).entry b.href) pos (toBytes 4 data.toNat)).spd) := by
  intro n t pos u
  have hland : u = (s.stored g b n t (wbits tag 8 0) (wbits tag 10 9) data).landWord gid g b
      (b.waitWord gid g n t (wbits tag 8 0) (wbits tag 10 9) data mark) :=
    (State.capture_of_near hgroup htakes hat.ge (by omega) hbind).trans (s.storeIngress_of_oldest gid g b _ _ _ _ data mark hat)
  rw [hland, State.landWord_aport]
  refine ⟨rfl, APort.mem_land _ _, fun hmark => ?_⟩
  rw [State.landWord_of_unmarked _ _ _ _ _ hmark]
  exact ⟨(State.landData_frame _ _ _ _ _).2.2, State.landData_spd _ _ _ _ _⟩

/-- A word of the next frame waits in the store. -/
theorem State.capture_of_next (hat : (s.tagPlace g b tag).1 = g.oldest + 1) (hbind : s.bindFor g (s.tagPlace g b tag).1 b = some b) :
    s.capture lane data tag mark = { s with aport := { s.aport with
      istore := s.aport.istore.set 0
        (b.storeWord g (s.tagPlace g b tag).1 (s.tagPlace g b tag).2 (wbits tag 8 0) (wbits tag 10 9)) data
      waits := s.aport.waits ++
        [b.waitWord gid g (s.tagPlace g b tag).1 (s.tagPlace g b tag).2 (wbits tag 8 0) (wbits tag 10 9) data mark] } } :=
  (State.capture_of_near hgroup htakes (by omega) (by omega) hbind).trans
    (s.storeIngress_of_next gid g b _ _ _ _ data mark (by omega))

end

/-! ### Waiting words (R384) -/

/-- May a waiting word leave the store: its frame is the oldest unfinished one, or its group is gone? -/
def State.mayLand (s : State) (w : WaitWord) : Bool :=
  match s.group? w.gid with
  | some g => decide (w.frame ≤ g.oldest) && decide (g.doneAt + 16 ≤ s.fclk)
  | none => true

section
variable {s : State} {lane : Nat}

theorem State.landStored_of_none (h : ∀ w ∈ s.aport.waits, w.lane ≠ lane) : s.landStored lane = s := by
  have hfind : s.aport.waits.find? (fun w => w.lane == lane && s.mayLand w) = none :=
    List.find?_eq_none.mpr fun w hw => by simp [h w hw]
  unfold State.landStored
  dsimp only
  split
  next => rfl
  next hsome => exact absurd (hfind.symm.trans hsome) nofun

variable {w : WaitWord} {rest : List WaitWord} (hwaits : s.aport.waits = w :: rest) (hlane : w.lane = lane)
include hwaits hlane

theorem State.find_mayLand (hmay : s.mayLand w = true) :
    s.aport.waits.find? (fun w => w.lane == lane && s.mayLand w) = some w := by
  rw [hwaits]
  exact List.find?_cons_of_pos (by rw [hlane, hmay, beq_self_eq_true, Bool.and_self])

/-- A word of a group that is gone is dropped. -/
theorem State.landStored_of_gone (hg : s.group? w.gid = none) :
    s.landStored lane = { s with aport := { s.aport with waits := rest } } := by
  have hfind := State.find_mayLand hwaits hlane (by rw [State.mayLand, hg])
  unfold State.landStored
  dsimp only
  split
  next hnone => exact absurd (hfind.symm.trans hnone) nofun
  next x hsome =>
    obtain rfl := Option.some.inj (hfind.symm.trans hsome)
    have hg' (p : APort) : ({ s with aport := p } : State).group? w.gid = none := hg
    rw [hg', hwaits, List.erase_cons_head]

/-- A word of the oldest unfinished frame lands. -/
theorem State.landStored_of_oldest {g : Group} {b : Bind} (hg : s.group? w.gid = some g) (hframe : w.frame = g.oldest)
    (hdone : g.doneAt + 16 ≤ s.fclk) (hbind : s.bindFor g w.frame (s.inReg lane) = some b) :
    s.landStored lane = ({ s with aport := { s.aport with waits := rest } } : State).landWord w.gid g b w := by
  have hfind := State.find_mayLand hwaits hlane (by simp [State.mayLand, hg, hframe, hdone])
  unfold State.landStored
  dsimp only
  split
  next hnone => exact absurd (hfind.symm.trans hnone) nofun
  next x hsome =>
    obtain rfl := Option.some.inj (hfind.symm.trans hsome)
    rw [hwaits, List.erase_cons_head]
    have hg' : ({ s with aport := { s.aport with waits := rest } } : State).group? w.gid = some g := hg
    have hbind' : ({ s with aport := { s.aport with waits := rest } } : State).bindFor g w.frame
      (({ s with aport := { s.aport with waits := rest } } : State).inReg lane) = some b := hbind
    rw [hg']
    dsimp only
    rw [if_pos hframe, hbind']

end

/-! ### Releases (R387) -/

section
variable {s : State} {lane : Nat}

theorem State.egress_of_word {d : Word} {t : BitVec 16} {rest : List (Word × BitVec 16)}
    (h : Sparse.get [] s.aport.send lane = (d, t) :: rest) : s.egress lane =
      { s with aport := { s.aport with send := s.aport.send.set [] lane rest, out := s.aport.out.put lane (true, d, t) } } := by
  simp only [State.egress, h]

theorem State.egress_of_none (h : Sparse.get [] s.aport.send lane = []) : s.egress lane =
    { s with aport := { s.aport with out := s.aport.out.put lane (false, (Sparse.get (false, 0, 0) s.aport.out lane).2) } } := by
  simp only [State.egress, h]

end

/-! ### The rows of the sample port -/

section
variable {s : State} {lane : Nat} {data : Word} {tag : BitVec 16} (hrun : s.running = true)
include hrun

theorem exec_ingressWord_of_lane (hlane : lane < 16) : exec (.ingressWord lane data tag) s = .next (s.ingress lane data tag).settle :=
  exec_of_guard rfl (Bool.and_eq_true_iff.mpr ⟨hrun, decide_eq_true hlane⟩)

theorem exec_egressWord_of_lane (hlane : lane < 16) : exec (.egressWord lane) s = .next (s.egress lane).settle :=
  exec_of_guard rfl (Bool.and_eq_true_iff.mpr ⟨hrun, decide_eq_true hlane⟩)

theorem exec_storedWordLand_of_running : exec (.storedWordLand lane) s = .next (s.landStored lane).settle := exec_of_guard rfl hrun

end

/-- Settles O23: a word by its parity and its place, a waiting word by its group, a lane by what its release has left. -/
theorem ingressWordsAndReleases : Obligations.IngressWordsAndReleases := by
  unfold Obligations.IngressWordsAndReleases
  refine ⟨fun lane data tag s hrun hlane => ⟨fun hbad => ?_, fun hgood => ?_⟩,
    fun lane s hrun => ⟨fun w rest hwaits hw => ?_, fun hnone => ?_, fun hlane d t rest hsend => ?_, fun hlane hsend => ?_⟩⟩
  · have hparity : (s.ingress lane data tag).parity = (satWord s.aport.parCnt 1, true) := by
      rw [State.ingress_of_bad hbad, State.capture_parity, State.parityError_parity]
    refine ⟨_, exec_ingressWord_of_lane hrun hlane, ?_⟩
    rw [State.settle_aport, State.settle_hdr_of]
    exact ⟨congrArg Prod.fst hparity, congrArg Prod.snd hparity⟩
  · have hexec {t : State} (ht : s.capture lane data tag (tag.getLsbD 11) = t) :
        exec (.ingressWord lane data tag) s = .next t.settle := by
      rw [exec_ingressWord_of_lane hrun hlane, State.ingress_of_good hgood, ht]
    refine ⟨fun hnone => hexec (State.capture_of_no_group hnone), fun gid g b hgroup =>
      ⟨fun hunfit => hexec (State.capture_of_unfit hgroup hunfit),
        fun hfits hlate => hexec (State.capture_of_finished hgroup hfits hlate),
        fun hfits hearly => hexec (State.capture_of_far hgroup hfits hearly), fun hfits hat hbind => ⟨_, hexec rfl, ?_⟩,
        fun hfits hat hbind => hexec (State.capture_of_next hgroup hfits hat hbind)⟩⟩
    rw [State.settle_aport, State.settle_groups, State.settle_core_of]
    exact State.capture_of_oldest hgroup hfits hat hbind
  · have hexec {t : State} (ht : s.landStored lane = t) : exec (.storedWordLand lane) s = .next t.settle :=
      ht ▸ exec_storedWordLand_of_running hrun
    exact ⟨fun hgone => hexec (State.landStored_of_gone hwaits hw hgone),
      fun g b hg hframe hdone hbind => hexec (State.landStored_of_oldest hwaits hw hg hframe hdone hbind)⟩
  · rw [exec_storedWordLand_of_running hrun, State.landStored_of_none hnone]
  · rw [exec_egressWord_of_lane hrun hlane, State.egress_of_word hsend]
  · refine ⟨_, exec_egressWord_of_lane hrun hlane, ?_⟩
    rw [State.settle_aport, State.egress_of_none hsend]
    exact ⟨congrArg Prod.fst (Sparse.get_put_self _ _ _ _), rfl⟩

end Sys2Proof.Machine

/-! Tile traffic: announcements, resolves and read replies of the tile port (R390 to R394). -/

namespace Sys2Proof.Machine

/-! ### READY (R392) -/

section
variable {s : State} {surf pass tile : Nat}

theorem State.tileReady_of_stray (h : s.passFrames surf pass = []) : s.tileReady surf pass tile = s.strayTile := by
  simp only [State.tileReady, h, List.isEmpty_nil, if_true]

/-- One binding of one frame: the tile is announced to that binding alone. -/
theorem State.tileReady_of_one {gid n b : Nat} {g : Group} (h : s.passFrames surf pass = [(gid, n, [b])])
    (hg : s.group? gid = some g) : s.tileReady surf pass tile = s.readyTile b gid n g.oldest tile := by
  simp only [State.tileReady, h, List.isEmpty_cons, Bool.false_eq_true, if_false, List.foldl_cons, List.foldl_nil, hg, Option.map_some,
    Option.getD_some]

end

section
variable {s : State} {b gid n tile : Nat} (hcount : tile < s.tileCount b) (hlanded : (b, gid, n, tile) ∉ s.tport.landed)
  (hqueued : (b, gid, n, tile) ∉ s.tport.queued) (hpartial : ∀ l, (b, gid, n, tile, l) ∉ s.tport.partials)
include hcount hlanded hqueued hpartial

/-- A tile that is neither landed nor asked for is read at once for the oldest unfinished frame, and kept for the next one. -/
theorem State.readyTile_of_new (oldest : Nat) : s.readyTile b gid n oldest tile = if n = oldest then s.readTile b gid n tile else
    { s with tport := { s.tport with queued := s.tport.queued ++ [(b, gid, n, tile)] } } := by
  refine if_neg (not_or.mpr ⟨hcount.not_ge, not_or.mpr ⟨mt List.contains_iff_mem.mp hlanded,
    not_or.mpr ⟨mt List.contains_iff_mem.mp hqueued, fun hany => ?_⟩⟩⟩)
  obtain ⟨⟨x, y, m, t, l⟩, hmem, hkey⟩ := List.any_eq_true.mp hany
  obtain ⟨rfl, rfl, rfl, rfl⟩ : x = b ∧ y = gid ∧ m = n ∧ t = tile := by simpa using hkey
  exact hpartial l hmem

end

/-! ### RESOLVE (R393, R394) -/

section
variable {s : State} {surf pass tile : Nat}

theorem State.tileResolve_of_stray (h : s.passFrames surf pass = []) (hdone : s.passDone surf pass = []) :
    s.tileResolve surf pass tile = { s.strayTile with tport := { s.strayTile.tport with
      acks := s.tport.acks ++ [(surf, tile, false)], noneCnt := satWord s.tport.noneCnt 1 } } := by
  simp only [State.tileResolve, h, hdone, List.isEmpty_nil, Bool.and_self, if_true]
  rfl

theorem State.tileResolve_of_pending {gid n : Nat} {bs : List Nat} (h : s.passFrames surf pass = [(gid, n, bs)]) :
    s.tileResolve surf pass tile = s.resolvePending surf tile gid n := by
  simp only [State.tileResolve, h, List.isEmpty_cons, Bool.false_and, Bool.false_eq_true, if_false, List.foldl_cons, List.foldl_nil]

theorem State.tileResolve_of_done {gid : Nat} {g : Group} {t : TileFrame} (h : s.passFrames surf pass = [])
    (hdone : s.passDone surf pass = [(gid, g, t)]) : s.tileResolve surf pass tile = s.resolveDone surf tile gid g t := by
  simp only [State.tileResolve, h, hdone, List.isEmpty_nil, List.isEmpty_cons, Bool.and_false, Bool.false_eq_true, if_false, if_true,
    List.foldl_cons, List.foldl_nil]

/-- A resolve of an unfinished frame is answered NONE at once when the frame is late or parked, and waits otherwise. -/
theorem State.resolvePending_of_frame {gid n : Nat} {f : Frame} (h : s.frame? gid n = some f) :
    s.resolvePending surf tile gid n = if f.late = true ∨ f.parked = true then s.ackTile surf gid n tile false f.late else
      { s with tport := { s.tport with resolves := s.tport.resolves ++ [(surf, gid, n, tile)] } } := by
  simp only [State.resolvePending, h, Option.any_some, Bool.or_eq_true]

theorem State.resolveDone_of_ok {gid : Nat} {g : Group} {t : TileFrame} (hok : t.ok = true)
    (hdue : ∀ d, t.due = some d → s.cclk ≤ d) : s.resolveDone surf tile gid g t = s.writeTile gid g t.binds t.n surf tile := by
  have hafter : (t.due.any fun d => decide (d < s.cclk)) = false := by
    cases hd : t.due with
    | none => rfl
    | some d => exact decide_eq_false (hdue d hd).not_gt
  simp only [State.resolveDone, hok, hafter, Bool.not_false, Bool.and_self, if_true]

theorem State.resolveDone_of_failed {gid : Nat} {g : Group} {t : TileFrame} (hok : t.ok = false) (hdue : t.due = none) :
    s.resolveDone surf tile gid g t = s.ackTile surf gid t.n tile false false := by
  simp only [State.resolveDone, hok, hdue, Bool.false_and, Bool.false_eq_true, if_false, Option.any_none]

end

/-! ### Replies to tile reads (R390) -/

/-- The outstanding tile read that a reply to `tag` answers. -/
def State.tileReadOf (s : State) (tag : Nat) : Option TileRead :=
  s.tport.reads.find? fun r => r.tag == tag && decide (tag < 64) && !r.retry

/-- The state in which a tile read waits to be sent again. -/
def State.askAgain (s : State) (r : TileRead) : State :=
  { s with tport := { s.tport with reads := s.tport.reads.map fun x => if x = r then { x with retry := true } else x } }

section
variable {s : State} {tag : Nat} (data : BitVec 512)

theorem State.tileData_of_none (h : ∀ r ∈ s.tport.reads, r.tag ≠ tag) (code : TileCode) : s.tileData tag data code = s := by
  have hfind : s.tport.reads.find? (fun r => r.tag == tag && decide (tag < 64) && !r.retry) = none :=
    List.find?_eq_none.mpr fun r hr => by simp [h r hr]
  simp only [State.tileData, hfind]

variable {r : TileRead} (h : s.tileReadOf tag = some r)
include h

theorem State.tileData_of_ok : s.tileData tag data .ok =
    (({ s with tport := { s.tport with reads := s.tport.reads.erase r } } : State).landTile r data).issueTiles := by
  rw [State.tileReadOf] at h
  simp only [State.tileData, h]

theorem State.tileData_of_notReady : s.tileData tag data .notReady =
    { s.askAgain r with tport := { (s.askAgain r).tport with notReadyCnt := satWord s.tport.notReadyCnt 1 } } := by
  rw [State.tileReadOf] at h
  simp only [State.tileData, h]
  rfl

theorem State.tileData_of_error : s.tileData tag data .error = (((s.askAgain r).raise 4 3).faultFrame r.gid r.frame false).1 := by
  rw [State.tileReadOf] at h
  simp only [State.tileData, h]
  rfl

theorem State.tileData_of_reserved : s.tileData tag data .reserved = s.tileData tag data .error := by
  rw [State.tileReadOf] at h
  simp only [State.tileData, h]

end

theorem State.tileRetry_of_lt {tag : Nat} (s : State) (h : tag < 64) : s.tileRetry tag = { s with tport := { s.tport with
    reads := s.tport.reads.map fun r => if r.tag = tag then { r with retry := false } else r } } := by
  simp only [State.tileRetry, h, and_true]

/-- Settles O24: each event by the frames of its pass, each reply by its code. -/
theorem tileTrafficReachesItsFrames : Obligations.TileTrafficReachesItsFrames := by
  unfold Obligations.TileTrafficReachesItsFrames
  refine ⟨fun surf pass tile s hrun => ?_, fun tag data s hrun htag => ?_⟩
  · have hready {t : State} (ht : s.tileReady surf pass tile = t) : exec (.tileReady surf pass tile) s = .next t.settle :=
      ht ▸ exec_of_guard rfl hrun
    have hresolve {t : State} (ht : s.tileResolve surf pass tile = t) : exec (.tileResolve surf pass tile) s = .next t.settle :=
      ht ▸ exec_of_guard rfl hrun
    refine ⟨exec_of_guard rfl hrun, fun hstray => hready (State.tileReady_of_stray hstray),
      fun gid n b g hpass hg hcount hlanded hqueued hpartial => ?_,
      fun hstray hdone => hresolve (State.tileResolve_of_stray hstray hdone), fun gid n bs f hpass hf hlate hparked => ?_,
      fun gid n bs f hpass hf hgone => ?_, fun gid g t hpass hdone => ⟨fun hok hdue => ?_, fun hok hdue => ?_⟩⟩
    · have hnew := (State.tileReady_of_one hpass hg).trans (State.readyTile_of_new hcount hlanded hqueued hpartial g.oldest)
      exact ⟨fun hn => hready (hnew.trans (if_pos hn)), fun hn => hready (hnew.trans (if_neg hn))⟩
    · exact hresolve ((State.tileResolve_of_pending hpass).trans ((State.resolvePending_of_frame hf).trans
        (if_neg (by rw [hlate, hparked]; decide))))
    · exact hresolve ((State.tileResolve_of_pending hpass).trans ((State.resolvePending_of_frame hf).trans (if_pos hgone)))
    · exact hresolve ((State.tileResolve_of_done hpass hdone).trans (State.resolveDone_of_ok hok hdue))
    · exact hresolve ((State.tileResolve_of_done hpass hdone).trans (State.resolveDone_of_failed hok hdue))
  · have hdata {code : TileCode} {t : State} (ht : s.tileData tag data code = t) :
        exec (.tileReadData tag data code) s = .next t.settle := ht ▸ exec_of_guard rfl hrun
    refine ⟨fun r hr => ⟨hdata (State.tileData_of_ok data hr), hdata (State.tileData_of_notReady data hr),
      hdata (State.tileData_of_error data hr), ?_⟩, fun hnone code => hdata (State.tileData_of_none data hnone code), ?_⟩
    · exact (hdata (State.tileData_of_reserved data hr)).trans (hdata rfl).symm
    · rw [exec_of_guard (i := .tileRetry tag) rfl hrun, State.tileRetry_of_lt s htag]

end Sys2Proof.Machine

/-! Reset inputs, power domains, and the firmware image (R400, R406 to R409, R415 to R417). -/

namespace Sys2Proof.Machine

/-! ### Lines that stand at their levels -/

theorem State.settle_eq_sendMessages (s : State) :
    s.settle = { s.sendMessages s.rises (List.range 16) with irq := s.irqLevels } := rfl

/-- A state whose lines stand at their levels is settled. -/
theorem State.settle_of_irqOk {s : State} (h : s.irqOk) : s.settle = s := by
  have hno : ∀ l, s.rises l = false := fun l => by rw [State.rises, ← h, Bool.and_not_self]
  have hsend : s.sendMessages s.rises (List.range 16) = s :=
    State.sendMessages_of_none fun l _ hl => absurd ((hno l).symm.trans hl) Bool.false_ne_true
  rw [State.settle_eq_sendMessages, hsend, ← h]

/-! ### Reset (R406, R407) -/

section
variable (s : State)

/-- Everything at its reset value but what no reset input of the engine reaches. -/
def State.cleared : State := { State.reset with
  conf := s.conf, fuse := s.fuse, host := s.host, hostOpen := s.hostOpen, fresh := s.fresh, pending := s.pending
  power := { State.reset.power with pdtAck := s.power.pdtAck }
  packs := (s.packs.filter fun e => e.2.pdAck).map fun e => (e.1, { pdAck := true })
  cores := (s.cores.filter fun e => e.2.pdAck).map fun e => (e.1, { pdAck := true, ageWarn := s.fuse.ageWarn }) }

theorem State.assertReset_porst :
    s.assertReset true = { s.cleared with boot := { State.reset.boot with por := true, eng := s.boot.eng } } := by
  simp only [State.assertReset, State.cleared, Bool.or_true, Bool.not_true, Bool.or_false, Bool.and_false, if_true]
  rfl

theorem State.assertReset_engRst : s.assertReset false = { s.cleared with
    boot := { State.reset.boot with por := s.boot.por, eng := true }
    glb := { State.reset.glb with pllLock := s.glb.pllLock }, tap := s.tap } := by
  simp only [State.assertReset, State.cleared, Bool.or_true, Bool.not_false, Bool.or_false, Bool.and_true, Bool.false_eq_true, if_false]

/-- No event is left, so every line is low. -/
theorem State.assertReset_irqOk (por : Bool) : (s.assertReset por).irqOk := rfl

end

section
variable {s : State} {por eng : Bool}

/-- The reset inputs after a release. -/
def Boot.released (b : Boot) (por eng : Bool) : Boot := { b with por := b.por && !por, eng := b.eng && !eng }

theorem exec_resetRelease_of_held (h : (s.boot.released por eng).por = true ∨ (s.boot.released por eng).eng = true) :
    exec (.resetRelease por eng) s = .next ({ s with boot := s.boot.released por eng } : State).settle := by
  have hrun : ({ s with boot := s.boot.released por eng } : State).running = false := by
    rcases h with h | h <;> simp [State.running, h]
  exact congrArg (fun t : State => Host.Outcome.next t.settle) (if_neg (Bool.eq_false_iff.mp hrun))

/-- The release of the last asserted input is T0. -/
theorem exec_resetRelease_of_last (hreset : s.running = false) (hpor : (s.boot.released por eng).por = false)
    (heng : (s.boot.released por eng).eng = false) (hrom : s.boot.stage = .rom) :
    exec (.resetRelease por eng) s = .next ({ s with boot := s.boot.released por eng, fclk := 0 } : State).powerUp.settle := by
  have hrun : ({ s with boot := s.boot.released por eng } : State).running = true := by simp [State.running, hpor, heng]
  have hstage : ({ s with boot := s.boot.released por eng, fclk := 0 } : State).boot.stage = .rom := hrom
  refine congrArg (fun t : State => Host.Outcome.next t.settle) ((if_pos hrun).trans ?_)
  rw [hreset]
  exact if_pos hstage

end

/-- Settles O25: an asserted input leaves a state without events, and a release acts once no input is asserted. -/
theorem resetsClearAndTheLastReleaseIsTZero : Obligations.ResetsClearAndTheLastReleaseIsTZero := by
  unfold Obligations.ResetsClearAndTheLastReleaseIsTZero
  refine ⟨fun s => ⟨?_, ?_, rfl, rfl⟩, fun por eng s hreset => ⟨fun hheld => exec_resetRelease_of_held hheld,
    fun hpor heng hrom => exec_resetRelease_of_last hreset hpor heng hrom⟩⟩
  · exact congrArg Host.Outcome.next ((State.settle_of_irqOk (s.assertReset_irqOk true)).trans s.assertReset_porst)
  · exact congrArg Host.Outcome.next ((State.settle_of_irqOk (s.assertReset_irqOk false)).trans s.assertReset_engRst)

/-! ### Power domains (R400, R407, R409) -/

section
variable {s : State} {d : Domain} {level : Bool}

/-- The state after an ACK has taken a level; the clock of a core follows it while its REQ stands (R370). -/
def State.atAck (s : State) (d : Domain) (level : Bool) : State :=
  match d with
  | .core c => (s.setAck d level).updCore c fun k => { k with cclk := level && k.pdReq && s.running }
  | _ => s.setAck d level

theorem State.atAck_running : (s.atAck d level).running = s.running := by cases d <;> rfl

theorem State.ackTo_of_absent (h : s.hasDomain d = false) : s.ackTo d level = s := if_pos (by rw [h]; rfl)

variable (h : s.hasDomain d = true)
include h

/-- A level that loses no domain lets the boot ROM go on. -/
theorem State.ackTo_of_kept (hkept : (s.running && s.pdAck d && !level && s.pdReq d) = false) :
    s.ackTo d level = if s.running then (s.atAck d level).powerUp else s.atAck d level := by
  have hrun := State.atAck_running (s := s) (d := d) (level := level)
  simp only [State.ackTo, h, hkept, Bool.not_true, Bool.not_false, Bool.and_true, Bool.false_eq_true, if_false, State.raiseIf]
  rw [← hrun]
  cases d <;> rfl

/-- A domain that is lost raises PD_LOST, and a core leaves service. -/
theorem State.ackTo_of_lost (hrun : s.running = true) (hack : s.pdAck d = true) (hreq : s.pdReq d = true) : s.ackTo d false =
    match d with
    | .core c => ((s.atAck d false).raise 2 0).retireCore c
    | _ => (s.atAck d false).raise 2 0 := by
  simp only [State.ackTo, h, hrun, hack, hreq, Bool.not_true, Bool.not_false, Bool.and_self, Bool.and_false, Bool.false_eq_true, if_false,
    if_true, State.raiseIf]
  cases d <;> rfl

end

section
variable {s : State}

/-- While a REQ stands, or before the first ACK, the boot ROM raises the REQ of the next domain. -/
theorem State.powerUp_of_going
    (h : (∃ x ∈ s.allDomains, s.pdReq x = true) ∨ ∀ x ∈ s.allDomains, s.pdAck x = false) : 
    s.powerUp = (s.nextDomain s.wanted).elim s fun d => s.setReq d true := by
  have hguard : ¬ (s.allDomains.all (fun d => !s.pdReq d) && s.allDomains.any s.pdAck) = true := by
    simp only [Bool.and_eq_true, List.all_eq_true, List.any_eq_true, Bool.not_eq_true', not_and]
    rintro hall ⟨x, hx, hack⟩
    rcases h with ⟨y, hy, hreq⟩ | hno
    · exact Bool.false_ne_true ((hall y hy).symm.trans hreq)
    · exact Bool.false_ne_true ((hno x hx).symm.trans hack)
  rw [State.powerUp, if_neg hguard]
  cases s.nextDomain s.wanted <;> rfl

/-- ACKs that stand before any REQ hold the boot ROM. -/
theorem State.powerUp_of_standing (hreq : ∀ x ∈ s.allDomains, s.pdReq x = false) (hack : ∃ x ∈ s.allDomains, s.pdAck x = true) :
    s.powerUp = s := by
  refine if_pos (Bool.and_eq_true_iff.mpr ⟨List.all_eq_true.mpr fun x hx => ?_, List.any_eq_true.mpr hack⟩)
  rw [hreq x hx]
  rfl

/-- The next domain is the first without an ACK, unless its REQ waits for it. -/
theorem State.nextDomain_append {pre post : List Domain} {d : Domain} (hpre : ∀ x ∈ pre, s.pdAck x = true) (hd : s.pdAck d = false) :
    s.nextDomain (pre ++ d :: post) = if s.pdReq d = true then none else some d := by
  induction pre with
  | nil => simp only [List.nil_append, State.nextDomain, hd, Bool.false_eq_true, if_false]
  | cons x pre ih =>
    obtain ⟨hx, hrest⟩ := List.forall_mem_cons.mp hpre
    rw [List.cons_append, State.nextDomain, if_pos hx, ih hrest]

end

/-- Settles O26: an ACK by whether it loses its domain, and the next REQ by the first domain without an ACK. -/
theorem domainsArePoweredOneAfterAnother : Obligations.DomainsArePoweredOneAfterAnother := by
  unfold Obligations.DomainsArePoweredOneAfterAnother
  intro d level s acked
  have hexec {b : Bool} {t : State} (ht : s.ackTo d b = t) : exec (.powerDomainAck d b) s = .next t.settle :=
    congrArg (fun t : State => Host.Outcome.next t.settle) ht
  refine ⟨fun habs => hexec (State.ackTo_of_absent habs), fun hd hreset => ?_, fun hd hrun hkept => ?_, fun hd hrun hack hreq => ?_,
    fun pre post hwanted hpre hnext hgoing => ?_, State.powerUp_of_standing⟩
  · refine hexec ((State.ackTo_of_kept hd (by rw [hreset]; rfl)).trans ?_)
    rw [hreset]
    cases d <;> rfl
  · have hlost : (s.running && s.pdAck d && !level && s.pdReq d) = false := by
      rcases hkept with h | h | h <;> simp [h]
    refine hexec ((State.ackTo_of_kept hd hlost).trans ?_)
    rw [hrun]
    cases d <;> rfl
  · refine hexec ((State.ackTo_of_lost hd hrun hack hreq).trans ?_)
    cases d <;> rfl
  · rw [State.powerUp_of_going hgoing, hwanted, State.nextDomain_append hpre hnext]
    split_ifs <;> rfl

/-! ### The firmware image (R408, R415 to R417) -/

section
variable {s : State}

theorem State.fwCmd_of_none {v : Word} (h : v.getLsbD 0 = false) : s.fwCmd v = s := if_neg (Bool.eq_false_iff.mp h)

/-- The registers of the boot ROM after a LOAD (R415). -/
def Boot.loading (b : Boot) : Boot :=
  match b.stage with
  | .rom => { b with loadHeld := true }
  | .early => { b with stage := .verify }
  | _ => { b with code := 7 }

theorem State.fwCmd_of_load {v : Word} (h : v.getLsbD 0 = true) : s.fwCmd v = { s with boot := s.boot.loading } := by
  cases hstage : s.boot.stage <;> simp only [State.fwCmd, h, if_true, Boot.loading, hstage]

theorem exec_fwLoad_of_grants {v : Word} {acc : Acc} (hg : s.grants 0x8C acc = true) :
    exec (.fwLoad v acc) s = .next ((s.answered acc).fwCmd v).settle := exec_of_cfgWrite rfl hg rfl

theorem State.fwDone_of_good (h : s.fwVerdict .ok = 1) :
    s.fwDone .ok = ({ s with boot := { s.boot with stage := .cal, code := 1 } } : State).powerUp := if_pos h

theorem State.fwDone_of_bad (h : s.fwVerdict .ok ≠ 1) : s.fwDone .ok = ({ s with boot := { s.boot with
    stage := .early, code := s.fwVerdict .ok, attempts := min 255 (s.boot.attempts + 1) } } : State).raise 0 3 := if_neg h

theorem State.fwVerdict_of_memErr {mem : MemCode} (h : mem ≠ .ok) : s.fwVerdict mem = 2 := if_pos h

theorem State.fwDone_of_memErr {mem : MemCode} (h : mem ≠ .ok) : s.fwDone mem =
    ({ s.memErr mem false (addr48 s.boot.fwLo s.boot.fwHi) .control with boot := { s.boot with
      stage := .early, code := 2, attempts := min 255 (s.boot.attempts + 1) } } : State).raise 0 3 := by
  have hboot : (s.memErr mem false (addr48 s.boot.fwLo s.boot.fwHi) .control).boot = s.boot := by
    unfold State.memErr
    dsimp only
    split_ifs <;> rfl
  rw [State.fwDone, State.memCheck_of_error _ _ _ _ h]
  dsimp only
  rw [State.fwVerdict_of_memErr h, hboot]
  rfl

/-- The verdict FW_OK says that every check has passed (R416). -/
theorem State.checks_of_fwVerdict (hgood : s.fwVerdict .ok = 1) :
    let a := addr48 s.boot.fwLo s.boot.fwHi
    let h := s.hostRead a 256
    fwHeaderOk h = true ∧ s.fuse.keyHash ≠ 0 ∧ leNat (sha384 (natBytes ((h.drop 64).take 96))) = s.fuse.keyHash.toNat ∧
      s.fuse.svn.toNat ≤ fieldAt h 12 4 ∧
      ecdsaOk (beField h 64) (beField h 112) (beField h 160) (beField h 208)
        (beNat (sha384 (natBytes (h.take 160 ++ s.hostRead (a + 256) (fieldAt h 4 4))))) = true := by
  unfold State.fwVerdict at hgood
  dsimp only at hgood ⊢
  split_ifs at hgood with hmem hheader hkey hsig hsvn
  · exact absurd rfl hmem
  iterate 4 · exact absurd hgood (by decide)
  obtain ⟨hfuse, hhash⟩ := not_or.mp hkey
  exact ⟨Bool.eq_true_of_not_eq_false hheader, hfuse, not_not.mp hhash, Nat.not_lt.mp hsvn, Bool.eq_true_of_not_eq_false hsig⟩

end

/-- Settles O27: LOAD by the stage, the end of verification by its verdict. -/
theorem theFirmwareImageIsLoadedAndVerified : Obligations.TheFirmwareImageIsLoadedAndVerified := by
  unfold Obligations.TheFirmwareImageIsLoadedAndVerified
  refine fun s hrun => ⟨fun v acc hg => ⟨fun hv => ?_, fun hv => ?_⟩, fun hstage hpf mem => ?_, fun hstage hpf => ?_,
    State.checks_of_fwVerdict⟩
  · rw [exec_fwLoad_of_grants hg, State.fwCmd_of_none hv]
  · rw [exec_fwLoad_of_grants hg, State.fwCmd_of_load hv]
    rfl
  · exact exec_of_not_guard rfl (by rw [hpf, Bool.not_true, Bool.and_false])
  · have hguard : (s.running && s.boot.stage == .verify && !s.glb.pf) = true := by rw [hrun, hstage, hpf]; rfl
    have hexec {mem : MemCode} {t : State} (ht : s.fwDone mem = t) : exec (.fwVerifyComplete mem) s = .next t.settle :=
      ht ▸ exec_of_guard rfl hguard
    exact ⟨fun hgood => hexec (State.fwDone_of_good hgood), fun hbad => hexec (State.fwDone_of_bad hbad),
      fun mem hmem => hexec (State.fwDone_of_memErr hmem)⟩

end Sys2Proof.Machine

/-! Early service and handover (R409, R410, R415, R418). -/

namespace Sys2Proof.Machine

/-! ### The array test of bring-up (R410) -/

/-- The failures of the test that concern core `c`. -/
def failsOf (fails : List (Nat × Nat × Nat × Bool)) (c : Nat) : List (Nat × Nat × Nat × Bool) :=
  fails.eraseDups.filter fun (q, a, col, _) => q == c && decide (a < 4) && decide (col < 32)

/-- A core with `n` more corrected errors. -/
def Core.counted (k : Core) (n : Nat) : Core := { k with ceCnt := satWord k.ceCnt n }

theorem Core.counted_mxa (k : Core) (n a : Nat) : (k.counted n).mxa a = k.mxa a := rfl

section
variable (s : State) (c : Nat)

theorem State.bringUpTest_of_clean {fails : List (Nat × Nat × Nat × Bool)} (h : failsOf fails c = []) :
    s.bringUpTest c fails = s.updCore c fun k => k.counted 0 := by
  rw [failsOf] at h
  simp only [State.bringUpTest, h]
  rfl

theorem failsOf_self {a col : Nat} (twice : Bool) (ha : a < 4) (hcol : col < 32) :
    failsOf [(c, a, col, twice)] c = [(c, a, col, twice)] := by
  simp [failsOf, List.eraseDups_cons, ha, hcol]

/-- A column that fails both runs is bypassed. -/
theorem State.bringUpTest_of_twice {a col : Nat} (ha : a < 4) (hcol : col < 32) :
    s.bringUpTest c [(c, a, col, true)] = (s.updCore c fun k => k.counted 0).bypass c a col := by
  have h := failsOf_self c true ha hcol
  rw [failsOf] at h
  simp only [State.bringUpTest, h]
  rfl

/-- A column that fails one run is counted. -/
theorem State.bringUpTest_of_once {a col : Nat} (ha : a < 4) (hcol : col < 32) :
    s.bringUpTest c [(c, a, col, false)] = s.updCore c fun k => k.counted 1 := by
  have h := failsOf_self c false ha hcol
  rw [failsOf] at h
  simp only [State.bringUpTest, h]
  rfl

theorem State.bypass_core_ne {d : Nat} (a col : Nat) (h : d ≠ c) : (s.bypass c a col).core d = s.core d := by
  unfold State.bypass
  dsimp only
  split_ifs
  · rw [State.recost_core, State.raise_core_of, State.updCore_core, if_neg h]
  · exact State.retireCore_core_ne h

theorem State.bringUpTest_core_ne {d : Nat} (fails : List (Nat × Nat × Nat × Bool)) (h : d ≠ c) :
    (s.bringUpTest c fails).core d = s.core d := by
  refine (State.foldl_keeps (part := fun t => t.core d) _ (fun t (x : Nat × Nat) => t.bypass_core_ne c x.1 x.2 h) _).trans ?_
  rw [State.updCore_core, if_neg h]

end

/-- In a fold of steps that each change the core they name, a core sees its own step alone. -/
theorem State.foldl_core_of_one {f : State → Nat → State} {c : Nat} {l : List Nat}
    (hother : ∀ t x, c ≠ x → (f t x).core c = t.core c) (hnodup : l.Nodup) (hc : c ∈ l) (s : State) :
    ∃ t, t.core c = s.core c ∧ (l.foldl f s).core c = (f t c).core c := by
  have hkeep (m : List Nat) (hm : c ∉ m) (t : State) : (m.foldl f t).core c = t.core c := by
    induction m generalizing t with
    | nil => rfl
    | cons x m ih =>
      obtain ⟨hx, hrest⟩ := not_or.mp (mt List.mem_cons.mpr hm)
      rw [List.foldl_cons, ih hrest, hother _ _ hx]
  obtain ⟨pre, post, rfl⟩ := List.append_of_mem hc
  have hpre : c ∉ pre := fun hmem => (List.nodup_append.mp hnodup).2.2 c hmem c List.mem_cons_self rfl
  have hpost : c ∉ post := (List.nodup_cons.mp (List.nodup_append.mp hnodup).2.1).1
  refine ⟨pre.foldl f s, hkeep pre hpre s, ?_⟩
  rw [List.foldl_append, List.foldl_cons, hkeep post hpost]

/-! ### What clean array tests and budgets leave alone -/

/-- What bring-up reports and hands over, beside the cores and the packs. -/
structure Service where
  conf : Conf
  boot : Boot
  fclk : Nat
  sd : Sheepdog
  hdrs : Sparse Hdr
  rings : Sparse Ring
  groups : Sparse Group
  fences : Sparse Fence

def State.service (s : State) : Service := ⟨s.conf, s.boot, s.fclk, s.sd, s.hdrs, s.rings, s.groups, s.fences⟩

section
variable {s : State}

/-- A test without failures counts nothing, and takes no core out of service. -/
theorem State.bringUpTest_clean (s : State) (c : Nat) : (s.bringUpTest c []).service = s.service ∧
    (s.bringUpTest c []).packs = s.packs ∧ ∀ d, ((s.bringUpTest c []).core d).inService = (s.core d).inService := by
  rw [State.bringUpTest_of_clean s c rfl]
  refine ⟨rfl, rfl, fun d => ?_⟩
  rw [State.updCore_core]
  split_ifs with hd
  · rw [hd]
    rfl
  · rfl

variable {α : Type} (g : α → Nat) (l : List α)

theorem State.foldl_bringUpTest_service : (l.foldl (fun t x => t.bringUpTest (g x) []) s).service = s.service :=
  State.foldl_keeps (part := State.service) l (fun t x => (t.bringUpTest_clean (g x)).1) s

theorem State.foldl_bringUpTest_packs : (l.foldl (fun t x => t.bringUpTest (g x) []) s).packs = s.packs :=
  State.foldl_keeps (part := State.packs) l (fun t x => (t.bringUpTest_clean (g x)).2.1) s

theorem State.foldl_bringUpTest_inService (d : Nat) :
    ((l.foldl (fun t x => t.bringUpTest (g x) []) s).core d).inService = (s.core d).inService :=
  State.foldl_keeps (part := fun t => (t.core d).inService) l (fun t x => (t.bringUpTest_clean (g x)).2.2 d) s

end

theorem State.foldl_updPack_pack (f : Pack → Pack) (n p : Nat) (s : State) :
    ((List.range n).foldl (fun t p => t.updPack p f) s).pack p = if p < n then f (s.pack p) else s.pack p := by
  induction n generalizing p with
  | zero => rfl
  | succ n ih =>
    rw [List.range_succ, List.foldl_append, List.foldl_cons, List.foldl_nil, State.updPack_pack]
    by_cases hp : p = n
    · rw [if_pos hp, if_pos (by omega), ih, if_neg (lt_irrefl n), hp]
    · rw [if_neg hp, ih]
      exact if_congr (by omega) rfl rfl

theorem State.raise_hdr_congr {s u : State} (hhdrs : u.hdrs = s.hdrs) (hfclk : u.fclk = s.fclk) (p b q : Nat) :
    (u.raise p b).hdr q = (s.raise p b).hdr q := by
  simp only [State.raise, State.raiseAs, State.updHdr, State.hdr, hhdrs, hfclk]

/-! ### ENTER_EARLY (R409, R410, R415) -/

/-- The state as it enters EARLY, once the arrays are tested. -/
def State.atEarly (s : State) : State :=
  { s with boot := { s.boot with
    stage := if s.boot.loadHeld then .verify else .early, loadHeld := false, earlyAt := s.stamp
    code := if (List.range 4).all fun c => !(s.core c).inService then 8 else s.boot.code } }

theorem State.enterEarly_eq (s : State) (fails : List (Nat × Nat × Nat × Bool)) :
    s.enterEarly fails = ((List.range 4).foldl (fun t c => t.bringUpTest c fails) s).atEarly.raise 0 1 := rfl

/-- What entering EARLY depends on, of a state whose arrays are tested. -/
theorem State.atEarly_boot_congr {s u : State} (hboot : u.boot = s.boot) (hfclk : u.fclk = s.fclk)
    (hserv : ∀ c, (u.core c).inService = (s.core c).inService) : u.atEarly.boot = s.atEarly.boot := by
  simp only [State.atEarly, State.stamp, hboot, hfclk, hserv]

theorem State.enterEarly_clean (s : State) :
    (s.enterEarly []).boot = s.atEarly.boot ∧ (s.enterEarly []).hdr 0 = (s.raise 0 1).hdr 0 := by
  have hservice := State.foldl_bringUpTest_service (s := s) (fun c : Nat => c) (List.range 4)
  simp only [State.service, Service.mk.injEq] at hservice
  obtain ⟨-, hboot, hfclk, -, hhdrs, -⟩ := hservice
  rw [State.enterEarly_eq]
  exact ⟨State.atEarly_boot_congr hboot hfclk fun d => State.foldl_bringUpTest_inService (fun c : Nat => c) _ d,
    State.raise_hdr_congr (by exact hhdrs) (by exact hfclk) 0 1 0⟩

/-- A core after ENTER_EARLY is what its own array test leaves of it. -/
theorem State.enterEarly_core (s : State) {c : Nat} (fails : List (Nat × Nat × Nat × Bool)) (hc : c < 4) :
    ∃ t : State, t.core c = s.core c ∧ (s.enterEarly fails).core c = (t.bringUpTest c fails).core c :=
  State.foldl_core_of_one (fun (t : State) d h => t.bringUpTest_core_ne d fails h) List.nodup_range (List.mem_range.mpr hc) s

theorem exec_enterEarly_of_ready {s : State} (fails : List (Nat × Nat × Nat × Bool)) (hrun : s.running = true)
    (hrom : s.boot.stage = .rom) (hack : ∀ d ∈ romDomains, s.pdAck d = true) :
    exec (.enterEarly fails) s = .next (s.enterEarly fails).settle :=
  exec_of_guard rfl (by rw [hrun, hrom, List.all_eq_true.mpr hack]; rfl)

/-! ### HANDOVER (R418) -/

/-- The state as it enters FULL, once the arrays are tested and the budgets stand. -/
def State.handed (s : State) : State :=
  { s with sd := { s.sd with rom := false }
           boot := { s.boot with stage := .full, fullAt := s.stamp, code := if s.boot.code = 7 then 1 else s.boot.code } }

/-- A pack whose entries have their whole budget. -/
def Pack.budgeted (x : Pack) : Pack := { x with entries := x.entries.map fun e => (e.1, { e.2 with budget := 256 }) }

/-- The state whose new cores are tested without a failure. -/
def State.tested (s : State) : State := (List.range (s.conf.cores - 4)).foldl (fun t i => t.bringUpTest (4 + i) []) s

/-- The state at the end of CAL with every budget restored. -/
def State.budgeted (s : State) : State := (List.range s.tested.conf.packs).foldl (fun t p => t.updPack p Pack.budgeted) s.tested

theorem State.handover_eq (s : State) : s.handover [] = s.budgeted.handed.raise 0 2 := rfl

theorem State.budgeted_service (s : State) : s.budgeted.service = s.service :=
  (State.foldl_keeps (part := State.service) (f := fun t p => t.updPack p Pack.budgeted) _ (fun _ _ => rfl) s.tested).trans
    (State.foldl_bringUpTest_service (fun i => 4 + i) _)

theorem State.budgeted_pack (s : State) {p : Nat} (hp : p < s.conf.packs) : s.budgeted.pack p = (s.pack p).budgeted := by
  have hpacks : s.tested.packs = s.packs := State.foldl_bringUpTest_packs (fun i => 4 + i) _
  have hconf : s.tested.conf = s.conf := congrArg Service.conf (State.foldl_bringUpTest_service (s := s) (fun i => 4 + i) _)
  have hpack : s.tested.pack p = s.pack p := by rw [State.pack, hpacks, State.pack]
  rw [State.budgeted, State.foldl_updPack_pack, hconf, if_pos hp, hpack]

theorem exec_handover_of_ready {s : State} (hrun : s.running = true) (hcal : s.boot.stage = .cal) (hpf : s.glb.pf = false)
    (hack : ∀ d ∈ s.allDomains, s.pdAck d = true) : exec (.handover []) s = .next (s.handover []).settle :=
  exec_of_guard rfl (by rw [hrun, hcal, hpf, List.all_eq_true.mpr hack]; rfl)

/-- Settles O28: the engine enters EARLY on what the array tests leave, and FULL with every budget restored. -/
theorem earlyServiceAndHandover : Obligations.EarlyServiceAndHandover := by
  unfold Obligations.EarlyServiceAndHandover
  refine ⟨fun s hrun hrom hack => ⟨?_, fun c a col hc ha hcol hbyps => ⟨?_, ?_⟩⟩, fun s hrun hcal hpf hack => ?_⟩
  · refine ⟨_, exec_enterEarly_of_ready [] hrun hrom hack, ?_⟩
    rw [State.settle_boot, State.settle_hdr_of]
    exact s.enterEarly_clean
  · obtain ⟨t, ht, hcore⟩ := s.enterEarly_core [(c, a, col, true)] hc
    have hcounted : (t.updCore c fun k => k.counted 0).core c = (s.core c).counted 0 := by
      rw [State.updCore_core, if_pos rfl, ht]
    refine ⟨_, exec_enterEarly_of_ready _ hrun hrom hack, ?_⟩
    rw [State.settle_core_of, hcore, State.bringUpTest_of_twice t c ha hcol, State.bypass_mxa, hcounted, Core.counted_mxa]
    rw [hcounted, Core.counted_mxa]
    exact hbyps
  · obtain ⟨t, ht, hcore⟩ := s.enterEarly_core [(c, a, col, false)] hc
    refine ⟨_, exec_enterEarly_of_ready _ hrun hrom hack, ?_⟩
    rw [State.settle_core_of, hcore, State.bringUpTest_of_once t c ha hcol, State.updCore_core, if_pos rfl, ht]
    exact ⟨rfl, rfl⟩
  · have hservice := s.budgeted_service
    simp only [State.service, Service.mk.injEq] at hservice
    obtain ⟨-, -, hfclk, hsd, hhdrs, hrings, hgroups, hfences⟩ := hservice
    refine ⟨_, exec_handover_of_ready hrun hcal hpf hack, ?_⟩
    rw [State.handover_eq, State.settle_boot, State.settle_sd, State.settle_hdr_of, State.settle_rings,
      State.settle_groups, State.settle_fences]
    refine ⟨rfl, congrArg (fun n => min 0xFFFFFFFF (n / 1024)) hfclk, congrArg (fun d : Sheepdog => { d with rom := false }) hsd,
      State.raise_hdr_congr (by exact hhdrs) (by exact hfclk) 0 2 0, fun p hp => ?_, hrings, hgroups, hfences⟩
    rw [State.settle_pack_of]
    exact congrArg Pack.entries (s.budgeted_pack hp)

end Sys2Proof.Machine
